-- ==== Sys2Proof/Word.lean ====
section
/-! DEFINITION. The words of the Otyth: bytes, 32-bit words, 64-bit dwords and 128-bit entries (R3). -/

namespace Sys2Proof

/-- A byte; addresses count bytes (R3). -/
abbrev Byte := BitVec 8

/-- A half is 16 bits (R3). -/
abbrev Half := BitVec 16

/-- A word is 32 bits (R3). -/
abbrev Word := BitVec 32

/-- A dword is 64 bits (R3). -/
abbrev Dword := BitVec 64

/-- A register field of an instruction word: a register number (R237). -/
abbrev Reg := BitVec 8

/-- A predicate number (R241). -/
abbrev PredNo := BitVec 3

/-- The width field W of an instruction word (R241). -/
abbrev Width := BitVec 2

end Sys2Proof
end

