-- ==== Sys2Proof/Syntax.lean ====
section
/-! DEFINITION. The steps of the Otyth as syntax: one constructor of Instr for each row of the operation table.
The instructions of the seven classes carry the fields of their encodings (R237-R243); the steps of the device
carry what the step brings from outside, or the object of the machine they act on. -/

namespace Sys2Proof

/-! ## Codes of instruction fields -/

/-- Element formats, in the order of their FMT codes 0 to 13 (R62). -/
inductive Fmt where
  | bytes | int8 | int16 | int32 | int64 | fp16 | bf16 | fp32 | fp64 | d8 | fp4x | int4g | rq32 | rq64
  deriving DecidableEq, Repr

/-- Cache policies, POLICY codes 0 to 2 (R62). -/
inductive Policy where
  | dflt | bypass | stream
  deriving DecidableEq, Repr

/-- Scopes, codes 0 to 5 (R168). -/
inductive Scope where
  | thread | block | cluster | device | domain | system
  deriving DecidableEq, Repr

/-- Atomic operations, AOP codes 0 to 10 (R238). -/
inductive AOp where
  | add | sub | min | max | and | or | xor | xchg | cas | incwrap | decwrap
  deriving DecidableEq, Repr

/-- The RND field: the mode in force, or an override with one of the codes 0 to 4 (R238). -/
inductive Rnd where
  | inForce
  | forced (m : BitVec 3)
  deriving DecidableEq, Repr

/-- Conditions of ICMP, MOD 0 to 9 (R287). -/
inductive ICond where
  | eq | ne | lt | le | gt | ge | ltu | leu | gtu | geu
  deriving DecidableEq, Repr

/-- Conditions of FCMP, MOD 0 to 7 (R305). -/
inductive FCond where
  | eq | ne | lt | le | gt | ge | un | ord
  deriving DecidableEq, Repr

/-- Modes of IMAD, MOD 0 to 2 (R280). -/
inductive SatMode where
  | wrap | sat | usat
  deriving DecidableEq, Repr

/-- Integer types of FCVTI and ICVTF, MOD 0 to 3 (R312). -/
inductive IntTy where
  | s32 | u32 | s64 | u64
  deriving DecidableEq, Repr

/-- Source modes of SHFL, MOD[1:0] (R292). -/
inductive ShflMode where
  | at | below | above | flip
  deriving DecidableEq, Repr

/-- Modes of VOTE, MOD 0 to 5 (R294). -/
inductive VoteMode where
  | every | some | same | mask | live | pos
  deriving DecidableEq, Repr

/-- Operations of LRED and LSCAN, MOD 0 to 12 (R295). -/
inductive LaneOp where
  | add | min | max | minu | maxu | and | or | xor | fadd | fmin | fmax | fminnum | fmaxnum
  deriving DecidableEq, Repr

/-- Access kinds of LD and ST, MOD[1:0] (R321). -/
inductive LdSize where
  | raw | byte | half | x
  deriving DecidableEq, Repr

/-- Ordering modifiers of atomics, MOD[2:1] (R325). -/
inductive Ordering3 where
  | none | acq | rel | ar
  deriving DecidableEq, Repr

/-- Kinds of FENCE, IMM8[4:3] 1 to 3 (R331). -/
inductive FenceKind where
  | rel | acq | ar
  deriving DecidableEq, Repr

/-- Operations of CCTL, MOD 0 to 2 (R361). -/
inductive CctlOp where
  | iinv | wb | wbi
  deriving DecidableEq, Repr

/-- Kinds of RNG, IMM8[1:0] 0 to 2 (R356). -/
inductive RngKind where
  | u32 | f32 | f64
  deriving DecidableEq, Repr

/-- The inline parameter block of a P-form instruction: MASK and PW0 to PW3 (R240). -/
structure PBlock where
  mask : BitVec 4
  pw0 : Word
  pw1 : Word
  pw2 : Word
  pw3 : Word
  deriving DecidableEq, Repr

/-! ## What the device steps carry -/

/-- A compute die, a stack or an edge die (R22, R27). -/
inductive HwUnit where
  | die (d : BitVec 3)
  | stack (n : BitVec 4)
  | edge (e : BitVec 1)
  deriving DecidableEq, Repr

/-- What a port learns of its link while it trains (R32, R40). -/
structure PeerInfo where
  devid : BitVec 10
  arch : BitVec 4
  step : BitVec 4
  roundTripNs : Nat
  deriving DecidableEq, Repr

/-- One data flit: a 64-byte sector and its 64-bit sideband (R35). -/
structure Flit where
  sector : BitVec 512
  side : Dword
  deriving DecidableEq, Repr

/-- A view of another device as an invocation from it brings it: its tag and its index among its siblings (R96, R105). -/
structure FarView where
  vtag : Nat
  index : Nat
  deriving DecidableEq, Repr

/-- A fabric message: the fields of its header flit (R36), the sideband of that flit (R35), its data flits, and the port
it came in by, none for one that this device makes; and, with an IVQ or IVO that comes from a view, that view and those about it, the
innermost first, as its device tells them (log 20). The last two are no part of the message. -/
structure Msg where
  ty : Byte
  flits : BitVec 6
  vc : BitVec 2
  src : BitVec 10
  dst : BitVec 10
  tenant : BitVec 6
  scope : BitVec 3
  hops : BitVec 4
  rsv1 : BitVec 15
  addr : BitVec 53
  rsv2 : BitVec 11
  tag : Word
  mchk : Word
  opw : Dword
  inl : BitVec 256
  side : Dword
  data : List Flit
  via : Option (BitVec 5)
  views : List FarView := []
  deriving DecidableEq, Repr

/-! ### Forks, folds and speculative views that reach other devices

The spec gives the messages by which the devices of a join agree no type of their own (R107, R114, R50; log 8): the steps
of a join, a drop, a commit and a fold carry what those messages bring. -/

/-- The run of views of a fork or of a committing speculative view, as another device must know it: the tenant, the first
view tag, how many, the chain of view tags from the parent's view outwards (empty for the root view), and whether the
fork runs at DL0. -/
structure FarFork where
  tenant : BitVec 6
  vtag0 : Nat
  n : Nat
  parents : List Nat
  dl0 : Bool
  deriving DecidableEq, Repr

/-- What another device answers about the slots that it holds for a fork (R107, R109, R112): the INTEG cause under which
its message was lost, the OUTSIDE granules (how many, the lowest with its lowest child), the conflicting bytes (how many,
the lowest with its two lowest children), the flags that its folds raise, the granules that it merges, and the further
devices on which the views hold slots. Addresses are virtual. -/
structure FarReport where
  dev : BitVec 10
  lost : Option Nat
  outs : Nat
  outLow : Option (Nat × Nat)
  confs : Nat
  confLow : Option (Nat × Nat × Nat)
  flags : BitVec 5
  merged : List Nat
  far : List Nat
  deriving DecidableEq, Repr

/-- Whose join, drop or commit a step belongs to: a block of this device, with the answers of the other devices that hold
slots of it; a run of views opened on another device; or such a run whose join that device has aborted. -/
inductive JoinAt where
  | own (block : Nat) (reports : List FarReport)
  | far (run : FarFork)
  | abort (run : FarFork)
  deriving DecidableEq, Repr

/-- A step of a drop (R115): a block's fork ends, once the other devices that run tasks of its views have told that those have
ended; the tasks of views of another device end here, as it has told this one, of a drop or of a squash, with the devices further on
that have told the same; or views of another device are freed. -/
inductive DropAt where
  | own (block : Nat) (ended : List (BitVec 10))
  | ends (src : BitVec 10) (tenant : BitVec 6) (vtags : List Nat) (squash : Bool) (ended : List (BitVec 10))
  | far (tenant : BitVec 6) (vtags : List Nat)
  deriving DecidableEq, Repr

/-- The contributions of one block of a grid to one element of a reduction page (R50). -/
structure Contribution where
  path : List Nat
  va : Nat
  op : AOp
  fmt : Fmt
  value : Dword
  deriving DecidableEq, Repr

/-- A reduction page that a fold takes in, by the address of its first byte, with what the other devices contribute to it
(R50). -/
structure FoldAt where
  page : Dword
  others : List Contribution
  deriving DecidableEq, Repr

/-- A block whose passed view commits, with the answers of the other devices that hold slots of the view (R135). -/
structure CommitAt where
  block : Nat
  reports : List FarReport
  deriving DecidableEq, Repr

/-- What makes an access: the ACCESS codes of a fault record (R74). -/
inductive Access where
  | load | store | atomic | fetch | engine | queue
  deriving DecidableEq, Repr

/-- The wait whose timer a BARRIER_TIMEOUT step ends (R227). -/
inductive TimedWait where
  | bar (block : Nat) (index : Nat)
  | cbar (cluster : Nat) (index : Nat)
  | spec (block : Nat)
  | specend (block : Nat)
  | tbwait (block : Nat) (thread : Nat)
  deriving DecidableEq, Repr

/-! ## The instructions and steps

Objects of the running machine (grids, blocks, engine operations, pending results) are named by the numbers under
which State lists them; a tenant, a queue or a core by its number. -/

/-- Every operation and event of the operation table, one constructor a row. -/
inductive Instr where
  -- package, bring-up, power, loss (R15-R27)
  | unitJoin (u : HwUnit)
  | unitJoinTimeout (u : HwUnit)
  | hlinkTrain (link : BitVec 1) (ok : Bool)
  | fportTrain (port : BitVec 5) (ok : Bool) (peer : PeerInfo)
  | powerCapEnforce (watts : Nat)
  | thermalThrottle (die : BitVec 4)
  | thermalGate (die : BitVec 4)
  | thermalRestore (die : BitVec 4)
  | stackLost (n : BitVec 4)
  | computeDieLost (d : BitVec 3)
  | edgeDieLost (e : BitVec 1)
  | hlinkLost (link : BitVec 1)
  -- board management (R28-R30)
  | pcap (watts : Option (BitVec 16))
  | fwchunk (off : Word) (bytes : List Byte)
  | attest (nonce : Option (BitVec 256))
  | i3cUnassignedCommand (code : Byte)
  -- fabric (R31-R50)
  | fabidWrite (v : Dword)
  | routeEntryWrite (id : BitVec 10) (v : Word)
  | ldq (m : Msg)
  | lda (m : Msg)
  | stq (m : Msg)
  | sta (m : Msg)
  | atq (m : Msg)
  | ata (m : Msg)
  | sig (m : Msg)
  | mcs (m : Msg)
  | mca (m : Msg)
  | cpw (m : Msg)
  | ivq (m : Msg)
  | ivo (m : Msg)
  | hpl (m : Msg)
  | hrs (m : Msg)
  | hbk (m : Msg)
  | nak (m : Msg)
  | messageForward (m : Msg)
  | flitReplay (port : BitVec 5)
  | flowStop (port : BitVec 5) (vc : BitVec 2)
  | flowGo (port : BitVec 5) (vc : BitVec 2)
  | crossDeviceFold (grid : Dword) (page : FoldAt)
  -- host registers (R53-R59)
  | registerWrite (off : BitVec 24) (v : Dword)
  | tenantEnWrite (t : BitVec 6) (v : Dword)
  | wideEntryLowWrite (t : BitVec 6) (off : BitVec 9) (v : Dword)
  | wideEntryHighWrite (t : BitVec 6) (off : BitVec 9) (v : Dword)
  | mpshareWrite (t : BitVec 6) (v : Dword)
  | slshareWrite (t : BitVec 6) (v : Dword)
  | poolBaseWrite (size : Bool) (v : Dword)
  | imaskWrite (t : BitVec 6) (v : Dword)
  | hostApertureLoad (t : BitVec 6) (off : BitVec 53) (n : BitVec 7)
  | hostApertureStore (t : BitVec 6) (off : BitVec 53) (bytes : List Byte)
  | hostLineInvalidate (addr : Dword) (bytes : List Byte)
  -- translation (R60-R66)
  | tableWalk (t : BitVec 6) (va : Dword) (acc : Access)
  | tlbinvAll (t : BitVec 6)
  | tlbinvSpan (t : BitVec 6) (span : BitVec 5) (vpage : BitVec 36)
  | tlbinvComplete (t : BitVec 6)
  -- queues and the fault queue (R68-R75)
  | queueControlWrite (t : BitVec 6) (q : BitVec 4) (v : Dword)
  | notify (t : BitVec 6) (v : Dword)
  | launchRecordRead (t : BitVec 6) (q : BitVec 4)
  | qtlWrite (t : BitVec 6) (q : BitVec 4) (k : BitVec 3) (v : Dword)
  | launchStart (t : BitVec 6) (q : BitVec 4)
  | launchComplete (grid : Nat)
  | fqbaseWrite (t : BitVec 6) (v : Dword)
  | fqControlWrite (t : BitVec 6) (v : Dword)
  | fqheadWrite (t : BitVec 6) (v : Dword)
  | resume (t : BitVec 6) (seq : BitVec 62)
  | kill (t : BitVec 6) (q : BitVec 4)
  -- dispatch, pre-emption, turns (R76-R94)
  | qsuspWrite (t : BitVec 6) (v : Dword)
  | blockSave (block : Nat)
  | blockRestore (block : Nat)
  | governorRound (core : Nat)
  | turnBoundary (grid : Nat)
  -- views, handles, speculation (R95-R136)
  | viewpoolDeadlock (t : BitVec 6)
  | childComplete (block : Nat)
  | joinCheck (j : JoinAt)
  | joinApply (j : JoinAt)
  | vdropComplete (d : DropAt)
  | taskComplete (grid : Nat)
  | sluiceTimeout (block : Nat) (thread : Nat)
  | specSlotTimeout (block : Nat)
  | specCheck (block : Nat)
  | specCommit (block : CommitAt)
  | specRestore (block : Nat)
  -- issue, matrix, blocks, waits, engines (R140-R172, R227, R235, R257, R339-R355)
  | clauseIssue (core : Nat) (bundle : Nat)
  | bundleDraw (core : Nat) (bin : Nat)
  | boltDrain (core : Nat) (bin : Nat)
  | resultWriteback (pending : Nat)
  | matrixPassGrant (wheel : Nat)
  | matrixEntryAged (wheel : Nat) (entry : Nat)
  | matrixPassComplete (wheel : Nat)
  | blockComplete (block : Nat)
  | lineEviction (core : Nat) (index : Nat)
  | barrierTimeout (w : TimedWait)
  | rwaitTimeout (block : Nat) (tag : Nat)
  | copyComplete (op : Nat)
  | engineAbandon (op : Nat)
  | nbgemvComplete (op : Nat)
  -- class INT (R276)
  | iadd (w : Width) (d a b : Reg)
  | iaddImm (w : Width) (d a : Reg) (i : BitVec 8)
  | iaddc (w : Width) (d a b : Reg) (pco : PredNo) (pci : Option PredNo)
  | isub (w : Width) (d a b : Reg)
  | isubImm (w : Width) (d a : Reg) (i : BitVec 8)
  | imul (w : Width) (d a b : Reg)
  | imulh (w : Width) (d a b : Reg)
  | imad (w : Width) (d a b c : Reg) (m : SatMode)
  | idiv (w : Width) (d a b : Reg)
  | irem (w : Width) (d a b : Reg)
  | ineg (w : Width) (d a : Reg)
  | iabs (w : Width) (d a : Reg)
  | imin (w : Width) (d a b : Reg)
  | imax (w : Width) (d a b : Reg)
  | idp4 (d a b c : Reg) (sa sb sat : Bool)
  | shl (w : Width) (d a b : Reg)
  | shlImm (w : Width) (d a : Reg) (i : BitVec 8)
  | shr (w : Width) (d a b : Reg)
  | shrImm (w : Width) (d a : Reg) (i : BitVec 8)
  | sar (w : Width) (d a b : Reg)
  | sarImm (w : Width) (d a : Reg) (i : BitVec 8)
  | rol (w : Width) (d a b : Reg)
  | rolImm (w : Width) (d a : Reg) (i : BitVec 8)
  | andReg (w : Width) (d a b : Reg)
  | orReg (w : Width) (d a b : Reg)
  | xorReg (w : Width) (d a b : Reg)
  | notReg (w : Width) (d a : Reg)
  | andn (w : Width) (d a b : Reg)
  | andImm32 (w : Width) (d a : Reg) (i : Word)
  | orImm32 (w : Width) (d a : Reg) (i : Word)
  | xorImm32 (w : Width) (d a : Reg) (i : Word)
  | popc (w : Width) (d a : Reg)
  | clz (w : Width) (d a : Reg)
  | ctz (w : Width) (d a : Reg)
  | brev (w : Width) (d a : Reg)
  | bfx (w : Width) (d a b : Reg) (signed : Bool)
  | bfi (w : Width) (d a b c : Reg)
  | prmb (d a b c : Reg)
  | isel (w : Width) (d a b : Reg) (pc : PredNo)
  | icmp (w : Width) (pd : PredNo) (a b : Reg) (pc : PredNo) (cond : ICond)
  | imov (w : Width) (d a : Reg)
  | movi (w : Width) (d : Reg) (i : Half)
  | movhi (d : Reg) (i : Half)
  | moviImm32 (w : Width) (d : Reg) (i : Word)
  | lea (d a b : Reg) (sh : BitVec 3) (u : Bool)
  | pand (pd pa pb : PredNo)
  | por (pd pa pb : PredNo)
  | pxor (pd pa pb : PredNo)
  | pnot (pd pa : PredNo)
  | pmov (pd pa : PredNo)
  -- class FLT (R301)
  | fadd (w : Width) (d a b : Reg) (rnd : Rnd) (fmt : Fmt) (x2 : Bool)
  | fsub (w : Width) (d a b : Reg) (rnd : Rnd) (fmt : Fmt) (x2 : Bool)
  | fmul (w : Width) (d a b : Reg) (rnd : Rnd) (fmt : Fmt) (x2 : Bool)
  | ffma (w : Width) (d a b c : Reg) (rnd : Rnd) (fmt : Fmt) (x2 : Bool)
  | fdiv (w : Width) (d a b : Reg) (rnd : Rnd) (fmt : Fmt) (x2 : Bool)
  | fsqrt (w : Width) (d a : Reg) (rnd : Rnd) (fmt : Fmt) (x2 : Bool)
  | fmin (w : Width) (d a b : Reg) (fmt : Fmt) (x2 : Bool)
  | fmax (w : Width) (d a b : Reg) (fmt : Fmt) (x2 : Bool)
  | fminnum (w : Width) (d a b : Reg) (fmt : Fmt) (x2 : Bool)
  | fmaxnum (w : Width) (d a b : Reg) (fmt : Fmt) (x2 : Bool)
  | fcmp (w : Width) (pd : PredNo) (a b : Reg) (pc : PredNo) (fmt : Fmt) (cond : FCond)
  | fclass (w : Width) (d a : Reg) (fmt : Fmt)
  | fabs (w : Width) (d a : Reg) (fmt : Fmt) (x2 : Bool)
  | fneg (w : Width) (d a : Reg) (fmt : Fmt) (x2 : Bool)
  | fcopysign (w : Width) (d a b : Reg) (fmt : Fmt) (x2 : Bool)
  | frint (w : Width) (d a : Reg) (rnd : Rnd) (fmt : Fmt) (x2 : Bool) (nx : Bool)
  | fscale (w : Width) (d a b : Reg) (rnd : Rnd) (fmt : Fmt) (x2 : Bool)
  | fgetexp (w : Width) (d a : Reg) (fmt : Fmt) (x2 : Bool)
  | fcvt (w : Width) (d a b : Reg) (rnd : Rnd) (dt st : Fmt) (xn : BitVec 4)
  | fcvti (w : Width) (d a : Reg) (rnd : Rnd) (st : Fmt) (it : IntTy)
  | icvtf (w : Width) (d a : Reg) (rnd : Rnd) (dt : Fmt) (it : IntTy)
  | frcpa (w : Width) (d a : Reg)
  | frsqa (w : Width) (d a : Reg)
  | fexp2a (w : Width) (d a : Reg)
  | flog2a (w : Width) (d a : Reg)
  | fsina (w : Width) (d a : Reg)
  | fcosa (w : Width) (d a : Reg)
  | qmake (w : Width) (d a b : Reg) (rnd : Rnd) (fmt : Fmt)
  | qnum (w : Width) (d a : Reg) (fmt : Fmt)
  | qden (w : Width) (d a : Reg) (fmt : Fmt)
  | qmed (w : Width) (d a b : Reg) (rnd : Rnd) (fmt : Fmt)
  | qcanon (w : Width) (d a : Reg) (fmt : Fmt)
  -- class MEM (R320)
  | ld (w : Width) (d a : Reg) (off : BitVec 8) (pol : Policy) (fresh : Bool) (fmt : Fmt) (size : LdSize) (sx : Bool)
  | st (w : Width) (d a : Reg) (off : BitVec 8) (rnd : Rnd) (pol : Policy) (fresh : Bool) (fmt : Fmt) (size : LdSize)
  | lds (w : Width) (d a : Reg) (off : BitVec 8)
  | sts (w : Width) (d a : Reg) (off : BitVec 8)
  | ldc (w : Width) (d a : Reg) (off : BitVec 8)
  | stc (w : Width) (d a : Reg) (off : BitVec 8)
  | ldm (w : Width) (d a : Reg) (off : BitVec 8)
  | stm (w : Width) (d a : Reg) (off : BitVec 8)
  | atom (w : Width) (d a b c : Reg) (scope : Scope) (op : AOp) (fmt : Fmt) (nf : Bool) (ord : Ordering3) (uns : Bool)
  | atoms (w : Width) (d a b c : Reg) (scope : Scope) (op : AOp) (fmt : Fmt) (ord : Ordering3) (uns : Bool)
  | red (w : Width) (a b : Reg) (scope : Scope) (op : AOp) (fmt : Fmt) (uns : Bool)
  | fence (kind : FenceKind) (scope : Scope)
  | discard (a : Reg) (n : BitVec 8)
  | pref (a : Reg) (off : BitVec 8) (pol : Policy)
  | stmc (w : Width) (d a b : Reg)
  -- class CTL (R254)
  | bra (i : Half)
  | bri (a : Reg)
  | call (d : Reg) (i : Half)
  | calli (d a : Reg)
  | ret (a : Reg)
  | bar (i : BitVec 8)
  | cbar (i : BitVec 8)
  | fork (a : Reg) (i : Word)
  | invoke (d a b c : Reg) (n : BitVec 4)
  | invokeOn (d a b c : Reg) (n : BitVec 4)
  | await (d a : Reg) (pb : PredNo) (trap : Bool)
  | hpoll (d a : Reg)
  | hdrop (a : Reg)
  | spec (a : Reg)
  | bolt (d a : Reg) (i : Word)
  -- class ENG (R337)
  | cpy (d a : Reg) (st tb : Bool) (p : PBlock)
  | cpyg (d a : Reg) (tb : Bool) (p : PBlock)
  | cpys (d a : Reg) (tb : Bool) (p : PBlock)
  | cpyr (d a : Reg) (ss tb : Bool) (p : PBlock)
  | tbinit (a : Reg) (i : Word)
  | tbarrive (d a : Reg)
  | tbexpect (a b : Reg)
  | tbwait (pd : PredNo) (a b : Reg)
  | tbtest (d a b : Reg)
  | tlwait (a : Reg) (k : BitVec 3)
  | tlread (d : Reg) (k : BitVec 3)
  | tladd (a : Reg) (k : BitVec 3)
  | mma (p : PBlock)
  | accrd (w : Width) (d a : Reg) (m : BitVec 2) (fmt : Fmt)
  | accwr (w : Width) (d a : Reg) (m : BitVec 2) (fmt : Fmt)
  | accz (m : BitVec 2) (pair : Bool)
  | nbgemv (d a : Reg) (tb : Bool) (p : PBlock)
  | rng (w : Width) (d : Reg) (kind : RngKind)
  -- class LANE (R292)
  | shfl (w : Width) (d a b : Reg) (po : PredNo) (g : BitVec 3) (mode : ShflMode) (wrap : Bool)
  | vote (d a : Reg) (mode : VoteMode)
  | lred (w : Width) (d a : Reg) (rnd : Rnd) (fmt : Fmt) (op : LaneOp) (g : BitVec 3)
  | lscan (w : Width) (d a : Reg) (rnd : Rnd) (fmt : Fmt) (op : LaneOp) (g : BitVec 3) (ex : Bool)
  | lmatch (w : Width) (d a : Reg)
  | qswp (w : Width) (d a : Reg) (m : BitVec 2) (po : PredNo)
  | qbcast (w : Width) (d a : Reg) (k : BitVec 2) (po : PredNo)
  -- class SYS (R337)
  | srd (w : Width) (d : Reg) (r : Half)
  | swr (w : Width) (d : Reg) (r : Half)
  | trap (i : Half)
  | bkpt (i : Half)
  | cctl (a : Reg) (off : BitVec 8) (op : CctlOp)
  | clock (d : Reg)
  -- the steps listed last in the table (R18, R21, R28, R42, R173)
  | dynamicAddressAssignment (addr : BitVec 7)
  | flitAcknowledge (port : BitVec 5) (n : Nat)
  -- the rows without operands, last (of every class above)
  | deviceReset
  | fullServiceRequest
  | fullServiceSwitch
  | thermtrip
  | refclkOutOfTolerance
  | telem
  | caps
  | fwcommit
  | fwstatus
  | dispatchStep
  | priorityPreempt
  | exit
  | nop
  | yield
  | reform
  | rwait
  | join
  | vdrop
  | specend
  | eret
  | deviceResetAssert
  | refclkInTolerance
  | inBandInterruptAccept
  | hostStoreAcknowledge
  deriving DecidableEq, Repr

end Sys2Proof
end

