-- ==== Sys2Proof/Config.lean ====
section
/-! DEFINITION. What the device's implementation fixes, and the free values: opaque constants without a body, so that
nothing can depend on what they are. -/

namespace Sys2Proof.Config

/-- A free choice among several things that the spec leaves unordered, for a value of the state's counter (log 3). -/
opaque choice : Nat → Nat

/-- A free byte: the content of a sector that a rule leaves indeterminate (R27, R44, R186). -/
opaque freeByte : Nat → Byte

/-- A free bit: which of two contents an access returns where a rule allows either (R187, R233). -/
opaque freeBit : Nat → Bool

/-- A byte of the telemetry page, whose layout the spec does not give (R28), by its offset and the counter. -/
opaque telemetry : Nat → Nat → Byte

/-- The signature that a firmware image carries and whether the fused key accepts it (R29). -/
opaque signatureOk : List Byte → Bool

/-- The version that a firmware image carries (R29). -/
opaque imageVersion : List Byte → Nat

/-- The lowest version that the fuses permit (R29). -/
opaque fusedVersion : Nat

/-- The image of the boot ROM's own stage k as measured at reset (R29). -/
opaque bootStage : Nat → List Byte

/-- The attestation signature over a report (R30). -/
opaque attestSignature : List Byte → List Byte

/-- The device identity certificate chain that a report holds (R30). -/
opaque deviceIdentity : List Byte

/-- The L2 slice, of 128, that homes a 256-byte line in full service: a hash that the spec does not give (R22). -/
opaque homeSlice : Nat → Nat

/-- Where in the reserved region the device keeps the Sluice entry of a tenant's slot (R26, R122). -/
opaque sluiceAddr : Nat → Nat → Nat

/-- Where in the pool the device keeps the Millpond slot of a view's granule, by tenant, view tag and granule, or a
version of a tile, by its slot's place (R56, R102, R131). -/
opaque poolAddr : Nat → Nat → Nat → Nat

end Sys2Proof.Config
end

