-- ==== Sys2Proof/Machine/Sparse.lean ====
section
/-! DEFINITION. Sparse tables: a list of numbered entries in one canonical form, numbers strictly rising and no entry
equal to what an unlisted number reads as. Device memory, host memory, register files and scratchpads are such
tables of bytes and words. -/

namespace Sys2Proof

/-- A sparse table of values. -/
abbrev Sparse (α : Type) := List (Nat × α)

/-- What a number reads as: its entry, or the default. -/
def Sparse.get {α : Type} (d : α) : Sparse α → Nat → α
  | [], _ => d
  | (k, v) :: l, n => if k = n then v else Sparse.get d l n

/-- The entry of a number, if it is listed. -/
def Sparse.find {α : Type} : Sparse α → Nat → Option α
  | [], _ => none
  | (k, v) :: l, n => if k = n then some v else Sparse.find l n

/-- Whether a number is listed. -/
def Sparse.has {α : Type} : Sparse α → Nat → Bool
  | [], _ => false
  | (k, _) :: l, n => k == n || Sparse.has l n

/-- Removal of the entry of a number. -/
def Sparse.erase {α : Type} (l : Sparse α) (n : Nat) : Sparse α := l.filter (fun e => e.1 != n)

/-- Insertion of an entry in a table of rising numbers, in place of the one that stood there. -/
def Sparse.put {α : Type} : Sparse α → Nat → α → Sparse α
  | [], n, v => [(n, v)]
  | (k, w) :: l, n, v =>
    if n < k then (n, v) :: (k, w) :: l
    else if n = k then (n, v) :: l
    else (k, w) :: Sparse.put l n v

/-- A write: the value is listed unless it is the default, and then no entry stands. -/
def Sparse.set {α : Type} [DecidableEq α] (d : α) : Sparse α → Nat → α → Sparse α
  | [], n, v => if v = d then [] else [(n, v)]
  | (k, w) :: l, n, v =>
    if n < k then (if v = d then (k, w) :: l else (n, v) :: (k, w) :: l)
    else if n = k then (if v = d then l else (n, v) :: l)
    else (k, w) :: Sparse.set d l n v

/-- The canonical form, from a lower bound on the first number. -/
def Sparse.wfFrom {α : Type} [DecidableEq α] (d : α) : Nat → Sparse α → Bool
  | _, [] => true
  | lo, (k, v) :: l => decide (lo ≤ k) && decide (v ≠ d) && Sparse.wfFrom d (k + 1) l

/-- The canonical form of a sparse table. -/
def Sparse.wf {α : Type} [DecidableEq α] (d : α) (l : Sparse α) : Bool := Sparse.wfFrom d 0 l

/-- A table of bytes by address: device memory, host memory, a scratchpad. -/
abbrev Memory := List Host.Cell

/-- The canonical form of a memory: an unlisted byte reads as zero (log 2). -/
def Memory.wf (m : Memory) : Bool := Sparse.wf (0 : Byte) m

/-- The byte at an address (log 2: an unlisted byte reads as zero). -/
def Memory.byte (m : Memory) (a : Nat) : Byte := Sparse.get 0 m a

/-- A write of one byte. -/
def Memory.setByte (m : Memory) (a : Nat) (b : Byte) : Memory := Sparse.set 0 m a b

/-- The bytes from an address on. -/
def Memory.read (m : Memory) (a : Nat) : Nat → List Byte
  | 0 => []
  | n + 1 => Memory.byte m a :: Memory.read m (a + 1) n

/-- A write of bytes from an address on. -/
def Memory.write (m : Memory) (a : Nat) : List Byte → Memory
  | [] => m
  | b :: bs => Memory.write (Memory.setByte m a b) (a + 1) bs

/-- Bytes as a number, little-endian (R3). -/
def bytesToNat : List Byte → Nat
  | [] => 0
  | b :: bs => b.toNat + 256 * bytesToNat bs

/-- The first n bytes of a number, little-endian (R3). -/
def natToBytes : Nat → Nat → List Byte
  | 0, _ => []
  | n + 1, v => BitVec.ofNat 8 v :: natToBytes n (v / 256)

end Sys2Proof
end

