-- ==== Sys2Proof/Machine/State.lean ====
section
/-! DEFINITION. The state of the Otyth as plain data: the package, the tenants, the fabric, the memories, the grids,
blocks and threads in flight, and what the units beside the cores hold. -/

namespace Sys2Proof.Machine

/-! ## Package, bring-up, board management (R15-R30) -/

/-- Firmware under way (R28, R29). -/
structure Firmware where
  /-- the staging image, by byte offset -/
  staging : Sparse (BitVec 8)
  /-- FWSTATUS: the state code of R28 -/
  status : BitVec 8
  /-- a verified image that takes effect at the next device reset -/
  verified : Option (List Byte)
  /-- the image in force -/
  running : List Byte
  deriving DecidableEq, Repr

/-- An I3C reply: acknowledged with bytes, or not acknowledged (R28). -/
inductive I3cReply where
  | ack (bytes : List Byte)
  | nak
  deriving DecidableEq, Repr

/-- The package and its management block (R15-R32, R56, R81). -/
structure Package where
  inReset : Bool
  service : BitVec 2
  fullMap : Bool
  fsRequest : Bool
  arch : BitVec 4
  step : BitVec 4
  dies : BitVec 8
  hbm : BitVec 16
  edges : BitVec 2
  hlinks : BitVec 2
  fports : BitVec 18
  failed : List HwUnit
  lost : List HwUnit
  trainFail : List Nat
  /-- clock of each compute die in MHz; an unlisted die has the reset clock -/
  clockMHz : Sparse Nat
  throttled : BitVec 10
  gated : BitVec 10
  powerCap : BitVec 16
  capUnmet : Bool
  thermTrip : Bool
  refclkBad : Bool
  ibi : Nat
  i3cAddr : Option (BitVec 7)
  i3cReplies : List I3cReply
  firmware : Firmware
  measure : List (BitVec 512)
  nonce : BitVec 256
  mpbase : BitVec 10
  mpsize : BitVec 10
  pdelay : Word
  pen : Bool
  /-- the cycles for which each die's arithmetic clock has stood still (R2, R16) -/
  still : Sparse Nat
  deriving DecidableEq, Repr

/-! ## Fabric (R31-R50) -/

/-- A port (R40-R42): what it learned of its peer and told it of itself, how often in succession the flit that it awaits has failed
its link check and how many replays it has asked for, the messages in its replay buffer with the flits of
each that are not acknowledged, the virtual channels on which it has been told to stop, what waits for GO, and the
channels on which it has told its peer to stop. -/
structure Port where
  trained : Bool
  peer : Option PeerInfo
  gave : Option (BitVec 4 × BitVec 4)
  failures : Nat
  asks : Nat
  unacked : List (Msg × Nat)
  stopped : BitVec 4
  waiting : List Msg
  told : BitVec 4
  deriving DecidableEq, Repr

/-- One entry of the route table (R33). -/
structure Route where
  valid : Bool
  port : BitVec 5
  deriving DecidableEq, Repr

/-- One entry of the multicast tree table (R45), as its dword. -/
structure Tree where
  bits : Dword
  deriving DecidableEq, Repr

/-- A multicast in flight at this device (R46): where its aggregate goes, what is outstanding, the highest status. -/
structure Mcast where
  /-- the TAG of the copies that this device sends on -/
  id : Nat
  tag : Word
  tenant : Nat
  parent : Option (BitVec 10)
  left : Nat
  status : Nat
  /-- the INTEG cause under which one of its messages was lost (R44) -/
  lost : Option Nat
  /-- the issuing thread's block, thread, pc, and the address stored to; none for a message from another device -/
  issuer : Option (Nat × Nat × Dword × Nat)
  deriving DecidableEq, Repr

/-! ## Tenants and queues (R53-R75, R80-R82) -/

/-- A translation leaf as a walk gives it (R61-R64). -/
inductive PageKind where
  | local
  | host
  | remote
  deriving DecidableEq, Repr

/-- A leaf: the page's virtual base and size, where it lies, and its attributes. -/
structure Leaf where
  base : Nat
  size : Nat
  kind : PageKind
  /-- local: the physical base; host: the offset in the window; remote: the target device -/
  addr : Nat
  win : Nat
  rd : Bool
  wr : Bool
  ex : Bool
  view : Bool
  fmt : Fmt
  geom : Nat
  redop : Nat
  policy : Nat
  domain : Nat
  deriving DecidableEq, Repr

/-- A TLB entry (R66): the TLB that holds it, of core n as n and of die d as 512 + d. -/
structure TlbEntry where
  site : Nat
  tenant : Nat
  leaf : Leaf
  deriving DecidableEq, Repr

/-- A table pointer that a TLB holds (R66): the region whose walk goes through it, its table, and the levels that remain. -/
structure TlbPtr where
  site : Nat
  tenant : Nat
  base : Nat
  size : Nat
  table : Nat
  rest : List Nat
  deriving DecidableEq, Repr

/-- A memory window (R58). -/
structure Window where
  hbase : BitVec 52
  pages : BitVec 36
  valid : Bool
  rd : Bool
  wr : Bool
  deriving DecidableEq, Repr

/-- An interrupt vector entry (R57). -/
structure Ivec where
  addr : Dword
  data : Word
  deriving DecidableEq, Repr

/-- A role of a kernel (R249). -/
structure Role where
  first : Nat
  count : Nat
  regs : Nat
  deriving DecidableEq, Repr

/-- The kernel header (R249). -/
structure Kernel where
  addr : Dword
  features : BitVec 5
  entry : Word
  handler : Word
  threads : Nat
  cluster : Nat
  bars : Nat
  tbars : Nat
  scratch : Nat
  roles : List Role
  deriving DecidableEq, Repr

/-- A launch record that has passed its validation (R70, R71): the address it was read at, its sequence number, its
dwords, and the kernel that its header describes. -/
structure Record where
  va : Nat
  seq : Nat
  words : List Dword
  kernel : Kernel
  deriving DecidableEq, Repr

/-- A queue (R68, R71). -/
structure Queue where
  qbase : BitVec 53
  en : Bool
  prio : BitVec 3
  dl : BitVec 2
  trace : BitVec 2
  log2size : BitVec 5
  quota : Word
  qhead : Word
  qtail : Word
  ovr : Bool
  stop : Bool
  seed : BitVec 128
  traceAddr : BitVec 53
  qtl : Sparse Dword
  dcsum : Dword
  /-- the sequence numbers of launches and tasks (R72) -/
  launchSeq : Nat
  taskSeq : Nat
  /-- records read and not started (R71) -/
  waiting : List Record
  /-- the trace buffer could not be written, and nothing more is written to it (R89) -/
  traceFailed : Bool
  traceOvf : Bool
  /-- COUNT and LAUNCHES of the trace being recorded -/
  traceCount : Nat
  traceLaunches : Nat
  /-- the launch that the queue started last and the one it had started last when EN was written to 1, as grid numbers (0:
  none), and the grid numbers in use then: which launch comes before another is not told by SEQ across that write (R71) -/
  lastStarted : Nat
  prior : Nat
  epoch : Nat
  deriving DecidableEq, Repr

/-- A fault record (R74). -/
structure FaultRec where
  seq : Nat
  code : Byte
  cause : Byte
  access : BitVec 3
  queue : BitVec 4
  count : Word
  grid : Dword
  block : Word
  thread : BitVec 11
  core : BitVec 9
  pc : Dword
  addr : Dword
  aux0 : Dword
  aux1 : Dword
  deriving DecidableEq, Repr

/-- A thread at an instruction: its block, its number and the instruction's address (R74). -/
structure Site where
  block : Nat
  tid : Nat
  pc : Dword
  deriving DecidableEq, Repr

/-- A device store to host memory that Noern-H has not acknowledged (R52, R173): whose it is, the virtual and the host
address of its sector, and what the host held there before. -/
structure HostStore where
  tenant : Nat
  va : Nat
  sector : Nat
  before : List Byte
  /-- the record that its loss posts, which names the thread that stored it (R44, R74) -/
  record : FaultRec
  deriving DecidableEq, Repr

/-- A record that suspends threads and is not resolved (R67, R225): what merges into it, and who is suspended. -/
structure OpenRec where
  record : FaultRec
  /-- true where it merges by page (XLATE and PROT from translation) -/
  byPage : Bool
  written : Bool
  /-- block and thread of each suspended thread -/
  threads : List (Nat × Nat)
  deriving DecidableEq, Repr

/-- The fault queue of a tenant (R73). -/
structure FaultQueue where
  base : BitVec 53
  en : Bool
  log2 : BitVec 5
  head : Word
  tail : Word
  lostCount : Word
  nextSeq : Nat
  /-- unresolved records that suspend -/
  opened : List OpenRec
  /-- records held for room, in arrival order; the flag tells those that suspend -/
  held : List (Bool × FaultRec)
  deriving DecidableEq, Repr

/-- The states of a Sluice entry (R122). -/
inductive HState where
  | free | held | unplaced | placed | ready | broken
  deriving DecidableEq, Repr

/-- What a task takes from the thread that invoked it (R72, R83, R123, R218): D, its number among the tasks of its queue at
its home, the queue, priority, level and quota, the launch it belongs to, and the view of that thread. -/
structure Terms where
  rngD : Dword
  seq : Nat
  queue : Nat
  prio : BitVec 3
  dl : BitVec 2
  quota : Nat
  root : Nat
  vtag : Nat
  deriving DecidableEq, Repr

/-- An IVO queued on a handle (R48, R126). -/
structure Ivo where
  handle : Dword
  kernel : Dword
  args : List Word
  terms : Terms
  deriving DecidableEq, Repr

/-- A Sluice entry (R120-R126). -/
structure Sluice where
  gen : BitVec 24
  st : HState
  dropped : Bool
  /-- the launch that issued it, as a grid number -/
  owner : Nat
  /-- the block that issued it and its number on tl3 -/
  block : Nat
  tlNum : Nat
  vtag : Nat
  /-- where the task was placed: device and die -/
  place : Option (BitVec 10 × Nat)
  done : Bool
  result : List Word
  code : Byte
  hops : Byte
  reason : BitVec 2
  ivos : List Ivo
  /-- handle that an INVOKE.ON addressed -/
  onHandle : Option Dword
  /-- what the issuing block had done and knew, for the order of R91 -/
  knows : Sparse Nat
  /-- the other devices on which a thread waits for it (R48) -/
  waiters : List (BitVec 10)
  deriving DecidableEq, Repr

/-- A tenant: its control block and its page (R53-R58, R73, R80-R82, R228). -/
structure Tenant where
  en : Bool
  rootv : Bool
  root : BitVec 27
  mpshare : BitVec 16
  slshare : BitVec 15
  ivec : Sparse Ivec
  win : Sparse Window
  /-- staged low dwords of IVEC and WIN entries, by offset in the control block -/
  staged : Sparse Dword
  domset : BitVec 1024
  savebase : BitVec 24
  savesize : BitVec 16
  diemask : BitVec 8
  ncore : BitVec 7
  imask : BitVec 4
  ipend : BitVec 4
  tlbBusy : Bool
  /-- the span of the invalidation in progress: its base and size (R66) -/
  tlbSpan : Nat × Nat
  qsusp : BitVec 16
  qsaved : BitVec 16
  diagBase : BitVec 43
  diagLog2 : BitVec 4
  diagSeq : Word
  fq : FaultQueue
  queues : Sparse Queue
  sluice : Sparse Sluice
  deriving DecidableEq, Repr

/-! ## Threads (R139, R155, R222) -/

/-- An accumulator access that waits for earlier matrix entries: register, tile, element index, element count, and
whether the elements are 64 bits wide (R353). -/
inductive AccOp where
  | rd (d : Reg) (tile e n : Nat) (wide : Bool)
  | wr (d : Reg) (tile e n : Nat) (wide : Bool)
  | zero (tile : Nat) (pair : Bool)
  deriving DecidableEq, Repr

/-- What a thread waits for (R86), with what it needs when it leaves. -/
inductive Wait where
  | bar (i : Nat)
  | cbar (i : Nat)
  /-- at a SPEC, with the record octet -/
  | spec (octet : List Word)
  | specend
  | tbwait (member : Nat) (off : Nat) (phase : BitVec 4) (pd : PredNo) (due : Nat)
  | tlwait (k : Nat) (v : Dword)
  /-- an AWAIT; of a handle homed on another device with what that device has told since: a result of eight words, or the status of
  a broken handle (R48, R125, R268) -/
  | awaitH (h : Dword) (d : Reg) (pb : PredNo) (trap : Bool) (told : List Word)
  | join
  | vdrop
  | rwait
  | slot (due : Nat)
  | boundary
  /-- a release: for the answers to these tags, and at system scope for Noern-H; whether its signatures are sent (R39,
  R173) -/
  | acks (scope : Nat) (tags : List Word) (sent : Bool)
  /-- for the acknowledgement of its store to another device (R38; log 26) -/
  | remote (tag : Word)
  /-- for the answer to its atomic with an acquire at a scope, made when it comes (R178, R327) -/
  | acquire (scope : Nat) (tag : Word)
  | matrix
  /-- the matrix entries posted before an accumulator access, and the access -/
  | acc (ids : List Nat) (op : AccOp)
  /-- past a JOIN that has ended with this INTEG cause, whose trap it takes at the boundary (R114, R263) -/
  | joinLost (cause : Nat)
  /-- for an earlier lane that trapped; the flag tells that it was in its handler when it did (log 11) -/
  | after (tid : Nat) (hm : Bool)
  deriving DecidableEq, Repr

/-- What a thread is doing (R86, R225). -/
inductive TStatus where
  | running
  | quota
  | waiting (w : Wait)
  /-- suspended on the unresolved record with this SEQ -/
  | suspended (seq : Nat)
  /-- stopped before a write for want of a Millpond slot (R116) -/
  | noSlot
  | exited
  deriving DecidableEq, Repr

/-- A register or predicate named by a long-latency instruction, and the flag that covers it; 15 names none (R157). -/
structure Mark where
  isPred : Bool
  no : Nat
  flag : Nat
  deriving DecidableEq, Repr

/-- A thread (R139). -/
structure Thread where
  regs : Sparse Word
  preds : BitVec 8
  flags : BitVec 12
  fpcr : Word
  fpsr : Word
  pc : Dword
  clpos : Nat
  hm : Bool
  trec : Sparse Dword
  rngCtr : Dword
  relaunch : Nat
  forks : Nat
  retired : Dword
  turnRetired : Nat
  status : TStatus
  marks : List Mark
  /-- the flags that long-latency instructions of its clause will report to and have not issued yet, one entry for each (R156) -/
  owed : List Nat
  /-- where the thread goes on when the wait it is in ends (log 15) -/
  after : Option (Dword × Nat)
  /-- the clause predicate stands for the rest of the clause that a wait interrupted -/
  keep : Bool
  /-- when its wait for a Sluice slot began, the position of its lane then, and when the timer of that wait expires (R127,
  R266) -/
  slotSince : Option (Nat × Nat × Nat)
  /-- the release of the instruction at which it stands has been made -/
  released : Bool
  /-- what other devices have told of the pages that the instruction names: an address in each, its attributes, and the
  status with which the device refused an atomic that takes no trap, otherwise 0 (R38, R40) -/
  pages : List (Nat × Leaf × Nat)
  /-- the granules on other devices for which its view has a slot there, the instruction's own (R102, R103) -/
  captured : List Nat
  deriving DecidableEq, Repr

/-! ## The clause being issued (R235) -/

/-- One lane of the clause being issued: its position in the bundle, its thread, whether the clause predicate holds,
and the word position from which it runs. -/
structure Lane where
  lane : Nat
  tid : Nat
  pred : Bool
  start : Nat
  deriving DecidableEq, Repr

/-- The clause being issued (R235). -/
structure Issue where
  core : Nat
  bundle : Nat
  block : Nat
  pc : Dword
  hdr : Word
  words : List Word
  pos : Nat
  lanes : List Lane
  /-- long-latency instructions seen in the clause, for flags A and B (R156) -/
  longs : Nat
  reform : Bool
  deriving DecidableEq, Repr

/-! ## Blocks -/

/-- Where a quad stands (R141-R146). -/
inductive QPlace where
  | bin
  | bundle (b : Nat)
  | gone
  deriving DecidableEq, Repr

/-- A quad of a block: its place, its split tag (0: none) and a key that YIELD gave it (R141, R149). -/
structure Quad where
  place : QPlace
  tag : Nat
  yielded : Option Dword
  deriving DecidableEq, Repr

/-- A barrier in its phase (R261): the arrived threads as (member, thread), and when its timer expires: 0 for never
(R226, R227). -/
structure Barrier where
  arrived : List (Nat × Nat)
  due : Nat
  deriving DecidableEq, Repr

/-- An open fork (R97-R100, R107, R115). -/
structure Fork where
  n : Nat
  tid : Nat
  pc : Dword
  entry : Dword
  vtag0 : Nat
  /-- x0-x7 of the forking thread, for the children's threads -/
  args : List Word
  key : BitVec 128
  /-- next child to dispatch -/
  next : Nat
  /-- children complete -/
  done : Nat
  /-- the other devices that hold slots of it have been asked for their part of the check, and what they answered (R107) -/
  asked : Bool
  reports : List FarReport
  /-- the check has been made and the join is in its apply phase -/
  checked : Bool
  /-- the forking thread executed VDROP and the drop is in progress -/
  dropping : Bool
  order : Nat
  /-- the turn of the grid in which it opened (R262) -/
  turn : Nat
  deriving DecidableEq, Repr

/-- The shape of a speculated tile (R130, R131). -/
structure TileKey where
  tenant : Nat
  grid : Dword
  taddr : Nat
  rows : Nat
  cols : Nat
  pitch : Nat
  fmt : Fmt
  deriving DecidableEq, Repr

/-- A Fantail slot: a tile's history, the newer version first (R131). -/
structure Fantail where
  key : TileKey
  versions : List (List Byte)
  deriving DecidableEq, Repr

/-- A speculation record (R130). -/
structure SpecRec where
  taddr : Nat
  rows : Nat
  cols : Nat
  fmt : Fmt
  pred : Nat
  donek : Bool
  pitch : Nat
  done : Dword
  abs : Word
  rel : Word
  deriving DecidableEq, Repr

/-- An effect held in an outbox (R136). -/
inductive OutEff where
  | store (tid : Nat) (va : Nat) (bytes : List Byte)
  | invoke (tid : Nat) (slot : Nat) (target : Word) (kernel : Dword) (args : List Word) (rngD : Dword)
  | invokeOn (tid : Nat) (slot : Nat) (h : Dword) (kernel : Dword) (args : List Word) (rngD : Dword)
  /-- the interrupt of a record that the thread has posted -/
  | interrupt (tid : Nat)
  deriving DecidableEq, Repr

/-- A BOLT record (R147). -/
structure BoltRec where
  block : Nat
  tid : Nat
  entry : Dword
  key : Word
  payload : List Word
  count : Dword
  since : Nat
  deriving DecidableEq, Repr

/-- The key of a bin (R143). -/
inductive BinKey where
  | pc (block : Nat) (role : Nat) (pc : Dword)
  | bolt (block : Nat) (entry : Dword) (key : Word)
  deriving DecidableEq, Repr

/-- A quad filed in a bin, with its key and when it was filed: in cycles at DL0, in rounds above (R143, R84, R146). -/
structure BinEntry where
  block : Nat
  quad : Nat
  role : Nat
  pc : Dword
  since : Nat
  deriving DecidableEq, Repr

/-- A bin in use (R143): its number, its key and its quads, oldest first. Bin 255, the spill bin, holds mixed keys.
The records of a BOLT bin stand in the core's record store. -/
structure Bin where
  no : Nat
  key : BinKey
  entries : List BinEntry
  deriving DecidableEq, Repr

/-- The checkpoint of a SPEC (R134). -/
structure Checkpoint where
  threads : List Thread
  quads : Sparse Quad
  bolts : List BoltRec
  /-- the bins of its BOLT records -/
  bins : List Bin
  scratch : Memory
  slots : Nat
  deriving DecidableEq, Repr

/-- The verdict of the check of R133. -/
inductive Verdict where
  | none | pass | fail
  deriving DecidableEq, Repr

/-- An open speculative view (R132-R136). -/
structure SpecView where
  vtag : Nat
  record : SpecRec
  predicted : List Byte
  verdict : Verdict
  checkpoint : Checkpoint
  outbox : List OutEff
  /-- the other devices that hold slots of it have been asked for their part of the commit, and what they answered (R107, R135) -/
  asked : Bool
  reports : List FarReport
  deriving DecidableEq, Repr

/-- What a block is doing as a whole. -/
inductive BState where
  | running
  /-- a child stopped for want of slots (R116) -/
  | noSlots (since : Nat)
  /-- chosen for saving: it stops at its next clause boundary (R94) -/
  | saving
  | saved
  /-- it stood on a compute die that is lost, and takes no further effect (R27) -/
  | lost
  deriving DecidableEq, Repr

/-- The MMA parameters after substitution (R349). -/
structure MmaParams where
  aoff : Nat
  boff : Nat
  k : Nat
  tile : Nat
  acc : Bool
  m : Nat
  n : Nat
  afmt : Fmt
  bfmt : Fmt
  xval : Nat
  geom : Nat
  saoff : Nat
  sboff : Nat
  deriving DecidableEq, Repr

/-- An entry of a wheel's reservation table (R159). -/
structure MatEntry where
  id : Nat
  block : Nat
  tid : Nat
  pc : Dword
  core : Nat
  prio : BitVec 3
  params : MmaParams
  tl : Nat
  order : Nat
  nextPass : Nat
  lastPass : Nat
  aged : Bool
  granted : Bool
  flags : BitVec 5
  /-- the accumulators, row by row, until the last pass writes them to the tile -/
  accs : List Nat
  deriving DecidableEq, Repr

/-- A bundle: quads in their slots (R142). -/
structure Bundle where
  id : Nat
  block : Nat
  role : Nat
  /-- slot and quad -/
  slots : List (Nat × Nat)
  /-- the clause it last left, by completing it (R235); none when it was just drawn -/
  fell : Bool
  /-- no flag named: it may not issue until its results are written (R156) -/
  hold : Bool
  /-- the clause in which it stands still: a lane waits for a slot, for another device or for an engine, or the die's clock is
  gated (R16, R84, R116, R319) -/
  paused : Option Issue
  deriving DecidableEq, Repr

/-- The image of a saved block (R94, R229, R232): where it lies and its check value. -/
structure Image where
  addr : Nat
  len : Nat
  crc : Word
  /-- of each tile: its number on its core, where it lies, and its check value -/
  tiles : List (Nat × Nat × Word)
  /-- BOLT records, unfinished matrix entries, and the core that held them -/
  bolts : List BoltRec
  entries : List MatEntry
  core : Nat
  /-- at DL1 and above: bundles, filed quads, place in the rotation, and the round of the Governor (R229) -/
  bundles : List Bundle
  bins : List BinEntry
  rotation : List Nat
  round : Nat
  deriving DecidableEq, Repr

/-- A block (R76, R137-R139, R151). -/
structure Block where
  grid : Nat
  tenant : Nat
  core : Nat
  path : List Nat
  bid : Word
  cluster : Nat
  member : Nat
  child : Word
  vtag : Nat
  depth : Nat
  /-- the block that forked it, none for a block of a launch or a task -/
  parent : Option Nat
  entry : Dword
  rngId : Dword
  seed : BitVec 128
  threads : List Thread
  quads : Sparse Quad
  scratch : Memory
  regBase : Nat
  scratchBase : Nat
  bars : Sparse Barrier
  specBar : Barrier
  specendBar : Barrier
  /-- split tags with a quad at RWAIT, and when the timer of each expires (R227) -/
  rwaits : List (Nat × Nat)
  tl : Sparse Dword
  tlPost : Sparse Nat
  tlDone : List (Nat × Nat)
  bto : Word
  sto : Word
  xval : Sparse Half
  fork : Option Fork
  specs : List SpecView
  /-- a non-speculative SPEC or a check waits for this record's done condition (R132) -/
  specWait : Option SpecRec
  /-- when its wait for a Fantail slot expires (R129, R131) -/
  specSlot : Option Nat
  /-- bytes of speculated tiles that other devices have sent, by the view that reads them and their address (R38, R132, R133) -/
  tile : List (Nat × Nat × List Byte)
  tiles : List Nat
  started : Nat
  /-- the cycles that its clock does not count: on a gated die, or saved (R16, R17, R229) -/
  gatedCycles : Nat
  order : Nat
  state : BState
  /-- since when it has lacked Millpond slots (R116, R117) -/
  lackSince : Option Nat
  /-- at DL1 and above: a slot is there for it, and it resumes at the next boundary; the flag tells that something outside its
  grid freed it (R87, R88, R117) -/
  granted : Option Bool
  /-- the slots in use at the device that homes the write which it could not make, where that is another one (R118) -/
  lackUse : Option Nat
  image : Option Image
  /-- accesses made and known, for the order of R91 -/
  clock : Nat
  knows : Sparse Nat
  tbKnows : Sparse (Sparse Nat)
  /-- its scratchpad and its threads' registers at the last turn boundary, which other cores read within a turn (R87,
  R324) -/
  wasScratch : Memory
  wasRegs : List (Sparse Word)
  deriving DecidableEq, Repr

/-- A cluster of co-resident blocks and its cluster barriers (R152, R261). -/
structure Cluster where
  members : List Nat
  cbars : Sparse Barrier
  deriving DecidableEq, Repr

/-! ## Grids -/

/-- Where a line is homed. -/
inductive HomeAt where
  | dev (pa : Nat)
  /-- host memory: a tenant's window, the end of the page in it and the offset; where the window lies is looked up at each
  access (R58) -/
  | host (t win top off : Nat)
  | remote (dev : Nat) (va : Nat)
  | view (va : Nat)
  deriving DecidableEq, Repr

/-- An element in a RED buffer, for one grid (R184). -/
structure RedEntry where
  grid : Nat
  tenant : Nat
  va : Nat
  home : HomeAt
  op : AOp
  fmt : Fmt
  uns : Bool
  value : Dword
  threads : List (Nat × Nat)
  /-- the instruction of the first contribution (R74) -/
  pc : Dword
  /-- the widest scope among the contributions -/
  scope : Nat
  deriving DecidableEq, Repr

/-- A buffered effect of a turn (R87). -/
inductive EffKind where
  | store (vtag : Nat) (va : Nat) (home : HomeAt) (bytes : List Byte)
  | discard (vtag : Nat) (va : Nat) (home : HomeAt)
  | atomic (vtag : Nat) (va : Nat) (home : HomeAt) (op : AOp) (fmt : Fmt) (uns nf : Bool) (b c : Dword) (pend scope : Nat)
  | red (vtag : Nat) (va : Nat) (home : HomeAt) (op : AOp) (fmt : Fmt) (uns : Bool) (b : Dword) (scope : Nat)
  | tbArrive (member : Nat) (off : Nat) (d : Nat)
  | tbExpect (member : Nat) (off : Nat) (n : Word)
  /-- a TBINIT of another core's barrier: what reaches the barrier meanwhile acts on the new content (R345) -/
  | tbInit (member : Nat) (off : Nat) (bytes : List Byte)
  | scratch (member : Nat) (off : Nat) (bytes : List Byte)
  | tlAdd (k : Nat) (n : Dword)
  | invoke (d : Reg) (target : Word) (kernel : Dword) (args : List Word) (rngD : Dword)
  | invokeOn (d : Reg) (h : Dword) (kernel : Dword) (args : List Word) (rngD : Dword)
  /-- a part of the core's RED buffer that an access of the core to the element closed (R87, R184) -/
  | fold (r : RedEntry)
  /-- an STMC: the tree, the address, the bytes, and whether the tree delivered it on this device when it was issued (R190,
  R334) -/
  | mcast (tree va : Nat) (bytes : List Byte) (here : Bool)
  /-- an STM to another core's part of the on-chip map (R87, R164) -/
  | ocm (addr : Nat) (words : List Word)
  /-- sectors that a copy has moved, off a transaction barrier, with its error (R343) -/
  | tbSectors (member : Nat) (off : Nat) (n : Nat) (err : Bool)
  /-- flags that an engine operation reports to its thread -/
  | flags (fl : BitVec 5)
  /-- a write by an engine operation, which nothing sees before the boundary (R87, R190) -/
  | late (k : EffKind)
  /-- a core's part of the grid's RED buffer is folded, after the core's other effects (R87, R184) -/
  | flush
  /-- a release by the thread at a scope, which what follows in its turn waits for (R173, R331) -/
  | release (scope : Nat)
  | event (code : Byte)
  deriving DecidableEq, Repr

/-- The view in which an effect writes; 0 for the root view, and for one that writes no memory. -/
def EffKind.view : EffKind → Nat
  | .store v .. | .discard v .. | .atomic v .. | .red v .. => v
  | .late k => k.view
  | .tbArrive .. | .tbExpect .. | .tbInit .. | .scratch .. | .tlAdd .. | .invoke .. | .invokeOn .. | .fold _ | .mcast .. | .ocm .. | .tbSectors ..
  | .flags _ | .event _ | .flush | .release _ => 0

/-- A buffered effect with its place in the order of R87. -/
structure Effect where
  core : Nat
  path : List Nat
  block : Nat
  tid : Nat
  seq : Nat
  pc : Dword
  kind : EffKind
  deriving DecidableEq, Repr

/-- An access to a sector, for RACE and for R91. -/
structure SectorAcc where
  sector : Nat
  core : Nat
  path : List Nat
  block : Nat
  bid : Word
  tid : Nat
  seq : Nat
  pc : Dword
  store : Bool
  clock : Nat
  turn : Nat
  deriving DecidableEq, Repr

/-- One %dcause entry (R92). -/
structure DEntry where
  code : Byte
  count : Word
  pc : Dword
  deriving DecidableEq, Repr

/-- The %dcause register (R92). -/
structure DCause where
  entries : List DEntry
  ovfl : Word
  deriving DecidableEq, Repr

/-- Where a grid stands: what it releases at its end is performed first. It waits for the answers to these tags, and then,
once the signatures are sent, for theirs (R71, R179). -/
inductive GState where
  | started
  | releasing (tags : List Word) (sent : Bool)
  deriving DecidableEq, Repr

/-- A boundary of a grid under way (R87): the effects still to be applied, all those of the turn, the tags whose answers it
waits for, whether the signatures of the release at which it stands are sent (R173, R331), and whether all effects are applied, so
that it waits for speculated tiles alone (R133). -/
structure Closing where
  todo : List Effect
  all : List Effect
  tags : List Word
  sent : Bool
  applied : Bool
  deriving DecidableEq, Repr

/-- What a launch record gives a grid beyond its kernel (R70). -/
structure LaunchInfo where
  recVa : Nat
  gx : Nat
  gy : Nat
  gz : Nat
  irq : Bool
  rel : Bool
  sigv : Bool
  sigctr : Nat
  sigval : Dword
  paddr : Dword
  psize : Word
  deriving DecidableEq, Repr

/-- What a task carries beyond its kernel (R123, R126). -/
structure TaskInfo where
  handle : Dword
  kind : Nat
  dev : BitVec 10
  die : Nat
  args : List Word
  vtag : Nat
  /-- the launch that it belongs to, as a grid number -/
  creator : Nat
  /-- the thread 0 result once it has exited -/
  result : Option (List Word)
  failed : Bool
  rngD : Dword
  /-- x8-x15: the result of the handle that an INVOKE.ON addressed (R123) -/
  extra : List Word
  /-- that handle, whose tasks are placed in the order in which they came (R126) -/
  on : Option Dword
  deriving DecidableEq, Repr

/-- What a block holds for one element of a reduction page until the grid's end: the combined value and the threads
that contributed (R91, R330). -/
structure HeldRed where
  path : List Nat
  block : Nat
  va : Nat
  op : AOp
  fmt : Fmt
  value : Dword
  threads : List Nat
  /-- the record that its loss posts, which names the thread that contributed first (R74) -/
  record : FaultRec
  deriving DecidableEq, Repr

/-! ### Traffic of the fabric -/

/-- What a remote request of this device will complete (R38-R49). -/
inductive RemoteFor where
  /-- a load; `keep` tells that a proxy slice may keep what it brings, `near` that the core cache may too (R170) -/
  | load (pend : Nat) (keep near : Bool)
  | store (block tid : Nat) (pc : Dword)
  /-- an atomic; of a compare-and-swap the value that it compares with, so that a failed one writes nothing (R326) -/
  | atomic (pend : Nat) (cas : Option Dword)
  /-- the test of a remote page for the access of a thread that waits for it: what access, its address, whether it is an
  ATOM with .NF (R38, R40; log 26) -/
  | test (block tid access va : Nat) (nf : Bool)
  /-- the slot that a view takes before its write to a granule on another device, for a thread that waits for it (R102, R103;
  log 74) -/
  | capture (block tid access va : Nat)
  /-- a RED that the home performs for these threads: a folded one, or one of a view (R184, R104) -/
  | red (threads : List (Nat × Nat)) (pc : Dword)
  | copy (op : Nat)
  /-- an STMC of so many bytes -/
  | mcast (len : Nat)
  /-- of a speculated tile: the test of a page, told to the lowest participant, or so many bytes at an address as a view reads them
  (R130, R132) -/
  | tile (block tid view va n : Nat) (test : Bool)
  /-- an HPOLL of a thread on a handle homed elsewhere, and its destination (R269) -/
  | poll (block tid d : Nat)
  /-- the question with which an AWAIT of such a handle begins (R268) -/
  | await (block tid : Nat)
  /-- the device's own read of n bytes, told to the step that waits for it (R71, R123) -/
  | own (n : Nat)
  /-- the status dword of a launch of a queue: what follows its write (R71) -/
  | status (queue : Nat) (grid : Dword) (r : LaunchInfo)
  /-- a part of a dispatch trace of a queue (R89) -/
  | trace (queue : Nat) (grid : Dword)
  /-- the first of the fault records that are held (R73) -/
  | record
  /-- the list of missing threads of a timeout: who takes which trap, and its AUX where the write is lost (R228) -/
  | diag (who : List (Nat × Nat)) (code cause addr aux aux1 lost : Nat)
  | signature
  deriving DecidableEq, Repr

/-- A request sent and not answered (R36 TAG). -/
structure Remote where
  tag : Word
  tenant : Nat
  dst : BitVec 10
  port : Option (BitVec 5)
  /-- the address at the destination -/
  addr : Nat
  what : RemoteFor
  deriving DecidableEq, Repr

/-- An answer to the device's own read of memory on another device, for the step that waits for it (R71, R123): the tenant, the
address there and here, the length, the error that it carries, and the bytes. -/
structure OwnRead where
  tenant : Nat
  va : Nat
  n : Nat
  error : Option (Nat × Nat)
  bytes : List Byte
  deriving DecidableEq, Repr

/-- A task whose kernel header is being read on another device (R123). -/
structure TaskStart where
  handle : Dword
  kernel : Dword
  args : List Word
  extra : List Word
  on : Option Dword
  die : Option Nat
  terms : Terms
  deriving DecidableEq, Repr

/-- What this device tells another about a join, a drop, a commit or a fold (R107, R114, R115, R50), which no message type
of R36 carries (log 8). -/
inductive Note where
  | check (run : FarFork)
  | apply (run : FarFork)
  | abort (run : FarFork)
  | ends (tenant : BitVec 6) (vtags : List Nat) (squash : Bool)
  | ended (tenant : BitVec 6) (vtags : List Nat)
  | drop (tenant : BitVec 6) (vtags : List Nat)
  | views (tenant : BitVec 6) (vs : List FarView)
  | report (r : FarReport)
  | contribute (grid : Dword) (cs : List Contribution)
  deriving DecidableEq, Repr

/-- The fabric's registers and traffic. -/
structure Fabric where
  devid : BitVec 10
  ports : Sparse Port
  routes : Sparse Route
  trees : Sparse Tree
  /-- every message that this device has sent, newest last -/
  sent : List Msg
  tagCtr : Word
  remotes : List Remote
  mcasts : List Mcast
  hostUnacked : List HostStore
  /-- requests of other devices that wait for the turn boundary of a grid, in order of arrival (R88) -/
  arrived : List Msg
  /-- writes of other devices' views that wait here for a Millpond slot, with the cycle from which they do (R103, R116, R117) -/
  slotWait : List (Nat × Msg)
  /-- STOP (true) and GO that this device's ports have sent, with port and virtual channel, newest last (R41) -/
  signals : List (Nat × Nat × Bool)
  /-- what this device has told others of joins and folds, newest last -/
  notes : List (BitVec 10 × Note)
  /-- runs of views of other devices whose check has been made here, and whose apply or abort has not come (R107) -/
  holds : List FarFork
  /-- views of other devices whose tasks end here: who told it, the tenant and the views (R115) -/
  drops : List (BitVec 10 × BitVec 6 × List Nat)
  /-- answers to the device's own reads, not yet used (R71, R123) -/
  own : List OwnRead
  /-- tasks that wait for such an answer (R123) -/
  starts : List TaskStart
  deriving DecidableEq, Repr

/-- A grid: a launch or a task (R72). -/
structure Grid where
  gid : Dword
  tenant : Nat
  queue : Nat
  seq : Nat
  dl : BitVec 2
  prio : BitVec 3
  quota : Nat
  kernel : Kernel
  launch : Option LaunchInfo
  task : Option TaskInfo
  state : GState
  nextBlock : Nat
  total : Nat
  finished : Nat
  order : Nat
  /-- cycle from which its next placement has waited (R81, R93) -/
  waitingSince : Nat
  turn : Nat
  /-- cycles for which the grid has stood stalled, the clock of its timeouts at DL1 and above, and the cycle from which
  it stands stalled now (R88, R227) -/
  stall : Nat
  stalledFrom : Option Nat
  /-- its boundary, once the turn has been drained (R87) -/
  closing : Option Closing
  effects : List Effect
  effSeq : Nat
  accesses : List SectorAcc
  dcause : DCause
  published : DCause
  pendingEvents : List (Byte × Dword)
  /-- Sluice entries that the grid's own HDROPs have freed and that no invocation of it has taken since (log 34) -/
  ownFreed : Nat
  heldRed : List HeldRed
  /-- the reduction pages for which other devices' contributions have all come (R50) -/
  folds : List Nat
  /-- replay: the cores of the blocks still to place, in entry order; none where no trace is replayed -/
  trace : Option (List (Nat × Nat))
  killed : Bool
  /-- the trace counts this launch among those recorded whole (R89) -/
  traced : Bool
  /-- chosen for saving: it places nothing, and its blocks stop (R93) -/
  preempt : Bool
  deriving DecidableEq, Repr

/-! ## Cores, wheels, engines -/

/-- A sector in a core cache (R170). -/
structure CacheSector where
  tenant : Nat
  vtag : Nat
  sector : Nat
  home : HomeAt
  bytes : List Byte
  dirty : BitVec 64
  /-- which of its bytes the core holds: of a line on another device not all of them need have come -/
  held : BitVec 64
  /-- who stored to it last (R74) -/
  writer : Option Site
  deriving DecidableEq, Repr

/-- A core. -/
structure Core where
  bins : List Bin
  bundles : List Bundle
  bolts : List BoltRec
  rotation : List Nat
  round : Nat
  cache : List CacheSector
  icache : List (Nat × Nat × List Byte)
  pendingSig : BitVec 512
  written : List (Nat × Nat)
  reds : List RedEntry
  deriving DecidableEq, Repr

/-- An accumulator tile: its owner and its elements, as words by index (R158, R163). -/
structure Tile where
  owner : Option Nat
  elems : Sparse Word
  /-- its elements at the last boundary of the grid that owns it, which other cores read within a turn (R87, R324) -/
  was : Sparse Word
  deriving DecidableEq, Repr

/-- An engine operation posted and not complete (R335, R340-R343, R354). -/
inductive EngKind where
  | cpy (st : Bool) (gbase : Nat) (fmt : Fmt) (edge : Nat) (cols rows gpitch : Nat) (col0 row0 : Int)
      (boxc boxr : Nat) (saddr : Nat)
  | cpyg (src dst len : Nat)
  | cpys (src dst len : Nat)
  | cpyr (ss : Bool) (src dst len : Nat)
  | nbgemv (wbase k n wpitch voff yoff xval : Nat) (wfmt : Fmt) (sbase : Nat)
  deriving DecidableEq, Repr

structure EngOp where
  id : Nat
  block : Nat
  tid : Nat
  pc : Dword
  vtag : Nat
  kind : EngKind
  tlk : Nat
  tlNum : Nat
  tb : Option Nat
  /-- bytes received from other devices, by their virtual address, and the attributes of their page there -/
  got : List (Nat × Leaf × List Byte)
  /-- replies outstanding -/
  waits : Nat
  /-- it has written its destination, and waits for acknowledgements -/
  written : Bool
  /-- an answer has been lost or was an error (R44) -/
  err : Bool
  /-- the scope of its release, at its posting and at its completion (R179) -/
  scope : Nat
  /-- once the release of its completion is made, the tags of the signatures whose answers it waits for -/
  signed : Option (List Word)
  /-- its place among the effects of its turn -/
  seq : Nat
  deriving DecidableEq, Repr

/-- An error that a reply carries instead of a result: the trap that its thread takes (R38, R40, R44, R221). -/
structure ReplyErr where
  code : Nat
  cause : Nat
  access : Nat
  addr : Nat
  deriving DecidableEq, Repr

/-- A result not yet written (R156): the registers and predicates, and the flag it reports to. -/
structure PendOp where
  id : Nat
  block : Nat
  tid : Nat
  pc : Dword
  flag : Nat
  regs : List (Nat × Word)
  preds : List (Nat × Bool)
  fpflags : BitVec 5
  ready : Bool
  remote : Bool
  /-- of a remote load or atomic: destination, words, and how the reply's bytes are read -/
  how : Nat × Nat × Nat
  /-- an error that the reply carries (R44, R328) -/
  error : Option ReplyErr
  /-- the word position of the instruction in its clause -/
  pos : Nat
  /-- stores of its own turn and of its views that a remote load sees over what comes, oldest first (R87, R136) -/
  cover : List (Nat × List Byte)
  /-- registers written through the on-chip map while the result was pending: they are written after it (R164) -/
  ocm : List (Nat × Word)
  /-- of an access to host memory the sector there, the kind of access and its address: it is in flight on a Noern-H link until its
  result is written (R51) -/
  host : Option (Nat × Nat × Nat)
  deriving DecidableEq, Repr

/-- A Millpond slot (R102). -/
structure Slot where
  tenant : Nat
  vtag : Nat
  granule : Nat
  pa : Nat
  fmt : Fmt
  redop : Nat
  twin : List Byte
  working : List Byte
  deriving DecidableEq, Repr

/-- A view (R95, R96). -/
structure View where
  vtag : Nat
  tenant : Nat
  parent : Nat
  depth : Nat
  /-- the block whose fork or SPEC opened it -/
  opener : Nat
  index : Nat
  spec : Bool
  /-- the other devices on which it may hold slots (R103) -/
  far : List Nat
  deriving DecidableEq, Repr

/-- A copy of bytes of a remote line in a proxy slice (R170). -/
structure ProxyPiece where
  tenant : Nat
  va : Nat
  bytes : List Byte
  deriving DecidableEq, Repr

/-- A sector of host memory in L2: its bytes, and whether the slice holds it exclusively, as it does once it has performed
an atomic there (R52, R183). -/
structure HostLine where
  bytes : List Byte
  exclusive : Bool
  deriving DecidableEq, Repr

/-- A response on Noern-H to an access through an aperture (R59). -/
inductive HostReply where
  | data (bytes : List Byte)
  | done
  | error
  deriving DecidableEq, Repr

/-! ## The machine -/

structure State where
  pkg : Package
  fabric : Fabric
  tenants : Sparse Tenant
  /-- device memory by physical address (R25) -/
  mem : Memory
  /-- host memory by host physical address (R58) -/
  hostMem : Memory
  /-- sectors of host memory held in L2 (R52, R55): by tenant × 2⁵⁸ + sector -/
  hostLines : Sparse HostLine
  /-- copies of remote lines in the proxy slices (R170) -/
  proxy : List ProxyPiece
  /-- responses given on Noern-H to accesses through apertures, newest last (R59) -/
  hostReplies : List HostReply
  tlb : List TlbEntry
  tlbPtrs : List TlbPtr
  cycle : Nat
  grids : Sparse Grid
  blocks : Sparse Block
  clusters : Sparse Cluster
  cores : Sparse Core
  tiles : Sparse Tile
  wheels : Sparse (List MatEntry)
  views : Sparse View
  slots : List Slot
  fantail : List Fantail
  /-- what the device has learned of handles homed elsewhere (R48, R49) -/
  foreign : List (Dword × Sluice)
  engines : List EngOp
  pending : List PendOp
  /-- the queue served last at each priority (R79), as 16·tenant + queue + 1; 0 for none -/
  lastServed : Sparse Nat
  issue : Option Issue
  /-- events that the outside brings next (log 3) -/
  inputs : List Instr
  /-- the device's own steps that may be taken, those longest so first, each with the cycle from which it may (R165; log 3) -/
  due : List (Nat × Instr)
  /-- the model's own counters (log 5) -/
  freeCtr : Nat
  nextUid : Nat
  deriving DecidableEq, Repr

/-! ## Stops -/

/-- Why a step may stop with a fault. No meaning of this model stops so: every fault of the spec is a trap, a record
or a status, and the machine goes on. -/
inductive Fault where
  /-- Kept so that the type is inhabited; no definition raises it (safe). -/
  | unreachable
  deriving DecidableEq, Repr

/-- Why a step may be refused. -/
inductive Refusal where
  /-- Raised by an arm of exec for an instruction without a meaning yet (safe: nothing runs). -/
  | notModelled (mnemonic : String)
  deriving DecidableEq, Repr

/-! ## Defaults and reset -/

def Port.none : Port := ⟨false, .none, .none, 0, 0, [], 0, [], 0⟩
def Route.none : Route := ⟨false, 0⟩
def Tree.none : Tree := ⟨0⟩
def Ivec.none : Ivec := ⟨0, 0⟩
def Window.none : Window := ⟨0, 0, false, false, false⟩

/-- A queue at reset (R68, R71). -/
def Queue.reset : Queue where
  qbase := 0
  en := false
  prio := 0
  dl := 0
  trace := 0
  log2size := 0
  quota := 0
  qhead := 0
  qtail := 0
  ovr := false
  stop := false
  seed := 0
  traceAddr := 0
  qtl := []
  dcsum := 0
  launchSeq := 0
  taskSeq := 0
  waiting := []
  traceFailed := false
  traceOvf := false
  traceCount := 0
  traceLaunches := 0
  lastStarted := 0
  prior := 0
  epoch := 0

/-- A fault queue at reset (R73). -/
def FaultQueue.reset : FaultQueue := ⟨0, false, 0, 0, 0, 0, 1, [], []⟩

/-- A free Sluice entry at reset (R121, R122). -/
def Sluice.reset : Sluice where
  gen := 0
  st := .free
  dropped := false
  owner := 0
  block := 0
  tlNum := 0
  vtag := 0
  place := none
  done := false
  result := []
  code := 0
  hops := 0
  reason := 0
  ivos := []
  onHandle := none
  knows := []
  waiters := []

/-- A tenant at reset (R54, R66, R73, R80, R82, R228). -/
def Tenant.reset : Tenant where
  en := false
  rootv := false
  root := 0
  mpshare := 0
  slshare := 0
  ivec := []
  win := []
  staged := []
  domset := 0
  savebase := 0
  savesize := 0
  diemask := 0
  ncore := 0
  imask := 0
  ipend := 0
  tlbBusy := false
  tlbSpan := (0, 0)
  qsusp := 0
  qsaved := 0
  diagBase := 0
  diagLog2 := 0
  diagSeq := 0
  fq := FaultQueue.reset
  queues := []
  sluice := []

/-- A core at reset: nothing waits, nothing is cached. -/
def Core.reset : Core := ⟨[], [], [], [], 0, [], [], 0, [], []⟩

/-- A tile that nobody owns: zero (R158). -/
def Tile.free : Tile := ⟨none, [], []⟩

/-- A barrier between phases. -/
def Barrier.empty : Barrier := ⟨[], 0⟩

/-- A quad that is nowhere. -/
def Quad.none : Quad := ⟨.gone, 0, .none⟩

/-- A thread at its start, but for its registers and program counter (R139). -/
def Thread.start : Thread where
  regs := []
  preds := 0
  flags := BitVec.allOnes 12
  fpcr := 0
  fpsr := 0
  pc := 0
  clpos := 0
  hm := false
  trec := []
  rngCtr := 0
  relaunch := 0
  forks := 0
  retired := 0
  turnRetired := 0
  status := .running
  marks := []
  owed := []
  after := none
  keep := false
  slotSince := none
  released := false
  pages := []
  captured := []

/-- A thread slot that holds no running thread. -/
def Thread.idle : Thread := { Thread.start with status := .exited }

def DCause.zero : DCause := ⟨[], 0⟩

/-- The package right after reset: reduced service on E0, die 0, stacks 0 and 1 (R22, R24; log 1 for the values the
spec gives no reset for). -/
def Package.reset : Package where
  inReset := false
  service := 0
  fullMap := false
  fsRequest := false
  arch := 1
  step := 1
  dies := 0x01
  hbm := 0x0003
  edges := 0b01
  hlinks := 0b01
  fports := 0
  failed := []
  lost := []
  trainFail := []
  clockMHz := []
  throttled := 0
  gated := 0
  powerCap := 4000
  capUnmet := false
  thermTrip := false
  refclkBad := false
  ibi := 0
  i3cAddr := none
  i3cReplies := []
  firmware := ⟨[], 0, none, []⟩
  measure := List.replicate 8 0
  nonce := 0
  mpbase := 0x06E
  mpsize := 16
  pdelay := 0x00100000
  pen := true
  still := []

/-- The fabric at reset (R32, R33, R45). -/
def Fabric.reset : Fabric := ⟨0x3FF, [], [], [], [], 0, [], [], [], [], [], [], [], [], [], [], []⟩

/-- The machine right after reset. -/
def State.reset : State where
  pkg := Package.reset
  fabric := Fabric.reset
  tenants := []
  mem := []
  hostMem := []
  hostLines := []
  proxy := []
  hostReplies := []
  tlb := []
  tlbPtrs := []
  cycle := 0
  grids := []
  blocks := []
  clusters := []
  cores := []
  tiles := []
  wheels := []
  views := []
  slots := []
  fantail := []
  foreign := []
  engines := []
  pending := []
  lastServed := []
  issue := none
  inputs := []
  due := []
  freeCtr := 0
  nextUid := 0

end Sys2Proof.Machine
end

