-- ==== Sys2Proof/Machine/Access.lean ====
section
/-! DEFINITION. Reading and updating the parts of the state by name and number. -/

namespace Sys2Proof.Machine

/-! ## Small numbers -/

/-- Bits lo … lo + n − 1 of a number. -/
def bitsAt (v lo n : Nat) : Nat := v / 2 ^ lo % 2 ^ n

/-- Whether a bit of a number is set. -/
def bitAt (v i : Nat) : Bool := v.testBit i

/-- Whether a bit of a vector, named by a number, is set. -/
def onBit {w : Nat} (v : BitVec w) (i : Nat) : Bool := v.getLsbD i

/-- A bit of a vector made 1 or 0. -/
def setBit {w : Nat} (v : BitVec w) (i : Nat) (b : Bool) : BitVec w :=
  if b then v ||| BitVec.ofNat w (2 ^ i) else v &&& ~~~(BitVec.ofNat w (2 ^ i))

/-- The least multiple of m that is not below n. -/
def roundUp (n m : Nat) : Nat := (n + m - 1) / m * m

/-- n div m, rounded up. -/
def divUp (n m : Nat) : Nat := (n + m - 1) / m

/-- Two's-complement reading of the low n bits (SEXT, R244). -/
def sext (v n : Nat) : Int :=
  let m := v % 2 ^ n
  if n = 0 then 0 else if m < 2 ^ (n - 1) then (m : Int) else (m : Int) - (2 ^ n : Nat)

/-- The w-bit pattern of an integer (WRAP, R244). -/
def wrap (x : Int) (w : Nat) : Nat := (x % ((2 ^ w : Nat) : Int)).toNat

/-- EA(base, off): the 64-bit sum (R244). -/
def ea (base : Nat) (off : Int) : Nat := wrap ((base : Int) + off) 64

/-- The first element that satisfies a test, with its position. -/
def findIdx {α : Type} (p : α → Bool) : List α → Nat → Option (Nat × α)
  | [], _ => none
  | a :: l, i => if p a then some (i, a) else findIdx p l (i + 1)

/-- Insertion into a list sorted by a strict order, after the elements that do not follow it. -/
def insertBy {α : Type} (lt : α → α → Bool) (a : α) : List α → List α
  | [] => [a]
  | b :: l => if lt a b then a :: b :: l else b :: insertBy lt a l

/-- A stable sort. -/
def sortBy {α : Type} (lt : α → α → Bool) (l : List α) : List α := l.foldl (fun acc a => insertBy lt a acc) []

/-- The elements of a list, each once, in the order of their first places. -/
def dedup {α : Type} [BEq α] (l : List α) : List α :=
  l.foldl (fun acc a => if acc.contains a then acc else acc ++ [a]) []

/-- Block paths compared element by element; a prefix comes first (R138). -/
def pathLt : List Nat → List Nat → Bool
  | [], [] => false
  | [], _ :: _ => true
  | _ :: _, [] => false
  | a :: l, b :: m => if a < b then true else if b < a then false else pathLt l m

/-! ## Parts of the state -/

/-- Tenant t (R53). -/
def State.tenant (s : State) (t : Nat) : Tenant := Sparse.get Tenant.reset s.tenants t

def State.setTenant (s : State) (t : Nat) (v : Tenant) : State :=
  { s with tenants := Sparse.set Tenant.reset s.tenants t v }

def State.updTenant (s : State) (t : Nat) (f : Tenant → Tenant) : State := s.setTenant t (f (s.tenant t))

/-- Queue q of a tenant (R68). -/
def Tenant.queue (x : Tenant) (q : Nat) : Queue := Sparse.get Queue.reset x.queues q

def Tenant.setQueue (x : Tenant) (q : Nat) (v : Queue) : Tenant :=
  { x with queues := Sparse.set Queue.reset x.queues q v }

def State.queue (s : State) (t q : Nat) : Queue := (s.tenant t).queue q

def State.updQueue (s : State) (t q : Nat) (f : Queue → Queue) : State :=
  s.updTenant t fun x => x.setQueue q (f (x.queue q))

/-- A Sluice entry (R120). -/
def Tenant.entry (x : Tenant) (slot : Nat) : Sluice := Sparse.get Sluice.reset x.sluice slot

def State.sluice (s : State) (t slot : Nat) : Sluice := (s.tenant t).entry slot

def State.updSluice (s : State) (t slot : Nat) (f : Sluice → Sluice) : State :=
  s.updTenant t fun x => { x with sluice := Sparse.set Sluice.reset x.sluice slot (f (x.entry slot)) }

/-- A timeline counter of a queue (R71). -/
def Queue.tlc (q : Queue) (k : Nat) : Dword := Sparse.get 0 q.qtl k

/-- Core c. -/
def State.core (s : State) (c : Nat) : Core := Sparse.get Core.reset s.cores c

def State.updCore (s : State) (c : Nat) (f : Core → Core) : State :=
  { s with cores := Sparse.set Core.reset s.cores c (f (s.core c)) }

/-- A tile, numbered 4 × core + m (R158). -/
def State.tile (s : State) (i : Nat) : Tile := Sparse.get Tile.free s.tiles i

def State.updTile (s : State) (i : Nat) (f : Tile → Tile) : State :=
  { s with tiles := Sparse.set Tile.free s.tiles i (f (s.tile i)) }

/-- The reservation table of a wheel (R159). -/
def State.wheel (s : State) (w : Nat) : List MatEntry := Sparse.get [] s.wheels w

def State.updWheel (s : State) (w : Nat) (f : List MatEntry → List MatEntry) : State :=
  { s with wheels := Sparse.set [] s.wheels w (f (s.wheel w)) }

def State.grid? (s : State) (g : Nat) : Option Grid := Sparse.find s.grids g

def State.setGrid (s : State) (g : Nat) (v : Grid) : State := { s with grids := Sparse.put s.grids g v }

def State.updGrid (s : State) (g : Nat) (f : Grid → Grid) : State :=
  match s.grid? g with
  | some v => s.setGrid g (f v)
  | none => s

def State.block? (s : State) (b : Nat) : Option Block := Sparse.find s.blocks b

def State.setBlock (s : State) (b : Nat) (v : Block) : State := { s with blocks := Sparse.put s.blocks b v }

def State.updBlock (s : State) (b : Nat) (f : Block → Block) : State :=
  match s.block? b with
  | some v => s.setBlock b (f v)
  | none => s

/-- The grid of a block. -/
def State.gridOf (s : State) (b : Nat) : Option Grid := (s.block? b).bind fun k => s.grid? k.grid

/-- Whether a block's grid runs at DL0. -/
def State.dl0 (s : State) (b : Nat) : Bool := match s.gridOf b with | some g => g.dl == 0 | none => true

/-- The tenant of a block. -/
def State.tenantOf (s : State) (b : Nat) : Nat := match s.block? b with | some k => k.tenant | none => 0

def State.cluster (s : State) (c : Nat) : Cluster := Sparse.get ⟨[], []⟩ s.clusters c

def State.updCluster (s : State) (c : Nat) (f : Cluster → Cluster) : State :=
  { s with clusters := Sparse.set ⟨[], []⟩ s.clusters c (f (s.cluster c)) }

/-- A thread of a block; a number beyond the block's threads reads as an exited one. -/
def Block.thread (k : Block) (t : Nat) : Thread := k.threads.getD t Thread.idle

def Block.setThread (k : Block) (t : Nat) (v : Thread) : Block := { k with threads := k.threads.set t v }

def Block.updThread (k : Block) (t : Nat) (f : Thread → Thread) : Block := k.setThread t (f (k.thread t))

def State.thread (s : State) (b t : Nat) : Thread :=
  match s.block? b with
  | some k => k.thread t
  | none => Thread.idle

def State.updThread (s : State) (b t : Nat) (f : Thread → Thread) : State :=
  s.updBlock b fun k => k.updThread t f

def Block.quad (k : Block) (q : Nat) : Quad := Sparse.get Quad.none k.quads q

def Block.updQuad (k : Block) (q : Nat) (f : Quad → Quad) : Block :=
  { k with quads := Sparse.set Quad.none k.quads q (f (k.quad q)) }

/-- The number of threads of a block, T. -/
def Block.T (k : Block) : Nat := k.threads.length

/-- The timeline counter tlk of a block (R338). -/
def Block.tlc (k : Block) (i : Nat) : Dword := Sparse.get 0 k.tl i

/-! ## Registers (R139, R155, R241) -/

/-- A register: x255 reads zero. -/
def Thread.reg (t : Thread) (r : Nat) : Word := if r ≥ 255 then 0 else Sparse.get 0 t.regs r

/-- A write of a register: a write to x255 is discarded. -/
def Thread.setReg (t : Thread) (r : Nat) (v : Word) : Thread :=
  if r ≥ 255 then t else { t with regs := Sparse.set 0 t.regs r v }

/-- The registers of a group of n from r, low word first; number 255 is the zero operand (R241). -/
def Thread.group (t : Thread) (r n : Nat) : List Word :=
  (List.range n).map fun i => if r = 255 then 0 else t.reg (r + i)

/-- A group as one number. -/
def wordsToNat : List Word → Nat
  | [] => 0
  | w :: l => w.toNat + 2 ^ 32 * wordsToNat l

/-- A number as n words. -/
def natToWords : Nat → Nat → List Word
  | 0, _ => []
  | n + 1, v => BitVec.ofNat 32 v :: natToWords n (v / 2 ^ 32)

/-- The value of a register group of n registers. -/
def Thread.groupNat (t : Thread) (r n : Nat) : Nat := wordsToNat (t.group r n)

/-- A pair as a dword. -/
def Thread.pair (t : Thread) (r : Nat) : Dword := BitVec.ofNat 64 (t.groupNat r 2)

/-- A write of words to ascending registers; number 255 discards them all. -/
def Thread.setGroup (t : Thread) (r : Nat) : List Word → Thread
  | [] => t
  | w :: l => if r ≥ 255 then t else Thread.setGroup (t.setReg r w) (r + 1) l

/-- A write of a dword to a pair. -/
def Thread.setPair (t : Thread) (r : Nat) (v : Dword) : Thread := t.setGroup r (natToWords 2 v.toNat)

/-- A predicate: p7 reads true. -/
def Thread.pred (t : Thread) (p : Nat) : Bool := if p ≥ 7 then true else onBit t.preds p

/-- A write of a predicate: a write to p7 is discarded. -/
def Thread.setPred (t : Thread) (p : Nat) (v : Bool) : Thread :=
  if p ≥ 7 then t else { t with preds := setBit t.preds p v }

/-- A completion flag w0-w11; a number beyond them reads as set. -/
def Thread.flag (t : Thread) (i : Nat) : Bool := if i ≥ 12 then true else onBit t.flags i

def Thread.setFlag (t : Thread) (i : Nat) (v : Bool) : Thread :=
  if i ≥ 12 then t else { t with flags := setBit t.flags i v }

/-- A dword of the trap record (R222). -/
def Thread.trecAt (t : Thread) (i : Nat) : Dword := Sparse.get 0 t.trec i

def Thread.setTrec (t : Thread) (i : Nat) (v : Dword) : Thread := { t with trec := Sparse.set 0 t.trec i v }

/-- RAISE: flags are ORed into %fpsr, and each whose trap enable is set into PX (R194, R197). Flag i is bit i of
%fpsr, its enable bit 4 + i of %fpcr, its bit of PX bit 8 + i of %fpsr. -/
def Thread.raise (t : Thread) (f : BitVec 5) : Thread :=
  let en := t.fpcr.extractLsb' 4 5
  { t with fpsr := t.fpsr ||| (f.setWidth 32) ||| ((f &&& en).setWidth 32 <<< 8) }

/-- PX, the pending traps (R194). -/
def Thread.px (t : Thread) : BitVec 5 := t.fpsr.extractLsb' 8 5

/-- PX cleared (R223). -/
def Thread.clearPx (t : Thread) : Thread := { t with fpsr := t.fpsr &&& 0xFFFFE0FF }

/-- Whether a thread has exited. -/
def Thread.exited (t : Thread) : Bool := t.status == .exited

/-- Whether a thread can issue: it is neither stopped, waiting, suspended nor exited. -/
def Thread.canIssue (t : Thread) : Bool := t.status == .running

/-! ## Free values and counters -/

/-- The machine with its free-value counter advanced (log 5). -/
def State.tick (s : State) : State := { s with freeCtr := s.freeCtr + 1 }

/-- A free choice among n things (log 3). -/
def State.choose (s : State) (n : Nat) : Nat := if n = 0 then 0 else Config.choice s.freeCtr % n

/-- A new number for an object, and the machine that has used it. -/
def State.fresh (s : State) : Nat × State := (s.nextUid + 1, { s with nextUid := s.nextUid + 1 })

/-- n free bytes (log 7). -/
def State.freeBytes (s : State) (n : Nat) : List Byte :=
  (List.range n).map fun i => Config.freeByte (s.freeCtr * 2 ^ 24 + i)

end Sys2Proof.Machine
end

