-- ==== Sys2Proof/Machine/Ieee.lean ====
section
/-! DEFINITION. The IEEE formats and bfloat16: values, one rounding, NaNs, sums, products, quotients and roots
(R191-R198). Values are exact fractions until they are rounded. -/

namespace Sys2Proof.Machine

/-- Flags IV, DZ, OF, UF, NX in bits 0 to 4 (R194). -/
abbrev Flags := BitVec 5

def fIV : Flags := 1
def fDZ : Flags := 2
def fOF : Flags := 4
def fUF : Flags := 8
def fNX : Flags := 16

/-- A binary format: exponent and fraction bits (R191). -/
structure FpFmt where
  eb : Nat
  fb : Nat
  deriving DecidableEq, Repr

def fp64 : FpFmt := ⟨11, 52⟩
def fp32 : FpFmt := ⟨8, 23⟩
def fp16 : FpFmt := ⟨5, 10⟩
def bf16 : FpFmt := ⟨8, 7⟩

/-- The binary format of a format code; FP32 for the others, which no caller passes. -/
def fpOf : Fmt → FpFmt
  | .fp64 => fp64
  | .fp16 => fp16
  | .bf16 => bf16
  | _ => fp32

namespace FpFmt

def bias (f : FpFmt) : Nat := 2 ^ (f.eb - 1) - 1

/-- The exponent of the smallest normal number. -/
def emin (f : FpFmt) : Int := 1 - (f.bias : Int)

def width (f : FpFmt) : Nat := 1 + f.eb + f.fb

def signBit (f : FpFmt) : Nat := 2 ^ (f.eb + f.fb)

/-- The pattern of infinity without its sign. -/
def infBits (f : FpFmt) : Nat := (2 ^ f.eb - 1) * 2 ^ f.fb

/-- The pattern of the largest finite value without its sign. -/
def maxBits (f : FpFmt) : Nat := f.infBits - 1

/-- The canonical quiet NaN (R191). -/
def qnan (f : FpFmt) : Nat := f.infBits + 2 ^ (f.fb - 1)

/-- A sign put on a pattern. -/
def withSign (f : FpFmt) (neg : Bool) (b : Nat) : Nat := if neg then b + f.signBit else b

end FpFmt

/-- A value: a NaN with its pattern, an infinity, or a finite fraction n / d with its sign. -/
inductive FV where
  | nan (bits : Nat)
  | inf (neg : Bool)
  | fin (neg : Bool) (n d : Nat)
  deriving DecidableEq, Repr

/-- A power of two as a fraction. -/
def pow2 (e : Int) : Nat × Nat := if 0 ≤ e then (2 ^ e.toNat, 1) else (1, 2 ^ (-e).toNat)

/-- The value of a pattern. -/
def FpFmt.decode (f : FpFmt) (b : Nat) : FV :=
  let b := b % 2 ^ f.width
  let neg := decide (f.signBit ≤ b)
  let e := bitsAt b f.fb f.eb
  let m := bitsAt b 0 f.fb
  if e = 2 ^ f.eb - 1 then (if m = 0 then .inf neg else .nan b)
  else
    let (sig, ex) := if e = 0 then (m, f.emin) else (m + 2 ^ f.fb, (e : Int) - f.bias)
    let (pn, pd) := pow2 (ex - f.fb)
    .fin neg (sig * pn) pd

/-- Whether a pattern is a NaN, and whether that NaN signals. -/
def FpFmt.isNan (f : FpFmt) (b : Nat) : Bool := bitsAt b f.fb f.eb == 2 ^ f.eb - 1 && bitsAt b 0 f.fb != 0
def FpFmt.isSnan (f : FpFmt) (b : Nat) : Bool := f.isNan b && !bitAt b (f.fb - 1)

/-- QUIET: the quiet bit of a NaN set (R244). -/
def FpFmt.quiet (f : FpFmt) (b : Nat) : Nat := if f.isNan b && !bitAt b (f.fb - 1) then b + 2 ^ (f.fb - 1) else b

/-- Whether a pattern is a non-zero subnormal. -/
def FpFmt.isSub (f : FpFmt) (b : Nat) : Bool := bitsAt b f.fb f.eb == 0 && bitsAt b 0 f.fb != 0

/-- A subnormal read as a zero of its sign where flushing is on (R196). -/
def FpFmt.flushIn (f : FpFmt) (fz : Bool) (b : Nat) : Nat :=
  if fz && f.isSub b then (if bitAt b (f.eb + f.fb) then f.signBit else 0) else b

/-- Whether n / d < 2^e. -/
def ltPow2 (n d : Nat) (e : Int) : Bool := let (p, q) := pow2 e; decide (n * q < p * d)

/-- The exponent e with 2^e ≤ n / d < 2^(e+1), for n > 0. -/
def exponentOf (n d : Nat) : Int :=
  let e : Int := (Nat.log2 n : Int) - (Nat.log2 d : Int)
  if ltPow2 n d e then e - 1 else if ltPow2 n d (e + 1) then e else e + 1

/-- n / d in units of 2^q, rounded to a whole number of them by the mode, with the sign of the value: 0 RN, 1 RZ,
2 RU, 3 RD, 4 RA (R193); and whether it was exact. -/
def roundUnits (n d : Nat) (q : Int) (m : Nat) (neg : Bool) : Nat × Bool :=
  let (p, r) := pow2 q
  let num := n * r
  let den := d * p
  let k := num / den
  let rem := num % den
  if rem = 0 then (k, true)
  else
    let up := match m with
      | 0 => decide (den < 2 * rem) || (2 * rem == den && k % 2 == 1)
      | 1 => false
      | 2 => !neg
      | 3 => neg
      | _ => decide (den ≤ 2 * rem)
    (if up then k + 1 else k, false)

/-- RNDF: an exact value rounded once to a format, with its flags (R195). -/
def FpFmt.round (f : FpFmt) (m : Nat) (neg : Bool) (n d : Nat) : Nat × Flags :=
  if n = 0 then (f.withSign neg 0, 0)
  else
    let e := exponentOf n d
    let ex := if e < f.emin then f.emin else e
    let q := ex - f.fb
    let (k, exact) := roundUnits n d q m neg
    -- the pattern counts units from zero: exponents follow one another without a gap
    let bits := if ex = f.emin then k else k - 2 ^ f.fb + (ex + f.bias).toNat * 2 ^ f.fb
    if f.infBits ≤ bits then
      let big := match m with
        | 0 => true
        | 1 => false
        | 2 => !neg
        | 3 => neg
        | _ => true
      (f.withSign neg (if big then f.infBits else f.maxBits), fOF ||| fNX)
    else if exact then (f.withSign neg bits, 0)
    else
      let tiny := decide (e < f.emin) &&
        (let (k2, _) := roundUnits n d (e - f.fb) m neg
         let (p, r) := pow2 (e - f.fb)
         ltPow2 (k2 * p) r f.emin)
      (f.withSign neg bits, if tiny then fUF ||| fNX else fNX)

/-- A rounded result with subnormals flushed where flushing is on (R196). -/
def FpFmt.flushOut (f : FpFmt) (fz : Bool) (r : Nat × Flags) : Nat × Flags :=
  if fz && f.isSub r.1 then ((if bitAt r.1 (f.eb + f.fb) then f.signBit else 0), r.2 ||| fUF ||| fNX) else r

/-- A value rounded to a format; a NaN value is already a pattern of it. -/
def FpFmt.ofFV (f : FpFmt) (m : Nat) (v : FV) : Nat × Flags :=
  match v with
  | .nan b => (b, 0)
  | .inf neg => (f.withSign neg f.infBits, 0)
  | .fin neg n d => f.round m neg n d

/-- The NaN result of operands, in operand order: the first NaN quietened, invalid if any signals (R192). -/
def FpFmt.nanOf (f : FpFmt) (ops : List Nat) : Option (Nat × Flags) :=
  match ops.find? f.isNan with
  | some b => some (f.quiet b, if ops.any f.isSnan then fIV else 0)
  | none => none

/-- A magnitude with its sign. -/
def signed (neg : Bool) (n : Nat) : Int := if neg then -(n : Int) else (n : Int)

/-- The exact sum of two finite values, its zero signed as R195 gives. -/
def sumFin (m : Nat) (an : Bool) (a ad : Nat) (bn : Bool) (b bd : Nat) : FV :=
  let x := signed an (a * bd) + signed bn (b * ad)
  if x = 0 then
    if a = 0 ∧ b = 0 ∧ an = bn then .fin an 0 1 else .fin (m == 3) 0 1
  else .fin (decide (x < 0)) x.natAbs (ad * bd)

/-- Addition (R302). -/
def FpFmt.add (f : FpFmt) (m : Nat) (a b : Nat) : Nat × Flags :=
  match f.nanOf [a, b] with
  | some r => r
  | none => match f.decode a, f.decode b with
    | .inf x, .inf y => if x = y then (f.withSign x f.infBits, 0) else (f.qnan, fIV)
    | .inf x, _ => (f.withSign x f.infBits, 0)
    | _, .inf y => (f.withSign y f.infBits, 0)
    | .fin an an' ad, .fin bn bn' bd => f.ofFV m (sumFin m an an' ad bn bn' bd)
    | _, _ => (f.qnan, 0)

/-- The sign of a pattern reversed; a NaN is left as it is, so that its payload and sign pass through (R192). -/
def FpFmt.negate (f : FpFmt) (b : Nat) : Nat :=
  if f.isNan b then b else if f.signBit ≤ b then b - f.signBit else b + f.signBit

/-- Subtraction: the sum with the second operand's sign reversed. -/
def FpFmt.sub (f : FpFmt) (m : Nat) (a b : Nat) : Nat × Flags := f.add m a (f.negate b)

/-- Multiplication (R302). -/
def FpFmt.mul (f : FpFmt) (m : Nat) (a b : Nat) : Nat × Flags :=
  match f.nanOf [a, b] with
  | some r => r
  | none => match f.decode a, f.decode b with
    | .inf x, .inf y => (f.withSign (x != y) f.infBits, 0)
    | .inf x, .fin y n _ => if n = 0 then (f.qnan, fIV) else (f.withSign (x != y) f.infBits, 0)
    | .fin x n _, .inf y => if n = 0 then (f.qnan, fIV) else (f.withSign (x != y) f.infBits, 0)
    | .fin x n d, .fin y n' d' => f.round m (x != y) (n * n') (d * d')
    | _, _ => (f.qnan, 0)

/-- Fused multiply and add: a · b + c rounded once (R192, R302). -/
def FpFmt.fma (f : FpFmt) (m : Nat) (a b c : Nat) : Nat × Flags :=
  let infZero := match f.decode a, f.decode b with
    | .inf _, .fin _ 0 _ => true
    | .fin _ 0 _, .inf _ => true
    | _, _ => false
  match f.nanOf [a, b, c] with
  | some (r, fl) => (r, if infZero then fl ||| fIV else fl)
  | none =>
    if infZero then (f.qnan, fIV)
    else match f.decode a, f.decode b, f.decode c with
      | .fin x n d, .fin y n' d', .fin z k e => f.ofFV m (sumFin m (x != y) (n * n') (d * d') z k e)
      | .fin _ _ _, .fin _ _ _, .inf z => (f.withSign z f.infBits, 0)
      | p, q, r =>
        let sgn := fun v => match v with | FV.inf s => s | FV.fin s _ _ => s | .nan _ => false
        let ps := sgn p != sgn q
        match r with
        | .inf z => if z = ps then (f.withSign ps f.infBits, 0) else (f.qnan, fIV)
        | _ => (f.withSign ps f.infBits, 0)

/-- Division (R302). -/
def FpFmt.div (f : FpFmt) (m : Nat) (a b : Nat) : Nat × Flags :=
  match f.nanOf [a, b] with
  | some r => r
  | none => match f.decode a, f.decode b with
    | .inf _, .inf _ => (f.qnan, fIV)
    | .inf x, .fin y _ _ => (f.withSign (x != y) f.infBits, 0)
    | .fin x _ _, .inf y => (f.withSign (x != y) 0, 0)
    | .fin x n d, .fin y n' d' =>
      if n' = 0 then (if n = 0 then (f.qnan, fIV) else (f.withSign (x != y) f.infBits, fDZ))
      else f.round m (x != y) (n * d') (d * n')
    | _, _ => (f.qnan, 0)

/-- The whole square root of a number below 4^k, bit by bit. -/
def isqrtBits (n : Nat) : Nat → Nat → Nat
  | 0, r => r
  | k + 1, r => let c := r + 2 ^ k; isqrtBits n k (if c * c ≤ n then c else r)

def isqrt (n : Nat) : Nat := isqrtBits n (Nat.log2 n / 2 + 1) 0

/-- A fraction near the square root of n / d, on the same side of every value and midpoint that a format of fewer than
`p` bits can hold: the root to p bits, with a sticky half unit where it is not exact. -/
def sqrtFrac (n d p : Nat) : Nat × Nat :=
  let e := exponentOf n d
  let s := (p : Int) - e / 2
  let sh := if s < 0 then 0 else s.toNat
  let num := n * 4 ^ sh
  let r := isqrt (num / d)
  let sticky := if r * r * d = num then 0 else 1
  (2 * r + sticky, 2 ^ (sh + 1))

/-- Square root (R302). -/
def FpFmt.sqrt (f : FpFmt) (m : Nat) (a : Nat) : Nat × Flags :=
  match f.nanOf [a] with
  | some r => r
  | none => match f.decode a with
    | .inf neg => if neg then (f.qnan, fIV) else (f.infBits, 0)
    | .fin neg n d =>
      if n = 0 then (f.withSign neg 0, 0)
      else if neg then (f.qnan, fIV)
      else let (r, q) := sqrtFrac n d (f.fb + 4); f.round m false r q
    | _ => (f.qnan, 0)

/-- The order of two values that are not NaNs: less, equal by value. Zeros are equal. -/
def fvLt : FV → FV → Bool
  | .inf x, .inf y => x && !y
  | .inf x, _ => x
  | _, .inf y => !y
  | .fin x n d, .fin y k e =>
    decide (signed x (n * e) < signed y (k * d))
  | _, _ => false

def fvEq (a b : FV) : Bool := !fvLt a b && !fvLt b a

/-- −0 below +0, otherwise by value: the order of the minimum and maximum families (R198). -/
def FpFmt.ltMM (f : FpFmt) (a b : Nat) : Bool :=
  let x := f.decode a
  let y := f.decode b
  fvLt x y || (fvEq x y && bitAt a (f.eb + f.fb) && !bitAt b (f.eb + f.fb))

/-- FMIN, FMAX (R198). -/
def FpFmt.minMax (f : FpFmt) (isMax : Bool) (a b : Nat) : Nat × Flags :=
  match f.nanOf [a, b] with
  | some r => r
  | none => (if f.ltMM a b then (if isMax then b else a) else (if isMax then a else b), 0)

/-- FMINNUM, FMAXNUM (R198). -/
def FpFmt.minMaxNum (f : FpFmt) (isMax : Bool) (a b : Nat) : Nat × Flags :=
  let fl : Flags := if f.isSnan a || f.isSnan b then fIV else 0
  if f.isNan a && f.isNan b then (f.qnan, fl)
  else if f.isNan a then (b, fl)
  else if f.isNan b then (a, fl)
  else (if f.ltMM a b then (if isMax then b else a) else (if isMax then a else b), 0)

/-- A NaN pattern carried to another format: the most significant fraction bits are kept, the quiet bit is set
(R192, R311). -/
def FpFmt.nanTo (f g : FpFmt) (b : Nat) : Nat :=
  let b := f.quiet b
  let frac := bitsAt b 0 f.fb
  let frac := if f.fb ≤ g.fb then frac * 2 ^ (g.fb - f.fb) else frac / 2 ^ (f.fb - g.fb)
  g.withSign (bitAt b (f.eb + f.fb)) (g.infBits + frac)

/-- A conversion between binary formats, rounded once (R311). -/
def FpFmt.convert (f g : FpFmt) (m : Nat) (b : Nat) : Nat × Flags :=
  if f.isNan b then (f.nanTo g b, if f.isSnan b then fIV else 0) else g.ofFV m (f.decode b)

end Sys2Proof.Machine
end

