-- ==== Sys2Proof/Machine/Approx.lean ====
section
/-! DEFINITION. The approximations of FP32: tables of R314, their first-degree step and the special operands (R314-R316).
The entries are the expressions of R314, computed to 80 digits and rounded to the nearest multiple of 2^-24. -/

namespace Sys2Proof.Machine

/-- A fraction with its sign rounded to the nearest whole number, a tie to the even one. -/
def nearest (x : Int) (d : Nat) : Int :=
  let (k, _) := roundUnits x.natAbs d 0 0 false
  if x < 0 then -(k : Int) else k

/-- T0 and −T1 of FRCPA: 2²⁴ / (1 + j/64) and 2²⁴ / (1 + j/64)². -/
def rcp0 (j : Nat) : Int := nearest (2 ^ 30 : Nat) (64 + j)
def rcp1 (j : Nat) : Int := nearest (2 ^ 36 : Nat) ((64 + j) * (64 + j))

/-- T0 of FRSQA: 2²⁴ (1 + j/32)^(−1/2), to the nearest whole number. -/
def rsq0 : List Nat :=
  [16777216, 16521060, 16276290, 16042087, 15817711, 15602494, 15395829, 15197165, 15005998, 14821869,
   14644355, 14473070, 14307658, 14147791, 13993165, 13843502, 13698540, 13558038, 13421773, 13289535,
   13161131, 13036378, 12915107, 12797158, 12682383, 12570642, 12461803, 12355743, 12252346, 12151502,
   12053108, 11957066]
  ++
  [11863283, 11771673, 11682154, 11594646, 11509075, 11425372, 11343468, 11263302, 11184811, 11107938,
   11032629, 10958832, 10886495, 10815573, 10746018, 10677789, 10610843, 10545141, 10480644, 10417316,
   10355123, 10294030, 10234006, 10175020, 10117042, 10060044, 10003999, 9948880, 9894662, 9841321, 9788834,
   9737177]
  ++
  [9686330, 9636271, 9586981, 9538439, 9490627, 9443526, 9397121, 9351392, 9306325, 9261903, 9218111, 9174935,
   9132360, 9090372, 9048957, 9008104, 8967799, 8928030, 8888786, 8850055, 8811826, 8774087, 8736830, 8700043,
   8663717, 8627842, 8592410, 8557410, 8522834, 8488674, 8454922, 8421569]

/-- −T1 of FRSQA: 2²⁴ (1 + j/32)^(−3/2) / 2. -/
def rsq1 : List Nat :=
  [8388608, 8010211, 7659431, 7333525, 7030094, 6747024, 6482454, 6234734, 6002399, 5784144, 5578802, 5385328,
   5202785, 5030326, 4867188, 4712681, 4566180, 4427114, 4294967, 4169266, 4049579, 3935510, 3826698, 3722810,
   3623538, 3528601, 3437739, 3350710, 3267292, 3187279, 3110479, 3036715]
  ++
  [2965821, 2897643, 2832037, 2768871, 2708018, 2649362, 2592793, 2538209, 2485513, 2434617, 2385433, 2337884,
   2291894, 2247392, 2204311, 2162590, 2122169, 2082991, 2045004, 2008157, 1972404, 1937700, 1904001, 1871268,
   1839462, 1808547, 1778489, 1749254, 1720811, 1693131, 1666184, 1639946]
  ++
  [1614388, 1589488, 1565221, 1541566, 1518500, 1496004, 1474058, 1452643, 1431742, 1411338, 1391413, 1371953,
   1352942, 1334366, 1316212, 1298465, 1281114, 1264146, 1247549, 1231312, 1215424, 1199875, 1184655, 1169754,
   1155162, 1140872, 1126873, 1113159, 1099721, 1086550, 1073641, 1060985]

/-- T0 of FEXP2A: 2²⁴ 2^(j/64). -/
def exp0 : List Nat :=
  [16777216, 16959908, 17144589, 17331282, 17520007, 17710787, 17903645, 18098603, 18295684, 18494911,
   18696307, 18899897, 19105703, 19313750, 19524063, 19736666, 19951585, 20168843, 20388467, 20610483,
   20834917, 21061794, 21291142, 21522987, 21757357, 21994279, 22233781, 22475891, 22720638, 22968049,
   23218155, 23470984]
  ++
  [23726566, 23984932, 24246111, 24510133, 24777031, 25046835, 25319578, 25595290, 25874004, 26155754,
   26440571, 26728490, 27019544, 27313768, 27611195, 27911861, 28215802, 28523052, 28833647, 29147625,
   29465022, 29785875, 30110222, 30438101, 30769550, 31104608, 31443315, 31785710, 32131834, 32481727,
   32835430, 33192984]

/-- T1 of FEXP2A: 2²⁴ 2^(j/64) ln 2. -/
def exp1 : List Nat :=
  [11629080, 11755712, 11883724, 12013129, 12143943, 12276182, 12409861, 12544996, 12681602, 12819695,
   12959293, 13100410, 13243064, 13387272, 13533049, 13680415, 13829385, 13979977, 14132209, 14286098,
   14441664, 14598923, 14757895, 14918598, 15081051, 15245273, 15411283, 15579101, 15748746, 15920239,
   16093599, 16268846]
  ++
  [16446003, 16625088, 16806123, 16989130, 17174129, 17361143, 17550194, 17741303, 17934493, 18129787,
   18327207, 18526777, 18728521, 18932461, 19138622, 19347028, 19557703, 19770673, 19985961, 20203594,
   20423597, 20645995, 20870815, 21098084, 21327827, 21560072, 21794845, 22032176, 22272090, 22514617,
   22759786, 23007623]

/-- T0 of FLOG2A: 2²⁴ log₂(1 + j/64). -/
def log0 : List Nat :=
  [0, 375270, 744810, 1108793, 1467383, 1820738, 2169009, 2512340, 2850868, 3184728, 3514044, 3838941,
   4159533, 4475935, 4788255, 5096595, 5401057, 5701737, 5998727, 6292118, 6581994, 6868440, 7151536, 7431359,
   7707984, 7981483, 8251926, 8519380, 8783912, 9045584, 9304457, 9560591]
  ++
  [9814042, 10064867, 10313120, 10558852, 10802114, 11042956, 11281425, 11517568, 11751428, 11983051,
   12212479, 12439752, 12664911, 12887994, 13109041, 13328087, 13545168, 13760320, 13973576, 14184969,
   14394532, 14602297, 14808293, 15012551, 15215099, 15415967, 15615181, 15812769, 16008758, 16203172,
   16396036, 16587377]

/-- T1 of FLOG2A: 2²⁴ / ((1 + j/64) ln 2). -/
def log1 : List Nat :=
  [24204406, 23832031, 23470939, 23120627, 22780618, 22450464, 22129743, 21818056, 21515028, 21220301,
   20933541, 20654427, 20382658, 20117948, 19860026, 19608633, 19363525, 19124469, 18891244, 18663639,
   18441452, 18224494, 18012581, 17805540, 17603205, 17405416, 17212022, 17022879, 16837848, 16656796,
   16479596, 16306126]
  ++
  [16136271, 15969918, 15806959, 15647293, 15490820, 15337446, 15187078, 15039631, 14895019, 14753162,
   14613981, 14477402, 14343352, 14211762, 14082564, 13955694, 13831089, 13708690, 13588439, 13470278,
   13354155, 13240017, 13127814, 13017496, 12909017, 12802331, 12697393, 12594163, 12492597, 12392656,
   12294302, 12197496]

/-- 2²⁴ sin(πj/128) over the first quarter, j from 0 to 64. -/
def sinQ : List Nat :=
  [0, 411733, 823219, 1234209, 1644455, 2053710, 2461729, 2868265, 3273072, 3675909, 4076531, 4474698,
   4870169, 5262706, 5652074, 6038037, 6420363, 6798821, 7173184, 7543226, 7908725, 8269459, 8625213, 8975771,
   9320922, 9660458, 9994176, 10321873, 10643353, 10958422, 11266890, 11568571]
  ++
  [11863283, 12150850, 12431097, 12703856, 12968963, 13226258, 13475586, 13716797, 13949745, 14174291,
   14390298, 14597637, 14796184, 14985817, 15166424, 15337895, 15500126, 15653022, 15796488, 15930439,
   16054795, 16169479, 16274424, 16369565, 16454846, 16530216, 16595628, 16651044, 16696429, 16731757,
   16757007, 16772163]
  ++
  [16777216]

/-- 2²⁴ π sin(πj/128) over the first quarter, j from 0 to 64. -/
def piSinQ : List Nat :=
  [0, 1293499, 2586219, 3877381, 5166207, 6451921, 7733749, 9010919, 10282660, 11548208, 12806800, 14057677,
   15300086, 16533279, 17756514, 18969052, 20170164, 21359126, 22535223, 23697745, 24845992, 25979273,
   27096905, 28198215, 29282539, 30349225, 31397630, 32427121, 33437080, 34426898, 35395978, 36343737]
  ++
  [37269603, 38173020, 39053443, 39910342, 40743200, 41551516, 42334803, 43092589, 43824417, 44529848,
   45208455, 45859830, 46483582, 47079333, 47646725, 48185417, 48695083, 49175418, 49626131, 50046951,
   50437625, 50797917, 51127610, 51426506, 51694425, 51931205, 52136703, 52310796, 52453379, 52564366,
   52643690, 52691304]
  ++
  [52707179]


/-- 2²⁴ c sin(πj/128) for a table of the first quarter, with j from 0 to 255. -/
def quarterWave (t : List Nat) (j : Nat) : Int :=
  let j := j % 256
  if j ≤ 64 then (t.getD j 0 : Nat)
  else if j ≤ 128 then (t.getD (128 - j) 0 : Nat)
  else if j ≤ 192 then -(t.getD (j - 128) 0 : Nat)
  else -(t.getD (256 - j) 0 : Nat)

/-- y := q(T0 + T1 · d) in units of 2^-24, with d = dn / dd (R314). -/
def approxStep (t0 t1 : Int) (dn dd : Nat) : Int := nearest (t0 * dd + t1 * dn) dd

/-- y · 2^e, y in units of 2^-24, rounded to FP32 under RN. -/
def approxOut (neg : Bool) (y : Nat) (e : Int) : Nat × Flags :=
  let (p, r) := pow2 (e - 24)
  fp32.round 0 neg (y * p) r

/-- floor of n / d with its sign, and the fraction that is left over as a numerator over d. -/
def floorFrac (neg : Bool) (n d : Nat) : Int × Nat :=
  let x := signed neg n
  (x / (d : Int), (x % (d : Int)).toNat)

/-- 1/x. -/
def rcpa (neg : Bool) (n d : Nat) : Nat × Flags :=
  let e := exponentOf n d
  let (p, r) := pow2 e
  -- m = n r / (d p)
  let num := n * r
  let den := d * p
  let j := 64 * (num - den) / den
  approxOut neg (approxStep (rcp0 j) (-(rcp1 j)) (64 * (num - den) - j * den) (64 * den)).toNat (-e)

/-- 1/√x. -/
def rsqa (n d : Nat) : Nat × Flags :=
  let k := exponentOf n d / 2
  let (p, r) := pow2 (2 * k)
  let num := n * r
  let den := d * p
  let j := 32 * (num - den) / den
  approxOut false (approxStep (rsq0.getD j 0 : Nat) (-(rsq1.getD j 0 : Nat)) (32 * (num - den) - j * den) (32 * den)).toNat (-k)

/-- 2^x; beyond ±512 the exponent changes nothing of the rounded result. -/
def exp2a (neg : Bool) (n d : Nat) : Nat × Flags :=
  let (fl, f) := floorFrac neg n d
  let fl := if fl < -512 then -512 else if 512 < fl then 512 else fl
  let j := 64 * f / d
  approxOut false (approxStep (exp0.getD j 0 : Nat) (exp1.getD j 0 : Nat) (64 * f - j * d) (64 * d)).toNat fl

/-- log₂ x. -/
def log2a (n d : Nat) : Nat × Flags :=
  let e := exponentOf n d
  let (p, r) := pow2 e
  let num := n * r
  let den := d * p
  let j := 64 * (num - den) / den
  let y := approxStep (log0.getD j 0 : Nat) (log1.getD j 0 : Nat) (64 * (num - den) - j * den) (64 * den) + e * (2 ^ 24 : Nat)
  approxOut (decide (y < 0)) y.natAbs 0

/-- sin(πx), or cos(πx) as the sine a quarter wave on. -/
def sinPia (cos : Bool) (neg : Bool) (n d : Nat) : Nat × Flags :=
  -- u = x − 2 floor(x/2) = un / d
  let un := (floorFrac neg n (2 * d)).2
  let j := 128 * un / d
  let q := if cos then 64 else 0
  let y := approxStep (quarterWave sinQ (j + q)) (quarterWave piSinQ (j + 64 + q)) (128 * un - j * d) (128 * d)
  approxOut (decide (y < 0)) y.natAbs 0

/-- The six approximations. -/
inductive Approx where
  | rcp | rsq | exp2 | log2 | sin | cos
  deriving DecidableEq, Repr

/-- An approximation of an FP32 pattern: the special operands (R316), otherwise R314. -/
def approx (op : Approx) (b : Nat) : Nat × Flags :=
  match fp32.nanOf [b] with
  | some r => r
  | none =>
    match fp32.decode b with
    | .nan _ => (fp32.qnan, 0)
    | .inf neg =>
      match op with
      | .rcp => (fp32.withSign neg 0, 0)
      | .rsq => if neg then (fp32.qnan, fIV) else (0, 0)
      | .exp2 => if neg then (0, 0) else (fp32.infBits, 0)
      | .log2 => if neg then (fp32.qnan, fIV) else (fp32.infBits, 0)
      | .sin | .cos => (fp32.qnan, fIV)
    | .fin neg n d =>
      if n = 0 then
        match op with
        | .rcp | .rsq => (fp32.withSign neg fp32.infBits, fDZ)
        | .exp2 | .cos => (0x3F800000, 0)
        | .log2 => (fp32.withSign true fp32.infBits, fDZ)
        | .sin => (fp32.withSign neg 0, 0)
      else
        match op with
        | .rcp => rcpa neg n d
        | .rsq => if neg then (fp32.qnan, fIV) else rsqa n d
        | .exp2 => exp2a neg n d
        | .log2 => if neg then (fp32.qnan, fIV) else log2a n d
        | .sin => sinPia false neg n d
        | .cos => sinPia true neg n d

end Sys2Proof.Machine
end

