-- ==== Sys2Proof/WellFormed.lean ====
section
/-! DEFINITION. Which terms of Instr are well formed: the field tests of R239 (test 4 of R242) and the register
group tests of R241 (test 5), stated on the fields that the constructors carry. -/

namespace Sys2Proof

/-- Size in bits of one packed element of a format (R310; the formats of R62). `bytes` counts as one byte. -/
def Fmt.bits : Fmt → Nat
  | .bytes => 8 | .int8 => 8 | .int16 => 16 | .int32 => 32 | .int64 => 64
  | .fp16 => 16 | .bf16 => 16 | .fp32 => 32 | .fp64 => 64
  | .d8 => 8 | .fp4x => 4 | .int4g => 4 | .rq32 => 32 | .rq64 => 64

/-- Size in bits of an integer type of R312. -/
def IntTy.bits : IntTy → Nat
  | .s32 => 32 | .u32 => 32 | .s64 => 64 | .u64 => 64

/-- log₂ of the smallest register group, 1, 2, 4 or 8 registers, that holds this many bits (R310). -/
def groupLog (bits : Nat) : Nat :=
  if bits ≤ 32 then 0 else if bits ≤ 64 then 1 else if bits ≤ 128 then 2 else 3

/-- One register operand: its number, the log₂ of its group size, and whether its number stands in the extension
word (R238). -/
structure Opnd where
  reg : Reg
  lg : Nat
  ext : Bool := false
  deriving DecidableEq, Repr

/-- A group is aligned when its first number is divisible by its size, and number 255 is the zero operand at every
width (R241, R155). A group of more than one register that starts below 255 and would include x255 is misaligned;
divisibility alone does not exclude it (x254:2, x252:4 and x248:8). -/
def Opnd.aligned (o : Opnd) : Bool :=
  o.reg == 255 || (o.reg.toNat % 2 ^ o.lg == 0 && decide (o.reg.toNat + 2 ^ o.lg ≤ 255))

/-- The formats of scalar floating arithmetic (R301): 5 to 8, 12 and 13. -/
def Fmt.isArith : Fmt → Bool
  | .fp16 | .bf16 | .fp32 | .fp64 | .rq32 | .rq64 => true
  | _ => false

/-- The IEEE formats and bfloat16 (R191): 5 to 8. -/
def Fmt.isIeee : Fmt → Bool
  | .fp16 | .bf16 | .fp32 | .fp64 => true
  | _ => false

/-- The rational formats (R207): 12 and 13. -/
def Fmt.isRat : Fmt → Bool
  | .rq32 | .rq64 => true
  | _ => false

/-- The pairing of FMT, W and .X2 of R299: .X2 only with FMT 5 or 6, and 64-bit formats not with W = 00. -/
def typeOk (fmt : Fmt) (x2 : Bool) (w : Width) : Bool :=
  match fmt with
  | .fp16 | .bf16 => true
  | .fp32 | .rq32 => !x2
  | .fp64 | .rq64 => !x2 && w != 0
  | _ => false

/-- W of FCMP and FCLASS gives exactly one element (R301). -/
def oneElement (fmt : Fmt) (w : Width) : Bool :=
  match fmt with
  | .fp64 | .rq64 => w == 1
  | _ => w == 0

/-- A rounding field holds the mode in force or an override code 0 to 4 (R238). -/
def Rnd.ok : Rnd → Bool
  | .inForce => true
  | .forced m => decide (m.toNat ≤ 4)

/-- The number of elements E := 2^W of a conversion, times a size, must fit 256 bits (R310). -/
def convFits (w : Width) (bits : Nat) : Bool := decide (2 ^ w.toNat * bits ≤ 256)

/-- The widths and operations of an atomic type (R325). -/
def atomTypeOk (fmt : Fmt) (w : Width) (op : AOp) : Bool :=
  match fmt with
  | .int32 => w == 0
  | .int64 => w == 1
  | .fp32 | .fp16 | .bf16 => w == 0 && op == .add
  | .fp64 => w == 1 && op == .add
  | _ => false

/-- The operations of RED (R330). -/
def redOpOk : AOp → Bool
  | .add | .min | .max | .and | .or | .xor => true
  | _ => false

/-- .UNS stands only with MIN and MAX (R325). -/
def unsOk (op : AOp) (uns : Bool) : Bool := !uns || op == .min || op == .max

/-- The pairing of type, W, operation and RND of LRED and LSCAN (R295). -/
def laneTypeOk (fmt : Fmt) (w : Width) (op : LaneOp) (rnd : Rnd) : Bool :=
  let isInt := match op with
    | .add | .min | .max | .minu | .maxu | .and | .or | .xor => true
    | _ => false
  (match fmt with
    | .int32 => w == 0 && isInt
    | .int64 => w == 1 && isInt
    | .fp32 => w == 0 && !isInt
    | .fp64 => w == 1 && !isInt
    | _ => false) && rnd.ok && (rnd == .inForce || op == .fadd)

/-- A sub-group code g names a width of 2 to 32 (R292). -/
def subgroupOk (g : BitVec 3) : Bool := decide (1 ≤ g.toNat ∧ g.toNat ≤ 5)

/-- What R357 lists of a special register: whether it is 64 bits wide and whether SWR may write it. -/
structure SpecialReg where
  wide : Bool
  writable : Bool
  deriving DecidableEq, Repr

/-- The special registers of R357 by number; none for an unlisted number. -/
def specialReg (r : Half) : Option SpecialReg :=
  let n := r.toNat
  if n ≤ 0x006 then some ⟨false, false⟩
  else if n = 0x008 then some ⟨true, false⟩
  else if n = 0x010 ∨ n = 0x011 then some ⟨false, true⟩
  else if n = 0x018 ∨ n = 0x019 then some ⟨true, false⟩
  else if n = 0x020 ∨ n = 0x021 then some ⟨false, true⟩
  else if 0x030 ≤ n ∧ n ≤ 0x03F then some ⟨false, true⟩
  else if 0x040 ≤ n ∧ n ≤ 0x047 then some ⟨true, true⟩
  else if 0x080 ≤ n ∧ n ≤ 0x0A0 then some ⟨true, false⟩
  else none

/-- W of SRD and SWR is 00 for a 32-bit and 01 for a 64-bit register, and SWR needs a writable one (R358). -/
def specialOk (w : Width) (r : Half) (write : Bool) : Bool :=
  match specialReg r with
  | none => false
  | some s => w == (if s.wide then 1 else 0) && (!write || s.writable)

/-- A VOTE names a predicate or a register in D by its mode, and .LIVE and .POS have no predicate operand (R294). -/
def voteOk (d a : Reg) (mode : VoteMode) : Bool :=
  match mode with
  | .every | .some | .same => decide (d.toNat < 8) && decide (a.toNat < 8)
  | .mask => decide (a.toNat < 8)
  | .live | .pos => a == 0

/-- The fields of LD and ST that R321 allows together. -/
def ldFieldsOk (w : Width) (fmt : Fmt) (size : LdSize) : Bool :=
  match size with
  | .raw => fmt == .bytes
  | .byte | .half => fmt == .bytes && w == 0
  | .x => match fmt with
    | .bytes | .int8 | .int16 | .fp16 | .bf16 | .d8 => true
    | _ => false

/-- Test 4 of R242 on the fields of an instruction: the values of used fields that the entries allow (R239).
Device steps check the ranges that their rules give. -/
def Instr.fieldsOk : Instr → Bool
  | .iaddc w _ _ _ _ _ => decide (w.toNat ≤ 1)
  | .icmp w _ _ _ _ _ => decide (w.toNat ≤ 1)
  | .movi w _ _ | .moviImm32 w _ _ => decide (w.toNat ≤ 1)
  | .fadd w _ _ _ r f x | .fsub w _ _ _ r f x | .fmul w _ _ _ r f x | .fdiv w _ _ _ r f x
  | .ffma w _ _ _ _ r f x | .fsqrt w _ _ r f x => typeOk f x w && r.ok
  | .fmin w _ _ _ f x | .fmax w _ _ _ f x | .fminnum w _ _ _ f x | .fmaxnum w _ _ _ f x
  | .fabs w _ _ f x | .fneg w _ _ f x => typeOk f x w
  | .fcmp w _ _ _ _ f _ => f.isArith && oneElement f w
  | .fclass w _ _ f => (f.isArith || f == .d8) && oneElement f w
  | .fcopysign w _ _ _ f x | .fgetexp w _ _ f x => f.isIeee && typeOk f x w
  | .frint w _ _ r f x _ | .fscale w _ _ _ r f x => f.isIeee && typeOk f x w && r.ok
  | .fcvt w _ _ b r df sf xn =>
      (match df with | .fp16 | .bf16 | .fp32 | .fp64 | .d8 | .fp4x | .rq32 | .rq64 => true | _ => false)
      && (match sf with | .fp16 | .bf16 | .fp32 | .fp64 | .d8 | .fp4x | .int4g | .rq32 | .rq64 => true | _ => false)
      && convFits w df.bits && convFits w sf.bits
      && (sf != .int4g || df == .bf16)
      && r.ok && (r == .inForce || (df != .d8 && df != .fp4x))
      && (sf == .fp4x || xn == 0) && (sf == .fp4x || sf == .int4g || b == 0)
  | .fcvti w _ _ r sf it =>
      (sf.isArith || sf == .d8) && convFits w sf.bits && convFits w it.bits && r.ok
  | .icvtf w _ _ r df it =>
      (df.isArith || df == .d8) && convFits w df.bits && convFits w it.bits && r.ok && (r == .inForce || df != .d8)
  | .qmake w _ _ _ r f | .qmed w _ _ _ r f => f.isRat && typeOk f false w && r.ok
  | .qnum w _ _ f | .qden w _ _ f | .qcanon w _ _ f => f.isRat && typeOk f false w
  | .ld w _ _ _ _ _ f s sx => ldFieldsOk w f s && (!sx || s == .byte || s == .half)
  | .st w _ _ _ r _ _ f s =>
      ldFieldsOk w f s && r.ok && (r == .inForce || (s == .x && (f == .bytes || f == .fp16 || f == .bf16)))
  | .atom w _ _ _ c _ op f _ _ u => atomTypeOk f w op && unsOk op u && (op == .cas || c == 0)
  | .atoms w _ _ _ c sc op f _ u =>
      atomTypeOk f w op && unsOk op u && (op == .cas || c == 0) && (sc == .thread || sc == .block)
  | .red w _ _ _ op f u => atomTypeOk f w op && redOpOk op && unsOk op u
  | .invoke _ _ _ _ n | .invokeOn _ _ _ _ n => decide (n.toNat ≤ 8)
  | .cpy d _ _ tb _ | .cpyg d _ tb _ | .cpys d _ tb _ | .cpyr d _ _ tb _ | .nbgemv d _ tb _ => tb || d == 0
  | .accrd w _ _ _ f | .accwr w _ _ _ f => !(f == .fp64 && w == 0)
  | .rng w _ k => !(k == .f64 && w == 0)
  | .shfl _ _ _ _ _ g _ _ => subgroupOk g
  | .vote d a m => voteOk d a m
  | .lred w _ _ r f op g | .lscan w _ _ r f op g _ => laneTypeOk f w op r && subgroupOk g
  | .srd w _ r => specialOk w r false
  | .swr w _ r => specialOk w r true
  | .cctl a off op => op != .iinv || (a == 0 && off == 0)
  | .fportTrain p _ _ | .flitReplay p | .flowStop p _ | .flowGo p _ | .flitAcknowledge p _ => decide (p.toNat ≤ 17)
  | .thermalThrottle d | .thermalGate d | .thermalRestore d => decide (d.toNat ≤ 9)
  | .fwchunk _ bs => decide (bs.length ≤ 240)
  | _ => true

/-- The register operands that an instruction names, with their group sizes (R241, R274, R299, R310, R254, R320,
R337, R292, R358). Substituted parameter words are taken apart when the instruction is executed (R240). -/
def Instr.operands : Instr → List Opnd
  | .iadd w d a b | .isub w d a b | .imul w d a b | .imulh w d a b | .idiv w d a b | .irem w d a b
  | .imin w d a b | .imax w d a b | .shl w d a b | .shr w d a b | .sar w d a b | .rol w d a b
  | .andReg w d a b | .orReg w d a b | .xorReg w d a b | .andn w d a b
  | .iaddc w d a b _ _ | .bfx w d a b _ | .isel w d a b _ =>
      [⟨d, w.toNat, false⟩, ⟨a, w.toNat, false⟩, ⟨b, w.toNat, false⟩]
  | .iaddImm w d a _ | .isubImm w d a _ | .shlImm w d a _ | .shrImm w d a _ | .sarImm w d a _ | .rolImm w d a _
  | .ineg w d a | .iabs w d a | .notReg w d a | .andImm32 w d a _ | .orImm32 w d a _ | .xorImm32 w d a _
  | .popc w d a | .clz w d a | .ctz w d a | .brev w d a | .imov w d a =>
      [⟨d, w.toNat, false⟩, ⟨a, w.toNat, false⟩]
  | .imad w d a b c _ | .bfi w d a b c =>
      [⟨d, w.toNat, false⟩, ⟨a, w.toNat, false⟩, ⟨b, w.toNat, false⟩, ⟨c, w.toNat, true⟩]
  | .idp4 d a b c _ _ _ | .prmb d a b c => [⟨d, 0, false⟩, ⟨a, 0, false⟩, ⟨b, 0, false⟩, ⟨c, 0, true⟩]
  | .icmp w _ a b _ _ => [⟨a, w.toNat, false⟩, ⟨b, w.toNat, false⟩]
  | .movi w d _ | .moviImm32 w d _ => [⟨d, w.toNat, false⟩]
  | .movhi d _ => [⟨d, 0, false⟩]
  | .lea d a b _ _ => [⟨d, 1, false⟩, ⟨a, 1, false⟩, ⟨b, 0, false⟩]
  | .fadd w d a b _ _ _ | .fsub w d a b _ _ _ | .fmul w d a b _ _ _ | .fdiv w d a b _ _ _
  | .fmin w d a b _ _ | .fmax w d a b _ _ | .fminnum w d a b _ _ | .fmaxnum w d a b _ _
  | .fcopysign w d a b _ _ | .fscale w d a b _ _ _ | .qmake w d a b _ _ | .qmed w d a b _ _ =>
      [⟨d, w.toNat, false⟩, ⟨a, w.toNat, false⟩, ⟨b, w.toNat, false⟩]
  | .ffma w d a b c _ _ _ => [⟨d, w.toNat, false⟩, ⟨a, w.toNat, false⟩, ⟨b, w.toNat, false⟩, ⟨c, w.toNat, true⟩]
  | .fsqrt w d a _ _ _ | .fabs w d a _ _ | .fneg w d a _ _ | .frint w d a _ _ _ _ | .fgetexp w d a _ _
  | .frcpa w d a | .frsqa w d a | .fexp2a w d a | .flog2a w d a | .fsina w d a | .fcosa w d a
  | .qnum w d a _ | .qden w d a _ | .qcanon w d a _ => [⟨d, w.toNat, false⟩, ⟨a, w.toNat, false⟩]
  | .fcmp w _ a b _ _ _ => [⟨a, w.toNat, false⟩, ⟨b, w.toNat, false⟩]
  | .fclass w d a _ => [⟨d, 0, false⟩, ⟨a, w.toNat, false⟩]
  | .fcvt w d a b _ df sf _ =>
      [⟨d, groupLog (2 ^ w.toNat * df.bits), false⟩, ⟨a, groupLog (2 ^ w.toNat * sf.bits), false⟩]
      ++ (if sf == .fp4x || sf == .int4g then [⟨b, 0, false⟩] else [])
  | .fcvti w d a _ sf it =>
      [⟨d, groupLog (2 ^ w.toNat * it.bits), false⟩, ⟨a, groupLog (2 ^ w.toNat * sf.bits), false⟩]
  | .icvtf w d a _ df it =>
      [⟨d, groupLog (2 ^ w.toNat * df.bits), false⟩, ⟨a, groupLog (2 ^ w.toNat * it.bits), false⟩]
  | .ld w d a _ _ _ _ _ _ => [⟨d, w.toNat, false⟩, ⟨a, 1, false⟩]
  | .st w d a _ _ _ _ _ _ => [⟨d, w.toNat, false⟩, ⟨a, 1, false⟩]
  | .lds w d a _ | .sts w d a _ | .ldc w d a _ | .stc w d a _ | .ldm w d a _ | .stm w d a _ =>
      [⟨d, w.toNat, false⟩, ⟨a, 0, false⟩]
  | .atom w d a b c _ op _ _ _ _ =>
      [⟨d, w.toNat, false⟩, ⟨a, 1, false⟩, ⟨b, w.toNat, false⟩] ++ (if op == .cas then [⟨c, w.toNat, true⟩] else [])
  | .atoms w d a b c _ op _ _ _ =>
      [⟨d, w.toNat, false⟩, ⟨a, 0, false⟩, ⟨b, w.toNat, false⟩] ++ (if op == .cas then [⟨c, w.toNat, true⟩] else [])
  | .red w a b _ _ _ _ => [⟨a, 1, false⟩, ⟨b, w.toNat, false⟩]
  | .discard a _ | .pref a _ _ => [⟨a, 1, false⟩]
  | .stmc w d a b => [⟨d, w.toNat, false⟩, ⟨a, 1, false⟩, ⟨b, 0, false⟩]
  | .bri a | .ret a | .hdrop a => [⟨a, 1, false⟩]
  | .call d _ => [⟨d, 1, false⟩]
  | .calli d a => [⟨d, 1, false⟩, ⟨a, 1, false⟩]
  | .fork a _ => [⟨a, 0, false⟩]
  | .invoke d a b c _ =>
      [⟨d, 1, false⟩, ⟨a, 1, false⟩, ⟨b, 0, false⟩, ⟨c, 3, true⟩]
  | .invokeOn d a b c _ =>
      [⟨d, 1, false⟩, ⟨a, 1, false⟩, ⟨b, 1, false⟩, ⟨c, 3, true⟩]
  | .await d a _ _ => [⟨d, 3, false⟩, ⟨a, 1, false⟩]
  | .hpoll d a => [⟨d, 0, false⟩, ⟨a, 1, false⟩]
  | .spec a => [⟨a, 3, false⟩]
  | .bolt d a _ => [⟨d, 3, false⟩, ⟨a, 0, false⟩]
  | .cpy d a _ tb _ => (if tb then [⟨d, 0, false⟩] else []) ++ [⟨a, 2, false⟩]
  | .nbgemv d a tb _ => (if tb then [⟨d, 0, false⟩] else []) ++ [⟨a, 2, false⟩]
  | .cpyg d a tb _ | .cpys d a tb _ | .cpyr d a _ tb _ => (if tb then [⟨d, 0, false⟩] else []) ++ [⟨a, 0, false⟩]
  | .tbinit a _ => [⟨a, 0, false⟩]
  | .tbarrive d a => [⟨d, 0, false⟩, ⟨a, 0, false⟩]
  | .tbexpect a b => [⟨a, 0, false⟩, ⟨b, 0, false⟩]
  | .tbwait _ a b => [⟨a, 0, false⟩, ⟨b, 0, false⟩]
  | .tbtest d a b => [⟨d, 0, false⟩, ⟨a, 0, false⟩, ⟨b, 0, false⟩]
  | .tlwait a _ => [⟨a, 1, false⟩]
  | .tlread d _ => [⟨d, 1, false⟩]
  | .tladd a _ => [⟨a, 0, false⟩]
  | .accrd w d a _ _ | .accwr w d a _ _ => [⟨d, w.toNat, false⟩, ⟨a, 0, false⟩]
  | .rng w d _ => [⟨d, w.toNat, false⟩]
  | .shfl w d a b _ _ _ _ => [⟨d, w.toNat, false⟩, ⟨a, w.toNat, false⟩, ⟨b, 0, false⟩]
  | .vote d _ m => match m with | .mask | .live | .pos => [⟨d, 0, false⟩] | _ => []
  | .lred w d a _ _ _ _ | .lscan w d a _ _ _ _ _ => [⟨d, w.toNat, false⟩, ⟨a, w.toNat, false⟩]
  | .lmatch w d a => [⟨d, 0, false⟩, ⟨a, w.toNat, false⟩]
  | .qswp w d a _ _ | .qbcast w d a _ _ => [⟨d, w.toNat, false⟩, ⟨a, w.toNat, false⟩]
  | .srd w d _ | .swr w d _ => [⟨d, w.toNat, false⟩]
  | .cctl a _ op => if op == .iinv then [] else [⟨a, 1, false⟩]
  | .clock d => [⟨d, 1, false⟩]
  | _ => []

/-- The predicates that an instruction reads or writes (R241); they take part in test 9 of R242 (R157). -/
def Instr.predicates : Instr → List PredNo
  | .iaddc _ _ _ _ pco pci => pco :: pci.toList
  | .isel _ _ _ _ pc => [pc]
  | .icmp _ pd _ _ pc _ | .fcmp _ pd _ _ pc _ _ => [pd, pc]
  | .pand d a b | .por d a b | .pxor d a b => [d, a, b]
  | .pnot d a | .pmov d a => [d, a]
  | .await _ _ pb _ => [pb]
  | .tbwait pd _ _ => [pd]
  | .shfl _ _ _ _ po _ _ _ => [po]
  | .vote d a m => match m with
    | .every | .some | .same => [d.setWidth 3, a.setWidth 3]
    | .mask => [a.setWidth 3]
    | .live | .pos => []
  | .qswp _ _ _ _ po | .qbcast _ _ _ _ po => [po]
  | _ => []

/-- Test 5 of R242: every register group is aligned (R241). -/
def Instr.groupsOk (i : Instr) : Bool := i.operands.all Opnd.aligned

/-- A well-formed instruction passes tests 4 and 5 of R242. -/
def Instr.wf (i : Instr) : Bool := i.fieldsOk && i.groupsOk

end Sys2Proof
end

