-- ==== Sys2Proof/Decode.lean ====
section
/-! DEFINITION. Clause headers (R234, R236), instruction words (R237, R238) and the opcode map (R243): the decoder,
total on any words and rejecting by cause, and after it the encoder. -/

namespace Sys2Proof

/-! ## Words and fields -/

/-- The seven instruction classes, in the order of their CLASS codes (R234). -/
inductive Cls where
  | int | flt | mem | ctl | eng | lane | sys
  deriving DecidableEq, Repr

/-- CLASS codes (R234). -/
def Cls.code : Cls → BitVec 3
  | .int => 0 | .flt => 1 | .mem => 2 | .ctl => 3 | .eng => 4 | .lane => 5 | .sys => 6

/-- The class of a CLASS code; 111 is illegal (R234). -/
def Cls.ofCode (c : BitVec 3) : Option Cls :=
  match c.toNat with
  | 0 => some .int | 1 => some .flt | 2 => some .mem | 3 => some .ctl
  | 4 => some .eng | 5 => some .lane | 6 => some .sys | _ => none

/-- A clause header (R234). -/
structure Header where
  reform : Bool
  pneg : Bool
  pred : PredNo
  setb : BitVec 4
  seta : BitVec 4
  wait : BitVec 12
  cls : BitVec 3
  n : BitVec 4
  deriving DecidableEq, Repr

/-- The fields of a header word (R234). -/
def Header.ofWord (w : Word) : Header where
  reform := w.getLsbD 31
  pneg := w.getLsbD 30
  pred := w.extractLsb' 27 3
  setb := w.extractLsb' 23 4
  seta := w.extractLsb' 19 4
  wait := w.extractLsb' 7 12
  cls := w.extractLsb' 4 3
  n := w.extractLsb' 0 4

/-- The word of a header (R234). -/
def Header.toWord (h : Header) : Word :=
  BitVec.ofBool h.reform ++ BitVec.ofBool h.pneg ++ h.pred ++ h.setb ++ h.seta ++ h.wait ++ h.cls ++ h.n

/-- The check of a header, whether or not its predicate holds: the ILLEGAL cause it traps with, if any (R236). -/
def Header.fault (h : Header) : Option Nat :=
  if h.cls = 7 ∨ h.n = 0 then some 1
  else if (12 ≤ h.seta.toNat ∧ h.seta.toNat ≤ 14) ∨ (12 ≤ h.setb.toNat ∧ h.setb.toNat ≤ 14) then some 2
  else none

/-- Word 0 of an instruction (R237): IMM8 stands in b, IMM16 in a and b, MASK and VAR in b. -/
structure W0 where
  op : BitVec 6
  w : Width
  d : Reg
  a : Reg
  b : BitVec 8
  deriving DecidableEq, Repr

def W0.ofWord (x : Word) : W0 where
  op := x.extractLsb' 26 6
  w := x.extractLsb' 24 2
  d := x.extractLsb' 16 8
  a := x.extractLsb' 8 8
  b := x.extractLsb' 0 8

def W0.toWord (f : W0) : Word := f.op ++ f.w ++ f.d ++ f.a ++ f.b

/-- IMM16 of form C (R237). -/
def W0.imm16 (f : W0) : Half := f.a ++ f.b

/-- The extension word E (R238). -/
structure Ext where
  c : BitVec 8
  rnd : BitVec 4
  pol : BitVec 2
  fr : BitVec 2
  scope : BitVec 3
  aop : BitVec 5
  fmt : BitVec 4
  md : BitVec 4
  deriving DecidableEq, Repr

def Ext.ofWord (x : Word) : Ext where
  c := x.extractLsb' 24 8
  rnd := x.extractLsb' 20 4
  pol := x.extractLsb' 18 2
  fr := x.extractLsb' 16 2
  scope := x.extractLsb' 13 3
  aop := x.extractLsb' 8 5
  fmt := x.extractLsb' 4 4
  md := x.extractLsb' 0 4

def Ext.toWord (e : Ext) : Word := e.c ++ e.rnd ++ e.pol ++ e.fr ++ e.scope ++ e.aop ++ e.fmt ++ e.md

/-- What follows word 0 (R237). -/
inductive Tail where
  | none
  | ext (e : Ext)
  | imm (x : Word)
  | par (p0 p1 p2 p3 : Word)
  deriving DecidableEq, Repr

/-- An instruction as its fields: the class of its clause, word 0 and what follows. -/
structure Enc where
  cls : Cls
  w0 : W0
  tail : Tail
  deriving DecidableEq, Repr

/-- The words of an instruction (R237). -/
def Enc.words (e : Enc) : List Word :=
  e.w0.toWord :: match e.tail with
    | .none => []
    | .ext x => [x.toWord]
    | .imm x => [x]
    | .par a b c d => [a, b, c, d]

/-! ## Codes -/

/-- FMT codes (R62). -/
def Fmt.code : Fmt → BitVec 4
  | .bytes => 0 | .int8 => 1 | .int16 => 2 | .int32 => 3 | .int64 => 4 | .fp16 => 5 | .bf16 => 6 | .fp32 => 7
  | .fp64 => 8 | .d8 => 9 | .fp4x => 10 | .int4g => 11 | .rq32 => 12 | .rq64 => 13

def Fmt.ofCode (c : BitVec 4) : Option Fmt :=
  match c.toNat with
  | 0 => some .bytes | 1 => some .int8 | 2 => some .int16 | 3 => some .int32 | 4 => some .int64
  | 5 => some .fp16 | 6 => some .bf16 | 7 => some .fp32 | 8 => some .fp64 | 9 => some .d8
  | 10 => some .fp4x | 11 => some .int4g | 12 => some .rq32 | 13 => some .rq64 | _ => none

/-- POLICY codes (R62). -/
def Policy.code : Policy → BitVec 2
  | .dflt => 0 | .bypass => 1 | .stream => 2

def Policy.ofCode (c : BitVec 2) : Option Policy :=
  match c.toNat with
  | 0 => some .dflt | 1 => some .bypass | 2 => some .stream | _ => none

/-- SCOPE codes (R168). -/
def Scope.code : Scope → BitVec 3
  | .thread => 0 | .block => 1 | .cluster => 2 | .device => 3 | .domain => 4 | .system => 5

def Scope.ofCode (c : BitVec 3) : Option Scope :=
  match c.toNat with
  | 0 => some .thread | 1 => some .block | 2 => some .cluster | 3 => some .device | 4 => some .domain
  | 5 => some .system | _ => none

/-- AOP codes (R238). -/
def AOp.code : AOp → BitVec 5
  | .add => 0 | .sub => 1 | .min => 2 | .max => 3 | .and => 4 | .or => 5 | .xor => 6 | .xchg => 7 | .cas => 8
  | .incwrap => 9 | .decwrap => 10

def AOp.ofCode (c : BitVec 5) : Option AOp :=
  match c.toNat with
  | 0 => some .add | 1 => some .sub | 2 => some .min | 3 => some .max | 4 => some .and | 5 => some .or
  | 6 => some .xor | 7 => some .xchg | 8 => some .cas | 9 => some .incwrap | 10 => some .decwrap | _ => none

/-- The RND field (R238): 0b0000, or 0b1000 + m. -/
def Rnd.code : Rnd → BitVec 4
  | .inForce => 0
  | .forced m => 1#1 ++ m

def Rnd.ofCode (c : BitVec 4) : Option Rnd :=
  if c = 0 then some .inForce
  else if c.getLsbD 3 then some (.forced (c.extractLsb' 0 3))
  else none

def ICond.code : ICond → BitVec 4
  | .eq => 0 | .ne => 1 | .lt => 2 | .le => 3 | .gt => 4 | .ge => 5 | .ltu => 6 | .leu => 7 | .gtu => 8 | .geu => 9

def ICond.ofCode (c : BitVec 4) : Option ICond :=
  match c.toNat with
  | 0 => some .eq | 1 => some .ne | 2 => some .lt | 3 => some .le | 4 => some .gt | 5 => some .ge
  | 6 => some .ltu | 7 => some .leu | 8 => some .gtu | 9 => some .geu | _ => none

def FCond.code : FCond → BitVec 4
  | .eq => 0 | .ne => 1 | .lt => 2 | .le => 3 | .gt => 4 | .ge => 5 | .un => 6 | .ord => 7

def FCond.ofCode (c : BitVec 4) : Option FCond :=
  match c.toNat with
  | 0 => some .eq | 1 => some .ne | 2 => some .lt | 3 => some .le | 4 => some .gt | 5 => some .ge
  | 6 => some .un | 7 => some .ord | _ => none

def SatMode.code : SatMode → BitVec 4
  | .wrap => 0 | .sat => 1 | .usat => 2

def SatMode.ofCode (c : BitVec 4) : Option SatMode :=
  match c.toNat with
  | 0 => some .wrap | 1 => some .sat | 2 => some .usat | _ => none

def IntTy.code : IntTy → BitVec 4
  | .s32 => 0 | .u32 => 1 | .s64 => 2 | .u64 => 3

def IntTy.ofCode (c : BitVec 4) : Option IntTy :=
  match c.toNat with
  | 0 => some .s32 | 1 => some .u32 | 2 => some .s64 | 3 => some .u64 | _ => none

def ShflMode.code : ShflMode → BitVec 2
  | .at => 0 | .below => 1 | .above => 2 | .flip => 3

def ShflMode.ofCode (c : BitVec 2) : ShflMode :=
  match c.toNat with
  | 0 => .at | 1 => .below | 2 => .above | _ => .flip

def VoteMode.code : VoteMode → BitVec 4
  | .every => 0 | .some => 1 | .same => 2 | .mask => 3 | .live => 4 | .pos => 5

def VoteMode.ofCode (c : BitVec 4) : Option VoteMode :=
  match c.toNat with
  | 0 => Option.some .every | 1 => Option.some .some | 2 => Option.some .same | 3 => Option.some .mask
  | 4 => Option.some .live | 5 => Option.some .pos | _ => Option.none

def LaneOp.code : LaneOp → BitVec 4
  | .add => 0 | .min => 1 | .max => 2 | .minu => 3 | .maxu => 4 | .and => 5 | .or => 6 | .xor => 7 | .fadd => 8
  | .fmin => 9 | .fmax => 10 | .fminnum => 11 | .fmaxnum => 12

def LaneOp.ofCode (c : BitVec 4) : Option LaneOp :=
  match c.toNat with
  | 0 => some .add | 1 => some .min | 2 => some .max | 3 => some .minu | 4 => some .maxu | 5 => some .and
  | 6 => some .or | 7 => some .xor | 8 => some .fadd | 9 => some .fmin | 10 => some .fmax | 11 => some .fminnum
  | 12 => some .fmaxnum | _ => none

def LdSize.code : LdSize → BitVec 2
  | .raw => 0 | .byte => 1 | .half => 2 | .x => 3

def LdSize.ofCode (c : BitVec 2) : LdSize :=
  match c.toNat with
  | 0 => .raw | 1 => .byte | 2 => .half | _ => .x

def Ordering3.code : Ordering3 → BitVec 2
  | .none => 0 | .acq => 1 | .rel => 2 | .ar => 3

def Ordering3.ofCode (c : BitVec 2) : Ordering3 :=
  match c.toNat with
  | 0 => .none | 1 => .acq | 2 => .rel | _ => .ar

def FenceKind.code : FenceKind → BitVec 2
  | .rel => 1 | .acq => 2 | .ar => 3

def FenceKind.ofCode (c : BitVec 2) : Option FenceKind :=
  match c.toNat with
  | 1 => some .rel | 2 => some .acq | 3 => some .ar | _ => none

def CctlOp.code : CctlOp → BitVec 4
  | .iinv => 0 | .wb => 1 | .wbi => 2

def CctlOp.ofCode (c : BitVec 4) : Option CctlOp :=
  match c.toNat with
  | 0 => some .iinv | 1 => some .wb | 2 => some .wbi | _ => none

def RngKind.code : RngKind → BitVec 2
  | .u32 => 0 | .f32 => 1 | .f64 => 2

def RngKind.ofCode (c : BitVec 2) : Option RngKind :=
  match c.toNat with
  | 0 => some .u32 | 1 => some .f32 | 2 => some .f64 | _ => none

/-- A predicate number in bits [2:0] of a field whose other bits must be zero (R241). -/
def predOf (f : BitVec 8) : PredNo := f.extractLsb' 0 3

/-- A predicate number as a field. -/
def predField (p : PredNo) : BitVec 8 := 0#5 ++ p

/-! ## The opcode map -/

/-- The words that an opcode takes in its class, and none for a slot that the table leaves unassigned (R243). -/
def opWords (c : Cls) (op : BitVec 6) : Option Nat :=
  let n := op.toNat
  match c with
  | .int =>
      if n ∈ [0x00, 0x01, 0x03, 0x04, 0x05, 0x06, 0x08, 0x09, 0x0A, 0x0B, 0x0C, 0x0D, 0x10, 0x11, 0x12, 0x13, 0x14,
        0x15, 0x16, 0x17, 0x18, 0x19, 0x1A, 0x1B, 0x1C, 0x20, 0x21, 0x22, 0x23, 0x30, 0x31, 0x32, 0x38, 0x39, 0x3A,
        0x3B, 0x3C] then some 1
      else if n ∈ [0x02, 0x07, 0x0E, 0x1D, 0x1E, 0x1F, 0x24, 0x25, 0x26, 0x28, 0x29, 0x33, 0x34] then some 2
      else none
  | .flt =>
      if n ≤ 0x05 ∨ (0x08 ≤ n ∧ n ≤ 0x0D) ∨ (0x10 ≤ n ∧ n ≤ 0x15) ∨ (0x18 ≤ n ∧ n ≤ 0x1A) ∨ (0x20 ≤ n ∧ n ≤ 0x25)
        ∨ (0x28 ≤ n ∧ n ≤ 0x2C) then some 2
      else none
  | .mem =>
      if (0x02 ≤ n ∧ n ≤ 0x07) ∨ n = 0x10 ∨ n = 0x11 then some 1
      else if n ≤ 0x01 ∨ (0x08 ≤ n ∧ n ≤ 0x0A) ∨ n = 0x12 ∨ n = 0x18 then some 2
      else none
  | .ctl =>
      if n ≤ 0x0B ∨ n = 0x11 ∨ n = 0x12 ∨ n = 0x1B ∨ n = 0x1C ∨ n = 0x20 ∨ n = 0x21 then some 1
      else if n = 0x10 ∨ (0x18 ≤ n ∧ n ≤ 0x1A) ∨ n = 0x28 then some 2
      else none
  | .eng =>
      if (0x09 ≤ n ∧ n ≤ 0x0C) ∨ (0x10 ≤ n ∧ n ≤ 0x12) ∨ n = 0x1B ∨ n = 0x28 then some 1
      else if n = 0x08 ∨ n = 0x19 ∨ n = 0x1A then some 2
      else if n ≤ 0x03 ∨ n = 0x18 ∨ n = 0x20 then some 5
      else none
  | .lane =>
      if n = 0x18 ∨ n = 0x20 ∨ n = 0x21 then some 1
      else if n = 0x00 ∨ n = 0x08 ∨ n = 0x10 ∨ n = 0x11 then some 2
      else none
  | .sys =>
      if n ≤ 0x04 ∨ n = 0x06 then some 1
      else if n = 0x05 then some 2
      else none

/-- The form of an opcode's further words (R237, R243): an immediate word, an extension word, parameter words. -/
def opTail (c : Cls) (op : BitVec 6) (ws : List Word) : Tail :=
  let n := op.toNat
  match ws with
  | [] => .none
  | [x] =>
      if (c = .int ∧ (n = 0x1D ∨ n = 0x1E ∨ n = 0x1F ∨ n = 0x33)) ∨ (c = .ctl ∧ (n = 0x10 ∨ n = 0x28))
        ∨ (c = .eng ∧ n = 0x08) then .imm x
      else .ext (Ext.ofWord x)
  | [a, b, c, d] => .par a b c d
  | _ => .none

/-! ## Parsing, class by class -/

def parseInt (f : W0) : Tail → Option Instr
  | .none => match f.op.toNat with
    | 0x00 => some (.iadd f.w f.d f.a f.b)
    | 0x01 => some (.iaddImm f.w f.d f.a f.b)
    | 0x03 => some (.isub f.w f.d f.a f.b)
    | 0x04 => some (.isubImm f.w f.d f.a f.b)
    | 0x05 => some (.imul f.w f.d f.a f.b)
    | 0x06 => some (.imulh f.w f.d f.a f.b)
    | 0x08 => some (.idiv f.w f.d f.a f.b)
    | 0x09 => some (.irem f.w f.d f.a f.b)
    | 0x0A => some (.ineg f.w f.d f.a)
    | 0x0B => some (.iabs f.w f.d f.a)
    | 0x0C => some (.imin f.w f.d f.a f.b)
    | 0x0D => some (.imax f.w f.d f.a f.b)
    | 0x10 => some (.shl f.w f.d f.a f.b)
    | 0x11 => some (.shlImm f.w f.d f.a f.b)
    | 0x12 => some (.shr f.w f.d f.a f.b)
    | 0x13 => some (.shrImm f.w f.d f.a f.b)
    | 0x14 => some (.sar f.w f.d f.a f.b)
    | 0x15 => some (.sarImm f.w f.d f.a f.b)
    | 0x16 => some (.rol f.w f.d f.a f.b)
    | 0x17 => some (.rolImm f.w f.d f.a f.b)
    | 0x18 => some (.andReg f.w f.d f.a f.b)
    | 0x19 => some (.orReg f.w f.d f.a f.b)
    | 0x1A => some (.xorReg f.w f.d f.a f.b)
    | 0x1B => some (.notReg f.w f.d f.a)
    | 0x1C => some (.andn f.w f.d f.a f.b)
    | 0x20 => some (.popc f.w f.d f.a)
    | 0x21 => some (.clz f.w f.d f.a)
    | 0x22 => some (.ctz f.w f.d f.a)
    | 0x23 => some (.brev f.w f.d f.a)
    | 0x30 => some (.imov f.w f.d f.a)
    | 0x31 => some (.movi f.w f.d f.imm16)
    | 0x32 => some (.movhi f.d f.imm16)
    | 0x38 => some (.pand (predOf f.d) (predOf f.a) (predOf f.b))
    | 0x39 => some (.por (predOf f.d) (predOf f.a) (predOf f.b))
    | 0x3A => some (.pxor (predOf f.d) (predOf f.a) (predOf f.b))
    | 0x3B => some (.pnot (predOf f.d) (predOf f.a))
    | 0x3C => some (.pmov (predOf f.d) (predOf f.a))
    | _ => none
  | .ext e => match f.op.toNat with
    | 0x02 => some (.iaddc f.w f.d f.a f.b (e.md.extractLsb' 0 3) (if e.md.getLsbD 3 then some (predOf e.c) else none))
    | 0x07 => (SatMode.ofCode e.md).map (.imad f.w f.d f.a f.b e.c)
    | 0x0E => some (.idp4 f.d f.a f.b e.c (e.md.getLsbD 0) (e.md.getLsbD 1) (e.md.getLsbD 2))
    | 0x24 => some (.bfx f.w f.d f.a f.b (e.md.getLsbD 0))
    | 0x25 => some (.bfi f.w f.d f.a f.b e.c)
    | 0x26 => some (.prmb f.d f.a f.b e.c)
    | 0x28 => some (.isel f.w f.d f.a f.b (predOf e.c))
    | 0x29 => (ICond.ofCode e.md).map (.icmp f.w (predOf f.d) f.a f.b (predOf e.c))
    | 0x34 => some (.lea f.d f.a f.b (e.md.extractLsb' 0 3) (e.md.getLsbD 3))
    | _ => none
  | .imm x => match f.op.toNat with
    | 0x1D => some (.andImm32 f.w f.d f.a x)
    | 0x1E => some (.orImm32 f.w f.d f.a x)
    | 0x1F => some (.xorImm32 f.w f.d f.a x)
    | 0x33 => some (.moviImm32 f.w f.d x)
    | _ => none
  | .par .. => none

def parseFlt (f : W0) : Tail → Option Instr
  | .ext e =>
    let x2 := e.md.getLsbD 3
    match Fmt.ofCode e.fmt, Rnd.ofCode e.rnd with
    | some fmt, some rnd => match f.op.toNat with
      | 0x00 => some (.fadd f.w f.d f.a f.b rnd fmt x2)
      | 0x01 => some (.fsub f.w f.d f.a f.b rnd fmt x2)
      | 0x02 => some (.fmul f.w f.d f.a f.b rnd fmt x2)
      | 0x03 => some (.ffma f.w f.d f.a f.b e.c rnd fmt x2)
      | 0x04 => some (.fdiv f.w f.d f.a f.b rnd fmt x2)
      | 0x05 => some (.fsqrt f.w f.d f.a rnd fmt x2)
      | 0x08 => some (.fmin f.w f.d f.a f.b fmt x2)
      | 0x09 => some (.fmax f.w f.d f.a f.b fmt x2)
      | 0x0A => some (.fminnum f.w f.d f.a f.b fmt x2)
      | 0x0B => some (.fmaxnum f.w f.d f.a f.b fmt x2)
      | 0x0C => (FCond.ofCode e.md).map (.fcmp f.w (predOf f.d) f.a f.b (predOf e.c) fmt)
      | 0x0D => some (.fclass f.w f.d f.a fmt)
      | 0x10 => some (.fabs f.w f.d f.a fmt x2)
      | 0x11 => some (.fneg f.w f.d f.a fmt x2)
      | 0x12 => some (.fcopysign f.w f.d f.a f.b fmt x2)
      | 0x13 => some (.frint f.w f.d f.a rnd fmt x2 (e.md.getLsbD 0))
      | 0x14 => some (.fscale f.w f.d f.a f.b rnd fmt x2)
      | 0x15 => some (.fgetexp f.w f.d f.a fmt x2)
      | 0x18 => (Fmt.ofCode (e.c.extractLsb' 0 4)).map fun sf => .fcvt f.w f.d f.a f.b rnd fmt sf e.md
      | 0x19 => (IntTy.ofCode e.md).map (.fcvti f.w f.d f.a rnd fmt)
      | 0x1A => (IntTy.ofCode e.md).map (.icvtf f.w f.d f.a rnd fmt)
      | 0x20 => some (.frcpa f.w f.d f.a)
      | 0x21 => some (.frsqa f.w f.d f.a)
      | 0x22 => some (.fexp2a f.w f.d f.a)
      | 0x23 => some (.flog2a f.w f.d f.a)
      | 0x24 => some (.fsina f.w f.d f.a)
      | 0x25 => some (.fcosa f.w f.d f.a)
      | 0x28 => some (.qmake f.w f.d f.a f.b rnd fmt)
      | 0x29 => some (.qnum f.w f.d f.a fmt)
      | 0x2A => some (.qden f.w f.d f.a fmt)
      | 0x2B => some (.qmed f.w f.d f.a f.b rnd fmt)
      | 0x2C => some (.qcanon f.w f.d f.a fmt)
      | _ => none
    | _, _ => none
  | _ => none

def parseMem (f : W0) : Tail → Option Instr
  | .none => match f.op.toNat with
    | 0x02 => some (.lds f.w f.d f.a f.b)
    | 0x03 => some (.sts f.w f.d f.a f.b)
    | 0x04 => some (.ldc f.w f.d f.a f.b)
    | 0x05 => some (.stc f.w f.d f.a f.b)
    | 0x06 => some (.ldm f.w f.d f.a f.b)
    | 0x07 => some (.stm f.w f.d f.a f.b)
    | 0x10 => match FenceKind.ofCode (f.b.extractLsb' 3 2), Scope.ofCode (f.b.extractLsb' 0 3) with
      | some k, some s => some (.fence k s)
      | _, _ => none
    | 0x11 => some (.discard f.a f.b)
    | _ => none
  | .ext e =>
    match f.op.toNat with
    | 0x00 => match Policy.ofCode e.pol, Fmt.ofCode e.fmt with
      | some p, some fm => some (.ld f.w f.d f.a f.b p (e.fr == 1) fm (LdSize.ofCode (e.md.extractLsb' 0 2)) (e.md.getLsbD 2))
      | _, _ => none
    | 0x01 => match Policy.ofCode e.pol, Fmt.ofCode e.fmt, Rnd.ofCode e.rnd with
      | some p, some fm, some r => some (.st f.w f.d f.a f.b r p (e.fr == 1) fm (LdSize.ofCode (e.md.extractLsb' 0 2)))
      | _, _, _ => none
    | 0x08 => match Scope.ofCode e.scope, AOp.ofCode e.aop, Fmt.ofCode e.fmt with
      | some s, some o, some fm =>
        some (.atom f.w f.d f.a f.b e.c s o fm (e.md.getLsbD 0) (Ordering3.ofCode (e.md.extractLsb' 1 2)) (e.md.getLsbD 3))
      | _, _, _ => none
    | 0x09 => match Scope.ofCode e.scope, AOp.ofCode e.aop, Fmt.ofCode e.fmt with
      | some s, some o, some fm =>
        some (.atoms f.w f.d f.a f.b e.c s o fm (Ordering3.ofCode (e.md.extractLsb' 1 2)) (e.md.getLsbD 3))
      | _, _, _ => none
    | 0x0A => match Scope.ofCode e.scope, AOp.ofCode e.aop, Fmt.ofCode e.fmt with
      | some s, some o, some fm => some (.red f.w f.a f.b s o fm (e.md.getLsbD 3))
      | _, _, _ => none
    | 0x12 => (Policy.ofCode e.pol).map (.pref f.a f.b)
    | 0x18 => some (.stmc f.w f.d f.a f.b)
    | _ => none
  | _ => none

def parseCtl (f : W0) : Tail → Option Instr
  | .none => match f.op.toNat with
    | 0x00 => some (.bra f.imm16)
    | 0x01 => some (.bri f.a)
    | 0x02 => some (.call f.d f.imm16)
    | 0x03 => some (.calli f.d f.a)
    | 0x04 => some (.ret f.a)
    | 0x05 => some .exit
    | 0x06 => some .nop
    | 0x07 => some .yield
    | 0x08 => some .reform
    | 0x09 => some .rwait
    | 0x0A => some (.bar f.b)
    | 0x0B => some (.cbar f.b)
    | 0x11 => some .join
    | 0x12 => some .vdrop
    | 0x1B => some (.hpoll f.d f.a)
    | 0x1C => some (.hdrop f.a)
    | 0x20 => some (.spec f.a)
    | 0x21 => some .specend
    | _ => none
  | .ext e => match f.op.toNat with
    | 0x18 => some (.invoke f.d f.a f.b e.c e.md)
    | 0x19 => some (.invokeOn f.d f.a f.b e.c e.md)
    | 0x1A => some (.await f.d f.a (predOf f.b) (e.md.getLsbD 0))
    | _ => none
  | .imm x => match f.op.toNat with
    | 0x10 => some (.fork f.a x)
    | 0x28 => some (.bolt f.d f.a x)
    | _ => none
  | .par .. => none

def parseEng (f : W0) : Tail → Option Instr
  | .none => match f.op.toNat with
    | 0x09 => some (.tbarrive f.d f.a)
    | 0x0A => some (.tbexpect f.a f.b)
    | 0x0B => some (.tbwait (predOf f.d) f.a f.b)
    | 0x0C => some (.tbtest f.d f.a f.b)
    | 0x10 => some (.tlwait f.a (predOf f.b))
    | 0x11 => some (.tlread f.d (predOf f.b))
    | 0x12 => some (.tladd f.a (predOf f.b))
    | 0x1B => some (.accz (f.b.extractLsb' 0 2) (f.b.getLsbD 2))
    | 0x28 => (RngKind.ofCode (f.b.extractLsb' 0 2)).map (.rng f.w f.d)
    | _ => none
  | .ext e => match f.op.toNat with
    | 0x19 => (Fmt.ofCode e.fmt).map (.accrd f.w f.d f.a (e.c.extractLsb' 0 2))
    | 0x1A => (Fmt.ofCode e.fmt).map (.accwr f.w f.d f.a (e.c.extractLsb' 0 2))
    | _ => none
  | .imm x => match f.op.toNat with
    | 0x08 => some (.tbinit f.a x)
    | _ => none
  | .par p0 p1 p2 p3 =>
    let p : PBlock := ⟨f.b.extractLsb' 4 4, p0, p1, p2, p3⟩
    match f.op.toNat with
    | 0x00 => some (.cpy f.d f.a (f.b.getLsbD 0) (f.b.getLsbD 1) p)
    | 0x01 => some (.cpyg f.d f.a (f.b.getLsbD 1) p)
    | 0x02 => some (.cpys f.d f.a (f.b.getLsbD 1) p)
    | 0x03 => some (.cpyr f.d f.a (f.b.getLsbD 0) (f.b.getLsbD 1) p)
    | 0x18 => some (.mma p)
    | 0x20 => some (.nbgemv f.d f.a (f.b.getLsbD 1) p)
    | _ => none

def parseLane (f : W0) : Tail → Option Instr
  | .none => match f.op.toNat with
    | 0x18 => some (.lmatch f.w f.d f.a)
    | 0x20 => some (.qswp f.w f.d f.a (f.b.extractLsb' 0 2) (f.b.extractLsb' 2 3))
    | 0x21 => some (.qbcast f.w f.d f.a (f.b.extractLsb' 0 2) (f.b.extractLsb' 2 3))
    | _ => none
  | .ext e => match f.op.toNat with
    | 0x00 => some (.shfl f.w f.d f.a f.b (predOf e.c) (e.c.extractLsb' 3 3) (ShflMode.ofCode (e.md.extractLsb' 0 2)) (e.md.getLsbD 2))
    | 0x08 => (VoteMode.ofCode e.md).map (.vote f.d f.a)
    | 0x10 => match Rnd.ofCode e.rnd, Fmt.ofCode e.fmt, LaneOp.ofCode e.md with
      | some r, some fm, some o => some (.lred f.w f.d f.a r fm o (e.c.extractLsb' 3 3))
      | _, _, _ => none
    | 0x11 => match Rnd.ofCode e.rnd, Fmt.ofCode e.fmt, LaneOp.ofCode e.md with
      | some r, some fm, some o => some (.lscan f.w f.d f.a r fm o (e.c.extractLsb' 3 3) (e.c.getLsbD 6))
      | _, _, _ => none
    | _ => none
  | _ => none

def parseSys (f : W0) : Tail → Option Instr
  | .none => match f.op.toNat with
    | 0x00 => some (.srd f.w f.d f.imm16)
    | 0x01 => some (.swr f.w f.d f.imm16)
    | 0x02 => some (.trap f.imm16)
    | 0x03 => some (.bkpt f.imm16)
    | 0x04 => some .eret
    | 0x06 => some (.clock f.d)
    | _ => none
  | .ext e => match f.op.toNat with
    | 0x05 => (CctlOp.ofCode e.md).map (.cctl f.a f.b)
    | _ => none
  | _ => none

/-- The instruction that the fields name, if their used fields hold no reserved code (R239, R243). -/
def parse (c : Cls) (f : W0) (t : Tail) : Option Instr :=
  match c with
  | .int => parseInt f t
  | .flt => parseFlt f t
  | .mem => parseMem f t
  | .ctl => parseCtl f t
  | .eng => parseEng f t
  | .lane => parseLane f t
  | .sys => parseSys f t

/-! ## The encoder, from the encoding tables of R254, R276, R292, R301, R320 and R337 -/

/-- A word 0 from its opcode, width and fields. -/
def w0 (op : BitVec 6) (w : Width) (d a : Reg) (b : BitVec 8) : W0 := ⟨op, w, d, a, b⟩

/-- A form C word 0: IMM16 in the a and b fields. -/
def w0c (op : BitVec 6) (w : Width) (d : Reg) (i : Half) : W0 := ⟨op, w, d, i.extractLsb' 8 8, i.extractLsb' 0 8⟩

/-- An extension word that uses C and MOD only. -/
def extCM (c : BitVec 8) (md : BitVec 4) : Ext := ⟨c, 0, 0, 0, 0, 0, 0, md⟩

/-- An extension word of the FLT class: C, RND, FMT and MOD. -/
def extF (c : BitVec 8) (r : Rnd) (f : Fmt) (md : BitVec 4) : Ext := ⟨c, r.code, 0, 0, 0, 0, f.code, md⟩

/-- MOD[3] = .X2 (R299). -/
def x2Mod (x : Bool) : BitVec 4 := BitVec.ofBool x ++ 0#3

/-- C of LRED, LSCAN and SHFL: the top bits, the sub-group code and an output predicate (R292). -/
def laneC (ex : Bool) (g p : BitVec 3) : BitVec 8 := 0#1 ++ BitVec.ofBool ex ++ g ++ p

/-- A word 0 of form A or B with E. -/
def encE (c : Cls) (f : W0) (e : Ext) : Option Enc := some ⟨c, f, .ext e⟩

/-- A one-word instruction. -/
def enc1 (c : Cls) (f : W0) : Option Enc := some ⟨c, f, .none⟩

/-- A P-form instruction: MASK in [7:4] and VAR in [3:0] of word 0 (R237). -/
def encP (op : BitVec 6) (d a : Reg) (var : BitVec 4) (p : PBlock) : Option Enc :=
  some ⟨.eng, w0 op 0 d a (p.mask ++ var), .par p.pw0 p.pw1 p.pw2 p.pw3⟩

/-- The fields of an instruction's encoding; none for a device step, which has no encoding. -/
def encodeFields : Instr → Option Enc
  | .iadd w d a b => enc1 .int (w0 0x00 w d a b)
  | .iaddImm w d a i => enc1 .int (w0 0x01 w d a i)
  | .iaddc w d a b pco pci => encE .int (w0 0x02 w d a b)
      (match pci with | some p => extCM (predField p) (1#1 ++ pco) | none => extCM 0 (0#1 ++ pco))
  | .isub w d a b => enc1 .int (w0 0x03 w d a b)
  | .isubImm w d a i => enc1 .int (w0 0x04 w d a i)
  | .imul w d a b => enc1 .int (w0 0x05 w d a b)
  | .imulh w d a b => enc1 .int (w0 0x06 w d a b)
  | .imad w d a b c m => encE .int (w0 0x07 w d a b) (extCM c m.code)
  | .idiv w d a b => enc1 .int (w0 0x08 w d a b)
  | .irem w d a b => enc1 .int (w0 0x09 w d a b)
  | .ineg w d a => enc1 .int (w0 0x0A w d a 0)
  | .iabs w d a => enc1 .int (w0 0x0B w d a 0)
  | .imin w d a b => enc1 .int (w0 0x0C w d a b)
  | .imax w d a b => enc1 .int (w0 0x0D w d a b)
  | .idp4 d a b c sa sb s => encE .int (w0 0x0E 0 d a b)
      (extCM c (0#1 ++ BitVec.ofBool s ++ BitVec.ofBool sb ++ BitVec.ofBool sa))
  | .shl w d a b => enc1 .int (w0 0x10 w d a b)
  | .shlImm w d a i => enc1 .int (w0 0x11 w d a i)
  | .shr w d a b => enc1 .int (w0 0x12 w d a b)
  | .shrImm w d a i => enc1 .int (w0 0x13 w d a i)
  | .sar w d a b => enc1 .int (w0 0x14 w d a b)
  | .sarImm w d a i => enc1 .int (w0 0x15 w d a i)
  | .rol w d a b => enc1 .int (w0 0x16 w d a b)
  | .rolImm w d a i => enc1 .int (w0 0x17 w d a i)
  | .andReg w d a b => enc1 .int (w0 0x18 w d a b)
  | .orReg w d a b => enc1 .int (w0 0x19 w d a b)
  | .xorReg w d a b => enc1 .int (w0 0x1A w d a b)
  | .notReg w d a => enc1 .int (w0 0x1B w d a 0)
  | .andn w d a b => enc1 .int (w0 0x1C w d a b)
  | .andImm32 w d a i => some ⟨.int, w0 0x1D w d a 0, .imm i⟩
  | .orImm32 w d a i => some ⟨.int, w0 0x1E w d a 0, .imm i⟩
  | .xorImm32 w d a i => some ⟨.int, w0 0x1F w d a 0, .imm i⟩
  | .popc w d a => enc1 .int (w0 0x20 w d a 0)
  | .clz w d a => enc1 .int (w0 0x21 w d a 0)
  | .ctz w d a => enc1 .int (w0 0x22 w d a 0)
  | .brev w d a => enc1 .int (w0 0x23 w d a 0)
  | .bfx w d a b s => encE .int (w0 0x24 w d a b) (extCM 0 (0#3 ++ BitVec.ofBool s))
  | .bfi w d a b c => encE .int (w0 0x25 w d a b) (extCM c 0)
  | .prmb d a b c => encE .int (w0 0x26 0 d a b) (extCM c 0)
  | .isel w d a b pc => encE .int (w0 0x28 w d a b) (extCM (predField pc) 0)
  | .icmp w pd a b pc cond => encE .int (w0 0x29 w (predField pd) a b) (extCM (predField pc) cond.code)
  | .imov w d a => enc1 .int (w0 0x30 w d a 0)
  | .movi w d i => enc1 .int (w0c 0x31 w d i)
  | .movhi d i => enc1 .int (w0c 0x32 0 d i)
  | .moviImm32 w d i => some ⟨.int, w0 0x33 w d 0 0, .imm i⟩
  | .lea d a b sh u => encE .int (w0 0x34 0 d a b) (extCM 0 (BitVec.ofBool u ++ sh))
  | .pand pd pa pb => enc1 .int (w0 0x38 0 (predField pd) (predField pa) (predField pb))
  | .por pd pa pb => enc1 .int (w0 0x39 0 (predField pd) (predField pa) (predField pb))
  | .pxor pd pa pb => enc1 .int (w0 0x3A 0 (predField pd) (predField pa) (predField pb))
  | .pnot pd pa => enc1 .int (w0 0x3B 0 (predField pd) (predField pa) 0)
  | .pmov pd pa => enc1 .int (w0 0x3C 0 (predField pd) (predField pa) 0)
  | .fadd w d a b r f x => encE .flt (w0 0x00 w d a b) (extF 0 r f (x2Mod x))
  | .fsub w d a b r f x => encE .flt (w0 0x01 w d a b) (extF 0 r f (x2Mod x))
  | .fmul w d a b r f x => encE .flt (w0 0x02 w d a b) (extF 0 r f (x2Mod x))
  | .ffma w d a b c r f x => encE .flt (w0 0x03 w d a b) (extF c r f (x2Mod x))
  | .fdiv w d a b r f x => encE .flt (w0 0x04 w d a b) (extF 0 r f (x2Mod x))
  | .fsqrt w d a r f x => encE .flt (w0 0x05 w d a 0) (extF 0 r f (x2Mod x))
  | .fmin w d a b f x => encE .flt (w0 0x08 w d a b) (extF 0 .inForce f (x2Mod x))
  | .fmax w d a b f x => encE .flt (w0 0x09 w d a b) (extF 0 .inForce f (x2Mod x))
  | .fminnum w d a b f x => encE .flt (w0 0x0A w d a b) (extF 0 .inForce f (x2Mod x))
  | .fmaxnum w d a b f x => encE .flt (w0 0x0B w d a b) (extF 0 .inForce f (x2Mod x))
  | .fcmp w pd a b pc f cond => encE .flt (w0 0x0C w (predField pd) a b) (extF (predField pc) .inForce f cond.code)
  | .fclass w d a f => encE .flt (w0 0x0D w d a 0) (extF 0 .inForce f 0)
  | .fabs w d a f x => encE .flt (w0 0x10 w d a 0) (extF 0 .inForce f (x2Mod x))
  | .fneg w d a f x => encE .flt (w0 0x11 w d a 0) (extF 0 .inForce f (x2Mod x))
  | .fcopysign w d a b f x => encE .flt (w0 0x12 w d a b) (extF 0 .inForce f (x2Mod x))
  | .frint w d a r f x nx => encE .flt (w0 0x13 w d a 0) (extF 0 r f (BitVec.ofBool x ++ 0#2 ++ BitVec.ofBool nx))
  | .fscale w d a b r f x => encE .flt (w0 0x14 w d a b) (extF 0 r f (x2Mod x))
  | .fgetexp w d a f x => encE .flt (w0 0x15 w d a 0) (extF 0 .inForce f (x2Mod x))
  | .fcvt w d a b r df sf xn => encE .flt (w0 0x18 w d a b) (extF (0#4 ++ sf.code) r df xn)
  | .fcvti w d a r sf it => encE .flt (w0 0x19 w d a 0) (extF 0 r sf it.code)
  | .icvtf w d a r df it => encE .flt (w0 0x1A w d a 0) (extF 0 r df it.code)
  | .frcpa w d a => encE .flt (w0 0x20 w d a 0) (extF 0 .inForce .fp32 0)
  | .frsqa w d a => encE .flt (w0 0x21 w d a 0) (extF 0 .inForce .fp32 0)
  | .fexp2a w d a => encE .flt (w0 0x22 w d a 0) (extF 0 .inForce .fp32 0)
  | .flog2a w d a => encE .flt (w0 0x23 w d a 0) (extF 0 .inForce .fp32 0)
  | .fsina w d a => encE .flt (w0 0x24 w d a 0) (extF 0 .inForce .fp32 0)
  | .fcosa w d a => encE .flt (w0 0x25 w d a 0) (extF 0 .inForce .fp32 0)
  | .qmake w d a b r f => encE .flt (w0 0x28 w d a b) (extF 0 r f 0)
  | .qnum w d a f => encE .flt (w0 0x29 w d a 0) (extF 0 .inForce f 0)
  | .qden w d a f => encE .flt (w0 0x2A w d a 0) (extF 0 .inForce f 0)
  | .qmed w d a b r f => encE .flt (w0 0x2B w d a b) (extF 0 r f 0)
  | .qcanon w d a f => encE .flt (w0 0x2C w d a 0) (extF 0 .inForce f 0)
  | .ld w d a o p fr f sz sx => encE .mem (w0 0x00 w d a o)
      ⟨0, 0, p.code, 0#1 ++ BitVec.ofBool fr, 0, 0, f.code, 0#1 ++ BitVec.ofBool sx ++ sz.code⟩
  | .st w d a o r p fr f sz => encE .mem (w0 0x01 w d a o)
      ⟨0, r.code, p.code, 0#1 ++ BitVec.ofBool fr, 0, 0, f.code, 0#2 ++ sz.code⟩
  | .lds w d a o => enc1 .mem (w0 0x02 w d a o)
  | .sts w d a o => enc1 .mem (w0 0x03 w d a o)
  | .ldc w d a o => enc1 .mem (w0 0x04 w d a o)
  | .stc w d a o => enc1 .mem (w0 0x05 w d a o)
  | .ldm w d a o => enc1 .mem (w0 0x06 w d a o)
  | .stm w d a o => enc1 .mem (w0 0x07 w d a o)
  | .atom w d a b c s o f nf ord u => encE .mem (w0 0x08 w d a b)
      ⟨c, 0, 0, 0, s.code, o.code, f.code, BitVec.ofBool u ++ ord.code ++ BitVec.ofBool nf⟩
  | .atoms w d a b c s o f ord u => encE .mem (w0 0x09 w d a b)
      ⟨c, 0, 0, 0, s.code, o.code, f.code, BitVec.ofBool u ++ ord.code ++ 0#1⟩
  | .red w a b s o f u => encE .mem (w0 0x0A w 0 a b)
      ⟨0, 0, 0, 0, s.code, o.code, f.code, BitVec.ofBool u ++ 0#3⟩
  | .fence k s => enc1 .mem (w0 0x10 0 0 0 (0#3 ++ k.code ++ s.code))
  | .discard a n => enc1 .mem (w0 0x11 0 0 a n)
  | .pref a o p => encE .mem (w0 0x12 0 0 a o) ⟨0, 0, p.code, 0, 0, 0, 0, 0⟩
  | .stmc w d a b => encE .mem (w0 0x18 w d a b) ⟨0, 0, 0, 0, 0, 0, 0, 0⟩
  | .bra i => enc1 .ctl (w0c 0x00 0 0 i)
  | .bri a => enc1 .ctl (w0 0x01 0 0 a 0)
  | .call d i => enc1 .ctl (w0c 0x02 0 d i)
  | .calli d a => enc1 .ctl (w0 0x03 0 d a 0)
  | .ret a => enc1 .ctl (w0 0x04 0 0 a 0)
  | .exit => enc1 .ctl (w0 0x05 0 0 0 0)
  | .nop => enc1 .ctl (w0 0x06 0 0 0 0)
  | .yield => enc1 .ctl (w0 0x07 0 0 0 0)
  | .reform => enc1 .ctl (w0 0x08 0 0 0 0)
  | .rwait => enc1 .ctl (w0 0x09 0 0 0 0)
  | .bar i => enc1 .ctl (w0 0x0A 0 0 0 i)
  | .cbar i => enc1 .ctl (w0 0x0B 0 0 0 i)
  | .fork a i => some ⟨.ctl, w0 0x10 0 0 a 0, .imm i⟩
  | .join => enc1 .ctl (w0 0x11 0 0 0 0)
  | .vdrop => enc1 .ctl (w0 0x12 0 0 0 0)
  | .invoke d a b c n => encE .ctl (w0 0x18 0 d a b) (extCM c n)
  | .invokeOn d a b c n => encE .ctl (w0 0x19 0 d a b) (extCM c n)
  | .await d a pb t => encE .ctl (w0 0x1A 0 d a (predField pb)) (extCM 0 (0#3 ++ BitVec.ofBool t))
  | .hpoll d a => enc1 .ctl (w0 0x1B 0 d a 0)
  | .hdrop a => enc1 .ctl (w0 0x1C 0 0 a 0)
  | .spec a => enc1 .ctl (w0 0x20 0 0 a 0)
  | .specend => enc1 .ctl (w0 0x21 0 0 0 0)
  | .bolt d a i => some ⟨.ctl, w0 0x28 0 d a 0, .imm i⟩
  | .cpy d a s t p => encP 0x00 d a (0#2 ++ BitVec.ofBool t ++ BitVec.ofBool s) p
  | .cpyg d a t p => encP 0x01 d a (0#2 ++ BitVec.ofBool t ++ 0#1) p
  | .cpys d a t p => encP 0x02 d a (0#2 ++ BitVec.ofBool t ++ 0#1) p
  | .cpyr d a s t p => encP 0x03 d a (0#2 ++ BitVec.ofBool t ++ BitVec.ofBool s) p
  | .tbinit a i => some ⟨.eng, w0 0x08 0 0 a 0, .imm i⟩
  | .tbarrive d a => enc1 .eng (w0 0x09 0 d a 0)
  | .tbexpect a b => enc1 .eng (w0 0x0A 0 0 a b)
  | .tbwait pd a b => enc1 .eng (w0 0x0B 0 (predField pd) a b)
  | .tbtest d a b => enc1 .eng (w0 0x0C 0 d a b)
  | .tlwait a k => enc1 .eng (w0 0x10 0 0 a (predField k))
  | .tlread d k => enc1 .eng (w0 0x11 0 d 0 (predField k))
  | .tladd a k => enc1 .eng (w0 0x12 0 0 a (predField k))
  | .mma p => encP 0x18 0 0 0 p
  | .accrd w d a m f => encE .eng (w0 0x19 w d a 0) ⟨0#6 ++ m, 0, 0, 0, 0, 0, f.code, 0⟩
  | .accwr w d a m f => encE .eng (w0 0x1A w d a 0) ⟨0#6 ++ m, 0, 0, 0, 0, 0, f.code, 0⟩
  | .accz m p => enc1 .eng (w0 0x1B 0 0 0 (0#5 ++ BitVec.ofBool p ++ m))
  | .nbgemv d a t p => encP 0x20 d a (0#2 ++ BitVec.ofBool t ++ 0#1) p
  | .rng w d k => enc1 .eng (w0 0x28 w d 0 (0#6 ++ k.code))
  | .shfl w d a b po g m wr => encE .lane (w0 0x00 w d a b) (extCM (laneC false g po) (0#1 ++ BitVec.ofBool wr ++ m.code))
  | .vote d a m => encE .lane (w0 0x08 0 d a 0) (extCM 0 m.code)
  | .lred w d a r f o g => encE .lane (w0 0x10 w d a 0) ⟨laneC false g 0, r.code, 0, 0, 0, 0, f.code, o.code⟩
  | .lscan w d a r f o g ex => encE .lane (w0 0x11 w d a 0) ⟨laneC ex g 0, r.code, 0, 0, 0, 0, f.code, o.code⟩
  | .lmatch w d a => enc1 .lane (w0 0x18 w d a 0)
  | .qswp w d a m po => enc1 .lane (w0 0x20 w d a (0#3 ++ po ++ m))
  | .qbcast w d a k po => enc1 .lane (w0 0x21 w d a (0#3 ++ po ++ k))
  | .srd w d r => enc1 .sys (w0c 0x00 w d r)
  | .swr w d r => enc1 .sys (w0c 0x01 w d r)
  | .trap i => enc1 .sys (w0c 0x02 0 0 i)
  | .bkpt i => enc1 .sys (w0c 0x03 0 0 i)
  | .eret => enc1 .sys (w0 0x04 0 0 0 0)
  | .cctl a o op => encE .sys (w0 0x05 0 0 a o) (extCM 0 op.code)
  | .clock d => enc1 .sys (w0 0x06 0 d 0 0)
  | _ => none

/-- The words of an instruction, the first at the lowest address; empty for a device step. -/
def encode (i : Instr) : List Word := (encodeFields i).elim [] Enc.words

/-! ## The decoder -/

/-- What a decoder answers: an instruction and its length in words, or the ILLEGAL cause of R242 (tests 1 to 5) with
the index of the offending word within the instruction. -/
inductive Decoded where
  | ok (i : Instr) (words : Nat)
  | illegal (cause : Nat) (word : Nat)
  deriving DecidableEq, Repr

/-- The transfers, which must end their clauses (R235). -/
def Instr.isTransfer : Instr → Bool
  | .bra _ | .bri _ | .call _ _ | .calli _ _ | .ret _ | .exit | .bolt _ _ _ | .eret => true
  | _ => false

/-- Whether an opcode slot is a transfer (R235): the test needs the opcode alone. -/
def opIsTransfer (c : Cls) (op : BitVec 6) : Bool :=
  match c with
  | .ctl => decide (op.toNat ≤ 5 ∧ op.toNat ≠ 6) || op == 0x28
  | .sys => op == 0x04
  | _ => false

/-- Whether another word 0 with the same opcode would make a legal instruction of the words: then word 0 holds the
field at fault. W is the field that a fault of word 0 lies in, or a register field that the entry does not use. -/
def word0Fixes (c : Cls) (f : W0) (t : Tail) : Bool :=
  [0#2, 1#2, 2#2, 3#2].any fun w =>
    [{ f with w := w }, { f with w := w, b := 0 }, { f with w := w, d := 0, a := 0, b := 0 }].any fun g =>
      match parse c g t with
      | some j => j.fieldsOk
      | none => false

/-- The index of the word that holds the field at fault: word 0 or the extension word (R242). -/
def faultWord (c : Cls) (i : Option Instr) (got : List Word) : Nat :=
  if got.length = 2 then
    let f := W0.ofWord (got.headD 0)
    match i with
    | none => 1
    | some j =>
      if (encode j).head? ≠ got.head? then 0
      else if encode j ≠ got then 1
      else if word0Fixes c f (opTail c f.op (got.drop 1)) then 0 else 1
  else 0

/-- The index of the word that holds a misaligned group: E for a group that E.C names, otherwise word 0 (R242). -/
def groupFaultWord (i : Instr) : Nat :=
  if i.operands.any (fun o => !o.ext && !o.aligned) then 0 else 1

/-- Tests 1 to 5 of R242 in order, on the words that remain in the clause, in the header's class. -/
def decode (c : Cls) : List Word → Decoded
  | [] => .illegal 7 0
  | x :: rest =>
    let f := W0.ofWord x
    match opWords c f.op with
    | none => .illegal 3 0
    | some n =>
      if rest.length + 1 < n then .illegal 7 0
      else if opIsTransfer c f.op && decide (n < rest.length + 1) then .illegal 6 0
      else
        let ws := rest.take (n - 1)
        match parse c f (opTail c f.op ws) with
        | none => .illegal 4 (faultWord c none (x :: ws))
        | some i =>
          if encode i != x :: ws then .illegal 4 (faultWord c (some i) (x :: ws))
          else if !i.fieldsOk then .illegal 4 (faultWord c (some i) (x :: ws))
          else if !i.groupsOk then .illegal 5 (groupFaultWord i)
          else .ok i n

/-! ## The words of the operation table

A table row gives the bits of one instruction word, but the class of an instruction stands in its clause header
(R234), so one word can be several rows. The reading here is the row whose pattern fixes the most bits of word 0. -/

/-- How many bits of word 0 an instruction leaves variable, for the rows whose patterns fix more than the opcode. -/
def Instr.freeBits : Instr → Nat
  | .exit | .nop | .yield | .reform | .rwait | .join | .vdrop | .specend | .eret => 0
  | .accz _ _ => 3
  | .fence _ _ => 5
  | .pnot _ _ | .pmov _ _ => 6
  | .bri _ | .ret _ | .bar _ | .cbar _ | .hdrop _ | .spec _ | .clock _ => 8
  | .pand _ _ _ | .por _ _ _ | .pxor _ _ _ => 9
  | .tlwait _ _ | .tlread _ _ | .tladd _ _ => 11
  | .rng _ _ _ => 12
  | .bra _ | .calli _ _ | .hpoll _ _ | .tbarrive _ _ | .tbexpect _ _ | .discard _ _ | .trap _ | .bkpt _ => 16
  | .ineg _ _ _ | .iabs _ _ _ | .notReg _ _ _ | .popc _ _ _ | .clz _ _ _ | .ctz _ _ _ | .brev _ _ _
  | .imov _ _ _ | .lmatch _ _ _ => 18
  | .tbwait _ _ _ => 19
  | .qswp _ _ _ _ _ | .qbcast _ _ _ _ _ => 23
  | .call _ _ | .movhi _ _ | .tbtest _ _ _ => 24
  | _ => 26

/-- The instruction that a class reads from these words, taken as the whole of a clause. -/
def decodeWhole (c : Cls) (ws : List Word) : Option Instr :=
  match decode c ws with
  | .ok i n => if n = ws.length then some i else none
  | .illegal _ _ => none

/-- The better of two readings: the one that leaves fewer bits variable, the first on a tie. -/
def betterRow (x y : Option Instr) : Option Instr :=
  match x, y with
  | some i, some j => if j.freeBits < i.freeBits then some j else some i
  | none, y => y
  | x, none => x

/-- The classes in which a bare word is tried. -/
def allClasses : List Cls := [.int, .flt, .mem, .ctl, .eng, .lane, .sys]

/-- The words of an instruction whose first word is `w` modulo 2³² in a class, with the operand words that the table
gives no bits taken from the higher bits of `w`, zero above `nbits`. -/
def tableWords (c : Cls) (nbits w : Nat) : List Word :=
  let w := w % 2 ^ nbits
  let n := (opWords c (W0.ofWord (BitVec.ofNat 32 w)).op).getD 1
  (List.range n).map fun k => BitVec.ofNat 32 (w / 2 ^ (32 * k))

/-- The class and instruction that a bare word is read as. -/
def decodeTable (nbits w : Nat) : Option Instr :=
  allClasses.foldl (fun best c => betterRow best (decodeWhole c (tableWords c nbits w))) none

/-- The instruction that the decoder reads from an instruction whose bits are `w`, numbered as the operation table
numbers them (log 6: the class is the one that fixes the most bits of the word). -/
def decodeTableWord (nbits w : Nat) : Option Instr := decodeTable nbits w

end Sys2Proof
end

