-- ==== Sys2Proof/Machine/Digest.lean ====
section
/-! DEFINITION. Check values: CRC-32C (R35, R43, R232) and SHAKE256 (R29). -/

namespace Sys2Proof.Machine

/-! ## CRC-32C: the reflected polynomial 0x82F63B78, initial value and final complement of all ones -/

/-- Eight shift steps of the register. -/
def crcShift (c : Nat) : Nat → Nat
  | 0 => c
  | n + 1 => crcShift (if c % 2 = 1 then (c / 2) ^^^ 0x82F63B78 else c / 2) n

/-- One byte. -/
def crcByte (c : Nat) (b : Byte) : Nat := crcShift (c ^^^ b.toNat) 8

/-- CRC-32C of bytes. -/
def crc32c (bs : List Byte) : Word := BitVec.ofNat 32 ((bs.foldl crcByte 0xFFFFFFFF) ^^^ 0xFFFFFFFF)

/-! ## SHAKE256 (FIPS 202): Keccak-f[1600] with 1,088-bit rate -/

/-- A rotation of a 64-bit lane to the left. -/
def rotl64 (x : Nat) (k : Nat) : Nat := (x * 2 ^ k) % 2 ^ 64 + x / 2 ^ (64 - k)

/-- The rotation of each lane, by its number x + 5y: a walk from lane (1, 0), whose step t turns its lane by the
triangular number of t + 1 and goes from (x, y) to (y, 2x + 3y) (FIPS 202, 3.2.2). -/
def rhoWalk : Nat → Nat → Nat × Nat → List (Nat × Nat)
  | 0, _, _ => []
  | n + 1, t, (x, y) => (x + 5 * y, (t + 1) * (t + 2) / 2 % 64) :: rhoWalk n (t + 1) (y, (2 * x + 3 * y) % 5)

/-- The 24 turned lanes; lane 0 is not turned. -/
def rhoTurns : List (Nat × Nat) := rhoWalk 24 0 (1, 0)

def rhoOf (lane : Nat) : Nat := ((rhoTurns.find? fun e => e.1 == lane).map (·.2)).getD 0

/-- The register from which the round constants are drawn, stepped once: x⁸ + x⁶ + x⁵ + x⁴ + 1 (FIPS 202, 3.2.5). -/
def iotaStep (r : Nat) : Nat := if 128 ≤ r then (2 * r) % 256 ^^^ 0x71 else 2 * r

/-- The seven bits of a round constant, drawn from a register, at places 2^j − 1; and the register after them. -/
def iotaDraw (r : Nat) : Nat × Nat := (List.range 7).foldl (fun (acc : Nat × Nat) j =>
  (acc.1 + acc.2 % 2 * 2 ^ (2 ^ j - 1), iotaStep acc.2)) (0, r)

/-- The constants of n rounds from a register on. -/
def iotaConsts : Nat → Nat → List Nat
  | 0, _ => []
  | n + 1, r => (iotaDraw r).1 :: iotaConsts n (iotaDraw r).2

/-- The constants of the 24 rounds. -/
def keccakRc : List Nat := iotaConsts 24 1

/-- One round on the 25 lanes. -/
def keccakRound (a : List Nat) (rc : Nat) : List Nat :=
  let g := fun (l : List Nat) (x y : Nat) => l.getD (x % 5 + 5 * (y % 5)) 0
  let c := (List.range 5).map fun x => g a x 0 ^^^ g a x 1 ^^^ g a x 2 ^^^ g a x 3 ^^^ g a x 4
  let d := (List.range 5).map fun x => c.getD ((x + 4) % 5) 0 ^^^ rotl64 (c.getD ((x + 1) % 5) 0) 1
  let t := (List.range 25).map fun i => a.getD i 0 ^^^ d.getD (i % 5) 0
  -- rho and pi: B[y, 2x + 3y] := rot(A[x, y]); lane (X, Y) comes from x = X + 3Y, y = X
  let b := (List.range 25).map fun i =>
    let x := (i % 5 + 3 * (i / 5)) % 5
    let y := i % 5
    rotl64 (g t x y) (rhoOf (x + 5 * y))
  let e := (List.range 25).map fun i =>
    let x := i % 5
    let y := i / 5
    g b x y ^^^ ((2 ^ 64 - 1 - g b (x + 1) y) &&& g b (x + 2) y)
  match e with
  | h :: r => (h ^^^ rc) :: r
  | [] => []

/-- Keccak-f[1600]. -/
def keccakF (a : List Nat) : List Nat := keccakRc.foldl keccakRound a

/-- One block of 136 bytes absorbed. -/
def keccakAbsorb (a : List Nat) (block : List Byte) : List Nat :=
  keccakF ((List.range 25).map fun i => a.getD i 0 ^^^ (if i < 17 then bytesToNat ((block.drop (8 * i)).take 8) else 0))

/-- The message with SHAKE's domain bits and padding, in blocks. -/
def shakeBlocks : Nat → List Byte → List (List Byte)
  | 0, _ => []
  | fuel + 1, bs =>
    if 136 ≤ bs.length then bs.take 136 :: shakeBlocks fuel (bs.drop 136)
    else
      let pad := 136 - bs.length
      if pad = 1 then [bs ++ [0x9F]] else [bs ++ [0x1F] ++ List.replicate (pad - 2) 0 ++ [0x80]]

/-- SHAKE256 with 64 bytes of output. -/
def shake512 (bs : List Byte) : List Byte :=
  let st := (shakeBlocks (bs.length / 136 + 1) bs).foldl keccakAbsorb (List.replicate 25 0)
  (natToBytes 200 (wordsOf st)).take 64
where
  wordsOf : List Nat → Nat
    | [] => 0
    | w :: l => w + 2 ^ 64 * wordsOf l

/-! ## Messages (R35-R37, R43) -/

/-- The message types of R36 with their virtual channels. -/
def msgVc (ty : Nat) : Option Nat :=
  match ty with
  | 0x01 => some 0 | 0x02 => some 1 | 0x03 => some 0 | 0x04 => some 1 | 0x05 => some 0 | 0x06 => some 1
  | 0x07 => some 3 | 0x08 => some 3 | 0x09 => some 1 | 0x0A => some 0 | 0x10 => some 2 | 0x11 => some 2
  | 0x12 => some 2 | 0x13 => some 2 | 0x14 => some 2 | 0x1F => some 1 | _ => none

/-- The header flit as a number, with MCHK given (R36). -/
def msgHeader (m : Msg) (mchk : Word) : Nat :=
  m.ty.toNat + m.flits.toNat * 2 ^ 8 + m.vc.toNat * 2 ^ 14 + m.src.toNat * 2 ^ 16 + m.dst.toNat * 2 ^ 26
    + m.tenant.toNat * 2 ^ 36 + m.scope.toNat * 2 ^ 42 + m.hops.toNat * 2 ^ 45 + m.rsv1.toNat * 2 ^ 49
    + m.addr.toNat * 2 ^ 64 + m.rsv2.toNat * 2 ^ 117 + m.tag.toNat * 2 ^ 128 + mchk.toNat * 2 ^ 160
    + m.opw.toNat * 2 ^ 192 + m.inl.toNat * 2 ^ 256

/-- The message check: CRC-32C over all flits with MCHK taken as zero. HOPS changes at each forwarding step (R34), so
the check is taken with HOPS zero (log 8). -/
def msgCheck (m : Msg) : Word :=
  crc32c (natToBytes 64 (msgHeader { m with hops := 0 } 0) ++ m.data.flatMap fun f => natToBytes 64 f.sector.toNat)

/-- The sideband of a data flit: the sector check, and the link check over content and sector check (R35). -/
def sealFlit (sector : BitVec 512) : Flit :=
  let bs := natToBytes 64 sector.toNat
  let sc := crc32c bs
  ⟨sector, BitVec.ofNat 64 (sc.toNat + 2 ^ 32 * (crc32c (bs ++ natToBytes 4 sc.toNat)).toNat)⟩

/-- The sector check of R43. -/
def flitOk (f : Flit) : Bool := (crc32c (natToBytes 64 f.sector.toNat)).toNat == f.side.toNat % 2 ^ 32

/-- Data flits for bytes. A payload shorter than a sector lies from byte 0 of its flit on, with zeros after it (DESIGN CHOICE,
log 8). -/
def flitsOf (bs : List Byte) : List Flit :=
  (List.range (divUp bs.length 64)).map fun i => sealFlit (BitVec.ofNat 512 (bytesToNat ((bs.drop (64 * i)).take 64)))

/-- The bytes that data flits carry. -/
def flitBytes (fs : List Flit) : List Byte := fs.flatMap fun f => natToBytes 64 f.sector.toNat

/-- The link check of a flit, by the content and the low half of its sideband (R35). -/
def linkCheck (content low : Nat) : Word := crc32c (natToBytes 64 content ++ natToBytes 4 low)

/-- The sideband of a header flit: zero below, its link check above (R35). -/
def headerSide (m : Msg) : Dword := BitVec.ofNat 64 (2 ^ 32 * (linkCheck (msgHeader m m.mchk) 0).toNat)

/-- A message as its sender puts it on a link. -/
def sealMsg (m : Msg) : Msg := { m with side := headerSide m, via := none }

/-- Whether every flit of a message passes its link check, the header's low half zero (R35, R42). -/
def linkOk (m : Msg) : Bool :=
  m.side == headerSide m
  && m.data.all fun f => (linkCheck f.sector.toNat (f.side.toNat % 2 ^ 32)).toNat == f.side.toNat / 2 ^ 32

/-- A message of a type with its virtual channel and its checks in place. -/
def mkMsg (ty : Nat) (src dst : BitVec 10) (tenant : Nat) (scope : Nat) (addr : Nat) (tag : Word) (opw : Dword)
    (inl : BitVec 256) (data : List Flit) : Msg :=
  let m : Msg := {
    ty := BitVec.ofNat 8 ty, flits := BitVec.ofNat 6 data.length, vc := BitVec.ofNat 2 ((msgVc ty).getD 0)
    src := src, dst := dst, tenant := BitVec.ofNat 6 tenant, scope := BitVec.ofNat 3 scope, hops := 0, rsv1 := 0
    addr := BitVec.ofNat 53 addr, rsv2 := 0, tag := tag, mchk := 0, opw := opw, inl := inl, side := 0, data := data, via := none }
  sealMsg { m with mchk := msgCheck m }

/-- Whether a message sets no reserved field and rides its own channel (R37). A SCOPE of 6 or 7, which R36 does not list,
is taken as malformed too (DESIGN CHOICE, log 70). -/
def msgOk (m : Msg) : Bool :=
  (match msgVc m.ty.toNat with | some v => v == m.vc.toNat | none => false) && m.rsv1 == 0 && m.rsv2 == 0
    && decide (m.scope.toNat ≤ 5)

end Sys2Proof.Machine
end

