-- ==== Sys2Proof/Machine/Translate.lean ====
section
/-! DEFINITION. Physical memory, the translation tables and the checks of a leaf (R25-R27, R58-R66). -/

namespace Sys2Proof.Machine

/-- A trap code and its cause (R220). -/
abbrev Err := Nat × Nat

/-! ## Trap codes (R220) -/

def cILLEGAL : Nat := 0x01
def cOPERAND : Nat := 0x02
def cALIGN : Nat := 0x03
def cXLATE : Nat := 0x04
def cPROT : Nat := 0x05
def cSCRATCH : Nat := 0x06
def cBARIDX : Nat := 0x07
def cFROZEN : Nat := 0x08
def cVIEWPOOL : Nat := 0x09
def cCONFLICT : Nat := 0x0A
def cOUTSIDE : Nat := 0x0B
def cDLEVEL : Nat := 0x0C
def cBARTO : Nat := 0x0D
def cRWTO : Nat := 0x0E
def cINTEG : Nat := 0x0F
def cRUNSUP : Nat := 0x10
def cHBROKEN : Nat := 0x11
def cSLUICE : Nat := 0x12
def cSPECDEPTH : Nat := 0x13
def cFPX : Nat := 0x14
def cTRAP : Nat := 0x15
def cBKPT : Nat := 0x16

/-! ## Physical memory -/

/-- Bytes of HBM in service (R25). -/
def State.hbmBytes (s : State) : Nat := if s.pkg.fullMap then 2 ^ 40 else 2 ^ 37

/-- The base of the reserved region, the top 2 GiB of the HBM in service (R26). -/
def State.reservedBase (s : State) : Nat := s.hbmBytes - 2 ^ 31

/-- The stack that holds a physical address (R25). -/
def State.stackOf (s : State) (pa : Nat) : Nat :=
  if s.pkg.fullMap then
    (bitsAt pa 12 4) ^^^ (bitsAt pa 16 4) ^^^ (bitsAt pa 20 4) ^^^ (bitsAt pa 24 4) ^^^ (bitsAt pa 28 4)
      ^^^ (bitsAt pa 32 4) ^^^ (bitsAt pa 36 4)
  else bitsAt pa 12 1

/-- The compute die whose slices home a line (R22, R27); the hash is not given in full service. -/
def State.homeDie (s : State) (pa : Nat) : Nat :=
  if s.pkg.fullMap then Config.homeSlice (pa / 256) % 128 / 16 else 0

/-- The INTEG cause of an access to a byte on a lost unit, 8 for a stack and 9 for a die (R27). -/
def State.lostAt (s : State) (pa : Nat) : Option Nat :=
  if s.pkg.lost.isEmpty then none
  else if s.pkg.lost.any (fun u => match u with | .stack n => n.toNat == s.stackOf pa | _ => false) then some 8
  else if s.pkg.lost.any (fun u => match u with | .die d => d.toNat == s.homeDie pa | _ => false) then some 9
  else none

/-- The lost cause of any byte of a range. -/
def State.lostIn (s : State) (pa n : Nat) : Option Nat :=
  if s.pkg.lost.isEmpty then none else (List.range n).findSome? fun i => s.lostAt (pa + i)

/-- Bytes of device memory by physical address. -/
def State.readPhys (s : State) (pa n : Nat) : List Byte := Memory.read s.mem pa n

def State.writePhys (s : State) (pa : Nat) (bs : List Byte) : State := { s with mem := Memory.write s.mem pa bs }

/-- Bytes of host memory. -/
def State.readHost (s : State) (ha n : Nat) : List Byte := Memory.read s.hostMem ha n

def State.writeHost (s : State) (ha : Nat) (bs : List Byte) : State :=
  { s with hostMem := Memory.write s.hostMem ha bs }

/-! ## Walks -/

def fmtOfNat (n : Nat) : Option Fmt :=
  match n with
  | 0 => some .bytes | 1 => some .int8 | 2 => some .int16 | 3 => some .int32 | 4 => some .int64 | 5 => some .fp16
  | 6 => some .bf16 | 7 => some .fp32 | 8 => some .fp64 | 9 => some .d8 | 10 => some .fp4x | 11 => some .int4g
  | 12 => some .rq32 | 13 => some .rq64 | _ => none

/-- The range tests of a leaf or of a pointed table: the reserved region before the end of memory (R63). -/
def State.rangeFault (s : State) (a n : Nat) : Option Err :=
  if a < s.hbmBytes ∧ s.reservedBase < a + n then some (cXLATE, 3)
  else if s.hbmBytes < a + n then some (cXLATE, 4)
  else none

/-- The attributes of a leaf, or the fault of a malformed one (R61-R63). `e` is the 128-bit entry, `base` and `size`
the page. A local leaf whose WIN is not zero is malformed too (DESIGN CHOICE, log 95). -/
def State.leafOf (s : State) (e base size : Nat) : Except Err Leaf :=
  let kind := bitsAt e 1 2
  let geom := bitsAt e 11 3
  let redop := bitsAt e 14 3
  let policy := bitsAt e 17 2
  let domain := bitsAt e 19 2
  let addr := bitsAt e 64 48
  let win := bitsAt e 112 4
  match fmtOfNat (bitsAt e 7 4) with
  | none => .error (cXLATE, 2)
  | some fmt =>
    let grouped := fmt == .fp4x || fmt == .int4g
    let isLocal := kind == 1
    let bad :=
      bitsAt e 21 43 != 0 || bitsAt e 116 12 != 0
      || decide (4 ≤ geom) || redop == 7 || policy == 3 || domain == 3
      || (isLocal && win != 0)
      || addr % size != 0
      || (isLocal && decide (2 ^ 40 ≤ addr))
      || (!isLocal && domain != 2)
      || (grouped && geom == 0) || (!grouped && geom != 0)
      || (decide (1 ≤ redop ∧ redop ≤ 3) && (fmt == .bytes || grouped))
      || (decide (4 ≤ redop ∧ redop ≤ 6) && (match fmt with
          | .fp16 | .bf16 | .fp32 | .fp64 | .d8 | .fp4x | .int4g | .rq32 | .rq64 => true | _ => false))
      || (redop != 0 && !bitAt e 6)
    if bad then .error (cXLATE, 2)
    else
      let l : Leaf := {
        base := base, size := size, kind := if isLocal then .local else .host, addr := addr, win := win
        rd := bitAt e 3, wr := bitAt e 4, ex := bitAt e 5, view := bitAt e 6
        fmt := fmt, geom := geom, redop := redop, policy := policy, domain := domain }
      if isLocal then
        match s.rangeFault addr size with
        | some f => .error f
        | none => .ok l
      else .ok l

/-- A remote leaf: only the target matters; its attributes are the target's own (R38, R61). -/
def remoteLeaf (va : Nat) : Leaf where
  base := va / 2 ^ 43 * 2 ^ 43
  size := 2 ^ 43
  kind := .remote
  addr := va / 2 ^ 43
  win := 0
  rd := true
  wr := true
  ex := true
  view := true
  fmt := .bytes
  geom := 0
  redop := 0
  policy := 0
  domain := 2

/-- The walk from a table over the levels that remain, each with the lowest bit of its index (R60-R64). Of a remote entry
only V and KIND are looked at, its reserved bits with the rest not (R61; DESIGN CHOICE, log 71). -/
def State.walkFrom (s : State) (va : Nat) : Nat → List Nat → Except Err Leaf
  | _, [] => .error (cXLATE, 2)
  | table, lo :: rest =>
    let at_ := table + 16 * bitsAt va lo 9
    match s.lostAt at_ with
    | some c => .error (cINTEG, c)
    | none =>
      let e := bytesToNat (s.readPhys at_ 16)
      let size := 2 ^ lo
      let base := va / size * size
      if !bitAt e 0 then .error (cXLATE, 1)
      else match bitsAt e 1 2 with
      | 0 =>
        let addr := bitsAt e 64 48
        if rest.isEmpty || bitsAt e 21 43 != 0 || bitsAt e 116 12 != 0 || addr % 2 ^ 13 != 0 then .error (cXLATE, 2)
        else match s.rangeFault addr (2 ^ 13) with
          | some f => .error f
          | none => s.walkFrom va addr rest
      | 3 => if lo = 44 then .ok (remoteLeaf va) else .error (cXLATE, 2)
      | _ => if lo = 44 then .error (cXLATE, 2) else s.leafOf e base size

/-- The TLB through which the device itself, the host and other devices translate: that of edge die E0 (R66; log 38). -/
def ownSite : Nat := 520

/-- The TLBs in which an access is looked up: of a core its own, then that of its die; otherwise a die's (R66). -/
def tlbSites (site : Nat) : List Nat := if site < 512 then [site, 512 + site / 64] else [site]

/-- Entries that a TLB holds (R66). -/
def tlbCapacity (site : Nat) : Nat := if site < 512 then 1024 else 32768

/-- A walk of tenant t's tables (R54, R60): from a table pointer that the TLBs hold for the address, otherwise from ROOT,
whose table must lie in the memory in service, or the access faults as one through a table pointer there does (R25, R63,
R66; log 73). -/
def State.walk (s : State) (site t va : Nat) : Except Err Leaf :=
  let x := s.tenant t
  if 2 ^ 53 ≤ va then .error (cXLATE, 1)
  else if !x.rootv then .error (cXLATE, 1)
  else match s.rangeFault (x.root.toNat * 2 ^ 13) (2 ^ 13) with
    | some f => .error f
    | none =>
      match (s.tlbPtrs.filter fun p => (tlbSites site).contains p.site).find? fun p =>
          p.tenant == t && decide (p.base ≤ va ∧ va < p.base + p.size) with
      | some p => s.walkFrom va p.table p.rest
      | none => s.walkFrom va (x.root.toNat * 2 ^ 13) [44, 35, 26, 17]

/-- The leaf for an address: an entry of the tenant in the TLBs of a site that maps it, otherwise a walk (R66). -/
def State.leaf (s : State) (site t va : Nat) : Except Err Leaf :=
  if 2 ^ 53 ≤ va then .error (cXLATE, 1)
  else match (tlbSites site).findSome? fun n => s.tlb.find? fun e =>
      e.site == n && e.tenant == t && decide (e.leaf.base ≤ va ∧ va < e.leaf.base + e.leaf.size) with
    | some e => .ok e.leaf
    | none =>
      match s.walk site t va with
      | .ok l =>
        -- a remote entry that names this device is performed locally (R38)
        if l.kind == .remote && l.addr == s.fabric.devid.toNat then
          match s.walk site t (va % 2 ^ 43) with
          | .ok m => if m.kind == .remote then .error (cXLATE, 2) else .ok { m with base := m.base + va / 2 ^ 43 * 2 ^ 43 }
          | .error f => .error f
        else .ok l
      | .error f => .error f

/-- The table pointers on the way to an address, the deepest first (R60, R66). -/
def State.pathFrom (s : State) (site t va : Nat) : Nat → List Nat → List TlbPtr
  | _, [] => []
  | table, lo :: rest =>
    let e := bytesToNat (s.readPhys (table + 16 * bitsAt va lo 9) 16)
    if bitAt e 0 && bitsAt e 1 2 == 0 && !rest.isEmpty then
      let size := 2 ^ lo
      s.pathFrom site t va (bitsAt e 64 48) rest ++ [⟨site, t, va / size * size, size, bitsAt e 64 48, rest⟩]
    else []

/-- Room for one more entry in a TLB: of a full one some entry goes, and which is a free choice (R66; log 38). -/
def State.makeRoom (s : State) (site : Nat) : State :=
  let leaves := s.tlb.filter fun e => e.site == site
  let ptrs := s.tlbPtrs.filter fun p => p.site == site
  let n := leaves.length + ptrs.length
  if n < tlbCapacity site then s
  else
    let i := s.choose n
    { s.tick with tlb := match leaves[i]? with | some e => s.tlb.erase e | none => s.tlb
                  tlbPtrs := match leaves[i]?, ptrs[i - leaves.length]? with | none, some p => s.tlbPtrs.erase p | _, _ => s.tlbPtrs }

/-- One TLB after a translation has succeeded: the leaf is cached, and the table pointers on its path. A deeper pointer stands
before the ones above it. -/
def State.fillSite (s : State) (site t : Nat) (l : Leaf) : State :=
  if s.tlb.contains ⟨site, t, l⟩ then s
  else
    let va := if l.kind == .remote then l.base else l.base % 2 ^ 53
    let ps := s.pathFrom site t va ((s.tenant t).root.toNat * 2 ^ 13) [44, 35, 26, 17]
    let s := s.makeRoom site
    let s := { s with tlb := s.tlb ++ [⟨site, t, l⟩] }
    ps.reverse.foldl (fun s p => if s.tlbPtrs.contains p then s else
      let s := s.makeRoom site
      { s with tlbPtrs := p :: s.tlbPtrs }) s

/-- The TLBs of a site after a translation has succeeded (R66; log 38). -/
def State.fillTlb (s : State) (site t : Nat) (l : Leaf) : State := (tlbSites site).foldl (fun s n => s.fillSite n t l) s

/-! ## The checks of an access -/

/-- What an access wants of its page (R64). -/
inductive Want where
  | rd | wr | ex
  deriving DecidableEq, Repr

/-- The permission test of R64. -/
def Leaf.permFault (l : Leaf) (w : Want) : Option Err :=
  match w with
  | .rd => if l.rd then none else some (cPROT, 1)
  | .wr => if l.wr then none else some (cPROT, 2)
  | .ex => if l.ex then none else some (cPROT, 3)

/-- The widest scope that a page's DOMAIN admits, as a scope code (R64, R168). -/
def Leaf.maxScope (l : Leaf) : Nat := 3 + l.domain

/-- The window test of a host leaf, made when the access reaches the edge die (R58). -/
def State.windowFault (s : State) (t : Nat) (l : Leaf) (w : Want) : Option Err :=
  let win := Sparse.get Window.none (s.tenant t).win l.win
  if !win.valid || decide (4096 * win.pages.toNat < l.addr + l.size) then some (cXLATE, 5)
  else match w with
    | .wr => if win.wr then none else some (cPROT, 2)
    | _ => if win.rd then none else some (cPROT, 1)

/-- Where an address of a leaf lies (R25, R58, R38). -/
def homeOf (t va : Nat) (l : Leaf) : HomeAt :=
  match l.kind with
  | .local => .dev (l.addr + (va - l.base))
  | .host => .host t l.win (l.addr + l.size) (l.addr + (va - l.base))
  | .remote => .remote l.addr (va % 2 ^ 43)

/-- A translated access: its leaf and where it is homed. -/
structure Xl where
  leaf : Leaf
  home : HomeAt
  deriving DecidableEq, Repr

/-- A translation at a site, with the tests of R60-R64: the leaf, its permission, its window. A remote access to a device that
DOMSET does not name faults PROT, cause 5 (R54). -/
def State.xlate (s : State) (site t va : Nat) (w : Want) : Except Err Xl :=
  match s.leaf site t va with
  | .error f => .error f
  | .ok l =>
    match l.permFault w with
    | some f => .error f
    | none =>
      match l.kind with
      | .local => .ok ⟨l, homeOf t va l⟩
      | .host =>
        match s.windowFault t l w with
        | some f => .error f
        | none => .ok ⟨l, homeOf t va l⟩
      | .remote =>
        if onBit (s.tenant t).domset l.addr then .ok ⟨l, homeOf t va l⟩ else .error (cPROT, 5)

/-! ## Access to memory at the home, in the root view -/

/-- The host physical address of an offset in a tenant's window (R58). -/
def State.hostAddr (s : State) (t win off : Nat) : Nat :=
  (Sparse.get Window.none (s.tenant t).win win).hbase.toNat * 4096 + off

/-- The key under which L2 holds a tenant's copy of a sector of host memory (R52, R55). -/
def hostKey (t ha : Nat) : Nat := t * 2 ^ 58 + ha / 64

/-- The window test of a write that reaches the edge die after its translation: a buffered store, a dirty sector, a fold
(R58; log 72). -/
def State.lateWindow (s : State) (h : HomeAt) : Option Err :=
  match h with
  | .host t win top _ =>
    let w := Sparse.get Window.none (s.tenant t).win win
    if !w.valid || decide (4096 * w.pages.toNat < top) then some (cXLATE, 5) else if w.wr then none else some (cPROT, 2)
  | _ => none

/-- Bytes at a home. A host line that L2 holds is read there (R52); a remote home holds nothing here. -/
def State.readHome (s : State) (h : HomeAt) (n : Nat) : List Byte :=
  match h with
  | .dev pa => s.readPhys pa n
  | .host t win _ off =>
    (List.range n).map fun i =>
      let a := s.hostAddr t win off + i
      match Sparse.find s.hostLines (hostKey t a) with
      | some x => x.bytes.getD (a % 64) 0
      | none => Memory.byte s.hostMem a
  | _ => List.replicate n 0

/-- L2 takes in the sector of host memory that an access reads, exclusively for an atomic (R52, R183). -/
def State.fillHost (s : State) (h : HomeAt) (exclusive : Bool) : State :=
  match h with
  | .host t win _ off =>
    let a := s.hostAddr t win off
    match Sparse.find s.hostLines (hostKey t a) with
    | some x => if exclusive && !x.exclusive then
        { s with hostLines := Sparse.put s.hostLines (hostKey t a) { x with exclusive := true } } else s
    | none => { s with hostLines := Sparse.put s.hostLines (hostKey t a) ⟨s.readHost (a / 64 * 64) 64, exclusive⟩ }
  | _ => s

/-- What an access of this policy reads at a home: at bypass-private host memory itself, otherwise as `readHome` (R170). -/
def State.readAt (s : State) (policy : Nat) (h : HomeAt) (n : Nat) : List Byte :=
  match h with
  | .host t win _ off => if policy = 1 then s.readHost (s.hostAddr t win off) n else s.readHome h n
  | h => s.readHome h n

/-- Bytes written into host memory; the sectors of it that L2 holds are updated as well (R52). -/
def State.putHost (s : State) (ha : Nat) (bs : List Byte) : State :=
  let s := s.writeHost ha bs
  { s with hostLines := s.hostLines.map fun e =>
      let a0 := 64 * (e.1 % 2 ^ 58)
      if a0 < ha + bs.length ∧ ha < a0 + 64 then
        (e.1, { e.2 with bytes := (List.range 64).map fun i =>
          if ha ≤ a0 + i ∧ a0 + i < ha + bs.length then bs.getD (a0 + i - ha) 0 else e.2.bytes.getD i 0 })
      else e }

/-- A write at a home. A write to host memory updates the sector that L2 holds as well (R52). -/
def State.writeHome (s : State) (h : HomeAt) (bs : List Byte) : State :=
  match h with
  | .dev pa => s.writePhys pa bs
  | .host t win _ off => s.putHost (s.hostAddr t win off) bs
  | _ => s

/-- The home some bytes before. -/
def HomeAt.back (h : HomeAt) (i : Nat) : HomeAt :=
  match h with
  | .dev pa => .dev (pa - i)
  | .host t win top off => .host t win top (off - i)
  | .remote d va => .remote d (va - i)
  | .view va => .view (va - i)

/-- The next byte's home. -/
def HomeAt.add (h : HomeAt) (i : Nat) : HomeAt :=
  match h with
  | .dev pa => .dev (pa + i)
  | .host t win top off => .host t win top (off + i)
  | .remote d va => .remote d (va + i)
  | .view va => .view (va + i)

/-- The INTEG cause of a home on a lost unit: that of a host line is the slice that the same hash gives its address (R22, R27,
R52; log 5). -/
def State.lostHome (s : State) (h : HomeAt) (n : Nat) : Option Nat :=
  match h with
  | .dev pa => s.lostIn pa n
  | .host t win _ off =>
    if s.pkg.lost.any (fun u => match u with
        | .die d => d.toNat == s.homeDie (2 ^ 40 + s.hostAddr t win off)
        | _ => false) then some 9 else none
  | _ => none

/-! ## The device's own accesses (R71, R73, R89, R123) -/

/-- What the device's own access finds where its bytes lie on another device and have not come yet. -/
def notYet : Err := (0, 0)

/-- Whether a read found that it must wait. -/
def readWaits {α : Type} : Except (Nat × Err) α → Bool
  | .error (_, e) => e == notYet
  | .ok _ => false

/-- The device's own read of bytes through a tenant's root, sector by sector so that a page may end inside the range:
the bytes, or the first address that fails and why. Of a page on another device it finds the answer that has come (R38, R71, R73,
R89). -/
def State.rootRead (s : State) (t : Nat) : Nat → Nat → Nat → Except (Nat × Err) (List Byte)
  | 0, _, _ => .ok []
  | fuel + 1, va, n =>
    if n = 0 then .ok []
    else
      let m := min n (64 - va % 64)
      let here : Except Err (List Byte) := match s.xlate ownSite t va .rd with
        | .error f => .error f
        | .ok x => match s.lostHome x.home m, x.home with
          | some c, _ => .error (cINTEG, c)
          | none, .remote d a => (match s.fabric.own.find? fun o => o.tenant == t && o.va == d * 2 ^ 43 + a && o.n == m with
            | some o => (match o.error with | some e => .error e | none => .ok ((o.bytes ++ List.replicate m 0).take m))
            | none => .error notYet)
          | none, h => .ok (s.readHome h m)
      match here with
      | .error e => .error (va, e)
      | .ok bs => match s.rootRead t fuel (va + m) (n - m) with
        | .ok rest => .ok (bs ++ rest)
        | .error f => .error f

/-- Bytes read through a tenant's root. -/
def State.readRoot (s : State) (t va n : Nat) : Except (Nat × Err) (List Byte) := s.rootRead t (n / 64 + 2) va n

/-- The pieces of such a read that lie on other devices, as far as they translate: the device, the address there, the length. -/
def State.rootPieces (s : State) (t : Nat) : Nat → Nat → Nat → List (Nat × Nat × Nat)
  | 0, _, _ => []
  | fuel + 1, va, n =>
    if n = 0 then []
    else
      let m := min n (64 - va % 64)
      match s.xlate ownSite t va .rd with
      | .error _ => []
      | .ok x => (match x.home with | .remote d a => [(d, a, m)] | _ => []) ++ s.rootPieces t fuel (va + m) (n - m)

/-- The answers to such a read are used up, or no longer wanted. -/
def State.forgetRoot (s : State) (t va n : Nat) : State :=
  let ps := s.rootPieces t (n / 64 + 2) va n
  { s with fabric := { s.fabric with
      own := s.fabric.own.filter fun o => !(o.tenant == t && ps.any fun p => p.1 * 2 ^ 43 + p.2.1 == o.va && p.2.2 == o.n)
      remotes := s.fabric.remotes.filter fun r =>
        !(r.tenant == t && ps.any fun p => r.dst.toNat == p.1 && r.addr == p.2.1 && r.what == .own p.2.2) } }

/-- Where the device's own write of one sector of bytes goes: the fault of its translation, or of a lost unit (R27, R60-R64). -/
def State.rootHome (s : State) (t va n : Nat) : Except Err HomeAt :=
  match s.xlate ownSite t va .wr with
  | .error f => .error f
  | .ok x => match s.lostHome x.home n with
    | some c => .error (cINTEG, c)
    | none => .ok x.home

/-- The sectors of the device's own write, as place and bytes: none where any of them fails. -/
def State.rootHomes (s : State) (t : Nat) : Nat → Nat → List Byte → Except (Nat × Err) (List (HomeAt × List Byte))
  | 0, _, _ => .ok []
  | fuel + 1, va, bs =>
    if bs.isEmpty then .ok []
    else
      let m := min bs.length (64 - va % 64)
      match s.rootHome t va m with
      | .error e => .error (va, e)
      | .ok h => match s.rootHomes t fuel (va + m) (bs.drop m) with
        | .ok rest => .ok ((h, bs.take m) :: rest)
        | .error f => .error f

end Sys2Proof.Machine
end

