-- ==== Sys2Proof/Machine/Ops.lean ====
section
/-! DEFINITION. Operations that many instructions share: interrupts, fault records, %dcause, timelines, broken handles,
taking a trap and returning from a handler (R57, R73-R75, R92, R124, R220-R225, R338). -/

namespace Sys2Proof.Machine

/-! ## Interrupts (R57) -/

/-- A vector is raised: its data word is written to its host address, or its IPEND bit is set where the mask bit is
set or the address is zero. -/
def State.raiseVector (s : State) (t v : Nat) : State :=
  let x := s.tenant t
  let e := Sparse.get Ivec.none x.ivec v
  if onBit x.imask v || e.addr == 0 then s.updTenant t fun x => { x with ipend := setBit x.ipend v true }
  else s.putHost e.addr.toNat (natToBytes 4 e.data.toNat)

/-- A vector of every tenant (R16). -/
def State.raiseEvery (s : State) (v : Nat) : State := (List.range 64).foldl (fun s t => s.raiseVector t v) s

/-- A vector of every enabled tenant (R22, R27). -/
def State.raiseAll (s : State) (v : Nat) : State :=
  s.tenants.foldl (fun s e => if e.2.en then s.raiseVector e.1 v else s) s

/-! ## Sending (R33-R37) -/

/-- A new source tag (R36). -/
def State.newTag (s : State) : Word × State :=
  (s.fabric.tagCtr + 1, { s with fabric := { s.fabric with tagCtr := s.fabric.tagCtr + 1 } })

/-- A port sends a message, or holds it while its virtual channel is stopped; what is sent stands in the replay buffer
until it is acknowledged (R41, R42). -/
def State.toPort (s : State) (p : Nat) (m : Msg) : State :=
  let x := Sparse.get Port.none s.fabric.ports p
  if onBit x.stopped m.vc.toNat then
    { s with fabric := { s.fabric with ports := Sparse.set Port.none s.fabric.ports p { x with waiting := x.waiting ++ [m] } } }
  else
    { s with fabric := { s.fabric with
      sent := s.fabric.sent ++ [m]
      ports := Sparse.set Port.none s.fabric.ports p { x with unacked := x.unacked ++ [(m, 1 + m.data.length)] } } }

/-- A message leaves through the route of its destination; none where the route entry is invalid (R33). An entry that names a
port which is not trained counts as invalid (DESIGN CHOICE, log 85). -/
def State.send (s : State) (m : Msg) : Option State :=
  let r := Sparse.get Route.none s.fabric.routes m.dst.toNat
  if r.valid && (Sparse.get Port.none s.fabric.ports r.port.toNat).trained then
    some (s.toPort r.port.toNat m)
  else none

/-- Flits that stand in a port's receive buffer for a virtual channel: those of messages that came in by the port and wait
for a turn boundary, for a Millpond slot, or for GO at the port that they leave by (R41). -/
def State.heldFlits (s : State) (p vc : Nat) : Nat :=
  (s.fabric.arrived ++ s.fabric.slotWait.map (·.2) ++ s.fabric.ports.flatMap fun e => e.2.waiting).foldl (fun n m =>
    if m.via == some (BitVec.ofNat 5 p) && m.vc.toNat == vc then n + 1 + m.data.length else n) 0

/-- The reserve of a port, in flits: the measured round trip at 448 bytes a nanosecond (R41). -/
def Port.reserve (x : Port) : Nat := (x.peer.map fun i => divUp (i.roundTripNs * 448) 64).getD 0

/-- What a channel of a port must tell its peer: STOP once the free space of its 8,192 flits has fallen to the reserve, GO
once it exceeds the reserve by 64 (R41). -/
def State.flowSignal (s : State) (p vc : Nat) (x : Port) : Option Bool :=
  let free := 8192 - s.heldFlits p vc
  if !onBit x.told vc && decide (free ≤ x.reserve) then some true
  else if onBit x.told vc && decide (x.reserve + 64 < free) then some false
  else none

/-- Every trained port's STOP and GO given where they are due. -/
def State.flow (s : State) : State :=
  s.fabric.ports.foldl (fun s e => if !e.2.trained then s else (List.range 4).foldl (fun s vc =>
    let x := Sparse.get Port.none s.fabric.ports e.1
    match s.flowSignal e.1 vc x with
    | none => s
    | some b => { s with fabric := { s.fabric with
        ports := Sparse.set Port.none s.fabric.ports e.1 { x with told := setBit x.told vc b }
        signals := s.fabric.signals ++ [(e.1, vc, b)] } }) s) s

/-! ## Signatures (R173-R175) -/

/-- The two bits of a line's signature (R174). -/
def sigBits (t va : Nat) : Nat × Nat :=
  let l := t * 2 ^ 45 + bitsAt va 8 45
  let g := (List.range 6).map fun i => bitsAt l (9 * i) 9
  (g.foldl (· ^^^ ·) 0, g.foldl (· + ·) 0 % 512)

/-- A line entered in a signature. -/
def sigAdd (sg : BitVec 512) (t va : Nat) : BitVec 512 :=
  let b := sigBits t va
  setBit (setBit sg b.1 true) b.2 true

/-- Whether a line matches a signature. -/
def sigMatch (sg : BitVec 512) (t va : Nat) : Bool :=
  let b := sigBits t va
  onBit sg b.1 && onBit sg b.2

/-- Whether a copy of a line is to go on a signature: by the address under which it is held here, or by that under which
another device names it (R38; DEDUCED, log 78). -/
def State.sigCovers (s : State) (sg : BitVec 512) (t va : Nat) : Bool :=
  sigMatch sg t va || sigMatch sg t (va % 2 ^ 43) || sigMatch sg t (s.fabric.devid.toNat * 2 ^ 43 + va % 2 ^ 43)

/-- A signature received by a core (R175). -/
def State.giveSig (s : State) (sg : BitVec 512) (c : Nat) : State :=
  s.updCore c fun k => { k with pendingSig := k.pendingSig ||| sg }

/-- The cores that the model holds anything for. -/
def State.activeCores (s : State) : List Nat := s.cores.map (·.1)

/-- The devices of a tenant's DOMSET other than this one. -/
def State.domainPeers (s : State) (t : Nat) : List Nat :=
  (List.range 1024).filter fun d => onBit (s.tenant t).domset d && d != s.fabric.devid.toNat

/-- A SIG to a device of the domain, whose acknowledgement is awaited; without a route there is none to await. -/
def State.sendSig (s : State) (t : Nat) (sg : BitVec 512) (d : Nat) : State :=
  let (tag, s) := s.newTag
  match s.send (mkMsg 0x07 s.fabric.devid (BitVec.ofNat 10 d) t 4 0 tag 0 0 [sealFlit sg]) with
  | none => s
  | some s => { s with fabric := { s.fabric with remotes := s.fabric.remotes ++
      [⟨tag, t, BitVec.ofNat 10 d, some (Sparse.get Route.none s.fabric.routes d).port, 0, .signature⟩] } }

/-- Whether the route table leads to a device (R33). -/
def State.routed (s : State) (d : Nat) : Bool :=
  let r := Sparse.get Route.none s.fabric.routes d
  r.valid && (Sparse.get Port.none s.fabric.ports r.port.toNat).trained

/-- A request of the device itself, entered among the outstanding ones; none where no route leads to its destination (R33). -/
def State.ownRequest (s : State) (t ty d addr : Nat) (opw : Dword) (data : List Flit) (what : RemoteFor) : Option State :=
  let (tag, s) := s.newTag
  (s.send (mkMsg ty s.fabric.devid (BitVec.ofNat 10 d) t 0 addr tag opw 0 data)).map fun s =>
    { s with fabric := { s.fabric with remotes := s.fabric.remotes ++
        [⟨tag, t, BitVec.ofNat 10 d, some (Sparse.get Route.none s.fabric.routes d).port, addr, what⟩] } }

/-- The parts of the device's own read that lie on other devices are asked for; one for which there is no route is lost (R33, R38,
R44). -/
def State.askRoot (s : State) (t va n : Nat) : State :=
  (s.rootPieces t (n / 64 + 2) va n).foldl (fun s p =>
    let a := p.1 * 2 ^ 43 + p.2.1
    if (s.fabric.own.any fun o => o.tenant == t && o.va == a && o.n == p.2.2)
        || s.fabric.remotes.any fun r => r.tenant == t && r.dst.toNat == p.1 && r.addr == p.2.1 && r.what == .own p.2.2 then s
    else match s.ownRequest t 0x01 p.1 p.2.1 (BitVec.ofNat 64 (p.2.2 * 2 ^ 16)) [] (.own p.2.2) with
      | some s => s
      | none => { s with fabric := { s.fabric with own := s.fabric.own ++ [⟨t, a, p.2.2, some (cINTEG, 3), []⟩] } }) s

/-- The device's own write through a tenant's root: nothing is written where any byte would fault. Bytes on another device go there
with a store, which the answer to `what` follows; the second part tells whether there are any (R38, R71, R73). -/
def State.writeRoot (s : State) (t va : Nat) (bs : List Byte) (what : RemoteFor) : Except (Nat × Err) (State × Bool) :=
  match s.rootHomes t (bs.length / 64 + 2) va bs with
  | .error f => .error f
  | .ok hs =>
    if hs.any fun h => match h.1 with | .remote d _ => !s.routed d | _ => false then .error (va, (cINTEG, 3))
    else .ok (hs.foldl (fun s h => match h.1 with
      | .remote d a => (s.ownRequest t 0x03 d a (BitVec.ofNat 64 (h.2.length * 2 ^ 16)) (flitsOf h.2) what).getD s
      | home => s.writeHome home h.2) s, hs.any fun h => match h.1 with | .remote .. => true | _ => false)

/-- The signature of the lines of a range. -/
def rangeSig (t va n : Nat) : BitVec 512 :=
  (List.range (n / 256 + 2)).foldl (fun sg i =>
    let a := va / 256 * 256 + 256 * i
    if a < va + n then sigAdd sg t a else sg) 0

/-- A release at system scope of what the device or the host has written at the home: the lines go to every core of the
device and to every device of DOMSET (R73, R173, R176). -/
def State.signLines (s : State) (t va n : Nat) : State :=
  let sg := rangeSig t va n
  let s := s.activeCores.foldl (fun s c => s.giveSig sg c) s
  (s.domainPeers t).foldl (fun s d => s.sendSig t sg d) s

/-! ## Fault records (R73, R74) -/

/-- The 64 bytes of a record (R74). -/
def FaultRec.bytes (r : FaultRec) : List Byte :=
  natToBytes 8 r.seq
  ++ natToBytes 8 (r.code.toNat + r.cause.toNat * 2 ^ 8 + r.access.toNat * 2 ^ 16 + r.queue.toNat * 2 ^ 24
      + r.count.toNat * 2 ^ 32)
  ++ natToBytes 8 r.grid.toNat
  ++ natToBytes 8 (r.block.toNat + r.thread.toNat * 2 ^ 32 + r.core.toNat * 2 ^ 43)
  ++ natToBytes 8 r.pc.toNat ++ natToBytes 8 r.addr.toNat ++ natToBytes 8 r.aux0.toNat ++ natToBytes 8 r.aux1.toNat

/-- Whether the ring has room: it is treated as full while FQEN is 0 (R73). -/
def FaultQueue.room (f : FaultQueue) : Bool :=
  f.en && decide ((f.tail - f.head).toNat < 2 ^ f.log2.toNat)

/-- An entry put into the outbox of a block's innermost speculative view; none where it is full (R136). -/
def Block.holdOut (k : Block) (e : OutEff) : Option Block :=
  match k.specs with
  | [] => none
  | w :: rest => if w.outbox.length < 256 then some { k with specs := { w with outbox := w.outbox ++ [e] } :: rest } else none

/-- A block in a speculative view, one of whose threads a record names, if it runs on (R74, R136). -/
def State.irqHolder (s : State) (r : FaultRec) : Option (Nat × Block) :=
  if r.pc == 0 then none
  else s.blocks.find? fun e => e.2.bid == r.block && !e.2.specs.isEmpty && e.2.core == r.core.toNat
    && (s.grid? e.2.grid).any (fun g => g.gid == r.grid) && e.2.threads.any fun th => th.status != .exited

/-- Vector 1 for a record: raised, or held in the outbox of the speculative view in which its thread runs. A full outbox does
not stop a record, and its vector is then raised at once (R73, R136; DESIGN CHOICE, log 88). -/
def State.raiseRecord (s : State) (t : Nat) (r : FaultRec) : State :=
  match (s.irqHolder r).bind fun e => (e.2.holdOut (.interrupt r.thread.toNat)).map fun k => (e.1, k) with
  | some (b, k) => s.setBlock b k
  | none => s.raiseVector t 1

/-- The address of a fault queue's next record (R73). -/
def FaultQueue.slot (f : FaultQueue) : Nat := f.base.toNat + 64 * (f.tail.toNat % 2 ^ f.log2.toNat)

/-- A record has been written into the ring, as a release at system scope: FQTAIL advances and vector 1 is raised (R73). -/
def State.recordWritten (s : State) (t : Nat) (r : FaultRec) : State :=
  (((s.signLines t (s.tenant t).fq.slot 64).updTenant t fun x => { x with fq := { x.fq with
      tail := x.fq.tail + 1
      opened := x.fq.opened.map fun o => if o.record.seq == r.seq then { o with written := true } else o } }).raiseRecord t r)

/-- What came of an attempt to write a record. -/
inductive Posting where
  | written (s : State)
  /-- it goes to a ring on another device, whose answer tells whether it could be written -/
  | sent (s : State)
  | kept

/-- One attempt to write a record into the ring: it is kept where the ring is full or the write fails, and while the answer to the
write of an earlier one has not come (R73). -/
def State.writeRecord (s : State) (t : Nat) (r : FaultRec) : Posting :=
  let f := (s.tenant t).fq
  if !f.room || s.fabric.remotes.any fun x => x.tenant == t && x.what == .record then .kept
  else match s.writeRoot t f.slot r.bytes .record with
    | .error _ => .kept
    | .ok (s, true) => .sent s
    | .ok (s, false) => .written (s.recordWritten t r)

/-- The count that a suspending record shows when it is written (R74). -/
def State.recordCount (s : State) (t : Nat) (r : FaultRec) : Word :=
  match (s.tenant t).fq.opened.find? (fun o => o.record.seq == r.seq) with
  | some o => BitVec.ofNat 32 o.threads.length
  | none => r.count

/-- A record posted, held, or counted as lost (R73). -/
def State.postRecord (s : State) (t : Nat) (suspends : Bool) (r : FaultRec) : State :=
  let f := (s.tenant t).fq
  match if f.held.isEmpty then s.writeRecord t r else .kept with
  | .written s => s
  | .sent s => s.updTenant t fun x => { x with fq := { x.fq with held := [(suspends, r)] } }
  | .kept =>
    if suspends then s.updTenant t fun x => { x with fq := { x.fq with held := x.fq.held ++ [(true, r)] } }
    else if (f.held.filter (fun h => !h.1)).length < 64 then
      s.updTenant t fun x => { x with fq := { x.fq with held := x.fq.held ++ [(false, r)] } }
    else s.updTenant t fun x => { x with fq := { x.fq with lostCount := x.fq.lostCount + 1 } }

/-- Held records posted in arrival order while the ring takes them (R73). -/
def State.retryHeld (s : State) (t : Nat) : Nat → State
  | 0 => s
  | fuel + 1 =>
    match (s.tenant t).fq.held with
    | [] => s
    | (_, r) :: rest =>
      match s.writeRecord t { r with count := s.recordCount t r } with
      | .kept => s
      | .sent s => s
      | .written s => (s.updTenant t fun x => { x with fq := { x.fq with held := rest } }).retryHeld t fuel

/-- Held records are tried again, in arrival order (R73). -/
def State.retryRecords (s : State) (t : Nat) : State := s.retryHeld t ((s.tenant t).fq.held.length)

/-- The ring's device has taken the first of the held records in (R73). -/
def State.recordTaken (s : State) (t : Nat) : State :=
  match (s.tenant t).fq.held with
  | [] => s
  | (_, r) :: rest => ((s.recordWritten t { r with count := s.recordCount t r }).updTenant t fun x =>
      { x with fq := { x.fq with held := rest } }).retryRecords t

/-- The next SEQ of a tenant (R74), taken. -/
def State.takeSeq (s : State) (t : Nat) : Nat × State :=
  let n := (s.tenant t).fq.nextSeq
  (n, s.updTenant t fun x => { x with fq := { x.fq with nextSeq := n + 1 } })

/-- A record that suspends nobody: INTEG, an engine's fault, a queue's fault, a failed task (R73). -/
def State.postEvent (s : State) (t : Nat) (r : FaultRec) : State :=
  let (n, s) := s.takeSeq t
  s.postRecord t false { r with seq := n, count := 1 }

/-- A blank record. -/
def FaultRec.zero : FaultRec := ⟨0, 0, 0, 0, 0, 0, 0, 0, 0, 0, 0, 0, 0, 0⟩

/-- An INTEG record that names no thread (R44). -/
def FaultRec.integ (cause : Nat) : FaultRec :=
  { FaultRec.zero with code := BitVec.ofNat 8 cINTEG, cause := BitVec.ofNat 8 cause }

/-- The record of a thread's access, or one that names no thread where none made it (R74). -/
def plainRecord (code cause access addr : Nat) : FaultRec :=
  { FaultRec.zero with code := BitVec.ofNat 8 code, cause := BitVec.ofNat 8 cause, access := BitVec.ofNat 3 access
                       addr := BitVec.ofNat 64 addr }

/-- The same release by a step that may post a record: a SIG that no route carries is lost with INTEG, "no route" (R33, R44).
The release with which a fault record itself is written posts none (DESIGN CHOICE, log 85). -/
def State.releaseLines (s : State) (t va n : Nat) : State :=
  ((s.domainPeers t).filter fun d => !s.routed d).foldl (fun s _ => s.postEvent t (FaultRec.integ 3)) (s.signLines t va n)

/-- A queue's record that suspends nobody: ACCESS 5 and the address that failed (R68, R71, R89). -/
def State.queueFault (s : State) (t q : Nat) (e : Err) (addr : Nat) (gid : Dword) : State :=
  s.postEvent t { FaultRec.zero with
    code := BitVec.ofNat 8 e.1, cause := BitVec.ofNat 8 e.2, access := 5, queue := BitVec.ofNat 4 q
    grid := gid, addr := BitVec.ofNat 64 addr }

/-! ## What follows the device's own writes (R71, R89) -/

/-- What follows the write of STATUS and DONE: the counter and the interrupt (R71). -/
def State.signalLaunch (s : State) (t q : Nat) (r : LaunchInfo) : State :=
  let s := if r.sigv then s.updQueue t q fun x =>
      { x with qtl := Sparse.set 0 x.qtl r.sigctr (if (x.tlc r.sigctr).toNat < r.sigval.toNat then r.sigval else x.tlc r.sigctr) }
    else s
  if r.irq then s.raiseVector t 0 else s

/-- The write of STATUS and DONE has ended: performed, with release semantics at system scope, or failed, which posts a record and
stops nothing (R71). -/
def State.statusWritten (s : State) (t q : Nat) (gid : Dword) (r : LaunchInfo) (failed : Option Err) : State :=
  (match failed with
    | none => s.releaseLines t (r.recVa + 0x78) 8
    | some e => s.queueFault t q e (r.recVa + 0x78) gid).signalLaunch t q r

/-- A recording ends with one record: a part of the buffer cannot be written or read (R89). -/
def State.traceFail (s : State) (t q : Nat) (e : Err) (a : Nat) (gid : Dword) : State :=
  if (s.queue t q).traceFailed then s
  else (s.updQueue t q fun x => { x with traceFailed := true }).queueFault t q e a gid

/-! ## %dcause (R92) -/

/-- An event counted by its code and PC, or into OVFL, which saturates as COUNT does (DESIGN CHOICE, log 86). -/
def DCause.record (d : DCause) (code : Byte) (pc : Dword) : DCause :=
  if d.entries.any (fun e => e.code == code && e.pc == pc) then
    { d with entries := d.entries.map fun e =>
        if e.code == code && e.pc == pc then { e with count := if e.count == BitVec.allOnes 32 then e.count else e.count + 1 }
        else e }
  else if d.entries.length < 16 then { d with entries := d.entries ++ [⟨code, 1, pc⟩] }
  else { d with ovfl := if d.ovfl == BitVec.allOnes 32 then d.ovfl else d.ovfl + 1 }

/-- An event of a grid outside any thread's turn order: at DL0 it appears at once, above it is published at the next
boundary (R92). -/
def State.gridEvent (s : State) (g : Nat) (code : Byte) (pc : Dword) : State :=
  s.updGrid g fun x =>
    if x.dl == 0 then { x with dcause := x.dcause.record code pc }
    else { x with pendingEvents := x.pendingEvents ++ [(code, pc)] }

/-- A buffered effect of a thread, in its place in the order of R87. -/
def State.addEffect (s : State) (b tid : Nat) (pc : Dword) (kind : EffKind) : State :=
  match s.block? b with
  | none => s
  | some k => s.updGrid k.grid fun g =>
      { g with effects := g.effects ++ [⟨k.core, k.path, b, tid, g.effSeq, pc, kind⟩], effSeq := g.effSeq + 1 }

/-- An event of a thread's instruction (R92). -/
def State.threadEvent (s : State) (b tid : Nat) (code : Byte) (pc : Dword) : State :=
  match s.block? b with
  | none => s
  | some k =>
    match s.grid? k.grid with
    | none => s
    | some g => if g.dl == 0 then s.gridEvent k.grid code pc else s.addEffect b tid pc (.event code)

/-! ## Timelines of a block (R189, R338) -/

/-- The largest n such that every number 1 … n is in the list, from a starting n. -/
def timelineValue (done : List (Nat × Nat)) (k : Nat) : Nat → Nat → Nat
  | 0, n => n
  | fuel + 1, n => if done.contains (k, n + 1) then timelineValue done k fuel (n + 1) else n

/-- The counters tl0-tl3 brought up to what has completed. -/
def Block.settleTimelines (k : Block) : Block :=
  [0, 1, 2, 3].foldl (fun k i =>
    { k with tl := Sparse.set 0 k.tl i (BitVec.ofNat 64 (timelineValue k.tlDone i (k.tlDone.length + 1) (k.tlc i).toNat)) }) k

/-- Operation `num` on timeline k of a block has completed; at DL1 and above the counter moves at a boundary (R348). -/
def State.tlComplete (s : State) (b k num : Nat) : State :=
  let dl := match s.gridOf b with | some g => g.dl | none => 0
  s.updBlock b fun x =>
    let x := { x with tlDone := x.tlDone ++ [(k, num)] }
    if dl == 0 then x.settleTimelines else x

/-- The next posting number of timeline k, taken (R338). -/
def State.tlPosted (s : State) (b k : Nat) : Nat × State :=
  match s.block? b with
  | none => (0, s)
  | some x =>
    let n := Sparse.get 0 x.tlPost k + 1
    (n, s.setBlock b { x with tlPost := Sparse.set 0 x.tlPost k n })

/-! ## Handles (R120-R125) -/

/-- The fields of a handle (R120). -/
def hHome (h : Dword) : BitVec 10 := h.extractLsb' 54 10
def hSlot (h : Dword) : Nat := (h.extractLsb' 40 14).toNat
def hGen (h : Dword) : BitVec 24 := h.extractLsb' 16 24
def hTenant (h : Dword) : Nat := (h.extractLsb' 10 6).toNat

/-- A handle from its fields. -/
def mkHandle (home : BitVec 10) (slot : Nat) (gen : BitVec 24) (tenant : Nat) : Dword :=
  home ++ BitVec.ofNat 14 slot ++ gen ++ BitVec.ofNat 6 tenant ++ 0#10

/-- Whether the entry of a handle homed here has been freed since (R121). A slot beyond a share that has shrunk keeps its
entry until then (R56, R122). -/
def State.gone (s : State) (h : Dword) : Bool :=
  let e := s.sluice (hTenant h) (hSlot h)
  e.gen != hGen h || e.st == .free

/-- Whether a handle homed here is stale: no such slot in the share, or another generation (R120). A slot that is free
is stale as well, for its generation rose when it was freed. -/
def State.stale (s : State) (h : Dword) : Bool :=
  decide ((s.tenant (hTenant h)).slshare.toNat ≤ hSlot h) || s.gone h

/-- Whether a thread awaits a handle. An AWAIT that began before the HDROP completes on the entry's final state, so the
entry stays until it has left (R268). -/
def State.awaited (s : State) (h : Dword) : Bool :=
  s.blocks.any fun e => e.2.threads.any fun th => match th.status with
    | .waiting (.awaitH h' _ _ _ _) => h' == h
    | _ => false

/-- An entry freed once it is dropped, its task has ended and no IVO waits on it (R121, R122). -/
def State.reclaim (s : State) (t slot : Nat) : State :=
  let kept := s.awaited (mkHandle s.fabric.devid slot (s.sluice t slot).gen t)
  s.updSluice t slot fun e =>
    if !kept && e.st != .free && e.dropped && e.done && e.ivos.isEmpty then { Sluice.reset with gen := e.gen + 1, owner := e.owner } else e

/-- The status word of a broken handle (R125). -/
def statusWord (code hops : Byte) (reason : BitVec 2) : Word := 0#14 ++ reason ++ hops ++ code

/-- The message that tells a device of a broken handle: the handle, code, hop count and reason in INL (log 8). -/
def hbkMsg (src dst : BitVec 10) (h : Dword) (code hops : Byte) (reason : BitVec 2) : Msg :=
  mkMsg 0x14 src dst (hTenant h) 5 0 0 0 (0#174 ++ reason ++ hops ++ code ++ h) []

/-- A hop count one higher, saturating at 255 (R49). -/
def hopUp (h : Byte) : Byte := if h == 255 then 255 else h + 1

/-- What is known of a handle homed on another device. -/
def State.foreign? (s : State) (h : Dword) : Option Sluice := (s.foreign.find? fun e => e.1 == h).map (·.2)

def State.updForeign (s : State) (h : Dword) (f : Sluice → Sluice) : State :=
  { s with foreign := s.foreign.map fun e => if e.1 == h then (e.1, f e.2) else e }

/-- An entry made BROKEN: its task has ended, and nothing waits on it any more. -/
def Sluice.broken (e : Sluice) (code hops : Byte) (reason : BitVec 2) : Sluice :=
  { e with st := .broken, done := true, code := code, hops := hops, reason := reason, ivos := [] }

/-- A message of handle traffic; one that no route carries posts INTEG, "no route" (R33, R44). -/
def State.tell (s : State) (m : Msg) : State :=
  match s.send m with
  | some s => s
  | none => s.postEvent m.tenant.toNat (FaultRec.integ 3)

/-- A handle breaks: at its home the entry becomes BROKEN, the devices of its waiters are told, its posting on tl3 completes, and every IVO queued on it
breaks in turn with one hop more; a handle homed elsewhere gets HBK (R49, R124, R338). -/
def State.breakHandle (s : State) (fuel : Nat) (h : Dword) (code hops : Byte) (reason : BitVec 2) : State :=
  match fuel with
  | 0 => s
  | fuel + 1 =>
    if hHome h == s.fabric.devid then
      let t := hTenant h
      let e := s.sluice t (hSlot h)
      if s.gone h || e.st == .broken || e.st == .ready then s
      else
        let s := s.updSluice t (hSlot h) fun e => e.broken code hops reason
        let s := e.waiters.foldl (fun s d => s.tell (hbkMsg s.fabric.devid d h code hops reason)) s
        let s := if e.tlNum == 0 then s else s.tlComplete e.block 3 e.tlNum
        let s := e.ivos.foldl (fun s v => s.breakHandle fuel v.handle code (hopUp hops) reason) s
        s.reclaim t (hSlot h)
    else
      let s := s.tell (hbkMsg s.fabric.devid (hHome h) h code hops reason)
      match s.foreign? h with
      | none => s
      | some e =>
        let s := s.updForeign h fun e => e.broken code hops reason
        e.ivos.foldl (fun s v => s.breakHandle fuel v.handle code (hopUp hops) reason) s

/-- How deep a chain of invocations can be followed at once. -/
def chainFuel : Nat := 16384

/-- What a device that is not the home learns of a broken handle: every IVO that it holds for it breaks (R49). -/
def State.breakKnown (s : State) (h : Dword) (code hops : Byte) (reason : BitVec 2) : State :=
  match s.foreign? h with
  | none => s
  | some e => e.ivos.foldl (fun s v => s.breakHandle chainFuel v.handle code (hopUp hops) reason)
      (s.updForeign h fun e => e.broken code hops reason)

/-! ## Stopping blocks and ending threads -/

/-- A thread leaves the open records that suspend it; a record left with no thread is resolved (R75). -/
def State.dropFromRecords (s : State) (t : Nat) (p : Nat → Nat → Bool) : State :=
  s.updTenant t fun x => { x with fq := { x.fq with
    opened := (x.fq.opened.map fun o => { o with threads := o.threads.filter (fun e => !p e.1 e.2) }).filter
      (fun o => !o.threads.isEmpty || (o.record.code == BitVec.ofNat 8 cVIEWPOOL && o.record.cause == 1)) } }

/-- A block's quads leave every bin and bundle of its core (R143, R142). -/
def State.unfileBlock (s : State) (b : Nat) : State :=
  match s.block? b with
  | none => s
  | some k =>
    let s := s.updCore k.core fun c => { c with
      bins := (c.bins.map fun n => { n with entries := n.entries.filter (fun e => e.block != b) }).filter
        (fun n => !n.entries.isEmpty || (match n.key with | .bolt kb _ _ => kb != b | .pc kb _ _ => kb != b && n.no != 255))
      bundles := c.bundles.filter (fun u => u.block != b)
      bolts := c.bolts.filter (fun r => r.block != b)
      rotation := c.rotation.filter (fun id => !(c.bundles.any (fun u => u.id == id && u.block == b))) }
    s.setBlock b { k with quads := k.quads.map fun (q, d) => (q, { d with place := .gone }) }

/-- A block is stopped, as under KILL: its threads take no further effect, its records and pending results go, and the
children of its open fork stop with it (R75, R115). Its engine operations run on until they retire. -/
def State.stopBlock (s : State) (fuel : Nat) (b : Nat) : State :=
  match fuel with
  | 0 => s
  | fuel + 1 =>
    match s.block? b with
    | none => s
    | some k =>
      let s := s.unfileBlock b
      let s := s.updBlock b fun k => { k with
        threads := k.threads.map fun t => { t with status := .exited }
        fork := k.fork.map fun f => { f with next := f.n }
        specs := k.specs, state := if k.state == .saved then .saved else .running, lackSince := none, granted := none, lackUse := none }
      let s := { s with
        pending := s.pending.filter (fun p => p.block != b)
        issue := match s.issue with
          | some i => if i.block == b then some { i with lanes := [] } else some i
          | none => none }
      let s := s.dropFromRecords k.tenant (fun b' _ => b' == b)
      s.blocks.foldl (fun s e => if e.2.parent == some b then s.stopBlock fuel e.1 else s) s

/-- Views nest at most eight deep (R96), so a stop reaches no deeper. -/
def nestFuel : Nat := 10

/-- A grid's blocks are stopped. -/
def State.stopGrid (s : State) (g : Nat) : State :=
  s.blocks.foldl (fun s e => if e.2.grid == g then s.stopBlock nestFuel e.1 else s) s

/-- A task fails: its blocks stop and its handle breaks with this code and reason (R124). -/
def State.failTask (s : State) (g : Nat) (code : Byte) (reason : BitVec 2) : State :=
  match s.grid? g with
  | none => s
  | some x =>
    match x.task with
    | none => s
    | some t =>
      let s := s.setGrid g { x with task := some { t with failed := true } }
      let s := s.stopGrid g
      s.breakHandle chainFuel t.handle code 0 reason

/-! ## Taking a trap (R220-R223, R225) -/

/-- A trap as an instruction raises it: what the record says, whether R220 delivers it to handlers, and whether it
stems from translation (R67). -/
structure Trap where
  code : Nat
  cause : Nat
  access : Nat := 0
  addr : Nat := 0
  aux0 : Nat := 0
  aux1 : Nat := 0
  toHandler : Bool := true
  xl : Bool := false
  deriving DecidableEq, Repr

/-- A trap with the delivery that R220 gives its code and cause. -/
def Trap.of (code cause : Nat) : Trap :=
  { code := code, cause := cause
    toHandler :=
      if code = cXLATE then false
      else if code = cPROT then cause == 6 || cause == 8
      else if code = cVIEWPOOL then cause != 1
      else true }

/-- A fault of translation or protection at an address, by an access of this kind (R67, R74). -/
def Trap.ofXlate (e : Err) (access addr : Nat) : Trap :=
  { Trap.of e.1 e.2 with access := access, addr := addr, xl := e.1 == cXLATE || e.1 == cPROT }

/-- The record of a trap of one thread, with RPC or SEQ in dword 0 (R74, R222). -/
def State.trapRecord (s : State) (b tid : Nat) (pc : Dword) (t : Trap) : FaultRec :=
  match s.block? b with
  | none => FaultRec.zero
  | some k =>
    match s.grid? k.grid with
    | none => FaultRec.zero
    | some g => {
        seq := 0, code := BitVec.ofNat 8 t.code, cause := BitVec.ofNat 8 t.cause, access := BitVec.ofNat 3 t.access
        queue := BitVec.ofNat 4 g.queue, count := 1, grid := g.gid, block := k.bid, thread := BitVec.ofNat 11 tid
        core := BitVec.ofNat 9 k.core, pc := pc, addr := BitVec.ofNat 64 t.addr
        aux0 := BitVec.ofNat 64 t.aux0, aux1 := BitVec.ofNat 64 t.aux1 }

/-- The eight dwords of %trec: the record with RPC in place of SEQ, CLPOS in place of COUNT, and CORE zero (R222). -/
def trecOf (r : FaultRec) (rpc : Dword) (clpos : Nat) : List Dword :=
  [rpc,
   BitVec.ofNat 64 (r.code.toNat + r.cause.toNat * 2 ^ 8 + r.access.toNat * 2 ^ 16 + r.queue.toNat * 2 ^ 24
     + clpos * 2 ^ 32),
   r.grid,
   BitVec.ofNat 64 (r.block.toNat + r.thread.toNat * 2 ^ 32),
   r.pc, r.addr, r.aux0, r.aux1]

/-- The kernel under which a block runs (R249). -/
def State.kernelOf (s : State) (b : Nat) : Option Kernel := (s.gridOf b).map (·.kernel)

/-- Entry to the handler (R223): the record goes to %trec, HM is set, PX is cleared for FPX, and the program counter
becomes the handler's address. -/
def Thread.enterHandler (th : Thread) (r : FaultRec) (rpc : Dword) (clpos : Nat) (handler : Dword) : Thread :=
  let th := (trecOf r rpc clpos).zipIdx.foldl (fun th e => th.setTrec e.2 e.1) th
  let th := if r.code == BitVec.ofNat 8 cFPX then th.clearPx else th
  { th with hm := true, pc := handler, clpos := 0, status := .running, keep := false, after := none
            released := false, pages := [], captured := [] }

/-- Whether two suspending records merge: by core, page, access and code where they stem from translation, otherwise
by core, PC, code and cause (R67, R225). -/
def mergeKey (o : OpenRec) (r : FaultRec) (byPage : Bool) : Bool :=
  o.byPage == byPage && o.record.core == r.core && o.record.code == r.code
  && (if byPage then o.record.access == r.access && o.record.addr.toNat / 2 ^ 17 == r.addr.toNat / 2 ^ 17
      else o.record.pc == r.pc && o.record.cause == r.cause)

/-- A thread suspends on a record, a new one or one it merges into (R225). -/
def State.suspend (s : State) (b tid : Nat) (r : FaultRec) (byPage : Bool) : State :=
  match s.block? b with
  | none => s
  | some k =>
    let t := k.tenant
    match (s.tenant t).fq.opened.find? (fun o => mergeKey o r byPage) with
    | some o =>
      let s := s.updTenant t fun x => { x with fq := { x.fq with opened := x.fq.opened.map fun p =>
        if p.record.seq == o.record.seq then { p with threads := p.threads ++ [(b, tid)] } else p } }
      s.updThread b tid fun th => { th with status := .suspended o.record.seq }
    | none =>
      let (n, s) := s.takeSeq t
      let r := { r with seq := n }
      let s := s.updTenant t fun x => { x with fq := { x.fq with
        opened := x.fq.opened ++ [⟨r, byPage, false, [(b, tid)]⟩] } }
      let s := s.updThread b tid fun th => { th with status := .suspended n }
      s.postRecord t true r

/-- TAKING AN EXCEPTION. A trap of one thread at the instruction at word `pos` of the clause at `hdr`, to resume at
word `rpos` of the clause at `rhdr` (R221). It goes to the kernel's handler where R220 delivers its code, the header
names a handler and HM is clear (R223); otherwise the thread of a task fails its task, unless the trap stems from
translation, and any other thread suspends (R124, R225). -/
def State.takeTrap (s : State) (b tid : Nat) (hdr : Dword) (pos : Nat) (rhdr : Dword) (rpos : Nat) (t : Trap) : State :=
  match s.block? b, s.gridOf b with
  | some k, some g =>
    let pc := hdr + BitVec.ofNat 64 (4 * pos)
    let r := s.trapRecord b tid pc t
    let th := k.thread tid
    if t.toHandler && g.kernel.handler != 0 && !th.hm then
      s.updThread b tid fun th =>
        th.enterHandler r (rhdr + BitVec.ofNat 64 (4 * rpos)) rpos (g.kernel.addr + g.kernel.handler.setWidth 64)
    else
      -- PX is cleared on delivery (R197), to a handler or not
      let s := s.updThread b tid fun th =>
        let th := { th with pc := rhdr, clpos := rpos, keep := false, after := none, released := false, pages := [], captured := [] }
        if t.code == cFPX then th.clearPx else th
      if g.task.isSome && !t.xl then
        (s.failTask k.grid r.code 0).postEvent k.tenant r
      else s.suspend b tid r t.xl
  | _, _ => s

/-- RETURNING FROM AN EXCEPTION, the part of ERET that cannot fail: HM is cleared and the program counter becomes
%trec0, as the clause header it lies in and the position there (R224). -/
def Thread.leaveHandler (th : Thread) : Thread :=
  let clpos := bitsAt (th.trecAt 1).toNat 32 4
  { th with hm := false, pc := th.trecAt 0 - BitVec.ofNat 64 (4 * clpos), clpos := clpos, keep := false }

/-- RESUME releases every thread suspended on a record, and so resolves it (R75, R225). -/
def State.resumeRecord (s : State) (t seq : Nat) : State :=
  match (s.tenant t).fq.opened.find? (fun o => o.record.seq == seq) with
  | none => s
  | some o =>
    let s := s.updTenant t fun x => { x with fq := { x.fq with
      opened := x.fq.opened.filter (fun p => p.record.seq != seq)
      held := x.fq.held } }
    o.threads.foldl (fun s e => s.updThread e.1 e.2 fun th =>
      if th.status == .suspended seq then { th with status := .running } else th) s

end Sys2Proof.Machine
end

