-- ==== Sys2Proof/Machine/Bundles.lean ====
section
/-! DEFINITION. Quads, bins and bundles: keys, filing, drawing, divergence, splits (R140-R150), and the driver that runs
an instruction over the active lanes of the clause being issued (R235, R242). -/

namespace Sys2Proof.Machine

/-! ## Quads -/

/-- The role that a thread belongs to (R154). -/
def Kernel.roleOf (n : Kernel) (tid : Nat) : Nat :=
  match findIdx (fun (r : Role) => decide (r.first ≤ tid ∧ tid < r.first + r.count)) n.roles 0 with
  | some (i, _) => i
  | none => 0

/-- The register budget of a thread's role, and the registers charged for it (R154). -/
def Kernel.budget (n : Kernel) (tid : Nat) : Nat := (n.roles.getD (n.roleOf tid) ⟨0, 0, 0⟩).regs

def Kernel.charge (n : Kernel) (tid : Nat) : Nat :=
  let b := n.budget tid
  if b = 255 then 256 else b

/-- The register charge of a block's threads (R154). -/
def Kernel.totalCharge (n : Kernel) : Nat :=
  n.roles.foldl (fun a r => a + r.count * (if r.regs = 255 then 256 else r.regs)) 0

/-- The threads of quad q that exist (R140). -/
def Block.quadThreads (k : Block) (q : Nat) : List Nat := (List.range 4).filterMap fun i =>
  if 4 * q + i < k.T then some (4 * q + i) else none

/-- The key of a quad: the lowest program counter among its lanes that can issue (R141; log 10), or the counter that
YIELD gave it for one clause while a lane stands there. -/
def Block.quadKey (k : Block) (q : Nat) : Option Dword :=
  let pcs := (k.quadThreads q).filterMap fun t => let th := k.thread t; if th.canIssue then some th.pc else none
  match (k.quad q).yielded with
  | some y => if pcs.contains y then some y else minPc pcs
  | none => minPc pcs
where
  minPc : List Dword → Option Dword
    | [] => none
    | p :: l => match minPc l with
      | none => some p
      | some m => some (if p.toNat ≤ m.toNat then p else m)

/-- Whether every lane of a quad has exited (R141). -/
def Block.quadExited (k : Block) (q : Nat) : Bool := (k.quadThreads q).all fun t => (k.thread t).exited

/-! ## Bins (R143) -/

/-- The lowest free bin number below 255; 255, the spill bin, where none is free. -/
def Core.freeBin (c : Core) : Nat :=
  ((List.range 255).find? fun n => !(c.bins.any fun b => b.no == n)).getD 255

/-- Whether a die's arithmetic clock is gated (R16). -/
def State.gatedDie (s : State) (d : Nat) : Bool := onBit s.pkg.gated d

/-- The cycles of a die's arithmetic clock: those of the device but for such as it was gated (R2, R16). -/
def State.dieTime (s : State) (d : Nat) : Nat := s.cycle - Sparse.get 0 s.pkg.still d

/-- The clock by which placements wait: that of edge die E0, which carries the dispatcher (R2, R27, R81). -/
def State.placeTime (s : State) : Nat := s.dieTime 8

/-- The time by which bin ages are counted: cycles of the core's die at DL0, rounds of the Governor above (R2, R84, R146). -/
def State.binTime (s : State) (dl : BitVec 2) (core : Nat) : Nat :=
  if dl == 0 then s.dieTime (core / 64) else (s.core core).round

/-- A quad filed in the bin of its key, or in the spill bin (R143). -/
def Core.fileEntry (c : Core) (e : BinEntry) : Core :=
  let key := BinKey.pc e.block e.role e.pc
  if c.bins.any (fun n => n.key == key && n.no != 255) then
    { c with bins := c.bins.map fun n => if n.key == key && n.no != 255 then { n with entries := n.entries ++ [e] } else n }
  else
    let no := c.freeBin
    if no == 255 && c.bins.any (fun n => n.no == 255) then
      { c with bins := c.bins.map fun n => if n.no == 255 then { n with entries := n.entries ++ [e] } else n }
    else { c with bins := c.bins ++ [⟨no, key, [e]⟩] }

/-- A quad filed into the bin of its key; a quad with no lane that can issue, or already filed, is left (R143). -/
def State.fileQuad (s : State) (b q : Nat) : State :=
  match s.block? b, s.gridOf b with
  | some k, some g =>
    match k.quadKey q with
    | none => s
    | some pc =>
      if (k.quad q).place == .bin then s
      else
        let role := g.kernel.roleOf (4 * q)
        let s := s.updCore k.core fun c => c.fileEntry ⟨b, q, role, pc, s.binTime g.dl k.core⟩
        s.updBlock b fun k => k.updQuad q fun d => { d with place := .bin }
  | _, _ => s

/-- Quads filed in ascending quad number. -/
def State.fileQuads (s : State) (b : Nat) (qs : List Nat) : State :=
  (sortBy (fun a b => decide (a < b)) qs).foldl (fun s q => s.fileQuad b q) s

/-! ## Bundles (R142, R144, R145) -/

def State.bundle? (s : State) (core id : Nat) : Option Bundle := (s.core core).bundles.find? fun u => u.id == id

def State.updBundle (s : State) (core id : Nat) (f : Bundle → Bundle) : State :=
  s.updCore core fun c => { c with bundles := c.bundles.map fun u => if u.id == id then f u else u }

/-- The clause in which a thread's bundle stands still, where the thread is a lane of it, with its core and bundle. -/
def State.pausedOf (s : State) (b tid : Nat) : Option (Nat × Nat × Issue) :=
  match s.block? b with
  | none => none
  | some k => match (k.quad (tid / 4)).place with
    | .bundle id => ((s.bundle? k.core id).bind (·.paused)).bind fun j =>
        if j.lanes.any fun l => l.tid == tid then some (k.core, id, j) else none
    | _ => none

/-- The clause in which a bundle stands still changed. -/
def State.updPaused (s : State) (core id : Nat) (f : Issue → Issue) : State :=
  s.updBundle core id fun u => { u with paused := u.paused.map f }

/-- The clause of which a thread is a lane: the one being issued, or one in which its bundle stands still. -/
def State.clauseOf (s : State) (b tid : Nat) : Option Issue :=
  match s.issue.bind fun i => if i.block == b && i.lanes.any (fun l => l.tid == tid) then some i else none with
  | some i => some i
  | none => (s.pausedOf b tid).map (·.2.2)

/-- Where a thread stands: its clause, and the word there. Within a clause it is the word that the clause has reached, or the
one at which the thread goes on (R139, R228). -/
def State.standsAt (s : State) (b tid : Nat) : Dword × Nat :=
  match s.clauseOf b tid with
  | some i => (i.pc, max i.pos (((i.lanes.find? fun l => l.tid == tid).map (·.start)).getD 0))
  | none => ((s.thread b tid).pc, (s.thread b tid).clpos)

/-- The program counter of a thread. -/
def State.pcOf (s : State) (b tid : Nat) : Dword := (s.standsAt b tid).1 + BitVec.ofNat 64 (4 * (s.standsAt b tid).2)

def State.dropBundle (s : State) (core id : Nat) : State :=
  s.updCore core fun c => { c with bundles := c.bundles.filter (fun u => u.id != id), rotation := c.rotation.filter (· != id) }

/-- Every quad of a bundle filed into the bin of its key; the bundle ceases to exist (R145). -/
def State.reformBundle (s : State) (core id : Nat) : State :=
  match s.bundle? core id with
  | none => s
  | some u =>
    let s := s.dropBundle core id
    let s := s.updBlock u.block fun k => u.slots.foldl (fun k e => k.updQuad e.2 fun d => { d with place := .gone }) k
    s.fileQuads u.block (u.slots.map (·.2))

/-- Quads whose lanes have all exited leave their bundle; a bundle without quads ceases to exist (R141). -/
def State.sweepBundle (s : State) (core id : Nat) : State :=
  match s.bundle? core id, (s.bundle? core id).bind (fun u => s.block? u.block) with
  | some u, some k =>
    let (out, stay) := u.slots.partition fun e => k.quadExited e.2
    let s := s.updBlock u.block fun k => out.foldl (fun k e => k.updQuad e.2 fun d => { d with place := .gone }) k
    if stay.isEmpty then s.dropBundle core id else s.updBundle core id fun u => { u with slots := stay }
  | some _, none => s.dropBundle core id
  | none, _ => s

/-- The key that continues as the bundle: the most quads; on a tie the fall-through counter, otherwise the lowest
(R144). -/
def majorityKey (keys : List Dword) (fall : Option Dword) : Option Dword :=
  let count := fun p => (keys.filter (· == p)).length
  let best := keys.foldl (fun m p => max m (count p)) 0
  let tied := dedup (keys.filter fun p => count p == best)
  match fall with
  | some f => if tied.contains f then some f else low tied
  | none => low tied
where
  low : List Dword → Option Dword
    | [] => none
    | p :: l => match low l with
      | none => some p
      | some m => some (if p.toNat ≤ m.toNat then p else m)

/-- A bundle settles on one key: where its quads differ it diverges, and the others are filed (R144). -/
def State.settleBundle (s : State) (core id : Nat) (fall : Option Dword) : State :=
  let s := s.sweepBundle core id
  match s.bundle? core id, (s.bundle? core id).bind (fun u => s.block? u.block) with
  | some u, some k =>
    let keys := u.slots.filterMap fun e => (k.quadKey e.2).map fun p => (e, p)
    match majorityKey (keys.map (·.2)) fall with
    | none => s
    | some win =>
      let losers := (keys.filter fun e => e.2 != win).map fun e => e.1.2
      if losers.isEmpty then s
      else
        let s := s.updBundle core id fun u => { u with slots := u.slots.filter fun e => !losers.contains e.2 }
        let s := s.updBlock u.block fun k => losers.foldl (fun k q => k.updQuad q fun d => { d with place := .gone }) k
        s.fileQuads u.block losers
  | _, _ => s

/-- A bundle of these quads in slots 0, 1, …, which leave their bins (R142). -/
def State.formBundle (s : State) (core b role : Nat) (qs : List Nat) : State :=
  let (id, s) := s.fresh
  let s := s.updCore core fun c => { c with
    bins := (c.bins.map fun n => { n with entries := n.entries.filter fun e => !(e.block == b && qs.contains e.quad) }).filter
      fun n => !n.entries.isEmpty || (match n.key with | .bolt .. => true | .pc .. => false)
    bundles := c.bundles ++ [⟨id, b, role, qs.zipIdx.map (fun e => (e.2, e.1)), false, false, none⟩] }
  s.updBlock b fun k => qs.foldl (fun k q => k.updQuad q fun d => { d with place := .bundle id }) k

/-- A thread that has become able to issue: its quad is filed if it stands nowhere, and a bundle that stands between clauses
settles. -/
def State.wakeQuad (s : State) (b tid : Nat) : State :=
  match s.block? b with
  | none => s
  | some k =>
    match (k.quad (tid / 4)).place with
    | .gone => s.fileQuad b (tid / 4)
    | .bin => s
    | .bundle id =>
      if s.issue.any (fun i => i.bundle == id && i.core == k.core) || (s.bundle? k.core id).any fun u => u.paused.isSome then s
      else s.settleBundle k.core id none

/-- A thread made running, to execute again the instruction at which it stands. -/
def State.wake (s : State) (b tid : Nat) : State :=
  (s.updThread b tid fun th => { th with status := .running, after := none }).wakeQuad b tid

/-- Threads of a grid at DL1 and above that stand at a clause boundary with their quota spent stop (R86). -/
def State.stopAtQuota (s : State) (b : Nat) : State :=
  match s.gridOf b with
  | none => s
  | some g =>
    if g.dl == 0 then s
    else s.updBlock b fun k => { k with threads := k.threads.zipIdx.map fun e =>
      if e.1.status == .running && e.1.clpos == 0 && decide (g.quota ≤ e.1.turnRetired) && (s.clauseOf b e.2).isNone then
        { e.1 with status := .quota }
      else e.1 }

/-- A waiting thread leaves its wait and passes the instruction, in the clause in which its bundle stands still or by itself;
where that ends its clause with its quota spent, it stops (R85, R86). -/
def State.leaveWait (s : State) (b tid : Nat) : State :=
  match (s.thread b tid).status, s.pausedOf b tid with
  | .waiting _, some (c, id, j) =>
    let go := (((s.thread b tid).after.map (·.2)).getD (j.pos + 1))
    (s.updThread b tid fun th => { th with
        status := .running, after := none, released := false, pages := [], captured := []
        retired := th.retired + 1, turnRetired := th.turnRetired + 1 }).updPaused c id fun j =>
      { j with lanes := j.lanes.map fun l => if l.tid == tid then { l with start := go } else l }
  | .waiting _, none =>
    ((s.updThread b tid fun th =>
      let a := th.after.getD (th.pc, th.clpos)
      { th with status := .running, pc := a.1, clpos := a.2, keep := a.2 != 0, after := none, released := false, pages := [], captured := []
                retired := th.retired + 1, turnRetired := th.turnRetired + 1 }).stopAtQuota b).wakeQuad b tid
  | _, _ => s

/-! ## The clause being issued (R235, R242) -/

/-- The header of the clause being issued. -/
def Issue.header (i : Issue) : Header := Header.ofWord i.hdr

/-- The address of the next clause in sequence (R233). -/
def Issue.next (i : Issue) : Dword := i.pc + BitVec.ofNat 64 (4 * (i.header.n.toNat + 1))

/-- A lane leaves the clause. -/
def State.dropLane (s : State) (tid : Nat) : State :=
  { s with issue := s.issue.map fun i => { i with lanes := i.lanes.filter fun l => l.tid != tid } }

/-- A completion flag is set once every result that reports to it has been written, those of instructions of its clause that
have not issued yet among them (R156). -/
def State.settleFlag (s : State) (b tid f : Nat) : State :=
  if (s.pending.any fun p => p.block == b && p.tid == tid && p.flag == f) || (s.thread b tid).owed.contains f then s
  else s.updThread b tid fun th => th.setFlag f true

/-- A thread that has left its clause for good: what the rest of it would have reported is owed no longer (R156; log 84). -/
def State.releaseOwed (s : State) (b tid : Nat) : State :=
  let fs := (s.thread b tid).owed
  if fs.isEmpty then s
  else fs.foldl (fun s f => s.settleFlag b tid f) (s.updThread b tid fun th => { th with owed := [] })

/-- A lane at the end of its clause goes on to the next one; outside a handler, what the clause owed it is owed no longer. -/
def State.endLane (i : Issue) (s : State) (l : Lane) : State :=
  let s := s.updThread i.block l.tid fun th => { th with pc := i.next, clpos := 0, keep := false }
  if (s.thread i.block l.tid).hm then s else s.releaseOwed i.block l.tid

/-- The end of a clause: its lanes go on to the next clause, the bundle is filed where a REFORM asks for it, or
settles on a key (R144, R235, R259). -/
def State.finishClause (s : State) : State :=
  match s.issue with
  | none => s
  | some i =>
    let s := i.lanes.foldl (State.endLane i) s
    let s := ({ s with issue := none }).stopAtQuota i.block
    let s := s.updBundle i.core i.bundle fun u => { u with fell := true, hold := i.header.seta == 15 && decide (0 < i.longs) }
    let s := if i.reform then s.reformBundle i.core i.bundle else s.settleBundle i.core i.bundle (some i.next)
    s.updCore i.core fun c => { c with rotation := c.rotation.filter (· != i.bundle) }

/-- Number of words of an instruction (R237). -/
def wordsOf (i : Instr) : Nat := (encode i).length

/-- The instruction has issued: its lanes have passed it (R85), and the clause goes on or ends. -/
def State.afterInstr (s : State) (n : Nat) : State :=
  match s.issue with
  | none => s
  | some i =>
    let s := i.lanes.foldl (fun s l => if l.start ≤ i.pos then
      s.updThread i.block l.tid fun th => { th with
        retired := th.retired + 1, turnRetired := th.turnRetired + 1, released := false, pages := [], captured := [] } else s) s
    let s := { s with issue := some { i with pos := i.pos + n } }
    if i.pos + n > i.header.n.toNat then s.finishClause else s

/-- Whether a feature that an instruction needs is declared (R248): FORK 0, INVOKE 1, SPEC 2, rational 3, RNG 4. -/
def instrFeature : Instr → Option Nat
  | .fork _ _ => some 0
  | .invoke .. | .invokeOn .. => some 1
  | .spec _ => some 2
  | .rng .. => some 4
  | .fadd _ _ _ _ _ f _ | .fsub _ _ _ _ _ f _ | .fmul _ _ _ _ _ f _ | .fdiv _ _ _ _ _ f _
  | .ffma _ _ _ _ _ _ f _ | .fsqrt _ _ _ _ f _
  | .fmin _ _ _ _ f _ | .fmax _ _ _ _ f _ | .fminnum _ _ _ _ f _ | .fmaxnum _ _ _ _ f _
  | .fabs _ _ _ f _ | .fneg _ _ _ f _ | .fcmp _ _ _ _ _ f _ | .fclass _ _ _ f
  | .qmake _ _ _ _ _ f | .qmed _ _ _ _ _ f | .qnum _ _ _ f | .qden _ _ _ f | .qcanon _ _ _ f
  | .fcvti _ _ _ _ f _ | .icvtf _ _ _ _ f _ => if f.isRat then some 3 else none
  | .fcvt _ _ _ _ _ df sf _ => if df.isRat || sf.isRat then some 3 else none
  | _ => none

/-- Whether an instruction is long-latency whatever the mode (R156). -/
def instrLong (i : Instr) : Bool :=
  match i with
  | .ld .. | .lds .. | .ldc .. | .ldm .. | .atom .. | .atoms .. => true
  | i => (encodeFields i).elim false (fun e => e.cls == .lane) || instrFeature i == some 3

/-- Whether the lanes of an instruction after one that traps wait for it (R319 for MEM, R266 for INVOKE). -/
def instrOrders : Instr → Bool
  | .ld .. | .st .. | .lds .. | .sts .. | .ldc .. | .stc .. | .ldm .. | .stm .. | .atom .. | .atoms .. | .red ..
  | .discard .. | .stmc .. | .fence .. | .pref .. | .invoke .. | .invokeOn .. => true
  | _ => false

/-- What the clause being issued reads next, in its header's class. -/
def Issue.decodeNext (i : Issue) : Decoded :=
  match Cls.ofCode i.header.cls with
  | some c => decode c (i.words.drop (i.pos - 1))
  | none => .illegal 1 0

/-- The instruction at which a clause stands. -/
def Issue.instr (i : Issue) : Option Instr := match i.decodeNext with | .ok ins _ => some ins | .illegal .. => none

/-- A clause that stops at an instruction, to run it again: a long-latency one is counted once (R116, R156). -/
def Issue.again (j : Issue) : Issue := if j.instr.any instrLong then { j with longs := j.longs - 1 } else j

/-- What comes of one lane's instruction. -/
inductive LaneOut where
  /-- it is done -/
  | done (s : State)
  /-- it transfers: the lane leaves for the clause at this address -/
  | jump (s : State) (pc : Dword)
  /-- it traps; nothing it did stands -/
  | trap (t : Trap)
  /-- it traps, and what the state holds stands (a SPEC that recorded a version, an entry that was withdrawn) -/
  | trapIn (s : State) (t : Trap)
  /-- it waits; the lane is parked at this instruction -/
  | wait (s : State) (w : Wait)
  /-- the child lacks a slot (R116) -/
  | noSlot (s : State)
  /-- the thread has exited -/
  | out (s : State)
  deriving DecidableEq, Repr

/-- A lane stands at the instruction, which ends at word `rpos`, and knows where it goes on. -/
def State.stand (s : State) (i : Issue) (tid rpos : Nat) (st : TStatus) : State :=
  let past := i.header.n.toNat < rpos
  s.updThread i.block tid fun th => { th with
    status := st, pc := i.pc, clpos := i.pos, keep := true
    after := some (if past then i.next else i.pc, if past then 0 else rpos) }

/-- A lane parked at the instruction: it leaves the clause. -/
def State.park (s : State) (i : Issue) (tid rpos : Nat) (st : TStatus) : State := (s.stand i tid rpos st).dropLane tid

/-- The wait of a lane for an earlier one that has trapped (R319; log 11). -/
def State.behindLane (s : State) (b tid : Nat) : Wait :=
  let th := s.thread b tid
  .after tid (th.hm && (match th.status with | .suspended _ => true | _ => false))

/-- The lanes after a lane that trapped perform nothing until it resumes (R319, R266; log 11): those that would execute
this instruction wait for it. -/
def State.holdAfter (s : State) (i : Issue) (tid rpos : Nat) (rest : List Lane) : State :=
  let w := s.behindLane i.block tid
  rest.foldl (fun s l =>
    if (s.issue.map fun j => j.lanes.any fun m => m.tid == l.tid).getD false && l.pred && l.start ≤ i.pos then
      s.park i l.tid rpos (.waiting w) else s) s

/-- The same of a clause that stands still: the lane that has trapped leaves it, and those after it wait. -/
def State.holdPaused (s : State) (core id : Nat) (j : Issue) (tid : Nat) : State :=
  let w := s.behindLane j.block tid
  let later := if j.instr.any instrOrders then
      (((j.lanes.dropWhile fun l => l.tid != tid).drop 1).filter fun l => l.pred && decide (l.start ≤ j.pos)).map (·.tid)
    else []
  let s := later.foldl (fun s m => s.stand j m (j.pos + 1) (.waiting w)) s
  s.updPaused core id fun j => { j with lanes := j.lanes.filter fun l => l.tid != tid && !later.contains l.tid }

/-- Whether a bundle stands still in its clause while a lane of it waits so: the later lanes of an access to another device
follow it (R319), and at DL1 and above a wait that counts as running holds the bundle's place in the rotation (R84). -/
def Wait.pauses (dl0 : Bool) : Wait → Bool
  | .remote _ => true
  | .acks .. | .acquire .. | .matrix | .acc .. => !dl0
  | _ => false

/-- A lane that cannot pass the instruction stops its clause where it stands: the lanes before it have passed the
instruction, and the rest resume with it, at DL1 and above in the bundle's place in the rotation (R84, R116, R319). -/
def State.pauseAt (s : State) (i : Issue) (l : Lane) (rpos : Nat) (st : TStatus) : State :=
  match s.issue with
  | none => s
  | some j =>
    let past := (j.lanes.takeWhile fun m => m.tid != l.tid).filter fun m => decide (m.start ≤ i.pos)
    let s := past.foldl (fun s m => s.updThread i.block m.tid fun th => { th with
      retired := th.retired + 1, turnRetired := th.turnRetired + 1, released := false, pages := [], captured := [] }) s
    let lanes := j.lanes.map fun m => if past.contains m then { m with start := rpos } else m
    let s := s.updThread i.block l.tid fun th => { th with status := st, after := some (i.pc, rpos) }
    { s.updBundle i.core i.bundle fun u => { u with paused := some { j.again with lanes := lanes } } with issue := none }

/-- One lane's outcome made part of the machine; true where later lanes must wait for it. -/
def State.settleLane (s : State) (i : Issue) (l : Lane) (rpos : Nat) (o : LaneOut) : State × Bool :=
  match o with
  | .done s => (s, false)
  | .jump s pc =>
    ((s.updThread i.block l.tid fun th =>
        { th with pc := pc, clpos := 0, keep := false, retired := th.retired + 1, turnRetired := th.turnRetired + 1
                  released := false, pages := [], captured := [] }).dropLane l.tid, false)
  | .trap t =>
    let next := if t.code == cTRAP || t.code == cBKPT then rpos else i.pos
    let past := i.header.n.toNat < next
    let passed := if next = i.pos then 0 else 1
    let s := s.updThread i.block l.tid fun th => { th with
      retired := th.retired + BitVec.ofNat 64 passed, turnRetired := th.turnRetired + passed }
    ((s.takeTrap i.block l.tid i.pc i.pos (if past then i.next else i.pc) (if past then 0 else next) t).dropLane l.tid, true)
  | .trapIn s t => ((s.takeTrap i.block l.tid i.pc i.pos i.pc i.pos t).dropLane l.tid, true)
  | .wait s w => (if w.pauses (s.dl0 i.block) then s.pauseAt i l rpos (.waiting w) else s.park i l.tid rpos (.waiting w), false)
  | .noSlot s => (if s.dl0 i.block then s.park i l.tid rpos .noSlot else s.pauseAt i l rpos .noSlot, false)
  | .out s => (s.dropLane l.tid, false)

/-- The lanes of an instruction in ascending position (R319, R335). `ordered` says that lanes after one that traps
wait for it. -/
def State.laneLoop (s : State) (i : Issue) (rpos : Nat) (ordered : Bool) (f : State → Issue → Lane → LaneOut) :
    List Lane → State
  | [] => s
  | l :: rest =>
    let here := (s.issue.map fun j => j.lanes.any fun m => m.tid == l.tid).getD false
    if here && l.start ≤ i.pos then
      let (s, hold) := s.settleLane i l rpos (f s i l)
      if hold && ordered then (s.holdAfter i l.tid rpos rest) else s.laneLoop i rpos ordered f rest
    else s.laneLoop i rpos ordered f rest

/-! ## Tests 7 to 9 of R242, and the ceiling of R91 -/

/-- The ceiling of an instruction (R91); a RED is judged by its page. -/
def instrCeiling : Instr → Nat
  | .hpoll .. | .tbtest .. | .tlread .. => 0
  | .atom .. | .ldm .. | .stm .. | .stmc .. => 1
  | _ => 3

/-- Test 8: an operand beyond the role's budget (R154). -/
def operandWithin (o : Opnd) (budget : Nat) : Bool := o.reg == 255 || decide (o.reg.toNat + 2 ^ o.lg ≤ budget)

/-- The registers of parameter words that MASK substitutes (R240). -/
def pSubst (p : PBlock) : List (Nat × Word) :=
  [(0, p.pw0), (1, p.pw1), (2, p.pw2), (3, p.pw3)].filter fun e => onBit p.mask e.1

/-- The parameter block of a P-form instruction. -/
def instrParams : Instr → Option PBlock
  | .cpy _ _ _ _ p | .cpyg _ _ _ p | .cpys _ _ _ p | .cpyr _ _ _ _ p | .mma p | .nbgemv _ _ _ p => some p
  | _ => none

/-- The registers whose pending writes test 9 looks at: the operands; of an INVOKE only the first n argument words
(R266); x0-x7 as well for an EXIT or a BOLT of a task's thread 0 (R257, R273). -/
def instrTouched (i : Instr) (task0 : Bool) : List Nat :=
  let all := i.operands.flatMap fun o => if o.reg == 255 then [] else (List.range (2 ^ o.lg)).map fun j => o.reg.toNat + j
  let sub := match instrParams i with
    | some p => (pSubst p).map fun e => e.2.toNat % 256
    | none => []
  match i with
  | .invoke d a b c n =>
      [d.toNat, d.toNat + 1, a.toNat, a.toNat + 1, b.toNat] ++ (List.range n.toNat).map fun j => c.toNat + j
  | .invokeOn d a b c n =>
      [d.toNat, d.toNat + 1, a.toNat, a.toNat + 1, b.toNat, b.toNat + 1] ++ (List.range n.toNat).map fun j => c.toNat + j
  | .exit | .bolt .. => all ++ if task0 then List.range 8 else []
  | _ => all ++ sub

/-- Whether a thread has a mark on one of these registers or predicates that the wait mask does not cover (R157). Within a
clause no mark is covered: those that its wait covered went as it began (R291). -/
def Thread.uncovered (th : Thread) (wait : BitVec 12) (regs preds : List Nat) : Bool :=
  th.marks.any fun m =>
    (if m.isPred then preds.contains m.no && m.no != 7 else regs.contains m.no && m.no != 255)
    && !(decide (m.flag < 12) && onBit wait m.flag)

/-- Tests 6 to 9 of R242 on one lane, then the ceiling (R91). They are made whether or not the predicate holds. -/
def State.gate (s : State) (i : Issue) (l : Lane) (ins : Instr) : Option Trap :=
  match s.gridOf i.block with
  | none => none
  | some g =>
    let th := s.thread i.block l.tid
    let budget := g.kernel.budget l.tid
    let subs := ((instrParams ins).map pSubst).getD []
    let word := fun n => (i.words.getD (i.pos - 1 + n) 0).toNat
    match subs.find? (fun e => decide (2 ^ 8 ≤ e.2.toNat)) with
    | some e => some { Trap.of cILLEGAL 4 with addr := i.pc.toNat + 4 * (i.pos + 1 + e.1), aux0 := word (1 + e.1) }
    | none =>
      if ((instrFeature ins).map fun f => !onBit g.kernel.features f).getD false then some (Trap.of cOPERAND 2)
      else if !(ins.operands.all fun o => operandWithin o budget)
          || subs.any (fun e => e.2.toNat != 255 && decide (budget ≤ e.2.toNat)) then some (Trap.of cOPERAND 6)
      else if th.uncovered 0 (instrTouched ins (g.task.isSome && l.tid == 0 && (s.block? i.block).any fun k => k.parent.isNone)) (ins.predicates.map (·.toNat)) then
        some (Trap.of cOPERAND 4)
      else if l.pred && instrCeiling ins < g.dl.toNat then some (Trap.of cDLEVEL 1)
      else none

/-- An instruction run over its lanes: tests 6 to 9, then its own effect on each lane whose clause predicate holds.
With no clause being issued it does nothing. -/
def State.runLanes (s : State) (ins : Instr) (f : State → Issue → Lane → LaneOut) : State :=
  match s.issue with
  | none => s
  | some i =>
    let n := wordsOf ins
    let body := fun (s : State) (i : Issue) (l : Lane) =>
      match s.gate i l ins with
      | some t => LaneOut.trap t
      | none =>
        let s := if l.pred && instrCeiling ins == 0 then s.threadEvent i.block l.tid 0x03 (i.pc + BitVec.ofNat 64 (4 * i.pos)) else s
        if l.pred then f s i l else .done s
    (s.laneLoop i (i.pos + n) (instrOrders ins) body i.lanes).afterInstr n

/-- A lane function on the thread alone. -/
def onThread (f : Thread → Except Trap Thread) (s : State) (i : Issue) (l : Lane) : LaneOut :=
  match f (s.thread i.block l.tid) with
  | .ok th => .done (s.updThread i.block l.tid fun _ => th)
  | .error t => .trap t

/-- An instruction that acts on each lane's thread alone. -/
def State.runThreads (s : State) (ins : Instr) (f : Thread → Except Trap Thread) : State := s.runLanes ins (onThread f)

/-! ## Long-latency results (R156, R157) -/

/-- The flag that the nth long-latency instruction of a clause reports to: A for the first, then B, or A where B is 15; 15
where none is named (R156). -/
def flagFor (h : Header) (n : Nat) : Nat := if n ≤ 1 || h.setb == 15 then h.seta.toNat else h.setb.toNat

/-- The flag that the clause's current long-latency instruction reports to. The count already takes in the instruction that
reports. -/
def Issue.flagNow (i : Issue) : Nat := flagFor i.header i.longs

/-- One more long-latency instruction of the clause has issued. -/
def State.countLong (s : State) : State :=
  { s with issue := s.issue.map fun i => { i with longs := i.longs + 1 } }

/-- A long-latency instruction of a thread reports to a flag from now on. Its clause has cleared the flag as it issued, and it
is not cleared a second time; a handler that has used the flag meanwhile left it set, and it covers the result all the same
(R156, R224; log 84). -/
def Thread.report (th : Thread) (f : Nat) : Thread :=
  if th.owed.contains f then { th with owed := th.owed.erase f } else th.setFlag f false

/-- A pending result of a lane: it reports to its flag, the destinations are marked, and the result is written by a later
step. -/
def State.pend (s : State) (i : Issue) (l : Lane) (regs : List (Nat × Word)) (preds : List (Nat × Bool))
    (fl : BitVec 5) (ready remote : Bool) (how : Nat × Nat × Nat) (error : Option ReplyErr) : State :=
  let (id, s) := s.fresh
  let f := i.flagNow
  let s := s.updThread i.block l.tid fun th =>
    { th.report f with marks :=
        th.marks ++ (regs.filter (fun e => decide (e.1 < 255))).map (fun e => ⟨false, e.1, f⟩)
          ++ (preds.filter (fun e => decide (e.1 < 7))).map (fun e => ⟨true, e.1, f⟩) }
  { s with pending := s.pending ++ [⟨id, i.block, l.tid, i.pc + BitVec.ofNat 64 (4 * i.pos), f, regs, preds, fl, ready,
      remote, how, error, i.pos, [], [], none⟩] }

/-- The last result that has been made pending comes over a Noern-H link (R51). -/
def State.overHost (s : State) (t : Nat) (h : HomeAt) (access va : Nat) : State :=
  match h with
  | .host _ win _ off => { s with pending := s.pending.map fun (p : PendOp) =>
      if p.id == s.nextUid then { p with host := some (s.hostAddr t win off / 64, access, va) } else p }
  | _ => s

/-- A result whose reply carries an error: it is not written, and its thread takes the trap before the clause that
waits for it (R221). -/
def State.replyLost (s : State) (id : Nat) (e : ReplyErr) : State :=
  { s with pending := s.pending.map fun p => if p.id == id then { p with ready := true, error := some e } else p }

/-- A long-latency instruction over its lanes: it counts as one more before its lanes report. -/
def State.runLongLanes (s : State) (ins : Instr) (f : State → Issue → Lane → LaneOut) : State := s.countLong.runLanes ins f

/-- A long-latency instruction whose result is known at issue: registers, predicates and flags of each lane. -/
def State.runLong (s : State) (ins : Instr)
    (f : State → Issue → Lane → Except Trap (List (Nat × Word) × List (Nat × Bool) × BitVec 5)) : State :=
  s.runLongLanes ins fun s i l =>
    match f s i l with
    | .error t => .trap t
    | .ok (rs, ps, fl) => .done (s.pend i l rs ps fl true false (0, 0, 0) none)

/-- The words of a value as writes of ascending registers from r; number 255 discards them. -/
def regWrites (r : Nat) (ws : List Word) : List (Nat × Word) :=
  if r = 255 then [] else ws.zipIdx.map fun e => (r + e.2, e.1)

end Sys2Proof.Machine
end

