-- ==== Sys2Proof/Machine/Memory.lean ====
section
/-! DEFINITION. Views and their slots (R95-R106), the core caches, releases and acquires (R170-R175), and the global
load and store that instructions share (R171, R172, R87, R99, R136). -/

namespace Sys2Proof.Machine

/-! ## Views and slots -/

/-- The slot that a view holds for a granule (R102). -/
def State.slot? (s : State) (t v g : Nat) : Option Slot :=
  s.slots.find? fun x => x.tenant == t && x.vtag == v && x.granule == g

/-- The bytes of a tile's elements lie in rows; the index of address a among them (R130). -/
def tileIndex (taddr rows cols pitch size a : Nat) : Option Nat :=
  if a < taddr ∨ pitch = 0 then none
  else
    let r := (a - taddr) / pitch
    let c := (a - taddr) % pitch
    if r ≤ rows ∧ c < (cols + 1) * size then some (r * ((cols + 1) * size) + c) else none

/-- Bytes of an element of a format, at least one (R340). -/
def fmtSize (f : Fmt) : Nat := max 1 (f.bits / 8)

def SpecRec.index (r : SpecRec) (a : Nat) : Option Nat := tileIndex r.taddr r.rows r.cols r.pitch (fmtSize r.fmt) a

/-- The open speculative view with this tag. -/
def State.specView? (s : State) (v : Nat) : Option SpecView :=
  match Sparse.find s.views v with
  | some w => if w.spec then (s.block? w.opener).bind fun k => k.specs.find? fun x => x.vtag == v else none
  | none => none

/-- The views from one outwards to the root view, which is left out: the order in which R105 looks. -/
def State.viewChain (s : State) : Nat → Nat → List Nat
  | 0, _ => []
  | fuel + 1, v => if v = 0 then [] else v :: s.viewChain fuel (match Sparse.find s.views v with | some w => w.parent | none => 0)

/-- What a chain of views reads of n bytes at an address within one granule: the predicted tile of a speculative view,
its own working copy, otherwise what the enclosing views read; the root view reads memory (R105, R132). -/
def State.chainRead (s : State) (t : Nat) (va : Nat) (home : HomeAt) (n : Nat) : List Nat → List Byte
  | [] => s.readHome home n
  | v :: rest =>
    let below := match s.slot? t v (va / 128) with
      | some x => (x.working.drop (va % 128)).take n
      | none => s.chainRead t va home n rest
    match s.specView? v with
    | none => below
    | some w => below.zipIdx.map fun e => match w.record.index (va + e.2) with
        | some j => w.predicted.getD j 0
        | none => e.1

/-- A view's read of bytes in one granule. -/
def State.readIn (s : State) (t v va : Nat) (home : HomeAt) (n : Nat) : List Byte :=
  s.chainRead t va home n (s.viewChain nestFuel v)

/-- Millpond slots that a tenant uses: granules, Fantail versions and checkpoints (R103, R131, R134). -/
def State.slotsUsed (s : State) (t : Nat) : Nat :=
  (s.slots.filter fun x => x.tenant == t).length
  + (s.fantail.filter fun f => f.key.tenant == t).foldl (fun a f =>
      a + f.versions.length * divUp ((f.key.rows + 1) * (f.key.cols + 1) * fmtSize f.key.fmt) 256) 0
  + s.blocks.foldl (fun a e => if e.2.tenant == t then a + e.2.specs.foldl (fun a w => a + w.checkpoint.slots) 0 else a) 0

/-- Slots in a tenant's share: 4,096 for each MiB (R103). -/
def State.slotShare (s : State) (t : Nat) : Nat := (s.tenant t).mpshare.toNat * 4096

/-- The home of the start of the granule that holds an address. -/
def granuleHome (va : Nat) (h : HomeAt) : HomeAt := h.back (va % 128)

/-- The first write to a granule by the innermost view of a chain captures twin and working copy; none where the share
has no free slot (R102, R103, R116). -/
def State.captureIn (s : State) (t : Nat) (chain : List Nat) (va : Nat) (x : Xl) : Option State :=
  match chain with
  | [] => some s
  | v :: outer =>
    match s.slot? t v (va / 128) with
    | some _ => some s
    | none =>
      if s.slotsUsed t < s.slotShare t then
        let gh := granuleHome va x.home
        let bs := s.chainRead t (va / 128 * 128) gh 128 outer
        let pa := match gh with | .dev pa => pa | _ => 0
        some { s with slots := s.slots ++ [⟨t, v, va / 128, pa, x.leaf.fmt, x.leaf.redop, bs, bs⟩] }
      else none

/-- The capture for a write of a thread in view v. -/
def State.capture (s : State) (t v va : Nat) (x : Xl) : Option State := s.captureIn t (s.viewChain nestFuel v) va x

/-- Bytes replaced in a list from an index on. -/
def overlayAt (l : List Byte) (at_ : Nat) (bs : List Byte) : List Byte :=
  l.zipIdx.map fun e => if at_ ≤ e.2 ∧ e.2 < at_ + bs.length then bs.getD (e.2 - at_) 0 else e.1

/-- A write to a view's working copy. -/
def State.writeSlot (s : State) (t v va : Nat) (bs : List Byte) : State :=
  { s with slots := s.slots.map fun x =>
      if x.tenant == t && x.vtag == v && x.granule == va / 128 then { x with working := overlayAt x.working (va % 128) bs } else x }

/-- A VIEWPOOL record of a tenant is resolved when a child resumes (R118). -/
def State.resolvePool (s : State) (t : Nat) : State :=
  s.updTenant t fun x => { x with fq := { x.fq with
    opened := x.fq.opened.filter fun o => !(o.record.code == BitVec.ofNat 8 cVIEWPOOL && o.record.cause == 1) } }

/-- A block stopped for want of slots (R116). -/
def Block.lack (k : Block) (now : Nat) : Block := { k with state := .noSlots now, lackSince := some now, granted := none }

/-- Whether a block that is suspended for slots lacks them on this device: not all that stops it is the answer of another
one (R103; log 74). -/
def Block.lacksHere (k : Block) : Bool :=
  k.threads.any (fun th => th.status == .noSlot)
  || !(k.threads.any fun th => match th.status with | .waiting (.remote _) => true | _ => false)

/-- What waits for a slot of a tenant's share here, in the order of suspension: its children, and writes of other devices,
which name no block (R103, R116, R117). -/
def State.lackOrder (s : State) (t : Nat) : List (Nat × Option Nat) :=
  sortBy (fun (a b : Nat × Option Nat) => decide (a.1 < b.1))
    ((s.blocks.filterMap fun e => match e.2.state with
      | .noSlots since => if e.2.tenant == t && e.2.lacksHere then some (since, some e.1) else none
      | _ => none)
    ++ (s.fabric.slotWait.filter fun m => m.2.tenant.toNat == t).map fun m => (m.1, none))

/-- Those of them for which there are slots now (R117). -/
def State.servedNow (s : State) (t : Nat) : List (Nat × Option Nat) := (s.lackOrder t).take (s.slotShare t - s.slotsUsed t)

/-- A suspended child goes on, and its threads retry their writes (R117). -/
def State.resumeBlock (s : State) (b : Nat) : State :=
  match s.block? b with
  | none => s
  | some k =>
    let s := (s.updBlock b fun k => { k with state := .running, lackSince := none, granted := none, lackUse := none }).resolvePool k.tenant
    (List.range k.T).foldl (fun s tid => if (s.thread b tid).status == .noSlot then s.wake b tid else s) s

/-- A suspended child that finds a slot: it goes on at once at DL0, and at the next boundary of its grid above. `own` is the
grid that has freed slots, none for something outside every grid (R87, R88, R117). -/
def State.resumeChild (s : State) (b : Nat) (own : Option Nat) : State :=
  match s.block? b with
  | none => s
  | some k =>
    if s.dl0 b then s.resumeBlock b
    else if k.granted.isSome then s
    else (s.updBlock b fun k => { k with granted := some (own != some k.grid) }).resolvePool k.tenant

/-- Resumption while the share has room, one child for each free slot, in the order of suspension (R117). -/
def State.resumeChildren (s : State) (t : Nat) (own : Option Nat) : State :=
  (s.servedNow t).foldl (fun s e => match e.2 with | some b => s.resumeChild b own | none => s) s

/-! ## Signatures and caches (R170-R175) -/

/-- A sector of the root view in a core's cache. -/
def Core.sector? (c : Core) (t sec : Nat) : Option CacheSector :=
  c.cache.find? fun x => x.tenant == t && x.vtag == 0 && x.sector == sec

def Core.dropSector (c : Core) (t sec : Nat) : Core :=
  { c with cache := c.cache.filter fun x => !(x.tenant == t && x.vtag == 0 && x.sector == sec) }

def Core.putSector (c : Core) (x : CacheSector) : Core :=
  { c.dropSector x.tenant x.sector with cache := (c.dropSector x.tenant x.sector).cache ++ [x] }

/-- The record of an access by a thread at an instruction, or one that names no thread (R74). -/
def State.siteRecord (s : State) (who : Option Site) (code cause access va : Nat) : FaultRec :=
  match who with
  | some w =>
    if (s.block? w.block).isSome then
      s.trapRecord w.block w.tid w.pc { Trap.of code cause with access := access, addr := va }
    else plainRecord code cause access va
  | none => plainRecord code cause access va

/-- A write of a tenant at its home. On a lost unit nothing is written, and INTEG is posted (R27). One that reaches host memory
is acknowledged by Noern-H later (R52, R173); one whose window no longer allows it is not performed, and posts the fault (R58;
log 72). -/
def State.storeHome (s : State) (who : Option Site) (t va : Nat) (h : HomeAt) (bs : List Byte) : State :=
  match s.lostHome h bs.length, s.lateWindow h with
  | some c, _ => s.postEvent t (s.siteRecord who cINTEG c 1 va)
  | none, some e => s.postEvent t (s.siteRecord who e.1 e.2 1 va)
  | none, none =>
    let s := match h with
      | .host _ win _ off =>
        let a := s.hostAddr t win off
        { s with fabric := { s.fabric with hostUnacked := s.fabric.hostUnacked ++
            [(⟨t, va / 64 * 64, a / 64, s.readHost (a / 64 * 64) 64, s.siteRecord who cINTEG 5 1 va⟩ : HostStore)] } }
      | _ => s
    s.writeHome h bs

/-- A line that a core has written, for its next signature (R173). -/
def State.noteWritten (s : State) (c t va : Nat) : State :=
  s.updCore c fun k => if k.written.contains (t, va / 256) then k else { k with written := k.written ++ [(t, va / 256)] }

/-- A chain of view tags as a request carries it: 26 bits each, the innermost first; all zeros for the root view (log 74). -/
def chainBits : List Nat → Nat
  | [] => 0
  | v :: l => v % 2 ^ 26 + 2 ^ 26 * chainBits l

/-- The inline operand that names the view of a request: none in the root view (log 74). -/
def State.chainInl (s : State) (v : Nat) : BitVec 256 := BitVec.ofNat 256 (chainBits (s.viewChain nestFuel v))

/-- The virtual address that a request named. -/
def Remote.va (r : Remote) : Nat := r.dst.toNat * 2 ^ 43 + r.addr % 2 ^ 43

/-- Whose request it is: block, thread, address of the instruction, and the kind of access (R74). -/
def State.whose (s : State) : RemoteFor → Option (Nat × Nat × Dword × Nat)
  | .store b tid pc => some (b, tid, pc, 1)
  | .test b tid access _ _ | .capture b tid access _ => some (b, tid, s.pcOf b tid, access)
  | .load id _ _ => (s.pending.find? fun p => p.id == id).map fun p => (p.block, p.tid, p.pc, 0)
  | .atomic id _ => (s.pending.find? fun p => p.id == id).map fun p => (p.block, p.tid, p.pc, 2)
  | .red ths pc => ths.head?.map fun e => (e.1, e.2, pc, 2)
  | .tile b tid _ _ _ _ => some (b, tid, s.pcOf b tid, 0)
  | .copy op => (s.engines.find? fun e => e.id == op).map fun e => (e.block, e.tid, e.pc, 4)
  | .poll b tid _ | .await b tid => some (b, tid, s.pcOf b tid, 0)
  | .mcast _ | .own _ | .status .. | .trace .. | .record | .diag .. | .signature => none

/-- The record of a request that ends with an error (R44, R74). -/
def State.remoteRecord (s : State) (t : Nat) (what : RemoteFor) (va code cause : Nat) : State :=
  s.postEvent t (match s.whose what with
    | some (b, tid, pc, access) => s.siteRecord (some ⟨b, tid, pc⟩) code cause access va
    | none => plainRecord code cause 1 va)

/-- A request whose answer is awaited: it is sent and entered among the outstanding ones, or lost with an INTEG record
where no route leads to its destination (R33, R44). -/
def State.request (s : State) (t ty : Nat) (dst : Nat) (scope addr : Nat) (opw : Dword) (inl : BitVec 256)
    (data : List Flit) (what : RemoteFor) : State × Bool :=
  let (tag, s) := s.newTag
  let m := mkMsg ty s.fabric.devid (BitVec.ofNat 10 dst) t scope addr tag opw inl data
  match s.send m with
  | some s =>
    let port := (Sparse.get Route.none s.fabric.routes dst).port
    ({ s with fabric := { s.fabric with remotes := s.fabric.remotes ++ [⟨tag, t, BitVec.ofNat 10 dst, some port, addr, what⟩] } }, true)
  | none => (s.remoteRecord t what (dst * 2 ^ 43 + addr % 2 ^ 43) cINTEG 3, false)

/-- The copies of remote bytes that meet a range leave the proxy slices, and what loads now outstanding bring of them is not kept
(R177). -/
def State.dropProxy (s : State) (t va n : Nat) : State :=
  { s with
    proxy := s.proxy.filter fun p => !(p.tenant == t && decide (p.va < va + n ∧ va < p.va + p.bytes.length))
    fabric := { s.fabric with remotes := s.fabric.remotes.map fun r => match r.what with
      | .load id _ _ => if r.tenant == t && decide (r.va < va + n ∧ va < r.va + 64) then { r with what := .load id false false } else r
      | _ => r } }

/-- The runs of a sector's dirty bytes: where each begins, and its bytes. -/
def CacheSector.runs (x : CacheSector) : List (Nat × List Byte) :=
  (List.range 64).filterMap fun i =>
    if onBit x.dirty i && (i == 0 || !onBit x.dirty (i - 1)) then
      some (i, ((x.bytes.drop i).zipIdx.takeWhile fun e => onBit x.dirty (i + e.2)).map (·.1))
    else none

/-- The dirty bytes of a sector written to their home; to another device run by run, as stores of the thread that wrote them
last (R38, R173). -/
def State.writeBack (s : State) (x : CacheSector) : State :=
  if x.dirty == 0 then s
  else match x.home with
    | .remote d a =>
      let w := x.writer.getD ⟨0, 0, 0⟩
      x.runs.foldl (fun s r => ((s.dropProxy x.tenant (x.sector * 64 + r.1) r.2.length).request x.tenant 0x03 d 0 (a + r.1)
        (BitVec.ofNat 64 (r.2.length * 2 ^ 16)) 0 (flitsOf r.2) (.store w.block w.tid w.pc)).1) s
    | h =>
      let old := s.readHome h 64
      s.storeHome x.writer x.tenant (x.sector * 64) h
        ((x.bytes.zip old).zipIdx.map fun e => if onBit x.dirty e.2 then e.1.1 else e.1.2)

/-- Every dirty sector of a core written to its home; the copies stay, clean (R173). -/
def State.flushCore (s : State) (c : Nat) : State :=
  let s := (s.core c).cache.foldl (fun s x => s.writeBack x) s
  s.updCore c fun k => { k with cache := k.cache.map fun x => { x with dirty := 0 } }

/-- A sector's bytes as its home has them, but for those that the core holds dirty; of a line on another device only those stay
(R171). -/
def State.refreshed (s : State) (x : CacheSector) : CacheSector :=
  match x.home with
  | .remote .. => { x with held := x.dirty }
  | h =>
    let atHome := s.readHome h 64
    { x with bytes := x.bytes.zipIdx.map fun e => if onBit x.dirty e.2 then e.1 else atHome.getD e.2 0 }

/-- An acquire at cluster scope or wider: clean lines that match the pending signature are invalidated, and the
signature is cleared. Of a sector that is dirty in part the clean bytes are read from the home again, and what the core's loads
now outstanding at other devices bring of such a line is not kept (R175, R181). -/
def State.acquireCore (s : State) (c : Nat) : State :=
  let sg := (s.core c).pendingSig
  let mine := fun (id : Nat) => s.pending.any fun p => p.id == id && (s.block? p.block).any fun k => k.core == c
  let go := fun (x : CacheSector) => s.sigCovers sg x.tenant (x.sector * 64)
  let s := { s with fabric := { s.fabric with remotes := s.fabric.remotes.map fun (r : Remote) => match r.what with
      | .load id keep true => if s.sigCovers sg r.tenant r.va && mine id then { r with what := .load id keep false } else r
      | _ => r } }
  s.updCore c fun k => { k with
    cache := (k.cache.filter fun x => x.dirty != 0 || !go x).map fun x => if go x then s.refreshed x else x
    pendingSig := 0 }

/-- The signature of what a core has written since its last one (R173, R174). -/
def Core.signature (c : Core) : BitVec 512 := c.written.foldl (fun sg e => sigAdd sg e.1 (e.2 * 256)) 0

/-! ## Races between blocks (R87, R91, R92) -/

/-- Whether everything that block b did up to its access number n is known to block k (R91). -/
def Block.knowsOf (k : Block) (b n : Nat) : Bool := decide (n ≤ Sparse.get 0 k.knows b)

/-- The access of R91 that conflicts with one by block b, not ordered before it. -/
def conflictAt (g : Grid) (k : Block) (b sec : Nat) (store : Bool) : Option SectorAcc :=
  g.accesses.find? fun a => a.sector == sec && a.block != b && (a.store || store) && !k.knowsOf a.block a.clock

/-- An access outside views at DL1 and above: recorded for RACE, and at DL2 and above trapped where it conflicts with
another block's. `seq` is its place in the order of R87 where an engine makes it. The sector is virtual; a cluster scratchpad sector carries its owner above bit 53. -/
def State.noteAccessAt (s : State) (b tid : Nat) (pc : Dword) (sec : Nat) (store : Bool) (seq : Option Nat) : Except Trap State :=
  match s.block? b, s.gridOf b with
  | some k, some g =>
    if g.dl == 0 || k.vtag != 0 then .ok s
    else match (if 2 ≤ g.dl.toNat then conflictAt g k b sec store else none) with
      | some a =>
        .error { Trap.of cDLEVEL 2 with access := if store then 1 else 0, addr := sec * 64 % 2 ^ 64, aux0 := a.bid.toNat }
      | none =>
        let s := s.setBlock b { k with clock := k.clock + 1 }
        .ok (s.updGrid k.grid fun g => { g with
          accesses := g.accesses ++ [⟨sec, k.core, k.path, b, k.bid, tid, seq.getD g.effSeq, pc, store, k.clock + 1, g.turn⟩]
          effSeq := g.effSeq + 1 })
  | _, _ => .ok s

/-- An access of the instruction at which a thread stands. -/
def State.noteAccess (s : State) (b tid : Nat) (pc : Dword) (sec : Nat) (store : Bool) : Except Trap State :=
  s.noteAccessAt b tid pc sec store none

/-! ## The global load -/

/-- How an access is qualified (R65, R171). -/
structure Qual where
  policy : Nat
  fresh : Bool
  deriving DecidableEq, Repr

/-- Default 0, stream 2, bypass-private 1: the one closer to home of two policies (R65). -/
def closerPolicy (a b : Nat) : Nat := if a = 1 ∨ b = 1 then 1 else if a = 2 ∨ b = 2 then 2 else 0

/-- Stores of the same core in the turn, and held stores of the thread's speculative views, over bytes that were read
(R87, R136). -/
def overlayStores (bs : List Byte) (va : Nat) (l : List (Nat × List Byte)) : List Byte :=
  l.foldl (fun bs e => bs.zipIdx.map fun x =>
    if e.1 ≤ va + x.2 ∧ va + x.2 < e.1 + e.2.length then e.2.getD (va + x.2 - e.1) 0 else x.1) bs

/-- The turn's stores of this core in the same view, oldest first. -/
def Grid.storesOf (g : Grid) (core v : Nat) : List (Nat × List Byte) := g.effects.filterMap fun e =>
  match e.kind with
  | .store v' va _ bs => if e.core == core && v' == v then some (va, bs) else none
  | .mcast _ va bs true => if e.core == core && v == 0 then some (va, bs) else none
  | _ => none

/-- The held stores that a block's threads see, the enclosing views' first (R136). -/
def Block.heldStores (k : Block) : List (Nat × List Byte) := k.specs.reverse.flatMap fun w => w.outbox.filterMap fun e =>
  match e with
  | .store _ va bs => some (va, bs)
  | _ => none

/-- Bytes of a load in the cacheable case: DL0, the root view, a home on this device or its host (R170, R171). A load
that goes to the home leaves the core's copy as new as what it returns (R177). The caller has flushed what a read at the
home flushes. -/
def State.cachedLoad (s : State) (core t va : Nat) (h : HomeAt) (n : Nat) (q : Qual) : State × List Byte :=
  let sec := va / 64
  let off := va % 64
  let sh := h.back off
  let atHome := s.readAt q.policy sh 64
  match (s.core core).sector? t sec with
  | some x =>
    if q.policy = 0 ∧ q.fresh = false then (s, (x.bytes.drop off).take n)
    else (s.updCore core fun c => c.putSector (s.refreshed x), ((s.refreshed x).bytes.drop off).take n)
  | none =>
    let s := if q.policy = 0 then s.updCore core fun c => c.putSector ⟨t, 0, sec, sh, atHome, 0, BitVec.allOnes 64, none⟩ else s
    (s, (atHome.drop off).take n)

/-- Whether a load of these bytes is served by a clean or dirty copy in the core's cache. -/
def State.loadHits (s : State) (core t va : Nat) (q : Qual) : Bool :=
  q.policy == 0 && !q.fresh && ((s.core core).sector? t (va / 64)).isSome

/-! ## The global store -/

/-- The bits of n bytes from an offset on in the mask of a sector, set or cleared. -/
def maskBytes (m : BitVec 64) (off n : Nat) (b : Bool) : BitVec 64 := (List.range n).foldl (fun m i => setBit m (off + i) b) m

/-- A sector before its first byte has come in: of this device or its host as its home has it, of another device with nothing
held. -/
def State.blankSector (s : State) (t sec : Nat) (sh : HomeAt) : CacheSector :=
  match sh with
  | .remote .. => ⟨t, 0, sec, sh, List.replicate 64 0, 0, 0, none⟩
  | _ => ⟨t, 0, sec, sh, s.readHome sh 64, 0, BitVec.allOnes 64, none⟩

/-- A store in the cacheable case, by a thread (R170-R172). -/
def State.cachedStore (s : State) (who : Site) (core t va : Nat) (h : HomeAt) (bs : List Byte) (q : Qual) : State :=
  let sec := va / 64
  let off := va % 64
  let s := s.noteWritten core t va
  if q.policy = 0 ∧ q.fresh = false then
    let x := ((s.core core).sector? t sec).getD (s.blankSector t sec (h.back off))
    s.updCore core fun c => c.putSector { x with
      bytes := overlayAt x.bytes off bs, dirty := maskBytes x.dirty off bs.length true
      held := maskBytes x.held off bs.length true, writer := some who }
  else
    let s := s.storeHome (some who) t va h bs
    match (s.core core).sector? t sec with
    | none => s
    | some x => s.updCore core fun c => c.putSector { x with
        bytes := overlayAt x.bytes off bs, dirty := maskBytes x.dirty off bs.length false }

/-- Bytes of a line on another device that a core holds, all of them (R170). -/
def Core.heldBytes (c : Core) (t va n : Nat) : Option (List Byte) :=
  match c.sector? t (va / 64) with
  | some x => if (List.range n).all fun i => onBit x.held (va % 64 + i) then some ((x.bytes.drop (va % 64)).take n) else none
  | none => none

/-- Bytes that have come from another device put into a core's cache, under what it holds dirty (R170). -/
def State.keepRemote (s : State) (core t va : Nat) (h : HomeAt) (bs : List Byte) : State :=
  let off := va % 64
  let x := ((s.core core).sector? t (va / 64)).getD (s.blankSector t (va / 64) (h.back off))
  s.updCore core fun c => c.putSector { x with
    bytes := x.bytes.zipIdx.map fun e =>
      if off ≤ e.2 ∧ e.2 < off + bs.length ∧ !onBit x.dirty e.2 then bs.getD (e.2 - off) 0 else e.1
    held := maskBytes x.held off bs.length true }

/-- Whether a block is frozen: its fork is open (R99). -/
def Block.frozen (k : Block) : Bool := k.fork.isSome

/-- Whether the outermost speculative view of a block, and every view around it, lies over the root view (R136): no
fork's child view encloses it. -/
def State.overRoot (s : State) : Nat → Nat → Bool
  | 0, _ => true
  | fuel + 1, v =>
    if v = 0 then true
    else match Sparse.find s.views v with
      | some w => w.spec && s.overRoot fuel w.parent
      | none => true

/-- Where a store of a thread goes, once translated (R101, R136): to memory or a working copy, to the outbox, or it
traps. -/
inductive StorePath where
  | memory
  | outbox
  | trap (t : Trap)
  deriving DecidableEq, Repr

/-- The rule of R64, R101 and R136 for a write in a view to this page. -/
def State.storePath (s : State) (k : Block) (l : Leaf) (atomic : Bool) (access va : Nat) : StorePath :=
  if k.vtag = 0 then .memory
  else
    let prot7 : Trap := { Trap.of cPROT 7 with access := access, addr := va, xl := true }
    let outside := l.kind == .host || (!l.view && l.domain == 2)
    if !k.specs.isEmpty && outside && !atomic && s.overRoot nestFuel k.vtag then .outbox
    else if l.kind == .host || !l.view then .trap prot7
    else .memory

/-- Whether a write touches the bytes of the innermost view's own speculated tile (SPECDEPTH, cause 7; R129). -/
def Block.ownTile (k : Block) (va n : Nat) : Bool :=
  match k.specs with
  | [] => false
  | w :: _ => (List.range n).any fun i => (w.record.index (va + i)).isSome

end Sys2Proof.Machine
end

