-- ==== Sys2Proof/Machine/Narrow.lean ====
section
/-! DEFINITION. The narrow formats D8, FP4X and INT4G, and their scales (R199-R205). -/

namespace Sys2Proof.Machine

/-! ## D8 (R199-R201) -/

/-- The rows of R199: exponent code bits W, fraction bits F, and the exponents of codes 0, 1, 2, … -/
def d8Row (k : Nat) : Nat × Nat × List Int :=
  match k with
  | 0 => (1, 5, [-1, 0])
  | 1 => (2, 3, [-3, -2, 1, 2])
  | 2 => (3, 1, [-7, -6, -5, -4, 3, 4, 5, 6])
  | 3 => (3, 0, [-11, -10, -9, -8, 7, 8, 9, 10])
  | 4 => (2, 0, [-13, -12, 11, 12])
  | 5 => (1, 0, [-14, 13])
  | _ => (0, 0, [14])

/-- The leading zeros of the seven bits t. -/
def d8Lead (t : Nat) : Nat := if t = 0 then 7 else 6 - Nat.log2 t

/-- The fraction field, its width and the decimal exponent of a code t ≠ 0. -/
def d8Parts (t : Nat) : Nat × Nat × Int :=
  let k := d8Lead t
  let (w, f, es) := d8Row k
  let body := t % 2 ^ (6 - k)
  (body % 2 ^ f, f, es.getD (body / 2 ^ f % 2 ^ w) 0)

/-- The magnitude of a code t ≠ 0 as a fraction: (1 + 9f/2^F) × 10^E. -/
def d8Mag (t : Nat) : Nat × Nat :=
  let (fr, f, e) := d8Parts t
  let n := 2 ^ f + 9 * fr
  if 0 ≤ e then (n * 10 ^ e.toNat, 2 ^ f) else (n, 2 ^ f * 10 ^ (-e).toNat)

/-- The value of a D8 byte: none for NaR. -/
def d8Decode (b : Nat) : Option FV :=
  let b := b % 256
  if b = 0x80 then none
  else if b = 0 then some (.fin false 0 1)
  else
    let (n, d) := d8Mag (b % 128)
    some (.fin (decide (128 ≤ b)) n d)

/-- Comparison of fractions. -/
def fracLt (a b : Nat × Nat) : Bool := decide (a.1 * b.2 < b.1 * a.2)

/-- Twice a fraction against the sum of two others. -/
def cmpMid (x a b : Nat × Nat) : Ordering :=
  let l := 2 * x.1 * (a.2 * b.2)
  let r := (a.1 * b.2 + b.1 * a.2) * x.2
  compare l r

/-- The codes in ascending order of magnitude: that of t is monotone within one exponent only, so they are sorted. -/
def d8Codes : List Nat :=
  let all := (List.range 127).map (· + 1)
  sortBy (fun a b => fracLt (d8Mag a) (d8Mag b)) all

/-- The largest code whose magnitude does not exceed x, and the smallest that exceeds it. -/
def d8Around (x : Nat × Nat) : List Nat → Option Nat → Option Nat × Option Nat
  | [], lo => (lo, none)
  | t :: l, lo => if fracLt x (d8Mag t) then (lo, some t) else d8Around x l (some t)

/-- The choice of a tie between two codes: the even fraction, then the smaller |E| (R200). -/
def d8Tie (a b : Nat) : Nat :=
  let (fa, wa, ea) := d8Parts a
  let (fb, wb, eb) := d8Parts b
  let evenA := wa = 0 ∨ fa % 2 = 0
  let evenB := wb = 0 ∨ fb % 2 = 0
  if evenA ∧ ¬ evenB then a
  else if evenB ∧ ¬ evenA then b
  else if ea.natAbs ≤ eb.natAbs then a else b

/-- RNDD8 of a finite value (R200). -/
def d8Round (neg : Bool) (n d : Nat) : Nat × Flags :=
  if n = 0 then (0, 0)
  else
    let sg := fun (t : Nat) => if neg then 128 + t else t
    let x := (n, d)
    match d8Around x d8Codes none with
    | (none, some hi) =>
      -- below the smallest magnitude 10^-14
      match cmpMid x (0, 1) (d8Mag hi) with
      | .gt => (sg hi, fNX)
      | _ => (0, fUF ||| fNX)
    | (some lo, none) => if fracLt (d8Mag lo) x then (sg lo, fOF ||| fNX) else (sg lo, 0)
    | (some lo, some hi) =>
      if !fracLt (d8Mag lo) x then (sg lo, 0)
      else match cmpMid x (d8Mag lo) (d8Mag hi) with
        | .lt => (sg lo, fNX)
        | .gt => (sg hi, fNX)
        | .eq => (sg (d8Tie lo hi), fNX)
    | (none, none) => (0, 0)

/-- Conversion to D8 of a value (R200). -/
def d8OfFV (v : FV) : Nat × Flags :=
  match v with
  | .nan _ => (0x80, 0)
  | .inf neg => ((if neg then 0x81 else 0x01), fOF)
  | .fin neg n d => d8Round neg n d

/-- Conversion to D8 of a pattern of a binary format (R200). -/
def d8OfFp (f : FpFmt) (b : Nat) : Nat × Flags :=
  let r := d8OfFV (f.decode b)
  (r.1, if f.isSnan b then fIV else r.2)

/-- Conversion from D8 (R201). -/
def fpOfD8 (g : FpFmt) (m : Nat) (b : Nat) : Nat × Flags :=
  match d8Decode b with
  | none => (g.qnan, 0)
  | some v => g.ofFV m v

/-! ## FP4X and INT4G (R202-R205) -/

/-- Half units of the code's magnitude: 0, 0.5, 1, 1.5, 2, 3, 4, 6. -/
def fp4Half (c : Nat) : Nat := [0, 1, 2, 3, 4, 6, 8, 12].getD (c % 8) 0

/-- The product of two binary values, exactly; NaNs and infinities under the IEEE rules, as a value with BF16 NaN
patterns, and its flags (R203). -/
def mulExact (ops : List Nat) (a b : FV) : FV × Flags :=
  match bf16.nanOf ops with
  | some (r, fl) => (.nan r, fl)
  | none => match a, b with
    | .inf x, .inf y => (.inf (x != y), 0)
    | .inf x, .fin y n _ => if n = 0 then (.nan bf16.qnan, fIV) else (.inf (x != y), 0)
    | .fin x n _, .inf y => if n = 0 then (.nan bf16.qnan, fIV) else (.inf (x != y), 0)
    | .fin x n d, .fin y k e => (.fin (x != y) (n * k) (d * e), 0)
    | _, _ => (.nan bf16.qnan, 0)

/-- The value of an FP4X code under X and its group's scale, both BF16 patterns (R203). -/
def fp4Value (c x sc : Nat) : FV × Flags :=
  if c % 16 = 8 then mulExact [x, sc] (bf16.decode x) (bf16.decode sc)
  else mulExact [sc] (.fin (decide (8 ≤ c % 16)) (fp4Half c) 2) (bf16.decode sc)

/-- Conversion to an unscaled FP4X code (R203). -/
def fp4OfFV (v : FV) : Nat × Flags :=
  match v with
  | .nan _ => (0, fIV)
  | .inf neg => ((if neg then 0xF else 0x7), fOF)
  | .fin neg n d =>
    if n = 0 then (0, 0)
    else
      let sg := fun (c : Nat) => if neg && c != 0 then c + 8 else c
      if 6 * d < n then (sg 7, fOF ||| fNX)
      else
        let x := (n, d)
        let mags := (List.range 8).map fun c => (fp4Half c, 2)
        let lo := (List.range 8).foldl (fun a c => if fracLt x (mags.getD c (0, 1)) then a else c) 0
        if n * 2 = fp4Half lo * d then (sg lo, 0)
        else match cmpMid x (mags.getD lo (0, 1)) (mags.getD (lo + 1) (0, 1)) with
          | .lt => (sg lo, fNX)
          | .gt => (sg (lo + 1), fNX)
          | .eq => (sg (if lo % 2 = 0 then lo else lo + 1), fNX)

/-- The expansion of an INT4G code to BF16: (q − z) × s rounded RN (R205). -/
def int4gExpand (q z sc : Nat) : Nat × Flags :=
  let diff : Int := (q % 16 : Nat) - (z % 16 : Nat)
  match bf16.decode sc with
  | .nan b => (bf16.quiet b, if bf16.isSnan b then fIV else 0)
  | .inf neg => if diff = 0 then (bf16.qnan, fIV) else (bf16.withSign (neg != decide (diff < 0)) bf16.infBits, 0)
  | .fin neg n d => bf16.round 0 (neg != decide (diff < 0)) (n * diff.natAbs) d

/-- A scale word (R204): its BF16 scale and zero point; none where a reserved field is set, or a zero point stands for
FP4X. -/
def scaleWord (isFp4 : Bool) (w : Nat) : Option (Nat × Nat) :=
  if bitsAt w 20 12 != 0 || (isFp4 && bitsAt w 16 4 != 0) then none else some (bitsAt w 0 16, bitsAt w 16 4)

/-- Group size of a GEOM code (R62). -/
def groupOf (geom : Nat) : Nat := match geom with | 1 => 32 | 2 => 64 | 3 => 128 | _ => 1

end Sys2Proof.Machine
end

