-- ==== Sys2Proof/Machine/Global.lean ====
section
/-! DEFINITION. Global accesses as instructions make them: the atomic step (R326), RED buffers (R184), releases and
acquires (R173, R175), loads and stores with all their checks (R87, R91, R99, R101, R136, R321-R323). -/

namespace Sys2Proof.Machine

/-! ## The atomic step -/

/-- The new value of an element of s bits (R326). -/
def atomInt (op : AOp) (s : Nat) (uns : Bool) (old b c : Nat) : Nat :=
  let old := old % 2 ^ s
  let b := b % 2 ^ s
  let lt := if uns then decide (old < b) else decide (sext old s < sext b s)
  match op with
  | .add => (old + b) % 2 ^ s
  | .sub => (old + 2 ^ s - b) % 2 ^ s
  | .min => if lt then old else b
  | .max => if lt then b else old
  | .and => old &&& b
  | .or => old ||| b
  | .xor => old ^^^ b
  | .xchg => b
  | .cas => if old = c % 2 ^ s then b else old
  | .incwrap => if b ≤ old then 0 else old + 1
  | .decwrap => if old = 0 ∨ b < old then b else old - 1

/-- The step of R326 on an element of a type: the new value and its flags. -/
def atomStep (op : AOp) (fmt : Fmt) (uns : Bool) (old b c : Nat) : Nat × Flags :=
  match fmt with
  | .fp32 => fp32.add 0 old b
  | .fp64 => fp64.add 0 old b
  | .fp16 | .bf16 =>
    let f := fpOf fmt
    let (lo, fl) := f.add 0 (old % 2 ^ 16) (b % 2 ^ 16)
    let (hi, fh) := f.add 0 (old / 2 ^ 16 % 2 ^ 16) (b / 2 ^ 16 % 2 ^ 16)
    (lo + hi * 2 ^ 16, fl ||| fh)
  | .int64 => (atomInt op 64 uns old b c, 0)
  | _ => (atomInt op 32 uns old b c, 0)

/-- Bytes of the element of an atomic type (R325). -/
def atomBytes (fmt : Fmt) : Nat := match fmt with | .int64 | .fp64 => 8 | _ => 4

/-! ## Requests to other devices (R33, R36, R38) -/

/-- The request of a remote atomic: operation, format, .NF and .UNS in OPW, the operands in INL; bit 14 where it only
tests the page (log 8). -/
def atomOpw (op : AOp) (fmt : Fmt) (nf uns test : Bool) : Dword :=
  BitVec.ofNat 64 (op.code.toNat + fmt.code.toNat * 2 ^ 8 + (if nf then 2 ^ 12 else 0) + (if uns then 2 ^ 13 else 0)
    + (if test then 2 ^ 14 else 0))

/-- A chain read back. -/
def chainOf : Nat → Nat → List Nat
  | 0, _ => []
  | fuel + 1, n => if n % 2 ^ 26 = 0 then [] else n % 2 ^ 26 :: chainOf fuel (n / 2 ^ 26)

/-- The chain of views that a request names: an atomic in its data flit, any other in its inline operand. -/
def msgChain (m : Msg) : List Nat :=
  chainOf 9 (if m.ty == 0x05 then (match m.data with | f :: _ => f.sector.toNat | [] => 0) else m.inl.toNat)

/-! ## RED buffers (R184) -/

/-- Whether two ranges of homes overlap. -/
def HomeAt.overlaps (a : HomeAt) (n : Nat) (b : HomeAt) (m : Nat) : Bool :=
  match a, b with
  | .dev x, .dev y => decide (x < y + m ∧ y < x + n)
  | .host t w _ x, .host u v _ y => t == u && w == v && decide (x < y + m ∧ y < x + n)
  | .remote d x, .remote e y => d == e && decide (x < y + m ∧ y < x + n)
  | _, _ => false

/-- Flags raised in those of some threads that have not exited. -/
def State.raiseLive (s : State) (ths : List (Nat × Nat)) (fl : Flags) : State :=
  ths.foldl (fun s e => s.updThread e.1 e.2 fun th => if th.exited then th else th.raise fl) s

/-- One buffered value of a core folded into its home, here or on another device; the flags reach every contributing
thread that has not exited. On a lost unit nothing is folded, and INTEG is posted (R27, R184, R330). -/
def State.foldRed (s : State) (c : Nat) (r : RedEntry) : State :=
  let n := atomBytes r.fmt
  let s := (s.noteWritten c r.tenant r.va).dropProxy r.tenant r.va n
  let who := r.threads.head?.map fun e => (⟨e.1, e.2, r.pc⟩ : Site)
  match r.home with
  | .remote d a =>
    (s.request r.tenant 0x05 d r.scope a (atomOpw r.op r.fmt true r.uns false) (BitVec.ofNat 256 r.value.toNat) []
      (.red r.threads r.pc)).1
  | h =>
    match s.lostHome h n with
    | some cause => s.postEvent r.tenant (s.siteRecord who cINTEG cause 2 r.va)
    | none =>
      let (nv, fl) := atomStep r.op r.fmt r.uns (bytesToNat (s.readHome h n)) r.value.toNat 0
      (s.storeHome who r.tenant r.va h (natToBytes n nv)).raiseLive r.threads fl

/-- A part of a core's buffer flushed, in the order of its entries. -/
def State.flushReds (s : State) (c : Nat) (p : RedEntry → Bool) : State :=
  let rs := (s.core c).reds
  let s := s.updCore c fun k => { k with reds := k.reds.filter fun r => !p r }
  (rs.filter p).foldl (fun s r => s.foldRed c r) s

/-- Whether a grid runs at DL0. -/
def State.atDl0 (s : State) (g : Nat) : Bool := match s.grid? g with | some x => x.dl == 0 | none => true

/-- A read at a home flushes every buffered part of a grid at DL0 that holds the bytes, in ascending core index. -/
def State.flushAt (s : State) (h : HomeAt) (n : Nat) : State :=
  s.activeCores.foldl (fun s c =>
    s.flushReds c fun r => s.atDl0 r.grid && h.overlaps n r.home (atomBytes r.fmt)) s

/-- The last entry of a list with which a range overlaps. -/
def lastOver (l : List RedEntry) (g : Nat) (h : HomeAt) (n : Nat) : Option RedEntry :=
  (l.filter fun r => r.grid == g && h.overlaps n r.home (atomBytes r.fmt)).getLast?

/-- A contribution put into a core's buffer. It is combined with the last contribution of its grid to the element where
that is of the same operation and format, and otherwise stands after it, so that the contributions keep the order in which
the core issues them; the flags of the combination reach the contributing thread (R184). -/
def State.bufferRed (s : State) (c g t : Nat) (who : Site) (va : Nat) (h : HomeAt) (op : AOp) (fmt : Fmt) (uns : Bool) (v : Dword)
    (scope : Nat) : State :=
  let me := (who.block, who.tid)
  let fresh := s.updCore c fun k => { k with reds := k.reds ++ [⟨g, t, va, h, op, fmt, uns, v, [me], who.pc, scope⟩] }
  match lastOver (s.core c).reds g h (atomBytes fmt) with
  | none => fresh
  | some r =>
    if r.va != va || r.op != op || r.fmt != fmt || r.uns != uns then fresh
    else
      let (nv, fl) := atomStep op fmt uns r.value.toNat v.toNat 0
      let r' := { r with value := BitVec.ofNat 64 nv, threads := dedup (r.threads ++ [me]), scope := max r.scope scope }
      let s := s.updCore c fun k => { k with reds := k.reds.map fun x => if x == r then r' else x }
      s.updThread who.block who.tid fun th => th.raise fl

/-! ## Releases and acquires -/

/-- Whether a request writes at another device: a store, an atomic, a reduction or a multicast. -/
def Remote.writes (r : Remote) : Bool := match r.what with | .store .. | .atomic .. | .red .. | .mcast _ => true | _ => false

/-- The tags of a tenant's remote stores, atomics, reductions, multicasts and signatures that are still unanswered (R39,
R173, R334). -/
def State.ackTags (s : State) (t : Nat) : List Word :=
  s.fabric.remotes.filterMap fun r => if r.tenant == t && (r.writes || r.what == .signature) then some r.tag else none

/-- Whether one of these tags is still unanswered. -/
def State.tagsOpen (s : State) (tags : List Word) : Bool := tags.any fun g => s.fabric.remotes.any fun r => r.tag == g

/-- The line that a request names. -/
def Remote.line (r : Remote) : Nat := match r.what with | .mcast _ => r.addr / 256 | _ => r.va / 256

/-- Whether a line has a write that another device has not acknowledged: it stays among those of the next signature, which
follows the acknowledgement (R39, R173). -/
def State.openLine (s : State) (w : Nat × Nat) : Bool :=
  s.fabric.remotes.any fun r => r.tenant == w.1 && r.writes && r.line == w.2

/-- Step 2 of R173: a core's dirty sectors go to their homes, and its buffered reductions of every grid at DL0 and of one
grid are folded (R184). -/
def State.sendHome (s : State) (core g : Nat) : State :=
  (s.flushCore core).flushReds core fun r => s.atDl0 r.grid || r.grid == g

/-- Step 3 of R173 on this device: the signature of a core to the cores of the cluster, or of the device. What it names is at
its home by then. The written lines stay listed until a signature has carried them to every core and device that may hear of
them (log 82). -/
def State.signNear (s : State) (core cluster scope : Nat) : State :=
  let s := s.flushCore core
  let sg := (s.core core).signature
  let heard := if scope = 2 then (s.cluster cluster).members.filterMap fun m => (s.block? m).map (·.core) else s.activeCores
  let s := (dedup heard).foldl (fun s c => s.giveSig sg c) s
  let kept := (s.core core).written.filter fun w => !(s.domainPeers w.1).isEmpty || s.openLine w
  if scope = 3 then s.updCore core fun c => { c with written := kept } else s

/-- The signatures of some cores given to every core, and in one SIG to every other device of DOMSET (R39, R173). -/
def State.signCores (s : State) (cores : List Nat) (t : Nat) : State :=
  let s := cores.foldl (fun (s : State) c => s.flushCore c) s
  let sg := cores.foldl (fun (sg : BitVec 512) c => sg ||| (s.core c).signature) 0
  let kept := fun (w : Nat × Nat) => w.1 != t || s.openLine w
  let s := cores.foldl (fun (s : State) c => s.updCore c fun k => { k with written := k.written.filter kept }) s
  let s := s.activeCores.foldl (fun (s : State) c => s.giveSig sg c) s
  (s.domainPeers t).foldl (fun (s : State) d => (s.request t 0x07 d 4 0 0 0 [sealFlit sg] .signature).1) s

/-- The tags of a tenant's signatures that are still unanswered. -/
def State.signTags (s : State) (t : Nat) : List Word :=
  s.fabric.remotes.filterMap fun r => if r.tenant == t && r.what == .signature then some r.tag else none

/-- Whether Noern-H has not acknowledged a store of a tenant (R173). -/
def State.hostOpen (s : State) (t : Nat) : Bool := s.fabric.hostUnacked.any fun r => r.tenant == t

/-- A release goes on: once the tags it waits for are answered the signatures are given, and those to other devices and at
system scope Noern-H's acknowledgements are waited for. None: the release is complete (R39, R173). -/
def State.stepRelease (s : State) (k : Block) (scope : Nat) (tags : List Word) (sent : Bool) : State × Option Wait :=
  let host := fun (s : State) => decide (5 ≤ scope) && s.hostOpen k.tenant
  if s.tagsOpen tags then (s, some (.acks scope tags sent))
  else if sent then (s, if host s then some (.acks scope [] true) else none)
  else if scope < 4 then (s.signNear k.core k.cluster scope, none)
  else
    let s := s.signCores [k.core] k.tenant
    let tags := s.signTags k.tenant
    (s, if tags.isEmpty && !host s then none else some (.acks scope tags true))

/-- The contributions of a grid that a core has buffered take their place among the effects of the turn, at a thread's
instruction (R87, R177, R184). -/
def State.redsToTurn (s : State) (b tid : Nat) (pc : Dword) (k : Block) (p : RedEntry → Bool) : State :=
  let mine := fun (r : RedEntry) => r.grid == k.grid && p r
  let s' := s.updCore k.core fun c => { c with reds := c.reds.filter fun r => !mine r }
  ((s.core k.core).reds.filter mine).foldl (fun s r => s.addEffect b tid pc (.fold r)) s'

/-- A release by a thread at the instruction at which it stands: what the thread waits for, none once it is complete. One
that has waited finds its release made. At thread and block scope, and in a view, it publishes nothing (R104); at DL1 and above
it is an effect of the turn (R39, R173, R331). -/
def State.releaseAt (s : State) (b tid : Nat) (pc : Dword) (scope : Nat) : State × Option Wait :=
  match s.block? b with
  | none => (s, none)
  | some k =>
    if (k.thread tid).released || decide (scope < 2) || k.vtag != 0 then (s, none)
    else if !s.dl0 b then ((s.redsToTurn b tid pc k fun _ => true).addEffect b tid pc (.release scope), none)
    else
      let s := s.sendHome k.core k.grid
      s.stepRelease k scope (s.ackTags k.tenant) false

/-- The release with which a grid ends, by every core on its behalf: one step of it, and whether it is complete. At domain
scope and wider one SIG carries the lines of them all (R71, R173, R179). -/
def State.endRelease (s : State) (n scope : Nat) (g : Grid) : State × Bool :=
  let wait (s : State) (tags : List Word) (sent : Bool) : State × Bool :=
    (s.updGrid n fun g => { g with state := .releasing tags sent }, false)
  let sign (s : State) : State × Bool :=
    if scope < 4 then (s.activeCores.foldl (fun (s : State) c => s.signNear c 0 scope) s, true)
    else
      let s := s.signCores s.activeCores g.tenant
      let tags := s.signTags g.tenant
      if !tags.isEmpty || (decide (5 ≤ scope) && s.hostOpen g.tenant) then wait s tags true else (s, true)
  match g.state with
  | .started =>
    let s := s.activeCores.foldl (fun (s : State) c => (s.flushCore c).flushReds c fun r => r.grid == n) s
    let tags := s.ackTags g.tenant
    if tags.isEmpty then sign s else wait s tags false
  | .releasing tags false => if s.tagsOpen tags then (s, false) else sign s
  | .releasing tags true => (s, !(s.tagsOpen tags || (decide (5 ≤ scope) && s.hostOpen g.tenant)))

/-- An acquire by a thread of a block (R175). -/
def State.acquire (s : State) (b : Nat) (scope : Nat) : State :=
  match s.block? b with
  | some k => if scope < 2 then s else s.acquireCore k.core
  | none => s

/-- The parent's scope of R98: device where DOMSET names no other device, otherwise domain. -/
def State.parentScope (s : State) (t : Nat) : Nat := if (s.domainPeers t).isEmpty then 3 else 4

/-- A core's own copy of the sector of an access at the home is written back and dropped, so that the access is
performed after the core's stores and before its later loads (R177, R183). -/
def State.syncSector (s : State) (c t va : Nat) : State :=
  match (s.core c).sector? t (va / 64) with
  | none => s
  | some x => (s.writeBack x).updCore c fun k => k.dropSector t (va / 64)

/-! ## Loads -/

/-- The bytes of one granule from `va` on as a core's threads see them within a turn: its stores and its reductions in the
same view, oldest first (R87, R104, R177; log 33). -/
def Grid.turnBytes (g : Grid) (core v va : Nat) (bs : List Byte) : List Byte := g.effects.foldl (fun bs e =>
  match e.kind with
  | .store v' a _ b => if e.core == core && v' == v then overlayStores bs va [(a, b)] else bs
  | .red v' a _ op fmt uns b _ =>
    let n := atomBytes fmt
    if e.core == core && v' == v && decide (va ≤ a ∧ a + n ≤ va + bs.length) then
      let old := bytesToNat ((bs.drop (a - va)).take n)
      overlayAt bs (a - va) (natToBytes n (atomStep op fmt uns old b.toNat 0).1)
    else bs
  | _ => bs) bs

/-- Bytes of a view at DL1 and above: what stood there after the last boundary, under what the core's threads have done
in the turn (R87, R104). -/
def State.turnRead (s : State) (g : Grid) (t core v va : Nat) (h : HomeAt) (n : Nat) : List Byte :=
  if v = 0 then overlayStores (s.readIn t 0 va h n) va (g.storesOf core 0)
  else
    let g0 := va / 128 * 128
    ((g.turnBytes core v g0 (s.readIn t v g0 (granuleHome va h) 128)).drop (va % 128)).take n

/-! ## Pages of other devices (R38) -/

/-- What another device has told a thread of the page that holds an address; a page has 128 KiB at least (R60). -/
def Thread.toldOf (th : Thread) (va : Nat) : Option (Leaf × Nat) :=
  (th.pages.find? fun e => e.1 / 2 ^ 17 == va / 2 ^ 17).map (·.2)

/-- A translation as an instruction of a thread uses it: a page on another device has the attributes that the device has
told the thread, and until it has, those of `remoteLeaf`. -/
def State.laneXlate (s : State) (b tid va : Nat) (want : Want) : Except Err Xl :=
  match s.block? b with
  | none => .error (cXLATE, 1)
  | some k =>
    match s.xlate k.core k.tenant va want with
    | .error e => .error e
    | .ok x => .ok (if x.leaf.kind == .remote then ⟨(((k.thread tid).toldOf va).map (·.1)).getD x.leaf, x.home⟩ else x)

/-- The device and the address there that the test of a page goes to: the page lies on another device, and the thread
has not been told of it. -/
def State.untested (s : State) (b tid va : Nat) (want : Want) : Option (Nat × Nat) :=
  if ((s.thread b tid).toldOf va).isSome then none
  else match s.laneXlate b tid va want with
    | .ok x => (match x.home with | .remote d a => some (d, a) | _ => none)
    | .error _ => none

/-- A thread asks about a page on another device before it makes its access there, so that a fault that the device finds
is taken at the instruction (R38, R40; log 26): the tag it waits for, none where there is nothing to ask, or no way. The
test of an atomic carries its operation; that of a load or a store no bytes. -/
def State.askPage (s : State) (b tid va : Nat) (want : Want) (access scope : Nat) (opw : Option Dword) (nf : Bool) :
    State × Option Word :=
  match s.untested b tid va want, s.block? b with
  | some (d, a), some k =>
    let ty := if opw.isSome then 0x05 else if want == .wr then 0x03 else 0x01
    let (s', sent) := s.request k.tenant ty d scope a (opw.getD 0) 0 [] (.test b tid access va nf)
    if sent then (s', some s'.fabric.tagCtr) else (s, none)
  | _, _ => (s, none)

/-- Whether a block is frozen, which the write of an instruction meets before its translation (R99, R327). -/
def State.frozenAt (s : State) (b : Nat) : Bool := (s.block? b).any Block.frozen

/-- A lane that may have to ask first. -/
def State.askFirst (s : State) (b tid va : Nat) (want : Want) (access scope : Nat) (opw : Option Dword) (nf : Bool)
    (f : State → LaneOut) : LaneOut :=
  if want == .wr && s.frozenAt b then f s
  else match s.askPage b tid va want access scope opw nf with
    | (s, some tag) => .wait s (.remote tag)
    | (_, none) => f s

/-- A view may now hold slots on another device (R103). -/
def State.markFar (s : State) (v d : Nat) : State :=
  match Sparse.find s.views v with
  | none => s
  | some w => if w.far.contains d then s else { s with views := Sparse.put s.views v { w with far := w.far ++ [d] } }

/-- The slot of a view for a granule on another device is asked of that device before the write, which may find none there
(R102, R103, R116; log 74): the tag that the thread waits for; none where it has the slot, or where no route leads there. -/
def State.askSlot (s : State) (b tid va access : Nat) (k : Block) (h : HomeAt) : State × Option Word :=
  match h with
  | .remote d a =>
    if k.vtag = 0 || (k.thread tid).captured.contains (va / 128) then (s, none)
    else
      let (s', sent) := (s.markFar k.vtag d).request k.tenant 0x03 d 0 a 0 (s.chainInl k.vtag) [] (.capture b tid access va)
      if sent then (s', some s'.fabric.tagCtr) else (s, none)
  | _ => (s, none)

/-- Bytes of a remote line that a proxy slice holds (R170). -/
def State.proxyBytes (s : State) (t va n : Nat) : Option (List Byte) :=
  (s.proxy.find? fun p => p.tenant == t && decide (p.va ≤ va ∧ va + n ≤ p.va + p.bytes.length)).map fun p =>
    (p.bytes.drop (va - p.va)).take n

/-- The predicted bytes of a block's speculative views in a range, the enclosing views' first (R132). -/
def Block.predictedIn (k : Block) (va n : Nat) : List (Nat × List Byte) :=
  k.specs.reverse.flatMap fun w => (List.range n).filterMap fun i =>
    (w.record.index (va + i)).map fun j => (va + i, [w.predicted.getD j 0])

/-- What a load gives. -/
inductive LoadOut where
  | bytes (s : State) (l : Leaf) (bs : List Byte)
  /-- it is to be asked of a device: whether a proxy slice and the core cache may keep the answer, and what lies over it -/
  | remote (s : State) (l : Leaf) (dev : Nat) (va : Nat) (keep near : Bool) (inl : BitVec 256) (cover : List (Nat × List Byte))
  | lost (s : State) (cause : Nat)
  | trap (t : Trap)
  deriving DecidableEq, Repr

/-- A load of a remote line: of the root view, from the core cache or a proxy slice where its policy and freshness allow it,
otherwise from the device that homes it, after what the core has written there (R105, R170, R171). -/
def State.remoteLoad (s : State) (k : Block) (g : Grid) (l : Leaf) (d a va n : Nat) (q : Qual) : LoadOut :=
  let root := k.vtag == 0
  let near := root && g.dl == 0 && q.policy == 0
  let cover := if root then g.storesOf k.core 0 else k.predictedIn va n ++ k.heldStores
  match (if near && !q.fresh then (s.core k.core).heldBytes k.tenant va n else none) with
  | some bs => .bytes s l bs
  | none =>
    let s := if root && g.dl == 0 then s.syncSector k.core k.tenant va else s
    match (if root && q.policy != 1 && !q.fresh then s.proxyBytes k.tenant va n else none) with
    | some bs => .bytes (if near then s.keepRemote k.core k.tenant va (.remote d a) bs else s) l (overlayStores bs va cover)
    | none =>
      let s := if g.dl == 0 then s.flushAt (.remote d a) n else s
      .remote s l d a (root && q.policy != 1) near (s.chainInl k.vtag)
        (cover.filter fun e => decide (e.1 < va + n ∧ va < e.1 + e.2.length))

/-- A load of a thread: translation and permission, the page test of the instruction, the race test of R91, and the
bytes under views, turns, caches and held stores (R87, R105, R136, R170, R171). A load that goes to the home reads its
whole sector there, and flushes what a read of it flushes. -/
def State.loadLane (s : State) (b tid : Nat) (pc : Dword) (va n : Nat) (q : Qual) (page : Leaf → Option Trap) : LoadOut :=
  match s.block? b, s.gridOf b with
  | some k, some g =>
    match s.laneXlate b tid va .rd with
    | .error e => if e.1 = cINTEG then .lost s e.2 else .trap (Trap.ofXlate e 0 va)
    | .ok x =>
      match page x.leaf with
      | some t => .trap t
      | none =>
        match s.noteAccess b tid pc (va / 64) false with
        | .error t => .trap t
        | .ok s =>
          let s := s.fillTlb k.core k.tenant x.leaf
          let q := { q with policy := closerPolicy q.policy x.leaf.policy }
          match x.home with
          | .remote d a => s.remoteLoad k g x.leaf d a va n q
          | h =>
            match (if q.policy = 1 && x.leaf.kind == .host then none else s.lostHome h n) with
            | some c => .lost s c
            | none =>
              let s := if q.policy = 1 then s else s.fillHost h false
              if k.vtag != 0 || g.dl != 0 then
                let s := if g.dl == 0 then s.flushAt h n else s
                .bytes s x.leaf (overlayStores (s.turnRead g k.tenant k.core k.vtag va h n) va k.heldStores)
              else
                let s := if s.loadHits k.core k.tenant va q then s else s.flushAt (h.back (va % 64)) 64
                let (s, bs) := s.cachedLoad k.core k.tenant va h n q
                .bytes s x.leaf bs
  | _, _ => .bytes s (remoteLeaf va) (List.replicate n 0)

/-! ## Stores -/

/-- The cause under which the walk of an access meets a lost unit (R27). -/
def State.walkLost (s : State) (b tid va : Nat) (want : Want) : Option Nat :=
  if want == .wr && (s.block? b).any Block.frozen then none
  else match s.laneXlate b tid va want with
    | .error e => if e.1 = cINTEG then some e.2 else none
    | .ok _ => none

/-- A failed access to a lost unit by an operation without a reply: it performs nothing and posts INTEG (R27). -/
def State.lostStore (s : State) (b tid : Nat) (pc : Dword) (cause va : Nat) : State :=
  match s.block? b with
  | none => s
  | some k => s.postEvent k.tenant (s.trapRecord b tid pc { Trap.of cINTEG cause with access := 1, addr := va })

/-- Bytes written at their home by a store, a copy or a held effect: to memory or a working copy here, or sent to the
device that homes them, with the view whose write it is (R38, R39, R101, R102). -/
def State.putStore (s : State) (b tid : Nat) (pc : Dword) (v va : Nat) (h : HomeAt) (bs : List Byte) : State :=
  match s.block? b with
  | none => s
  | some k =>
    match h with
    | .remote d a =>
      let s := if v = 0 then (s.noteWritten k.core k.tenant va).dropProxy k.tenant va bs.length else s.markFar v d
      (s.request k.tenant 0x03 d 0 a (BitVec.ofNat 64 (bs.length * 2 ^ 16)) (s.chainInl v) (flitsOf bs) (.store b tid pc)).1
    | h =>
      match s.lostHome h bs.length with
      | some c => s.lostStore b tid pc c va
      | none => if v = 0 then s.storeHome (some ⟨b, tid, pc⟩) k.tenant va h bs else s.writeSlot k.tenant v va bs

/-- What a store does. -/
inductive StoreOut where
  | done (s : State)
  /-- its view asks another device for a slot first, and the thread waits for the answer to this tag -/
  | ask (s : State) (tag : Word)
  | trap (t : Trap)
  | noSlot (s : State)
  deriving DecidableEq, Repr

/-- A child that finds no slot stops as a whole (R116). -/
def State.suspendChild (s : State) (b : Nat) : State :=
  s.updBlock b fun k => k.lack s.cycle

/-- The checks of a write of n bytes, in order: a frozen block, translation and permission, the view rules, the page
test of the instruction, the block's own tile, the race test (R64, R91, R99, R101, R129, R136, R327). A compare-and-swap
counts as a store only once it has stored (R92, R326). -/
def State.checkWrite (s : State) (b tid : Nat) (pc : Dword) (va n : Nat) (atomic store : Bool) (access : Nat)
    (page : Leaf → Option Trap) : Except Trap (State × Xl × StorePath) :=
  match s.block? b with
  | none => .error (Trap.of cILLEGAL 3)
  | some k =>
    if k.frozen then .error { Trap.of cFROZEN 1 with access := access, addr := va }
    else match s.laneXlate b tid va .wr with
      | .error e => .error (Trap.ofXlate e access va)
      | .ok x =>
        match s.storePath k x.leaf atomic access va with
        | .trap t => .error t
        | path =>
          match page x.leaf with
          | some t => .error t
          | none =>
            if k.ownTile va n then .error { Trap.of cSPECDEPTH 7 with access := access, addr := va }
            else match s.noteAccess b tid pc (va / 64) store with
              | .error t => .error t
              | .ok s => .ok (s.fillTlb k.core k.tenant x.leaf, x, path)

/-- A compare-and-swap of the turn has stored: the access that it noted counts as a store (R92, R326). -/
def State.noteStored (s : State) (b tid : Nat) (pc : Dword) (va : Nat) : State :=
  match s.block? b with
  | none => s
  | some k => s.updGrid k.grid fun g => { g with accesses := g.accesses.map fun a =>
      if a.block == b && a.tid == tid && a.pc == pc && a.sector == va / 64 && a.turn == g.turn then { a with store := true } else a }

/-- An atomic sent to the device that homes its location, of a view with the chain of views in a data flit (R38, R40,
R104): whether it has left. No copy of the line stays in a proxy slice (R177); it is one of the lines of the core's next
signature (R173), of a compare-and-swap once the answer tells that it has stored. -/
def State.sendAtomic (s : State) (core t v va : Nat) (d a : Nat) (scope : Nat) (opw : Dword) (b c : Nat) (what : RemoteFor) :
    State × Bool :=
  let s := if v != 0 then s.markFar v d
    else (match what with
      | .atomic _ (some _) => s
      | _ => s.noteWritten core t va).dropProxy t va 8
  let chain := if v = 0 then [] else [sealFlit (BitVec.ofNat 512 (chainBits (s.viewChain nestFuel v)))]
  s.request t 0x05 d scope a opw (BitVec.ofNat 256 (b + c * 2 ^ 64)) chain what

/-- The tags of the loads and atomics of a thread that other devices have not answered (R178). -/
def State.loadTags (s : State) (b tid : Nat) : List Word :=
  s.fabric.remotes.filterMap fun r => match r.what with
    | .load id .. | .atomic id _ => if s.pending.any fun p => p.id == id && p.block == b && p.tid == tid then some r.tag else none
    | _ => none

/-- The wait for those answers; none where there is none to come. -/
def State.loadsWait (s : State) (b tid : Nat) : Option Wait :=
  let loads := s.loadTags b tid
  if loads.isEmpty then none else some (.acks 4 loads true)

/-- A release that also orders the thread's earlier loads: that of a FENCE or of an atomic (R178, R327). -/
def State.fenceRelease (s : State) (b tid : Nat) (pc : Dword) (scope : Nat) : State × Option Wait :=
  match s.releaseAt b tid pc scope with
  | (s, some w) => (s, some w)
  | (s, none) => (s, s.loadsWait b tid)

/-- Whether a multicast of this device to an overlapping address is still unanswered (R334, R92). -/
def State.mcastMeets (s : State) (t va n : Nat) : Bool :=
  s.fabric.remotes.any fun r => match r.what with
    | .mcast len => r.tenant == t && decide (r.addr < va + n ∧ va < r.addr + len)
    | _ => false

/-- The contributions that a core has buffered for bytes which a thread is about to write or to update otherwise. At DL1 and
above those of its grid take their place among the effects of the turn. At DL0 those that the thread itself has made are folded,
so that its accesses keep their order; what the write reads at the home flushes the others (R87, R177, R184; DEDUCED, log 96). -/
def State.closeReds (s : State) (b tid : Nat) (pc : Dword) (h : HomeAt) (n : Nat) : State :=
  match s.block? b with
  | none => s
  | some k =>
    let meets := fun (r : RedEntry) => h.overlaps n r.home (atomBytes r.fmt)
    if s.dl0 b then s.flushReds k.core fun r => s.atDl0 r.grid && meets r && r.threads.contains (b, tid)
    else s.redsToTurn b tid pc k meets

/-- A store in the root view at DL0 (R170-R172). One that the core cache takes in reads the rest of its sector at a home on
this device or its host; one to another device that it does not take in is sent. -/
def State.rootStore (s : State) (b tid : Nat) (pc : Dword) (k : Block) (va : Nat) (x : Xl) (bs : List Byte) (q : Qual) : State :=
  let q := { q with policy := closerPolicy q.policy x.leaf.policy }
  match (if q.policy = 1 && x.leaf.kind == .host then none else s.lostHome x.home bs.length) with
  | some c => s.lostStore b tid pc c va
  | none =>
    let s := s.closeReds b tid pc x.home bs.length
    let caches := decide (q.policy = 0) && !q.fresh
    if x.leaf.kind == .remote && !caches then (s.syncSector k.core k.tenant va).putStore b tid pc 0 va x.home bs
    else
      let s := if caches && x.leaf.kind != .remote && ((s.core k.core).sector? k.tenant (va / 64)).isNone then
        s.flushAt (x.home.back (va % 64)) 64 else s
      s.cachedStore ⟨b, tid, pc⟩ k.core k.tenant va x.home bs q

/-- Whether the last request, which had the last tag, has left for another device. -/
def State.lastSent (s : State) : Bool := s.fabric.remotes.any fun r => r.tag == s.fabric.tagCtr && r.what != .signature

/-- A store of a thread whose walk meets no lost unit. -/
def State.storeWalked (s : State) (b tid : Nat) (pc : Dword) (va : Nat) (bs : List Byte) (q : Qual)
    (page : Leaf → Option Trap) : StoreOut :=
  match s.checkWrite b tid pc va bs.length false true 1 page, s.block? b, s.gridOf b with
  | .error t, _, _ => .trap t
  | .ok (s, x, path), some _, some g =>
    match s.block? b with
    | none => .done s
    | some k =>
      match path with
      | .trap t => .trap t
      | .outbox =>
        match k.holdOut (.store tid va bs) with
        | none => .trap { Trap.of cSPECDEPTH 5 with access := 1, addr := va }
        | some k => .done (s.setBlock b k)
      | .memory =>
        match s.askSlot b tid va 1 k x.home with
        | (s, some tag) => .ask s tag
        | (s, none) =>
        match (if x.leaf.kind == .remote then some s else s.capture k.tenant k.vtag va x) with
        | none => .noSlot (s.suspendChild b)
        | some s =>
          let s := if s.mcastMeets k.tenant va bs.length then s.threadEvent b tid 0x0A pc else s
          if g.dl != 0 then
            .done ((s.closeReds b tid pc x.home bs.length).addEffect b tid pc (.store k.vtag va x.home bs))
          else if k.vtag != 0 then .done (s.putStore b tid pc k.vtag va x.home bs)
          else .done (s.rootStore b tid pc k va x bs q)
  | .ok (s, _, _), _, _ => .done s

/-- A store of a thread. One whose walk meets a lost unit performs nothing and posts INTEG (R27). -/
def State.storeLane (s : State) (b tid : Nat) (pc : Dword) (va : Nat) (bs : List Byte) (q : Qual)
    (page : Leaf → Option Trap) : StoreOut :=
  match s.walkLost b tid va .wr with
  | some c => .done (s.lostStore b tid pc c va)
  | none => s.storeWalked b tid pc va bs q page

/-- A store's outcome as a lane's. -/
def StoreOut.lane : StoreOut → LaneOut
  | .done s => .done s
  | .ask s tag => .wait s (.remote tag)
  | .trap t => .trap t
  | .noSlot s => .noSlot s

/-! ## Atomics at their home -/

/-- One atomic step at its home, in memory or on the working copy, by a thread: the old value, the flags, and the machine after
it (R104, R183). A failed CAS writes nothing. -/
def State.atomicAt (s : State) (who : Site) (core t v va : Nat) (h : HomeAt) (op : AOp) (fmt : Fmt) (uns : Bool) (b c : Nat) :
    State × Nat × Flags :=
  let n := atomBytes fmt
  let s := if v = 0 then ((s.syncSector core t va).flushAt h n).fillHost h true else s
  let old := bytesToNat (s.readIn t v va h n)
  let (nv, fl) := atomStep op fmt uns old b c
  let s := if op == .cas && old != c % 2 ^ (8 * n) then s
    else if v = 0 then (s.noteWritten core t va).storeHome (some who) t va h (natToBytes n nv) else s.writeSlot t v va (natToBytes n nv)
  (s, old, fl)

end Sys2Proof.Machine
end

