-- ==== Sys2Proof/Machine/Mem.lean ====
section
/-! DEFINITION. Class MEM: loads, stores, scratchpad and on-chip accesses, atomics, RED, FENCE, DISCARD, PREF and STMC
(R319-R334). -/

namespace Sys2Proof.Machine

/-- The outcome of a meaning. -/
abbrev Out := Host.Outcome State Fault Refusal

/-- The address of the instruction being executed. -/
def Issue.at (i : Issue) : Dword := i.pc + BitVec.ofNat 64 (4 * i.pos)

/-- The thread of a lane. -/
def State.laneThread (s : State) (i : Issue) (l : Lane) : Thread := s.thread i.block l.tid

/-- MODE(): an override, or %fpcr.RM (R193, R238). -/
def modeOf (th : Thread) (r : Rnd) : Nat :=
  match r with
  | .forced m => m.toNat
  | .inForce => bitsAt th.fpcr.toNat 0 3

/-- Flags raised in a thread (R194). -/
def State.raiseIn (s : State) (b tid : Nat) (fl : Flags) : State :=
  if fl == 0 then s else s.updThread b tid fun th => th.raise fl

/-! ## LD and ST (R321-R323) -/

/-- The element formats of a .X access (R322). -/
def narrowOk (f : Fmt) : Bool := match f with | .int8 | .int16 | .fp16 | .bf16 | .d8 => true | _ => false

/-- The element format of an access: E.FMT, or the page's (R322). -/
def accessFmt (efmt page : Fmt) : Fmt := if efmt == .bytes then page else efmt

/-- The page test of a .X access: OPERAND, cause 10 (R322). -/
def xPageFault (efmt : Fmt) (rnd : Bool) (access va : Nat) (l : Leaf) : Option Trap :=
  let bad :=
    if efmt == .bytes then !narrowOk l.fmt || (rnd && l.fmt != .fp16 && l.fmt != .bf16)
    else l.fmt != .bytes && l.fmt != efmt
  if bad then some { Trap.of cOPERAND 10 with access := access, addr := va } else none

/-- The size in bytes of an access, none for a .X access whose format only the page gives (R321). -/
def accessSize (w : Width) (size : LdSize) (efmt : Fmt) : Option Nat :=
  match size with
  | .raw => some (4 * 2 ^ w.toNat)
  | .byte => some 1
  | .half => some 2
  | .x => if efmt == .bytes then none else some (2 ^ w.toNat * (efmt.bits / 8))

/-- One loaded element as a register, and its flags (R322). -/
def decodeElem (f : Fmt) (e : Nat) : Word × Flags :=
  match f with
  | .int8 => (BitVec.ofInt 32 (sext e 8), 0)
  | .int16 => (BitVec.ofInt 32 (sext e 16), 0)
  | .fp16 => let r := fp16.convert fp32 0 e; (BitVec.ofNat 32 r.1, r.2)
  | .bf16 => let r := bf16.convert fp32 0 e; (BitVec.ofNat 32 r.1, r.2)
  | _ => let r := fpOfD8 fp32 0 e; (BitVec.ofNat 32 r.1, r.2)

/-- One register as a stored element, and its flags (R322). -/
def encodeElem (f : Fmt) (m : Nat) (w : Word) : Nat × Flags :=
  match f with
  | .int8 => (w.toNat % 2 ^ 8, 0)
  | .int16 => (w.toNat % 2 ^ 16, 0)
  | .fp16 => fp32.convert fp16 m w.toNat
  | .bf16 => fp32.convert bf16 m w.toNat
  | _ => d8OfFp fp32 w.toNat

/-- The bytes of a load as registers (R321, R322). -/
def loadRegs (w : Width) (size : LdSize) (sx : Bool) (f : Fmt) (bs : List Byte) : List Word × Flags :=
  match size with
  | .raw => (natToWords (2 ^ w.toNat) (bytesToNat bs), 0)
  | .byte => ([if sx then BitVec.ofInt 32 (sext (bytesToNat bs) 8) else BitVec.ofNat 32 (bytesToNat bs)], 0)
  | .half => ([if sx then BitVec.ofInt 32 (sext (bytesToNat bs) 16) else BitVec.ofNat 32 (bytesToNat bs)], 0)
  | .x =>
    let n := f.bits / 8
    let es := (List.range (2 ^ w.toNat)).map fun i => decodeElem f (bytesToNat ((bs.drop (n * i)).take n))
    (es.map (·.1), es.foldl (fun a e => a ||| e.2) 0)

/-- How a remote reply is turned into registers: destination, size code with .SX and W, and format (State.PendOp.how). -/
def howCode (d : Nat) (w : Width) (size : LdSize) (sx : Bool) (f : Fmt) : Nat × Nat × Nat :=
  (d, size.code.toNat + (if sx then 4 else 0) + 8 * w.toNat, f.code.toNat)

/-- The word an address pair holds (R244). -/
def addrOf (th : Thread) (a : Reg) : Nat := (th.pair a.toNat).toNat

/-- Whether only the page gives the format of an access, and with it its size (R321). -/
def pageGives (fmt : Fmt) (size : LdSize) : Bool := size == .x && fmt == .bytes

/-- The address of an access of 2^W elements of a size (R323). -/
def elemAddr (base : Nat) (w : Width) (off : BitVec 8) (size : Nat) : Nat := ea base (sext off.toNat 8 * (2 ^ w.toNat * size : Nat))

/-- The narrow format of the page that holds an address, as far as a lane can tell. -/
def State.narrowAt (s : State) (i : Issue) (l : Lane) (want : Want) (va : Nat) : Option Fmt :=
  match s.laneXlate i.block l.tid va want with
  | .ok x => if narrowOk x.leaf.fmt then some x.leaf.fmt else none
  | .error _ => none

/-- Address, size and element format of an LD or ST (R321-R323). Where only the page gives the format, the offset counts
elements of the size that the page of the access so reached gives; where no size fits, elements of one byte (DESIGN CHOICE,
log 87). -/
def State.accessOf (s : State) (i : Issue) (l : Lane) (acc : Want) (w : Width) (a : Reg) (off : BitVec 8) (fmt : Fmt)
    (size : LdSize) : Nat × Nat × Fmt :=
  let base := addrOf (s.laneThread i l) a
  match accessSize w size fmt with
  | some n => (ea base (sext off.toNat 8 * (n : Nat)), n, fmt)
  | none =>
    let fits := fun (z : Nat) => (s.narrowAt i l acc (elemAddr base w off z)).any fun f => f.bits / 8 == z
    let va := elemAddr base w off (if !fits 1 && fits 2 then 2 else 1)
    let f := (s.narrowAt i l acc va).getD .int8
    (va, 2 ^ w.toNat * (f.bits / 8), f)

/-- The page test of an LD or ST (R322). -/
def accessPage (fmt : Fmt) (size : LdSize) (rnd : Bool) (access va : Nat) (lf : Leaf) : Option Trap :=
  if size == .x then xPageFault fmt rnd access va lf else none

/-- A load's answer made a pending result (R156, R323). -/
def LoadOut.pend (o : LoadOut) (i : Issue) (l : Lane) (w : Width) (d : Reg) (fmt : Fmt) (size : LdSize) (sx : Bool) (f : Fmt)
    (va n : Nat) : LaneOut :=
  let blank := regWrites d.toNat (List.replicate (2 ^ w.toNat) 0)
  match o with
  | .trap t => .trap t
  | .lost s c => .done (s.pend i l blank [] 0 true false (0, 0, 0) (some ⟨cINTEG, c, 0, va⟩))
  | .bytes s lf bs =>
    -- a load through a host window is a remote load for R149
    let r := loadRegs w size sx f bs
    let s := s.pend i l (regWrites d.toNat r.1) [] r.2 true (lf.kind == .host) (0, 0, 0) none
    .done (s.overHost (s.tenantOf i.block) (homeOf (s.tenantOf i.block) va lf) 0 va)
  | .remote s lf dev ra keep near inl cover =>
    let s := s.pend i l blank [] 0 false true (howCode d.toNat w size sx (accessFmt fmt lf.fmt)) none
    let id := s.nextUid
    let s := { s with pending := s.pending.map fun (p : PendOp) => if p.id == id then { p with cover := cover } else p }
    let (s, sent) := s.request (s.tenantOf i.block) 0x01 dev 0 ra (BitVec.ofNat 64 (n * 2 ^ 16)) inl [] (.load id keep near)
    .done (if sent then s else s.replyLost id ⟨cINTEG, 3, 0, va⟩)

/-- An access whose size the page gives asks first about the pages on other devices that may hold it (R322, R323). -/
def State.askAccess (s : State) (i : Issue) (l : Lane) (want : Want) (access : Nat) (w : Width) (a : Reg) (off : BitVec 8) (fmt : Fmt)
    (size : LdSize) (f : State → LaneOut) : LaneOut :=
  let at_ := elemAddr (addrOf (s.laneThread i l) a) w off
  if pageGives fmt size then
    s.askFirst i.block l.tid (at_ 1) want access 0 none false fun s =>
      if (s.narrowAt i l want (at_ 1)).any (fun f => f.bits == 8) then f s
      else s.askFirst i.block l.tid (at_ 2) want access 0 none false f
  else f s

/-- The fault of a page that is to give an access its size, before the alignment can be tested: that of a frozen block's store,
or of the translation (R322, R327). -/
def State.unsized (s : State) (i : Issue) (l : Lane) (want : Want) (access va : Nat) (fmt : Fmt) (size : LdSize) : Option Trap :=
  if !pageGives fmt size then none
  else match s.laneXlate i.block l.tid va want with
    | .ok _ => none
    | .error e =>
      some (if want == .wr && s.frozenAt i.block then { Trap.of cFROZEN 1 with access := access, addr := va } else Trap.ofXlate e access va)

/-- LD (R323). The page that gives the format of a .X access is looked at before the alignment. -/
def ldLane (w : Width) (d a : Reg) (off : BitVec 8) (pol : Policy) (fresh : Bool) (fmt : Fmt) (size : LdSize) (sx : Bool)
    (s : State) (i : Issue) (l : Lane) : LaneOut :=
  s.askAccess i l .rd 0 w a off fmt size fun s =>
    let (va, n, f) := s.accessOf i l .rd w a off fmt size
    match s.unsized i l .rd 0 va fmt size with
    | some t => .trap t
    | none =>
      if va % min n 32 != 0 then .trap { Trap.of cALIGN 3 with addr := va }
      else s.askFirst i.block l.tid va .rd 0 0 none false fun s =>
        (s.loadLane i.block l.tid i.at va n ⟨pol.code.toNat, fresh⟩ (accessPage fmt size false 0 va)).pend i l w d fmt size sx f va n

def execLd (w : Width) (d a : Reg) (off : BitVec 8) (pol : Policy) (fresh : Bool) (fmt : Fmt) (size : LdSize) (sx : Bool)
    (s : State) : Out :=
  .next (s.runLongLanes (.ld w d a off pol fresh fmt size sx) (ldLane w d a off pol fresh fmt size sx))

/-- The bytes that an ST stores, and the flags of their conversion (R321, R322). -/
def storeBytes (th : Thread) (w : Width) (d : Reg) (rnd : Rnd) (size : LdSize) (f : Fmt) (n : Nat) : List Byte × Flags :=
  let ws := th.group d.toNat (2 ^ w.toNat)
  match size with
  | .raw => (natToBytes n (wordsToNat ws), 0)
  | .byte | .half => (natToBytes n (wordsToNat (ws.take 1)), 0)
  | .x =>
    let es := ws.map fun x => encodeElem f (modeOf th rnd) x
    (es.flatMap fun e => natToBytes (f.bits / 8) e.1, es.foldl (fun a e => a ||| e.2) 0)

/-- ST (R323). -/
def stLane (w : Width) (d a : Reg) (off : BitVec 8) (rnd : Rnd) (pol : Policy) (fresh : Bool) (fmt : Fmt) (size : LdSize)
    (s : State) (i : Issue) (l : Lane) : LaneOut :=
  s.askAccess i l .wr 1 w a off fmt size fun s =>
    let (va, n, f) := s.accessOf i l .wr w a off fmt size
    let (bs, fl) := storeBytes (s.laneThread i l) w d rnd size f n
    match s.unsized i l .wr 1 va fmt size with
    | some t => .trap t
    | none =>
      if va % min n 32 != 0 then .trap { Trap.of cALIGN 3 with access := 1, addr := va }
      else s.askFirst i.block l.tid va .wr 1 0 none false fun s =>
        match s.storeLane i.block l.tid i.at va bs ⟨pol.code.toNat, fresh⟩ (accessPage fmt size (rnd != .inForce) 1 va) with
        | .done s => .done (s.raiseIn i.block l.tid fl)
        | o => o.lane

def execSt (w : Width) (d a : Reg) (off : BitVec 8) (rnd : Rnd) (pol : Policy) (fresh : Bool) (fmt : Fmt) (size : LdSize)
    (s : State) : Out :=
  .next (s.runLanes (.st w d a off rnd pol fresh fmt size) (stLane w d a off rnd pol fresh fmt size))

/-! ## Scratchpad, cluster scratchpad, on-chip map (R160-R164, R324) -/

/-- The 32-bit address X[A] + 4 · SEXT(IMM8) (R324). -/
def addr32 (th : Thread) (a : Reg) (off : BitVec 8) : Nat := wrap ((th.reg a.toNat).toNat + 4 * sext off.toNat 8) 32

/-- The declared scratchpad size of a block (R160). -/
def State.scratchSize (s : State) (b : Nat) : Nat := match s.kernelOf b with | some n => n.scratch | none => 0

/-- The member of a block's cluster with an index. -/
def State.memberOf (s : State) (b m : Nat) : Option Nat :=
  match s.block? b with
  | some k => (s.cluster k.cluster).members[m]?
  | none => none

/-- The checks of a cluster scratchpad range, and the block and offset it names (R161). -/
def State.clusterAddr (s : State) (b addr n : Nat) : Except Trap (Nat × Nat) :=
  let m := bitsAt addr 28 4
  let size := match s.kernelOf b with | some k => k.cluster | none => 1
  let size := match s.block? b with | some k => if k.parent.isSome then 1 else size | none => size
  if size ≤ m ∨ bitsAt addr 19 9 ≠ 0 then .error { Trap.of cSCRATCH 2 with addr := addr }
  else match s.memberOf b m with
    | none => .error { Trap.of cSCRATCH 2 with addr := addr }
    | some o =>
      if s.scratchSize o < bitsAt addr 0 19 + n then .error { Trap.of cSCRATCH 1 with addr := addr }
      else .ok (o, bitsAt addr 0 19)

/-- Bytes of a block's scratchpad. -/
def State.readScratch (s : State) (b off n : Nat) : List Byte :=
  match s.block? b with
  | some k => Memory.read k.scratch off n
  | none => List.replicate n 0

def State.writeScratch (s : State) (b off : Nat) (bs : List Byte) : State :=
  s.updBlock b fun k => { k with scratch := Memory.write k.scratch off bs }

/-- Bytes of a member's scratchpad as a thread reads them. Within a turn the part of another core stands as it did at the
last boundary, under the buffered writes of the reader's own core (R87, R324). -/
def State.readMember (s : State) (b o off n : Nat) : List Byte :=
  match s.block? b, s.gridOf b, s.block? o with
  | some k, some g, some m =>
    if g.dl == 0 || k.core == m.core then s.readScratch o off n
    else overlayStores (Memory.read m.wasScratch off n) off (g.effects.filterMap fun e => match e.kind with
      | .scratch mb at_ x | .tbInit mb at_ x => if mb == o && e.core == k.core then some (at_, x) else none
      | _ => none)
  | _, _, _ => s.readScratch o off n

/-- A write to a member's scratchpad: at once at DL0 and on the same core, at the boundary from another core (R87). -/
def State.writeMember (s : State) (b tid : Nat) (pc : Dword) (o off : Nat) (bs : List Byte) : State :=
  match s.block? b, s.gridOf b, s.block? o with
  | some k, some g, some m =>
    if g.dl == 0 || k.core == m.core then s.writeScratch o off bs
    else s.addEffect b tid pc (.scratch o off bs)
  | _, _, _ => s

def alignTrap (addr n access : Nat) : Option Trap :=
  if addr % min n 16 != 0 then some { Trap.of cALIGN 3 with access := access, addr := addr } else none

/-- The sector under which cluster scratchpad accesses are checked for R91: above every virtual sector. -/
def memberSector (o off : Nat) : Nat := 2 ^ 58 + o * 2 ^ 16 + off / 64

/-- An access to n bytes of the scratchpad of a member of a cluster, each of its sectors checked for races with the other
members' accesses (R91); `seq` is its place in the order of R87 where an engine makes it. Of a cluster of one block nobody else
reaches it. -/
def State.noteMember (s : State) (b tid : Nat) (pc : Dword) (o off n : Nat) (store : Bool) (seq : Option Nat) : Except Trap State :=
  if (match s.block? b with | some k => decide ((s.cluster k.cluster).members.length ≤ 1) | none => true) then .ok s
  else (List.range ((off + n - 1) / 64 - off / 64 + 1)).foldl (fun (acc : Except Trap State) j =>
    acc.bind fun s => s.noteAccessAt b tid pc (memberSector o (off / 64 * 64 + 64 * j)) store seq) (.ok s)

/-- LDS (R324). -/
def ldsLane (w : Width) (d a : Reg) (off : BitVec 8) (s : State) (i : Issue) (l : Lane) : LaneOut :=
  let n := 4 * 2 ^ w.toNat
  let ad := addr32 (s.laneThread i l) a off
  match alignTrap ad n 0 with
  | some t => .trap t
  | none =>
    if s.scratchSize i.block < ad + n then .trap { Trap.of cSCRATCH 1 with addr := ad }
    else match s.noteMember i.block l.tid i.at i.block ad n false none with
      | .error t => .trap t
      | .ok s => .done (s.pend i l
          (regWrites d.toNat (natToWords (2 ^ w.toNat) (bytesToNat (s.readScratch i.block ad n)))) [] 0 true false (0, 0, 0) none)

def execLds (w : Width) (d a : Reg) (off : BitVec 8) (s : State) : Out :=
  .next (s.runLongLanes (.lds w d a off) (ldsLane w d a off))

/-- STS (R324). -/
def stsLane (w : Width) (d a : Reg) (off : BitVec 8) (s : State) (i : Issue) (l : Lane) : LaneOut :=
  let n := 4 * 2 ^ w.toNat
  let th := s.laneThread i l
  let ad := addr32 th a off
  match alignTrap ad n 1 with
  | some t => .trap t
  | none =>
    if s.scratchSize i.block < ad + n then .trap { Trap.of cSCRATCH 1 with access := 1, addr := ad }
    else match s.noteMember i.block l.tid i.at i.block ad n true none with
      | .error t => .trap t
      | .ok s => .done (s.writeScratch i.block ad (natToBytes n (th.groupNat d.toNat (2 ^ w.toNat))))

def execSts (w : Width) (d a : Reg) (off : BitVec 8) (s : State) : Out :=
  .next (s.runLanes (.sts w d a off) (stsLane w d a off))

/-- LDC (R324, R91). -/
def execLdc (w : Width) (d a : Reg) (off : BitVec 8) (s : State) : Out :=
  .next (s.runLongLanes (.ldc w d a off) fun s i l =>
    let n := 4 * 2 ^ w.toNat
    let ad := addr32 (s.laneThread i l) a off
    match s.clusterAddr i.block ad n with
    | .error t => .trap t
    | .ok (o, at_) =>
      match alignTrap ad n 0 with
      | some t => .trap t
      | none =>
        match s.noteMember i.block l.tid i.at o at_ n false none with
        | .error t => .trap t
        | .ok s => .done (s.pend i l
            (regWrites d.toNat (natToWords (2 ^ w.toNat) (bytesToNat (s.readMember i.block o at_ n)))) [] 0 true false (0, 0, 0) none))

/-- STC (R324, R91). -/
def execStc (w : Width) (d a : Reg) (off : BitVec 8) (s : State) : Out :=
  .next (s.runLanes (.stc w d a off) fun s i l =>
    let n := 4 * 2 ^ w.toNat
    let th := s.laneThread i l
    let ad := addr32 th a off
    match s.clusterAddr i.block ad n with
    | .error t => .trap { t with access := 1 }
    | .ok (o, at_) =>
      match alignTrap ad n 1 with
      | some t => .trap t
      | none =>
        match s.noteMember i.block l.tid i.at o at_ n true none with
        | .error t => .trap t
        | .ok s => .done (s.writeMember i.block l.tid i.at o at_ (natToBytes n (th.groupNat d.toNat (2 ^ w.toNat)))))

/-! ### The on-chip map -/

/-- What an on-chip address names, within one allocation of the tenant (R163, R164). -/
inductive OcmAt where
  /-- a thread's register, as its word offset from the block's base -/
  | reg (b : Nat) (off : Nat)
  | scratch (b : Nat) (off : Nat)
  | tile (t : Nat) (off : Nat)
  deriving DecidableEq, Repr

/-- The blocks that hold resources of a core. -/
def State.blocksOn (s : State) (c : Nat) : List (Nat × Block) :=
  s.blocks.filter fun e => e.2.core == c && e.2.state != .saved

/-- The allocation that holds n bytes from an on-chip address; none where none of the tenant's does (R164). -/
def State.ocmFind (s : State) (t addr n : Nat) : Option OcmAt :=
  if 2 ^ 29 ≤ addr ∨ n = 0 then none
  else
    let c := addr / 2 ^ 20
    let o := addr % 2 ^ 20
    if o + n ≤ 0x40000 then
      (s.blocksOn c).findSome? fun e =>
        let len := 4 * ((s.kernelOf e.1).map Kernel.totalCharge).getD 0
        if e.2.tenant == t && decide (4 * e.2.regBase ≤ o ∧ o + n ≤ 4 * e.2.regBase + len) then some (.reg e.1 (o - 4 * e.2.regBase)) else none
    else if 0x40000 ≤ o ∧ o + n ≤ 0xA0000 then
      (s.blocksOn c).findSome? fun e =>
        let base := 0x40000 + e.2.scratchBase
        -- the allocation is the declared size rounded up (R151)
        if e.2.tenant == t && decide (base ≤ o ∧ o + n ≤ base + (s.scratchSize e.1 + 255) / 256 * 256) then
          some (.scratch e.1 (o - base)) else none
    else if 0xA0000 ≤ o ∧ o + n ≤ 0xE0000 then
      let m := (o - 0xA0000) / 0x10000
      if (o - 0xA0000 + n - 1) / 0x10000 = m ∧ (s.tile (4 * c + m)).owner = some t then
        some (.tile (4 * c + m) ((o - 0xA0000) % 0x10000)) else none
    else none

/-- The thread and register at a word of a block's register run (R163). -/
def regAt (n : Kernel) : Nat → Nat → Nat → Option (Nat × Nat)
  | 0, _, _ => none
  | fuel + 1, tid, w => let c := n.charge tid; if w < c then some (tid, w) else regAt n fuel (tid + 1) (w - c)

/-- A word of an allocation, by its byte offset, which is a multiple of 4: as it stands, or as it stood at the last turn
boundary of its grid. -/
def State.ocmReadWord (s : State) (x : OcmAt) (was : Bool) (i : Nat) : Word :=
  match x with
  | .scratch b off => BitVec.ofNat 32 (bytesToNat (if was then
      (match s.block? b with | some k => Memory.read k.wasScratch (off + 4 * i) 4 | none => [])
      else s.readScratch b (off + 4 * i) 4))
  | .tile t off => Sparse.get 0 (if was then (s.tile t).was else (s.tile t).elems) (off / 4 + i)
  | .reg b off =>
    match s.kernelOf b, s.block? b with
    | some n, some k => match regAt n k.T 0 (off / 4 + i) with
      | some (tid, r) => if was then Sparse.get 0 (k.wasRegs.getD tid []) r else (k.thread tid).reg r
      | none => 0
    | _, _ => 0

/-- The last of a thread's results, still to be written, that names a register. -/
def State.lastPend (s : State) (b tid r : Nat) : Option Nat :=
  (s.pending.filter fun p => p.block == b && p.tid == tid && p.regs.any fun e => e.1 == r).getLast?.map (·.id)

/-- A write of one word. A register with a pending write of its own thread takes the value after that write (R164). -/
def State.ocmWriteWord (s : State) (x : OcmAt) (i : Nat) (v : Word) : State :=
  match x with
  | .scratch b off => s.writeScratch b (off + 4 * i) (natToBytes 4 v.toNat)
  | .tile t off => s.updTile t fun y => { y with elems := Sparse.set 0 y.elems (off / 4 + i) v }
  | .reg b off =>
    match s.kernelOf b, s.block? b with
    | some n, some k => match regAt n k.T 0 (off / 4 + i) with
      | some (tid, r) =>
        match s.lastPend b tid r with
        | some id => { s with pending := s.pending.map fun (p : PendOp) => if p.id == id then { p with ocm := p.ocm ++ [(r, v)] } else p }
        | none => s.updThread b tid fun th => th.setReg r v
      | none => s
    | _, _ => s

def State.ocmWrite (s : State) (x : OcmAt) (ws : List Word) : State :=
  ws.zipIdx.foldl (fun s e => s.ocmWriteWord x e.2 e.1) s

/-- Whether an on-chip address lies on another core than that of a block whose grid runs in turns (R87, R324). -/
def State.ocmFar (s : State) (b addr : Nat) : Bool :=
  match s.block? b, s.gridOf b with
  | some k, some g => g.dl != 0 && addr / 2 ^ 20 != k.core
  | _, _ => false

/-- Whether what an on-chip address names belongs to a block of the grid that reads it, so that its content at the last
boundary is that grid's. -/
def State.ocmOwn (s : State) (g : Nat) (x : OcmAt) : Bool :=
  match x with
  | .reg b _ | .scratch b _ => (s.block? b).any fun k => k.grid == g
  | .tile t _ => s.blocks.any fun e => e.2.grid == g && e.2.core == t / 4 && e.2.tiles.contains (t % 4)

/-- Words read through the map by a thread of a block: within a turn another core's part stands as it did at the last
boundary, under what the reader's own core has stored there since. -/
def State.ocmRead (s : State) (b addr : Nat) (x : OcmAt) (words : Nat) : List Word :=
  match s.block? b, s.gridOf b with
  | some k, some g =>
    let far := s.ocmFar b addr
    let ws := (List.range words).map fun i => s.ocmReadWord x (far && s.ocmOwn k.grid x) i
    if far then
      natToWords words (bytesToNat (overlayStores (natToBytes (4 * words) (wordsToNat ws)) addr (g.effects.filterMap fun e =>
        match e.kind with
        | .ocm at_ vs => if e.core == k.core then some (at_, natToBytes (4 * vs.length) (wordsToNat vs)) else none
        | _ => none)))
    else ws
  | _, _ => []

/-- LDM (R324, R164). -/
def execLdm (w : Width) (d a : Reg) (off : BitVec 8) (s : State) : Out :=
  .next (s.runLong (.ldm w d a off) fun s i l =>
    let n := 4 * 2 ^ w.toNat
    let ad := addr32 (s.laneThread i l) a off
    match s.ocmFind (s.tenantOf i.block) ad n with
    | none => .error { Trap.of cPROT 6 with addr := ad }
    | some x => match alignTrap ad n 0 with
      | some t => .error t
      | none => .ok (regWrites d.toNat (s.ocmRead i.block ad x (2 ^ w.toNat)), [], 0))

/-- STM (R324, R164). -/
def execStm (w : Width) (d a : Reg) (off : BitVec 8) (s : State) : Out :=
  .next (s.runLanes (.stm w d a off) fun s i l =>
    let n := 4 * 2 ^ w.toNat
    let th := s.laneThread i l
    let ad := addr32 th a off
    match s.ocmFind (s.tenantOf i.block) ad n with
    | none => .trap { Trap.of cPROT 6 with access := 1, addr := ad }
    | some x => match alignTrap ad n 1 with
      | some t => .trap t
      | none =>
        let ws := th.group d.toNat (2 ^ w.toNat)
        .done (if s.ocmFar i.block ad then s.addEffect i.block l.tid i.at (.ocm ad ws) else s.ocmWrite x ws))

/-! ## ATOM, ATOMS and RED (R325-R330) -/

/-- The page test of atomics: OPERAND, cause 10 (R327); PROT, cause 4 for a scope wider than the page's DOMAIN. -/
def atomPageFault (scope : Scope) (fmt : Fmt) (va : Nat) (l : Leaf) : Option Trap :=
  if decide (l.maxScope < scope.code.toNat) then some (Trap.ofXlate (cPROT, 4) 2 va)
  else if l.fmt != .bytes && l.fmt != fmt then some { Trap.of cOPERAND 10 with access := 2, addr := va }
  else none

/-- The registers that an atomic writes: the old value, or the status and zeros (R326, R328). -/
def atomRegs (w : Width) (d : Nat) (nf : Bool) (old : Nat) : List (Nat × Word) :=
  regWrites d (natToWords (2 ^ w.toNat) (if nf then 0 else old))

def ordRel (o : Ordering3) : Bool := o == .rel || o == .ar
def ordAcq (o : Ordering3) : Bool := o == .acq || o == .ar

/-- The scope at which an ordered access of a page is performed: on a remote location at domain scope at least (R39). -/
def orderScope (l : Leaf) (ord : Ordering3) (scope : Scope) : Nat :=
  if l.kind == .remote && (ordRel ord || ordAcq ord) then max 4 scope.code.toNat else scope.code.toNat

/-- The value that a compare-and-swap compares with, where its answer tells whether it has stored (R326, R328). -/
def casOf (op : AOp) (nf : Bool) (cv : Nat) : Option Dword := if op == .cas && !nf then some (BitVec.ofNat 64 cv) else none

/-- An ATOM that has passed its checks and made its release (R183, R326-R328). At DL1 and above it is performed at the
turn boundary (R86, R87). -/
def State.atomAt (s : State) (i : Issue) (l : Lane) (k : Block) (g : Grid) (x : Xl) (w : Width) (d : Reg) (va scope : Nat)
    (op : AOp) (fmt : Fmt) (nf uns : Bool) (bv cv : Nat) : State :=
  let n := atomBytes fmt
  let how := (d.toNat, 2 ^ w.toNat, if nf then 1 else 0)
  let blank := fun (s : State) => (s.pend i l (atomRegs w d.toNat true 0) [] 0 false false how none).overHost k.tenant x.home 2 va
  let lost := s.lostHome x.home n
  if lost.isSome then s.pend i l (atomRegs w d.toNat nf 0) [] 0 true false (0, 0, 0) (some ⟨cINTEG, lost.getD 0, 2, va⟩)
  else if g.dl != 0 then
    let s := blank (if k.vtag = 0 then s.closeReds i.block l.tid i.at x.home n else s)
    s.addEffect i.block l.tid i.at
      (.atomic k.vtag va x.home op fmt uns nf (BitVec.ofNat 64 bv) (BitVec.ofNat 64 cv) s.nextUid scope)
  else match x.home with
    | .remote dev ra =>
      let s := blank (if k.vtag = 0 then (s.closeReds i.block l.tid i.at x.home n).syncSector k.core k.tenant va else s)
      let id := s.nextUid
      let (s, sent) := s.sendAtomic k.core k.tenant k.vtag va dev ra scope (atomOpw op fmt nf uns false) bv cv
        (.atomic id (casOf op nf cv))
      if sent then s else s.replyLost id ⟨cINTEG, 3, 2, va⟩
    | h =>
      let (s, old, fl) := s.atomicAt ⟨i.block, l.tid, i.at⟩ k.core k.tenant k.vtag va h op fmt uns bv cv
      (s.pend i l (atomRegs w d.toNat nf old) [] fl true false (0, 0, 0) none).overHost k.tenant x.home 2 va

/-- The status with which the target has refused an ATOM.NF, 0 for none (R40). -/
def Thread.refused (th : Thread) (va : Nat) : Nat := ((th.toldOf va).map (·.2)).getD 0

/-- The acquire immediately after an atomic at DL0: where the atomic is performed on another device, once its answer has
come, which the thread waits for (R178, R327). -/
def State.acquireAfter (s : State) (i : Issue) (lf : Leaf) (scope : Nat) : LaneOut :=
  if lf.kind == .remote && s.lastSent then .wait s (.acquire scope s.fabric.tagCtr)
  else .done (s.acquire i.block scope)

/-- ATOM on one lane (R326-R328). -/
def atomLane (w : Width) (d a b c : Reg) (scope : Scope) (op : AOp) (fmt : Fmt) (nf : Bool) (ord : Ordering3) (uns : Bool)
    (s : State) (i : Issue) (l : Lane) : LaneOut :=
  let th := s.laneThread i l
  let va := addrOf th a
  let n := atomBytes fmt
  let bv := th.groupNat b.toNat (2 ^ w.toNat)
  let cv := if op == .cas then th.groupNat c.toNat (2 ^ w.toNat) else 0
  if va % n != 0 then .trap { Trap.of cALIGN 3 with access := 2, addr := va }
  else if (s.walkLost i.block l.tid va .wr).isSome then
    .done (s.pend i l (atomRegs w d.toNat nf 0) [] 0 true false (0, 0, 0)
      (some ⟨cINTEG, (s.walkLost i.block l.tid va .wr).getD 0, 2, va⟩))
  else s.askFirst i.block l.tid va .wr 2 scope.code.toNat (some (atomOpw op fmt nf uns true)) nf fun s =>
    match s.checkWrite i.block l.tid i.at va n true (op != .cas) 2 (atomPageFault scope fmt va) with
    | .error t => .trap t
    | .ok (s, x, _) =>
      match s.block? i.block, s.gridOf i.block with
      | some k, some g =>
        let sc := orderScope x.leaf ord scope
        match (if ordRel ord then s.fenceRelease i.block l.tid i.at sc else (s, none)) with
        | (s, some w) => .wait s w
        | (s, none) =>
          match s.askSlot i.block l.tid va 2 k x.home with
          | (s, some tag) => .wait s (.remote tag)
          | (s, none) =>
          match (if x.leaf.kind == .remote then some s else s.capture k.tenant k.vtag va x) with
          | none => .noSlot (s.suspendChild i.block)
          | some s =>
            let s := if th.refused va ≠ 0 then
                s.pend i l (regWrites d.toNat (natToWords (2 ^ w.toNat) (th.refused va))) [] 0 true false (0, 0, 0) none
              else s.atomAt i l k g x w d va sc op fmt nf uns bv cv
            if ordAcq ord && g.dl == 0 then s.acquireAfter i x.leaf sc else .done s
      | _, _ => .done s

def execAtom (w : Width) (d a b c : Reg) (scope : Scope) (op : AOp) (fmt : Fmt) (nf : Bool) (ord : Ordering3) (uns : Bool)
    (s : State) : Out :=
  .next (s.runLongLanes (.atom w d a b c scope op fmt nf ord uns) (atomLane w d a b c scope op fmt nf ord uns))

/-- ATOMS (R329). -/
def execAtoms (w : Width) (d a b c : Reg) (scope : Scope) (op : AOp) (fmt : Fmt) (ord : Ordering3) (uns : Bool)
    (s : State) : Out :=
  .next (s.runLongLanes (.atoms w d a b c scope op fmt ord uns) fun s i l =>
    let th := s.laneThread i l
    let ad := (th.reg a.toNat).toNat
    let n := atomBytes fmt
    if ad % n != 0 then .trap { Trap.of cALIGN 3 with access := 2, addr := ad }
    else if s.scratchSize i.block < ad + n then .trap { Trap.of cSCRATCH 1 with access := 2, addr := ad }
    else
      let old := bytesToNat (s.readScratch i.block ad n)
      let cv := if op == .cas then th.groupNat c.toNat (2 ^ w.toNat) else 0
      let (nv, fl) := atomStep op fmt uns old (th.groupNat b.toNat (2 ^ w.toNat)) cv
      match s.noteMember i.block l.tid i.at i.block ad n true none with
      | .error t => .trap t
      | .ok s =>
        let s := s.writeScratch i.block ad (natToBytes n nv)
        .done (s.pend i l (atomRegs w d.toNat false old) [] fl true false (0, 0, 0) none))

/-- The REDOP code that an operation must match (R330). -/
def redopOf (op : AOp) : Nat := match op with | .add => 1 | .min => 2 | .max => 3 | .and => 4 | .or => 5 | .xor => 6 | _ => 0

/-- The page test of RED: that of atomics, then OPERAND, cause 11 on a reduction page (R330). -/
def redPageFault (scope : Scope) (op : AOp) (fmt : Fmt) (uns : Bool) (va : Nat) (l : Leaf) : Option Trap :=
  match atomPageFault scope fmt va l with
  | some t => some t
  | none =>
    if l.redop = 0 then none
    else if redopOf op != l.redop || uns || !(l.fmt == fmt || (l.fmt == .bytes && decide (4 ≤ l.redop))) then
      some { Trap.of cOPERAND 11 with access := 2, addr := va }
    else none

/-- A contribution held for the grid's end, combined with what the block holds for the element already; the flags of
the combination reach the contributing thread (R91, R330). -/
def State.holdRed (s : State) (k : Block) (b tid va : Nat) (op : AOp) (fmt : Fmt) (v : Dword) : State :=
  match s.grid? k.grid with
  | none => s
  | some g =>
    match g.heldRed.find? fun r => r.path == k.path && r.va == va && r.op == op && r.fmt == fmt with
    | none => s.setGrid k.grid { g with heldRed := g.heldRed ++
        [⟨k.path, b, va, op, fmt, v, [tid], s.siteRecord (some ⟨b, tid, s.pcOf b tid⟩) 0 0 2 va⟩] }
    | some r =>
      let (nv, fl) := atomStep op fmt false r.value.toNat v.toNat 0
      let r' := { r with value := BitVec.ofNat 64 nv, threads := dedup (r.threads ++ [tid]) }
      (s.setGrid k.grid { g with heldRed := g.heldRed.map fun x => if x == r then r' else x }).updThread b tid fun th => th.raise fl

/-- A RED that has passed its checks: in a view performed at the home, on another device there; otherwise buffered or held (R91,
R104, R184, R330). -/
def State.redAt (s : State) (i : Issue) (l : Lane) (k : Block) (g : Grid) (x : Xl) (va scope : Nat) (op : AOp) (fmt : Fmt)
    (uns : Bool) (bv : Dword) : State :=
  match s.lostHome x.home (atomBytes fmt) with
  | some cz => s.lostStore i.block l.tid i.at cz va
  | none =>
    if k.vtag != 0 then
      if g.dl != 0 then s.addEffect i.block l.tid i.at (.red k.vtag va x.home op fmt uns bv scope)
      else match x.home with
        | .remote d ra => (s.sendAtomic k.core k.tenant k.vtag va d ra scope (atomOpw op fmt true uns false) bv.toNat 0
            (.red [(i.block, l.tid)] i.at)).1
        | h =>
          let (s, _, fl) := s.atomicAt ⟨i.block, l.tid, i.at⟩ k.core k.tenant k.vtag va h op fmt uns bv.toNat 0
          s.raiseIn i.block l.tid fl
    else if x.leaf.redop != 0 && decide (2 ≤ g.dl.toNat) then s.holdRed k i.block l.tid va op fmt bv
    else ((s.syncSector k.core k.tenant va).dropProxy k.tenant va (atomBytes fmt)).bufferRed k.core k.grid k.tenant
      ⟨i.block, l.tid, i.at⟩ va x.home op fmt uns bv scope

/-- The checks of RED, which are those of an atomic, but that a contribution to a reduction page at DL2 and above is not
checked for races (R91, R330). -/
def State.checkRed (s : State) (i : Issue) (l : Lane) (k : Block) (g : Grid) (va : Nat) (scope : Scope) (op : AOp) (fmt : Fmt)
    (uns : Bool) : Except Trap (State × Xl) :=
  -- the ceiling is DL1 but on a reduction page, so it is tested once the page is known (R91)
  let page := fun (lf : Leaf) =>
    if lf.redop = 0 ∧ 2 ≤ g.dl.toNat then some (Trap.of cDLEVEL 1) else redPageFault scope op fmt uns va lf
  let onRed := match s.laneXlate i.block l.tid va .wr with | .ok x => x.leaf.redop != 0 | .error _ => false
  if onRed && 2 ≤ g.dl.toNat && k.vtag == 0 then
    if k.frozen then .error { Trap.of cFROZEN 1 with access := 2, addr := va }
    else match s.laneXlate i.block l.tid va .wr with
      | .error e => .error (Trap.ofXlate e 2 va)
      | .ok x => match page x.leaf with
        | some t => .error t
        | none => .ok (s.fillTlb k.core k.tenant x.leaf, x)
  else (s.checkWrite i.block l.tid i.at va (atomBytes fmt) true true 2 page).map fun r => (r.1, r.2.1)

/-- RED on one lane (R330, R184, R91, R104). -/
def redLane (w : Width) (a b : Reg) (scope : Scope) (op : AOp) (fmt : Fmt) (uns : Bool)
    (s : State) (i : Issue) (l : Lane) : LaneOut :=
  let th := s.laneThread i l
  let va := addrOf th a
  let bv := th.groupNat b.toNat (2 ^ w.toNat)
  if va % atomBytes fmt != 0 then .trap { Trap.of cALIGN 3 with access := 2, addr := va }
  else if (s.walkLost i.block l.tid va .wr).isSome then
    .done (s.lostStore i.block l.tid i.at ((s.walkLost i.block l.tid va .wr).getD 0) va)
  else s.askFirst i.block l.tid va .wr 2 scope.code.toNat (some (atomOpw op fmt true uns true)) false fun s =>
    match s.block? i.block, s.gridOf i.block with
    | some k, some g =>
      match s.checkRed i l k g va scope op fmt uns with
      | .error t => .trap t
      | .ok (s, x) =>
        match s.askSlot i.block l.tid va 2 k x.home with
        | (s, some tag) => .wait s (.remote tag)
        | (s, none) =>
          match (if x.leaf.kind == .remote then some s else s.capture k.tenant k.vtag va x) with
          | none => .noSlot (s.suspendChild i.block)
          | some s => .done (s.redAt i l k g x va scope.code.toNat op fmt uns (BitVec.ofNat 64 bv))
    | _, _ => .done s

def execRed (w : Width) (a b : Reg) (scope : Scope) (op : AOp) (fmt : Fmt) (uns : Bool) (s : State) : Out :=
  .next (s.runLanes (.red w a b scope op fmt uns) (redLane w a b scope op fmt uns))

/-! ## FENCE, DISCARD, PREF, STMC (R331-R334) -/

/-- The trap of a pending floating-point exception (R197): the record's AUX holds PX (log 12). -/
def fpxTrap (th : Thread) : Option Trap := if th.px != 0 && !th.hm then some { Trap.of cFPX 0 with aux0 := th.px.toNat } else none

/-- FENCE (R178, R331): FPX first; then the release and what it waits for, the thread's own loads from other devices,
and the acquire. A thread that has waited executes the fence again with its release made. -/
def fenceLane (kind : FenceKind) (scope : Scope) (s : State) (i : Issue) (l : Lane) : LaneOut :=
  match fpxTrap (s.laneThread i l) with
  | some t => .trap t
  | none =>
    let sc := scope.code.toNat
    match (if kind == .acq then (s, s.loadsWait i.block l.tid) else s.fenceRelease i.block l.tid i.at sc) with
    | (s, some w) => .wait s w
    | (s, none) => .done (if kind == .rel then s else s.acquire i.block sc)

def execFence (kind : FenceKind) (scope : Scope) (s : State) : Out :=
  .next (s.runLanes (.fence kind scope) (fenceLane kind scope))

/-- The contents that a DISCARD of a sector may leave besides the home's: those that core caches hold dirty, whole (R187). -/
def State.dirtyContents (s : State) (t va : Nat) (h : HomeAt) : List (List Byte) :=
  let atHome := s.readHome h 64
  s.activeCores.filterMap fun c => ((s.core c).sector? t (va / 64)).bind fun x =>
    if x.dirty == 0 then none
    else some (x.bytes.zipIdx.map fun (e : Byte × Nat) => if onBit x.dirty e.2 then e.1 else atHome.getD e.2 0)

/-- A sector's copies in the core caches dropped. -/
def State.dropCopies (s : State) (t va : Nat) : State :=
  s.activeCores.foldl (fun s c => s.updCore c fun k => k.dropSector t (va / 64)) s

/-- One sector discarded at its home, by a thread: every copy in a core cache is dropped, and the sector has its home content
or, at DL0, one of the dirty contents that are dropped, whichever (R187; log 7). -/
def State.discardSector (s : State) (who : Site) (t va : Nat) (h : HomeAt) (free : Bool) : State :=
  let s := if free then (s.dirtyContents t va h).foldl (fun s bs =>
      (if Config.freeBit s.freeCtr then s.storeHome (some who) t va h bs else s).tick) s else s
  s.dropCopies t va

/-- The same of a sector on another device: what a core holds dirty is sent there or dropped, whichever (R187; log 7). -/
def State.discardFar (s : State) (t va : Nat) : State :=
  let s := s.activeCores.foldl (fun s c => match (s.core c).sector? t (va / 64) with
    | some x => if x.dirty == 0 then s else (if Config.freeBit s.freeCtr then s.writeBack x else s).tick
    | none => s) s
  s.dropCopies t va

/-- Whether a load of the sector is outstanding at another device (R187, R92). -/
def State.missOn (s : State) (t va : Nat) : Bool :=
  s.fabric.remotes.any fun r => r.tenant == t && r.va / 64 == va / 64 && (match r.what with
    | .load .. | .copy _ => true
    | _ => false)

/-- A sector of this device discarded by a thread. One on a lost unit is not discarded, and posts INTEG (R27). -/
def State.discardOne (s : State) (b tid : Nat) (pc : Dword) (core va : Nat) (h : HomeAt) (free : Bool) : State :=
  match s.lostHome h 64 with
  | some c => s.lostStore b tid pc c va
  | none => (s.discardSector ⟨b, tid, pc⟩ (s.tenantOf b) va h free).noteWritten core (s.tenantOf b) va

/-- A DISCARD of one sector, translated and checked; none where the share has no slot for it. In a view it writes what the
view reads there, and so takes a slot (R102, R332); on another device in the root view it leaves the home content, or what a core
holds dirty. -/
def State.discardAt (s : State) (i : Issue) (l : Lane) (k : Block) (g : Grid) (va : Nat) (x : Xl) : Option State :=
  if k.vtag != 0 then if x.leaf.kind == .remote then some s else s.capture k.tenant k.vtag va x
  else if g.dl != 0 then some (s.addEffect i.block l.tid i.at (.discard 0 va x.home))
  else
    let s := if s.missOn k.tenant va then s.threadEvent i.block l.tid 0x02 i.at else s
    let s := s.dropProxy k.tenant va 64
    some (if x.leaf.kind == .remote then s.discardFar k.tenant va else s.discardOne i.block l.tid i.at i.core va x.home true)

/-- The fault of the first sector of a DISCARD that has one (R332). -/
def State.discardFault (s : State) (i : Issue) (l : Lane) (k : Block) (secs : List Nat) : Option Trap :=
  secs.findSome? fun v => match s.laneXlate i.block l.tid v .wr with
    | .error e => some (Trap.ofXlate e 1 v)
    | .ok x => match s.storePath k x.leaf true 1 v with
      | .trap t => some t
      | _ => none

/-- The first of some addresses for which something is to be asked of another device: the machine, and the tag that the thread
waits for. -/
def askEach (ask : State → Nat → State × Option Word) (s : State) : List Nat → State × Option Word
  | [] => (s, none)
  | v :: l => match ask s v with
    | (s, some tag) => (s, some tag)
    | (s, none) => askEach ask s l

/-- DISCARD (R332). Its pages on other devices are asked about, and then the slots of its view there. -/
def discardLane (a : Reg) (n : BitVec 8) (s : State) (i : Issue) (l : Lane) : LaneOut :=
  let va := addrOf (s.laneThread i l) a
  let secs := (List.range (n.toNat + 1)).map fun j => ea va (64 * j : Nat)
  if va % 64 != 0 then .trap { Trap.of cALIGN 3 with access := 1, addr := va }
  else if secs.any fun v => (match s.laneXlate i.block l.tid v .wr with | .error e => e.1 == cINTEG | .ok _ => false) then
    .done (s.lostStore i.block l.tid i.at ((secs.findSome? fun v => match s.laneXlate i.block l.tid v .wr with
      | .error e => if e.1 = cINTEG then some e.2 else none
      | .ok _ => none).getD 0) va)
  else match askEach (fun s v => s.askPage i.block l.tid v .wr 1 0 none false) s secs with
  | (s, some tag) => .wait s (.remote tag)
  | (s, none) =>
    match s.block? i.block, s.gridOf i.block with
    | some k, some g =>
      match s.discardFault i l k secs with
      | some t => .trap t
      | none =>
        if k.frozen then .trap { Trap.of cFROZEN 1 with access := 1, addr := va }
        else
          let home := fun (s : State) (v : Nat) => match s.laneXlate i.block l.tid v .wr with | .ok x => x.home | .error _ => .view v
          match askEach (fun s v => s.askSlot i.block l.tid v 1 k (home s v)) s secs with
          | (s, some tag) => .wait s (.remote tag)
          | (s, none) =>
            let note := fun (acc : Except Trap State) (v : Nat) => acc.bind fun s => s.noteAccess i.block l.tid i.at (v / 64) true
            match secs.foldl note (.ok s) with
            | .error t => .trap t
            | .ok s =>
              let step := fun (acc : State × Bool) (v : Nat) =>
                if acc.2 then acc
                else match acc.1.laneXlate i.block l.tid v .wr with
                  | .error _ => acc
                  | .ok x => match acc.1.discardAt i l k g v x with
                    | none => (acc.1, true)
                    | some s => (s, false)
              let (s, short) := secs.foldl step (s, false)
              if short then .noSlot (s.suspendChild i.block) else .done s
    | _, _ => .done s

def execDiscard (a : Reg) (n : BitVec 8) (s : State) : Out :=
  .next (s.runLanes (.discard a n) (discardLane a n))

/-- PREF (R333): the sector is brought into the core cache under the default policy; nothing else can be seen of it. -/
def prefLane (a : Reg) (off : BitVec 8) (pol : Policy) (s : State) (i : Issue) (l : Lane) : LaneOut :=
  match s.block? i.block, s.gridOf i.block with
  | some k, some g =>
    let va := ea (addrOf (s.laneThread i l) a) (64 * sext off.toNat 8) / 64 * 64
    match s.xlate k.core k.tenant va .rd with
    | .error _ => .done s
    | .ok x =>
      if pol != .dflt || x.leaf.policy != 0 || k.vtag != 0 || g.dl != 0 || x.leaf.kind == .remote
          || (s.lostHome x.home 64).isSome || (s.core k.core).reds.any (fun r => r.home.overlaps 8 x.home 64) then .done s
      else .done (s.cachedLoad k.core k.tenant va x.home 64 ⟨0, false⟩).1
  | _, _ => .done s

def execPref (a : Reg) (off : BitVec 8) (pol : Policy) (s : State) : Out :=
  .next (s.runLanes (.pref a off pol) (prefLane a off pol))

/-- Whether this device takes in an access that a message brings for a tenant's page: the tenant must be enabled, the page
not remote again, and its DOMAIN must admit the scope (R38, R40, R64). The error is the status, the code and the cause. -/
def State.pageHere (s : State) (t va scope : Nat) (want : Want) : Except (Nat × Nat × Nat) Xl :=
  if !(s.tenant t).en then .error (3, 0, 0)
  else match s.xlate ownSite t va want with
    | .error e => .error (3, e.1, e.2)
    | .ok x =>
      if x.leaf.kind == .remote then .error (3, cXLATE, 2)
      else if x.leaf.domain = 0 || decide (x.leaf.maxScope < scope) then .error (3, cPROT, 4)
      else .ok x

/-- A multicast of another device meets stores of this device's grids that have not reached the home: those reach it later, and
each grid that made one records MCORDER (R92, R334). -/
def State.meetMcast (s : State) (t va n : Nat) : State :=
  let meets := fun (a m : Nat) => decide (a < va + n ∧ va < a + m)
  let s := s.activeCores.foldl (fun s c => (s.core c).cache.foldl (fun s x => match x.writer with
    | some w => if x.tenant == t && (List.range 64).any fun j => onBit x.dirty j && meets (x.sector * 64 + j) 1 then
        s.threadEvent w.block w.tid 0x0A w.pc else s
    | none => s) s) s
  s.grids.foldl (fun s e => if e.2.tenant != t then s else e.2.effects.foldl (fun s f => match f.kind with
    | .store 0 a _ bs => if meets a bs.length then s.threadEvent f.block f.tid 0x0A f.pc else s
    | _ => s) s) s

/-- The store of a multicast on this device, translated through the tenant's root here (R38, R46): the status it answers. -/
def State.deliverMcs (s : State) (who : Option Site) (t va : Nat) (bs : List Byte) : State × Nat :=
  match s.pageHere t va 4 .wr with
  | .error e => (s, e.1)
  | .ok x => match s.lostHome x.home bs.length with
    | some _ => (s, 4)
    | none =>
      let s := if who.isNone then s.meetMcast t va bs.length else s
      ((s.fillTlb ownSite t x.leaf).storeHome who t va x.home bs, 0)

/-- A multicast applied to this device's tree entry: local delivery, and a copy on every port of CHILD (R45, R46). The
parent is none for a multicast of this device's own thread. Where the delivery waits for a turn boundary it counts as one more
answer to come, and the tag under which it does is told. A CHILD bit of a port that is not trained counts as a child whose
message is lost with its link (DESIGN CHOICE, log 76). -/
def State.applyMcs (s : State) (tree t va : Nat) (m : Msg) (bs : List Byte) (parent : Option (BitVec 10))
    (issuer : Option (Nat × Nat × Dword × Nat)) (later : Bool) : State × Nat × Option Nat × Option Word × Bool :=
  let e := (Sparse.get Tree.none s.fabric.trees tree).bits.toNat
  if !bitAt e 19 || bitsAt e 20 6 != t then (s, 3, none, none, true)
  else
    let here := bitAt e 18
    let (s, st) := if here && !later then s.deliverMcs (issuer.map fun x => ⟨x.1, x.2.1, x.2.2.1⟩) t va bs else (s, 0)
    let (live, dead) := ((List.range 18).filter fun p => bitAt e p).partition fun p =>
      (Sparse.get Port.none s.fabric.ports p).trained
    let (tag, s) := s.newTag
    let id := tag.toNat
    -- each copy answers to this device, under this multicast's own tag (log 8)
    let c := { m with src := s.fabric.devid, tag := tag, hops := m.hops + 1 }
    let c := { sealMsg { c with mchk := msgCheck c } with via := m.via }
    let s := live.foldl (fun s p => s.toPort p c) s
    let st := if dead.isEmpty then st else max st 4
    let why := if dead.isEmpty then none else some 5
    let left := live.length + (if here && later then 1 else 0)
    if left = 0 then (s, st, why, none, true)
    else ({ s with fabric := { s.fabric with
      mcasts := s.fabric.mcasts ++ [⟨id, m.tag, t, parent, left, st, why, issuer⟩] } }, st, why,
      if here && later then some tag else none, false)

/-- A completed STMC: an error posts INTEG, with the cause of a lost message, or 6 (R334, R44). -/
def State.finishStmc (s : State) (t : Nat) (who : Site) (va st : Nat) (lost : Option Nat) : State :=
  if st = 0 then s
  else s.postEvent t { s.siteRecord (some who) cINTEG (lost.getD 6) 1 va with aux0 := BitVec.ofNat 64 st }

/-- A multicast store sent by a core: its line is in the core's next signature, as one that the core has written (R173). -/
def State.multicast (s : State) (b tid : Nat) (pc : Dword) (core t tree va : Nat) (bs : List Byte) : State :=
  let (tag, s) := s.newTag
  let m := mkMsg 0x08 s.fabric.devid (BitVec.ofNat 10 tree) t 4 va tag (BitVec.ofNat 64 (bs.length * 2 ^ 16)) 0 (flitsOf bs)
  let s := (s.syncSector core t va).noteWritten core t va
  let (s, st, why, _, now) := s.applyMcs tree t va m bs none (some (b, tid, pc, va)) false
  if now then s.finishStmc t ⟨b, tid, pc⟩ va st why
  else { s with fabric := { s.fabric with
    remotes := s.fabric.remotes ++ [⟨tag, t, BitVec.ofNat 10 tree, none, va, .mcast bs.length⟩] } }

/-- Whether a core holds a unicast store to some of these bytes that has not reached its home: a multicast meets it there
(R92, R334). -/
def State.dirtyMeets (s : State) (t va n : Nat) : Bool :=
  s.activeCores.any fun c => match (s.core c).sector? t (va / 64) with
    | some x => (List.range n).any fun j => onBit x.dirty (va % 64 + j)
    | none => false

/-- Whether a tree of a tenant delivers on this device (R45). -/
def State.deliversHere (s : State) (t tree : Nat) : Bool :=
  let e := (Sparse.get Tree.none s.fabric.trees tree).bits.toNat
  bitAt e 19 && bitAt e 18 && bitsAt e 20 6 == t

/-- STMC (R334). At DL1 and above it is sent at the turn boundary, in the order of the effects (R87, R190). -/
def stmcLane (w : Width) (d a b : Reg) (s : State) (i : Issue) (l : Lane) : LaneOut :=
  let th := s.laneThread i l
  let n := 4 * 2 ^ w.toNat
  let va := addrOf th a
  let tr := (th.reg b.toNat).toNat
  if 2 ^ 8 ≤ tr then .trap { Trap.of cOPERAND 12 with access := 1, addr := va }
  else if va % min n 32 != 0 then .trap { Trap.of cALIGN 3 with access := 1, addr := va }
  else match s.block? i.block, s.gridOf i.block with
    | some k, some g =>
      if k.frozen then .trap { Trap.of cFROZEN 1 with access := 1, addr := va }
      else if k.vtag != 0 then .trap { Trap.of cPROT 7 with access := 1, addr := va, xl := true }
      else match s.xlate k.core k.tenant va .wr with
        | .error e =>
          if e.1 = cINTEG then .done (s.lostStore i.block l.tid i.at e.2 va) else .trap (Trap.ofXlate e 1 va)
        | .ok x =>
          if x.leaf.kind != .local || x.leaf.domain = 0 then .trap (Trap.ofXlate (cPROT, 4) 1 va)
          else match s.noteAccess i.block l.tid i.at (va / 64) true with
            | .error t => .trap t
            | .ok s =>
              let bs := natToBytes n (th.groupNat d.toNat (2 ^ w.toNat))
              let s := (s.fillTlb k.core k.tenant x.leaf).closeReds i.block l.tid i.at x.home n
              if g.dl != 0 then .done (s.addEffect i.block l.tid i.at (.mcast tr va bs (s.deliversHere k.tenant tr)))
              else
                let s := if s.dirtyMeets k.tenant va n then s.threadEvent i.block l.tid 0x0A i.at else s
                .done (s.multicast i.block l.tid i.at k.core k.tenant tr va bs)
    | _, _ => .done s

def execStmc (w : Width) (d a b : Reg) (s : State) : Out :=
  .next (s.runLanes (.stmc w d a b) (stmcLane w d a b))

end Sys2Proof.Machine
end

