-- ==== Sys2Proof/Machine/Operands.lean ====
section
/-! DEFINITION. Operand forms: elements of register groups (R244, R274, R299, R310), integer results, and the runs of an
instruction over the elements of its operands. -/

namespace Sys2Proof.Machine

/-! ## Elements -/

/-- Integer element size of W in classes INT and LANE (R274). -/
def intBits (w : Width) : Nat := if w = 0 then 32 else 64

/-- Number of integer elements of W (R274). -/
def intCount (w : Width) : Nat := if w = 0 then 1 else 2 ^ (w.toNat - 1)

/-- Elements of `bits` bits packed into one number, the first lowest (R244). -/
def packElems (bits : Nat) : List Nat → Nat
  | [] => 0
  | e :: l => e % 2 ^ bits + 2 ^ bits * packElems bits l

/-- The first n elements of `bits` bits of a number (ELEM, R244). -/
def unpackElems (bits v : Nat) : Nat → List Nat
  | 0 => []
  | n + 1 => v % 2 ^ bits :: unpackElems bits (v / 2 ^ bits) n

/-- The elements of the group of 2^lg registers at r. -/
def Thread.elems (th : Thread) (r : Reg) (lg bits count : Nat) : List Nat :=
  unpackElems bits (th.groupNat r.toNat (2 ^ lg)) count

/-- A group of 2^lg registers written with elements; bits above the last element are zero (R310). -/
def Thread.putElems (th : Thread) (r : Reg) (lg bits : Nat) (es : List Nat) : Thread :=
  th.setGroup r.toNat (natToWords (2 ^ lg) (packElems bits es))

/-- The integer elements of an operand of width W. -/
def Thread.ints (th : Thread) (r : Reg) (w : Width) : List Nat := th.elems r w.toNat (intBits w) (intCount w)

/-- A destination of width W written with integer elements. -/
def Thread.putInts (th : Thread) (r : Reg) (w : Width) (es : List Nat) : Thread := th.putElems r w.toNat (intBits w) es

/-! ## Element by element -/

def map1 {α β : Type} (f : α → β) (a : List α) : List β := a.map f

def map2 {α β γ : Type} (f : α → β → γ) : List α → List β → List γ
  | a :: l, b :: m => f a b :: map2 f l m
  | _, _ => []

def map3 {α β γ δ : Type} (f : α → β → γ → δ) : List α → List β → List γ → List δ
  | a :: l, b :: m, c :: n => f a b c :: map3 f l m n
  | _, _, _ => []

/-! ## Integer instructions over a lane's thread (R274, R275) -/

/-- One source group. -/
def State.runInt1 (s : State) (i : Instr) (w : Width) (d a : Reg) (f : Nat → Nat) : State :=
  s.runThreads i fun th => .ok (th.putInts d w (map1 f (th.ints a w)))

/-- Two source groups. -/
def State.runInt2 (s : State) (i : Instr) (w : Width) (d a b : Reg) (f : Nat → Nat → Nat) : State :=
  s.runThreads i fun th => .ok (th.putInts d w (map2 f (th.ints a w) (th.ints b w)))

/-- Three source groups. -/
def State.runInt3 (s : State) (i : Instr) (w : Width) (d a b c : Reg) (f : Nat → Nat → Nat → Nat) : State :=
  s.runThreads i fun th => .ok (th.putInts d w (map3 f (th.ints a w) (th.ints b w) (th.ints c w)))

/-! ## Integer results (R277-R286) -/

/-- SAT(x, lo, hi) of R244. -/
def satTo (x lo hi : Int) : Int := if x < lo then lo else if hi < x then hi else x

/-- Quotient of IDIV (R278). -/
def idivElem (s a b : Nat) : Nat :=
  if sext b s = 0 then 2 ^ s - 1 else wrap (Int.tdiv (sext a s) (sext b s)) s

/-- Remainder of IREM (R278). -/
def iremElem (s a b : Nat) : Nat :=
  if sext b s = 0 then a else wrap (sext a s - sext b s * Int.tdiv (sext a s) (sext b s)) s

/-- IMAD (R280). -/
def imadElem (m : SatMode) (s a b c : Nat) : Nat :=
  match m with
  | .wrap => (a * b + c) % 2 ^ s
  | .sat => wrap (satTo (sext a s * sext b s + sext c s) (-(2 ^ (s - 1) : Nat)) ((2 ^ (s - 1) : Nat) - 1)) s
  | .usat => min (a * b + c) (2 ^ s - 1)

/-- IDP4 (R281). -/
def idp4Elem (sa sb sat : Bool) (a b c : Nat) : Nat :=
  let byte := fun (sg : Bool) (v j : Nat) => if sg then sext (bitsAt v (8 * j) 8) 8 else (bitsAt v (8 * j) 8 : Int)
  let dot := fun (j : Nat) => byte sa a j * byte sb b j
  let t := sext c 32 + dot 0 + dot 1 + dot 2 + dot 3
  if sat then wrap (satTo t (-(2 ^ 31 : Nat)) ((2 ^ 31 : Nat) - 1)) 32 else wrap t 32

/-- SHL, SHR, SAR, ROL by a count n (R282). -/
def shlElem (s a n : Nat) : Nat := if n < s then a * 2 ^ n % 2 ^ s else 0
def shrElem (s a n : Nat) : Nat := if n < s then a / 2 ^ n else 0
def sarElem (s a n : Nat) : Nat :=
  if n < s then wrap (sext a s / (2 ^ n : Nat)) s else if sext a s < 0 then 2 ^ s - 1 else 0
def rolElem (s a n : Nat) : Nat := let k := n % s; if k = 0 then a else (a * 2 ^ k + a / 2 ^ (s - k)) % 2 ^ s

/-- Complement on s bits. -/
def notElem (s a : Nat) : Nat := 2 ^ s - 1 - a % 2 ^ s

/-- POPC, CLZ, CTZ, BREV (R284). -/
def popcElem (s a : Nat) : Nat := (List.range s).countP fun i => bitAt a i
def clzElem (s a : Nat) : Nat := if a = 0 then s else s - (Nat.log2 a + 1)
def ctzElem (s a : Nat) : Nat := ((List.range s).find? fun i => bitAt a i).getD s
def brevElem (s a : Nat) : Nat := (List.range s).foldl (fun r i => if bitAt a i then r + 2 ^ (s - 1 - i) else r) 0

/-- BFX (R285). -/
def bfxElem (sg : Bool) (s a b : Nat) : Nat :=
  let pos := bitsAt b 0 8
  let len := bitsAt b 8 8
  if len = 0 ∨ s ≤ pos then 0
  else
    let n := min len (s - pos)
    let f := a / 2 ^ pos % 2 ^ n
    if sg then wrap (sext f n) s else f

/-- BFI (R285). -/
def bfiElem (s a b c : Nat) : Nat :=
  let pos := bitsAt b 0 8
  let len := bitsAt b 8 8
  if len = 0 ∨ s ≤ pos then c
  else
    let n := min len (s - pos)
    let m := (2 ^ n - 1) * 2 ^ pos
    (c &&& notElem s m) ||| ((a * 2 ^ pos) &&& m)

/-- PRMB (R286). -/
def prmbElem (a b c : Nat) : Nat :=
  let src := a % 2 ^ 32 + 2 ^ 32 * (b % 2 ^ 32)
  packElems 8 ((List.range 4).map fun i =>
    let n := bitsAt c (4 * i) 4
    let v := bitsAt src (8 * (n % 8)) 8
    if n < 8 then v else if bitAt v 7 then 0xFF else 0)

/-- Conditions of ICMP (R287). -/
def icmpCond (c : ICond) (s a b : Nat) : Bool :=
  match c with
  | .eq => a == b
  | .ne => a != b
  | .lt => decide (sext a s < sext b s)
  | .le => decide (sext a s ≤ sext b s)
  | .gt => decide (sext b s < sext a s)
  | .ge => decide (sext b s ≤ sext a s)
  | .ltu => decide (a < b)
  | .leu => decide (a ≤ b)
  | .gtu => decide (b < a)
  | .geu => decide (b ≤ a)

end Sys2Proof.Machine
end

