-- ==== Sys2Proof/Machine/Rational.lean ====
section
/-! DEFINITION. The rational formats RQ32 and RQ64: codes, one rounding, and the operations on them (R207-R212). A
value is an FV whose NaN stands for indeterminate. -/

namespace Sys2Proof.Machine

/-- A rational format (R207): size, payload bits W, and the largest b. -/
structure RqFmt where
  size : Nat
  w : Nat
  deriving DecidableEq, Repr

def rq32 : RqFmt := ⟨32, 26⟩
def rq64 : RqFmt := ⟨64, 57⟩

def rqOf (f : Fmt) : RqFmt := match f with | .rq64 => rq64 | _ => rq32

/-- BITLEN (R244). -/
def bitlen (n : Nat) : Nat := if n = 0 then 0 else Nat.log2 n + 1

/-- A code read (R208): its value, and whether it is malformed. -/
def RqFmt.decode (q : RqFmt) (c : Nat) : FV × Bool :=
  let neg := bitAt c (q.size - 1)
  let b := bitsAt c q.w (q.size - 1 - q.w)
  let payload := bitsAt c 0 q.w
  if b = 0 ∨ q.w ≤ b then (.nan 0, true)
  else
    let n := payload / 2 ^ (q.w - b)
    let d := payload % 2 ^ (q.w - b)
    if d = 0 then (if n = 0 then .nan 0 else .inf neg, false)
    else if n = 0 then (.fin false 0 1, false)
    else (.fin neg (n / Nat.gcd n d) (d / Nat.gcd n d), false)

/-- The canonical code of a numerator and denominator in lowest terms (R207). -/
def RqFmt.code (q : RqFmt) (neg : Bool) (n d : Nat) : Nat :=
  let b := max (bitlen n) 1
  (if neg then 2 ^ (q.size - 1) else 0) + b * 2 ^ q.w + n * 2 ^ (q.w - b) + d

/-- The canonical indeterminate, infinity and zero. -/
def RqFmt.indet (q : RqFmt) : Nat := q.code false 0 0
def RqFmt.infinity (q : RqFmt) (neg : Bool) : Nat := q.code neg 1 0
def RqFmt.zero (q : RqFmt) : Nat := q.code false 0 1

/-- Whether n/d, in lowest terms, is representable. -/
def RqFmt.fits (q : RqFmt) (n d : Nat) : Bool := decide (bitlen n + bitlen d ≤ q.w)

/-- The greatest k up to a bound for which the fraction moved by k times another is representable. -/
def RqFmt.stretch (q : RqFmt) (lo hi : Nat × Nat) (bound : Nat) : Nat → Nat → Nat
  | 0, k => k
  | i + 1, k =>
    let k' := k + 2 ^ i
    q.stretch lo hi bound i (if k' ≤ bound && q.fits (lo.1 + k' * hi.1) (lo.2 + k' * hi.2) then k' else k)

/-- The adjacent representable values around n/d, which is not one itself: the continued fraction of n/d taken from
0/1 and 1/0, with its semiconvergents, while they are representable (R210). -/
def RqFmt.around (q : RqFmt) (n d : Nat) : Nat → Nat × Nat → Nat × Nat → (Nat × Nat) × (Nat × Nat)
  | 0, lo, hi => (lo, hi)
  | fuel + 1, lo, hi =>
    -- lo + k hi ≤ n/d
    let kl := q.stretch lo hi ((n * lo.2 - lo.1 * d) / (hi.1 * d - n * hi.2)) 60 0
    let lo' := (lo.1 + kl * hi.1, lo.2 + kl * hi.2)
    -- hi + k lo ≥ n/d
    let kh := q.stretch hi lo' ((hi.1 * d - n * hi.2) / (n * lo'.2 - lo'.1 * d)) 60 0
    let hi' := (hi.1 + kh * lo'.1, hi.2 + kh * lo'.2)
    if kl = 0 ∧ kh = 0 then (lo, hi) else q.around n d fuel lo' hi'

/-- Whether n/d lies below, at or above the fraction p/r. -/
def cmpFrac (n d p r : Nat) : Ordering := compare (n * r) (p * d)

/-- The largest finite value. -/
def RqFmt.largest (q : RqFmt) : Nat := 2 ^ (q.w - 1) - 1

/-- RNDQ of a finite value: the mode's choice between the neighbours a and c (R210), with its flags (R211). -/
def RqFmt.round (q : RqFmt) (m : Nat) (neg : Bool) (n d : Nat) : Nat × Flags :=
  if n = 0 then (q.zero, 0)
  else
    let g := Nat.gcd n d
    let n := n / g
    let d := d / g
    if q.fits n d then (q.code neg n d, 0)
    else
      let (a, c) := q.around n d 200 (0, 1) (1, 0)
      -- on a tie, the smaller denominator, then the even numerator
      let tie := if a.2 = c.2 then decide (c.1 % 2 = 0 ∧ a.1 % 2 ≠ 0) else decide (c.2 < a.2)
      let mediant := match cmpFrac n d (a.1 + c.1) (a.2 + c.2) with
        | .lt => false
        | .gt => true
        | .eq => tie
      let up := match m with
        | 0 =>
          if c.2 = 0 then mediant
          else match cmpFrac n d (a.1 * c.2 + c.1 * a.2) (2 * a.2 * c.2) with
            | .lt => false
            | .gt => true
            | .eq => tie
        | 1 => mediant
        | 2 => false
        | 3 => !neg
        | _ => neg
      let r := if up then c else a
      let above := decide (q.largest * d < n)
      let under := decide (n * q.largest < d)
      (if r.1 = 0 then q.zero else q.code neg r.1 r.2,
       fNX ||| (if above then fOF else 0) ||| (if under then fUF else 0))

/-- A value rounded to a code. -/
def RqFmt.ofFV (q : RqFmt) (m : Nat) (v : FV) : Nat × Flags :=
  match v with
  | .nan _ => (q.indet, 0)
  | .inf neg => (q.infinity neg, 0)
  | .fin neg n d => q.round m neg n d

/-- A value without rounding, written canonical. -/
def RqFmt.canon (q : RqFmt) (v : FV) : Nat := (q.ofFV 0 v).1

/-! ## Operations on values (R209): the exact value and its flags -/

def FV.isNan : FV → Bool
  | .nan _ => true
  | _ => false

def qAdd (x y : FV) : FV × Flags :=
  match x, y with
  | .nan _, _ | _, .nan _ => (.nan 0, 0)
  | .inf a, .inf b => if a = b then (.inf a, 0) else (.nan 0, fIV)
  | .inf a, _ => (.inf a, 0)
  | _, .inf b => (.inf b, 0)
  | .fin a n d, .fin b k e => (sumFin 0 a n d b k e, 0)

/-- A value with its sign reversed. -/
def FV.neg : FV → FV
  | .nan b => .nan b
  | .inf a => .inf (!a)
  | .fin a n d => .fin (!a) n d

/-- The magnitude of a value. -/
def FV.abs : FV → FV
  | .nan b => .nan b
  | .inf _ => .inf false
  | .fin _ n d => .fin false n d

def qMul (x y : FV) : FV × Flags :=
  match x, y with
  | .nan _, _ | _, .nan _ => (.nan 0, 0)
  | .inf a, .inf b => (.inf (a != b), 0)
  | .inf a, .fin b n _ => if n = 0 then (.nan 0, fIV) else (.inf (a != b), 0)
  | .fin a n _, .inf b => if n = 0 then (.nan 0, fIV) else (.inf (a != b), 0)
  | .fin a n d, .fin b k e => (.fin (a != b) (n * k) (d * e), 0)

def qDiv (x y : FV) : FV × Flags :=
  match x, y with
  | .nan _, _ | _, .nan _ => (.nan 0, 0)
  | .inf _, .inf _ => (.nan 0, fIV)
  | .inf a, .fin b _ _ => (.inf (a != b), 0)
  | .fin _ _ _, .inf _ => (.fin false 0 1, 0)
  | .fin a n d, .fin b k e =>
    if k = 0 then (if n = 0 then (.nan 0, fIV) else (.inf a, fDZ)) else (.fin (a != b) (n * e) (d * k), 0)

def qFma (x y z : FV) : FV × Flags :=
  if z.isNan then (.nan 0, 0)
  else
    let (p, fl) := qMul x y
    if p.isNan then (p, fl) else qAdd p z

/-- The root, exact where it is rational, otherwise a fraction on the same side of every value and boundary of the
formats (R209). -/
def qSqrt (x : FV) : FV × Flags :=
  match x with
  | .nan _ => (.nan 0, 0)
  | .inf neg => if neg then (.nan 0, fIV) else (.inf false, 0)
  | .fin neg n d =>
    if n = 0 then (.fin false 0 1, 0)
    else if neg then (.nan 0, fIV)
    else
      let rn := isqrt n
      let rd := isqrt d
      if rn * rn = n ∧ rd * rd = d then (.fin false rn rd, 0)
      else let (p, q) := sqrtFrac n d 400; (.fin false p q, 0)

/-- The lesser or greater of two values, the first where they are equal; `num` is the rule of the NUM forms, in which
indeterminate is missing data (R304). -/
def qMinMax (isMax num : Bool) (x y : FV) : FV :=
  match x, y with
  | .nan _, .nan _ => .nan 0
  | .nan _, v | v, .nan _ => if num then v else .nan 0
  | x, y => if fvLt x y then (if isMax then y else x) else if isMax then x else y

end Sys2Proof.Machine
end

