-- ==== Sys2Proof/Machine/Flags.lean ====
section
/-! DEFINITION. Floating operands and flags: element layout (R299), the modes in force (R193, R196, R300, R303), flags
raised (R194, R298), and the run of a FLT instruction over its lanes. -/

namespace Sys2Proof.Machine

/-! ## Layout of elements (R299) -/

/-- Bits between one element and the next. -/
def fltSlot (f : Fmt) (x2 : Bool) : Nat :=
  if x2 then 16 else match f with | .fp64 | .rq64 => 64 | _ => 32

/-- Elements of a group. -/
def fltCount (f : Fmt) (x2 : Bool) (w : Width) : Nat := 2 ^ w.toNat * 32 / fltSlot f x2

/-- The elements of an operand. -/
def Thread.flts (th : Thread) (r : Reg) (f : Fmt) (x2 : Bool) (w : Width) : List Nat :=
  (th.elems r w.toNat (fltSlot f x2) (fltCount f x2 w)).map fun e => e % 2 ^ f.bits

/-- Elements as the words of their group. -/
def fltWords (f : Fmt) (x2 : Bool) (w : Width) (es : List Nat) : List Word :=
  natToWords (2 ^ w.toNat) (packElems (fltSlot f x2) es)

/-! ## Modes -/

/-- %fpcr.FZ (R193). -/
def Thread.fz (th : Thread) : Bool := onBit th.fpcr 9

/-- %fpcr.RQ (R193). -/
def Thread.rq (th : Thread) : Bool := onBit th.fpcr 10

/-- MODE() of a rational operation: an override, or %fpcr.QRM (R193, R238, R300). -/
def qModeOf (th : Thread) (r : Rnd) : Nat :=
  match r with
  | .forced m => m.toNat
  | .inForce => bitsAt th.fpcr.toNat 11 3

/-- The format that an instruction computes in: rational for the F32 and F64 forms in rational mode (R303). -/
def Thread.fmtIn (th : Thread) (f : Fmt) : Fmt :=
  match th.rq, f with
  | true, .fp32 => .rq32
  | true, .fp64 => .rq64
  | _, f => f

/-! ## Results of elements -/

/-- An IEEE operation with subnormal operands and results flushed where FZ is on (R196). -/
def ieeeElem (f : FpFmt) (fz : Bool) (op : List Nat → Nat × Flags) (xs : List Nat) : Nat × Flags :=
  f.flushOut fz (op (xs.map (f.flushIn fz)))

/-- A rational operation: malformed operands raise invalid, the exact value is rounded once (R208, R209). -/
def ratElem (q : RqFmt) (m : Nat) (op : List FV → FV × Flags) (xs : List Nat) : Nat × Flags :=
  let vs := xs.map q.decode
  let (v, fl) := op (vs.map (·.1))
  let (c, fl') := q.ofFV m v
  (c, fl ||| fl' ||| (if vs.any (·.2) then fIV else 0))

/-- The patterns and the union of the flags of element results. -/
def elemResults (rs : List (Nat × Flags)) : List Nat × Flags := (rs.map (·.1), rs.foldl (fun a r => a ||| r.2) 0)

/-! ## The run of a FLT instruction -/

/-- What a FLT instruction gives in one lane. -/
structure FltOut where
  regs : List (Nat × Word)
  preds : List (Nat × Bool)
  fl : Flags
  deriving DecidableEq, Repr

/-- Register and predicate writes made at once. -/
def Thread.write (th : Thread) (o : FltOut) : Thread :=
  let th := o.regs.foldl (fun th e => th.setReg e.1 e.2) th
  let th := o.preds.foldl (fun th e => th.setPred e.1 e.2) th
  th.raise o.fl

/-- A FLT instruction in one lane: its result is written at once, or stays pending where `long` holds. -/
def fltBody (long : Thread → Bool) (f : State → Issue → Lane → Thread → Except Trap FltOut) (s : State) (i : Issue) (l : Lane) :
    LaneOut :=
  match f s i l (s.laneThread i l) with
  | .error t => .trap t
  | .ok o =>
    .done (if long (s.laneThread i l) then s.pend i l o.regs o.preds o.fl true false (0, 0, 0) none
      else s.updThread i.block l.tid fun th => th.write o)

/-- A FLT instruction over its lanes. It is long-latency in the lanes where `long` holds (R298), and then counts as one
of the clause's long-latency instructions (log 13). -/
def State.runFlt (s : State) (ins : Instr) (long : Thread → Bool)
    (f : State → Issue → Lane → Thread → Except Trap FltOut) : State :=
  let anyLong := match s.issue with
    | some i => i.lanes.any fun l => l.pred && long (s.laneThread i l)
    | none => false
  (if anyLong then s.countLong else s).runLanes ins (fltBody long f)

/-- An instruction of one element type whose results go to the group D. -/
def State.runElems (s : State) (ins : Instr) (w : Width) (d : Reg) (srcs : List Reg) (fmt : Fmt) (x2 : Bool)
    (rq : Bool) (op : Thread → Fmt → List Nat → Nat × Flags) : State :=
  let fmtOf := fun (th : Thread) => if rq && !x2 then th.fmtIn fmt else fmt
  s.runFlt ins (fun th => (fmtOf th).isRat) fun _ _ _ th =>
    let f := fmtOf th
    let xs := srcs.map fun r => th.flts r f x2 w
    let n := fltCount f x2 w
    let rs := (List.range n).map fun i => op th f (xs.map fun l => l.getD i 0)
    let (es, fl) := elemResults rs
    .ok ⟨regWrites d.toNat (fltWords f x2 w es), [], fl⟩

end Sys2Proof.Machine
end

