-- ==== Sys2Proof/Machine/Rng.lean ====
section
/-! DEFINITION. Random number streams (R216-R219) and RNG (R356). -/

namespace Sys2Proof.Machine

/-- The four state words of a draw. -/
structure RngState where
  a : Word
  b : Word
  x : Word
  y : Word
  deriving DecidableEq, Repr

/-- Word i mod 4 of a key. -/
def keyWord (k : BitVec 128) (i : Nat) : Word := k.extractLsb' (32 * (i % 4)) 32

/-- Round i of R217. -/
def rngRound (k : BitVec 128) (r : RngState) (i : Nat) : RngState :=
  let a := r.a + keyWord k i + BitVec.ofNat 32 i
  let b := (r.b ^^^ a).rotateLeft 7
  let x := r.x + b
  let y := (r.y ^^^ x).rotateLeft 13
  let a := a ^^^ y
  ⟨a, b + a.rotateLeft 16, x, y⟩

/-- RNGWORD(K, c) (R217). -/
def rngWord (k : BitVec 128) (c : Dword) : Word :=
  let r := (List.range 12).foldl (rngRound k) ⟨c.extractLsb' 0 32, c.extractLsb' 32 32, 0x5AB1E3C7, 0x2D46F1A9⟩
  r.a ^^^ r.b ^^^ r.x ^^^ r.y

/-- The key of a thread (R216). -/
def Block.rngKey (k : Block) (tid : Nat) : BitVec 128 :=
  k.seed ^^^ (k.rngId ++ k.bid ++ BitVec.ofNat 21 (k.thread tid).relaunch ++ BitVec.ofNat 11 tid)

/-- The value D that a thread's next FORK, INVOKE or INVOKE.ON gives (R218). -/
def Block.rngD (k : Block) (tid : Nat) : Dword :=
  let key := k.rngKey tid
  let c : Dword := BitVec.ofNat 64 (2 ^ 63 + 2 * (k.thread tid).forks)
  rngWord key (c + 1) ++ rngWord key c

/-- A draw of n words and the counter after it (R218). -/
def rngDraw (key : BitVec 128) (c : Dword) (n : Nat) : List Word × Dword :=
  ((List.range n).map fun i => rngWord key (c + BitVec.ofNat 64 i), c + BitVec.ofNat 64 n)

/-- Whether a draw passes from 2⁶⁴ − 1 to 0 (R218). -/
def rngWraps (c : Dword) (n : Nat) : Bool := decide (2 ^ 64 ≤ c.toNat + n)

/-- A word as a FP32 value w[31:8] × 2⁻²⁴, exactly (R219). -/
def rngF32 (w : Word) : Word := BitVec.ofNat 32 (fp32.round 0 false (w.toNat / 2 ^ 8) (2 ^ 24)).1

/-- Two words as a FP64 value (R219). -/
def rngF64 (w0 w1 : Word) : Nat := (fp64.round 0 false (w1.toNat / 2 ^ 11 * 2 ^ 32 + w0.toNat) (2 ^ 53)).1

/-- Drawn words as the registers of a kind (R356). -/
def rngRegs (kind : RngKind) : List Word → List Word
  | w0 :: w1 :: l => match kind with
    | .u32 => w0 :: rngRegs kind (w1 :: l)
    | .f32 => rngF32 w0 :: rngRegs kind (w1 :: l)
    | .f64 => natToWords 2 (rngF64 w0 w1) ++ rngRegs kind l
  | [w] => match kind with
    | .f32 => [rngF32 w]
    | _ => [w]
  | [] => []

/-- RNG (R356): the values are exact and no flag is raised. A wrap records RNGWRAP (R218). -/
def execRng (w : Width) (d : Reg) (kind : RngKind) (s : State) : Out :=
  .next (s.runLanes (.rng w d kind) fun s i l =>
    match s.block? i.block with
    | none => .done s
    | some k =>
      let n := 2 ^ w.toNat
      let th := k.thread l.tid
      let (ws, c) := rngDraw (k.rngKey l.tid) th.rngCtr n
      let s := if rngWraps th.rngCtr n then s.threadEvent i.block l.tid 0x05 i.at else s
      .done (s.updThread i.block l.tid fun th => { th with rngCtr := c }.setGroup d.toNat (rngRegs kind ws)))

end Sys2Proof.Machine
end

