-- ==== Sys2Proof/Machine/Matrix.lean ====
section
/-! DEFINITION. The summation of the matrix engine and the near-bank units (R213-R215, R350, R351, R355). -/

namespace Sys2Proof.Machine

/-- An element as the engines take it: its exact value, and whether it signals (R214). -/
structure MEl where
  v : FV
  snan : Bool
  deriving DecidableEq, Repr

/-- The exact sum of two fractions. -/
def addQ (a b : Int × Nat) : Int × Nat :=
  let l := Nat.lcm a.2 b.2
  (a.1 * ((l / a.2 : Nat) : Int) + b.1 * ((l / b.2 : Nat) : Int), l)

/-- One product: its value, and whether it is the invalid product of an infinity and zero (R214). -/
def mProduct (a b : MEl) : FV × Bool :=
  match a.v, b.v with
  | .nan _, _ | _, .nan _ => (.nan 0, false)
  | .inf x, .inf y => (.inf (x != y), false)
  | .inf x, .fin y n _ => if n = 0 then (.nan 0, true) else (.inf (x != y), false)
  | .fin x n _, .inf y => if n = 0 then (.nan 0, true) else (.inf (x != y), false)
  | .fin x n d, .fin y k e => (.fin (x != y) (n * k) (d * e), false)

/-- A chunk's sum rounded RN to the accumulator's format, with its flags (R213, R214). -/
def chunkSum (f : FpFmt) (ps : List (MEl × MEl)) : Nat × Flags :=
  let prods := ps.map fun p => mProduct p.1 p.2
  let vs := prods.map (·.1)
  let isNan := fun v => match v with | FV.nan _ => true | _ => false
  let isInf := fun (neg : Bool) (v : FV) => v == FV.inf neg
  let both := vs.any (isInf false) && vs.any (isInf true)
  let iv : Flags := if ps.any (fun p => p.1.snan || p.2.snan) || prods.any (·.2) || both then fIV else 0
  if vs.any isNan || both then (f.qnan, iv)
  else if vs.any (isInf false) then (f.infBits, iv)
  else if vs.any (isInf true) then (f.withSign true f.infBits, iv)
  else
    let q := vs.foldl (fun acc v => match v with
      | .fin neg n d => addQ acc (signed neg n, d)
      | _ => acc) ((0 : Int), 1)
    if q.1 = 0 then
      let allNeg := vs.all fun v => match v with | .fin neg n _ => neg && n == 0 | _ => false
      (f.withSign (allNeg && !vs.isEmpty) 0, iv)
    else
      let (b, fl) := f.round 0 (decide (q.1 < 0)) q.1.natAbs q.2
      (b, fl ||| iv)

/-- The canonical quiet NaN in place of any NaN (R214). -/
def canonNan (f : FpFmt) (b : Nat) : Nat := if f.isNan b then f.qnan else b

/-- The accumulation step: acc + r rounded RN (R213, R214). -/
def accStep (f : FpFmt) (acc : Nat) (r : Nat × Flags) : Nat × Flags :=
  let (b, fl) := f.add 0 acc r.1
  (canonNan f b, fl ||| r.2)

/-- One chunk of an integer accumulator, modulo 2³² (R213). -/
def intStep (acc : Nat) (ps : List (Int × Int)) : Nat :=
  wrap ((acc : Int) + ps.foldl (fun a p => a + p.1 * p.2) 0) 32

/-- The chunk size for the stored format of the B operand (R213). -/
def chunkOf (f : Fmt) : Nat :=
  match f with
  | .bf16 | .fp16 => 32
  | .d8 | .int8 => 64
  | .fp4x | .int4g => 128
  | .fp64 => 4
  | _ => 8

/-- An element of a binary format or D8 from its pattern. -/
def mElem (f : Fmt) (b : Nat) : MEl :=
  match f with
  | .d8 => match d8Decode b with
    | none => ⟨.nan 0, false⟩
    | some v => ⟨v, false⟩
  | f => ⟨(fpOf f).decode b, (fpOf f).isSnan b⟩

/-- An FP4X element under %xval and its scale, with the flags of the scaling (R203). -/
def mFp4 (x code sc : Nat) : MEl × Flags :=
  let (v, fl) := fp4Value code x sc
  (⟨v, false⟩, fl)

/-- An INT4G element expanded to BF16, with the flags of the expansion (R205, R351). -/
def mInt4 (code z sc : Nat) : MEl × Flags :=
  let (b, fl) := int4gExpand code z sc
  (mElem .bf16 b, fl)

/-- Element k of a row of bytes whose elements have `bits` bits. -/
def rowElem (row : List Byte) (bits k : Nat) : Nat :=
  if bits = 4 then bitsAt (row.getD (k / 2) 0).toNat (4 * (k % 2)) 4
  else bytesToNat ((row.drop (k * (bits / 8))).take (bits / 8))

/-- Elements lo … hi − 1 of a row in a format, with the scale words of its groups: the elements and the flags of their
expansion, or none where a scale word is rejected (R204). -/
def rowElems (f : Fmt) (row : List Byte) (scales : List Nat) (g xv lo hi : Nat) : Option (List MEl × Flags) :=
  let ks := (List.range (hi - lo)).map (· + lo)
  match f with
  | .fp4x =>
    let used := (dedup (ks.map (· / g))).map fun j => scaleWord true (scales.getD j 0)
    if used.any Option.isNone then none
    else
      let es := ks.map fun k => mFp4 xv (rowElem row 4 k) ((scaleWord true (scales.getD (k / g) 0)).getD (0, 0)).1
      some (es.map (·.1), es.foldl (fun a e => a ||| e.2) 0)
  | .int4g =>
    let used := (dedup (ks.map (· / g))).map fun j => scaleWord false (scales.getD j 0)
    if used.any Option.isNone then none
    else
      let es := ks.map fun k =>
        let sz := (scaleWord false (scales.getD (k / g) 0)).getD (0, 0)
        mInt4 (rowElem row 4 k) sz.2 sz.1
      some (es.map (·.1), es.foldl (fun a e => a ||| e.2) 0)
  | f => some (ks.map fun k => mElem f (rowElem row f.bits k), 0)

/-- A left fold of partial results by RN addition, from its first (R215). -/
def foldRN (f : FpFmt) : List (Nat × Flags) → Nat × Flags
  | [] => (0, 0)
  | x :: l => l.foldl (fun acc p =>
      let (b, fl) := f.add 0 acc.1 p.1
      (canonNan f b, acc.2 ||| fl ||| p.2)) x

/-- A list cut into pieces of n. -/
def piecesOf {α : Type} (n : Nat) : Nat → List α → List (List α)
  | 0, _ => []
  | fuel + 1, l => if l.isEmpty then [] else l.take n :: piecesOf n fuel (l.drop n)

/-- One share of K: its chunks summed from +0 (R213, R355). -/
def sharePartial (c : Nat) (ps : List (MEl × MEl)) : Nat × Flags :=
  (piecesOf c ps.length ps).foldl (fun acc ch =>
    let (b, fl) := accStep fp32 acc.1 (chunkSum fp32 ch)
    (b, acc.2 ||| fl)) (0, 0)

/-- y[n] of a column: shares of 4c elements to 16 banks of 16 channels of the stacks, folded bank by bank, channel by
channel, stack by stack (R215, R355). -/
def nearBankDot (c : Nat) (ps : List (MEl × MEl)) : Nat × Flags :=
  let shares := (piecesOf (4 * c) ps.length ps).map (sharePartial c)
  let channels := (piecesOf 16 shares.length shares).map (foldRN fp32)
  let parts := (piecesOf 16 channels.length channels).map (foldRN fp32)
  foldRN fp32 parts

end Sys2Proof.Machine
end

