-- ==== Sys2Proof/Machine/Sys.lean ====
section
/-! DEFINITION. Class SYS: special registers, TRAP, BKPT, ERET, CCTL, CLOCK (R357-R362), and the fetch of a clause
(R233, R236). -/

namespace Sys2Proof.Machine

/-! ## Fetch (R233) -/

/-- The bytes that a fetch of one 64-byte sector gives: what the core fetched before, or what stands there now, whole
per sector, where the two differ; a fetch in a view reads as the view does. -/
def State.fetchSector (s : State) (k : Block) (sec : Nat) (home : HomeAt) : State × List Byte :=
  let now := s.readIn k.tenant k.vtag (sec * 64) home 64
  if k.vtag != 0 then (s, now)
  else
    match (s.core k.core).icache.find? fun e => e.1 == k.tenant && e.2.1 == sec with
    | some (_, _, old) => if old != now && Config.freeBit s.freeCtr then (s.tick, old) else (s, now)
    | none => (s.updCore k.core fun c => { c with icache := c.icache ++ [(k.tenant, sec, now)] }, now)

/-- The sectors that the fetch of one clause has brought, each of them once (R233). -/
abbrev Fetched := List (Nat × List Byte)

/-- One word of code, or its address and the fault of its fetch. A remote entry grants no fetch: of its permission bits none
counts, and no message carries a fetch (R36, R61; log 16). -/
def State.fetchWord (s : State) (b va : Nat) (got : Fetched) : Except (Nat × Err) (State × Fetched × Word) :=
  match s.block? b with
  | none => .error (va, (cXLATE, 1))
  | some k =>
    match s.xlate k.core k.tenant va .ex with
    | .error e => .error (va, e)
    | .ok x =>
      match x.home with
      | .remote _ _ => .error (va, (cPROT, 3))
      | h =>
        match s.lostHome h 4 with
        | some c => .error (va, (cINTEG, c))
        | none =>
          let word := fun (bs : List Byte) => BitVec.ofNat 32 (bytesToNat ((bs.drop (va % 64)).take 4))
          match got.find? fun e => e.1 == va / 64 with
          | some e => .ok (s, got, word e.2)
          | none =>
            let (s, bs) := (s.fillTlb k.core k.tenant x.leaf).fetchSector k (va / 64) (h.back (va % 64))
            .ok (s, (va / 64, bs) :: got, word bs)

/-- A number of words of code from an address on. -/
def State.fetchWords (s : State) (b va : Nat) (got : Fetched) : Nat → Except (Nat × Err) (State × List Word)
  | 0 => .ok (s, [])
  | n + 1 =>
    match s.fetchWord b va got with
    | .error e => .error e
    | .ok (s, got, w) =>
      match s.fetchWords b (va + 4) got n with
      | .error e => .error e
      | .ok (s, ws) => .ok (s, w :: ws)

/-- A clause fetched whole: its header and words, or the trap taken at the header, with the address whose fetch faults (R233,
R236). -/
def State.fetchClause (s : State) (b : Nat) (pc : Dword) : Except Trap (State × Word × List Word) :=
  let bad := fun (e : Nat × Err) => { Trap.ofXlate e.2 3 e.1 with toHandler := false }
  match s.fetchWord b pc.toNat [] with
  | .error e => .error (bad e)
  | .ok (s, got, h) =>
    match (Header.ofWord h).fault with
    | some c => .error { Trap.of cILLEGAL c with addr := pc.toNat, aux0 := h.toNat }
    | none =>
      match s.fetchWords b (pc.toNat + 4) got (Header.ofWord h).n.toNat with
      | .error e => .error (bad e)
      | .ok (s, ws) => .ok (s, h, ws)

/-! ## Special registers (R357, R358) -/

/-- %clock: the cycles since the block's launch at DL0, the thread's retired count above (R85, R362). -/
def State.clockOf (s : State) (b tid : Nat) : Dword :=
  match s.block? b, s.gridOf b with
  | some k, some g =>
    if g.dl == 0 then BitVec.ofNat 64 (s.cycle - k.started - k.gatedCycles) else (k.thread tid).retired
  | _, _ => 0

/-- Dword i of a %dcause register (R92). -/
def DCause.dword (d : DCause) (i : Nat) : Dword :=
  if i = 32 then d.ovfl.setWidth 64
  else match d.entries[i / 2]? with
    | none => 0
    | some e => if i % 2 = 0 then e.count ++ 0#24 ++ e.code else e.pc

/-- %obase (R163). -/
def Block.obase (k : Block) : Dword :=
  BitVec.ofNat 64 (k.core * 2 ^ 20 + 4 * k.regBase + (k.core * 2 ^ 20 + 0x40000 + k.scratchBase) * 2 ^ 32)

/-- The depth of the view that a block's threads run in (R96). -/
def State.depthOf (s : State) (k : Block) : Nat :=
  match Sparse.find s.views k.vtag with
  | some v => v.depth
  | none => 0

/-- The value of a special register (R357). -/
def State.readSpecial (s : State) (b tid : Nat) (r : Half) : Dword :=
  match s.block? b, s.gridOf b with
  | some k, some g =>
    let th := k.thread tid
    let n := r.toNat
    if n = 0x000 then BitVec.ofNat 64 tid
    else if n = 0x001 then BitVec.ofNat 64 (tid / 4)
    else if n = 0x002 then k.bid.setWidth 64
    else if n = 0x003 then BitVec.ofNat 64 k.member
    else if n = 0x004 then k.child.setWidth 64
    else if n = 0x005 then BitVec.ofNat 64 (s.depthOf k)
    else if n = 0x006 then g.dl.setWidth 64
    else if n = 0x008 then k.obase
    else if n = 0x010 then th.fpcr.setWidth 64
    else if n = 0x011 then th.fpsr.setWidth 64
    else if n = 0x018 then s.clockOf b tid
    else if n = 0x019 then th.retired
    else if n = 0x020 then k.bto.setWidth 64
    else if n = 0x021 then k.sto.setWidth 64
    else if 0x030 ≤ n ∧ n ≤ 0x03F then (Sparse.get 0 k.xval (n - 0x030)).setWidth 64
    else if 0x040 ≤ n ∧ n ≤ 0x047 then th.trecAt (n - 0x040)
    else if 0x080 ≤ n ∧ n ≤ 0x0A0 then (if g.dl == 0 then g.dcause else g.published).dword (n - 0x080)
    else 0
  | _, _ => 0

/-- SRD (R358). -/
def execSrd (w : Width) (d : Reg) (r : Half) (s : State) : Out :=
  .next (s.runLanes (.srd w d r) fun s i l =>
    .done (s.updThread i.block l.tid fun th =>
      th.setGroup d.toNat (natToWords (2 ^ w.toNat) (s.readSpecial i.block l.tid r).toNat)))

/-- The check of a value for %fpcr (R193): a reserved code in RM or QRM, or a reserved bit set. -/
def fpcrBad (v : Word) : Bool :=
  decide (5 ≤ bitsAt v.toNat 0 3) || decide (5 ≤ bitsAt v.toNat 11 3) || onBit v 3 || bitsAt v.toNat 14 18 != 0

/-- The bits of %trec that stand for something; the reserved ones read zero (R6, R222). -/
def trecMask (i : Nat) : Dword :=
  if i = 1 then 0x0000000F0F07FFFF else if i = 3 then 0x000007FFFFFFFFFF else BitVec.allOnes 64

/-- SWR on one lane (R358). Setting %fpcr.RQ needs the rational feature (R248), which is tested before the value. -/
def swrLane (w : Width) (d : Reg) (r : Half) (s : State) (i : Issue) (l : Lane) : LaneOut :=
  let th := s.laneThread i l
  let v : Dword := BitVec.ofNat 64 (th.groupNat d.toNat (2 ^ w.toNat))
  let v32 : Word := v.setWidth 32
  let n := r.toNat
  if n = 0x010 then
    let rational := match s.kernelOf i.block with | some k => onBit k.features 3 | none => false
    if onBit v32 10 && !rational then .trap (Trap.of cOPERAND 2)
    else if fpcrBad v32 then .trap (Trap.of cOPERAND 7)
    else .done (s.updThread i.block l.tid fun th => { th with fpcr := v32 })
  else if n = 0x011 then
    .done (s.updThread i.block l.tid fun th => { th with fpsr := (th.fpsr &&& 0x1F00) ||| (v32 &&& 0x1F) })
  else if n = 0x020 then .done (s.updBlock i.block fun k => { k with bto := v32 })
  else if n = 0x021 then .done (s.updBlock i.block fun k => { k with sto := v32 })
  else if 0x030 ≤ n ∧ n ≤ 0x03F then
    .done (s.updBlock i.block fun k => { k with xval := Sparse.set 0 k.xval (n - 0x030) (v.setWidth 16) })
  else if 0x040 ≤ n ∧ n ≤ 0x047 then
    .done (s.updThread i.block l.tid fun th => th.setTrec (n - 0x040) (v &&& trecMask (n - 0x040)))
  else .done s

def execSwr (w : Width) (d : Reg) (r : Half) (s : State) : Out :=
  .next (s.runLanes (.swr w d r) (swrLane w d r))

/-! ## TRAP, BKPT, ERET (R359, R360, R224) -/

/-- TRAP: CAUSE is IMM16[7:0], AUX[15:0] is IMM16. -/
def execTrap (imm : Half) (s : State) : Out :=
  .next (s.runLanes (.trap imm) fun _ _ _ =>
    .trap { Trap.of cTRAP (imm.toNat % 256) with aux0 := imm.toNat })

/-- BKPT. -/
def execBkpt (imm : Half) (s : State) : Out :=
  .next (s.runLanes (.bkpt imm) fun _ _ _ =>
    .trap { Trap.of cBKPT (imm.toNat % 256) with aux0 := imm.toNat })

/-- The clause position that a handler resumes at, and whether a legal header stands there (R224). -/
def State.eretOk (s : State) (b : Nat) (th : Thread) : Bool :=
  let clpos := bitsAt (th.trecAt 1).toNat 32 4
  let h := (th.trecAt 0 - BitVec.ofNat 64 (4 * clpos)).toNat
  h % 4 == 0 && (match s.fetchWord b h [] with
    | .error _ => false
    | .ok (_, _, w) => (Header.ofWord w).fault.isNone && decide (clpos ≤ (Header.ofWord w).n.toNat))

/-- ERET on one lane (R224, R360). -/
def eretLane (s : State) (i : Issue) (l : Lane) : LaneOut :=
  let th := s.laneThread i l
  if !th.hm || !s.eretOk i.block th then
    .trap { Trap.of cILLEGAL 8 with addr := i.at.toNat, aux0 := (i.words.getD (i.pos - 1) 0).toNat }
  else
    let s := s.updThread i.block l.tid fun th =>
      { th.leaveHandler with retired := th.retired + 1, turnRetired := th.turnRetired + 1 }
    .out (if (s.thread i.block l.tid).clpos = 0 then s.releaseOwed i.block l.tid else s)

def execEret (s : State) : Out := .next (s.runLanes .eret eretLane)

/-! ## CCTL, CLOCK (R361, R362) -/

/-- The dirty sectors of the line at an address written back, and the line invalidated where `inv` says so. -/
def State.cleanLine (s : State) (core t va : Nat) (inv : Bool) : State :=
  (List.range 4).foldl (fun s j =>
    let sec := va / 256 * 4 + j
    match (s.core core).sector? t sec with
    | none => s
    | some x => (s.writeBack x).updCore core fun c => if inv then c.dropSector t sec else c.putSector { x with dirty := 0 }) s

/-- CCTL on one lane. In a view it acts on the view's own lines, of which the core cache holds none (log 17). -/
def cctlLane (a : Reg) (off : BitVec 8) (op : CctlOp) (s : State) (i : Issue) (l : Lane) : LaneOut :=
  match s.block? i.block with
  | none => .done s
  | some k =>
    match op with
    | .iinv => .done (s.updCore k.core fun c => { c with icache := [] })
    | .wb | .wbi =>
      let va := ea (addrOf (s.laneThread i l) a) (256 * sext off.toNat 8)
      match s.xlate k.core k.tenant va .rd with
      | .error _ => .done s
      | .ok _ => .done (if k.vtag != 0 then s else s.cleanLine k.core k.tenant va (op == .wbi))

def execCctl (a : Reg) (off : BitVec 8) (op : CctlOp) (s : State) : Out :=
  .next (s.runLanes (.cctl a off op) (cctlLane a off op))

/-- CLOCK (R362). -/
def execClock (d : Reg) (s : State) : Out :=
  .next (s.runLanes (.clock d) fun s i l =>
    .done (s.updThread i.block l.tid fun th => th.setPair d.toNat (s.clockOf i.block l.tid)))

end Sys2Proof.Machine
end

