-- ==== Sys2Proof/Machine/Eng.lean ====
section
/-! DEFINITION. Class ENG: posting of engine operations, transaction barriers, timelines, the matrix engine's entries,
accumulators (R335-R355). -/

namespace Sys2Proof.Machine

/-! ## Order between blocks (R91) -/

/-- What two blocks know, together. -/
def mergeKnows (a b : Sparse Nat) : Sparse Nat :=
  b.foldl (fun a e => if Sparse.get 0 a e.1 < e.2 then Sparse.set 0 a e.1 e.2 else a) a

/-- What a block has done and knows. -/
def Block.known (k : Block) (b : Nat) : Sparse Nat := Sparse.set 0 k.knows b k.clock

/-- A block learns. -/
def State.learn (s : State) (b : Nat) (m : Sparse Nat) : State := s.updBlock b fun k => { k with knows := mergeKnows k.knows m }

/-- The cycles of the arithmetic clock of the dies on which a block has stood; it stands still while the die is gated (R2,
R16, R17). -/
def State.dieClock (s : State) (b : Nat) : Nat := s.cycle - (match s.block? b with | some k => k.gatedCycles | none => 0)

/-- The clock by which the timers of a grid's waits run: at DL0 the cycles of the block's die; above those for which the grid
has stood stalled, but for such as the die's clock stood still (R2, R17, R88, R227; log 18). -/
def State.timer (s : State) (b : Nat) : Nat :=
  match s.gridOf b, s.block? b with
  | some g, some k => if g.dl == 0 then s.dieClock b else g.stall - k.gatedCycles
  | _, _ => s.dieClock b

/-- When a timer that starts now expires, by a limit of %bto or %sto: 0 for never (R226). -/
def State.deadline (s : State) (b : Nat) (limit : Word) : Nat := if limit == 0 then 0 else s.timer b + limit.toNat

/-- Whether a timer has expired; those of a saved or lost block stand still. -/
def State.expired (s : State) (b due : Nat) : Bool :=
  due != 0 && decide (due ≤ s.timer b)
  && (match s.block? b with | some k => k.state != .saved && k.state != .lost | none => true)

/-- %bto and %sto of a block. -/
def State.btoOf (s : State) (b : Nat) : Word := match s.block? b with | some k => k.bto | none => 0
def State.stoOf (s : State) (b : Nat) : Word := match s.block? b with | some k => k.sto | none => 0

/-! ## Transaction barriers (R344-R347) -/

def tbPhase (v : Nat) : Nat := bitsAt v 0 4
def tbParr (v : Nat) : Nat := bitsAt v 4 20
def tbPsec (v : Nat) : Nat := bitsAt v 24 32
def tbErr (v : Nat) : Bool := bitAt v 56
def tbReload (v : Nat) : Nat := bitsAt v 57 20

/-- A barrier from its fields, with the reserved bits of another value. -/
def tbMake (phase parr psec : Nat) (err : Bool) (reload old : Nat) : Nat :=
  phase % 16 + parr % 2 ^ 20 * 2 ^ 4 + psec % 2 ^ 32 * 2 ^ 24 + (if err then 2 ^ 56 else 0) + reload % 2 ^ 20 * 2 ^ 57
    + old / 2 ^ 77 * 2 ^ 77

/-- The phase completes after an operation that leaves no pending arrival and no pending sector (R344). -/
def tbClose (v : Nat) : Nat :=
  if tbParr v = 0 ∧ tbPsec v = 0 then tbMake (tbPhase v + 1) (tbReload v) 0 (tbErr v) (tbReload v) v else v

/-- The barrier of a member's scratchpad. -/
def State.tbGet (s : State) (o off : Nat) : Nat := bytesToNat (s.readScratch o off 16)

/-- One operation on a barrier, by a block whose knowledge the phase takes in (R188). -/
def State.tbOp (s : State) (o off : Nat) (who : Sparse Nat) (f : Nat → Nat) : State :=
  let v := f (s.tbGet o off)
  let v' := tbClose v
  let s := s.writeScratch o off (natToBytes 16 v')
  s.updBlock o fun k =>
    let acc := mergeKnows (Sparse.get [] k.tbKnows (2 * off)) who
    if v' = v then { k with tbKnows := Sparse.set [] k.tbKnows (2 * off) acc }
    else { k with tbKnows := Sparse.set [] (Sparse.set [] k.tbKnows (2 * off) []) (2 * off + 1) acc }

/-- The arrival of R346 on a barrier's value. -/
def tbArrived (v : Nat) : Nat :=
  if tbParr v = 0 then tbMake (tbPhase v) 0 (tbPsec v) true (tbReload v) v
  else tbMake (tbPhase v) (tbParr v - 1) (tbPsec v) (tbErr v) (tbReload v) v

/-- What TBARRIVE writes to D: the phase before, the pending arrivals after, and bit 31 for an over-arrival. -/
def tbArriveWord (v : Nat) : Word :=
  BitVec.ofNat 32 (tbPhase v + (tbParr v - 1) * 2 ^ 4 + (if tbParr v = 0 then 2 ^ 31 else 0))

/-- Sectors added to or taken from the pending ones; an error is kept (R343, R346). -/
def tbSectors (n : Nat) (err : Bool) (v : Nat) : Nat :=
  tbMake (tbPhase v) (tbParr v) (tbPsec v + n) (tbErr v || err) (tbReload v) v

/-- The checks of a barrier operand (R161, R250): the member's block and the offset. -/
def State.tbAddr (s : State) (b addr : Nat) : Except Trap (Nat × Nat) :=
  match s.clusterAddr b addr 0 with
  | .error t => .error t
  | .ok (o, off) =>
    let n := match s.kernelOf b with | some k => k.tbars | none => 0
    if off % 16 != 0 || decide (16 * n ≤ off) then .error { Trap.of cBARIDX 2 with addr := addr } else .ok (o, off)

/-- Whether an operation of block b on a barrier of member o is buffered to the boundary: at DL1 and above, between cores, and
while another core's TBINIT of the barrier is (R87, R345). -/
def State.buffered (s : State) (b o off : Nat) : Bool :=
  match s.gridOf b, s.block? b, s.block? o with
  | some g, some k, some m => g.dl != 0 && (k.core != m.core || g.effects.any fun e => match e.kind with
      | .tbInit mb at_ _ => mb == o && at_ == off
      | _ => false)
  | _, _, _ => false

/-- What a block has done, by its number. -/
def State.knownOf (s : State) (b : Nat) : Sparse Nat := match s.block? b with | some k => k.known b | none => []

/-- TBINIT (R345). Of another core's barrier it is an effect of the turn, before the arrivals and counts that reach the barrier at
the boundary. -/
def tbinitLane (a : Reg) (imm : Word) (s : State) (i : Issue) (l : Lane) : LaneOut :=
  let v := imm.toNat
  if 2 ^ 20 ≤ v ∨ v = 0 then .trap (Trap.of cOPERAND 15)
  else match s.tbAddr i.block ((s.laneThread i l).reg a.toNat).toNat with
    | .error t => .trap t
    | .ok (o, off) =>
      let bs := natToBytes 16 (tbMake 0 v 0 false v 0)
      .done (if s.buffered i.block o off then s.addEffect i.block l.tid i.at (.tbInit o off bs) else s.writeScratch o off bs)

def execTbinit (a : Reg) (imm : Word) (s : State) : Out :=
  .next (s.runLanes (.tbinit a imm) (tbinitLane a imm))

/-- TBARRIVE (R346): the release, which the thread waits for, then the arrival and its answer in one step. From another core at
DL1 and above it is applied at the boundary, and the thread waits for the answer. -/
def tbarriveLane (d a : Reg) (s : State) (i : Issue) (l : Lane) : LaneOut :=
  match s.tbAddr i.block ((s.laneThread i l).reg a.toNat).toNat with
  | .error t => .trap t
  | .ok (o, off) =>
    match s.releaseAt i.block l.tid i.at 2 with
    | (s, some w) => .wait s w
    | (s, none) =>
      if s.buffered i.block o off then .wait (s.addEffect i.block l.tid i.at (.tbArrive o off d.toNat)) .boundary
      else
        let r := tbArriveWord (s.tbGet o off)
        let s := s.tbOp o off (s.knownOf i.block) tbArrived
        .done (s.updThread i.block l.tid fun th => th.setReg d.toNat r)

def execTbarrive (d a : Reg) (s : State) : Out := .next (s.runLanes (.tbarrive d a) (tbarriveLane d a))

/-- TBEXPECT (R346). -/
def tbexpectLane (a b : Reg) (s : State) (i : Issue) (l : Lane) : LaneOut :=
  let th := s.laneThread i l
  match s.tbAddr i.block (th.reg a.toNat).toNat with
  | .error t => .trap t
  | .ok (o, off) =>
    let n := th.reg b.toNat
    if s.buffered i.block o off then .wait (s.addEffect i.block l.tid i.at (.tbExpect o off n)) .boundary
    else .done (s.tbOp o off [] (tbSectors n.toNat false))

def execTbexpect (a b : Reg) (s : State) : Out := .next (s.runLanes (.tbexpect a b) (tbexpectLane a b))

/-- A thread passes a completed phase: P[D] := ERR, and the acquire (R188, R347). -/
def State.passTb (s : State) (b tid o off : Nat) (pd : PredNo) : State :=
  let err := tbErr (s.tbGet o off)
  let m := match s.block? o with | some k => Sparse.get [] k.tbKnows (2 * off + 1) | none => []
  ((s.learn b m).acquire b 2).updThread b tid fun th => th.setPred pd.toNat err

/-- TBWAIT (R347). At DL1 and above another core's barrier is looked at only at boundaries. -/
def tbwaitLane (pd : PredNo) (a b : Reg) (s : State) (i : Issue) (l : Lane) : LaneOut :=
  let th := s.laneThread i l
  match s.tbAddr i.block (th.reg a.toNat).toNat with
  | .error t => .trap t
  | .ok (o, off) =>
    let p := bitsAt (th.reg b.toNat).toNat 0 4
    if tbPhase (s.tbGet o off) != p && !s.buffered i.block o off then .done (s.passTb i.block l.tid o off pd)
    else .wait s (.tbwait o off (BitVec.ofNat 4 p) pd (s.deadline i.block (s.btoOf i.block)))

def execTbwait (pd : PredNo) (a b : Reg) (s : State) : Out := .next (s.runLanes (.tbwait pd a b) (tbwaitLane pd a b))

/-- TBTEST (R347). -/
def execTbtest (d a b : Reg) (s : State) : Out :=
  .next (s.runLanes (.tbtest d a b) fun s i l =>
    let th := s.laneThread i l
    match s.tbAddr i.block (th.reg a.toNat).toNat with
    | .error t => .trap t
    | .ok (o, off) =>
      let v := s.tbGet o off
      let r : Word := (if tbPhase v != bitsAt (th.reg b.toNat).toNat 0 4 then 1 else 0) + (if tbErr v then 2 else 0)
      .done (s.updThread i.block l.tid fun th => th.setReg d.toNat r))

/-! ## Timelines (R348) -/

/-- TLWAIT: an acquire of every operation up to the value once it is reached. -/
def tlwaitLane (a : Reg) (k : BitVec 3) (s : State) (i : Issue) (l : Lane) : LaneOut :=
  match s.block? i.block with
  | none => .done s
  | some b =>
    let v := (s.laneThread i l).pair a.toNat
    if v.toNat ≤ (b.tlc k.toNat).toNat then .done (s.acquire i.block 5) else .wait s (.tlwait k.toNat v)

def execTlwait (a : Reg) (k : BitVec 3) (s : State) : Out := .next (s.runLanes (.tlwait a k) (tlwaitLane a k))

/-- TLREAD. -/
def execTlread (d : Reg) (k : BitVec 3) (s : State) : Out :=
  .next (s.runLanes (.tlread d k) fun s i l =>
    let v := match s.block? i.block with | some b => b.tlc k.toNat | none => 0
    .done (s.updThread i.block l.tid fun th => th.setPair d.toNat v))

/-- A software timeline advances. -/
def State.tlAdvance (s : State) (b k : Nat) (n : Dword) : State :=
  s.updBlock b fun x => { x with tl := Sparse.set 0 x.tl k (x.tlc k + n) }

/-- TLADD (R348): the release, which the thread waits for, then the step, at DL1 and above at the boundary. -/
def tladdLane (a : Reg) (k : BitVec 3) (s : State) (i : Issue) (l : Lane) : LaneOut :=
  if k.toNat < 4 then .trap (Trap.of cOPERAND 16)
  else
    let n : Dword := ((s.laneThread i l).reg a.toNat).setWidth 64
    match s.releaseAt i.block l.tid i.at 3 with
    | (s, some w) => .wait s w
    | (s, none) =>
      .done (if s.dl0 i.block then s.tlAdvance i.block k.toNat n else s.addEffect i.block l.tid i.at (.tlAdd k.toNat n))

def execTladd (a : Reg) (k : BitVec 3) (s : State) : Out := .next (s.runLanes (.tladd a k) (tladdLane a k))

/-! ## Posting (R335, R336, R338) -/

/-- The parameter words after substitution (R240). -/
def paramAt (p : PBlock) (th : Thread) (j : Nat) : Nat :=
  let raw := if j = 0 then p.pw0 else if j = 1 then p.pw1 else if j = 2 then p.pw2 else p.pw3
  if onBit p.mask j then (th.reg (raw.toNat % 256)).toNat else raw.toNat

/-! ## The global ranges of an operation, and the release of its posting (R179, R336) -/

/-- SAT of R244. -/
def satInt (x lo hi : Int) : Int := if x < lo then lo else if hi < x then hi else x

/-- A row's or column's bytes, and the distance between them (R350). -/
def mmaRow (k : Nat) (f : Fmt) : Nat := divUp (k * f.bits) 8
def mmaPitch (k : Nat) (f : Fmt) : Nat := divUp (k * f.bits) 128 * 16

/-- The tensor row that a box row reads, and the first and last column of the segment it needs; none where it needs
nothing. -/
def boxSegment (edge cols rows : Nat) (col0 gr : Int) (boxc : Nat) : Option (Nat × Nat × Nat) :=
  let inRow := decide (0 ≤ gr ∧ gr ≤ (rows : Int))
  let last := col0 + boxc - 1
  if edge = 1 then
    some ((satInt gr 0 rows).toNat, (satInt col0 0 cols).toNat, (satInt last 0 cols).toNat)
  else if inRow && decide (col0 ≤ (cols : Int) ∧ 0 ≤ last) then
    some (gr.toNat, (satInt col0 0 cols).toNat, (satInt last 0 cols).toNat)
  else none

/-- The bytes of a segment of columns of e bits: where it starts, how long it is, and the first element in it. -/
def segmentBytes (gbase gpitch e cr lo hi : Nat) : Nat × Nat × Nat :=
  let b0 := lo * e / 8
  (gbase + cr * gpitch + b0, divUp ((hi + 1) * e) 8 - b0, b0 * 8 / e)

/-- The global ranges of a box, row by row: with EDGE 01 of a load the nearest elements too, otherwise those inside (R341). -/
def boxRanges (gbase bits edge cols rows gpitch : Nat) (col0 row0 : Int) (boxc boxr : Nat) : List (Nat × Nat) :=
  (List.range boxr).filterMap fun (j : Nat) => (boxSegment edge cols rows col0 (row0 + (j : Int)) boxc).map fun x =>
    let (va, n, _) := segmentBytes gbase gpitch bits x.1 x.2.1 x.2.2
    (va, n)

/-- Whether a format is scaled by groups. -/
def isGrouped (f : Fmt) : Bool := f == .fp4x || f == .int4g

/-- The scale words that an NBGEMV reads, column by column: the weight page gives the group size (R354). -/
def State.scaleRanges (s : State) (site t wbase k n wpitch : Nat) (f : Fmt) (sbase : Nat) : List (Nat × Nat) :=
  if !isGrouped f then []
  else (List.range (n + 1)).filterMap fun j => match s.xlate site t (wbase + j * wpitch) .rd with
    | .ok x => let g := divUp (k + 1) (groupOf x.leaf.geom); some (sbase + 4 * (j * g), 4 * g)
    | .error _ => none

/-- The global ranges that an operation reads and may read on another device: an NBGEMV's weights lie here (R354). -/
def State.kindReads (s : State) (site t : Nat) (kind : EngKind) : List (Nat × Nat) :=
  match kind with
  | .cpy st gbase fmt edge cols rows gpitch col0 row0 boxc boxr _ =>
    if st then [] else boxRanges gbase fmt.bits edge cols rows gpitch col0 row0 boxc boxr
  | .cpyg src _ n => [(src, n)]
  | .cpys .. => []
  | .cpyr ss src _ n => if ss then [] else [(src, n)]
  | .nbgemv wbase k n wpitch _ _ _ f sbase => s.scaleRanges site t wbase k n wpitch f sbase

/-- The other global ranges: those that it writes, and an NBGEMV's weights. -/
def EngKind.others (kind : EngKind) : List (Nat × Nat) :=
  match kind with
  | .cpy st gbase fmt _ cols rows gpitch col0 row0 boxc boxr _ =>
    if st then boxRanges gbase fmt.bits 0 cols rows gpitch col0 row0 boxc boxr else []
  | .cpyg _ dst n => [(dst, n)]
  | .cpys .. | .cpyr .. => []
  | .nbgemv wbase k n wpitch _ _ _ f _ => (List.range (n + 1)).map fun j => (wbase + j * wpitch, mmaRow (k + 1) f)

/-- The scope of the page that holds an address, device where it cannot be translated, whatever it permits (R179). -/
def State.pageScope (s : State) (site t va : Nat) : Nat :=
  match s.xlate site t va .rd, s.xlate site t va .wr with
  | .ok x, _ | _, .ok x => x.leaf.maxScope
  | .error _, .error _ => 3

/-- The widest scope of the pages of some ranges; a page has 128 KiB at least (R60). -/
def State.rangesScope (s : State) (site t : Nat) (rs : List (Nat × Nat)) : Nat :=
  rs.foldl (fun a r => (List.range ((r.1 + r.2 - 1) / 2 ^ 17 - r.1 / 2 ^ 17 + 1)).foldl (fun a j =>
    max a (s.pageScope site t (if j = 0 then r.1 else (r.1 / 2 ^ 17 + j) * 2 ^ 17))) a) 0

/-- The scope of a cluster scratchpad address for a block: block for its own scratchpad, cluster for another member's (R161,
R166). -/
def State.memberScope (s : State) (b addr : Nat) : Nat :=
  match s.memberOf b (bitsAt addr 28 4) with
  | some o => if o = b then 1 else 2
  | none => 2

/-- The widest scope of an operation's sources and destinations: block for its own scratchpad, cluster for a member's,
device for the on-chip map, and that of every global page (R166, R179). -/
def State.kindScope (s : State) (b : Nat) (kind : EngKind) : Nat :=
  let space := match kind with
    | .cpy _ _ _ _ _ _ _ _ _ _ _ saddr => s.memberScope b saddr
    | .cpys src dst _ => max (s.memberScope b src) (s.memberScope b dst)
    | .cpyr .. => 3
    | .cpyg .. => 0
    | .nbgemv .. => 1
  match s.block? b with
  | none => space
  | some k => max space (s.rangesScope k.core k.tenant (s.kindReads k.core k.tenant kind ++ kind.others))

/-- An operation posted: its number on the timeline, and its place among the operations and the effects of its turn. -/
def State.post (s : State) (i : Issue) (l : Lane) (scope tlk : Nat) (tb : Option Nat) (kind : EngKind) : State :=
  let (n, s) := s.tlPosted i.block tlk
  let (id, s) := s.fresh
  let v := match s.block? i.block with | some k => k.vtag | none => 0
  let seq := match s.gridOf i.block with | some g => g.effSeq | none => 0
  let s := match s.block? i.block with
    | some k => s.updGrid k.grid fun g => { g with effSeq := g.effSeq + 1 }
    | none => s
  { s with engines := s.engines ++ [⟨id, i.block, l.tid, i.at, v, kind, tlk, n, tb, [], 0, false, false, scope, none, seq⟩] }

/-- Tests 2 and 3 of R336, the release of R179 and the posting: the barrier where .TB names one, then a frozen block. The
barrier is kept as 2²⁰ · block + offset. -/
def postChecked (s : State) (i : Issue) (l : Lane) (d : Reg) (tb writes : Bool) (tlk : Nat) (kind : EngKind) : LaneOut :=
  let bar := if tb then (s.tbAddr i.block ((s.laneThread i l).reg d.toNat).toNat).map some else .ok none
  match bar with
  | .error t => .trap t
  | .ok bar =>
    let frozen := match s.block? i.block with | some k => k.frozen | none => false
    if writes && frozen then .trap (Trap.of cFROZEN 1)
    else
      let scope := s.kindScope i.block kind
      match s.releaseAt i.block l.tid i.at scope with
      | (s, some w) => .wait s w
      | (s, none) => .done (s.post i l scope tlk (bar.map fun e => e.1 * 2 ^ 20 + e.2) kind)

/-! ## Copies (R340-R342) -/

/-- The bits of an element of the tensor record (R340). -/
def tensorBits (f : Nat) : Nat := match fmtOfNat f with | some x => x.bits | none => 8

/-- A box row's bytes in the scratchpad, RB (R340). -/
def rowBytes (boxc bits : Nat) : Nat := divUp (boxc * bits) 128 * 16

/-- CPY (R340). -/
def cpyLane (d a : Reg) (st tb : Bool) (p : PBlock) (s : State) (i : Issue) (l : Lane) : LaneOut :=
  let th := s.laneThread i l
  let rec_ := paramAt p th 0 + paramAt p th 1 * 2 ^ 32 + paramAt p th 2 * 2 ^ 64 + paramAt p th 3 * 2 ^ 96
  let q := th.groupNat a.toNat 4
  let gbase := bitsAt rec_ 0 53
  let fmt := bitsAt rec_ 56 4
  let edge := bitsAt rec_ 60 2
  let cols := bitsAt rec_ 64 16
  let rows := bitsAt rec_ 80 16
  let gpitch := bitsAt rec_ 96 32
  let col0 := sext (bitsAt q 0 32) 32
  let row0 := sext (bitsAt q 32 32) 32
  let boxc := bitsAt q 64 16 + 1
  let boxr := bitsAt q 80 16 + 1
  let saddr := bitsAt q 96 32
  let e := tensorBits fmt
  let rb := rowBytes boxc e
  let bad :=
    bitsAt rec_ 53 3 != 0 || bitsAt rec_ 62 2 != 0 || decide (14 ≤ fmt) || edge == 3
    || gbase % 16 != 0 || gpitch % 16 != 0 || decide (gpitch * 8 < (cols + 1) * e) || saddr % 16 != 0
    || (e == 4 && (col0 % 2 != 0 || boxc % 2 != 0 || (cols + 1) % 2 != 0))
    || decide (2 ^ 18 < boxr * rb)
  if bad then .trap (Trap.of cOPERAND 13)
  else match s.clusterAddr i.block saddr (boxr * rb) with
    | .error t => .trap t
    | .ok _ =>
      postChecked s i l d tb st 0
        (.cpy st gbase ((fmtOfNat fmt).getD .bytes) edge cols rows gpitch col0 row0 boxc boxr saddr)

def execCpy (d a : Reg) (st tb : Bool) (p : PBlock) (s : State) : Out :=
  .next (s.runLanes (.cpy d a st tb p) (cpyLane d a st tb p))

/-- A length within its table row (R342). -/
def lenOk (n unit hi : Nat) : Bool := n % unit == 0 && decide (unit ≤ n) && decide (n ≤ hi)

/-- CPYG (R342). -/
def cpygLane (d a : Reg) (tb : Bool) (p : PBlock) (s : State) (i : Issue) (l : Lane) : LaneOut :=
  let th := s.laneThread i l
  let src := paramAt p th 0 + paramAt p th 1 * 2 ^ 32
  let dst := paramAt p th 2 + paramAt p th 3 * 2 ^ 32
  let n := (th.reg a.toNat).toNat
  if !lenOk n 64 (2 ^ 24) || src % 64 != 0 || dst % 64 != 0 || decide (2 ^ 53 ≤ src) || decide (2 ^ 53 ≤ dst) then
    .trap (Trap.of cOPERAND 13)
  else postChecked s i l d tb true 0 (.cpyg src dst n)

def execCpyg (d a : Reg) (tb : Bool) (p : PBlock) (s : State) : Out :=
  .next (s.runLanes (.cpyg d a tb p) (cpygLane d a tb p))

/-- The reserved bits of a cluster scratchpad address (R161). -/
def scrReserved (a : Nat) : Bool := bitsAt a 19 9 != 0

/-- CPYS (R342). -/
def cpysLane (d a : Reg) (tb : Bool) (p : PBlock) (s : State) (i : Issue) (l : Lane) : LaneOut :=
  let th := s.laneThread i l
  let src := paramAt p th 0
  let dst := paramAt p th 1
  let n := (th.reg a.toNat).toNat
  if !lenOk n 16 (384 * 1024) || src % 16 != 0 || dst % 16 != 0 || paramAt p th 2 != 0 || paramAt p th 3 != 0
      || scrReserved src || scrReserved dst then .trap (Trap.of cOPERAND 13)
  else match s.clusterAddr i.block src n, s.clusterAddr i.block dst n with
    | .error t, _ => .trap t
    | _, .error t => .trap t
    | .ok _, .ok _ => postChecked s i l d tb false 0 (.cpys src dst n)

def execCpys (d a : Reg) (tb : Bool) (p : PBlock) (s : State) : Out :=
  .next (s.runLanes (.cpys d a tb p) (cpysLane d a tb p))

/-- CPYR (R342). -/
def cpyrLane (d a : Reg) (ss tb : Bool) (p : PBlock) (s : State) (i : Issue) (l : Lane) : LaneOut :=
  let th := s.laneThread i l
  let src := if ss then paramAt p th 0 else paramAt p th 0 + paramAt p th 1 * 2 ^ 32
  let dst := paramAt p th 2
  let n := (th.reg a.toNat).toNat
  let bad := !lenOk n 4 (256 * 1024) || src % 4 != 0 || dst % 4 != 0 || paramAt p th 3 != 0 || decide (2 ^ 29 ≤ dst)
    || (if ss then paramAt p th 1 != 0 || scrReserved src else decide (2 ^ 53 ≤ src))
  if bad then .trap (Trap.of cOPERAND 13)
  else
    let range := if ss then (s.clusterAddr i.block src n).map (fun _ => ()) else .ok ()
    match range with
    | .error t => .trap t
    | .ok _ => postChecked s i l d tb false 0 (.cpyr ss src dst n)

def execCpyr (d a : Reg) (ss tb : Bool) (p : PBlock) (s : State) : Out :=
  .next (s.runLanes (.cpyr d a ss tb p) (cpyrLane d a ss tb p))

/-! ## Near-bank matrix-vector (R354) -/

/-- The vector's format for a weight format (R354). -/
def vectorFmt (w : Fmt) : Option Fmt :=
  match w with
  | .fp16 => some .fp16 | .bf16 => some .bf16 | .d8 => some .d8 | .fp4x => some .bf16 | .int4g => some .bf16 | _ => none

/-- NBGEMV (R354). A rule of alignment or size that a parameter breaks is taken as a malformed block (log 19). -/
def nbgemvLane (d a : Reg) (tb : Bool) (p : PBlock) (s : State) (i : Issue) (l : Lane) : LaneOut :=
  let th := s.laneThread i l
  let wq := paramAt p th 0 + paramAt p th 1 * 2 ^ 32
  let k := bitsAt (paramAt p th 2) 0 16
  let n := bitsAt (paramAt p th 2) 16 16
  let wpitch := paramAt p th 3
  let q := th.groupNat a.toNat 4
  let voff := bitsAt q 0 19
  let xv := bitsAt q 28 4
  let yoff := bitsAt q 32 19
  let wf := bitsAt q 60 4
  let sbase := bitsAt q 64 64
  match (fmtOfNat wf).bind fun f => (vectorFmt f).map fun v => (f, v) with
  | none => .trap (Trap.of cOPERAND 18)
  | some (f, v) =>
    let bad :=
      bitsAt wq 53 11 != 0 || bitsAt q 19 9 != 0 || bitsAt q 51 9 != 0
      || (sbase == 0) == isGrouped f || (xv != 0 && f != .fp4x)
      || wq % 64 != 0 || wpitch % 64 != 0 || decide (wpitch < divUp ((k + 1) * f.bits) 512 * 64)
      || voff % 16 != 0 || yoff % 16 != 0 || sbase % 4 != 0
    if bad then .trap (Trap.of cOPERAND 18)
    else
      let size := s.scratchSize i.block
      if size < voff + divUp ((k + 1) * v.bits) 8 then .trap { Trap.of cSCRATCH 1 with addr := voff }
      else if size < yoff + 4 * (n + 1) then .trap { Trap.of cSCRATCH 1 with addr := yoff }
      else
        let x := match s.block? i.block with | some b => (Sparse.get 0 b.xval xv).toNat | none => 0
        postChecked s i l d tb false 2 (.nbgemv wq k n wpitch voff yoff x f sbase)

def execNbgemv (d a : Reg) (tb : Bool) (p : PBlock) (s : State) : Out :=
  .next (s.runLanes (.nbgemv d a tb p) (nbgemvLane d a tb p))

/-! ## MMA (R349, R350, R158, R159) -/

/-- The scale arrays that a format pair takes, for A and for B; none where the pair is not in the table (R350). -/
def mmaPair (a b : Fmt) : Option (Bool × Bool) :=
  match a, b with
  | .bf16, .bf16 | .fp16, .fp16 | .d8, .d8 | .int8, .int8 | .fp32, .fp32 | .fp64, .fp64 => some (false, false)
  | .bf16, .int4g => some (false, true)
  | .fp4x, .fp4x => some (true, true)
  | _, _ => none

/-- The parameter block of MMA, none where it is malformed; the XVAL field is still a register's number (R349, R350). -/
def mmaParse (w0 w1 w2 w3 : Nat) : Option MmaParams :=
  match fmtOfNat (bitsAt w2 16 4), fmtOfNat (bitsAt w2 20 4) with
  | some af, some bf =>
    match mmaPair af bf with
    | none => none
    | some (sa, sb) =>
      let geom := bitsAt w2 28 2
      let bad :=
        bitAt w0 15 || bitAt w0 31 || bitsAt w1 19 13 != 0 || bitAt w2 7 || bitAt w2 15 || bitsAt w2 30 2 != 0
        || bitAt w3 15 || bitAt w3 31
        || bitsAt w1 0 16 == 0
        || (bf == .fp64 && bitsAt w1 16 2 % 2 == 1)
        || (!sa && bitsAt w3 0 15 != 0) || (!sb && bitsAt w3 16 15 != 0)
        || (!sb && geom != 0) || (sb && geom == 0)
        || (bf != .fp4x && bitsAt w2 24 4 != 0)
      if bad then none
      else some {
        aoff := 16 * bitsAt w0 0 15, boff := 16 * bitsAt w0 16 15, k := bitsAt w1 0 16, tile := bitsAt w1 16 2
        acc := bitAt w1 18, m := bitsAt w2 0 7 + 1, n := bitsAt w2 8 7 + 1, afmt := af, bfmt := bf
        xval := bitsAt w2 24 4, geom := geom, saoff := 16 * bitsAt w3 0 15, sboff := 16 * bitsAt w3 16 15 }
  | _, _ => none

/-- The scale words of a row or column. -/
def MmaParams.groups (p : MmaParams) : Nat := divUp p.k (groupOf p.geom)

/-- The end of the operand bytes that an MMA touches (R336). -/
def MmaParams.reach (p : MmaParams) : Nat :=
  let a := p.aoff + (p.m - 1) * mmaPitch p.k p.afmt + mmaRow p.k p.afmt
  let b := p.boff + (p.n - 1) * mmaPitch p.k p.bfmt + mmaRow p.k p.bfmt
  let sa := if p.afmt == .fp4x then p.saoff + 4 * p.m * p.groups else 0
  let sb := if isGrouped p.bfmt then p.sboff + 4 * p.n * p.groups else 0
  max (max a b) (max sa sb)

/-- The tiles that an MMA names, by number (R158, R350). -/
def MmaParams.tiles (p : MmaParams) (core : Nat) : List Nat :=
  if p.bfmt == .fp64 then [4 * core + p.tile, 4 * core + p.tile + 1] else [4 * core + p.tile]

/-- The tiles taken for a tenant; none where another tenant holds one (R158). -/
def State.takeTiles (s : State) (t : Nat) (ts : List Nat) : Option State :=
  if ts.any (fun i => match (s.tile i).owner with | none => false | some o => o != t) then none
  else some (ts.foldl (fun s i => s.updTile i fun x => { x with owner := some t }) s)

/-- The tiles that instructions of a block have named, for its image (R229). -/
def State.nameTiles (s : State) (b : Nat) (ts : List Nat) : State :=
  s.updBlock b fun k => { k with tiles := dedup (k.tiles ++ ts.map (· % 4)) }

/-- The wheel of a core (R158). -/
def wheelOf (core : Nat) : Nat := core / 4

/-- MMA on one lane: the tests of R336, the wait for a free entry, the entry (R159). -/
def mmaLane (p : PBlock) (s : State) (i : Issue) (l : Lane) : LaneOut :=
  let th := s.laneThread i l
  match mmaParse (paramAt p th 0) (paramAt p th 1) (paramAt p th 2) (paramAt p th 3) with
  | none => .trap (Trap.of cOPERAND 14)
  | some mp =>
    if s.scratchSize i.block < mp.reach then .trap (Trap.of cSCRATCH 1)
    else match s.block? i.block, s.gridOf i.block with
      | some k, some g =>
        match s.takeTiles k.tenant (mp.tiles k.core) with
        | none => .trap (Trap.of cPROT 6)
        | some s' =>
          if 32 ≤ (s.wheel (wheelOf k.core)).length then .wait s .matrix
          else
            let s := s'.nameTiles i.block (mp.tiles k.core)
            let (n, s) := s.tlPosted i.block 1
            let (id, s) := s.fresh
            let mp := { mp with xval := (Sparse.get 0 k.xval mp.xval).toNat }
            .done (s.updWheel (wheelOf k.core) fun es => es ++
              [⟨id, i.block, l.tid, i.at, k.core, g.prio, mp, n, id, 0, s.dieTime (k.core / 64), false, false, 0, []⟩])
      | _, _ => .done s

def execMma (p : PBlock) (s : State) : Out := .next (s.runLanes (.mma p) (mmaLane p))

/-! ## Accumulators (R353) -/

/-- The word of an element's low half across a tile or pair (R163): tile and word. -/
def accWord (tile e : Nat) (wide : Bool) (j : Nat) : Nat × Nat :=
  let w := (if wide then 2 * e else e) + j
  (tile + w / 16384, w % 16384)

/-- An accumulator access performed for a thread. -/
def State.accDo (s : State) (b tid : Nat) (op : AccOp) : State :=
  match op with
  | .rd d tile e n wide =>
    let words := n * (if wide then 2 else 1)
    let ws := (List.range words).map fun j =>
      let (t, w) := accWord tile e wide j
      Sparse.get 0 (s.tile t).elems w
    s.updThread b tid fun th => th.setGroup d.toNat ws
  | .wr d tile e n wide =>
    let words := n * (if wide then 2 else 1)
    let ws := (s.thread b tid).group d.toNat words
    ws.zipIdx.foldl (fun s x =>
      let (t, w) := accWord tile e wide x.2
      s.updTile t fun y => { y with elems := Sparse.set 0 y.elems w x.1 }) s
  | .zero tile pair =>
    let s := s.updTile tile fun y => { y with elems := [] }
    if pair then s.updTile (tile + 1) fun y => { y with elems := [] } else s

/-- The entries of a core that name one of these tiles. -/
def State.entriesOn (s : State) (core : Nat) (ts : List Nat) : List Nat :=
  ((s.wheel (wheelOf core)).filter fun e => (e.params.tiles e.core).any fun t => ts.contains t).map (·.id)

/-- An accumulator instruction: its index test, the tile's owner, and the wait for earlier entries. -/
def accLane (s : State) (i : Issue) (l : Lane) (bad named : Bool) (m : BitVec 2) (pair : Bool) (op : Nat → AccOp) : LaneOut :=
  match s.block? i.block with
  | none => .done s
  | some k =>
    if bad then .trap (Trap.of cOPERAND 17)
    else
      let t := 4 * k.core + m.toNat
      let ts := if pair then [t, t + 1] else [t]
      match s.takeTiles k.tenant ts with
      | none => .trap (Trap.of cPROT 6)
      | some s =>
        let s := if named then s.nameTiles i.block ts else s
        let ids := s.entriesOn k.core ts
        if ids.isEmpty then .done (s.accDo i.block l.tid (op t)) else .wait s (.acc ids (op t))

/-- The index test of ACCRD and ACCWR, and the element count. -/
def accCount (w : Width) (wide : Bool) : Nat := if wide then 2 ^ (w.toNat - 1) else 2 ^ w.toNat
def accBad (w : Width) (fmt : Fmt) (m : BitVec 2) (e : Nat) : Bool :=
  (fmt != .bytes && fmt != .fp64) || (fmt == .fp64 && m.toNat % 2 == 1) || decide (16384 < e + accCount w (fmt == .fp64))

def execAccrd (w : Width) (d a : Reg) (m : BitVec 2) (fmt : Fmt) (s : State) : Out :=
  .next (s.runLanes (.accrd w d a m fmt) fun s i l =>
    let e := ((s.laneThread i l).reg a.toNat).toNat
    accLane s i l (accBad w fmt m e) false m (fmt == .fp64)
      fun t => .rd d t e (accCount w (fmt == .fp64)) (fmt == .fp64))

def execAccwr (w : Width) (d a : Reg) (m : BitVec 2) (fmt : Fmt) (s : State) : Out :=
  .next (s.runLanes (.accwr w d a m fmt) fun s i l =>
    let e := ((s.laneThread i l).reg a.toNat).toNat
    accLane s i l (accBad w fmt m e) true m (fmt == .fp64)
      fun t => .wr d t e (accCount w (fmt == .fp64)) (fmt == .fp64))

def execAccz (m : BitVec 2) (pair : Bool) (s : State) : Out :=
  .next (s.runLanes (.accz m pair) fun s i l =>
    accLane s i l (pair && m.toNat % 2 == 1) true m pair fun t => .zero t pair)

end Sys2Proof.Machine
end

