-- ==== Sys2Proof/Machine/EngRun.lean ====
section
/-! DEFINITION. Engine operations as they run: copies, near-bank sums, matrix passes, their completion and their
abandonment (R158, R159, R339-R343, R351, R355). -/

namespace Sys2Proof.Machine

/-- An address range cut at the 64-byte sectors: the start, the length and the offset of each piece. -/
def sectorPieces (va n : Nat) : List (Nat × Nat × Nat) :=
  let first := va / 64
  let last := (va + n - 1) / 64
  if n = 0 then []
  else (List.range (last - first + 1)).map fun i =>
    let lo := max va ((first + i) * 64)
    let hi := min (va + n) ((first + i + 1) * 64)
    (lo, hi - lo, lo - va)

/-- The site at which an engine translates: the core of the thread that posted the operation (R66). -/
def State.engineSite (s : State) (op : EngOp) : Nat := match s.block? op.block with | some k => k.core | none => ownSite

/-- An engine operation under way: the machine, the failure that abandons it, whether a lost unit or answer spoiled
it, whether it must wait for a Millpond slot, and the bytes for other devices. -/
structure Run where
  s : State
  fail : Option Trap
  lost : Option Nat
  stall : Bool
  out : List (Nat × Nat × List Byte)
  deriving DecidableEq, Repr

/-- A run goes on while nothing has failed. -/
def Run.live (r : Run) : Bool := r.fail.isNone && !r.stall

/-- A run that a failing check ends, at an address. -/
def Run.failAt (r : Run) (e : Err) (addr : Nat) : Run := { r with fail := some { Trap.of e.1 e.2 with access := 4, addr := addr } }

/-- What a read has brought: each byte, none for one of a message that was lost (R44). -/
abbrev Brought := List (Option Byte)

/-- Whether a read lacks some of its bytes. -/
def Brought.holes (bs : Brought) : Bool := bs.any (·.isNone)

/-- The bytes of a read that lacks none. -/
def Brought.bytes (bs : Brought) : List Byte := bs.map (·.getD 0)

/-- The elements of a list that are there, in runs, each with the place where it begins. -/
def runsOf {α : Type} : Nat → List (Option α) → List (Nat × List α)
  | _, [] => []
  | n, none :: l => runsOf (n + 1) l
  | n, some a :: l => match runsOf (n + 1) l with
    | (m, as) :: rest => if m = n + 1 then (n, a :: as) :: rest else (n, [a]) :: (m, as) :: rest
    | [] => [(n, [a])]

/-- The bytes that an operation has received for an address of another device, with the attributes of the page. -/
def EngOp.received (op : EngOp) (va : Nat) : Option (Leaf × List Byte) := (op.got.find? fun e => e.1 == va).map (·.2)

/-- The stores and reductions of the turn before an operation was posted: those that it must see (R87, R179). -/
def Grid.before (g : Grid) (seq : Nat) : Grid := { g with effects := g.effects.filter fun e => decide (e.seq < seq) }

/-- What an operation reads of a page of this device or its host (R105, R136, R341): at DL1 and above under the effects of
its own core that precede its posting. -/
def State.engineRead (s : State) (op : EngOp) (t va : Nat) (h : HomeAt) (n : Nat) : State × List Byte :=
  match s.block? op.block, s.gridOf op.block with
  | some k, some g =>
    let held := if op.vtag = 0 then [] else k.heldStores
    if g.dl == 0 then
      let s := if op.vtag = 0 then s.flushAt h n else s
      (s, overlayStores (s.readIn t op.vtag va h n) va held)
    else (s, overlayStores (s.turnRead (g.before op.seq) t k.core op.vtag va h n) va held)
  | _, _ => (s, s.readIn t op.vtag va h n)

/-- An access by an operation, as one of its posting thread (R91): the race that it makes abandons it. -/
def Run.note (r : Run) (op : EngOp) (va : Nat) (store : Bool) : Run :=
  if op.vtag != 0 then r
  else match r.s.noteAccessAt op.block op.tid op.pc (va / 64) store (some op.seq) with
    | .ok s => { r with s := s }
    | .error t => { r with fail := some { t with access := 4 } }

/-- The same of an access to a cluster's scratchpads (R91, R186). -/
def Run.noteScr (r : Run) (op : EngOp) (addr n : Nat) (store : Bool) : Run :=
  match r.s.clusterAddr op.block addr n with
  | .error _ => r
  | .ok (o, off) => match r.s.noteMember op.block op.tid op.pc o off n store (some op.seq) with
    | .ok s => { r with s := s }
    | .error t => { r with fail := some { t with access := 4 } }

/-- Global bytes read at the home as .fresh loads, piece by piece (R341). `page` is the entry's test of each page; that of
a page on another device is made with the attributes that came with its bytes. Nothing comes from a lost unit (R27). -/
def Run.read (r : Run) (op : EngOp) (t va n : Nat) (page : Leaf → Option Err) : Run × Brought :=
  (sectorPieces va n).foldl (fun (acc : Run × Brought) p =>
    let (r, bs) := acc
    if !r.live then (r, bs)
    else match r.s.xlate (r.s.engineSite op) t p.1 .rd with
      | .error e => (r.failAt e p.1, bs)
      | .ok x =>
        let far := match x.home with | .remote d a => op.received (d * 2 ^ 43 + a) | _ => none
        match page ((far.map (·.1)).getD x.leaf) with
        | some e => (r.failAt e p.1, bs)
        | none =>
          let r := r.note op p.1 false
          if !r.live then (r, bs)
          else match x.home with
            | .remote _ _ =>
              let got := match far with | some e => e.2.map some | none => []
              (r, bs ++ (got ++ List.replicate p.2.1 none).take p.2.1)
            | h =>
              match r.s.lostHome h p.2.1 with
              | some c => ({ r with lost := some c }, bs ++ List.replicate p.2.1 none)
              | none =>
                let (s, got) := r.s.engineRead op t p.1 h p.2.1
                ({ r with s := s }, bs ++ got.map some)) (r, [])

/-- Whether the grid of an operation runs in turns. -/
def State.engineTurns (s : State) (op : EngOp) : Bool := match s.gridOf op.block with | some g => g.dl != 0 | none => false

/-- An effect of an operation, in the place of its posting (R87). -/
def State.engineEffect (s : State) (op : EngOp) (kind : EffKind) : State :=
  match s.block? op.block with
  | none => s
  | some k => s.updGrid k.grid fun g =>
      { g with effects := g.effects ++ [⟨k.core, k.path, op.block, op.tid, op.seq, op.pc, kind⟩] }

/-- The thread and the instruction that posted an operation. -/
def EngOp.site (op : EngOp) : Site := ⟨op.block, op.tid, op.pc⟩

/-- A line that an operation writes in the root view, for the signature of its completion (R179). -/
def State.engineWrote (s : State) (op : EngOp) (t va : Nat) : State :=
  match s.block? op.block with
  | some k => if op.vtag = 0 then s.noteWritten k.core t va else s
  | none => s

/-- Bytes that an operation writes on this device or its host: at once at DL0, at the boundary above (R87, R190). -/
def Run.store (r : Run) (op : EngOp) (t va : Nat) (h : HomeAt) (bs : List Byte) : Run :=
  if r.s.engineTurns op then { r with s := r.s.engineEffect op (.late (.store op.vtag va h bs)) }
  else if op.vtag = 0 then
    { r with s := ((r.s.dropProxy t va bs.length).storeHome (some op.site) t va h bs).engineWrote op t va }
  else { r with s := r.s.writeSlot t op.vtag va bs }

/-- Global bytes written at the home, or in the view (R341, R101). -/
def Run.write (r : Run) (op : EngOp) (t va : Nat) (data : List Byte) (page : Leaf → Option Err) : Run :=
  (sectorPieces va data.length).foldl (fun (r : Run) p =>
    if !r.live then r
    else
      let bs := (data.drop p.2.2).take p.2.1
      match r.s.xlate (r.s.engineSite op) t p.1 .wr with
      | .error e => r.failAt e p.1
      | .ok x =>
        if x.leaf.kind != .remote && (page x.leaf).isSome then r.failAt ((page x.leaf).getD (0, 0)) p.1
        else if op.vtag != 0 && (x.leaf.kind == .host || !x.leaf.view) then r.failAt (cPROT, 7) p.1
        else
          let r := r.note op p.1 true
          if !r.live then r
          else match x.home with
            | .remote d a => { r with out := r.out ++ [(d, a, bs)], s := r.s.engineWrote op t p.1 }
            | h =>
              match r.s.lostHome h p.2.1 with
              | some c => { r with lost := some c }
              | none =>
                match r.s.capture t op.vtag p.1 x with
                | none => { r with stall := true }
                | some s => ({ r with s := s } : Run).store op t p.1 h bs) r

/-- Scratchpad bytes of a cluster address, already checked. -/
def Run.scrRead (r : Run) (op : EngOp) (addr n : Nat) : Run × List Byte :=
  (r.noteScr op addr n false, match r.s.clusterAddr op.block addr n with
    | .ok (o, off) => r.s.readMember op.block o off n
    | .error _ => List.replicate n 0)

/-- Scratchpad bytes that an operation writes: at once at DL0, at the boundary above. -/
def Run.scrWrite (r : Run) (op : EngOp) (addr : Nat) (bs : List Byte) : Run :=
  let r := if r.live then r.noteScr op addr bs.length true else r
  if !r.live then r
  else match r.s.clusterAddr op.block addr bs.length with
    | .ok (o, off) =>
      { r with s := if r.s.engineTurns op then r.s.engineEffect op (.late (.scratch o off bs)) else r.s.writeScratch o off bs }
    | .error _ => r

/-! ## CPY (R341) -/

/-- The page test of a box (R341). -/
def boxPage (fmt : Fmt) (l : Leaf) : Option Err :=
  if l.fmt == .bytes || l.fmt == fmt then none else some (cOPERAND, 10)

/-- One row of a load: its bytes in the scratchpad, the padding zero (R341). -/
def boxRow (edge cols rows e : Nat) (col0 gr : Int) (boxc rb first : Nat) (seg : Nat) : List Byte :=
  let inRow := decide (0 ≤ gr ∧ gr ≤ (rows : Int))
  let mask := 2 ^ e - 1
  let el := fun (c : Nat) =>
    let gc : Int := col0 + c
    if inRow && decide (0 ≤ gc ∧ gc ≤ (cols : Int)) then bitsAt seg ((gc.toNat - first) * e) e
    else if edge = 1 then bitsAt seg (((satInt gc 0 cols).toNat - first) * e) e
    else if edge = 0 then 0 else mask
  natToBytes rb ((List.range boxc).foldl (fun a c => a + el c * 2 ^ (c * e)) 0)

/-- One box row; where some of what it needs was lost, the row that it has in the scratchpad stays (R44). -/
def Run.boxStep (r : Run) (op : EngOp) (t : Nat) (st : Bool) (gbase : Nat) (fmt : Fmt) (edge cols rows gpitch : Nat)
    (col0 row0 : Int) (boxc saddr j : Nat) : Run :=
  if !r.live then r
  else
    let e := fmt.bits
    let rb := rowBytes boxc e
    let gr : Int := row0 + j
    let sa := saddr + j * rb
    if st then
      let last := col0 + boxc - 1
      if decide (0 ≤ gr ∧ gr ≤ (rows : Int)) && decide (col0 ≤ (cols : Int) ∧ 0 ≤ last) then
        let lo := (satInt col0 0 cols).toNat
        let hi := (satInt last 0 cols).toNat
        let off := ((lo : Int) - col0).toNat * e / 8
        let (r, row) := r.scrRead op sa rb
        if r.live then
          r.write op t (gbase + gr.toNat * gpitch + lo * e / 8) ((row.drop off).take ((hi - lo + 1) * e / 8)) (boxPage fmt)
        else r
      else r
    else
      let (r, bs, first) : Run × Brought × Nat := match boxSegment edge cols rows col0 gr boxc with
        | none => (r, [], 0)
        | some (cr, lo, hi) =>
          let (va, n, first) := segmentBytes gbase gpitch e cr lo hi
          let (r, bs) := r.read op t va n (boxPage fmt)
          (r, bs, first)
      if !r.live || bs.holes then r
      else r.scrWrite op sa (boxRow edge cols rows e col0 gr boxc rb first (bytesToNat bs.bytes))

/-! ## The linear copies (R342) -/

/-- Words of bytes, low byte first. -/
def bytesToWords : List Byte → List Word
  | a :: b :: c :: d :: l => BitVec.ofNat 32 (bytesToNat [a, b, c, d]) :: bytesToWords l
  | _ => []

/-- The words of what a read has brought. -/
def Brought.words : Brought → List (Option Word)
  | a :: b :: c :: d :: l =>
    (match a, b, c, d with
      | some a, some b, some c, some d => some (BitVec.ofNat 32 (bytesToNat [a, b, c, d]))
      | _, _, _, _ => none) :: Brought.words l
  | _ => []

/-- The allocation some bytes further on. -/
def OcmAt.add (x : OcmAt) (n : Nat) : OcmAt :=
  match x with
  | .reg b off => .reg b (off + n)
  | .scratch b off => .scratch b (off + n)
  | .tile t off => .tile t (off + n)

/-- A CPYR's words written through the on-chip map, within one allocation (R342, R164); what was lost is not written (R44). -/
def Run.toOcm (r : Run) (op : EngOp) (t dst n : Nat) (bs : Brought) : Run :=
  if !r.live then r
  else match r.s.ocmFind t dst n with
    | none => r.failAt (cPROT, 6) dst
    | some x => { r with s := (runsOf 0 bs.words).foldl (fun s e =>
        if s.engineTurns op then s.engineEffect op (.late (.ocm (dst + 4 * e.1) e.2)) else s.ocmWrite (x.add (4 * e.1)) e.2) r.s }

/-- What a copy does; the destination of what was lost keeps its content (R44). -/
def Run.copy (r : Run) (op : EngOp) (t : Nat) : Run :=
  match op.kind with
  | .cpy st gbase fmt edge cols rows gpitch col0 row0 boxc boxr saddr =>
    (List.range boxr).foldl (fun r j => r.boxStep op t st gbase fmt edge cols rows gpitch col0 row0 boxc saddr j) r
  | .cpyg src dst n =>
    (List.range (n / 64)).foldl (fun r j =>
      let (r, bs) := r.read op t (src + 64 * j) 64 (fun _ => none)
      if r.live && !bs.holes then r.write op t (dst + 64 * j) bs.bytes (fun _ => none) else r) r
  | .cpys src dst n =>
    let (r, bs) := r.scrRead op src n
    r.scrWrite op dst bs
  | .cpyr ss src dst n =>
    if ss then
      let (r, bs) := r.scrRead op src n
      r.toOcm op t dst n (bs.map some)
    else
      let (r, bs) := r.read op t src n (fun _ => none)
      r.toOcm op t dst n bs
  | .nbgemv .. => r

/-- The pieces that lie on other devices and have not come in: device, address there, length. -/
def State.copyNeeds (s : State) (op : EngOp) (t : Nat) : List (Nat × Nat × Nat) :=
  (s.kindReads (s.engineSite op) t op.kind).flatMap fun r => (sectorPieces r.1 r.2).filterMap fun p =>
    match s.xlate (s.engineSite op) t p.1 .rd with
    | .ok x => match x.home with
      | .remote d a => if op.got.any (fun e => e.1 == d * 2 ^ 43 + a) then none else some (d, a, p.2.1)
      | _ => none
    | .error _ => none

/-! ## NBGEMV (R354, R355) -/

/-- The page test of a weight (R354). -/
def weightPage (f : Fmt) (l : Leaf) : Option Err :=
  if l.kind != .local then some (cPROT, 9)
  else if l.fmt == f || (l.fmt == .bytes && (f == .fp16 || f == .bf16 || f == .d8)) then none
  else some (cOPERAND, 10)

/-- One column: y[n] and its flags; none where some of its bytes were lost. -/
def Run.column (r : Run) (op : EngOp) (t : Nat) (v : List MEl) (wbase k n wpitch xv : Nat) (f : Fmt) (sbase : Nat) :
    Run × Option (Nat × Flags) :=
  let va := wbase + n * wpitch
  let (r, row) := r.read op t va (divUp ((k + 1) * f.bits) 8) (weightPage f)
  if !r.live then (r, none)
  else
    let g := match r.s.xlate (r.s.engineSite op) t va .rd with | .ok x => groupOf x.leaf.geom | .error _ => 1
    let groups := divUp (k + 1) g
    let (r, sc) := if isGrouped f then r.read op t (sbase + 4 * (n * groups)) (4 * groups) (fun _ => none) else (r, [])
    if !r.live || row.holes || sc.holes then (r, none)
    else
      let scales := (bytesToWords sc.bytes).map (·.toNat)
      match rowElems f row.bytes scales g xv 0 (k + 1) with
      | none => (r.failAt (cOPERAND, 9) sbase, none)
      | some (es, fl) =>
        let (y, fl') := nearBankDot (chunkOf f) (v.zip es)
        (r, some (y, fl ||| fl'))

/-- NBGEMV: every column's result written to y, and the flags. -/
def Run.nbgemv (r : Run) (op : EngOp) (t : Nat) : Run × Flags :=
  match op.kind with
  | .nbgemv wbase k n wpitch voff yoff xv f sbase =>
    let vf := (vectorFmt f).getD .bf16
    let vrow := r.s.readScratch op.block voff (divUp ((k + 1) * vf.bits) 8)
    let v := (List.range (k + 1)).map fun j => mElem vf (rowElem vrow vf.bits j)
    (List.range (n + 1)).foldl (fun (acc : Run × Flags) j =>
      let (r, fl) := acc
      if !r.live then (r, fl)
      else
        let (r, y) := r.column op t v wbase k j wpitch xv f sbase
        match y with
        | none => (r, fl)
        | some y =>
          let bs := natToBytes 4 y.1
          let s := if r.s.engineTurns op then r.s.engineEffect op (.late (.scratch op.block (yoff + 4 * j) bs))
            else r.s.writeScratch op.block (yoff + 4 * j) bs
          ({ r with s := s }, fl ||| y.2)) (r, 0)
  | _ => (r, 0)

/-! ## Completion and abandonment (R338, R339, R343) -/

/-- The bytes that an operation counts in sectors (R343). -/
def EngOp.bytes (op : EngOp) : Nat :=
  match op.kind with
  | .cpy _ _ fmt _ _ _ _ _ _ boxc boxr _ => boxr * rowBytes boxc fmt.bits
  | .cpyg _ _ n | .cpys _ _ n | .cpyr _ _ _ n => n
  | .nbgemv _ _ n _ _ _ _ _ _ => 4 * (n + 1)

def State.engine? (s : State) (id : Nat) : Option EngOp := s.engines.find? fun e => e.id == id

def State.updEngine (s : State) (id : Nat) (f : EngOp → EngOp) : State :=
  { s with engines := s.engines.map fun e => if e.id == id then f e else e }

def State.dropEngine (s : State) (id : Nat) : State := { s with engines := s.engines.filter fun e => e.id != id }

/-- A record of an engine, naming the posting lane and instruction, with ACCESS 4 (R339). -/
def State.engineTrap (s : State) (b tid : Nat) (pc : Dword) (t : Trap) : State :=
  s.postEvent (s.tenantOf b) (s.trapRecord b tid pc { t with access := 4 })

def State.engineRecord (s : State) (b tid : Nat) (pc : Dword) (e : Err) (addr : Nat) : State :=
  s.engineTrap b tid pc { Trap.of e.1 e.2 with addr := addr }

/-- An operation completes: its sectors come off its barrier in one step, with the error bit where an answer was lost,
and its timeline advances; at DL1 and above at the boundary (R87, R338, R343). -/
def State.finishEngine (s : State) (op : EngOp) : State :=
  let s := s.dropEngine op.id
  let n := 2 ^ 32 - divUp op.bytes 64 % 2 ^ 32
  let s := match op.tb with
    | none => s
    | some x =>
      if s.engineTurns op then s.engineEffect op (.tbSectors (x / 2 ^ 20) (x % 2 ^ 20) n op.err)
      else s.tbOp (x / 2 ^ 20) (x % 2 ^ 20) (s.knownOf op.block) (tbSectors n op.err)
  s.tlComplete op.block op.tlk op.tlNum

/-- An operation that a failing check abandons: what it wrote stays, it counts as retired, and a record that does not
suspend is posted (R339). -/
def State.abandonEngine (s : State) (op : EngOp) (t : Trap) : State := (s.dropEngine op.id).engineTrap op.block op.tid op.pc t

def Run.start (s : State) : Run := ⟨s, none, none, false, []⟩

/-- A lost unit met by an operation: the INTEG record of R44. -/
def State.noteLost (s : State) (op : EngOp) (c : Option Nat) : State :=
  match c with
  | none => s
  | some c => s.engineRecord op.block op.tid op.pc (cINTEG, c) 0

/-- A request of an operation, whose answer it waits for; one that no route carries ends with the error bit (R44). -/
def State.engineAsk (s : State) (op : EngOp) (t ty d scope a : Nat) (opw : Dword) (data : List Flit) : State × Bool :=
  let (s, sent) := s.request t ty d scope a opw (s.chainInl op.vtag) data (.copy op.id)
  (s.updEngine op.id fun e => if sent then { e with waits := e.waits + 1 } else { e with err := true }, sent)

/-- The remote reads of an operation requested (R38). What cannot be asked is lost (R44). -/
def State.requestReads (s : State) (op : EngOp) (t : Nat) (needs : List (Nat × Nat × Nat)) : State :=
  needs.foldl (fun s x =>
    let (s, sent) := s.engineAsk op t 0x01 x.1 0 x.2.1 (BitVec.ofNat 64 (x.2.2 * 2 ^ 16)) []
    if sent then s
    else
      let va := x.1 * 2 ^ 43 + x.2.1
      s.updEngine op.id fun e => { e with got := e.got ++ [(va, remoteLeaf va, [])] }) s

/-- The format that the pages of an operation's destination must have, as CPW carries it: 16 for any (R341; log 8). -/
def EngOp.fmtCode (op : EngOp) : Nat := match op.kind with | .cpy _ _ f .. => f.code.toNat | _ => 16

/-- The remote writes of a copy sent as CPW (R342). -/
def State.sendWrites (s : State) (op : EngOp) (t : Nat) (out : List (Nat × Nat × List Byte)) : State :=
  out.foldl (fun s x =>
    let s := if op.vtag = 0 then s.dropProxy t (x.1 * 2 ^ 43 + x.2.1) x.2.2.length else s.markFar op.vtag x.1
    (s.engineAsk op t 0x0A x.1 0 x.2.1 (BitVec.ofNat 64 (op.fmtCode + x.2.2.length * 2 ^ 16)) (flitsOf x.2.2)).1) s

/-- An operation run whole: a copy, or NBGEMV with its flags. -/
def State.runEngine (s : State) (op : EngOp) : Run × Flags :=
  match op.kind with
  | .nbgemv .. => (Run.start s).nbgemv op (s.tenantOf op.block)
  | _ => ((Run.start s).copy op (s.tenantOf op.block), 0)

/-- Flags of an operation reach its thread (R194): at DL1 and above at the boundary. -/
def State.engineFlags (s : State) (op : EngOp) (fl : Flags) : State :=
  if fl == 0 then s
  else if s.engineTurns op then s.engineEffect op (.flags fl)
  else s.raiseLive [(op.block, op.tid)] fl

/-- The release of an operation's completion, once what it wrote is at its homes: the signature of the core's lines goes to
the cores and devices of its scope; at DL1 and above it is an effect of the turn (R39, R173, R179). -/
def State.engineRelease (s : State) (op : EngOp) : State :=
  match s.block? op.block with
  | none => s.updEngine op.id fun e => { e with signed := some [] }
  | some k =>
    let s := if op.vtag != 0 || decide (op.scope < 2) then s
      else if s.engineTurns op then s.engineEffect op (.late (.release op.scope))
      else if op.scope < 4 then s.signNear k.core k.cluster op.scope
      else s.signCores [k.core] k.tenant
    let tags := if s.engineTurns op || decide (op.scope < 4) then [] else s.signTags k.tenant
    s.updEngine op.id fun e => { e with signed := some tags }

/-- COPY_COMPLETE and NBGEMV_COMPLETE: the bytes that lie on other devices are fetched, then the operation is performed,
then its writes to other devices are acknowledged, then its release is made and acknowledged, at system scope by Noern-H too,
then it completes. One that a check abandons, or that waits for answers, is left. -/
def State.engineStep (s : State) (op : EngOp) : State :=
  if op.waits != 0 then s
  else if op.written then
    match op.signed with
    | none => s.engineRelease op
    | some tags =>
      if s.tagsOpen tags || (decide (5 ≤ op.scope) && s.hostOpen (s.tenantOf op.block)) then s else s.finishEngine op
  else
    let t := s.tenantOf op.block
    let needs := s.copyNeeds op t
    if !needs.isEmpty then s.requestReads op t needs
    else
      let (r, fl) := s.runEngine op
      if r.fail.isSome then s
      else if r.stall then s.suspendChild op.block
      else
        let op' := { op with written := true, err := op.err || r.lost.isSome }
        (((r.s.noteLost op r.lost).engineFlags op fl).updEngine op.id (fun _ => op')).sendWrites op t r.out

/-- Whether an operation is NBGEMV. -/
def EngOp.isNearBank (op : EngOp) : Bool := match op.kind with | .nbgemv .. => true | _ => false

/-- Whether an operation may start: none does on a die whose clock is gated (R16). -/
def State.engineStarts (s : State) (op : EngOp) : Bool :=
  op.written || !(s.block? op.block).any fun k => s.gatedDie (k.core / 64)

/-- What an operation has left to do is done, as far as nothing keeps it waiting. -/
def State.engineSteps (s : State) (id : Nat) : Nat → State
  | 0 => s
  | fuel + 1 => match s.engine? id with
    | none => s
    | some op =>
      let s' := s.engineStep op
      if s'.engine? id == some op then s' else s'.engineSteps id fuel

/-- An operation performed, and completed where nothing keeps it waiting. -/
def State.engineRun (s : State) (id : Nat) (nearBank : Bool) : State :=
  match s.engine? id with
  | none => s
  | some op => if op.isNearBank != nearBank || !s.engineStarts op then s else s.engineSteps id 3

def execCopyComplete (id : Nat) (s : State) : Out := .next (s.engineRun id false)

/-- NBGEMV_COMPLETE. -/
def execNbgemvComplete (id : Nat) (s : State) : Out := .next (s.engineRun id true)

/-! ## The matrix engine (R159, R351) -/

/-- An entry that an earlier entry on one of its tiles holds back (R159). -/
def matBlocked (es : List MatEntry) (e : MatEntry) : Bool :=
  es.any fun x => decide (x.order < e.order) && (x.params.tiles x.core).any fun t => (e.params.tiles e.core).contains t

/-- Whether an entry has waited 4,096 cycles since its last pass, or since its posting (R159): by the clock, or marked. -/
def State.matAged (s : State) (e : MatEntry) : Bool := e.aged || decide (e.lastPass + 4096 ≤ s.dieTime (e.core / 64))

/-- Whether one entry is granted before another: aged first, longest waiting first; then the higher priority, the
earlier posting, the lower core (R159). -/
def matBefore (a b : MatEntry) : Bool :=
  if a.aged != b.aged then a.aged
  else if a.aged && a.lastPass != b.lastPass then decide (a.lastPass < b.lastPass)
  else if a.prio != b.prio then decide (b.prio.toNat < a.prio.toNat)
  else if a.order != b.order then decide (a.order < b.order)
  else decide (a.core % 4 < b.core % 4)

/-- Whether a block is stopped for saving, so that its entries stop at a pass boundary (R230). -/
def State.savingBlock (s : State) (b : Nat) : Bool :=
  match s.block? b with
  | some k => k.state == .saving || k.state == .saved
  | none => false

/-- The entry that the arbiter grants, with those that have aged before all others (R159). On a die whose clock is gated
no pass starts (R16). -/
def State.matNext (s : State) (w : Nat) : Option MatEntry :=
  let es := (s.wheel w).map fun e => { e with aged := s.matAged e }
  if es.any (·.granted) || s.gatedDie (w / 16) then none
  else (sortBy matBefore (es.filter fun e => !matBlocked es e && !s.savingBlock e.block)).head?

def execMatrixPassGrant (w : Nat) (s : State) : Out :=
  .next (match s.matNext w with
    | none => s
    | some e => s.updWheel w fun es => es.map fun x => if x.id == e.id then { x with granted := true } else x)

/-- MATRIX_ENTRY_AGED: an entry that has waited 4,096 cycles (R159). -/
def execMatrixEntryAged (w id : Nat) (s : State) : Out :=
  .next (s.updWheel w fun es => es.map fun x =>
    if x.id == id && !x.granted && decide (x.lastPass + 4096 ≤ s.dieTime (x.core / 64)) then { x with aged := true } else x)

/-- The accumulators at the first pass (R351). -/
def State.matStart (s : State) (e : MatEntry) : List Nat :=
  let p := e.params
  (List.range (p.m * p.n)).map fun x =>
    if !p.acc then 0
    else
      let idx := x / p.n * 128 + x % p.n
      let wide := p.bfmt == .fp64
      let word := fun j =>
        let (t, w) := accWord (4 * e.core + p.tile) idx wide j
        (Sparse.get 0 (s.tile t).elems w).toNat
      if wide then word 0 + word 1 * 2 ^ 32 else word 0

/-- The rows of an operand as elements of one chunk, with their flags; none where a scale word is rejected. -/
def State.matRows (s : State) (b off count k : Nat) (f : Fmt) (soff g groups xv lo hi : Nat) : Option (List (List MEl) × Flags) :=
  (List.range count).foldl (fun acc i => match acc with
    | none => none
    | some (rows, fl) =>
      let row := s.readScratch b (off + i * mmaPitch k f) (mmaRow k f)
      let scales := if isGrouped f then (bytesToWords (s.readScratch b (soff + 4 * (i * groups)) (4 * groups))).map (·.toNat) else []
      match rowElems f row scales g xv lo hi with
      | none => none
      | some (es, fl') => some (rows ++ [es], fl ||| fl')) (some ([], 0))

/-- One pass: the accumulators after chunk j, and its flags; none where a scale word abandons the operation. -/
def State.matPass (s : State) (e : MatEntry) : Option (List Nat × Flags) :=
  let p := e.params
  let c := chunkOf p.bfmt
  let lo := e.nextPass * c
  let hi := min p.k (lo + c)
  let accs := if e.nextPass = 0 then s.matStart e else e.accs
  if p.bfmt == .int8 then
    let ints := fun (off i : Nat) =>
      ((s.readScratch e.block (off + i * mmaPitch p.k .int8) (mmaRow p.k .int8)).drop lo).take (hi - lo)
        |>.map fun b => sext b.toNat 8
    some (accs.zipIdx.map fun x => intStep x.1 ((ints p.aoff (x.2 / p.n)).zip (ints p.boff (x.2 % p.n))), 0)
  else
    let acc := if p.bfmt == .fp64 then fp64 else fp32
    let g := groupOf p.geom
    match s.matRows e.block p.aoff p.m p.k p.afmt p.saoff g p.groups p.xval lo hi,
          s.matRows e.block p.boff p.n p.k p.bfmt p.sboff g p.groups p.xval lo hi with
    | some (ra, fa), some (rb, fb) =>
      let outs := accs.zipIdx.map fun x =>
        accStep acc x.1 (chunkSum acc ((ra.getD (x.2 / p.n) []).zip (rb.getD (x.2 % p.n) [])))
      some (outs.map (·.1), outs.foldl (fun f o => f ||| o.2) (fa ||| fb))
    | _, _ => none

/-- The accumulators written to the tile (R351). -/
def State.matWrite (s : State) (e : MatEntry) (accs : List Nat) : State :=
  let p := e.params
  let wide := p.bfmt == .fp64
  accs.zipIdx.foldl (fun s x =>
    let idx := x.2 / p.n * 128 + x.2 % p.n
    let put := fun (s : State) (j v : Nat) =>
      let (t, w) := accWord (4 * e.core + p.tile) idx wide j
      s.updTile t fun y => { y with elems := Sparse.set 0 y.elems w (BitVec.ofNat 32 v) }
    let s := put s 0 x.1
    if wide then put s 1 (x.1 / 2 ^ 32) else s) s

/-- The flags of an MMA reach its thread: at DL1 and above at the boundary (R87, R194). -/
def State.matFlags (s : State) (e : MatEntry) (fl : Flags) : State :=
  match s.gridOf e.block with
  | some g =>
    if fl == 0 then s
    else if g.dl == 0 then s.raiseLive [(e.block, e.tid)] fl
    else s.addEffect e.block e.tid e.pc (.flags fl)
  | none => s

/-- MATRIX_PASS_COMPLETE: the granted pass retires; the last writes the tile, reports the flags and advances tl1
(R351). -/
def execMatrixPassComplete (w : Nat) (s : State) : Out :=
  .next (match (s.wheel w).find? (·.granted) with
    | none => s
    | some e =>
      match s.matPass e with
      | none => s
      | some (accs, fl) =>
        let p := e.params
        let e' := { e with accs := accs, flags := e.flags ||| fl, nextPass := e.nextPass + 1, lastPass := s.dieTime (e.core / 64)
                           aged := false, granted := false }
        if e'.nextPass < divUp p.k (chunkOf p.bfmt) then
          s.updWheel w fun es => es.map fun x => if x.id == e.id then e' else x
        else
          let s := s.updWheel w fun es => es.filter fun x => x.id != e.id
          let s := s.matWrite e accs
          let s := s.matFlags e e'.flags
          s.tlComplete e.block 1 e.tl)

/-- ENGINE_ABANDON: an operation whose check fails as it runs (R339, R350). -/
def execEngineAbandon (id : Nat) (s : State) : Out :=
  .next (match s.engine? id with
    | some op =>
      if op.waits != 0 || op.written || !s.engineStarts op || !(s.copyNeeds op (s.tenantOf op.block)).isEmpty then s
      else
        let r := (s.runEngine op).1
        match r.fail with
        | none => s
        | some f => r.s.abandonEngine op f
    | none =>
      match s.wheels.findSome? (fun w => (w.2.find? fun e => e.id == id).map fun e => (w.1, e)) with
      | none => s
      | some (w, e) =>
        if e.granted && (s.matPass e).isNone then
          (s.updWheel w fun es => es.filter fun x => x.id != id).engineRecord e.block e.tid e.pc (cOPERAND, 9) 0
        else s)

end Sys2Proof.Machine
end

