-- ==== Sys2Proof/Machine/Kernel.lean ====
section
/-! DEFINITION. Kernel headers (R154, R249), and tasks: their creation, start, completion and messages (R48, R49,
R120-R126). -/

namespace Sys2Proof.Machine

/-! ## The kernel header (R249) -/

/-- A role word of a header: first thread, count, budget. -/
def roleOfWord (w : Nat) : Role := ⟨bitsAt w 0 12, bitsAt w 12 12, bitsAt w 24 8⟩

/-- The register budgets of R154. -/
def budgetOk (b : Nat) : Bool := b == 255 || (b % 8 == 0 && decide (8 ≤ b ∧ b ≤ 248))

/-- Roles in order, without gap or overlap, from a first thread to the last (R154). -/
def rolesCover (t : Nat) : Nat → List Role → Bool
  | at_, [] => at_ == t
  | at_, r :: l =>
    r.first == at_ && r.first % 4 == 0 && (l.isEmpty || (r.first + r.count) % 4 == 0) && rolesCover t (r.first + r.count) l

/-- A code offset: a multiple of 4, at least 64. -/
def offsetOk (o : Nat) : Bool := o % 4 == 0 && decide (64 ≤ o)

/-- A header's fields, or the status that a launch of it completes with (R249). -/
def parseKernel (addr : Dword) (bs : List Byte) : Except Nat Kernel :=
  let word := fun i => bytesToNat ((bs.drop (4 * i)).take 4)
  let w4 := word 4
  let threads := bitsAt w4 0 12
  let cluster := bitsAt w4 16 4
  let roles := ([word 8, word 9, word 10].map roleOfWord).filter fun r => r.count != 0
  let k : Kernel := {
    addr := addr, features := BitVec.ofNat 5 (bitsAt (word 1) 16 5), entry := BitVec.ofNat 32 (word 2)
    handler := BitVec.ofNat 32 (word 3), threads := threads, cluster := cluster
    bars := bitsAt (word 5) 0 8, tbars := bitsAt (word 5) 8 8, scratch := bitsAt (word 6) 0 19, roles := roles }
  let bad :=
    word 0 != 0x4B59544F || bitsAt (word 1) 0 16 != 1 || bitsAt (word 1) 21 11 != 0
    || bitsAt w4 12 4 != 0 || bitsAt w4 20 12 != 0 || bitsAt (word 5) 16 16 != 0 || bitsAt (word 6) 19 13 != 0
    || word 7 != 0 || ((List.range 5).any fun i => word (11 + i) != 0)
    || threads == 0 || cluster == 0 || !offsetOk (word 2) || (word 3 != 0 && !offsetOk (word 3))
    || roles.isEmpty || !rolesCover threads 0 roles || !(roles.all fun r => budgetOk r.regs)
    || decide (k.scratch < 16 * k.tbars)
  if bad then .error 2
  else if 2048 < threads ∨ 12 < cluster ∨ 393216 < k.scratch ∨ 16 < k.bars ∨ 65536 < k.totalCharge then .error 3
  else .ok k

/-- The number of usable cores of each die of a partition: 0 means 64 (R80). -/
def Tenant.cores (x : Tenant) : Nat := if x.ncore = 0 then 64 else min 64 x.ncore.toNat

/-- The partition of a tenant: whether a core belongs to it; a DIEMASK of 0 means every die (R80). -/
def Tenant.hasCore (x : Tenant) (c : Nat) : Bool :=
  (x.diemask == 0 || onBit x.diemask (c / 64)) && decide (c % 64 < x.cores)

/-- Whether a die is in service. -/
def State.dieUp (s : State) (d : Nat) : Bool := onBit s.pkg.dies d

/-- The cores that a tenant may use, in ascending order: in reduced service those of die 0 alone (R22). -/
def State.usable (s : State) (t : Nat) : List Nat :=
  (List.range 512).filter fun c =>
    (s.tenant t).hasCore c && s.dieUp (c / 64) && (s.pkg.fullMap || decide (c < 64))

/-! ## Handles and views -/

/-- The depth of a view (R96). -/
def State.viewDepth (s : State) (v : Nat) : Nat := match Sparse.find s.views v with | some w => w.depth | none => 0

/-- What this device tells another (log 8). -/
def State.note (s : State) (d : Nat) (x : Note) : State :=
  { s with fabric := { s.fabric with notes := s.fabric.notes ++ [(BitVec.ofNat 10 d, x)] } }

/-- A view and those around it as another device must know them, the innermost first (R96, R105). -/
def State.viewsOf (s : State) (v : Nat) : List FarView :=
  (s.viewChain nestFuel v).map fun x => ⟨x, match Sparse.find s.views x with | some w => w.index | none => 0⟩

/-- A device is told of the views in which an invocation sent to it runs, which no field of IVQ or IVO names beyond the innermost
(R36, R96, R105; log 20); the view may now hold slots there (R103). -/
def State.tellViews (s : State) (t v d : Nat) : State :=
  if v = 0 then s else (s.markFar v d).note d (.views (BitVec.ofNat 6 t) (s.viewsOf v))

/-- The views of other devices in which an invocation that has come here runs, the innermost first. -/
def State.learnViews (s : State) (t : Nat) : List FarView → State
  | [] => s
  | v :: rest =>
    let s := s.learnViews t rest
    if Sparse.has s.views v.vtag || v.vtag / 2 ^ 16 == s.fabric.devid.toNat then s
    else { s with views := Sparse.put s.views v.vtag {
      vtag := v.vtag, tenant := t, parent := (rest.head?.map (·.vtag)).getD 0, depth := rest.length + 1, opener := 0, index := v.index
      spec := false, far := [] } }

/-- The launch that a grid belongs to: itself, or the creator of the task. -/
def Grid.root (g : Grid) (n : Nat) : Nat := match g.task with | some t => t.creator | none => n

/-- The lowest free slot of a tenant's share (R121). -/
def State.freeSlot (s : State) (t : Nat) : Option Nat :=
  (List.range (s.tenant t).slshare.toNat).find? fun i => (s.sluice t i).st == .free

/-- A slot allocated to an invocation by a thread of a block: the handle, and the machine with its entry (R120, R122).
Its posting on tl3 is numbered (R338). -/
def State.allocHandle (s : State) (b : Nat) (slot : Nat) (held : Bool) (on_ : Option Dword) : Dword × State :=
  match s.block? b, s.gridOf b with
  | some k, some g =>
    let gen := (s.sluice k.tenant slot).gen
    let (n, s) := s.tlPosted b 3
    let e : Sluice := { Sluice.reset with
      gen := gen, st := if held then .held else .unplaced, owner := g.root k.grid, block := b, tlNum := n, vtag := k.vtag
      onHandle := on_, knows := Sparse.set 0 k.knows b k.clock }
    (mkHandle s.fabric.devid slot gen k.tenant, s.updSluice k.tenant slot fun _ => e)
  | _, _ => (0, s)

/-! ## Creation of a task (R123) -/

/-- The entry of a handle, here or known from elsewhere. -/
def State.entryOf (s : State) (h : Dword) : Option Sluice :=
  if hHome h == s.fabric.devid then (if s.stale h then none else some (s.sluice (hTenant h) (hSlot h))) else s.foreign? h

/-- The entry of a handle as its own events find it, though the share has shrunk below its slot (R56, R122). -/
def State.liveEntry (s : State) (h : Dword) : Option Sluice :=
  if hHome h == s.fabric.devid then (if s.gone h then none else some (s.sluice (hTenant h) (hSlot h))) else s.foreign? h

/-- Whether the task of a handle has ended before it starts: its handle broke, or its entry here is gone (R115, R124). -/
def State.ended (s : State) (h : Dword) : Bool :=
  match s.liveEntry h with
  | some e => e.st == .broken
  | none => hHome h == s.fabric.devid

/-- A message about a handle, and the handle broken with INTEG where no route carries it (R33, R44, R49). -/
def State.sayHandle (s : State) (m : Msg) (h : Dword) : State :=
  match s.send m with
  | some s => s
  | none => (s.tell m).breakHandle chainFuel h (BitVec.ofNat 8 cINTEG) 0 0

/-- The grid ID of R72. -/
def gridId (t q : Nat) (task : Bool) (home : BitVec 10) (seq : Nat) : Dword :=
  BitVec.ofNat 64 (t * 2 ^ 58 + q * 2 ^ 54 + (if task then 2 ^ 53 else 0) + home.toNat * 2 ^ 43 + seq % 2 ^ 43)

/-- The terms of a task that a handle of this device stands for: those of the issuing block's grid, and the next number of
its queue, taken (R72, R83, R123). -/
def State.takeTerms (s : State) (h : Dword) (rngD : Dword) : Terms × State :=
  let t := hTenant h
  let e := s.sluice t (hSlot h)
  let g := match s.gridOf e.block with
    | some g => some g
    | none => s.grid? e.owner
  let q := (g.map (·.queue)).getD 0
  let w : Terms := {
    rngD := rngD, seq := (s.queue t q).taskSeq, queue := q, prio := (g.map (·.prio)).getD 0, dl := (g.map (·.dl)).getD 0
    quota := (g.map (·.quota)).getD 4096, root := e.owner, vtag := e.vtag }
  (w, s.updQueue t q fun x => { x with taskSeq := x.taskSeq + 1 })

/-- The terms as a message carries them, in 142 bits (log 20): D, the number, the queue, the priority, the level and the
innermost view. -/
def Terms.bits (w : Terms) : Nat :=
  w.rngD.toNat + 2 ^ 64 * (w.seq % 2 ^ 43) + 2 ^ 107 * (w.queue % 16) + 2 ^ 111 * w.prio.toNat + 2 ^ 114 * w.dl.toNat
    + 2 ^ 116 * (w.vtag % 2 ^ 26)

/-- The terms of a task that a message brings: its quota is that of the queue of the same number here (log 20). -/
def State.termsFrom (s : State) (t n : Nat) : Terms :=
  let q := bitsAt n 107 4
  { rngD := BitVec.ofNat 64 n, seq := bitsAt n 64 43, queue := q, prio := BitVec.ofNat 3 (bitsAt n 111 3)
    dl := BitVec.ofNat 2 (bitsAt n 114 2), quota := (if (s.queue t q).quota == 0 then 4096 else (s.queue t q).quota.toNat)
    root := 0, vtag := bitsAt n 116 26 }

/-- A task created on this device, on a die or any die: its kernel is read and checked, and its grid waits for
dispatch. A task that cannot start breaks its handle with hop count 0, and one whose handle has broken never starts (R115,
R123, R124). A header on another device is asked for first (R38). `on` is the handle that an INVOKE.ON addressed. -/
def State.createTask (s : State) (h : Dword) (kernel : Dword) (args extra : List Word) (on : Option Dword) (die : Option Nat)
    (w : Terms) : State :=
  let t := hTenant h
  let fail := fun (s : State) (code : Nat) => s.breakHandle chainFuel h (BitVec.ofNat 8 code) 0 0
  let usable := (s.usable t).filter fun c => match die with | some d => c / 64 == d | none => true
  if s.ended h then s
  else if !(s.tenant t).en || usable.isEmpty then fail s cPROT
  else
    let gid := gridId t w.queue true (hHome h) w.seq
    let header := s.readRoot t kernel.toNat 64
    if readWaits header then
      let s := s.askRoot t kernel.toNat 64
      { s with fabric := { s.fabric with starts := s.fabric.starts ++ [⟨h, kernel, args, extra, on, die, w⟩] } }
    else
    let s := s.forgetRoot t kernel.toNat 64
    match header with
    | .error (_, e) =>
      let s := s.postEvent t { FaultRec.zero with
        code := BitVec.ofNat 8 e.1, cause := BitVec.ofNat 8 e.2, access := 0, queue := BitVec.ofNat 4 w.queue, grid := gid
        addr := kernel }
      fail s e.1
    | .ok bs =>
      match parseKernel kernel bs with
      | .error _ => fail s cOPERAND
      | .ok k =>
        if k.cluster != 1 || (on.isSome && k.roles.any fun r => decide (r.regs < 16)) then fail s cOPERAND
        else
          let (id, s) := s.fresh
          s.setGrid id {
            gid := gid, tenant := t, queue := w.queue, seq := w.seq, dl := w.dl, prio := w.prio, quota := w.quota, kernel := k
            launch := none
            task := some {
              handle := h, kind := if die.isSome then 1 else 0, dev := s.fabric.devid, die := die.getD 0
              args := args, vtag := w.vtag, creator := w.root, result := none, failed := false, rngD := w.rngD
              extra := extra, on := on }
            state := .started, nextBlock := 0, total := 1, finished := 0, order := id, waitingSince := s.placeTime, turn := 1
            stall := 0, stalledFrom := none, closing := none, effects := [], effSeq := 0, accesses := [], dcause := DCause.zero, published := DCause.zero
            pendingEvents := [], ownFreed := 0, heldRed := [], folds := [], trace := none, killed := false, traced := false, preempt := false }

/-- The tasks that wait for their kernel headers are tried again (R123). -/
def State.retryStarts (s : State) : State :=
  s.fabric.starts.foldl (fun s x => s.createTask x.handle x.kernel x.args x.extra x.on x.die x.terms)
    { s with fabric := { s.fabric with starts := [] } }

/-- The arguments as the data flit of IVQ and IVO: eight words in bytes 0-31 (R36). -/
def argFlit (args : List Word) : Flit :=
  sealFlit (BitVec.ofNat 512 (wordsToNat (args.take 8)))

/-- The argument words of a data flit. -/
def flitArgs (f : Flit) : List Word := natToWords 8 (f.sector.toNat % 2 ^ 256)

/-- The device that "any" names: this one where DOMSET names it, otherwise the lowest that DOMSET names; this one too
where DOMSET is empty (R123 allows any device that DOMSET names; DESIGN CHOICE, log 77). -/
def State.anyDevice (s : State) (t : Nat) : Nat :=
  let set := (s.tenant t).domset
  if onBit set s.fabric.devid.toNat then s.fabric.devid.toNat
  else ((List.range 1024).find? fun d => onBit set d).getD s.fabric.devid.toNat

/-- An invocation sent to its target (R48): created here, or as IVQ to another device; lost on its way it breaks its
handle with code INTEG (R49). -/
def State.sendInvoke (s : State) (h : Dword) (target : Word) (kernel : Dword) (args : List Word) (rngD : Dword) : State :=
  let t := hTenant h
  let kind := bitsAt target.toNat 0 2
  let dev := if kind = 2 then s.anyDevice t else bitsAt target.toNat 2 10
  let (w, s) := s.takeTerms h rngD
  if dev = s.fabric.devid.toNat then
    s.createTask h kernel args [] none (if kind = 1 then some (bitsAt target.toNat 12 3) else none) w
  else
    let die : Nat := if kind = 1 then 2 ^ 3 + bitsAt target.toNat 12 3 else 0
    (s.tellViews t w.vtag dev).sayHandle (mkMsg 0x10 s.fabric.devid (BitVec.ofNat 10 dev) t 4 0 0
      (BitVec.ofNat 64 (die + 2 ^ 4 * (w.bits / 2 ^ 128)))
      (BitVec.ofNat 256 (h.toNat + kernel.toNat * 2 ^ 64 + w.bits % 2 ^ 128 * 2 ^ 128)) [argFlit args]) h

/-- The message of an invocation on a handle, from one device to another (log 20). -/
def ivoMsg (src dst : BitVec 10) (h : Dword) (v : Ivo) : Msg :=
  mkMsg 0x11 src dst (hTenant h) 4 0 (BitVec.ofNat 32 (v.terms.bits / 2 ^ 128)) (BitVec.ofNat 64 (v.terms.bits / 2 ^ 64))
    (BitVec.ofNat 256 (h.toNat + v.handle.toNat * 2 ^ 64 + v.kernel.toNat * 2 ^ 128 + v.terms.bits % 2 ^ 64 * 2 ^ 192))
    [argFlit v.args]

/-- A waiting invocation on a handle whose task lives at a place: kept until the result is here, or forwarded to the
device that holds it (R48, R126). One whose own handle has broken goes no further (R115). -/
def State.forwardIvo (s : State) (h : Dword) (v : Ivo) (place : BitVec 10 × Nat) (result : Option (List Word)) : State × Bool :=
  if s.ended v.handle then (s, true)
  else if place.1 == s.fabric.devid then
    match result with
    | some r => (s.createTask v.handle v.kernel v.args r (some h) (some place.2) v.terms, true)
    | none => (s, false)
  else ((s.tellViews (hTenant h) v.terms.vtag place.1.toNat).sayHandle (ivoMsg s.fabric.devid place.1 h v) v.handle, true)

/-- The invocations queued on a handle that can go on now, first in, first out (R48). -/
def State.releaseIvos (s : State) (h : Dword) : State :=
  match s.liveEntry h with
  | none => s
  | some e =>
    match e.place with
    | none => s
    | some p =>
      let result := if e.st == .ready then some e.result else none
      let (s, left) := e.ivos.foldl (fun (acc : State × List Ivo) v =>
        let (s, gone) := acc.1.forwardIvo h v p result
        (s, if gone then acc.2 else acc.2 ++ [v])) (s, [])
      if hHome h == s.fabric.devid then (s.updSluice (hTenant h) (hSlot h) fun e => { e with ivos := left }).reclaim (hTenant h) (hSlot h)
      else s.updForeign h fun e => { e with ivos := left }

/-- An invocation addressed to a handle reaches the handle's home, or the device where its result lives (R48, R49,
R126, R267). -/
def State.addIvo (s : State) (h : Dword) (v : Ivo) : State :=
  match s.entryOf h with
  | none => s.breakHandle chainFuel v.handle (BitVec.ofNat 8 cHBROKEN) 0 1
  | some e =>
    if e.dropped then s.breakHandle chainFuel v.handle (BitVec.ofNat 8 cHBROKEN) 0 1
    else if e.st == .broken then s.breakHandle chainFuel v.handle e.code (hopUp e.hops) e.reason
    else
      let s := if hHome h == s.fabric.devid then s.updSluice (hTenant h) (hSlot h) fun e => { e with ivos := e.ivos ++ [v] }
        else s.updForeign h fun e => { e with ivos := e.ivos ++ [v] }
      s.releaseIvos h

/-- An INVOKE.ON sent: to the home of the handle it addresses (R48). -/
def State.sendInvokeOn (s : State) (h' h : Dword) (kernel : Dword) (args : List Word) (rngD : Dword) : State :=
  let (w, s) := s.takeTerms h' rngD
  let v : Ivo := ⟨h', kernel, args, w⟩
  if hHome h == s.fabric.devid then s.addIvo h v
  else (s.tellViews (hTenant h) w.vtag (hHome h).toNat).sayHandle (ivoMsg s.fabric.devid (hHome h) h v) h'

/-- A task has been placed on a die of this device: its home learns it (R48, R122). -/
def State.notePlaced (s : State) (h : Dword) (die : Nat) : State :=
  if hHome h == s.fabric.devid then
    (s.updSluice (hTenant h) (hSlot h) fun e =>
      { e with st := if e.st == .unplaced then .placed else e.st, place := some (s.fabric.devid, die) }).releaseIvos h
  else
    ((s.updForeign h fun e => { e with st := .placed, place := some (s.fabric.devid, die) }).sayHandle
      (mkMsg 0x12 s.fabric.devid (hHome h) (hTenant h) 4 0 0 h (BitVec.ofNat 256 die) []) h).releaseIvos h

/-- The message that a handle's result is ready. -/
def hrsMsg (src dst : BitVec 10) (h : Dword) (result : List Word) : Msg :=
  mkMsg 0x13 src dst (hTenant h) 4 0 0 h (BitVec.ofNat 256 (wordsToNat result)) []

/-- A result arrives at a handle's home, which tells the devices of its waiters, or is known where the task ran, which
tells the home (R48, R122). -/
def State.noteReady (s : State) (h : Dword) (result : List Word) : State :=
  if hHome h == s.fabric.devid then
    let t := hTenant h
    let e := s.sluice t (hSlot h)
    if s.gone h || e.st == .broken || e.st == .ready then s
    else
      let s := s.updSluice t (hSlot h) fun e => { e with st := .ready, done := true, result := result }
      let s := e.waiters.foldl (fun s d => s.tell (hrsMsg s.fabric.devid d h result)) s
      let s := if e.tlNum == 0 then s else s.tlComplete e.block 3 e.tlNum
      (s.releaseIvos h).reclaim t (hSlot h)
  else
    ((s.updForeign h fun e => { e with st := .ready, done := true, result := result }).sayHandle
      (hrsMsg s.fabric.devid (hHome h) h result) h).releaseIvos h

/-! ## The end of a task (R122-R124) -/

/-- Whether a block has engine operations, matrix entries or results outstanding (R100, R257). -/
def State.busy (s : State) (b : Nat) : Bool :=
  s.engines.any (fun e => e.block == b) || s.wheels.any (fun w => w.2.any fun e => e.block == b)

/-- Whether every thread of a block has exited and no record of it waits in a record store (R148, R257). -/
def State.threadsDone (s : State) (b : Nat) : Bool :=
  match s.block? b with
  | none => true
  | some k => k.threads.all Thread.exited && !((s.core k.core).bolts.any fun r => r.block == b)

/-- The end of a grid's task: its handle is READY with thread 0's result, or has broken already. -/
def State.endTask (s : State) (g : Nat) : State :=
  match s.grid? g with
  | none => s
  | some x =>
    match x.task with
    | none => s
    | some t =>
      let s := { s with grids := s.grids.filter fun e => e.1 != g }
      if t.failed then s else s.noteReady t.handle (t.result.getD (List.replicate 8 0))

end Sys2Proof.Machine
end

