-- ==== Sys2Proof/Machine/Views.lean ====
section
/-! DEFINITION. Forks and joins: the merge of views, its check and apply phases, VDROP (R97-R118). -/

namespace Sys2Proof.Machine

/-! ## View identities (R95) -/

/-- Whether a view ID of this device is in use. -/
def State.vidUsed (s : State) (vid : Nat) : Bool := Sparse.has s.views (s.fabric.devid.toNat * 2 ^ 16 + vid)

/-- Whether n view IDs from one on are free. -/
def State.vidsFree (s : State) (v n : Nat) : Bool := (List.range n).all fun i => !s.vidUsed (v + i)

/-- The first ID of a run of n free ones: the lowest (R95; log 21). -/
def State.freeVids (s : State) (n : Nat) : Option Nat :=
  -- a run, if there is one, begins just above 0 or just above an ID in use
  let cands := 1 :: (s.views.map fun e => e.1 % 2 ^ 16 + 1)
  ((sortBy (fun a b => decide (a < b)) cands).find? fun v => decide (v + n ≤ 2 ^ 16) && s.vidsFree v n)

/-- Views opened over a view, in a run. -/
def State.openViews (s : State) (t parent opener v0 n : Nat) (spec : Bool) : State :=
  let d := s.viewDepth parent + 1
  { s with views := (List.range n).foldl (fun vs i =>
      Sparse.put vs (v0 + i) { vtag := v0 + i, tenant := t, parent := parent, depth := d, opener := opener, index := i, spec := spec, far := [] }) s.views }

/-- A view freed with its slots (R95, R103). -/
def State.freeView (s : State) (v : Nat) : State :=
  { s with views := Sparse.erase s.views v, slots := s.slots.filter fun x => x.vtag != v }

/-- Whether a view is another or lies within it. -/
def State.viewWithin (s : State) (outer : Nat → Bool) : Nat → Nat → Bool
  | 0, _ => false
  | fuel + 1, v =>
    if v = 0 then false
    else outer v || (match Sparse.find s.views v with | some w => s.viewWithin outer fuel w.parent | none => false)

/-! ## FOLD (R111) -/

/-- FOLD on D8 elements: each step exact, then rounded to D8; NaR in an operand that the operation uses gives NaR. -/
def foldD8 (redop acc w t : Nat) : Nat × Flags :=
  match d8Decode acc, d8Decode w with
  | some a, some x =>
    if redop = 2 then (if fvLt x a then w else acc, 0)
    else if redop = 3 then (if fvLt a x then w else acc, 0)
    else match d8Decode t with
      | none => (0x80, 0)
      | some y =>
        let d := d8OfFV (qAdd x y.neg).1
        match d8Decode d.1 with
        | some dv =>
          let r := d8OfFV (qAdd a dv).1
          (r.1, d.2 ||| r.2)
        | none => (0x80, d.2)
  | _, _ => (0x80, 0)

/-- FOLD on rational elements. -/
def foldRq (q : RqFmt) (redop acc w t : Nat) : Nat × Flags :=
  let dec := fun c => (q.decode c).1
  let a := dec acc
  let x := dec w
  if redop = 1 then
    let (d, f1) := qAdd x (dec t).neg
    let (dc, f2) := q.ofFV 0 d
    let (r, f3) := qAdd a (dec dc)
    let (rc, f4) := q.ofFV 0 r
    (rc, f1 ||| f2 ||| f3 ||| f4)
  else if a.isNan || x.isNan then (q.indet, 0)
  else (q.canon (if redop = 2 then (if fvLt x a then x else a) else (if fvLt a x then x else a)), 0)

/-- FOLD(op, acc, w, t) on an element of a format, REDOP 1 add, 2 min, 3 max, 4 and, 5 or, 6 xor (R62, R111). -/
def foldElem (fmt : Fmt) (redop acc w t : Nat) : Nat × Flags :=
  let n := fmt.bits
  match redop with
  | 4 => (acc &&& w, 0)
  | 5 => (acc ||| w, 0)
  | 6 => (acc ^^^ (w ^^^ t), 0)
  | r => match fmt with
    | .fp16 | .bf16 | .fp32 | .fp64 =>
      let f := fpOf fmt
      if r = 1 then
        let (d, f1) := f.sub 0 w t
        let (x, f2) := f.add 0 acc d
        (x, f1 ||| f2)
      else f.minMax (r == 3) acc w
    | .d8 => foldD8 r acc w t
    | .rq32 => foldRq rq32 r acc w t
    | .rq64 => foldRq rq64 r acc w t
    | _ =>
      if r = 1 then ((acc + (w + 2 ^ n - t)) % 2 ^ n, 0)
      else if r = 2 then (if sext w n < sext acc n then w else acc, 0)
      else (if sext acc n < sext w n then w else acc, 0)

/-! ## The merge of one granule (R108) -/

/-- What the merge of a granule reports: its new content, the children whose twins differ, the conflicting bytes with
their two lowest children, and the flags. -/
structure Merged where
  granule : Nat
  slots : List Slot
  base : List Byte
  content : List Byte
  outside : List Nat
  conflicts : List (Nat × Nat × Nat)
  flags : Flags
  deriving DecidableEq, Repr

/-- Element e of a granule's bytes. -/
def elemAt (bs : List Byte) (size e : Nat) : Nat := bytesToNat ((bs.drop (size * e)).take size)

/-- The merge of the slots of one granule over its base P, the children in ascending order (R108). `first` is the
view tag of child 0. -/
def mergeGranule (g first : Nat) (ss : List Slot) (p : List Byte) : Merged :=
  let redop := match ss with | x :: _ => x.redop | [] => 0
  let fmt := match ss with | x :: _ => x.fmt | [] => .bytes
  let size := if redop = 0 then 1 else max 1 (fmt.bits / 8)
  let child := fun (x : Slot) => x.vtag - first
  let changed := fun (e : Nat) => ss.filter fun x => elemAt x.working size e != elemAt x.twin size e
  let step := fun (acc : List Byte × List (Nat × Nat × Nat) × Flags) (e : Nat) =>
    let c := changed e
    match c with
    | [] => (acc.1 ++ natToBytes size (elemAt p size e), acc.2)
    | x :: rest =>
      if redop = 0 then
        match rest with
        | [] => (acc.1 ++ natToBytes size (elemAt x.working size e), acc.2)
        | y :: _ => (acc.1 ++ natToBytes size (elemAt p size e), acc.2.1 ++ [(g * 128 + e, child x, child y)], acc.2.2)
      else
        let r := c.foldl (fun (a : Nat × Flags) y =>
          let (v, fl) := foldElem fmt redop a.1 (elemAt y.working size e) (elemAt y.twin size e)
          (v, a.2 ||| fl)) (elemAt p size e, 0)
        (acc.1 ++ natToBytes size r.1, acc.2.1, acc.2.2 ||| r.2)
  let out := (List.range (128 / size)).foldl step ([], [], 0)
  { granule := g, slots := ss, base := p, content := out.1
    outside := (ss.filter fun x => x.twin != p).map child, conflicts := out.2.1, flags := out.2.2 }

/-- The slots of a run of views, by granule in ascending address order, the children of a granule in ascending order. -/
def State.runSlots (s : State) (t v0 n : Nat) : List (Nat × List Slot) :=
  let ss := s.slots.filter fun x => x.tenant == t && decide (v0 ≤ x.vtag ∧ x.vtag < v0 + n)
  let gs := sortBy (fun a b => decide (a < b)) (dedup (ss.map (·.granule)))
  gs.map fun g => (g, sortBy (fun a b => decide (a.vtag < b.vtag)) (ss.filter fun x => x.granule == g))

/-- P: what the parent view reads of a captured granule, by the chain of views from the parent's outwards (R105, R108). -/
def State.parentBytes (s : State) (t : Nat) (parents : List Nat) (g : Nat) (ss : List Slot) : List Byte :=
  let pa := match ss with | x :: _ => x.pa | [] => 0
  s.chainRead t (g * 128) (.dev pa) 128 parents

/-- The merge of every granule that this device holds of a run of views into their parent (R107, R108). -/
def State.mergeViews (s : State) (t : Nat) (parents : List Nat) (v0 n : Nat) : List Merged :=
  (s.runSlots t v0 n).map fun e => mergeGranule e.1 v0 e.2 (s.parentBytes t parents e.1 e.2)

/-- The other devices on which the views of a run may hold slots (R103). -/
def State.farOf (s : State) (v0 n : Nat) : List Nat :=
  dedup (s.views.flatMap fun e => if v0 ≤ e.1 ∧ e.1 < v0 + n then e.2.far else [])

/-- The INTEG cause of a run of views of which a slot, or the memory under it, lies on a lost unit (R27). -/
def State.runLost (s : State) (t v0 n : Nat) : Option Nat :=
  if s.pkg.lost.isEmpty then none
  else (s.runSlots t v0 n).findSome? fun e => e.2.findSome? fun x =>
    (s.lostIn x.pa 128).or (s.lostAt (Config.poolAddr t x.vtag x.granule))

/-- What the check of a run finds on this device: lost slots, OUTSIDE granules, conflicting bytes and flags, what it merges, and
where else the views hold slots (R107). -/
def State.runReport (s : State) (t : Nat) (parents : List Nat) (v0 n : Nat) : FarReport :=
  let ms := s.mergeViews t parents v0 n
  let outs := ms.filter fun m => !m.outside.isEmpty
  let cs := ms.flatMap (·.conflicts)
  { dev := s.fabric.devid, lost := s.runLost t v0 n
    outs := outs.length, outLow := outs.head?.map fun m => (m.granule * 128, m.outside.headD 0)
    confs := cs.length, confLow := cs.head?, flags := ms.foldl (fun a m => a ||| m.flags) 0
    merged := ms.map fun m => m.granule * 128, far := s.farOf v0 n }

/-- An address of a device as the others name it: one that its remote entry brought there has lost the bits that name the device
(R38, R112). -/
def virtualAt (dev : BitVec 10) (a : Nat) : Nat := if a < 2 ^ 43 then dev.toNat * 2 ^ 43 + a else a

/-- A report as the device that opened the fork takes it, with virtual addresses (R112). -/
def virtualReport (r : FarReport) : FarReport := { r with
  outLow := r.outLow.map fun x => (virtualAt r.dev x.1, x.2), confLow := r.confLow.map fun x => (virtualAt r.dev x.1, x.2)
  merged := r.merged.map (virtualAt r.dev) }

/-- The lower of two addresses that reports give, with what stands beside it. -/
def lowerAt {α : Type} (addr : α → Nat) : Option α → Option α → Option α
  | some a, some b => if addr b < addr a then some b else some a
  | some a, none => some a
  | none, b => b

/-- Two devices' reports taken together (R107). -/
def joinReports (a b : FarReport) : FarReport where
  dev := a.dev
  lost := a.lost.or b.lost
  outs := a.outs + b.outs
  outLow := lowerAt (·.1) a.outLow b.outLow
  confs := a.confs + b.confs
  confLow := lowerAt (·.1) a.confLow b.confLow
  flags := a.flags ||| b.flags
  merged := a.merged ++ b.merged
  far := dedup (a.far ++ b.far)

/-- The trap that ends a join: INTEG for a lost slot or a lost message, OUTSIDE at DL1 and above, before CONFLICT, with the
record of R112; none where the join may be applied (R27, R109, R110, R114). -/
def mergeTrap (dl : BitVec 2) (v0 : Nat) (r : FarReport) : Option Trap :=
  let mk := fun (code addr a b n : Nat) => some { Trap.of code 1 with
    access := 1, addr := addr, aux0 := a % 2 ^ 12 + b % 2 ^ 12 * 2 ^ 16 + v0 * 2 ^ 32, aux1 := n }
  match r.lost, (if dl == 0 then none else r.outLow), r.confLow with
  | some c, _, _ => some (Trap.of cINTEG c)
  | none, some o, _ => mk cOUTSIDE o.1 o.2 0xFFF r.outs
  | none, none, some c => mk cCONFLICT c.1 c.2.1 c.2.2 r.confs
  | none, none, none => none

/-- One granule's result placed: its changed bytes in memory, or the whole in the parent's working copy, or in the lowest child's slot retagged to
the parent (R108). The parent's core drops its copy of the lines, and lists them as written (R113); where the parent runs on
another device they are signed at once (log 74). -/
def State.placeMerged (s : State) (t parent : Nat) (core : Option Nat) (m : Merged) : State :=
  let mine := fun (x : Slot) => x.tenant == t && x.granule == m.granule && m.slots.any fun y => y.vtag == x.vtag
  let pa := match m.slots with | x :: _ => x.pa | [] => 0
  if parent = 0 then
    let s := match core with
      | some c => [2 * m.granule, 2 * m.granule + 1].foldl (fun (s : State) sec => s.syncSector c t (sec * 64)) s
      | none => s
    let now := s.readHome (.dev pa) 128
    let new_ := (m.content.zip (m.base.zip now)).map fun e => if e.1 = e.2.1 then e.2.2 else e.1
    let s := s.writeHome (.dev pa) new_
    let s := match core with
      | some c => s.noteWritten c t (m.granule * 128)
      | none => s.releaseLines t (m.granule * 128) 128
    { s with slots := s.slots.filter fun x => !mine x }
  else
    match s.slot? t parent m.granule with
    | some _ =>
      { (s.writeSlot t parent (m.granule * 128) m.content) with
        slots := (s.writeSlot t parent (m.granule * 128) m.content).slots.filter fun x => !mine x }
    | none =>
      match m.slots with
      | [] => s
      | x :: _ => { s with slots := (s.slots.filter fun y => !mine y) ++ [{ x with vtag := parent, twin := m.base, working := m.content }] }

/-- The results of a run of views placed into their parent, which stands first among the chain of views; what lies on a
lost unit is left. -/
def State.placeRun (s : State) (t : Nat) (parents : List Nat) (core : Option Nat) (v0 n : Nat) : State :=
  let ms := (s.mergeViews t parents v0 n).filter fun m => m.slots.all fun x =>
    (s.lostIn x.pa 128).isNone && (s.lostAt (Config.poolAddr t x.vtag x.granule)).isNone
  let s := ms.foldl (fun s m => s.placeMerged t (parents.headD 0) core m) s
  { s with slots := s.slots.filter fun x => !(x.tenant == t && decide (v0 ≤ x.vtag ∧ x.vtag < v0 + n)) }

/-- The copies that this device holds of lines on other devices go, those of the parent's core and of the proxy slices: what the
core holds dirty of them is sent first (R113). -/
def State.dropMerged (s : State) (t core : Nat) (as_ : List Nat) : State :=
  as_.foldl (fun s a => ((s.syncSector core t a).syncSector core t (a + 64)).dropProxy t a 128) s

/-- Every result placed, the views freed, and an acquire for the parent, whose copies of the granules merged on other devices go
with those merged here (R107, R113). What the run may have on other devices the parent view now may have. -/
def State.applyMerge (s : State) (g t parent core v0 n : Nat) (away : List Nat) : State :=
  let far := s.farOf v0 n
  let s := s.placeRun t (s.viewChain nestFuel parent) (some core) v0 n
  let s := far.foldl (fun s d => s.markFar parent d) s
  let s := (List.range n).foldl (fun s i => s.freeView (v0 + i)) s
  ((s.acquireCore core).dropMerged t core away).resumeChildren t (some g)

/-! ## What devices tell one another of joins (R107, R114, R115; log 8) -/

/-- The same thing told to several devices. -/
def State.noteAll (s : State) (ds : List Nat) (x : Note) : State := ds.foldl (fun s d => s.note d x) s

/-- A run of views as other devices must know it. -/
def State.farRun (s : State) (t parent v0 n : Nat) (dl0 : Bool) : FarFork :=
  ⟨BitVec.ofNat 6 t, v0, n, s.viewChain nestFuel parent, dl0⟩

/-- Whether reports have come from all of some devices. -/
def covers (rs : List FarReport) (ds : List Nat) : Bool := ds.all fun d => rs.any fun r => r.dev.toNat == d

/-- The device that opened a run of views. -/
def farOwner (r : FarFork) : Nat := r.vtag0 / 2 ^ 16

/-- A run's writes from outside are no longer held (R107). -/
def State.unhold (s : State) (r : FarFork) : State :=
  { s with fabric := { s.fabric with holds := s.fabric.holds.filter fun x => x.tenant != r.tenant || x.vtag0 != r.vtag0 } }

/-- The check of another device's run on the slots that it holds here: the answer. Until the run is applied or aborted the writes
to its granules that come from outside the fork are held (R107). -/
def State.checkFar (s : State) (r : FarFork) : State :=
  let s := s.unhold r
  let s := s.note (farOwner r) (.report (virtualReport (s.runReport r.tenant.toNat r.parents r.vtag0 r.n)))
  { s with fabric := { s.fabric with holds := s.fabric.holds ++ [r] } }

/-- The apply of another device's run on the slots that it holds here, and the answer. Its views are known here no longer, and
what they have on devices further on their parent may have (R95, R103). -/
def State.applyFar (s : State) (r : FarFork) : State :=
  let t := r.tenant.toNat
  let answer := virtualReport (s.runReport t r.parents r.vtag0 r.n)
  let s := (s.unhold r).placeRun t r.parents none r.vtag0 r.n
  let s := answer.far.foldl (fun s d => s.markFar (r.parents.headD 0) d) s
  let s := { s with views := s.views.filter fun e => !decide (r.vtag0 ≤ e.1 ∧ e.1 < r.vtag0 + r.n) }
  (s.note (farOwner r) (.report answer)).resumeChildren t none

/-! ## Children (R98, R100) -/

/-- The tasks that a block created and that have not ended (R123). -/
def State.openTasks (s : State) (b : Nat) : Bool :=
  s.tenants.any fun t => t.2.sluice.any fun e => e.2.st != .free && e.2.block == b && !e.2.done

/-- Whether a child is complete: its threads have exited, its engine operations have retired, and the tasks it created
have ended (R100, R123). -/
def State.childDone (s : State) (b : Nat) : Bool := s.threadsDone b && !s.busy b && !s.openTasks b

/-- The effects of a block inside its own view performed: at DL1 and above they are still held when it completes, and
no other block can see them (R98, R106; log 22). -/
def State.settleView (s : State) (b : Nat) (perform : State → Effect → State) : State :=
  match s.block? b with
  | none => s
  | some k =>
    match s.grid? k.grid with
    | none => s
    | some g =>
      let mine := fun (e : Effect) => e.block == b && e.kind.view != 0
      let s := s.updGrid k.grid fun g => { g with effects := g.effects.filter fun e => !mine e }
      (g.effects.filter mine).foldl perform s

/-- The children of a block that exist. -/
def State.childrenOf (s : State) (b : Nat) : List Nat := (s.blocks.filter fun e => e.2.parent == some b).map (·.1)

/-- Whether every child of a block's open fork is complete (R107). -/
def Fork.ready (f : Fork) : Bool := f.next == f.n && f.done == f.n

/-! ## JOIN (R107-R113, R263) -/

/-- The trap of a thread that waits at an instruction: taken there (R110, R221). In a clause that stands still the later lanes
of the instruction wait for it (R319). -/
def State.trapWaiting (s : State) (b tid : Nat) (t : Trap) : State :=
  let at_ := s.standsAt b tid
  let still := s.pausedOf b tid
  let s := s.takeTrap b tid at_.1 at_.2 at_.1 at_.2 t
  match still with
  | some (c, id, j) => s.holdPaused c id j tid
  | none => s.wakeQuad b tid

/-- Whether a block's forking thread waits at its JOIN for a fork whose children are all complete. -/
def State.joinReady (s : State) (b : Nat) : Bool :=
  match s.block? b with
  | none => false
  | some k => match k.fork with
    | none => false
    | some f => f.ready && !f.dropping && (k.thread f.tid).status == .waiting .join && k.state != .saved && k.state != .lost

/-- What the check of a block's open fork finds, on this device and in the reports of others. -/
def State.forkReport (s : State) (k : Block) (f : Fork) (reports : List FarReport) : FarReport :=
  reports.foldl joinReports (s.runReport k.tenant (s.viewChain nestFuel k.vtag) f.vtag0 f.n)

/-- The fault that ends a block's join, if any. -/
def State.joinFault (s : State) (k : Block) (f : Fork) : Option Trap :=
  match s.grid? k.grid with
  | none => none
  | some g => mergeTrap g.dl f.vtag0 (s.forkReport k f f.reports)

/-- A block's join that a fault ends, once what other devices report of it has come; a join that they have been asked to
check stands open (R110). -/
def State.joinEnds (s : State) (b : Nat) : Option (Block × Fork × Trap) :=
  match s.block? b with
  | none => none
  | some k => match k.fork with
    | none => none
    | some f =>
      if !s.joinReady b || f.asked || f.checked || !covers f.reports (s.farOf f.vtag0 f.n) then none
      else (s.joinFault k f).map fun t => (k, f, t)

/-- The traps of a join are taken at the JOIN, which asks anew if it is executed again. -/
def State.endJoin (s : State) (b : Nat) : State :=
  match s.joinEnds b with
  | none => s
  | some (_, f, t) => (s.updBlock b fun k => { k with fork := some { f with reports := [] } }).trapWaiting b f.tid t

/-- What reports tell of further devices on which the views of a run hold slots (R103). -/
def State.learnFar (s : State) (v0 : Nat) (reports : List FarReport) : State :=
  (reports.flatMap (·.far)).foldl (fun s d => if d = s.fabric.devid.toNat then s else s.markFar v0 d) s

/-- The check of a block's own fork. The other devices that hold slots of it are asked first, and those further on that their
reports name; with all reports the check is made, and they are told to apply or to abort. A fault ends the join: at DL0 the trap is taken here, above it at the
boundary whose drain this is (R107, R110, R114, R263). -/
def State.checkOwn (s : State) (b : Nat) (k : Block) (f : Fork) (reports : List FarReport) : State :=
  let s := s.learnFar f.vtag0 reports
  let far := s.farOf f.vtag0 f.n
  let run := s.farRun k.tenant k.vtag f.vtag0 f.n (s.dl0 b)
  let mark := fun (s : State) (asked checked : Bool) (rs : List FarReport) =>
    s.updBlock b fun k => { k with fork := some { f with asked := asked, checked := checked, reports := rs } }
  if !far.isEmpty && !f.asked then mark (s.noteAll far (.check run)) true false []
  else if !covers reports far then s.noteAll (if reports.isEmpty then [] else far.filter fun d => !covers reports [d]) (.check run)
  else match s.joinFault k { f with reports := reports } with
    | some t =>
      let s := mark (s.noteAll far (.abort run)) false false reports
      if s.dl0 b then s.trapWaiting b f.tid t else s
    | none => mark (s.noteAll far (.apply run)) f.asked true reports

/-- A JOIN that completes with INTEG: the trap is recorded at the JOIN, and its thread resumes after it (R114). -/
def State.joinLost (s : State) (b tid cause : Nat) : State :=
  let th := s.thread b tid
  let next := th.after.getD (th.pc, th.clpos)
  let s := s.updThread b tid fun th => { th with retired := th.retired + 1, turnRetired := th.turnRetired + 1 }
  (s.takeTrap b tid th.pc th.clpos next.1 next.2 (Trap.of cINTEG cause)).wakeQuad b tid

/-- A JOIN that has ended: its thread leaves its wait, with INTEG where a part was lost; at DL1 and above at the boundary (R114,
R263). -/
def State.joinDone (s : State) (b tid : Nat) (lost : Option Nat) : State :=
  match lost with
  | some c => if s.dl0 b then s.joinLost b tid c else s.updThread b tid fun th => { th with status := .waiting (.joinLost c) }
  | none => if s.dl0 b then s.leaveWait b tid else s

/-- The apply of a block's own fork, once the other devices have confirmed theirs. The merge is made on the content as it
stands (log 23); OUTSIDE is recorded at DL0; the fork closes and the forking thread leaves its wait, at DL1 and above at the
boundary. A part that is lost now completes the JOIN with INTEG; the granules of a device that has not confirmed stand
there as they may (R107-R114). -/
def State.applyOwn (s : State) (b : Nat) (k : Block) (f : Fork) (reports : List FarReport) : State :=
  let th := k.thread f.tid
  let pc := th.pc + BitVec.ofNat 64 (4 * th.clpos)
  let r := s.forkReport k f reports
  let s := if s.dl0 b then (List.range r.outs).foldl (fun s _ => s.gridEvent k.grid 0x04 pc) s else s
  let s := s.applyMerge k.grid k.tenant k.vtag k.core f.vtag0 f.n (reports.flatMap (·.merged))
  let s := s.updBlock b fun k => { k with fork := none }
  (s.raiseIn b f.tid r.flags).joinDone b f.tid r.lost

/-! ## Ending views (R115, R135) -/

/-- Every task that runs in a discarded view, or that such a task created, ended; its handle breaks with this code and
reason (R115, R135). -/
def State.endTasks (s : State) (inside : Nat → Bool) (code : Byte) (reason : BitVec 2) : State :=
  s.grids.foldl (fun s e =>
    match e.2.task with
    | none => s
    | some t => if s.viewWithin inside (nestFuel + 1) t.vtag && !t.failed then s.failTask e.1 code reason else s) s

/-- The handles that blocks satisfying a test created break (R115, R135). -/
def State.breakHandlesOf (s : State) (t : Nat) (p : Nat → Sluice → Bool) (code : Byte) (reason : BitVec 2) : State :=
  (s.tenant t).sluice.foldl (fun s e =>
    if e.2.st != .free && !e.2.done && p e.1 e.2 then
      s.breakHandle chainFuel (mkHandle s.fabric.devid e.1 e.2.gen t) code 0 reason else s) s

/-- The views that lie within some views, these among them. -/
def State.viewsWithin (s : State) (inside : Nat → Bool) : List Nat :=
  (s.views.map (·.1)).filter fun v => s.viewWithin inside (nestFuel + 1) v

/-- The other devices on which some views, or views within them, may hold slots. -/
def State.farWithin (s : State) (inside : Nat → Bool) : List Nat := dedup ((s.viewsWithin inside).flatMap fun v => s.farOf v 1)

/-- The views of a run and all within them, freed; the devices on which they may hold slots are told. -/
def State.freeRun (s : State) (t : Nat) (inside : Nat → Bool) : State :=
  let vs := s.viewsWithin inside
  vs.foldl (fun s v => s.freeView v) (s.noteAll (s.farWithin inside) (.drop (BitVec.ofNat 6 t) vs))

/-- Views of another device freed here with those within them (R103, R115). -/
def State.dropFar (s : State) (t : Nat) (vs : List Nat) : State :=
  let s := s.freeRun t fun v => vs.contains v
  { s with
    slots := s.slots.filter fun x => !(x.tenant == t && vs.contains x.vtag)
    fabric := { s.fabric with slotWait := s.fabric.slotWait.filter fun m =>
      !(m.2.tenant.toNat == t && vs.contains ((msgChain m.2).headD 0)) } }.resumeChildren t none

/-- The code and the reason with which the handles of ended views break: of a squash 0 and 2, of a drop TRAP and 1 (R115, R135). -/
def endCode (squash : Bool) : Byte × BitVec 2 := if squash then (0, 2) else (BitVec.ofNat 8 cTRAP, 1)

/-- The tasks in some views and in views within them end, with the handles that such blocks created, here and on the other devices
where they may be (R115 step 2). -/
def State.endViews (s : State) (t : Nat) (inside : Nat → Bool) (squash : Bool) : State :=
  let s := s.noteAll (s.farWithin inside) (.ends (BitVec.ofNat 6 t) (s.viewsWithin inside) squash)
  let s := s.endTasks inside (endCode squash).1 (endCode squash).2
  s.breakHandlesOf t (fun _ e => s.viewWithin inside (nestFuel + 1) e.vtag) (endCode squash).1 (endCode squash).2

/-- Steps 1 and 2 of R115 on a fork: no more children start, the running ones stop, and the tasks and handles of the
views end. -/
def State.dropFork (s : State) (b : Nat) (f : Fork) (squash : Bool) : State :=
  let inside := fun v => decide (f.vtag0 ≤ v ∧ v < f.vtag0 + f.n)
  let kids := s.childrenOf b
  let s := s.updBlock b fun k => { k with fork := some { f with next := f.n, dropping := true } }
  let s := kids.foldl (fun s c => s.stopBlock nestFuel c) s
  s.endViews (s.tenantOf b) inside squash

/-- The tasks of another device's views end here, with those of the views within them, and the devices further on are told (R115
step 2). -/
def State.endFar (s : State) (src : BitVec 10) (t : BitVec 6) (vs : List Nat) (squash : Bool) : State :=
  if s.fabric.drops.contains (src, t, vs) then s
  else
    let s := s.endViews t.toNat (fun v => vs.contains v) squash
    { s with fabric := { s.fabric with drops := s.fabric.drops ++ [(src, t, vs)] } }

/-- Whether the blocks that stand in some views, or in views within them, have drained (R115 step 3). -/
def State.viewsDrained (s : State) (inside : Nat → Bool) (p : Nat → Bool) : Bool :=
  s.blocks.all fun e => p e.1 || !(s.viewWithin inside (nestFuel + 1) e.2.vtag) || !s.busy e.1

/-- Whether some devices are all among those that have told. -/
def told (ended : List (BitVec 10)) (ds : List Nat) : Bool := ds.all fun d => ended.any fun e => e.toNat == d

/-- Whether a dropped fork's children and ended tasks have drained, here and on the other devices that have told so (R115
step 3). -/
def State.dropDrained (s : State) (b : Nat) (f : Fork) (ended : List (BitVec 10)) : Bool :=
  let inside := fun v => decide (f.vtag0 ≤ v ∧ v < f.vtag0 + f.n)
  s.viewsDrained inside (· == b) && told ended (s.farWithin inside)

/-- Another device's views have drained here and further on: that device is told (R115 step 3). -/
def State.endedFar (s : State) (src : BitVec 10) (t : BitVec 6) (vs : List Nat) (ended : List (BitVec 10)) : State :=
  let inside := fun v => vs.contains v
  if !(s.viewsDrained inside fun _ => false) || !told ended (s.farWithin inside) then s
  else { s.note src.toNat (.ended t vs) with
    fabric := { (s.note src.toNat (.ended t vs)).fabric with drops := s.fabric.drops.filter fun x => x != (src, t, vs) } }

/-- The blocks that stood in discarded views, gone. -/
def State.removeBlocks (s : State) (p : Nat → Block → Bool) : State :=
  let gone := (s.blocks.filter fun e => p e.1 e.2).map (·.1)
  let s := gone.foldl (fun s b => s.unfileBlock b) s
  { s with blocks := s.blocks.filter fun e => !gone.contains e.1
           clusters := (s.clusters.map fun c => (c.1, { c.2 with members := c.2.members.filter fun m => !gone.contains m })).filter
             fun c => !c.2.members.isEmpty }

/-- Steps 3 to 5 of R115 on a block's fork. -/
def State.dropOwn (s : State) (b : Nat) (k : Block) (f : Fork) : State :=
  let inside := fun v => decide (f.vtag0 ≤ v ∧ v < f.vtag0 + f.n)
  let s := s.removeBlocks fun i x => i != b && x.parent.isSome && s.viewWithin inside (nestFuel + 1) x.vtag
  let s := (s.freeRun k.tenant inside).resumeChildren k.tenant (some k.grid)
  let s := s.updBlock b fun k => { k with fork := none }
  if s.dl0 b && (s.thread b f.tid).status == .waiting .vdrop then s.leaveWait b f.tid else s

/-! ## Deadlock of the pool (R118) -/

/-- Whether an unfinished child is stuck: suspended for slots, or its forking thread waits at a JOIN for children that
are all stuck. A child that has not been dispatched is not (log 32). -/
def State.stuck (s : State) : Nat → Nat → Bool
  | 0, _ => false
  | fuel + 1, b =>
    match s.block? b with
    | none => true
    | some k =>
      (match k.state with | .noSlots _ => k.granted.isNone | _ => false)
      || (match k.fork with
        | none => false
        | some f => (k.thread f.tid).status == .waiting .join && !(k.thread f.tid).hm && !f.dropping && !f.ready && f.next == f.n
            && (s.childrenOf b).all fun c => s.stuck fuel c)

/-- The blocks of a tenant with an open fork, the oldest fork first. -/
def State.openForks (s : State) (t : Nat) : List (Nat × Block × Fork) :=
  sortBy (fun a b => decide (a.2.2.order < b.2.2.order))
    (s.blocks.filterMap fun e => if e.2.tenant == t then e.2.fork.map fun f => (e.1, e.2, f) else none)

/-- Whether a join is in progress: its forking thread waits at the JOIN, and every child has finished (R107). -/
def State.joining (s : State) (b : Nat) (k : Block) (f : Fork) : Bool :=
  f.next == f.n && (k.thread f.tid).status == .waiting .join && !(k.thread f.tid).hm && (s.childrenOf b).all fun c => s.childDone c

/-- Whether the tenant is deadlocked on its pool (R118). -/
def State.poolDeadlock (s : State) (t : Nat) : Bool :=
  let kids := s.blocks.filter fun e => e.2.tenant == t && e.2.parent.isSome && !s.childDone e.1
  !(s.openForks t).isEmpty && !kids.isEmpty && kids.all (fun e => s.stuck nestFuel e.1)
  && (s.openForks t).all (fun x => !x.2.2.dropping && !s.joining x.1 x.2.1 x.2.2 && x.2.2.next == x.2.2.n)
  && s.blocks.all (fun e => e.2.tenant != t || e.2.specs.all fun v => v.verdict != .fail)
  && !((s.tenant t).fq.opened.any fun o => o.record.code == BitVec.ofNat 8 cVIEWPOOL && o.record.cause == 1)

/-- VIEWPOOL_DEADLOCK: the record of R118, of the suspending kind, with no thread on it. INUSE is that of the device which homes
the first suspended write. -/
def execViewpoolDeadlock (t : BitVec 6) (s : State) : Out :=
  .next (if !s.poolDeadlock t.toNat then s
    else match s.openForks t.toNat with
      | [] => s
      | (b, k, f) :: _ =>
        let first := (sortBy (fun (x y : Nat × Option Nat) => decide (x.1 < y.1)) (s.blocks.filterMap fun e =>
          if e.2.tenant == t.toNat then e.2.lackSince.map fun c => (c, e.2.lackUse) else none)).head?
        let nsusp := min 0xFFFF (s.blocks.filter fun e => e.2.tenant == t.toNat && (match e.2.state with | .noSlots _ => true | _ => false)).length
        let r := { s.trapRecord b f.tid f.pc { Trap.of cVIEWPOOL 1 with
          aux0 := f.vtag0 % 2 ^ 26 + nsusp * 2 ^ 32, aux1 := (first.bind (·.2)).getD (s.slotsUsed t.toNat) } with count := 0, thread := BitVec.ofNat 11 f.tid, block := k.bid }
        let (n, s) := s.takeSeq t.toNat
        let r := { r with seq := n }
        let s := s.updTenant t.toNat fun x => { x with fq := { x.fq with opened := x.fq.opened ++ [⟨r, false, false, []⟩] } }
        s.postRecord t.toNat true r)

end Sys2Proof.Machine
end

