-- ==== Sys2Proof/Machine/Spec.lean ====
section
/-! DEFINITION. Speculative tiles: the record, prediction, check, commit and squash (R129-R136, R271, R272). -/

namespace Sys2Proof.Machine

/-! ## The record (R130) -/

/-- Whether a tolerance is acceptable: a finite binary32 value not below zero; −0 acts as +0. -/
def toleranceOk (w : Word) : Bool :=
  match fp32.decode w.toNat with
  | .fin neg n _ => !neg || n == 0
  | _ => false

/-- The speculation record of an octet; none where it is malformed but for its pages (R130). -/
def parseSpec (ws : List Word) : Option SpecRec :=
  let v := wordsToNat ws
  let size := match fmtOfNat (bitsAt v 88 4) with | some f => fmtSize f | none => 1
  let fmtOk := decide (5 ≤ bitsAt v 88 4 ∧ bitsAt v 88 4 ≤ 8)
  let rows := bitsAt v 64 12
  let cols := bitsAt v 76 12
  let pitch := bitsAt v 96 32
  let bad :=
    bitsAt v 53 11 != 0 || bitAt v 95 || bitsAt v 0 53 % 128 != 0 || !fmtOk || bitsAt v 92 2 == 3
    || decide (2 ^ 18 < (rows + 1) * (cols + 1) * size) || pitch % size != 0 || decide (pitch < (cols + 1) * size)
    || !toleranceOk (BitVec.ofNat 32 (bitsAt v 192 32)) || !toleranceOk (BitVec.ofNat 32 (bitsAt v 224 32))
    || (bitAt v 94 && bitsAt v 151 41 != 0)
  if bad then none
  else some {
    taddr := bitsAt v 0 53, rows := rows, cols := cols, fmt := (fmtOfNat (bitsAt v 88 4)).getD .fp32
    pred := bitsAt v 92 2, donek := bitAt v 94, pitch := pitch, done := BitVec.ofNat 64 (bitsAt v 128 64)
    abs := BitVec.ofNat 32 (bitsAt v 192 32), rel := BitVec.ofNat 32 (bitsAt v 224 32) }

/-- The bytes of a tile's elements, b (R131). -/
def SpecRec.bytes (r : SpecRec) : Nat := (r.rows + 1) * (r.cols + 1) * fmtSize r.fmt

/-- The sector pieces of a tile's rows. -/
def SpecRec.pieces (r : SpecRec) : List (Nat × Nat) :=
  (List.range (r.rows + 1)).flatMap fun j =>
    (sectorPieces (r.taddr + j * r.pitch) ((r.cols + 1) * fmtSize r.fmt)).map fun p => (p.1, p.2.1)

/-- The fault of a tile's pages, of which those on other devices have answered for themselves to thread `low`: of translation, or
OPERAND, cause 5 for a FMT other than 0 or the record's (R38, R130). -/
def State.specPages (s : State) (b low : Nat) (r : SpecRec) : Option Trap :=
  r.pieces.findSome? fun p => match s.laneXlate b low p.1 .rd, (s.thread b low).refused p.1 with
    | .error e, _ => some (Trap.ofXlate e 0 p.1)
    | .ok x, 0 => if x.leaf.fmt == .bytes || x.leaf.fmt == r.fmt then none else some { Trap.of cOPERAND 5 with addr := p.1 }
    | .ok _, e => some (Trap.ofXlate (e / 256, e % 256) 0 p.1)

/-- The bytes of a tile at an address that another device has sent for a view. -/
def Block.tileBytes (k : Block) (v : Nat) (p : Nat × Nat) : Option (List Byte) :=
  (k.tile.find? fun e => e.1 == v && e.2.1 == p.1 && e.2.2.length == p.2).map (·.2.2)

/-- The tile as a view reads it, element bytes only (R105, R131, R132). A byte that can no longer be read is free. -/
def State.readTile (s : State) (k : Block) (v : Nat) (r : SpecRec) : State × List Byte :=
  r.pieces.foldl (fun (acc : State × List Byte) p =>
    let (s, bs) := acc
    match s.xlate k.core k.tenant p.1 .rd with
    | .error _ => (s.tick, bs ++ s.freeBytes p.2)
    | .ok x =>
      match x.home with
      | .remote _ _ => (match k.tileBytes v p with
        | some piece => (s, bs ++ piece)
        | none => (s.tick, bs ++ s.freeBytes p.2))
      | h =>
        match s.lostHome h p.2 with
        | some _ => (s.tick, bs ++ s.freeBytes p.2)
        | none =>
          let s := if v = 0 then (s.syncSector k.core k.tenant p.1).flushAt h p.2 else s
          (s, bs ++ s.readIn k.tenant v p.1 h p.2)) (s, [])

/-- Bytes of a tile that have come from another device, or that no way brings. -/
def State.putTile (s : State) (b v va : Nat) (bs : List Byte) : State :=
  s.updBlock b fun k => { k with tile := k.tile ++ [(v, va, bs)] }

/-- A thread is told of a page on another device: its attributes, and how the device refuses an access there. -/
def State.tellPage (s : State) (b tid va : Nat) (l : Leaf) (refused : Nat) : State :=
  s.updThread b tid fun th => { th with pages := th.pages ++ [(va, l, refused)] }

/-- A refusal as a thread is told of it. -/
def refusal (e : Err) : Nat := 256 * e.1 + e.2

/-- Something of a tile asked of the device that homes it, unless it has been asked already (R38, R105, R130, R132). Where no route
leads there the page is refused with INTEG, and a byte is free (R33). -/
def State.askTile (s : State) (k : Block) (d a b tid v va n : Nat) (test : Bool) : State :=
  let what := RemoteFor.tile b tid v va n test
  if s.fabric.remotes.any fun r => r.what == what then s
  else
    let opw := BitVec.ofNat 64 (if test then 0 else n * 2 ^ 16)
    match s.request k.tenant 0x01 d 0 a opw (if test then 0 else s.chainInl v) [] what with
    | (s, true) => s
    | (s, false) =>
      if test then s.tellPage b tid va (remoteLeaf va) (refusal (cINTEG, 3)) else s.tick.putTile b v va (s.freeBytes n)

/-- The pages of a tile asked of the devices that home them, on behalf of its lowest participant. -/
def State.askTilePages (s : State) (b low : Nat) (r : SpecRec) : State :=
  r.pieces.foldl (fun s p => match s.untested b low p.1 .rd, s.block? b with
    | some (d, a), some k => s.askTile k d a b low 0 (p.1 / 2 ^ 17 * 2 ^ 17) 0 true
    | _, _ => s) s

/-- The bytes of a tile that lie on other devices asked of them, as a view reads them. -/
def State.askTileBytes (s : State) (b low v : Nat) (r : SpecRec) : State :=
  r.pieces.foldl (fun s p => match s.block? b with
    | none => s
    | some k => match s.xlate k.core k.tenant p.1 .rd with
      | .ok x => (match x.home with
        | .remote d a => if (k.tileBytes v p).isSome then s else s.askTile k d a b low v p.1 p.2 false
        | _ => s)
      | .error _ => s) s

/-- Whether a block's collective waits for other devices to tell of a tile. -/
def State.tileWaits (s : State) (b : Nat) : Bool :=
  s.fabric.remotes.any fun r => match r.what with | .tile b' _ _ _ _ _ => b' == b | _ => false

/-- Whether the done condition of a record holds (R130). -/
def State.specDone (s : State) (b : Nat) (r : SpecRec) : Bool :=
  match s.block? b with
  | none => false
  | some k =>
    if r.donek then tbPhase (s.tbGet b (bitsAt r.done.toNat 0 19)) != bitsAt r.done.toNat 19 4
    else decide (r.done.toNat / 8 * 8 ≤ (k.tlc (r.done.toNat % 8)).toNat)

/-! ## Prediction and tolerance (R132, R133) -/

/-- A predicted value that is a version as it stands, with a NaN quietened. -/
def quietened (f : FpFmt) (v : Nat) : Nat := match f.nanOf [v] with | some r => r.1 | none => v

/-- One predicted element, computed exactly and rounded once RN. -/
def predictElem (f : FpFmt) (pred v1 v2 : Nat) : Nat :=
  if pred = 0 then quietened f v1
  else match f.nanOf [v1, v2] with
    | some r => r.1
    | none =>
      match f.decode v1, f.decode v2 with
      | .fin a n d, .fin b m e =>
        if pred = 1 then (f.ofFV 0 (sumFin 0 a (2 * n) d (!b) m e)).1
        else
          match sumFin 0 a n d (!b) m e with
          | .fin c p q => (f.ofFV 0 (sumFin 0 a n d c p (2 * q))).1
          | _ => f.qnan
      | .inf a, .fin _ _ _ => f.withSign a f.infBits
      | .fin _ _ _, .inf b => f.withSign (!b) f.infBits
      | .inf a, .inf b => if a = b then f.qnan else f.withSign a f.infBits
      | _, _ => f.qnan

/-- PREDICT on a tile's bytes: with one version, that version. -/
def predictTile (r : SpecRec) (versions : List (List Byte)) : List Byte :=
  let n := fmtSize r.fmt
  match versions with
  | [] => []
  | v1 :: rest =>
    (List.range ((r.rows + 1) * (r.cols + 1))).flatMap fun e =>
      natToBytes n (match rest with
        | v2 :: _ => predictElem (fpOf r.fmt) r.pred (elemAt v1 n e) (elemAt v2 n e)
        | [] => quietened (fpOf r.fmt) (elemAt v1 n e))

/-- The test of one element: equal bits pass; otherwise |p − r| ≤ ABS + REL · |r| on finite values (R133). -/
def withinElem (f : FpFmt) (abs rel : Word) (p r : Nat) : Bool :=
  p == r || (match f.decode p, f.decode r, fp32.decode abs.toNat, fp32.decode rel.toNat with
    | .fin a n d, .fin b m e, .fin _ an ad, .fin _ rn rd =>
      let diff := addQ (signed a n, d) (signed (!b) m, e)
      -- |diff| ≤ an/ad + rn/rd · m/e
      let bound := addQ ((an : Int), ad) ((rn * m : Nat), rd * e)
      decide (diff.1.natAbs * bound.2 ≤ bound.1.natAbs * diff.2)
    | _, _, _, _ => false)

def withinTile (r : SpecRec) (p real : List Byte) : Bool :=
  let n := fmtSize r.fmt
  (List.range ((r.rows + 1) * (r.cols + 1))).all fun e =>
    withinElem (fpOf r.fmt) r.abs r.rel (elemAt p n e) (elemAt real n e)

/-! ## The history (R131) -/

def SpecRec.key (r : SpecRec) (t : Nat) (gid : Dword) : TileKey := ⟨t, gid, r.taddr, r.rows, r.cols, r.pitch, r.fmt⟩

def State.history (s : State) (k : TileKey) : Option Fantail := s.fantail.find? fun f => f.key == k

/-- "Record r": v₂ := v₁, v₁ := r. -/
def State.recordTile (s : State) (k : TileKey) (r : List Byte) : State :=
  { s with fantail := s.fantail.map fun f => if f.key == k then { f with versions := (r :: f.versions).take 2 } else f }

/-- The Millpond slots of one version (R131), and of a checkpoint (R134). -/
def versionSlots (r : SpecRec) : Nat := divUp r.bytes 256

def checkpointSlots (n : Kernel) : Nat :=
  divUp (4 * n.totalCharge + 128 * n.threads + (roundUp n.scratch 256 - 16 * n.tbars) + 16 * 1024) 256

/-- Whether a tenant has room for more slots. -/
def State.slotRoom (s : State) (t n : Nat) : Bool := decide (s.slotsUsed t + n ≤ s.slotShare t)

/-- How many more slots a version takes: none once the tile holds two. -/
def State.versionNeed (s : State) (k : TileKey) (r : SpecRec) : Nat :=
  match s.history k with
  | some f => if 2 ≤ f.versions.length then 0 else versionSlots r
  | none => versionSlots r

/-! ## SPEC once every participant has arrived (R132, R271) -/

/-- The threads of a block that take part in a collective: those that have not exited (R261). -/
def Block.live (k : Block) : List Nat := (List.range k.T).filter fun t => !(k.thread t).exited

/-- The record octet of the lowest participant, where every participant waits at a SPEC. -/
def Block.specArrived (k : Block) : Option (List Word) :=
  let ws := k.live.map fun t => match (k.thread t).status with | .waiting (.spec o) => some o | _ => none
  match ws with
  | some o :: _ => if ws.all Option.isSome then some o else none
  | _ => none

/-- Whether every participant waits at a SPECEND. -/
def Block.specendArrived (k : Block) : Bool :=
  !k.live.isEmpty && k.live.all fun t => (k.thread t).status == .waiting .specend

/-- The arrivals at a SPEC or a SPECEND and what the block waits for there, withdrawn. -/
def Block.endCollective (k : Block) : Block :=
  { k with specBar := Barrier.empty, specendBar := Barrier.empty, specWait := none, specSlot := none, tile := [] }

/-- Every participant takes a trap at the collective it waits at; the arrivals are withdrawn. -/
def State.trapAll (s : State) (b : Nat) (t : Trap) : State :=
  match s.block? b with
  | none => s
  | some k =>
    let s := s.updBlock b Block.endCollective
    k.live.foldl (fun s tid => s.trapWaiting b tid t) s

/-- Every participant passes the collective. -/
def State.passAll (s : State) (b : Nat) : State :=
  match s.block? b with
  | none => s
  | some k =>
    let s := s.updBlock b Block.endCollective
    k.live.foldl (fun s tid => s.leaveWait b tid) s

/-- The refusals of R129 and R271 that do not depend on a Fantail slot being granted, in order. -/
def State.specRefusal (s : State) (k : Block) (g : Grid) (b : Nat) (octet : List Word) : Option Trap :=
  if g.kernel.cluster > 1 && k.parent.isNone then some (Trap.of cSPECDEPTH 6)
  else if 8 ≤ s.viewDepth k.vtag then some (Trap.of cVIEWPOOL 3)
  else match parseSpec octet with
    | none => some (Trap.of cOPERAND 5)
    | some r => s.specPages b (k.live.headD 0) r

/-- Whether a SPEC has its Fantail slot or can take one (R131). -/
def State.fantailRoom (s : State) (key : TileKey) : Bool := (s.history key).isSome || decide (s.fantail.length < 1024)

/-- A block suspended for want of Millpond slots (R116, R131); one that is so already stays in its place. -/
def State.suspendSpec (s : State) (b : Nat) : State :=
  s.updBlock b fun k => match k.state with | .noSlots _ => k | _ => k.lack s.cycle

/-- Whether a bin is one of a block's BOLT records. -/
def Bin.boltOf (b : Nat) (n : Bin) : Bool := match n.key with | .bolt b' _ _ => b' == b | .pc .. => false

/-- The checkpoint of a block at its SPEC (R134). Its threads all wait there, so that no quad of it stands in a bin. -/
def State.checkpoint (s : State) (k : Block) (b slots : Nat) : Checkpoint :=
  { threads := k.threads, quads := k.quads, bolts := (s.core k.core).bolts.filter fun r => r.block == b
    bins := (s.core k.core).bins.filter (Bin.boltOf b)
    scratch := k.scratch, slots := slots }

/-- The procedure of R132 from a well-formed record, with its Fantail slot. A block that waits for the done condition has
found the history empty, and runs on non-speculatively whatever other blocks have recorded since. -/
def State.specRun (s : State) (b : Nat) (k : Block) (g : Grid) (r : SpecRec) (key : TileKey) : State :=
  let versions := match s.history key with | some f => f.versions | none => []
  let real := fun (s : State) => s.readTile k k.vtag r
  let done := s.specDone b r
  if versions.isEmpty || k.specWait.isSome || (g.dl == 0 && done) then
    if !done then s.updBlock b fun k => { k with specWait := some r }
    else if !s.slotRoom k.tenant (s.versionNeed key r) then s.suspendSpec b
    else
      let s := if versions.isEmpty || k.specWait.isSome then s else s.gridEvent k.grid 0x06 (match k.live with
        | t :: _ => s.pcOf b t
        | [] => 0)
      let (s, bs) := real s
      (s.recordTile key bs).passAll b
  else match s.freeVids 1 with
    | none => s.trapAll b (Trap.of cVIEWPOOL 2)
    | some vid =>
      let n := checkpointSlots g.kernel
      if !s.slotRoom k.tenant n then s.suspendSpec b
      else
        let v := s.fabric.devid.toNat * 2 ^ 16 + vid
        let view : SpecView := ⟨v, r, predictTile r versions, .none, s.checkpoint k b n, [], false, []⟩
        -- the block's earlier stores stand at their homes, where the view reads them (R105)
        let s := (s.flushCore k.core).openViews k.tenant k.vtag b v 1 true
        let s := s.updBlock b fun k => { k with vtag := v, specs := view :: k.specs }
        s.passAll b

/-- What a SPEC asks of other devices: about the pages of its tile, and then, where it runs non-speculatively, for the bytes. -/
def State.askSpec (s : State) (b : Nat) (octet : List Word) : State :=
  match s.block? b, s.gridOf b, parseSpec octet with
  | some k, some g, some r =>
    let s := s.askTilePages b (k.live.headD 0) r
    let first := match s.history (r.key k.tenant g.gid) with | some f => f.versions.isEmpty | none => true
    if s.tileWaits b || (s.specPages b (k.live.headD 0) r).isSome then s
    else if (first || k.specWait.isSome || g.dl == 0) && s.specDone b r then s.askTileBytes b (k.live.headD 0) k.vtag r
    else s
  | _, _, _ => s

/-- SPEC for a block whose participants have all arrived, and whose pending results have been written (log 24). Only the views
that the block itself has opened count against the 4 of cause 1, not those of a block that forked it (DESIGN CHOICE, log 89). The
devices that home pages of the tile are asked first. -/
def State.specStep (s : State) (b : Nat) (octet : List Word) : State :=
  match s.block? b, s.gridOf b with
  | some k, some g =>
    if s.pending.any (fun p => p.block == b) || k.state != .running then s
    else if 4 ≤ k.specs.length then s.trapAll b (Trap.of cSPECDEPTH 1)
    else
      let key := match parseSpec octet with | some r => some (r.key k.tenant g.gid) | none => none
      let room := match key with | some x => s.fantailRoom x | none => true
      if !room then s.updBlock b fun k => { k with specSlot := some (k.specSlot.getD (s.deadline b k.sto)) }
      else
        -- while the block waits for the done condition of its first version, the refusals have been passed
        let s := s.askSpec b octet
        if s.tileWaits b then s
        else match (if k.specWait.isSome then none else s.specRefusal k g b octet) with
          | some t => s.trapAll b t
          | none =>
            match parseSpec octet, key with
            | some r, some key =>
              let s := if (s.history key).isSome then s else { s with fantail := s.fantail ++ [⟨key, []⟩] }
              s.specRun b ((s.block? b).getD k) g r key
            | _, _ => s
  | _, _ => s

/-- Whether a SPEC has been granted no Fantail slot within %sto cycles (R129, R131). -/
def State.specSlotExpired (s : State) (b : Nat) : Bool :=
  match s.block? b with
  | none => false
  | some k => match k.specSlot with
    | none => false
    | some due => k.specArrived.isSome && s.expired b due

def State.specSlotStep (s : State) (b : Nat) : State :=
  if s.specSlotExpired b then s.trapAll b (Trap.of cSPECDEPTH 2) else s

/-- SPEC_SLOT_TIMEOUT: at DL1 and above the timer is tested at the boundary (R227). -/
def execSpecSlotTimeout (b : Nat) (s : State) : Out := .next (if s.dl0 b then s.specSlotStep b else s)

/-! ## The check (R133) -/

/-- The views of a block whose done conditions hold and that have no verdict, checked from the innermost outward; each
records its real tile, for which the block waits while the share lacks slots (R131, R133). `n` is the number of views inside the one at hand. -/
def State.checkViews (s : State) (b : Nat) : Nat → Nat → State
  | 0, _ => s
  | fuel + 1, n =>
    match s.block? b, s.gridOf b with
    | some k, some g =>
      match k.specs[n]? with
      | none => s
      | some w =>
        let next := fun (s : State) => s.checkViews b fuel (n + 1)
        if w.verdict != .none || !s.specDone b w.record then next s
        else if !s.slotRoom k.tenant (s.versionNeed (w.record.key k.tenant g.gid) w.record) then s.suspendSpec b
        else
          let parent := match Sparse.find s.views w.vtag with | some v => v.parent | none => 0
          let (s, real) := s.readTile k parent w.record
          let ok := withinTile w.record w.predicted real
          let key := w.record.key k.tenant g.gid
          let s := s.recordTile key real
          next (s.updBlock b fun k => { k with tile := k.tile.filter fun e => e.1 != parent, specs := k.specs.map fun x =>
            if x.vtag == w.vtag then { x with verdict := if ok then .pass else .fail } else x })
    | _, _ => s

/-- The bytes of the tiles that a block's check is about to read asked of the devices that home them. -/
def State.askCheck (s : State) (b : Nat) : State :=
  match s.block? b with
  | none => s
  | some k => k.specs.foldl (fun s w =>
      if w.verdict != .none || !s.specDone b w.record then s
      else s.askTileBytes b (k.live.headD 0) (match Sparse.find s.views w.vtag with | some v => v.parent | none => 0) w.record) s

/-- Whether some view of a block has a done condition to be observed. One that is suspended for slots is checked too, for the
check may end in a squash, which frees them (R116, R133). -/
def State.specPending (s : State) (b : Nat) : Bool :=
  match s.block? b with
  | none => false
  | some k => (match k.state with | .running | .noSlots _ => true | _ => false)
      && k.specs.any fun w => w.verdict == .none && s.specDone b w.record

/-- The outermost failed view of a block, and the views inside it, innermost first. -/
def Block.failed (k : Block) : Option (SpecView × List SpecView) :=
  let rec go : List SpecView → List SpecView → Option (SpecView × List SpecView)
    | [], _ => none
    | w :: rest, inner =>
      match go rest (inner ++ [w]) with
      | some r => some r
      | none => if w.verdict == .fail then some (w, inner) else none
  go k.specs []

/-- The Sluice slot of a held invocation. -/
def OutEff.slot? : OutEff → Option Nat
  | .invoke _ slot _ _ _ _ | .invokeOn _ slot _ _ _ _ => some slot
  | .store .. | .interrupt _ => none

/-- The first half of a squash: everything derived from the view ends. Forks inside it are dropped, tasks in its views
end, the outboxes go, and HELD handles break with reason 2 (R135). -/
def State.squashStart (s : State) (b : Nat) (w : SpecView) (inner : List SpecView) : State :=
  let inside := fun v => v == w.vtag || inner.any fun x => x.vtag == v
  let s := match s.block? b with
    | none => s
    | some k => match k.fork with
      | none => s
      | some f => if s.viewWithin inside (nestFuel + 1) f.vtag0 then s.dropFork b f true else s
  let t := s.tenantOf b
  let s := s.endViews t inside true
  let held := (w :: inner).flatMap fun x => x.outbox.filterMap OutEff.slot?
  let s := s.breakHandlesOf t (fun slot e => held.contains slot && e.st == .held) 0 2
  s.updBlock b fun k => { k with specs := k.specs.map fun x => if inside x.vtag then { x with outbox := [] } else x }

/-- SPEC_CHECK at DL0, once other devices have sent what they home of the tiles; at DL1 and above the check is made at a
boundary (R133). -/
def State.specCheck (s : State) (b : Nat) : State :=
  let s := s.askCheck b
  if s.tileWaits b then s
  else
    let s := s.checkViews b 5 0
    match (s.block? b).bind Block.failed with
    | none => s
    | some (w, inner) => s.squashStart b w inner

def execSpecCheck (b : Nat) (s : State) : Out :=
  .next (if s.specPending b && s.dl0 b then s.specCheck b else s)

/-! ## Squash (R135) -/

/-- Bytes of the barrier region from one scratchpad, the rest from another (R134). -/
def keepBarriers (tbars : Nat) (now saved : Memory) : Memory :=
  Memory.write saved 0 (Memory.read now 0 (16 * tbars))

/-- A thread returned to the checkpoint: its counts and its random number counter are not rolled back (R135, R356). -/
def Thread.restored (th saved : Thread) : Thread :=
  { saved with retired := th.retired, turnRetired := th.turnRetired, rngCtr := th.rngCtr, forks := th.forks }

/-- A BOLT bin reinstated: under its number where that is free, otherwise under another one (R135, R143). -/
def Core.putBin (c : Core) (n : Bin) : Core :=
  let no := if c.bins.any fun x => x.no == n.no then c.freeBin else n.no
  if no == 255 then c else { c with bins := c.bins ++ [{ n with no := no }] }

/-- The second half of a squash: the views go, the checkpoint is restored, the bins and quads are filed anew, and the
block passes its SPEC, which runs non-speculatively (R135). -/
def State.restore (s : State) (b : Nat) (w : SpecView) (inner : List SpecView) : State :=
  match s.block? b with
  | none => s
  | some k =>
    let inside := fun v => v == w.vtag || inner.any fun x => x.vtag == v
    let parent := match Sparse.find s.views w.vtag with | some v => v.parent | none => 0
    let s := s.removeBlocks fun i x => i != b && x.parent.isSome && s.viewWithin inside (nestFuel + 1) x.vtag
    let s := (s.freeRun k.tenant inside).dropFromRecords k.tenant fun b' _ => b' == b
    let s := { s with pending := s.pending.filter fun p => p.block != b }
    let s := s.unfileBlock b
    let tbars := match s.kernelOf b with | some n => n.tbars | none => 0
    let ck := w.checkpoint
    let s := s.updBlock b fun k => { k with
      threads := ck.threads.zipIdx.map fun e => (k.thread e.2).restored e.1
      scratch := keepBarriers tbars k.scratch ck.scratch
      quads := ck.quads.map fun e => (e.1, { e.2 with place := .gone })
      vtag := parent
      fork := k.fork.bind fun f => if f.dropping then none else some f
      specs := k.specs.filter fun x => !inside x.vtag
      bars := [], rwaits := [], lackSince := none, granted := none, lackUse := none
      state := match k.state with | .noSlots _ => .running | x => x }
    let s := s.updCluster k.cluster fun c => if c.members.length ≤ 1 then { c with cbars := [] } else c
    let s := s.updCore k.core fun c => ck.bins.foldl Core.putBin { c with bolts := c.bolts ++ ck.bolts }
    (s.passAll b).resumeChildren k.tenant (some k.grid)

/-- Whether a squashed block has drained: its engine operations and those of everything it dropped, on other devices too, which
have told so (R115, R135). -/
def State.squashDrained (s : State) (b : Nat) (w : SpecView) (inner : List SpecView) : Bool :=
  let inside := fun v => v == w.vtag || inner.any fun x => x.vtag == v
  !s.busy b && (w.asked || (s.farWithin inside).isEmpty) && s.blocks.all fun e => e.1 == b || !(s.viewWithin inside (nestFuel + 1) e.2.vtag) || !s.busy e.1

def State.restoreStep (s : State) (b : Nat) : State :=
  match (s.block? b).bind Block.failed with
  | none => s
  | some (w, inner) => if s.squashDrained b w inner then s.restore b w inner else s

def execSpecRestore (b : Nat) (s : State) : Out := .next (if s.dl0 b then s.restoreStep b else s)

/-! ## Commit (R135, R136) -/

/-- One held effect performed at commit, in the view that the block is in now. A store whose page no longer allows it is not
performed, and posts the fault (log 72). -/
def State.performHeld (s : State) (b : Nat) (e : OutEff) : State :=
  match s.block? b with
  | none => s
  | some k =>
    match e with
    | .store tid va bs =>
      let pc := s.pcOf b tid
      match s.xlate k.core k.tenant va .wr with
      | .error e => s.postEvent k.tenant (s.trapRecord b tid pc (Trap.ofXlate e 1 va))
      | .ok x =>
        if s.dl0 b && x.leaf.kind != .remote then s.rootStore b tid pc k va x bs ⟨0, false⟩
        else (s.noteWritten k.core k.tenant va).putStore b tid pc 0 va x.home bs
    | .invoke _ slot target kernel args rngD =>
      let h := mkHandle s.fabric.devid slot (s.sluice k.tenant slot).gen k.tenant
      let s := s.updSluice k.tenant slot fun e => { e with st := .unplaced, vtag := k.vtag }
      s.sendInvoke h target kernel args rngD
    | .invokeOn _ slot on_ kernel args rngD =>
      let h := mkHandle s.fabric.devid slot (s.sluice k.tenant slot).gen k.tenant
      let s := s.updSluice k.tenant slot fun e => { e with st := .unplaced, vtag := k.vtag }
      s.sendInvokeOn h on_ kernel args rngD
    | .interrupt _ => s.raiseVector k.tenant 1

/-- The thread whose effect it is. -/
def OutEff.tid : OutEff → Nat
  | .store t _ _ => t
  | .invoke t _ _ _ _ _ => t
  | .invokeOn t _ _ _ _ _ => t
  | .interrupt t => t

/-- The outbox of a committed view: into the enclosing speculative view's, or performed in ascending thread ID and
program order (R136). An outbox that takes in another's may hold more than 256 entries by it: only an instruction that would add
one to a full outbox traps (DESIGN CHOICE, log 90). -/
def State.flushOutbox (s : State) (b : Nat) (out : List OutEff) : State :=
  match s.block? b with
  | none => s
  | some k =>
    match k.specs with
    | w :: rest =>
      -- the handles held by the committed view are held by the enclosing one from now on
      let s := out.foldl (fun s e => match e.slot? with
        | some slot => s.updSluice k.tenant slot fun x => { x with vtag := w.vtag }
        | none => s) s
      s.setBlock b { k with specs := { w with outbox := w.outbox ++ out } :: rest }
    | [] => (sortBy (fun (a b : OutEff) => decide (a.tid < b.tid)) out).foldl (fun s e => s.performHeld b e) s

/-- The check of a passed view's commit has succeeded: the merge, the outbox, and the participants pass (R135, R136). -/
def State.applyCommit (s : State) (b : Nat) (k : Block) (w : SpecView) (rest : List SpecView) (parent : Nat) (r : FarReport) :
    State :=
  let low := k.live.headD 0
  let pc := s.pcOf b low
  let s := if s.dl0 b then (List.range r.outs).foldl (fun s _ => s.gridEvent k.grid 0x04 pc) s else s
  let s := s.applyMerge k.grid k.tenant parent k.core w.vtag 1 (w.reports.flatMap (·.merged))
  let s := s.updBlock b fun k => { k with vtag := parent, specs := rest }
  let s := s.raiseIn b low r.flags
  ((s.flushOutbox b w.outbox).passAll b).resumeChildren k.tenant (some k.grid)

/-- SPECEND on a view that has passed. The other devices that hold slots of it are asked first, as for a join. A fault of
the merge traps at the lowest thread, and the others stay (R107, R135, R272). -/
def State.commitStep (s : State) (b : Nat) : State :=
  match s.block? b, s.gridOf b with
  | some k, some g =>
    match k.specs with
    | [] => s
    | w :: rest =>
      if w.verdict != .pass || !k.specendArrived || s.busy b || s.pending.any (fun p => p.block == b) then s
      else
        let parent := match Sparse.find s.views w.vtag with | some v => v.parent | none => 0
        let far := s.farOf w.vtag 1
        let run := s.farRun k.tenant parent w.vtag 1 (g.dl == 0)
        let asked := fun (s : State) (x : Bool) => s.updBlock b fun k => { k with specs := { w with asked := x } :: rest }
        if !far.isEmpty && !w.asked then asked (s.noteAll far (.check run)) true
        else if !covers w.reports far then s
        else
          let r := w.reports.foldl joinReports (s.runReport k.tenant (s.viewChain nestFuel parent) w.vtag 1)
          match mergeTrap g.dl w.vtag r with
          | some t =>
            let low := k.live.headD 0
            ((asked (s.noteAll far (.abort run)) false).updBlock b fun k => { k with specendBar :=
              { k.specendBar with arrived := k.specendBar.arrived.filter fun e => e.2 != low } }).trapWaiting b low t
          | none => (s.noteAll far (.apply run)).applyCommit b k w rest parent r
  | _, _ => s

/-- SPEC_COMMIT, with the answers of other devices; at DL1 and above the commit is made at a boundary. -/
def execSpecCommit (c : CommitAt) (s : State) : Out :=
  .next (
    let s := if c.reports.isEmpty then s else s.updBlock c.block fun k => { k with specs := match k.specs with
      | w :: rest => { w with reports := c.reports } :: rest
      | [] => [] }
    if s.dl0 c.block then s.commitStep c.block else s)

/-! ## The end of dropped and squashed views (R115, R135) -/

/-- The other devices have told that the tasks of a squashed block's views have ended there. -/
def State.squashTold (s : State) (b : Nat) (ended : List (BitVec 10)) : State :=
  match (s.block? b).bind Block.failed with
  | none => s
  | some (w, inner) =>
    if told ended (s.farWithin fun v => v == w.vtag || inner.any fun x => x.vtag == v) then
      s.updBlock b fun k => { k with specs := k.specs.map fun x => if x.vtag == w.vtag then { x with asked := true } else x }
    else s

/-- VDROP_COMPLETE: a dropped fork whose children have drained ends, or a squash knows that other devices' tasks have; or views
that another device has dropped or squashed end here, and are freed. -/
def execVdropComplete (d : DropAt) (s : State) : Out :=
  .next (match d with
    | .far t vs => s.dropFar t.toNat vs
    | .ends src t vs squash ended => (s.endFar src t vs squash).endedFar src t vs ended
    | .own b ended =>
      let s := s.squashTold b ended
      match s.block? b with
      | none => s
      | some k => match k.fork with
        | none => s
        | some f => if !f.dropping || !s.dropDrained b f ended then s else s.dropOwn b k f)

end Sys2Proof.Machine
end

