-- ==== Sys2Proof/Machine/Waits.lean ====
section
/-! DEFINITION. What ends a wait: barriers, reconvergence, transaction barriers, timelines, handles, slots,
acknowledgements (R86, R125, R150, R261, R268). -/

namespace Sys2Proof.Machine

/-! ## Handles as a waiting thread sees them (R125, R27) -/

/-- What AWAIT and HPOLL find. -/
inductive HView where
  | notReady
  | ready (result : List Word)
  | broken (status : Word)
  deriving DecidableEq, Repr

/-- Whether the unit that holds a Sluice entry is lost (R27). -/
def State.entryLost (s : State) (h : Dword) : Bool :=
  !s.pkg.lost.isEmpty && (s.lostAt (s.reservedBase + Config.sluiceAddr (hTenant h) (hSlot h) % 2 ^ 31)).isSome

/-- What a handle's home finds of it (R125, R120). -/
def State.handleView (s : State) (h : Dword) : HView :=
  let stale := statusWord (BitVec.ofNat 8 cHBROKEN) 0 1
  if s.stale h then .broken stale
  else if s.entryLost h then .broken (statusWord (BitVec.ofNat 8 cINTEG) 0 0)
  else
    let e := s.sluice (hTenant h) (hSlot h)
    match e.st with
    | .ready => .ready e.result
    | .broken => .broken (statusWord e.code e.hops e.reason)
    | _ => .notReady

/-- What an AWAIT finds: at the handle's home the entry, elsewhere what the home has told since it began (R48, R268). -/
def State.awaitView (s : State) (h : Dword) (told : List Word) : HView :=
  if hHome h == s.fabric.devid then s.handleView h
  else match told with
    | [] => .notReady
    | [st] => .broken st
    | ws => .ready ws

/-- What a thread is told of a handle. -/
def HView.words : HView → List Word
  | .notReady => []
  | .ready r => r
  | .broken st => [st]

/-- An entry for what this device will learn of a handle homed elsewhere. -/
def State.know (s : State) (h : Dword) : State :=
  if hHome h == s.fabric.devid || (s.foreign? h).isSome then s
  else { s with foreign := s.foreign ++ [(h, { Sluice.reset with gen := hGen h, st := .unplaced })] }

/-- What a device asks or tells a handle's home: a question, one whose end it wants to be told too, or that the handle is dropped. -/
inductive Asking where
  | poll | await | drop
  deriving DecidableEq, Repr

/-- The bits of an HPL in the other direction that say so (log 8). -/
def Asking.bits : Asking → Nat
  | .poll => 2 ^ 8
  | .await => 2 ^ 8 + 2 ^ 11
  | .drop => 2 ^ 9

/-- A question about a handle, or a notice that it is dropped, for its home (log 8). -/
def askMsg (src : BitVec 10) (h : Dword) (tag : Word) (k : Asking) : Msg :=
  mkMsg 0x12 src (hHome h) (hTenant h) 4 0 tag h (BitVec.ofNat 256 k.bits) []

/-- A thread asks the home of a handle, which answers to this tag; none where no route leads there (R48, R125, R269). -/
def State.askHome (s : State) (h : Dword) (k : Asking) (what : RemoteFor) : Option (State × Word) :=
  let (tag, s) := s.newTag
  let port := (Sparse.get Route.none s.fabric.routes (hHome h).toNat).port
  (s.send (askMsg s.fabric.devid h tag k)).map fun s =>
    ({ s with fabric := { s.fabric with remotes := s.fabric.remotes ++ [⟨tag, hTenant h, hHome h, some port, 0, what⟩] } }, tag)

/-- What a thread finds of a handle whose home no route leads to: broken with INTEG, which is posted (R33, R49). -/
def State.homeless (s : State) (b tid : Nat) (pc : Dword) (h : Dword) : State × HView :=
  (s.postEvent (hTenant h) (s.siteRecord (some ⟨b, tid, pc⟩) cINTEG 3 0 0), .broken (statusWord (BitVec.ofNat 8 cINTEG) 0 0))

/-- A thread that awaits a handle homed elsewhere is told of it. -/
def State.tellAwait (s : State) (b tid : Nat) (h : Dword) (v : HView) : State :=
  s.updThread b tid fun th => match th.status with
    | .waiting (.awaitH h' d pb trap []) => if h' == h then { th with status := .waiting (.awaitH h d pb trap v.words) } else th
    | _ => th

/-- The home tells of a handle: every thread that awaits it, but for those whose own questions are not answered (R48, R268). -/
def State.tellAwaits (s : State) (h : Dword) (v : HView) : State :=
  s.blocks.foldl (fun s e => (List.range e.2.T).foldl (fun s tid =>
    if s.fabric.remotes.any fun r => r.what == .await e.1 tid then s else s.tellAwait e.1 tid h v) s) s

/-- The register that an HPOLL writes (R269). -/
def HView.polled : HView → Word
  | .notReady => 0
  | .ready _ => 1
  | .broken st => 0x80000000 ||| st

/-- The answer to the question of an HPOLL or of an AWAIT. -/
def State.answerAsked (s : State) (tag : Word) (h : Dword) (v : HView) : State :=
  match s.fabric.remotes.find? fun r => r.tag == tag with
  | none => s
  | some r =>
    let s' := { s with fabric := { s.fabric with remotes := s.fabric.remotes.filter fun x => x.tag != tag } }
    match r.what with
    | .poll b tid d =>
      if (s'.thread b tid).status == .waiting (.remote tag) then
        (s'.updThread b tid fun th => th.setReg d v.polled).leaveWait b tid
      else s'
    | .await b tid => s'.tellAwait b tid h v
    | _ => s

/-- The eight words that an AWAIT on a broken handle writes. -/
def brokenOctet (st : Word) : List Word := st :: List.replicate 7 0

/-- An AWAIT completes for a thread, if its handle allows it (R268). -/
def State.awaitStep (s : State) (b tid : Nat) (h : Dword) (d : Reg) (pb : PredNo) (trap : Bool) (told : List Word) : State :=
  match s.awaitView h told with
  | .notReady => s
  | .ready r =>
    let m := match s.entryOf h with | some e => e.knows | none => []
    let s := ((s.learn b m).acquire b 4).updThread b tid fun th => (th.setGroup d.toNat r).setPred pb.toNat false
    (s.leaveWait b tid).reclaim (hTenant h) (hSlot h)
  | .broken st =>
    let s := if trap then s.trapWaiting b tid { Trap.of cHBROKEN 0 with aux0 := st.toNat }
      else (s.updThread b tid fun th => (th.setGroup d.toNat (brokenOctet st)).setPred pb.toNat true).leaveWait b tid
    if s.stale h then s else s.reclaim (hTenant h) (hSlot h)

/-! ## Sluice slots (R127, R128) -/

/-- The threads of a tenant that wait for a slot: since when, the position of the lane then, block and thread. -/
def State.slotWaiters (s : State) (t : Nat) : List (Nat × Nat × Nat × Nat) :=
  s.blocks.flatMap fun e => if e.2.tenant == t then
      e.2.threads.zipIdx.filterMap fun x => if x.1.exited then none else x.1.slotSince.map fun c => (c.1, c.2.1, e.1, x.2)
    else []

/-- Requests in order of their times, those of one instruction in the order of its lanes (R127, R266). -/
def slotBefore (a b : Nat × Nat × Nat × Nat) : Bool := decide (a.1 < b.1 ∨ (a.1 = b.1 ∧ a.2.1 < b.2.1))

/-- The free slots of a tenant's share. -/
def State.freeSlots (s : State) (t : Nat) : Nat :=
  ((List.range (s.tenant t).slshare.toNat).filter fun i => (s.sluice t i).st == .free).length

/-- Whether a thread's request may have a slot: more are free than earlier requests ask for. -/
def State.slotGranted (s : State) (b tid : Nat) : Bool :=
  match s.block? b with
  | none => false
  | some k =>
    let older := (s.slotWaiters k.tenant).filter fun w => match (k.thread tid).slotSince with
      | none => true
      | some c => slotBefore w (c.1, c.2.1, b, tid)
    decide (older.length < s.freeSlots k.tenant)

/-! ## Barriers (R261) -/

/-- Whether a block's phase is complete: every participant has arrived. -/
def Block.barDone (k : Block) (x : Barrier) : Bool :=
  !x.arrived.isEmpty && k.live.all fun t => x.arrived.contains (0, t)

/-- Every thread that waits at a BAR leaves. -/
def State.passBar (s : State) (b i : Nat) (x : Barrier) : State :=
  let s := s.updBlock b fun k => { k with bars := Sparse.set Barrier.empty k.bars i Barrier.empty }
  x.arrived.foldl (fun s e => if (s.thread b e.2).status == .waiting (.bar i) then s.leaveWait b e.2 else s) s

def State.settleBars (s : State) (b : Nat) : State :=
  match s.block? b with
  | none => s
  | some k => k.bars.foldl (fun s e => if k.barDone e.2 then s.passBar b e.1 e.2 else s) s

/-- The members of a cluster with their participants. -/
def State.clusterLive (s : State) (c : Cluster) : List (Nat × Nat) :=
  c.members.zipIdx.flatMap fun e => match s.block? e.1 with
    | some k => k.live.map fun t => (e.2, t)
    | none => []

/-- What the members of a cluster know, together (R91). -/
def State.clusterKnows (s : State) (c : Cluster) : Sparse Nat :=
  c.members.foldl (fun a m => mergeKnows a (s.knownOf m)) []

/-- Every thread that waits at a CBAR leaves, with an acquire at cluster scope (R179, R261). -/
def State.passCbar (s : State) (n : Nat) (c : Cluster) (i : Nat) (x : Barrier) : State :=
  let s := s.updCluster n fun c => { c with cbars := Sparse.set Barrier.empty c.cbars i Barrier.empty }
  let m := s.clusterKnows c
  let s := c.members.foldl (fun s b => (s.learn b m).acquire b 2) s
  x.arrived.foldl (fun s e => match c.members[e.1]? with
    | some b => if (s.thread b e.2).status == .waiting (.cbar i) then s.leaveWait b e.2 else s
    | none => s) s

def State.settleCbars (s : State) (n : Nat) : State :=
  let c := s.cluster n
  c.cbars.foldl (fun s e =>
    if !e.2.arrived.isEmpty && (s.clusterLive c).all (fun t => e.2.arrived.contains t) then s.passCbar n c e.1 e.2 else s) s

/-! ## Reconvergence (R150) -/

/-- The quads of a block that hold a split tag. -/
def Block.tagged (k : Block) (g : Nat) : List Nat := (k.quads.filter fun e => e.2.tag == g && g != 0).map (·.1)

/-- The place of a thread. -/
def Thread.place (th : Thread) : Dword × Nat := (th.pc, th.clpos)

/-- Whether a thread has arrived at the RWAIT at a place. -/
def Thread.atRwait (th : Thread) (at_ : Dword × Nat) : Bool := th.status == .waiting .rwait && th.place == at_

/-- Whether every quad of a tag has reached the RWAIT at which one of them waits, or has exited. -/
def Block.tagMet (k : Block) (g : Nat) : Bool :=
  let ts := (k.tagged g).flatMap fun q => (k.quadThreads q).filter fun t => !(k.thread t).exited
  match ts.find? fun t => (k.thread t).status == .waiting .rwait with
  | none => false
  | some t => ts.all fun u => (k.thread u).atRwait (k.thread t).place

/-- A quad leaves its bundle. -/
def State.unbundleQuad (s : State) (b q : Nat) : State :=
  match s.block? b with
  | none => s
  | some k =>
    let s := match (k.quad q).place with
      | .bundle id => (s.updBundle k.core id fun u => { u with slots := u.slots.filter fun e => e.2 != q }).sweepBundle k.core id
      | _ => s
    s.updBlock b fun k => k.updQuad q fun d => { d with place := if d.place == .bin then .bin else .gone }

/-- The quads of a tag pass their RWAIT: they lose the tag and are filed together (R150). -/
def State.passTag (s : State) (b g : Nat) : State :=
  match s.block? b with
  | none => s
  | some k =>
    let qs := k.tagged g
    let s := qs.foldl (fun s q => s.unbundleQuad b q) s
    let s := s.updBlock b fun k => { k with
      rwaits := k.rwaits.filter fun e => e.1 != g
      quads := k.quads.map fun e => if e.2.tag == g then (e.1, { e.2 with tag := 0 }) else e }
    let s := qs.foldl (fun s q => (k.quadThreads q).foldl (fun s t => s.updThread b t fun th =>
      if th.status == .waiting .rwait then
        let a := th.after.getD th.place
        { th with status := .running, pc := a.1, clpos := a.2, keep := a.2 != 0, after := none
                  released := false, pages := [], captured := [], retired := th.retired + 1, turnRetired := th.turnRetired + 1 }
      else th) s) s
    (s.stopAtQuota b).fileQuads b qs

def State.settleTags (s : State) (b : Nat) : State :=
  match s.block? b with
  | none => s
  | some k => (dedup (k.quads.map fun e => e.2.tag)).foldl (fun s g =>
      match s.block? b with
      | some k => if k.tagMet g then s.passTag b g else s
      | none => s) s

/-! ## One thread -/

/-- A wait that no rule ties to turns: the thread counts as running while it lasts (R159, R178, R319). -/
def State.settleRunning (s : State) (b tid : Nat) : State :=
  match s.block? b with
  | none => s
  | some k =>
    match (k.thread tid).status with
    | .waiting .matrix => if (s.wheel (wheelOf k.core)).length < 32 then s.wake b tid else s
    | .waiting (.acc ids op) =>
      if (s.wheel (wheelOf k.core)).any fun e => ids.contains e.id then s else (s.accDo b tid op).leaveWait b tid
    | .waiting (.acks scope tags sent) =>
      match s.stepRelease k scope tags sent with
      | (s, some w) => s.updThread b tid fun th => { th with status := .waiting w }
      | (s, none) => (s.updThread b tid fun th => { th with released := true }).wake b tid
    | .waiting (.acquire scope tag) => if s.tagsOpen [tag] then s else (s.acquire b scope).leaveWait b tid
    | .waiting (.after t hm) =>
      let th := k.thread t
      let stuck := (match th.status with | .suspended _ => true | _ => false) || (th.hm && !hm)
      if th.exited || !stuck then s.wake b tid else s
    | _ => s

/-- A wait that ends at once at DL0 and at a turn boundary above (R86, R87). -/
def State.settleThread (s : State) (b tid : Nat) : State :=
  match (s.thread b tid).status with
  | .waiting (.tbwait o off p pd _) =>
    if tbPhase (s.tbGet o off) != p.toNat then (s.passTb b tid o off pd).leaveWait b tid else s
  | .waiting (.tlwait k v) =>
    match s.block? b with
    | some x => if v.toNat ≤ (x.tlc k).toNat then (s.acquire b 5).leaveWait b tid else s
    | none => s
  | .waiting (.awaitH h d pb trap told) => s.awaitStep b tid h d pb trap told
  | .waiting (.slot _) => if s.dl0 b && s.slotGranted b tid then s.wake b tid else s
  | _ => s

/-- The waits of a block's threads. -/
def State.settleThreads (s : State) (b : Nat) (full : Bool) : State :=
  match s.block? b with
  | none => s
  | some k => (List.range k.T).foldl (fun s tid =>
      let s := s.settleRunning b tid
      if full then s.settleThread b tid else s) s

/-- A block's collective SPEC goes on once every participant has arrived. -/
def State.settleSpec (s : State) (b : Nat) : State :=
  match (s.block? b).bind Block.specArrived with
  | some o => s.specStep b o
  | none => s

/-- Every wait of a block that can end. `full` says that waits tied to turns may end: at DL0, and at a boundary. -/
def State.settleBlock (s : State) (b : Nat) (full : Bool) : State :=
  match s.block? b with
  | none => s
  | some k =>
    if k.state == .saved || k.state == .lost then s
    else
      let s := if full then ((((s.settleBars b).settleCbars k.cluster).settleTags b).settleSpec b) else s
      s.settleThreads b full

/-- The blocks of a grid in ascending block path (R138). -/
def State.blocksOf (s : State) (g : Nat) : List Nat :=
  (sortBy (fun (a b : Nat × Block) => pathLt a.2.path b.2.path) (s.blocks.filter fun e => e.2.grid == g)).map (·.1)

/-- Every wait of the machine that can end between turns. -/
def State.settle (s : State) : State :=
  s.blocks.foldl (fun s e => s.settleBlock e.1 (s.dl0 e.1)) s

/-- Whether a thread keeps a stalled grid stalled: it waits, or has exited (R86, R88). -/
def Thread.still (th : Thread) : Bool :=
  match th.status with
  | .waiting _ | .noSlot | .exited => true
  | .running | .quota | .suspended _ => false

/-- A grid that no longer stands stalled counts the cycles for which it did (R88). -/
def State.unstall (s : State) : State :=
  s.grids.foldl (fun s e => match e.2.stalledFrom with
    | none => s
    | some c =>
      if s.blocks.all fun x => x.2.grid != e.1 || (match x.2.state with | .noSlots _ => true | _ => false) || x.2.threads.all Thread.still then s
      else s.updGrid e.1 fun g => { g with stall := g.stall + (s.cycle - c), stalledFrom := none }) s

/-- Whether the cycle that passes is none for a block: its clock is saved with it, or its die is gated; at DL1 and above only
the cycles of a grid that stands stalled count (R16, R88, R229). -/
def State.clockStops (s : State) (k : Block) : Bool :=
  match s.grid? k.grid with
  | some g => if g.dl == 0 then k.state == .saved || s.gatedDie (k.core / 64) else g.stalledFrom.isSome && s.gatedDie (k.core / 64)
  | none => false

/-- A cycle passes. On a gated die it is none, for the die and for the clocks of the blocks there (R2, R16, R17). -/
def State.advance (s : State) : State := { s with
  cycle := s.cycle + 1
  pkg := if s.pkg.gated == 0 then s.pkg else { s.pkg with still := (List.range 10).foldl (fun m d =>
    if s.gatedDie d then Sparse.set 0 m d (Sparse.get 0 m d + 1) else m) s.pkg.still }
  blocks := if s.blocks.any fun e => s.clockStops e.2 then s.blocks.map fun e =>
      if s.clockStops e.2 then (e.1, { e.2 with gatedCycles := e.2.gatedCycles + 1 }) else e
    else s.blocks }

end Sys2Proof.Machine
end

