-- ==== Sys2Proof/Machine/Ctl.lean ====
section
/-! DEFINITION. Class CTL: transfers, exits, barriers, forks, invocations, handles, speculation and BOLT (R253-R273). -/

namespace Sys2Proof.Machine

/-! ## Transfers (R255, R256) -/

/-- The target of a relative transfer, H + 4 · offset. -/
def relTarget (h : Dword) (off : Int) : Dword := BitVec.ofNat 64 (ea h.toNat (4 * off))

/-- A transfer of one lane, with its link. -/
def transfer (s : State) (i : Issue) (l : Lane) (t : Dword) (link : Option Reg) : LaneOut :=
  if t.toNat % 4 != 0 then .trap { Trap.of cALIGN 1 with addr := t.toNat }
  else
    let s := match link with
      | none => s
      | some d => s.updThread i.block l.tid fun th => th.setPair d.toNat i.next
    .jump s t

/-- BRA. -/
def execBra (imm : Half) (s : State) : Out :=
  .next (s.runLanes (.bra imm) fun s i l => transfer s i l (relTarget i.pc (sext imm.toNat 16)) none)

/-- BRI. -/
def execBri (a : Reg) (s : State) : Out :=
  .next (s.runLanes (.bri a) fun s i l => transfer s i l ((s.laneThread i l).pair a.toNat) none)

/-- CALL. -/
def execCall (d : Reg) (imm : Half) (s : State) : Out :=
  .next (s.runLanes (.call d imm) fun s i l => transfer s i l (relTarget i.pc (sext imm.toNat 16)) (some d))

/-- CALLI: the target is read before the link is written. -/
def execCalli (d a : Reg) (s : State) : Out :=
  .next (s.runLanes (.calli d a) fun s i l => transfer s i l ((s.laneThread i l).pair a.toNat) (some d))

/-- RET: the effect of BRI. -/
def execRet (a : Reg) (s : State) : Out :=
  .next (s.runLanes (.ret a) fun s i l => transfer s i l ((s.laneThread i l).pair a.toNat) none)

/-! ## EXIT (R257) -/

/-- The traps of a thread that would end. -/
def Block.exitTrap (k : Block) (tid : Nat) : Option Trap :=
  if (k.fork.map fun f => f.tid == tid).getD false then some (Trap.of cFROZEN 4)
  else if !k.specs.isEmpty then some (Trap.of cSPECDEPTH 4)
  else none

/-- The result of a task, taken from its thread 0; a child that the task forks gives none (R123). -/
def State.takeResult (s : State) (b tid : Nat) : State :=
  match s.block? b with
  | none => s
  | some k =>
    if tid != 0 || k.parent.isSome then s
    else s.updGrid k.grid fun g => { g with task := g.task.map fun t =>
      { t with result := some (t.result.getD ((k.thread 0).group 0 8)) } }

/-- A thread ends: its pending results are discarded, its core's stores go home, its trap record and pending traps are
dropped. -/
def State.endThread (s : State) (b tid : Nat) : State :=
  match s.block? b with
  | none => s
  | some k =>
    let s := s.takeResult b tid
    let s := { s with pending := s.pending.filter fun p => !(p.block == b && p.tid == tid) }
    let s := s.flushCore k.core
    s.updThread b tid fun th => { th.clearPx with
      status := .exited, flags := BitVec.allOnes 12, marks := [], owed := [], trec := [], hm := false, after := none, keep := false
      slotSince := none, retired := th.retired + 1, turnRetired := th.turnRetired + 1 }

/-- EXIT. -/
def execExit (s : State) : Out :=
  .next (s.runLanes .exit fun s i l =>
    match s.block? i.block with
    | none => .done s
    | some k => match k.exitTrap l.tid with
      | some t => .trap t
      | none => .out (s.endThread i.block l.tid))

/-! ## NOP, YIELD, REFORM, RWAIT (R258-R260) -/

/-- NOP. -/
def execNop (s : State) : Out := .next (s.runLanes .nop fun s _ _ => .done s)

/-- The lowest counter of a quad's lanes above the current key (R141). -/
def Block.yieldKey (k : Block) (q : Nat) (pc : Dword) : Option Dword :=
  Block.quadKey.minPc ((k.quadThreads q).filterMap fun t =>
    let th := k.thread t
    if th.canIssue && decide (pc.toNat < th.pc.toNat) then some th.pc else none)

/-- YIELD: the quad takes, for its next clause, the lowest counter above the current key, if there is one. -/
def execYield (s : State) : Out :=
  .next (s.runLanes .yield fun s i l =>
    .done (s.updBlock i.block fun k => match k.yieldKey (l.tid / 4) i.pc with
      | none => k
      | some p => k.updQuad (l.tid / 4) fun d => { d with yielded := some p }))

/-- REFORM acts when its clause completes. -/
def execReform (s : State) : Out :=
  .next (s.runLanes .reform fun s _ _ => .done { s with issue := s.issue.map fun i => { i with reform := true } })

/-- RWAIT: a quad without a tag, and every quad at DL1 and above, passes. -/
def execRwait (s : State) : Out :=
  .next (s.runLanes .rwait fun s i l =>
    match s.block? i.block with
    | none => .done s
    | some k =>
      let g := (k.quad (l.tid / 4)).tag
      if g == 0 || !s.dl0 i.block then .done s
      else
        let due := s.deadline i.block k.bto
        .wait (s.updBlock i.block fun k =>
          if k.rwaits.any (fun e => e.1 == g) then k else { k with rwaits := k.rwaits ++ [(g, due)] }) .rwait)

/-! ## Barriers (R261) -/

/-- An arrival in a phase. -/
def Barrier.arrive (x : Barrier) (e : Nat × Nat) (due : Nat) : Barrier :=
  { arrived := if x.arrived.contains e then x.arrived else x.arrived ++ [e]
    due := if x.arrived.isEmpty then due else x.due }

/-- The barriers that a kernel declares (R250). -/
def State.barCount (s : State) (b : Nat) : Nat := match s.kernelOf b with | some n => n.bars | none => 0

/-- BAR on one lane: the index, then FPX, then the arrival. -/
def barLane (x : BitVec 8) (s : State) (i : Issue) (l : Lane) : LaneOut :=
  if s.barCount i.block ≤ x.toNat then .trap (Trap.of cBARIDX 1)
  else match fpxTrap (s.laneThread i l) with
    | some t => .trap t
    | none =>
      let due := s.deadline i.block (s.btoOf i.block)
      .wait (s.updBlock i.block fun k => { k with
        bars := Sparse.set Barrier.empty k.bars x.toNat ((Sparse.get Barrier.empty k.bars x.toNat).arrive (0, l.tid) due) })
        (.bar x.toNat)

def execBar (x : BitVec 8) (s : State) : Out := .next (s.runLanes (.bar x) (barLane x))

/-- CBAR on one lane: the arrival is a release at cluster scope. -/
def cbarLane (x : BitVec 8) (s : State) (i : Issue) (l : Lane) : LaneOut :=
  if s.barCount i.block ≤ x.toNat then .trap (Trap.of cBARIDX 1)
  else match fpxTrap (s.laneThread i l) with
    | some t => .trap t
    | none =>
      match s.block? i.block with
      | none => .done s
      | some k =>
        let due := s.deadline i.block (s.btoOf i.block)
        match s.releaseAt i.block l.tid i.at 2 with
        | (s, some w) => .wait s w
        | (s, none) =>
          .wait (s.updCluster k.cluster fun c => { c with
            cbars := Sparse.set Barrier.empty c.cbars x.toNat ((Sparse.get Barrier.empty c.cbars x.toNat).arrive (k.member, l.tid) due) })
            (.cbar x.toNat)

def execCbar (x : BitVec 8) (s : State) : Out := .next (s.runLanes (.cbar x) (cbarLane x))

/-! ## Forks (R262-R264) -/

/-- The refusals of R97 in the order of its table, the feature flag apart. -/
def State.forkRefusal (s : State) (k : Block) (n : Nat) : Option Trap :=
  if n = 0 ∨ 4096 < n then some (Trap.of cOPERAND 1)
  else if k.frozen then some (Trap.of cFROZEN 2)
  else if 8 ≤ s.viewDepth k.vtag then some (Trap.of cVIEWPOOL 3)
  else if (s.freeVids n).isNone then some (Trap.of cVIEWPOOL 2)
  else none

/-- The fork opened once its release is complete: the views, and the children that wait for dispatch (R98). -/
def State.openFork (s : State) (i : Issue) (l : Lane) (k : Block) (n vid : Nat) (entry : Dword) : State :=
  let th := k.thread l.tid
  let v0 := s.fabric.devid.toNat * 2 ^ 16 + vid
  let turn := match s.grid? k.grid with | some g => g.turn | none => 0
  let d := k.rngD l.tid
  let (id, s) := s.fresh
  let s := s.openViews k.tenant k.vtag i.block v0 n false
  let s := s.updBlock i.block fun k => { k with fork := some {
    n := n, tid := l.tid, pc := i.at, entry := entry, vtag0 := v0, args := th.group 0 8, key := d.setWidth 128
    next := 0, done := 0, asked := false, reports := [], checked := false, dropping := false, order := id, turn := turn } }
  -- the next placement of the grid is its first child, which waits from now on (R81, R98)
  let s := s.updGrid k.grid fun g => { g with waitingSince := s.placeTime }
  s.updThread i.block l.tid fun th => { th with forks := th.forks + 1 }

/-- FORK on one lane. -/
def forkLane (a : Reg) (imm : Word) (s : State) (i : Issue) (l : Lane) : LaneOut :=
  match s.block? i.block with
  | none => .done s
  | some k =>
    let n := ((k.thread l.tid).reg a.toNat).toNat
    match s.forkRefusal k n with
    | some t => .trap t
    | none => match s.freeVids n with
      | none => .trap (Trap.of cVIEWPOOL 2)
      | some vid =>
        match s.releaseAt i.block l.tid i.at (s.parentScope k.tenant) with
        | (s, some w) => .wait s w
        | (s, none) => .done (s.openFork i l k n vid (relTarget i.pc (sext imm.toNat 32)))

def execFork (a : Reg) (imm : Word) (s : State) : Out := .next (s.runLanes (.fork a imm) (forkLane a imm))

/-- The open fork that a thread may end; none where it is another thread's or there is none (R100). -/
def Block.forkOf (k : Block) (tid : Nat) : Option Fork := k.fork.bind fun f => if f.tid == tid then some f else none

/-- JOIN waits for the children (R263); the merge is made by JOIN_CHECK and JOIN_APPLY. -/
def execJoin (s : State) : Out :=
  .next (s.runLanes .join fun s i l =>
    match (s.block? i.block).bind fun k => k.forkOf l.tid with
    | none => .trap (Trap.of cFROZEN 3)
    | some _ => .wait s .join)

/-- VDROP ends the children and waits until everything has drained (R115, R264). -/
def execVdrop (s : State) : Out :=
  .next (s.runLanes .vdrop fun s i l =>
    match (s.block? i.block).bind fun k => k.forkOf l.tid with
    | none => .trap (Trap.of cFROZEN 3)
    | some f => .wait (s.dropFork i.block f false) .vdrop)

/-! ## Invocations (R265-R267) -/

/-- Whether a target word breaks its layout (R265). -/
def targetBad (w : Nat) : Bool :=
  bitsAt w 0 2 == 3 || bitsAt w 15 17 != 0 || (bitsAt w 0 2 == 2 && bitsAt w 2 10 != 0)
  || (bitsAt w 0 2 != 1 && bitsAt w 12 3 != 0)

/-- The argument words: the first n of the octet, zero-extended to eight. -/
def argWords (th : Thread) (c : Reg) (n : Nat) : List Word := ((th.group c.toNat 8).take n ++ List.replicate 8 0).take 8

/-- The checks of a handle operand that trap (R120). -/
def State.handleTrap (s : State) (t : Nat) (h : Dword) : Option Trap :=
  if bitsAt h.toNat 0 10 != 0 then some (Trap.of cOPERAND 3)
  else if hTenant h != t then some (Trap.of cPROT 8)
  else if hHome h != s.fabric.devid && !onBit (s.tenant t).domset (hHome h).toNat then some { Trap.of cPROT 5 with toHandler := true }
  else none

/-- Whether the outbox of the innermost speculative view is full (R136). -/
def Block.outboxFull (k : Block) : Bool := match k.specs with | w :: _ => decide (256 ≤ w.outbox.length) | [] => false

/-- What an invocation asks for. -/
inductive Call where
  | target (word : Word)
  | on (h : Dword)
  deriving DecidableEq, Repr

/-- The tests of an invocation before the slot (R266, R267). -/
def State.callTrap (s : State) (k : Block) (kernel : Dword) (c : Call) : Option Trap :=
  let first := match c with
    | .target w => if targetBad w.toNat then some (Trap.of cOPERAND 8) else none
    | .on h => s.handleTrap k.tenant h
  let away := match c with
    | .target w => bitsAt w.toNat 0 2 != 2 && !onBit (s.tenant k.tenant).domset (bitsAt w.toNat 2 10)
    | .on _ => false
  match first with
  | some t => some t
  | none =>
    if kernel.toNat % 64 != 0 then some { Trap.of cALIGN 2 with addr := kernel.toNat }
    else if k.frozen then some (Trap.of cFROZEN 5)
    else if away then some { Trap.of cPROT 5 with toHandler := true }
    else if k.outboxFull then some (Trap.of cSPECDEPTH 5)
    else none

/-- An invocation that has its slot, the next of its thread (R218): the handle is written to D, and the task is sent, or held in the outbox of a
speculative view (R123, R136, R266). -/
def State.makeCall (s : State) (b tid slot : Nat) (d : Reg) (c : Call) (kernel : Dword) (args : List Word) (rngD : Dword) : State :=
  match s.block? b with
  | none => s
  | some k =>
    let held := !k.specs.isEmpty
    let (h, s) := s.allocHandle b slot held (match c with | .on x => some x | .target _ => none)
    let s := s.updThread b tid fun th => { th.setPair d.toNat h with slotSince := none, forks := th.forks + 1 }
    if held then
      s.updBlock b fun k => (k.holdOut (match c with
        | .target w => .invoke tid slot w kernel args rngD
        | .on x => .invokeOn tid slot x kernel args rngD)).getD k
    else match c with
      | .target w => s.sendInvoke h w kernel args rngD
      | .on x => s.sendInvokeOn h x kernel args rngD

/-- The buffered effect of an invocation at DL1 and above (R128). -/
def Call.effect (c : Call) (d : Reg) (kernel : Dword) (args : List Word) (rngD : Dword) : EffKind :=
  match c with
  | .target w => .invoke d w kernel args rngD
  | .on h => .invokeOn d h kernel args rngD

/-- An invocation by one lane. At DL0 it waits for a slot and executes again; above, it waits for the boundary that
allocates the slot. -/
def callLane (d a b : Reg) (c : Thread → Call) (args : Reg) (n : Nat) (on_ : Bool) (s : State) (i : Issue) (l : Lane) : LaneOut :=
  match s.block? i.block with
  | none => .done s
  | some k =>
    let th := k.thread l.tid
    let kernel := th.pair (if on_ then b else a).toNat
    match s.callTrap k kernel (c th) with
    | some t => .trap t
    | none =>
      let rngD := k.rngD l.tid
      if !s.dl0 i.block then
        .wait (s.addEffect i.block l.tid i.at ((c th).effect d kernel (argWords th args n) rngD)) .boundary
      else if s.slotGranted i.block l.tid then
        match s.freeSlot k.tenant with
        | some slot => .done (s.makeCall i.block l.tid slot d (c th) kernel (argWords th args n) rngD)
        | none => .done s
      else
        let since := th.slotSince.getD (s.cycle, l.lane, s.deadline i.block k.sto)
        .wait (s.updThread i.block l.tid fun th => { th with slotSince := some since })
          (.slot since.2.2)

/-- INVOKE. -/
def execInvoke (d a b c : Reg) (n : BitVec 4) (s : State) : Out :=
  .next (s.runLanes (.invoke d a b c n) (callLane d a b (fun th => .target (th.reg b.toNat)) c n.toNat false))

/-- INVOKE.ON. -/
def execInvokeOn (d a b c : Reg) (n : BitVec 4) (s : State) : Out :=
  .next (s.runLanes (.invokeOn d a b c n) (callLane d a b (fun th => .on (th.pair a.toNat)) c n.toNat true))

/-! ## AWAIT, HPOLL, HDROP (R268-R270) -/

/-- Whether a handle is held by a thread's view or a view around it (R129). -/
def State.heldByView (s : State) (k : Block) (h : Dword) : Bool :=
  hHome h == s.fabric.devid && !s.stale h && (s.sluice (hTenant h) (hSlot h)).st == .held
  && s.viewWithin (fun v => v == (s.sluice (hTenant h) (hSlot h)).vtag) (nestFuel + 1) k.vtag

/-- The checks of AWAIT and HPOLL. -/
def State.awaitTrap (s : State) (k : Block) (h : Dword) : Option Trap :=
  match s.handleTrap k.tenant h with
  | some t => some t
  | none => if s.heldByView k h then some (Trap.of cSPECDEPTH 3) else none

/-- AWAIT on one lane. -/
def awaitLane (d a : Reg) (pb : PredNo) (trap : Bool) (s : State) (i : Issue) (l : Lane) : LaneOut :=
  match s.block? i.block with
  | none => .done s
  | some k =>
    let h := (k.thread l.tid).pair a.toNat
    match s.awaitTrap k h with
    | some t => .trap t
    | none =>
      let wait := fun (s : State) (v : HView) => LaneOut.wait s (.awaitH h d pb trap v.words)
      if hHome h != s.fabric.devid then
        match s.askHome h .await (.await i.block l.tid) with
        | some (s, _) => wait s .notReady
        | none => wait (s.homeless i.block l.tid i.at h).1 (s.homeless i.block l.tid i.at h).2
      else if !s.dl0 i.block then wait s .notReady
      else match s.handleView h with
        | .notReady => wait s .notReady
        | .ready r =>
          let m := match s.entryOf h with | some e => e.knows | none => []
          .done (((s.learn i.block m).acquire i.block 4).updThread i.block l.tid fun th =>
            (th.setGroup d.toNat r).setPred pb.toNat false)
        | .broken st =>
          if trap then .trap { Trap.of cHBROKEN 0 with aux0 := st.toNat }
          else .done (s.updThread i.block l.tid fun th => (th.setGroup d.toNat (brokenOctet st)).setPred pb.toNat true)

def execAwait (d a : Reg) (pb : PredNo) (trap : Bool) (s : State) : Out :=
  .next (s.runLanes (.await d a pb trap) (awaitLane d a pb trap))

/-- HPOLL. -/
def execHpoll (d a : Reg) (s : State) : Out :=
  .next (s.runLanes (.hpoll d a) fun s i l =>
    match s.block? i.block with
    | none => .done s
    | some k =>
      let h := (k.thread l.tid).pair a.toNat
      match s.awaitTrap k h with
      | some t => .trap t
      | none =>
        if hHome h == s.fabric.devid then
          .done (s.updThread i.block l.tid fun th => th.setReg d.toNat (s.handleView h).polled)
        else match s.askHome h .poll (.poll i.block l.tid d.toNat) with
          | some (s, tag) => .wait s (.remote tag)
          | none =>
            let (s, v) := s.homeless i.block l.tid i.at h
            .done (s.updThread i.block l.tid fun th => th.setReg d.toNat v.polled))

/-- An entry marked as dropped, at its home, which is told where it is another device (R125). -/
def State.dropHandle (s : State) (h : Dword) : State :=
  if hHome h == s.fabric.devid then
    if s.stale h then s
    else (s.updSluice (hTenant h) (hSlot h) fun e => { e with dropped := true }).reclaim (hTenant h) (hSlot h)
  else s.tell (askMsg s.fabric.devid h 0 .drop)

/-- HDROP. -/
def execHdrop (a : Reg) (s : State) : Out :=
  .next (s.runLanes (.hdrop a) fun s i l =>
    match s.block? i.block with
    | none => .done s
    | some k =>
      let h := (k.thread l.tid).pair a.toNat
      match s.handleTrap k.tenant h with
      | some t => .trap t
      | none =>
        let s' := s.dropHandle h
        .done (if s.freeSlots k.tenant < s'.freeSlots k.tenant then
          s'.updGrid k.grid fun g => { g with ownFreed := g.ownFreed + 1 } else s'))

/-! ## Speculation (R271, R272) -/

/-- An arrival at a SPEC of a block. -/
def State.arriveSpec (s : State) (b tid : Nat) : State :=
  let due := s.deadline b (s.btoOf b)
  s.updBlock b fun k => { k with specBar := k.specBar.arrive (0, tid) due }

/-- An arrival at a SPECEND, which is another phase (R129). -/
def State.arriveSpecend (s : State) (b tid : Nat) : State :=
  let due := s.deadline b (s.btoOf b)
  s.updBlock b fun k => { k with specendBar := k.specendBar.arrive (0, tid) due }

/-- SPEC: the thread arrives with its octet and waits for the others (R132 runs once all have arrived). -/
def execSpec (a : Reg) (s : State) : Out :=
  .next (s.runLanes (.spec a) fun s i l =>
    .wait (s.arriveSpec i.block l.tid) (.spec ((s.laneThread i l).group a.toNat 8)))

/-- SPECEND: the thread arrives and waits for the check and the commit. -/
def execSpecend (s : State) : Out :=
  .next (s.runLanes .specend fun s i l =>
    match s.block? i.block with
    | none => .done s
    | some k =>
      if k.specs.isEmpty then .trap (Trap.of cSPECDEPTH 8)
      else .wait (s.arriveSpecend i.block l.tid) .specend)

/-! ## BOLT (R147, R273) -/

/-- The BOLT bin of a key, taken where none is in use (R143). -/
def Core.boltBin (c : Core) (b : Nat) (entry : Dword) (key : Word) : Core :=
  if c.bins.any (fun n => n.key == .bolt b entry key) then c
  else
    let no := c.freeBin
    if no == 255 then c else { c with bins := c.bins ++ [⟨no, .bolt b entry key, []⟩] }

/-- BOLT on one lane: the record, then the end of the thread. -/
def boltLane (d a : Reg) (imm : Word) (s : State) (i : Issue) (l : Lane) : LaneOut :=
  match s.block? i.block, s.gridOf i.block with
  | some k, some g =>
    match k.exitTrap l.tid with
    | some t => .trap t
    | none =>
      let th := k.thread l.tid
      let entry := relTarget i.pc (sext imm.toNat 32)
      let key := th.reg a.toNat
      let r : BoltRec := ⟨i.block, l.tid, entry, key, th.group d.toNat 8, th.retired + 1, s.binTime g.dl k.core⟩
      let s := s.updCore k.core fun c => { c.boltBin i.block entry key with bolts := c.bolts ++ [r] }
      .out (s.endThread i.block l.tid)
  | _, _ => .done s

def execBolt (d a : Reg) (imm : Word) (s : State) : Out := .next (s.runLanes (.bolt d a imm) (boltLane d a imm))

end Sys2Proof.Machine
end

