-- ==== Sys2Proof/Machine/Issue.lean ====
section
/-! DEFINITION. The issue of clauses, the drawing and forming of bundles, relaunch from BOLT bins, the Governor's
rounds, and the writing of results (R84, R141-R150, R156, R157, R221, R235, R236). -/

namespace Sys2Proof.Machine

/-! ## Results (R156) -/

/-- Whether another result than one is still to come for a register or predicate of its thread. -/
def State.stillPending (s : State) (b tid : Nat) (m : Mark) : Bool :=
  s.pending.any fun p => p.block == b && p.tid == tid && p.flag == m.flag
    && (if m.isPred then p.preds.any fun e => e.1 == m.no else p.regs.any fun e => e.1 == m.no)

/-- The marks of a result go with it. At DL1 and above those of a written result stand until a clause waits on their flag, so
that timing reaches no result (R83, R157; log 25), but for marks that no flag covers. -/
def State.dropMarks (s : State) (p : PendOp) (now : Bool) : State :=
  s.updThread p.block p.tid fun th => { th with marks := th.marks.filter fun m =>
    !(m.flag == p.flag && (now || m.flag == 15) && !s.stillPending p.block p.tid m
      && (if m.isPred then p.preds.any fun e => e.1 == m.no else p.regs.any fun e => e.1 == m.no)) }

/-- A thread after what came through the on-chip map while a result of it was pending (R164). -/
def Thread.writeOcm (th : Thread) (p : PendOp) : Thread := p.ocm.foldl (fun th e => th.setReg e.1 e.2) th

/-- The registers and predicates of a result written, then what came through the on-chip map meanwhile, and its flags raised
(R164, R194). -/
def Thread.writeResult (th : Thread) (p : PendOp) : Thread :=
  let th := (p.regs.foldl (fun th e => th.setReg e.1 e.2) th).writeOcm p
  let th := p.preds.foldl (fun th e => th.setPred e.1 e.2) th
  th.raise p.fpflags

/-! ## Which bundles can issue -/

/-- Whether a block runs: it is neither stopped for slots, nor saved or being saved, nor squashed, its die is up, and its grid is
not at a turn boundary (R27, R87, R94, R116, R135). -/
def State.blockRuns (s : State) (k : Block) : Bool :=
  k.state == .running && k.failed.isNone && s.dieUp (k.core / 64) && (s.grid? k.grid).all fun g => g.closing.isNone

/-- Whether a block may issue: it runs, and its die is clocked (R16). -/
def State.blockIssues (s : State) (k : Block) : Bool := s.blockRuns k && !s.gatedDie (k.core / 64)

/-- The key of a bundle: that on which its quads agree, or the lowest. -/
def Block.bundleKey (k : Block) (u : Bundle) : Option Dword := Block.quadKey.minPc (u.slots.filterMap fun e => k.quadKey e.2)

/-- The active lanes of a bundle at a key: lane position and thread, in ascending position (R141, R142). -/
def Block.activeLanes (k : Block) (u : Bundle) (key : Dword) : List (Nat × Nat) :=
  u.slots.flatMap fun e => (k.quadThreads e.2).filterMap fun t =>
    let th := k.thread t
    if th.canIssue && th.pc == key then some (4 * e.1 + t % 4, t) else none

/-- Whether a result of a thread that no flag covers is still to be written (R156). -/
def State.uncoveredPending (s : State) (b tid : Nat) : Bool :=
  s.pending.any fun p => p.block == b && p.tid == tid && p.flag == 15 && p.error.isNone

/-- Whether a bundle is kept from issuing by a clause that named no flag (R156). -/
def State.held (s : State) (k : Block) (b : Nat) (u : Bundle) (lanes : List (Nat × Nat)) : Bool :=
  lanes.any (fun l => s.uncoveredPending b l.2)
  || (u.hold && u.slots.any fun e => (k.quadThreads e.2).any fun t => s.uncoveredPending b t)

/-- Whether a wait mask covers a flag; a result with no flag is waited for by the next clause. -/
def waitCovers (wait : BitVec 12) (f : Nat) : Bool := f == 15 || (decide (f < 12) && onBit wait f)

/-- Whether a bundle stands at a clause that waits for a returning atomic of the turn, which the boundary performs: its
threads are waiting (R86, R157). -/
def State.owed (s : State) (k : Block) (b : Nat) (u : Bundle) : Bool :=
  match k.bundleKey u with
  | none => false
  | some pc =>
    let ps := s.pending.filter fun p => p.block == b && !p.ready && !p.remote && (k.activeLanes u pc).any fun l => l.2 == p.tid
    !ps.isEmpty && (match s.fetchClause b pc with
      | .error _ => false
      | .ok (_, hdr, _) => ps.any fun p => waitCovers (Header.ofWord hdr).wait p.flag && !(k.thread p.tid).keep)

/-- Whether a bundle may run: it belongs to a block that issues, and it stands still within a clause, or one of its lanes can
run and the boundary owes it nothing. A block that is to be saved completes the clauses that it has begun (R94). -/
def State.runnable (s : State) (core id : Nat) : Bool :=
  match s.bundle? core id with
  | none => false
  | some u => match s.block? u.block with
    | none => false
    | some k =>
      if u.paused.isSome then
        s.blockIssues k || (k.state == .saving && s.dieUp (k.core / 64) && !s.gatedDie (k.core / 64))
      else s.blockIssues k && (k.bundleKey u).isSome && !s.owed k u.block u

/-- Whether a bundle stands still within a clause for a lane that waits there. -/
def State.halted (s : State) (u : Bundle) : Bool :=
  u.paused.any fun j => j.lanes.any fun l => (s.thread j.block l.tid).status != .running

/-- The bundle whose turn it is in the Governor's rotation: the first that can still run (R84). -/
def State.rotationHead (s : State) (core : Nat) : Option Nat := (s.core core).rotation.find? fun id => s.runnable core id

/-! ## Errors on replies (R221) -/

/-- The reply with an error that a lane meets at a clause. -/
def State.replyError (s : State) (b tid : Nat) (wait : BitVec 12) : Option (PendOp × ReplyErr) :=
  s.pending.findSome? fun p =>
    if p.block == b && p.tid == tid && p.ready && waitCovers wait p.flag then p.error.map fun e => (p, e) else none

/-- A lane takes the INTEG of a lost reply before the clause that waits for it issues, to resume there (R221; log 26). The
result is not written; what came through the on-chip map while it was pending is (R164). -/
def State.takeReply (s : State) (b tid : Nat) (pc : Dword) (p : PendOp) (e : ReplyErr) : State :=
  let s := { s with pending := s.pending.filter fun q => q.id != p.id }
  let s := ((s.updThread b tid fun th => th.writeOcm p).dropMarks p true).settleFlag b tid p.flag
  s.takeTrap b tid p.pc 0 pc 0 { Trap.of cINTEG e.cause with access := e.access, addr := e.addr }

/-! ## CLAUSE_ISSUE -/

/-- Whether every flag of a wait mask is set for a lane; a lane that goes on within its clause has waited already. -/
def Thread.flagsReady (th : Thread) (wait : BitVec 12) : Bool :=
  th.keep || (List.range 12).all fun i => !onBit wait i || th.flag i

/-- Whether a lane waits on a flag that covers a remote load (R149). -/
def State.waitsRemote (s : State) (b tid : Nat) (wait : BitVec 12) : Bool :=
  s.pending.any fun p => p.block == b && p.tid == tid && p.remote && decide (p.flag < 12) && onBit wait p.flag

/-- The clause predicate of a lane (R235). -/
def Thread.clausePred (th : Thread) (h : Header) : Bool := th.keep || (th.pred h.pred.toNat != h.pneg)

/-- Every active lane takes the same trap at the clause header (R233, R236). -/
def State.trapHeader (s : State) (core b id : Nat) (pc : Dword) (lanes : List (Nat × Nat)) (t : Trap) : State :=
  let s := lanes.foldl (fun s l => s.takeTrap b l.2 pc 0 pc 0 t) s
  (s.settleBundle core id none).updCore core fun c => { c with rotation := c.rotation.filter (· != id) }

/-- A bundle splits: the quads whose flags are set go on as the bundle, the others are filed, and all receive one new
tag (R149). -/
def State.splitBundle (s : State) (b : Nat) (u : Bundle) (pc : Dword) (late : List Nat) : State :=
  let (tag, s) := s.fresh
  let s := s.updBlock b fun k => u.slots.foldl (fun k e => k.updQuad e.2 fun d => { d with tag := tag }) k
  let s := late.foldl (fun s q => s.unbundleQuad b q) s
  let s := s.fileQuads b late
  let g := match s.block? b with | some k => k.grid | none => 0
  s.gridEvent g 0x0B pc

/-- The instructions of a clause from a word position on, up to a word that is none. -/
def clauseWalk (c : Cls) (ws : List Word) : Nat → Nat → List (Nat × Instr)
  | 0, _ => []
  | fuel + 1, p =>
    if ws.length < p then []
    else match decode c (ws.drop (p - 1)) with
      | .ok ins n => (p, ins) :: clauseWalk c ws fuel (p + max 1 n)
      | .illegal .. => []

/-- The lanes that a clause starts with, the position it starts at, and the long-latency instructions that stand before it.
A lane that resumes at a word inside another lane's instruction reads the clause from that word, and the lanes whose
instructions begin elsewhere follow after it (R224). -/
def clauseStart (c : Cls) (ws : List Word) (ls : List Lane) : List Lane × Nat × Nat :=
  let walk := clauseWalk c ws 15 1
  let on := fun (w : List (Nat × Instr)) (l : Lane) => w.any fun e => e.1 == l.start
  let whole := fun (l : Lane) => l.start == 1 || on walk l
  match ls.filter whole, ls with
  | l :: rest, _ => (l :: rest, 1, 0)
  | [], [] => ([], 1, 0)
  | [], l :: _ =>
    let inner := clauseWalk c ws 15 l.start
    (ls.filter fun m => m.start == l.start || on inner m, l.start, (walk.filter fun e => decide (e.1 < l.start) && instrLong e.2).length)

/-- The format of a FLT instruction that the rational mode may change (R303). -/
def instrModal : Instr → Option Fmt
  | .fadd _ _ _ _ _ f x2 | .fsub _ _ _ _ _ f x2 | .fmul _ _ _ _ _ f x2 | .fdiv _ _ _ _ _ f x2 | .ffma _ _ _ _ _ _ f x2
  | .fsqrt _ _ _ _ f x2 | .fmin _ _ _ _ f x2 | .fmax _ _ _ _ f x2 | .fminnum _ _ _ _ f x2 | .fmaxnum _ _ _ _ f x2
  | .fabs _ _ _ f x2 | .fneg _ _ _ f x2 => if x2 then none else some f
  | .fcmp _ _ _ _ _ f _ => some f
  | _ => none

/-- Whether an instruction is long-latency in a thread: always, or because R303 makes it rational there (R156, R298). -/
def Thread.longFor (th : Thread) (i : Instr) : Bool := instrLong i || (instrModal i).any fun f => (th.fmtIn f).isRat

/-- The flags to which the long-latency instructions of a clause report in one of its threads, one entry for each (R156). Those
of every thread of the clause count (log 13). -/
def owedFlags (h : Header) (ths : List Thread) (th : Thread) : Nat → List Instr → List Nat
  | _, [] => []
  | n, ins :: l =>
    let n' := if ths.any fun x => x.longFor ins then n + 1 else n
    (if th.longFor ins && flagFor h n' != 15 then [flagFor h n'] else []) ++ owedFlags h ths th n' l

/-- A clause clears its set-flags in a lane that begins it: those to which one of its instructions will report stay clear until
each has written (R156, R235). -/
def State.clearFlags (s : State) (b tid : Nat) (h : Header) (fs : List Nat) : State :=
  let named := [h.seta.toNat, h.setb.toNat].filter fun f => decide (f < 12)
  let s := s.updThread b tid fun th =>
    fs.foldl (fun th f => th.setFlag f false) { th with owed := th.owed.filter (fun f => !named.contains f) ++ fs }
  named.foldl (fun s f => if fs.contains f then s else s.settleFlag b tid f) s

/-- Whether a thread begins a clause, rather than going on within it after a wait or a handler. -/
def Thread.begins (th : Thread) : Bool := !th.keep && th.clpos == 0

/-- The lanes whose clause predicate, or the header's, has a pending write that the wait mask does not cover (R157). -/
def State.unreadyPred (s : State) (b : Nat) (h : Header) (lanes : List (Nat × Nat)) : List (Nat × Nat) :=
  lanes.filter fun l => let th := s.thread b l.2; !th.keep && th.uncovered h.wait [] [h.pred.toNat]

/-- The clause begins: its lanes, the start of each, the marks that its wait covers, and the flags that it sets (R156, R157,
R235). -/
def State.beginClause (s : State) (core : Nat) (u : Bundle) (b : Nat) (k : Block) (pc : Dword) (hdr : Word) (ws : List Word)
    (lanes : List (Nat × Nat)) : State :=
  let h := Header.ofWord hdr
  let all := lanes.map fun l =>
    let th := k.thread l.2
    (⟨l.1, l.2, th.clausePred h, max 1 th.clpos⟩ : Lane)
  let (ls, pos, longs) := clauseStart ((Cls.ofCode h.cls).getD .int) ws all
  let lanes := ls.map fun l => (l.lane, l.tid)
  let s := lanes.foldl (fun s l => s.updThread b l.2 fun th =>
    if th.keep then th else { th with marks := th.marks.filter fun m => !waitCovers h.wait m.flag }) s
  let body := (clauseWalk ((Cls.ofCode h.cls).getD .int) ws 15 1).map (·.2)
  let on := (all.filter (·.pred)).map fun l => k.thread l.tid
  let s := ls.foldl (fun s l =>
    if l.pred && (k.thread l.tid).begins then s.clearFlags b l.tid h (owedFlags h on (k.thread l.tid) 0 body) else s) s
  let s := s.updBlock b fun k => lanes.foldl (fun k l => k.updQuad (l.2 / 4) fun d => { d with yielded := none }) k
  -- at DL0 the bundle goes behind the others of its core, so that the ready ones issue in rotation (R165)
  let s := s.updCore core fun c => { c with
    bundles := (c.bundles.filter fun x => x.id != u.id) ++ (c.bundles.filter fun x => x.id == u.id).map fun x => { x with hold := false } }
  { s with issue := some { core := core, bundle := u.id, block := b, pc := pc, hdr := hdr, words := ws, pos := pos
                           lanes := ls, longs := longs, reform := false } }

/-- The issue of a bundle's next clause, from its active lanes: the fetch and the header's check, the errors of
replies, the flags, the reform bit, and the start of the clause. -/
def State.issueBundle (s : State) (core : Nat) (u : Bundle) (b : Nat) (k : Block) (pc : Dword) : State :=
  let lanes := k.activeLanes u pc
  if s.held k b u lanes then s
  else match s.fetchClause b pc with
    | .error t => s.trapHeader core b u.id pc lanes t
    | .ok (s, hdr, ws) =>
      let h := Header.ofWord hdr
      let errs := lanes.filterMap fun l => if (k.thread l.2).keep then none else (s.replyError b l.2 h.wait).map fun e => (l, e)
      if !errs.isEmpty then
        (errs.foldl (fun s x => s.takeReply b x.1.2 pc x.2.1 x.2.2) s).settleBundle core u.id none
      else if h.reform && u.fell && lanes.all (fun l => (k.thread l.2).begins) then s.reformBundle core u.id
      else
        let late := lanes.filter fun l => !(k.thread l.2).flagsReady h.wait
        if late.isEmpty then
          let unready := s.unreadyPred b h lanes
          if unready.isEmpty then s.beginClause core u b k pc hdr ws lanes
          else s.trapHeader core b u.id pc unready (Trap.of cOPERAND 4)
        else
          let lateQuads := dedup (late.map fun l => l.2 / 4)
          if s.dl0 b && decide (lateQuads.length < u.slots.length) && late.any fun l => s.waitsRemote b l.2 h.wait then
            s.splitBundle b u pc lateQuads
          else s

/-- Whether CLAUSE_ISSUE would find the bundle stalled: a lane waits within its clause, its flags are not set, or results that
no flag covers are still to be written. -/
def State.stalled (s : State) (core id : Nat) : Bool :=
  match s.bundle? core id with
  | none => true
  | some u => if u.paused.isSome then s.halted u else match s.block? u.block with
    | none => true
    | some k => match k.bundleKey u with
      | none => true
      | some pc =>
        let lanes := k.activeLanes u pc
        s.held k u.block u lanes
        || (match s.fetchClause u.block pc with
          | .error _ => false
          | .ok (_, hdr, _) =>
            let h := Header.ofWord hdr
            !(h.reform && u.fell && lanes.all fun l => (k.thread l.2).begins)
            && lanes.any (fun l => !(k.thread l.2).flagsReady h.wait && (s.replyError u.block l.2 h.wait).isNone)
            && !(lanes.any fun l => (s.replyError u.block l.2 h.wait).isSome && !(k.thread l.2).keep)
            && !(s.dl0 u.block && lanes.any fun l => !(k.thread l.2).flagsReady h.wait && s.waitsRemote u.block l.2 h.wait))

/-- The bundle that issues next on a core at DL0: of those that are ready the one that has waited longest, as ready bundles
issue in rotation; any that can run where none is ready (R165). -/
def State.readyHead (s : State) (core : Nat) : Option Nat :=
  ((s.core core).bundles.find? fun u => s.dl0 u.block && s.runnable core u.id && !s.stalled core u.id).map (·.id)

/-- Whether the issue unit may take a bundle now: no clause is under way, the bundle can run, and it is its turn (R84,
R165). -/
def State.mayIssue (s : State) (core id : Nat) : Bool :=
  s.issue.isNone && s.runnable core id && !((s.bundle? core id).any s.halted)
  && (match s.bundle? core id with
    | some u => if s.dl0 u.block then (match s.readyHead core with | some h => h == id | none => true)
      else s.rotationHead core == some id
    | none => false)

/-- CLAUSE_ISSUE. A clause that stands still goes on where it stood (R16, R84, R116, R319). -/
def execClauseIssue (core id : Nat) (s : State) : Out :=
  .next (if !s.mayIssue core id then s
    else match (s.bundle? core id).bind (·.paused) with
    | some j => { s.updBundle core id fun u => { u with paused := none } with issue := some j }
    | none =>
      let s := s.settleBundle core id none
      match s.bundle? core id with
      | none => s
      | some u => match s.block? u.block with
        | none => s
        | some k => match k.bundleKey u with
          | none => s
          | some pc => s.issueBundle core u u.block k pc)

/-! ## BUNDLE_DRAW (R146) -/

/-- The entries of a bin at DL0, of blocks that issue. -/
def State.waitingIn (s : State) (n : Bin) : List BinEntry :=
  n.entries.filter fun e => s.dl0 e.block && (match s.block? e.block with | some k => s.blockIssues k | none => false)

/-- Whether two entries have one key. -/
def BinEntry.sameKey (a b : BinEntry) : Bool := a.block == b.block && a.role == b.role && a.pc == b.pc

/-- The entries of a bin that a bundle may be drawn from: those of the key of the oldest (R146). -/
def State.drawable (s : State) (n : Bin) : List BinEntry :=
  match s.waitingIn n with
  | [] => []
  | e :: es => e :: es.filter e.sameKey

/-- Whether a bin holds eight quads of one key (R146). -/
def State.binFull (s : State) (n : Bin) : Bool :=
  let es := s.waitingIn n
  es.any fun e => decide (8 ≤ (es.filter e.sameKey).length)

/-- The oldest drawable entry's time. -/
def State.binSince (s : State) (n : Bin) : Option Nat := (s.drawable n).head?.map (·.since)

/-- Whether some bundle of a core can issue. -/
def State.someIssues (s : State) (core : Nat) : Bool :=
  (s.core core).bundles.any fun u => s.runnable core u.id && !s.stalled core u.id

/-- The bin that the issue unit draws from next, under the conditions of R146 in their order. -/
def State.nextDraw (s : State) (core : Nat) : Option Nat :=
  let bins := (s.core core).bins.filterMap fun n => (s.binSince n).map fun since => (since, n)
  let oldest := fun (l : List (Nat × Bin)) => ((sortBy (fun (a b : Nat × Bin) => decide (a.1 < b.1)) l).head?).map (·.2.no)
  match oldest (bins.filter fun e => s.binFull e.2) with
  | some n => some n
  | none =>
    match oldest (bins.filter fun e => decide (e.1 + 64 ≤ s.dieTime (core / 64))) with
    | some n => some n
    | none => if s.someIssues core then none else oldest bins

/-- BUNDLE_DRAW. -/
def execBundleDraw (core bin : Nat) (s : State) : Out :=
  .next (if s.nextDraw core != some bin || s.issue.isSome then s
    else match (s.core core).bins.find? fun n => n.no == bin with
      | none => s
      | some n => match (s.drawable n).take 8 with
        | [] => s
        | e :: es => s.formBundle core e.block e.role ((e :: es).map (·.quad)))

/-! ## BOLT_DRAIN (R148) -/

/-- The key of the BOLT records that a bin holds: its own, or in the spill bin that of the oldest record without a bin
of its own. -/
def Core.boltKey (c : Core) (bin : Nat) : Option (Nat × Dword × Word) :=
  if bin == 255 then
    (c.bolts.find? fun r => !(c.bins.any fun n => n.key == .bolt r.block r.entry r.key)).map fun r => (r.block, r.entry, r.key)
  else match c.bins.find? fun n => n.no == bin with
    | some n => match n.key with
      | .bolt b e k => some (b, e, k)
      | .pc .. => none
    | none => none

/-- The records of a key, in deposit order. -/
def Core.boltsOf (c : Core) (x : Nat × Dword × Word) : List BoltRec :=
  c.bolts.filter fun r => r.block == x.1 && r.entry == x.2.1 && r.key == x.2.2

/-- The free quads of a block, in ascending number: every thread has exited and holds no record. Where there is none and no
thread of the block lives, every quad is free, since every record then relaunches (R148; log 35). -/
def State.freeQuads (s : State) (b : Nat) (k : Block) : List Nat :=
  let exited := (List.range (divUp k.T 4)).filter k.quadExited
  let free := exited.filter fun q => !((s.core k.core).bolts.any fun r => r.block == b && r.tid / 4 == q)
  if free.isEmpty && k.threads.all (·.exited) then exited else free

/-- Whether a BOLT bin is to be drained: 32 records, or an oldest one of 64 cycles, or 2 rounds at DL1 and above. -/
def State.boltDue (s : State) (core : Nat) (x : Nat × Dword × Word) : Bool :=
  match s.block? x.1, s.gridOf x.1 with
  | some k, some g =>
    let rs := (s.core core).boltsOf x
    let age := s.binTime g.dl core - (match rs with | r :: _ => r.since | [] => 0)
    s.blockIssues k && !rs.isEmpty && !(s.freeQuads x.1 k).isEmpty
    && (decide (32 ≤ rs.length) || decide ((if g.dl == 0 then 64 else 2) ≤ age))
  | _, _ => false

/-- A thread slot relaunched with a record (R139, R148). -/
def Thread.relaunched (old : Thread) (r : BoltRec) : Thread :=
  ({ Thread.start with pc := r.entry, retired := r.count, relaunch := old.relaunch + 1 }).setGroup 0 r.payload

/-- A free quad filled with up to four records. -/
def State.fillQuad (s : State) (b q : Nat) (rs : List BoltRec) : State :=
  s.updBlock b fun k =>
    let k := ((k.quadThreads q).zip rs).foldl (fun k e => k.updThread e.1 fun th => th.relaunched e.2) k
    k.updQuad q fun d => { d with place := .gone, tag := 0, yielded := none }

/-- The records of a key put one after another into the lowest quad that is free by then, while records and quads last: the
machine, and the quads filled (R148). -/
def State.drainInto (s : State) (core : Nat) (x : Nat × Dword × Word) : Nat → List Nat → State × List Nat
  | 0, qs => (s, qs)
  | fuel + 1, qs =>
    match s.block? x.1 with
    | none => (s, qs)
    | some k => match s.freeQuads x.1 k, (s.core core).boltsOf x with
      | q :: _, r :: rs =>
        let taken := (r :: rs).take (k.quadThreads q).length
        let s := s.updCore core fun c => { c with bolts := taken.foldl (fun l r => l.erase r) c.bolts }
        (s.fillQuad x.1 q taken).drainInto core x fuel (qs ++ [q])
      | _, _ => (s, qs)

/-- The records of a key that is due, relaunched; the new quads are filed in ascending number. -/
def State.drainBolt (s : State) (core : Nat) (x : Nat × Dword × Word) : State :=
  let (s, qs) := s.drainInto core x 512 []
  let s := s.fileQuads x.1 qs
  if ((s.core core).boltsOf x).isEmpty then
    s.updCore core fun c => { c with bins := c.bins.filter fun n => n.key != .bolt x.1 x.2.1 x.2.2 }
  else s

/-- BOLT_DRAIN. At DL1 and above the bins are drained as a round of the Governor begins (R84; log 35). -/
def execBoltDrain (core bin : Nat) (s : State) : Out :=
  .next (match (s.core core).boltKey bin with
    | none => s
    | some x => if !s.boltDue core x || s.issue.isSome || !s.dl0 x.1 then s else s.drainBolt core x)

/-! ## The Governor (R84) -/

/-- A bundle's block path and lowest thread, by which the Governor orders it. -/
def State.bundleOrder (s : State) (u : Bundle) : List Nat × Nat × Nat :=
  let low := u.slots.foldl (fun m e => min m (4 * e.2)) 4096
  match s.block? u.block with
  | some k => (k.path, u.block, low)
  | none => ([], u.block, low)

def State.bundleBefore (s : State) (a b : Bundle) : Bool :=
  let x := s.bundleOrder a
  let y := s.bundleOrder b
  if x.1 != y.1 then pathLt x.1 y.1
  else if x.2.1 != y.2.1 then decide (x.2.1 < y.2.1) else decide (x.2.2 < y.2.2)

/-- The quads at DL1 and above that wait in the bins of a core and can run, with their keys. -/
def State.governed (s : State) (core : Nat) : List (BinEntry × Dword) :=
  (s.core core).bins.flatMap fun n => n.entries.filterMap fun e =>
    match s.block? e.block with
    | some k => if !s.dl0 e.block && s.blockIssues k then (k.quadKey e.quad).map fun p => (e, p) else none
    | none => none

/-- The keys of the groups in ascending order: block by path, role, counter. -/
def State.groupKeys (s : State) (es : List (BinEntry × Dword)) : List (Nat × Nat × Dword) :=
  let ks := dedup (es.map fun e => (e.1.block, e.1.role, e.2))
  let path := fun (b : Nat) => match s.block? b with | some k => k.path | none => []
  sortBy (fun (a b : Nat × Nat × Dword) =>
    if path a.1 != path b.1 then pathLt (path a.1) (path b.1)
    else if a.1 != b.1 then decide (a.1 < b.1)
    else if a.2.1 != b.2.1 then decide (a.2.1 < b.2.1) else decide (a.2.2.toNat < b.2.2.toNat)) ks

/-- Bundles of eight formed from a group's quads. -/
def State.formAll (s : State) (core b role : Nat) : Nat → List Nat → State
  | 0, _ => s
  | fuel + 1, qs => if qs.isEmpty then s else (s.formBundle core b role (qs.take 8)).formAll core b role fuel (qs.drop 8)

/-- The first part of a round: bundles formed from the groups that are large or old enough. -/
def State.formRound (s : State) (core : Nat) : State :=
  let es := s.governed core
  let round := (s.core core).round
  (s.groupKeys es).foldl (fun s x =>
    let g := es.filter fun e => e.1.block == x.1 && e.1.role == x.2.1 && e.2 == x.2.2
    if decide (8 ≤ g.length) || g.any (fun e => decide (e.1.since + 2 ≤ round)) then
      s.formAll core x.1 x.2.1 (g.length + 1) (sortBy (fun a b => decide (a < b)) (g.map fun e => e.1.quad))
    else s) s

/-- Whether a round would find something to do. -/
def State.roundDue (s : State) (core : Nat) : Bool :=
  (s.rotationHead core).isNone
  && (!(s.governed core).isEmpty
    || (s.core core).bundles.any (fun u => !s.dl0 u.block && s.runnable core u.id)
    || (s.core core).bolts.any (fun r => !s.dl0 r.block && (match s.block? r.block with
        | some k => s.blockIssues k && !(s.freeQuads r.block k).isEmpty
        | none => false)))

/-- The BOLT bins of blocks at DL1 and above that are due, drained in ascending block path, entry and key (R84, R148). -/
def State.drainRound (s : State) (core : Nat) : State :=
  let path := fun (b : Nat) => match s.block? b with | some k => k.path | none => []
  let keys := dedup (((s.core core).bolts.filter fun r => !s.dl0 r.block).map fun r => (r.block, r.entry, r.key))
  (sortBy (fun (a b : Nat × Dword × Word) =>
    if a.1 != b.1 then pathLt (path a.1) (path b.1)
    else if a.2.1 != b.2.1 then decide (a.2.1.toNat < b.2.1.toNat) else decide (a.2.2.toNat < b.2.2.toNat)) keys).foldl
    (fun s x => if s.boltDue core x then s.drainBolt core x else s) s

/-- GOVERNOR_ROUND: the bundles of the round formed, and the rotation set. A bundle that stands still within a clause, of a block
that cannot run now, keeps its place before them (R116). -/
def execGovernorRound (core : Nat) (s : State) : Out :=
  .next (if !s.roundDue core || s.issue.isSome then s
    else
      let s := s.updCore core fun c => { c with round := c.round + 1 }
      let s := (s.drainRound core).formRound core
      let us := (s.core core).bundles.filter fun u => !s.dl0 u.block && s.runnable core u.id
      let order := (sortBy s.bundleBefore us).map (·.id)
      s.updCore core fun c => { c with rotation :=
        (c.rotation.filter fun id => !order.contains id && (s.bundle? core id).any fun u => u.paused.isSome) ++ order })

/-! ## When a result is written (R84, R156) -/

/-- Whether a bundle stands at a clause that waits for a result: of one of its active lanes, or, where a clause of it named no
flag, of any thread of its quads. -/
def State.bundleWaits (s : State) (k : Block) (u : Bundle) (p : PendOp) : Bool :=
  u.block == p.block && u.slots.any (fun e => (k.quadThreads e.2).contains p.tid)
  && (p.flag == 15 || (match k.bundleKey u with
    | none => false
    | some pc => ((k.activeLanes u pc).any fun l => l.2 == p.tid) && (match s.fetchClause p.block pc with
      | .error _ => false
      | .ok (_, hdr, _) => waitCovers (Header.ofWord hdr).wait p.flag)))

/-- Whether a result that has come may be written now. At DL1 and above, where another thread could see it through the
on-chip map, it is written in its bundle's place in the rotation, when a clause waits for it, and otherwise when the turn
drains: when no bundle of the core can run and no round is due (R84; log 25). -/
def State.writeDue (s : State) (p : PendOp) : Bool :=
  s.dl0 p.block || (match s.block? p.block with
    | none => true
    | some k => s.issue.isNone && !s.gatedDie (k.core / 64) && (match s.rotationHead k.core with
      | none => !s.roundDue k.core
      | some id => (s.bundle? k.core id).any fun u => s.bundleWaits k u p))

/-- RESULT_WRITEBACK: a result that has come is written, and its flag follows. A reply with an error is not written. -/
def execResultWriteback (id : Nat) (s : State) : Out :=
  .next (match s.pending.find? fun p => p.id == id with
    | none => s
    | some p =>
      if !p.ready || p.error.isSome || !s.writeDue p then s
      else
        let s := { s with pending := s.pending.filter fun q => q.id != id }
        let s := s.updThread p.block p.tid fun th => if th.exited then th else th.writeResult p
        (s.dropMarks p (s.dl0 p.block)).settleFlag p.block p.tid p.flag)

end Sys2Proof.Machine
end

