-- ==== Sys2Proof/Machine/Fabric.lean ====
section
/-! DEFINITION. Noern-F and Noern-H as this device sees them: device ID, routes, the messages that arrive and what each
does, forwarding, replay, flow control, the loss of a port or a link, and host lines (R31-R52, R88, R173, R175). -/

namespace Sys2Proof.Machine

/-! ## FABID and the route table (R32, R33) -/

/-- FABID_WRITE: ignored while any port is trained. -/
def execFabidWrite (v : Dword) (s : State) : Out :=
  .next (if s.fabric.ports.any fun e => e.2.trained then s
    else { s with fabric := { s.fabric with devid := v.extractLsb' 0 10 } })

/-- ROUTE_ENTRY_WRITE: ignored where PORT is above 17. -/
def execRouteEntryWrite (id : BitVec 10) (v : Word) (s : State) : Out :=
  .next (if 17 < bitsAt v.toNat 0 5 then s
    else { s with fabric := { s.fabric with
      routes := Sparse.set Route.none s.fabric.routes id.toNat ⟨onBit v 5, v.extractLsb' 0 5⟩ } })

/-! ## Page attributes in replies (R38, log 8) -/

/-- The attributes of a page as a reply carries them, in 15 bits. -/
def leafBits (l : Leaf) : Nat :=
  l.fmt.code.toNat + 2 ^ 4 * (l.redop % 8) + (if l.view then 2 ^ 7 else 0) + 2 ^ 8 * (l.domain % 4) + 2 ^ 10 * (l.policy % 4)
    + 2 ^ 12 * (l.geom % 8)

/-- The page of an address on another device, with the attributes that a reply brings. -/
def leafFrom (va n : Nat) : Leaf :=
  { remoteLeaf va with
    fmt := (fmtOfNat (bitsAt n 0 4)).getD .bytes, redop := bitsAt n 4 3, view := bitAt n 7, domain := bitsAt n 8 2
    policy := bitsAt n 10 2, geom := bitsAt n 12 3 }

/-! ## Answers to this device's requests (R39, R44, R328) -/

/-- The status in a reply's OPW (log 8). -/
def msgStatus (m : Msg) : Nat := bitsAt m.opw.toNat 32 8

/-- The trap code and cause that a rejection stands for: named by the message, or that of its status (R40, R44, R328). -/
def msgError (m : Msg) : Nat × Nat :=
  let code := bitsAt m.opw.toNat 40 8
  if code ≠ 0 then (code, bitsAt m.opw.toNat 48 8)
  else match (msgStatus m) with
    | 1 => (cRUNSUP, 1)
    | 2 => (cRUNSUP, 2)
    | 3 => (cPROT, 5)
    | _ => (cINTEG, 6)

/-- What an answer brings: the attributes of the page with what was read or the acknowledgement, or a rejection with its
status. -/
inductive Answer where
  | data (l : Leaf) (bs : List Byte)
  | value (l : Leaf) (v : Nat) (fl : Flags)
  | ack (l : Leaf)
  /-- a rejection with a status, where that is not 0, or with a code and a cause -/
  | error (status code cause : Nat)
  /-- a reply whose checks fail, with the bytes of it that pass their own -/
  | broken (cause : Nat) (bs : List Byte)
  deriving DecidableEq, Repr

/-- A lost message, as an answer (R44). -/
def Answer.lost (cause : Nat) : Answer := .error 0 cINTEG cause

/-- An answer of which nothing is used, as a rejection. -/
def Answer.plain : Answer → Answer
  | .broken c _ => .lost c
  | a => a

/-- The registers of a load from its bytes, as its howCode describes them (R321-R323). -/
def loadHow (how : Nat × Nat × Nat) (bs : List Byte) : List (Nat × Word) × Flags :=
  let w : Width := BitVec.ofNat 2 (how.2.1 / 8)
  let size : LdSize := match how.2.1 % 4 with | 0 => .raw | 1 => .byte | 2 => .half | _ => .x
  let (ws, fl) := loadRegs w size (bitAt how.2.1 2) ((fmtOfNat how.2.2).getD .bytes) bs
  (regWrites how.1 ws, fl)

def State.updPending (s : State) (id : Nat) (f : PendOp → PendOp) : State :=
  { s with pending := s.pending.map fun p => if p.id == id then f p else p }

/-- A request is no longer outstanding. -/
def State.closeRemote (s : State) (tag : Word) : State :=
  { s with fabric := { s.fabric with remotes := s.fabric.remotes.filter fun x => x.tag != tag } }

/-- Whether a thread waits for the answer to a tag. -/
def State.waitsFor (s : State) (b tid : Nat) (tag : Word) : Bool := (s.thread b tid).status == .waiting (.remote tag)

/-- The device that homes a granule has found a slot: a child whose threads all have theirs goes on, at DL1 and above at the next
boundary of its grid (R87, R116, R117, log 74). -/
def State.unlack (s : State) (b : Nat) : State :=
  match s.block? b with
  | none => s
  | some k => match k.state with
    | .noSlots _ => if s.dl0 b && k.threads.any fun th => th.status == .noSlot then s else s.resumeChild b none
    | _ => if k.threads.any fun th => th.status == .noSlot then s else s.updBlock b fun k => { k with lackSince := none, lackUse := none }

/-- The core of the block to which a result belongs. -/
def State.coreOf (s : State) (id : Nat) : Option Nat :=
  (s.pending.find? fun p => p.id == id).bind fun p => (s.block? p.block).map (·.core)

/-- A load that another device answers: its bytes under what its thread must see over them, and the copies that a proxy slice
and the core's cache may keep, as the page's policy there allows; an older copy in the slice goes (R87, R136, R170, R177). -/
def State.answerLoad (s : State) (r : Remote) (id : Nat) (keep near : Bool) (l : Leaf) (bs : List Byte) : State :=
  let meets := fun (p : ProxyPiece) => p.tenant == r.tenant && decide (p.va < r.va + bs.length ∧ r.va < p.va + p.bytes.length)
  let s := if keep && l.policy != 1 then { s with proxy := (s.proxy.filter fun p => !meets p) ++ [⟨r.tenant, r.va, bs⟩] } else s
  let s := match (if near && l.policy == 0 then s.coreOf id else none) with
    | some c => s.keepRemote c r.tenant r.va (.remote r.dst.toNat r.addr) bs
    | none => s
  s.updPending id fun p =>
    let (rs, fl) := loadHow p.how (overlayStores bs r.va p.cover)
    { p with regs := rs, fpflags := fl, ready := true }

/-- The registers that a returning atomic writes: the old value, or with .NF the status and zeros (R328). -/
def atomAnswer (how : Nat × Nat × Nat) (v : Nat) : List (Nat × Word) :=
  regWrites how.1 (natToWords how.2.1 (if how.2.2 == 1 then 0 else v))

/-- A load or an atomic that ends with an error of its reply: INTEG, which is posted, and its thread takes it too. A fault of the
page that its test did not find is one, for the instruction has passed (R44, R221; log 26). -/
def State.answerError (s : State) (r : Remote) (id access code cause : Nat) : State :=
  let cause := if code = cINTEG then cause else 6
  (s.remoteRecord r.tenant r.what r.va cINTEG cause).replyLost id ⟨cINTEG, cause, access, r.va⟩

/-- An atomic that the target rejects: with .NF its status is the result, which is no error (R40, R328). A page that the target
cannot translate has trapped before, at the test (log 26). -/
def State.answerAtomicError (s : State) (r : Remote) (id status code cause : Nat) : State :=
  if status ≠ 0 && s.pending.any fun p => p.id == id && p.how.2.2 == 1 then
    s.updPending id fun p => { p with regs := regWrites p.how.1 (natToWords p.how.2.1 status), ready := true }
  else s.answerError r id 2 code cause

/-- An atomic that has been performed. A compare-and-swap that has stored counts as a write of its core from now on (R173,
R326). -/
def State.answerAtomic (s : State) (r : Remote) (id : Nat) (cas : Option Dword) (v : Nat) (fl : Flags) : State :=
  let s := match (s.pending.find? fun p => p.id == id), cas with
    | some p, some c =>
      if c.toNat != v then s
      else match s.block? p.block with
        | some k => if k.vtag == 0 then (s.noteWritten k.core r.tenant r.va).noteStored p.block p.tid p.pc r.va else s
        | none => s
    | _, _ => s
  (match s.whose r.what with | some (b, _) => s.unlack b | none => s).updPending id fun p =>
    { p with regs := atomAnswer p.how v, fpflags := fl, ready := true }

/-- A thread is told of a page and executes its instruction again. -/
def State.toldPage (s : State) (b tid va : Nat) (l : Leaf) (status : Nat) : State := (s.tellPage b tid va l status).wake b tid

/-- The answer to the test of a page: its thread executes the instruction again, with the attributes of the page; a refusal
is taken at the instruction, and of an atomic with .NF a status is what the atomic writes; a test that is lost leaves the access
itself to be lost. A page there that gives XLATE or PROT traps with .NF too: the statuses of R40 are those of the operation, the
format, the tenant or scope, and the message (R38, R40, R44, R327; DEDUCED, log 26). -/
def State.answerTest (s : State) (tag : Word) (b tid access va : Nat) (nf : Bool) (a : Answer) : State :=
  if !s.waitsFor b tid tag then s
  else match a with
    | .data l _ | .ack l | .value l _ _ => s.toldPage b tid va { remoteLeaf va with
        fmt := l.fmt, redop := l.redop, view := l.view, domain := l.domain, policy := l.policy, geom := l.geom } 0
    | .error st c k =>
      if nf && st ≠ 0 then s.toldPage b tid va (remoteLeaf va) st
      else if c = cINTEG then s.toldPage b tid va (remoteLeaf va) 0
      else s.trapWaiting b tid (Trap.ofXlate (c, k) access va)
    | .broken .. => s.toldPage b tid va (remoteLeaf va) 0

/-- A thread has the slot of its view on another device, and executes its instruction again once its child runs (R102, R117). -/
def State.giveSlot (s : State) (b tid va : Nat) : State :=
  let s := s.updThread b tid fun th => { th with captured := th.captured ++ [va / 128] }
  let waits : Bool := (s.block? b).any fun k => match k.state with | .noSlots _ => true | _ => false
  if !waits then s.wake b tid
  else if s.dl0 b then (s.wake b tid).unlack b
  else (s.updThread b tid fun th => { th with status := .noSlot }).unlack b

/-- The answer about the slot of a view on another device: its thread goes on with its write. A fault of the page there is taken at
the instruction; where the answer is lost the write itself goes (R44, R102, R116). -/
def State.answerCapture (s : State) (r : Remote) (b tid access va : Nat) (a : Answer) : State :=
  if !s.waitsFor b tid r.tag then s
  else match a with
    | .error _ c k =>
      if c = cXLATE || c = cPROT then s.trapWaiting b tid (Trap.ofXlate (c, k) access va)
      else (s.remoteRecord r.tenant r.what r.va c k).giveSlot b tid va
    | _ => s.giveSlot b tid va

/-- The answer to a store: a fault that the target finds, and a loss, are recorded (R38, R44). -/
def State.answerStore (s : State) (r : Remote) (b : Nat) (a : Answer) : State :=
  match a with
  | .error _ c k => s.remoteRecord r.tenant r.what r.va c k
  | _ => s.unlack b

/-- The answer to a RED that the home has performed for some threads: its flags reach those that have not exited (R194, R330). -/
def State.answerRed (s : State) (r : Remote) (ths : List (Nat × Nat)) (a : Answer) : State :=
  match a with
  | .value _ _ fl => (ths.foldl (fun s e => s.unlack e.1) s).raiseLive ths fl
  | .error _ c k => s.remoteRecord r.tenant r.what r.va c k
  | _ => s

/-- The answer to a request of an engine operation. Of a lost one the sector holds what it held before or what was delivered, with
an INTEG record and the error bit; a fault that the target finds abandons the operation (R44, R339). -/
def State.answerCopy (s : State) (r : Remote) (id : Nat) (a : Answer) : State :=
  let lose := fun (s : State) (c : Nat) (bs : List Byte) =>
    (s.remoteRecord r.tenant r.what r.va cINTEG c).updEngine id fun e => { e with
      waits := e.waits - 1, err := true, got := if e.written then e.got else e.got ++ [(r.va, remoteLeaf r.va, bs)] }
  match a with
  | .data l bs => s.updEngine id fun e => { e with waits := e.waits - 1, got := e.got ++ [(r.va, leafFrom r.va (leafBits l), bs)] }
  | .broken c bs => lose s.tick c (if Config.freeBit s.freeCtr then bs else [])
  | .error _ c k =>
    if c = cINTEG then lose s k []
    else match s.engine? id with
      | some e => s.abandonEngine e { Trap.of c k with access := 4, addr := r.va }
      | none => s
  | _ => (match s.engine? id with | some e => s.unlack e.block | none => s).updEngine id fun e => { e with waits := e.waits - 1 }

/-- The answer about a speculated tile: a page of it, or its bytes, which are free where they are lost (R38, R130, R132). -/
def State.answerTile (s : State) (r : Remote) (b tid v va n : Nat) (test : Bool) (a : Answer) : State :=
  match a, test with
  | .data l _, true => s.tellPage b tid va { remoteLeaf va with fmt := l.fmt } 0
  | .data _ bs, false => s.putTile b v va ((bs ++ List.replicate n 0).take n)
  | .error _ c k, true =>
    (if c = cINTEG then s.remoteRecord r.tenant r.what r.va c k else s).tellPage b tid va (remoteLeaf va) (refusal (c, k))
  | .error _ c k, false => (s.remoteRecord r.tenant r.what r.va c k).tick.putTile b v va (s.freeBytes n)
  | _, _ => s

/-- The answer to the device's own read, for the steps that wait for it (R71, R123). -/
def State.answerOwn (s : State) (r : Remote) (n : Nat) (a : Answer) : State :=
  let o : OwnRead := match a with
    | .data _ bs => ⟨r.tenant, r.va, n, none, bs⟩
    | .error _ c k => ⟨r.tenant, r.va, n, some (c, k), []⟩
    | _ => ⟨r.tenant, r.va, n, some (cINTEG, 6), []⟩
  ({ s with fabric := { s.fabric with own := s.fabric.own ++ [o] } }).retryStarts

/-- The error of an answer to a write, if it is one. -/
def Answer.fault : Answer → Option Err
  | .error _ c k => some (c, k)
  | _ => none

/-- The answer to a write of a fault record: one that fails stays held until the host writes FQBASE, FQEN or FQHEAD (R73). -/
def State.answerRecord (s : State) (t : Nat) (a : Answer) : State := if a.fault.isSome then s else s.recordTaken t

/-- The answer to the list of a timeout: its threads trap, and AUX tells whether the list is lost (R228). -/
def State.answerDiag (s : State) (r : Remote) (who : List (Nat × Nat)) (trap : Trap) (lost : Nat) (a : Answer) : State :=
  let s := if a.fault.isSome then s else s.releaseLines r.tenant r.va 1024
  who.foldl (fun s e => if s.waitsFor e.1 e.2 r.tag then
    s.trapWaiting e.1 e.2 (if a.fault.isSome then { trap with aux0 := lost } else trap) else s) s

/-- A request is answered. -/
def State.answerPlain (s : State) (r : Remote) (a : Answer) : State :=
  match r.what, a with
  | .load id keep near, .data l bs => s.answerLoad r id keep near l bs
  | .load id _ _, .error _ c k => s.answerError r id 0 c k
  | .atomic id cas, .value _ v fl => s.answerAtomic r id cas v fl
  | .atomic id _, .error st c k => s.answerAtomicError r id st c k
  | .test b tid access va nf, a => s.answerTest r.tag b tid access va nf a
  | .capture b tid access va, a => s.answerCapture r b tid access va a
  | .store b _ _, a => s.answerStore r b a
  | .red ths _, a => s.answerRed r ths a
  | .copy id, a => s.answerCopy r id a
  | .tile b tid v va n test, a => s.answerTile r b tid v va n test a
  | .own n, a => s.answerOwn r n a
  | .status q gid i, a => s.statusWritten r.tenant q gid i a.fault
  | .trace q gid, .error _ c k => s.traceFail r.tenant q (c, k) r.va gid
  | .record, a => s.answerRecord r.tenant a
  | .diag who code cause addr aux aux1 lost, a =>
    s.answerDiag r who { Trap.of code cause with addr := addr, aux0 := aux, aux1 := aux1 } lost a
  | .signature, .error _ c k => s.remoteRecord r.tenant r.what r.va c k
  | _, _ => s

/-- The same; what could be delivered of a reply whose checks fail concerns copies alone (R44). -/
def State.answer (s : State) (r : Remote) (a : Answer) : State :=
  (s.closeRemote r.tag).answerPlain r (match r.what with | .copy _ => a | _ => a.plain)

/-- The request that a reply's TAG names. -/
def State.remote? (s : State) (tag : Word) : Option Remote := s.fabric.remotes.find? fun r => r.tag == tag

/-- Whether a message may end a request: it comes from where the request went, or it is a rejection, which a device on the way
may send (R34, R37). -/
def msgAnswers (m : Msg) (r : Remote) : Bool := m.ty == 0x1F || m.src == r.dst

/-- What a reply answers. -/
def State.answerTag (s : State) (m : Msg) (a : Answer) : State :=
  match s.remote? m.tag with
  | some r => if msgAnswers m r then s.answer r a else s
  | none => s

/-- The home of a granule has no slot for a view's write: its block is suspended until the home answers, which tells the slots in
use there (R103, R116, R118, log 74). -/
def State.lackRemote (s : State) (m : Msg) : State :=
  match (s.remote? m.tag).bind fun r => s.whose r.what with
  | some (b, _) => (s.suspendChild b).updBlock b fun k => { k with lackUse := some (bitsAt m.inl.toNat 0 32) }
  | none => s

/-- The attributes that a reply brings. -/
def msgLeaf (m : Msg) : Leaf := leafFrom 0 (m.opw.toNat % 2 ^ 16)

/-! ## Receiving (R37, R42-R44) -/

/-- The handle whose message this is, for the rule that a lost handle message breaks its handle (R49). -/
def msgHandle (m : Msg) : Option Dword :=
  let inl := fun (i : Nat) => BitVec.ofNat 64 (bitsAt m.inl.toNat (64 * i) 64)
  match m.ty.toNat with
  | 0x10 => some (inl 0)
  | 0x11 => some (inl 1)
  | 0x12 => some m.opw
  | 0x13 => some m.opw
  | 0x14 => some (inl 0)
  | _ => none

/-- Whether a message is a reply, which the device that it is for waits for. -/
def msgReplies (m : Msg) : Bool := [0x02, 0x04, 0x06, 0x09, 0x1F].contains m.ty.toNat

/-- What a rejection says of the message that it rejects: the handle of a handle message, and whether it was a reply of the device
that is told; for want of a slot, the slots in use here (R37, R118; log 8). -/
def State.nakInl (s : State) (dst : BitVec 10) (m : Msg) (code : Nat) : Nat :=
  match msgHandle m with
  | some h => h.toNat + 2 ^ 64
  | none => if msgReplies m && m.src == dst then 2 ^ 65 else if code = cVIEWPOOL then s.slotsUsed m.tenant.toNat % 2 ^ 32 else 0

/-- A rejection with a status and, where the target names one, a trap code and cause (R37; log 8). -/
def State.nakTo (s : State) (dst : BitVec 10) (m : Msg) (status code cause : Nat) : State :=
  let inl := s.nakInl dst m code
  s.tell (mkMsg 0x1F s.fabric.devid dst m.tenant.toNat 0 0 m.tag
    (BitVec.ofNat 64 (status * 2 ^ 32 + code * 2 ^ 40 + cause * 2 ^ 48)) (BitVec.ofNat 256 inl) [])

/-- A rejection to the source of a message. -/
def State.reject (s : State) (m : Msg) (status code cause : Nat) : State := s.nakTo m.src m status code cause

/-- The INTEG cause of a message whose checks fail: a sector check as its flit is met, the message check after the
last flit (R43, R44). -/
def msgInteg (m : Msg) : Option Nat :=
  if m.data.any fun f => !flitOk f then some 2
  else if m.mchk != msgCheck m || m.flits.toNat != m.data.length then some 1
  else none

/-- Whether a message breaks the header rules: an unknown type, a reserved field, a wrong channel, or a type that
carries exactly one data flit without it (R36, R37). -/
def msgMalformed (m : Msg) : Bool :=
  !msgOk m || ((m.ty == 0x07 || m.ty == 0x10 || m.ty == 0x11) && m.flits != 1)
  || (m.ty == 0x08 && bitsAt m.dst.toNat 8 2 != 0)

/-- One child's answer to a multicast; the last one is passed on, or completes the STMC (R46). -/
def State.takeMca (s : State) (tag : Word) (status : Nat) (lost : Option Nat) : State :=
  match s.fabric.mcasts.find? fun x => BitVec.ofNat 32 x.id == tag with
  | none => s
  | some x =>
    let st := max x.status status
    let why := if x.lost.isSome then x.lost else lost
    if x.left ≤ 1 then
      let s := { s with fabric := { s.fabric with mcasts := s.fabric.mcasts.filter fun y => y.id != x.id } }
      match x.issuer with
      | some (b, tid, pc, va) => (s.closeRemote x.tag).finishStmc x.tenant ⟨b, tid, pc⟩ va st why
      | none => match x.parent with
        | some p => s.tell (mkMsg 0x09 s.fabric.devid p x.tenant 0 0 x.tag (BitVec.ofNat 64 (st * 2 ^ 32)) 0 [])
        | none => s
    else { s with fabric := { s.fabric with mcasts := s.fabric.mcasts.map fun y =>
      if y.id == x.id then { y with left := y.left - 1, status := st, lost := why } else y } }

/-- Whether a tag is that of the copies of a multicast that this device has sent on. -/
def State.mcastTag (s : State) (tag : Word) : Bool := s.fabric.mcasts.any fun x => BitVec.ofNat 32 x.id == tag

/-- What a thread is told of a handle whose question is lost (R49). -/
def lostHandle : HView := .broken (statusWord (BitVec.ofNat 8 cINTEG) 0 0)

/-- What a reply's TAG names ends with an INTEG cause: a child of a multicast, a question about a handle, or a request, of which
the bytes that have come are told. -/
def State.endTag (s : State) (m : Msg) (cause : Nat) : State :=
  if s.mcastTag m.tag then s.takeMca m.tag 4 (some cause)
  else
    let bs := if m.ty == 0x02 && m.data.all flitOk then (flitBytes m.data).take (bitsAt m.opw.toNat 16 16) else []
    let asked : Bool := (s.remote? m.tag).any fun (r : Remote) => match r.what with | .poll .. | .await .. => true | _ => false
    if asked then s.answerAsked m.tag ((msgHandle m).getD 0) lostHandle else s.answerTag m (.broken cause bs)

/-- A message that breaks the header rules is dropped and its source told; what waits for a reply of that kind completes
with the error, and a multicast is answered with status 4 (R37, R44, R46). -/
def State.malformed (s : State) (m : Msg) : State :=
  if m.ty == 0x08 then s.tell (mkMsg 0x09 s.fabric.devid m.src m.tenant.toNat 0 0 m.tag (BitVec.ofNat 64 (4 * 2 ^ 32)) 0 [])
  else (if msgReplies m then s.endTag m 6 else s).reject m 4 0 0

/-- A message under another tag. -/
def retag (m : Msg) (tag : Word) : Msg := sealMsg { m with tag := tag, mchk := msgCheck { m with tag := tag } }

/-- A handle message that is lost breaks its handle with code INTEG, and posts the record; a question or its answer that is
lost is answered so too (R44, R49). -/
def State.loseHandle (m : Msg) (s : State) (c : Nat) : State :=
  match (msgHandle m) with
  | none => s
  | some h =>
    let s := s.postEvent m.tenant.toNat (FaultRec.integ c)
    let asked := m.ty == 0x12 && bitAt m.inl.toNat 8
    let s := if asked then
        s.tell (retag (hbkMsg s.fabric.devid m.src h (BitVec.ofNat 8 cINTEG) 0 0) m.tag)
      else if m.tag != 0 && m.ty != 0x11 then s.answerAsked m.tag h lostHandle else s.tellAwaits h lostHandle
    s.breakHandle chainFuel h (BitVec.ofNat 8 cINTEG) 0 0

/-- A message that goes no further: its source is told, or, of a reply, the device that waits for it; of a rejection
nobody (R34, R44). -/
def State.dropForward (s : State) (m : Msg) (cause : Nat) : State :=
  if m.ty == 0x1F then s else if msgReplies m then s.nakTo m.dst m 4 cINTEG cause else s.reject m 4 cINTEG cause

/-! ## Ports and receiving (R24, R37, R41-R44) -/

def State.port (s : State) (p : Nat) : Port := Sparse.get Port.none s.fabric.ports p

def State.updPort (s : State) (p : Nat) (f : Port → Port) : State :=
  { s with fabric := { s.fabric with ports := Sparse.set Port.none s.fabric.ports p (f (s.port p)) } }

/-- A message that a lost port did not deliver: its operation completes with the "link lost" error (R42, R44). -/
def State.loseSent (s : State) (m : Msg) : State :=
  let request := m.src == s.fabric.devid && [0x01, 0x03, 0x05, 0x07, 0x0A].contains m.ty.toNat
  match (if request then s.remote? m.tag else none) with
  | some r => s.answer r (Answer.lost 5)
  | none =>
    if m.ty == 0x08 then s.takeMca m.tag 4 (some 5)
    else if (msgHandle m).isSome then
      State.loseHandle m (if m.src == s.fabric.devid then s.answerAsked m.tag ((msgHandle m).getD 0) lostHandle else s) 5
    else s.dropForward m 5

/-- A port goes down: its FPORTS bit clears, the loss is reported, and what it has not delivered is lost (R42). -/
def State.losePort (s : State) (p : Nat) : State :=
  let x := s.port p
  if !x.trained then s
  else
    let s := s.updPort p fun _ => Port.none
    let s := { s with pkg := { s.pkg with fports := setBit s.pkg.fports p false, trainFail := s.pkg.trainFail ++ [p] } }
    let s := s.raiseAll 2
    (x.unacked.map (·.1) ++ x.waiting).foldl (fun s m => s.loseSent m) s

/-- A flit that a port receives fails its link check: it is discarded, and asked for again; one that fails 8 replays in succession
takes the port down (R42). -/
def State.flitFailed (s : State) (p : Nat) : State :=
  let x := s.port p
  if !x.trained then s
  else if 8 ≤ x.failures then s.losePort p
  else s.updPort p fun x => { x with failures := x.failures + 1, asks := x.asks + 1 }

/-- What has come by a port has passed its link checks. -/
def State.flitPassed (s : State) (p : Nat) : State :=
  if (s.port p).failures = 0 then s else s.updPort p fun x => { x with failures := 0 }

/-- A message at the receiver's link: taken further where every flit of it passes its link check (R42). -/
def State.atLink (s : State) (m : Msg) (take : State → State) : State :=
  let on := fun (f : State → Nat → State) => match m.via with | some p => f s p.toNat | none => s
  if linkOk m then take (on State.flitPassed) else on State.flitFailed

/-- A message of a type received. A message is dropped where malformed, lost where a check fails, otherwise taken. One for another
device, or of another type, is not this step's. -/
def State.receive (s : State) (ty : Nat) (m : Msg) (lost : State → Nat → State) (take : State → State) : State :=
  if m.ty.toNat != ty || (ty != 0x08 && m.dst != s.fabric.devid) then s
  else s.atLink m fun s =>
    if (msgMalformed m) then s.malformed m
    else match (msgInteg m) with
      | some c => lost s c
      | none => take s

/-- A request that fails its checks is rejected with the INTEG cause (R44). -/
def State.loseRequest (m : Msg) (s : State) (c : Nat) : State := s.reject m 4 cINTEG c

/-! ## Requests of other devices (R38-R40, R43) -/

/-- The byte count of a request (log 8). -/
def msgCount (m : Msg) : Nat := bitsAt m.opw.toNat 16 16

/-- Whether a CPW names a place on the chip, with a transaction barrier there that counts its sectors (R44; log 8). -/
def msgOnChip (m : Msg) : Bool := m.ty == 0x0A && bitAt m.opw.toNat 5

/-- The views of a request, none for one of the root view. -/
def msgViews (m : Msg) : List Nat := if msgOnChip m then [] else msgChain m

/-- Whether a request only tests a page (log 26). -/
def msgTests (m : Msg) : Bool :=
  match m.ty.toNat with
  | 0x01 => msgCount m == 0
  | 0x03 => msgCount m == 0 && (msgViews m).isEmpty
  | 0x05 => bitAt m.opw.toNat 14
  | _ => false

/-- The translation of a remote access here (R38, R40, R64), and the rule of R101 for a write of a view. -/
def State.remoteXlate (s : State) (m : Msg) (want : Want) : Except (Nat × Nat × Nat) Xl :=
  match s.pageHere m.tenant.toNat m.addr.toNat m.scope.toNat want with
  | .error e => .error e
  | .ok x =>
    if want == .wr && !(msgViews m).isEmpty && (x.leaf.kind == .host || !x.leaf.view) then .error (3, cPROT, 7) else .ok x

/-- A reply with data flits, the attributes of the page, and the count. -/
def State.sendLda (s : State) (m : Msg) (l : Leaf) (bs : List Byte) : State :=
  s.tell (mkMsg 0x02 s.fabric.devid m.src m.tenant.toNat 0 0 m.tag
    (BitVec.ofNat 64 (leafBits l + (msgCount m) * 2 ^ 16)) 0 (flitsOf bs))

/-- A remote load performed at the home, or the test of its page. -/
def State.performLdq (s : State) (m : Msg) : State :=
  match s.remoteXlate m .rd with
  | .error e => s.reject m e.1 e.2.1 e.2.2
  | .ok x =>
    let n := msgCount m
    if n = 0 then s.sendLda m x.leaf []
    else match s.lostHome x.home n with
      | some c => s.reject m 4 cINTEG c
      | none =>
        let s := s.fillTlb ownSite m.tenant.toNat x.leaf
        if (msgViews m).isEmpty then
          let s := (s.fillHost x.home false).flushAt x.home n
          s.sendLda m x.leaf (s.readHome x.home n)
        else s.sendLda m x.leaf (s.chainRead m.tenant.toNat m.addr.toNat x.home n (msgViews m))

/-- The acknowledgement of a store, a copy write or a signature. -/
def State.sendSta (s : State) (m : Msg) (attrs : Nat) : State :=
  s.tell (mkMsg 0x04 s.fabric.devid m.src m.tenant.toNat 0 0 m.tag (BitVec.ofNat 64 attrs) 0 [])

/-- A write of a request at its home: to memory, or to the working copy of the innermost of its views; none where the share
has no slot (R38, R102, R103). -/
def State.writeFor (s : State) (m : Msg) (va : Nat) (x : Xl) (bs : List Byte) : Option State :=
  let t := m.tenant.toNat
  match msgViews m with
  | [] => some (s.storeHome none t va x.home bs)
  | v :: l => (s.captureIn t (v :: l) va x).map fun s => s.writeSlot t v va bs

/-- A remote store performed at the home, or the test of its page; none where a view lacks a slot. -/
def State.performStq (s : State) (m : Msg) : Option State :=
  match s.remoteXlate m .wr with
  | .error e => some (s.reject m e.1 e.2.1 e.2.2)
  | .ok x =>
    let n := msgCount m
    if msgTests m then some (s.sendSta m (leafBits x.leaf))
    else match s.lostHome x.home (max 1 n) with
      | some c => some (s.reject m 4 cINTEG c)
      | none => ((s.fillTlb ownSite m.tenant.toNat x.leaf).writeFor m m.addr.toNat x ((flitBytes m.data).take n)).map fun s =>
          s.sendSta m (leafBits x.leaf)

/-- The atomic types and operations that this device implements: every one of ATOM (R40, R325). -/
def atomFmtOk (f : Nat) : Option Fmt :=
  match fmtOfNat f with
  | some .int32 => some .int32
  | some .int64 => some .int64
  | some .fp16 => some .fp16
  | some .bf16 => some .bf16
  | some .fp32 => some .fp32
  | some .fp64 => some .fp64
  | _ => none

def atomOpOf (n : Nat) : Option AOp :=
  match n with
  | 0 => some .add | 1 => some .sub | 2 => some .min | 3 => some .max | 4 => some .and | 5 => some .or
  | 6 => some .xor | 7 => some .xchg | 8 => some .cas | 9 => some .incwrap | 10 => some .decwrap | _ => none

/-- ATA with a status, or with the attributes of the page, the old value and the flags of the step (log 8). -/
def State.sendAta (s : State) (m : Msg) (attrs status old : Nat) (fl : Flags) : State :=
  s.tell (mkMsg 0x06 s.fabric.devid m.src m.tenant.toNat 0 0 m.tag
    (BitVec.ofNat 64 (attrs + status * 2 ^ 32 + fl.toNat * 2 ^ 56)) (BitVec.ofNat 256 old) [])

/-- The step of a remote atomic at its home; none where a view lacks a slot. -/
def State.atomicFor (s : State) (m : Msg) (x : Xl) (op : AOp) (fmt : Fmt) : Option State :=
  let t := m.tenant.toNat
  let va := m.addr.toNat
  let n := atomBytes fmt
  let s := s.fillTlb ownSite t x.leaf
  let s := if (msgViews m).isEmpty then (s.flushAt x.home n).fillHost x.home true else s
  let old := bytesToNat (s.chainRead t va x.home n (msgViews m))
  let c := bitsAt m.inl.toNat 64 64
  let (nv, fl) := atomStep op fmt (bitAt m.opw.toNat 13) old (bitsAt m.inl.toNat 0 64) c
  let bs := natToBytes n (if op == .cas && old != c % 2 ^ (8 * n) then old else nv)
  let s' := if op == .cas && old != c % 2 ^ (8 * n) && (msgViews m).isEmpty then some s else s.writeFor m va x bs
  s'.map fun s => s.sendAta m (leafBits x.leaf) 0 old fl

/-- A remote atomic performed at the home, rejected, or the test of its page (R40). -/
def State.performAtq (s : State) (m : Msg) : Option State :=
  match atomOpOf (bitsAt m.opw.toNat 0 8), atomFmtOk (bitsAt m.opw.toNat 8 4) with
  | none, _ => some (s.sendAta m 0 1 0 0)
  | _, none => some (s.sendAta m 0 2 0 0)
  | some op, some fmt =>
    match s.remoteXlate m .wr with
    | .error e => some (if e.2.1 = 0 then s.sendAta m 0 3 0 0 else s.reject m e.1 e.2.1 e.2.2)
    | .ok x =>
      if msgTests m then some (s.sendAta m (leafBits x.leaf) 0 0 0)
      else if x.leaf.fmt != .bytes && x.leaf.fmt != fmt then some (s.reject m 3 cOPERAND 10)
      else match s.lostHome x.home (atomBytes fmt) with
        | some c => some (s.reject m 4 cINTEG c)
        | none => s.atomicFor m x op fmt

/-- The first fault of the pages that a copy-engine write names: translation, the format of the copy, a lost unit (R43,
R341). -/
def State.cpwFault (s : State) (m : Msg) : Option (Nat × Nat × Nat) :=
  let f := bitsAt m.opw.toNat 0 5
  (sectorPieces m.addr.toNat (msgCount m)).findSome? fun p =>
    match s.remoteXlate { m with addr := BitVec.ofNat 53 p.1 } .wr with
    | .error e => some e
    | .ok x =>
      if f < 16 && x.leaf.fmt != .bytes && x.leaf.fmt.code.toNat != f then some (3, cOPERAND, 10)
      else (s.lostHome x.home p.2.1).map fun c => (4, cINTEG, c)

/-- Bytes of a request written sector by sector: those whose number satisfies a test. None where a view lacks a slot. -/
def State.writeSectors (s : State) (m : Msg) (bs : List Byte) (p : Nat → Bool) : Option State :=
  (sectorPieces m.addr.toNat bs.length).zipIdx.foldl (fun (acc : Option State) e => acc.bind fun s =>
    if !p e.2 then some s
    else match s.remoteXlate { m with addr := BitVec.ofNat 53 e.1.1 } .wr with
      | .error _ => some s
      | .ok x => if (s.lostHome x.home e.1.2.1).isSome then some s
          else s.writeFor m e.1.1 x ((bs.drop e.1.2.2).take e.1.2.1)) (some s)

/-- EXTWAIT for the threads at DL1 and above that wait at a barrier for a phase which something outside the grid has ended (R88,
R92). -/
def State.noteEnded (s : State) (o off phase : Nat) : State :=
  s.blocks.foldl (fun s e => if s.dl0 e.1 then s else (List.range e.2.T).foldl (fun s tid =>
    match (e.2.thread tid).status with
    | .waiting (.tbwait o' off' p _ _) =>
      if o' == o && off' == off && p.toNat == phase then s.threadEvent e.1 tid 0x09 (s.pcOf e.1 tid) else s
    | _ => s) s) s

/-- The sectors of a CPW on the chip come off the barrier that its inline operand names, with its error (R44, R343). -/
def State.cpwBarrier (s : State) (m : Msg) (err : Bool) : State :=
  match s.ocmFind m.tenant.toNat (m.inl.toNat % 2 ^ 29) 16 with
  | some (.scratch b off) =>
    let phase := tbPhase (s.tbGet b off)
    let s := s.tbOp b off [] (tbSectors (2 ^ 32 - divUp (msgCount m) 64 % 2 ^ 32) err)
    if tbPhase (s.tbGet b off) = phase then s else s.noteEnded b off phase
  | _ => s

/-- A copy-engine write: its bytes are written sector by sector at the home, or on the chip within one allocation (R43, R44). -/
def State.performCpw (s : State) (m : Msg) : Option State :=
  let bs := (flitBytes m.data).take (msgCount m)
  if msgOnChip m then
    some (match s.ocmFind m.tenant.toNat m.addr.toNat bs.length with
      | some x => ((s.ocmWrite x (bytesToWords bs)).cpwBarrier m false).sendSta m 0
      | none => s.reject m 3 cPROT 6)
  else match s.cpwFault m with
    | some e => some (s.reject m e.1 e.2.1 e.2.2)
    | none => (s.writeSectors m bs fun _ => true).map fun s => s.sendSta m 0

/-- Free bits, one for each of n sectors: which of them a failed message leaves written. -/
def State.freeMask (s : State) (n : Nat) : List Bool := (List.range n).map fun i => Config.freeBit (s.freeCtr + i)

/-- The sectors of a write that fails its message check: each holds what it held or what was delivered, whole; a flit
whose own check fails is never written (R43, R44). On the chip the barrier counts them with its error bit set, and INTEG is
posted here. -/
def State.partialWrite (s : State) (m : Msg) (cause : Nat) : State :=
  let bs := (flitBytes m.data).take (msgCount m)
  let mask := s.freeMask m.data.length
  let s := { s with freeCtr := s.freeCtr + m.data.length }
  let kept := fun (i : Nat) => mask.getD i false && (match m.data[i]? with | some f => flitOk f | none => false)
  if msgOnChip m then
    let s := (List.range m.data.length).foldl (fun s i =>
      let part := (bs.drop (64 * i)).take 64
      match s.ocmFind m.tenant.toNat (m.addr.toNat + 64 * i) part.length with
      | some x => if kept i then s.ocmWrite x (bytesToWords part) else s
      | none => s) s
    (s.cpwBarrier m true).postEvent m.tenant.toNat { FaultRec.integ cause with access := 4, addr := m.addr.setWidth 64 }
  else (s.writeSectors m bs kept).getD s

/-! ## Multicast (R46, R47) -/

/-- MCA to the device that a multicast came from. -/
def State.sendMca (s : State) (dst : BitVec 10) (t : Nat) (tag : Word) (status : Nat) : State :=
  s.tell (mkMsg 0x09 s.fabric.devid dst t 0 0 tag (BitVec.ofNat 64 (status * 2 ^ 32)) 0 [])

/-- The store that a multicast delivers here, once it is performed: its own answer among those of the tree (R46). -/
def State.performMcs (s : State) (m : Msg) : State :=
  let (s, st) := s.deliverMcs none m.tenant.toNat m.addr.toNat ((flitBytes m.data).take (msgCount m))
  s.takeMca m.tag st none

/-- A multicast that fails its checks leaves the sectors that it would have delivered here as they were or written (R44). -/
def State.loseMcs (m : Msg) (s : State) (c : Nat) : State :=
  let s := if s.deliversHere m.tenant.toNat (m.dst.toNat % 256) then s.partialWrite m c else s
  s.sendMca m.src m.tenant.toNat m.tag 4

/-! ## The order of arrival (R37, R47, R88) -/

/-- A request performed; none where a view's write lacks a slot here. -/
def State.tryRequest (s : State) (m : Msg) : Option State :=
  match m.ty.toNat with
  | 0x01 => some (s.performLdq m)
  | 0x03 => s.performStq m
  | 0x05 => s.performAtq m
  | 0x08 => some (s.performMcs m)
  | _ => s.performCpw m

/-- A request performed, or kept until a slot is free, its source told (R103, R116, log 74). -/
def State.performRequest (s : State) (m : Msg) : State :=
  match s.tryRequest m with
  | some s => s
  | none => ({ s with fabric := { s.fabric with slotWait := s.fabric.slotWait ++ [(s.cycle, m)] } }).reject m 0 cVIEWPOOL 0

/-- Writes of other devices' views for which there are slots now, in the order in which they and this device's children have been
suspended, tried again (R117). -/
def State.retrySlotWait (s : State) : State :=
  (dedup (s.fabric.slotWait.map fun e => e.2.tenant.toNat)).foldl (fun s t =>
    let n := ((s.servedNow t).filter fun e => e.2.isNone).length
    ((s.fabric.slotWait.filter fun e => e.2.tenant.toNat == t).take n).foldl (fun s e => match s.tryRequest e.2 with
      | some s => { s with fabric := { s.fabric with slotWait := s.fabric.slotWait.erase e } }
      | none => s) s) s

/-- Whether a grid of a tenant runs in turns here, and none of them is at its boundary. -/
def State.inTurns (s : State) (t : Nat) : Bool :=
  let gs := s.grids.filter fun e => e.2.tenant == t && e.2.dl != 0
  !gs.isEmpty && gs.all fun e => e.2.closing.isNone

/-- Whether two requests name a common byte. -/
def msgsMeet (a b : Msg) : Bool :=
  let n := fun (m : Msg) => if m.ty == 0x05 then 8 else max 1 (msgCount m)
  decide (a.addr.toNat < b.addr.toNat + n b ∧ b.addr.toNat < a.addr.toNat + n a)

/-- Whether a request waits for the turn boundary of a grid of its tenant: one that changes memory, and a load behind such a one of
the same source and bytes (R37, R39, R88). What a view does, no grid here sees. -/
def State.awaitsTurn (s : State) (m : Msg) : Bool :=
  s.inTurns m.tenant.toNat && (msgViews m).isEmpty && !msgTests m
    && (m.ty != 0x01 || s.fabric.arrived.any fun x => x.tenant == m.tenant && x.src == m.src && msgsMeet x m)

/-- A request taken: at once, or, where a grid of its tenant runs in turns, at that grid's next boundary (R88). -/
def State.takeRequest (s : State) (m : Msg) : State :=
  if s.awaitsTurn m then { s with fabric := { s.fabric with arrived := s.fabric.arrived ++ [m] } } else s.performRequest m

/-- The requests of a tenant that waited for a boundary are performed. -/
def State.applyArrived (s : State) (t : Nat) : State :=
  let ms := s.fabric.arrived.filter fun m => m.tenant.toNat == t
  let s := { s with fabric := { s.fabric with arrived := s.fabric.arrived.filter fun m => m.tenant.toNat != t } }
  ms.foldl (fun s m => s.performRequest m) s

/-- A multicast taken: the entry is read, and the copies are sent on, as it arrives; only its store waits for a boundary. The
answer goes back at once where nothing is waited for (R46, R88). -/
def State.takeMcs (s : State) (m : Msg) : State :=
  let later := s.inTurns m.tenant.toNat
  let (s, st, _, wait, now) := s.applyMcs (m.dst.toNat % 256) m.tenant.toNat m.addr.toNat m ((flitBytes m.data).take (msgCount m))
    (some m.src) none later
  let s := match wait with
    | some tag => { s with fabric := { s.fabric with arrived := s.fabric.arrived ++ [retag m tag] } }
    | none => s
  if now then s.sendMca m.src m.tenant.toNat m.tag st else s

/-- LDQ (R39). -/
def execLdq (m : Msg) (s : State) : Out := .next (s.receive 0x01 m (State.loseRequest m) fun s => s.takeRequest m)

/-- A write that fails its checks: indeterminate here, and its source told. -/
def State.loseWrite (m : Msg) (s : State) (c : Nat) : State := State.loseRequest m (s.partialWrite m c) c

/-- STQ (R39). -/
def execStq (m : Msg) (s : State) : Out := .next (s.receive 0x03 m (State.loseWrite m) fun s => s.takeRequest m)

/-- ATQ (R40). -/
def execAtq (m : Msg) (s : State) : Out := .next (s.receive 0x05 m (State.loseRequest m) fun s => s.takeRequest m)

/-- CPW (R43). -/
def execCpw (m : Msg) (s : State) : Out := .next (s.receive 0x0A m (State.loseWrite m) fun s => s.takeRequest m)

/-- MCS. A message that arrives with hop count 15 goes no further (R34). -/
def execMcs (m : Msg) (s : State) : Out :=
  .next (s.receive 0x08 m (State.loseMcs m) fun s =>
    if m.hops == 15 then s.sendMca m.src m.tenant.toNat m.tag 4 else s.takeMcs m)

/-- MCA: one child's answer (R46). -/
def execMca (m : Msg) (s : State) : Out :=
  .next (s.receive 0x09 m (fun s c => s.takeMca m.tag 4 (some c)) fun s => s.takeMca m.tag (msgStatus m) none)

/-! ## Replies (R39, R44, R328) -/

/-- LDA: the load completes, or raises INTEG on its reply. -/
def execLda (m : Msg) (s : State) : Out :=
  .next (s.receive 0x02 m (fun s c => s.endTag m c) fun s =>
    s.answerTag m (.data (msgLeaf m) ((flitBytes m.data).take (msgCount m))))

/-- STA. -/
def execSta (m : Msg) (s : State) : Out :=
  .next (s.receive 0x04 m (fun s c => s.endTag m c) fun s => s.answerTag m (.ack (msgLeaf m)))

/-- ATA: the old value, or a status. -/
def execAta (m : Msg) (s : State) : Out :=
  .next (s.receive 0x06 m (fun s c => s.endTag m c) fun s =>
    s.answerTag m (if (msgStatus m) = 0 then
        .value (msgLeaf m) (bitsAt m.inl.toNat 0 64) (BitVec.ofNat 5 (bitsAt m.opw.toNat 56 5))
      else .error (msgStatus m) (msgError m).1 (msgError m).2))

/-- A rejection: the source operation completes with the error of R44; of a reply that was rejected nothing waits here; a handle
message that was rejected is lost, with the cause that the rejection names; a
multicast has its answer; and a view's write that lacks a slot at its home suspends its block. -/
def State.takeNak (s : State) (m : Msg) : State :=
  let e := msgError m
  let cause := if e.1 = cINTEG then e.2 else 6
  if bitAt m.inl.toNat 65 then s
  else if bitAt m.inl.toNat 64 then
    let h : Dword := BitVec.ofNat 64 (bitsAt m.inl.toNat 0 64)
    ((s.postEvent m.tenant.toNat (FaultRec.integ cause)).answerAsked m.tag h lostHandle).breakHandle chainFuel h
      (BitVec.ofNat 8 cINTEG) 0 0
  else if s.mcastTag m.tag then s.takeMca m.tag 4 (some cause)
  else if e = (cVIEWPOOL, 0) then s.lackRemote m
  else s.answerTag m (.error (if bitsAt m.opw.toNat 40 8 = 0 then msgStatus m else 0) e.1 e.2)

/-- NAK. A message of an unknown type is dropped and rejected by this step too (R37). -/
def execNak (m : Msg) (s : State) : Out :=
  .next (if m.dst == s.fabric.devid && (msgVc m.ty.toNat).isNone then s.atLink m fun s => s.reject m 4 0 0
    else s.receive 0x1F m (fun s c => s.endTag m c) fun s => s.takeNak m)

/-! ## Signatures (R175) -/

/-- The copies of remote lines that match a signature go, and what loads now outstanding bring is not kept (R170, R175). -/
def State.dropMatching (s : State) (sg : BitVec 512) : State :=
  { s with
    proxy := s.proxy.filter fun p => !s.sigCovers sg p.tenant p.va
    fabric := { s.fabric with remotes := s.fabric.remotes.map fun r => match r.what with
      | .load id true near => if s.sigCovers sg r.tenant r.va then { r with what := .load id false near } else r
      | _ => r } }

/-- SIG: every core takes the signature into its pending one, the proxy slices drop what matches it, and it is
acknowledged. -/
def execSig (m : Msg) (s : State) : Out :=
  .next (s.receive 0x07 m (State.loseRequest m) fun s =>
    let sg := match m.data with | f :: _ => f.sector | [] => 0
    ((s.activeCores.foldl (fun s c => s.giveSig sg c) s).dropMatching sg).sendSta m 0)

/-! ## Handle messages (R48, R49) -/

/-- The handle in a dword of the inline operand. -/
def inlDword (m : Msg) (i : Nat) : Dword := BitVec.ofNat 64 (bitsAt m.inl.toNat (64 * i) 64)

/-- IVQ: the task is created here, with the terms that it brings, in the view whose chain is told with it (R96, R105; log 20). -/
def execIvq (m : Msg) (s : State) : Out :=
  .next (s.receive 0x10 m (State.loseHandle m) fun s =>
    let s := s.learnViews m.tenant.toNat m.views
    let h := inlDword m 0
    let die := if bitAt m.opw.toNat 3 then some (bitsAt m.opw.toNat 0 3) else none
    let w := s.termsFrom m.tenant.toNat (bitsAt m.inl.toNat 128 128 + 2 ^ 128 * (m.opw.toNat / 2 ^ 4))
    match m.data with
    | f :: _ => (s.know h).createTask h (inlDword m 1) (flitArgs f) [] none die w
    | [] => s)

/-- IVO: queued on the addressed handle, forwarded, or completed as broken. -/
def execIvo (m : Msg) (s : State) : Out :=
  .next (s.receive 0x11 m (State.loseHandle m) fun s =>
    let s := s.learnViews m.tenant.toNat m.views
    let w := s.termsFrom m.tenant.toNat (bitsAt m.inl.toNat 192 64 + 2 ^ 64 * m.opw.toNat + 2 ^ 128 * m.tag.toNat)
    match m.data with
    | f :: _ => ((s.know (inlDword m 0)).know (inlDword m 1)).addIvo (inlDword m 0) ⟨inlDword m 1, inlDword m 2, flitArgs f, w⟩
    | [] => s)

/-- A question about a handle at its home: answered at once with what the entry tells; the device of an AWAIT is told again once the
entry is READY or BROKEN (R48, R125; log 8). -/
def State.answerAsk (s : State) (m : Msg) : State :=
  let h := m.opw
  match s.handleView h with
  | .ready r => s.tell (retag (hrsMsg s.fabric.devid m.src h r) m.tag)
  | .broken st => s.tell (retag (hbkMsg s.fabric.devid m.src h (st.extractLsb' 0 8) (st.extractLsb' 8 8) (st.extractLsb' 16 2)) m.tag)
  | .notReady =>
    let s := if bitAt m.inl.toNat 11 then s.updSluice (hTenant h) (hSlot h) fun e =>
        { e with waiters := if e.waiters.contains m.src then e.waiters else e.waiters ++ [m.src] }
      else s
    s.tell (mkMsg 0x12 s.fabric.devid m.src (hTenant h) 4 0 m.tag h (2 ^ 10) [])

/-- HPL: the home entry becomes PLACED and its invocations go on; or a question about the handle, the notice that it is
dropped, or the answer that it is not ready (log 8). -/
def execHpl (m : Msg) (s : State) : Out :=
  .next (s.receive 0x12 m (State.loseHandle m) fun s =>
    let h := m.opw
    let n := m.inl.toNat
    if bitAt n 10 then s.answerAsked m.tag h .notReady
    else if hHome h != s.fabric.devid then s
    else if bitAt n 8 then s.answerAsk m
    else if bitAt n 9 then s.dropHandle h
    else if s.gone h then s
    else (s.updSluice (hTenant h) (hSlot h) fun e => { e with
        st := if e.st == .unplaced then .placed else e.st, place := some (m.src, bitsAt n 0 3) }).releaseIvos h)

/-- HRS: the handle becomes READY with its eight words, at its home or where a thread waits for it. -/
def execHrs (m : Msg) (s : State) : Out :=
  .next (s.receive 0x13 m (State.loseHandle m) fun s =>
    let h := m.opw
    let result := natToWords 8 m.inl.toNat
    if hHome h == s.fabric.devid then s.noteReady h result
    else
      let s := ((s.know h).updForeign h fun e => { e with st := .ready, done := true, result := result }).releaseIvos h
      if m.tag == 0 then s.tellAwaits h (.ready result) else s.answerAsked m.tag h (.ready result))

/-- HBK: the handle breaks with the code, hop count and reason of the message. -/
def execHbk (m : Msg) (s : State) : Out :=
  .next (s.receive 0x14 m (State.loseHandle m) fun s =>
    let n := m.inl.toNat
    let h := inlDword m 0
    let code : Byte := BitVec.ofNat 8 (bitsAt n 64 8)
    let hops : Byte := BitVec.ofNat 8 (bitsAt n 72 8)
    let reason : BitVec 2 := BitVec.ofNat 2 (bitsAt n 80 2)
    if hHome h == s.fabric.devid then s.breakHandle chainFuel h code hops reason
    else
      let v := HView.broken (statusWord code hops reason)
      if m.tag == 0 then ((s.know h).breakKnown h code hops reason).tellAwaits h v else s.answerAsked m.tag h v)

/-! ## Forwarding (R33, R34, R43) -/

/-- MESSAGE_FORWARD: through the route of its destination, one hop more; without a route, at hop count 15, or with a sector
that fails its check at the exit, it is dropped. -/
def execMessageForward (m : Msg) (s : State) : Out :=
  .next (if m.dst == s.fabric.devid || m.ty == 0x08 then s
    else s.atLink m fun s => if (msgMalformed m) then
      let s := s.reject m 4 0 0
      if msgReplies m then s.nakTo m.dst m 4 0 0 else s
    else if m.hops == 15 then s.dropForward m 4
    else if m.data.any fun f => !flitOk f then s.dropForward m 2
    else match s.send { sealMsg { m with hops := m.hops + 1 } with via := m.via } with
      | some s => s
      | none => s.dropForward m 3)

/-! ## Replay and flow control (R41, R42) -/

/-- FLIT_REPLAY: a flit fails its link check and is asked for again; a flit that fails 8 replays in succession takes
the port down (R42). -/
def execFlitReplay (port : BitVec 5) (s : State) : Out := .next (s.flitFailed port.toNat)

/-- Flits taken off the front of a replay buffer. -/
def dropFlits : Nat → List (Msg × Nat) → List (Msg × Nat)
  | _, [] => []
  | n, (m, k) :: l => if n < k then (m, k - n) :: l else dropFlits (n - k) l

/-- FLIT_ACKNOWLEDGE: the sender frees the flits (R42). -/
def execFlitAcknowledge (port : BitVec 5) (n : Nat) (s : State) : Out :=
  .next (if !(s.port port.toNat).trained then s
    else s.updPort port.toNat fun x => { x with unacked := dropFlits n x.unacked })

/-- FLOW_STOP (R41). -/
def execFlowStop (port : BitVec 5) (vc : BitVec 2) (s : State) : Out :=
  .next (if !(s.port port.toNat).trained then s
    else s.updPort port.toNat fun x => { x with stopped := setBit x.stopped vc.toNat true })

/-- FLOW_GO: what waited on the channel is sent, in order (R41). -/
def execFlowGo (port : BitVec 5) (vc : BitVec 2) (s : State) : Out :=
  .next (let x := s.port port.toNat
    if !x.trained then s
    else
      let s := s.updPort port.toNat fun x => { x with
        stopped := setBit x.stopped vc.toNat false, waiting := x.waiting.filter fun m => m.vc != vc }
      (x.waiting.filter fun m => m.vc == vc).foldl (fun s m => s.toPort port.toNat m) s)

/-! ## Folds at a grid's end (R50, R91, R330) -/

/-- Contributions in ascending block path (R50). -/
def heldBefore (a b : HeldRed) : Bool := pathLt a.path b.path

/-- The record of a contribution that its home cannot fold: it names the thread that made it (R27, R38, R74). -/
def State.foldFault (s : State) (t : Nat) (r : HeldRed) (e : Err) : State :=
  s.postEvent t { r.record with code := BitVec.ofNat 8 e.1, cause := BitVec.ofNat 8 e.2 }

/-- A block's value folded into its element on this device: the step of R326 at its home; the flags reach the contributing
threads that have not exited (R330). -/
def State.foldHeld (s : State) (t : Nat) (r : HeldRed) : State :=
  match s.xlate ownSite t r.va .wr with
  | .error e => s.foldFault t r e
  | .ok x =>
    let n := atomBytes r.fmt
    match s.lostHome x.home n with
    | some c => s.foldFault t r (cINTEG, c)
    | none =>
      let s := s.flushAt x.home n
      let (nv, fl) := atomStep r.op r.fmt false (bytesToNat (s.readHome x.home n)) r.value.toNat 0
      (s.storeHome (r.threads.head?.map fun tid => ⟨r.block, tid, r.record.pc⟩) t r.va x.home (natToBytes n nv)).raiseLive (r.threads.map fun tid => (r.block, tid)) fl

/-- The base of the page that holds an address. -/
def State.pageBase (s : State) (t va : Nat) : Nat := match s.leaf ownSite t va with | .ok l => l.base | .error _ => va / 2 ^ 17 * 2 ^ 17

/-- The number of the grid with a grid ID. -/
def State.gridNamed (s : State) (gid : Dword) : Option (Nat × Grid) := s.grids.find? fun e => e.2.gid == gid

/-- Whether a grid's blocks have completed, so that its held contributions may be folded. -/
def Grid.blocksDone (g : Grid) : Bool := decide (g.total ≤ g.finished)

/-- The device that homes an address of a tenant: this one, or the other that a remote entry names. -/
def State.homeDevice (s : State) (t va : Nat) : Nat :=
  match s.leaf ownSite t va with
  | .ok l => if l.kind == .remote then l.addr else s.fabric.devid.toNat
  | .error _ => s.fabric.devid.toNat

/-- A held value as it goes to its home, by its address there. -/
def HeldRed.contribution (r : HeldRed) : Contribution := ⟨r.path, r.va % 2 ^ 43, r.op, r.fmt, r.value⟩

/-- Another device's contribution, as this one holds it: its threads have exited. -/
def Contribution.held (gid : Dword) (c : Contribution) : HeldRed :=
  ⟨c.path, 0, c.va, c.op, c.fmt, c.value, [], { plainRecord 0 0 2 c.va with grid := gid }⟩

/-- CROSS_DEVICE_FOLD: the contributions of a grid to one reduction page. On another device they are sent to the page's home;
at the home they are folded with those of all other devices, which the step brings, in ascending block path. Where the grid's
blocks here have not completed, what it brings is held until they have. -/
def execCrossDeviceFold (gid : Dword) (at_ : FoldAt) (s : State) : Out :=
  .next (
    let t := gid.toNat / 2 ^ 58
    let home := s.homeDevice t at_.page.toNat
    let mine := fun (r : HeldRed) => s.pageBase t r.va == at_.page.toNat
    let others := at_.others.map (Contribution.held gid)
    let sorted := sortBy heldBefore
    match s.gridNamed gid with
    | none => if home = s.fabric.devid.toNat then (sorted others).foldl (fun s r => s.foldHeld t r) s else s
    | some (n, g) =>
      if !g.blocksDone then
        if home = s.fabric.devid.toNat then
          s.setGrid n { g with heldRed := g.heldRed ++ others, folds := g.folds ++ [at_.page.toNat] } else s
      else
        let own := g.heldRed.filter mine
        let s' := s.setGrid n { g with heldRed := g.heldRed.filter fun r => !mine r }
        if home = s.fabric.devid.toNat then (sorted (own ++ others)).foldl (fun s r => s.foldHeld t r) s'
        else if own.isEmpty then s
        else s'.note home (.contribute gid (own.map HeldRed.contribution)))

/-! ## Host memory (R51, R52, R173) -/

/-- HOST_LINE_INVALIDATE: the host writes within a sector of its memory; L2's copies go, and every core takes the
write as a signature at system scope for the line (R52, R174). -/
def execHostLineInvalidate (addr : Dword) (bytes : List Byte) (s : State) : Out :=
  .next (let a := addr.toNat
    let s := s.writeHost a (bytes.take (64 - a % 64))
    let s := { s with hostLines := s.hostLines.filter fun e => e.1 % 2 ^ 58 != a / 64 }
    s.activeCores.foldl (fun s c =>
      let sg := (s.core c).cache.foldl (fun sg x => match x.home with
        | .host t win _ off => if s.hostAddr t win off / 256 == a / 256 then sigAdd sg x.tenant (x.sector * 64) else sg
        | _ => sg) 0
      if sg == 0 then s else s.giveSig sg c) s)

/-- HOST_STORE_ACKNOWLEDGE: the oldest unacknowledged store to a host line is acknowledged. -/
def execHostStoreAcknowledge (s : State) : Out :=
  .next { s with fabric := { s.fabric with hostUnacked := s.fabric.hostUnacked.drop 1 } }

/-- The link that carries a host sector: link 0 in reduced service, in full service A[8], or the one link that is trained
(R51). Where neither is, the access goes on as usual, on link 1 (DESIGN CHOICE, log 91). -/
def State.linkOf (s : State) (sector : Nat) : Nat :=
  if !s.pkg.fullMap then 0
  else if onBit s.pkg.hlinks 0 && onBit s.pkg.hlinks 1 then bitsAt (sector * 64) 8 1
  else if onBit s.pkg.hlinks 0 then 0 else 1

/-- The stores in flight on a lost host link complete with "link lost": each sector holds what it held before or what
was stored (R44, R51). -/
def State.loseHostStores (s : State) : List HostStore → State
  | [] => s
  | x :: rest =>
    let s := s.loseHostStores rest
    let s := if Config.freeBit s.freeCtr then s.putHost (x.sector * 64) x.before else s
    s.tick.postEvent x.tenant x.record

/-- The loads and atomics in flight on a lost host link: those whose results are not written may have been lost with it, and then
complete with "link lost" (R44, R51, R221). -/
def State.loseHostLoads (s : State) (l : Nat) : State :=
  s.pending.foldl (fun s p => match p.host with
    | some (sector, access, va) =>
      if s.linkOf sector != l || p.error.isSome then s
      else if Config.freeBit s.freeCtr then
        (s.tick.postEvent (s.tenantOf p.block) (s.siteRecord (some ⟨p.block, p.tid, p.pc⟩) cINTEG 5 access va)).replyLost p.id
          ⟨cINTEG, 5, access, va⟩
      else s.tick
    | none => s) s

/-- A host link is lost (R51). -/
def State.loseHlink (s : State) (l : Nat) : State :=
  if !onBit s.pkg.hlinks l then s
  else
    let s := s.loseHostLoads l
    let (gone, left) := s.fabric.hostUnacked.partition fun x => s.linkOf x.sector == l
    let s := { s with pkg := { s.pkg with hlinks := setBit s.pkg.hlinks l false, trainFail := s.pkg.trainFail ++ [18 + l] }
                      fabric := { s.fabric with hostUnacked := left } }
    (s.raiseAll 2).loseHostStores gone

/-- HLINK_LOST. -/
def execHlinkLost (link : BitVec 1) (s : State) : Out := .next (s.loseHlink link.toNat)

end Sys2Proof.Machine
end

