-- ==== Sys2Proof/Machine/Package.lean ====
section
/-! DEFINITION. The package: reset, bring-up, the service switch, power and temperature, the loss of units, and board
management over I3C (R15-R30). -/

namespace Sys2Proof.Machine

/-! ## Units and CAPS (R24) -/

/-- CAPS as its 64 bits. -/
def Package.caps (p : Package) : Dword :=
  0#8 ++ p.arch ++ p.step ++ p.service ++ p.hlinks ++ p.fports ++ p.edges ++ p.hbm ++ p.dies

/-- Whether a unit's bit of CAPS is set. -/
def Package.up (p : Package) (u : HwUnit) : Bool :=
  match u with
  | .die d => onBit p.dies d.toNat
  | .stack n => onBit p.hbm n.toNat
  | .edge e => onBit p.edges e.toNat

/-- A unit's bit of CAPS set or cleared. -/
def Package.mark (p : Package) (u : HwUnit) (b : Bool) : Package :=
  match u with
  | .die d => { p with dies := setBit p.dies d.toNat b }
  | .stack n => { p with hbm := setBit p.hbm n.toNat b }
  | .edge e => { p with edges := setBit p.edges e.toNat b }

/-- Every unit that joins. -/
def allUnits : List HwUnit :=
  (List.range 8).map (fun d => .die (BitVec.ofNat 3 d)) ++ (List.range 16).map (fun n => .stack (BitVec.ofNat 4 n))
    ++ [.edge 0, .edge 1]

/-- Whether every compute die, stack and edge die has joined, though it may have been lost since (R22). -/
def Package.whole (p : Package) : Bool := allUnits.all fun u => p.up u || p.lost.contains u

/-- Whether edge die E0 is lost, with the dispatcher and the management functions that it carries (R27). -/
def State.e0Lost (s : State) : Bool := s.pkg.lost.contains (.edge 0)

/-- Whether the full-service request is being honoured: it was made, SERVICE reads 01 and the switch is still to come
(R23). -/
def State.switching (s : State) : Bool := s.pkg.fsRequest && s.pkg.service == 1 && !s.pkg.fullMap

/-- Records that have not started are discarded, without a STATUS write; QHEAD advances past them (R23, R53, R68). -/
def Queue.discard (q : Queue) : Queue := { q with waiting := [], qhead := q.qtail }

/-- Every queue's records discarded. -/
def State.discardAll (s : State) : State :=
  { s with tenants := s.tenants.map fun e => (e.1, { e.2 with queues := e.2.queues.map fun x => (x.1, x.2.discard) }) }

/-- A request that has become effective discards what has not started. -/
def State.beginSwitch (s : State) : State := if s.switching then s.discardAll else s

/-- UNIT_JOIN. -/
def execUnitJoin (u : HwUnit) (s : State) : Out :=
  .next (if s.pkg.up u || s.pkg.failed.contains u || s.pkg.lost.contains u then s
    else
      let p := s.pkg.mark u true
      ({ s with pkg := { p with service := if p.whole && p.service == 0 then 1 else p.service } }).beginSwitch)

/-- UNIT_JOIN_TIMEOUT: the unit is declared failed, SERVICE becomes 10, and a request is ignored (R22, R23). -/
def execUnitJoinTimeout (u : HwUnit) (s : State) : Out :=
  .next (if s.pkg.up u || s.pkg.failed.contains u || s.pkg.lost.contains u then s
    else { s with pkg := { s.pkg with failed := s.pkg.failed ++ [u], service := 2, fsRequest := false } })

/-- A link or port that fails to train: it stays down until the next reset, and the failure is reported (R22). -/
def State.trainFails (s : State) (n : Nat) : State :=
  ({ s with pkg := { s.pkg with trainFail := s.pkg.trainFail ++ [n] } }).raiseAll 2

/-- HLINK_TRAIN: a link trains once its edge die has joined; a link that failed or was lost does not retrain (R22). -/
def execHlinkTrain (link : BitVec 1) (ok : Bool) (s : State) : Out :=
  .next (let l := link.toNat
    if onBit s.pkg.hlinks l || s.pkg.trainFail.contains (18 + l) || !onBit s.pkg.edges l then s
    else if ok then { s with pkg := { s.pkg with hlinks := setBit s.pkg.hlinks l true } }
    else s.trainFails (18 + l))

/-- The edge die that carries a port (R10). -/
def portEdge (p : Nat) : Nat := if p < 9 then 0 else 1

/-- The tests of R32: different device IDs, both assigned, and a round trip of at most 585 ns. -/
def State.portTests (s : State) (peer : PeerInfo) : Bool :=
  s.fabric.devid != peer.devid && s.fabric.devid != 0x3FF && peer.devid != 0x3FF && decide (peer.roundTripNs ≤ 585)

/-- FPORT_TRAIN: the device learns of its peer, and reports its own ARCH and STEP to it (R32, R40). -/
def execFportTrain (port : BitVec 5) (ok : Bool) (peer : PeerInfo) (s : State) : Out :=
  .next (let p := port.toNat
    if 17 < p ∨ (s.port p).trained ∨ s.pkg.trainFail.contains p ∨ onBit s.pkg.edges (portEdge p) = false then s
    else if ok && s.portTests peer then
      let s := { s with pkg := { s.pkg with fports := setBit s.pkg.fports p true } }
      s.updPort p fun _ => { Port.none with trained := true, peer := some peer, gave := some (s.pkg.arch, s.pkg.step) }
    else s.trainFails p)

/-! ## Reset (R21, R29) -/

/-- M[i] := SHAKE256(M[i] || digest, 512), the digest being that of the loaded stage (R29). -/
def measureStage (m : BitVec 512) (stage : List Byte) : BitVec 512 :=
  BitVec.ofNat 512 (bytesToNat (shake512 (natToBytes 64 m.toNat ++ shake512 stage)))

/-- The eight stages as they are loaded at reset, one for each register: seven of the boot ROM, and last the running image
(DESIGN CHOICE, log 27: the spec gives neither how many stages there are nor which register measures which). -/
def bootImages (running : List Byte) : List (List Byte) := ((List.range 7).map Config.bootStage) ++ [running]

/-- DEVICE_RESET_ASSERT: the device enters reset from whatever state it was in. What the package keeps through it: the
firmware image in force, a verified image, the state of the world outside, and the model's own counters. -/
def execDeviceResetAssert (s : State) : Out :=
  .next { State.reset with
    pkg := { Package.reset with inReset := true, firmware := { Package.reset.firmware with
      verified := s.pkg.firmware.verified, running := s.pkg.firmware.running } }
    hostMem := s.hostMem, inputs := s.inputs, freeCtr := s.freeCtr, nextUid := s.nextUid }

/-- DEVICE_RESET: reset ends; a verified image becomes active, and each boot stage is measured (R21, R29). -/
def execDeviceReset (s : State) : Out :=
  .next (if !s.pkg.inReset then s
    else
      let run := s.pkg.firmware.verified.getD s.pkg.firmware.running
      { s with pkg := { s.pkg with
          inReset := false
          firmware := { s.pkg.firmware with verified := none, running := run }
          measure := (s.pkg.measure.zip (bootImages run)).map fun e => measureStage e.1 e.2 } })

/-! ## The switch to full service (R23) -/

/-- FULL_SERVICE_REQUEST: ignored where a unit has failed to join, and once the switch is made. -/
def execFullServiceRequest (s : State) : Out :=
  .next (if s.pkg.service == 2 || s.pkg.fullMap then s
    else ({ s with pkg := { s.pkg with fsRequest := true } }).beginSwitch)

/-- What the switch clears of a queue: EN, QHEAD, QTAIL, OVR, STOP, the counters and DCSUM. -/
def Queue.switched (q : Queue) : Queue :=
  { q with en := false, qhead := 0, qtail := 0, ovr := false, stop := false, qtl := [], dcsum := 0, waiting := [] }

/-- What the switch clears of a tenant; its Sluice entries are not carried over. -/
def Tenant.switched (x : Tenant) : Tenant :=
  { x with
    rootv := false
    queues := (x.queues.map fun e => (e.1, e.2.switched)).filter fun e => e.2 != Queue.reset
    fq := { x.fq with en := false, head := 0, tail := 0, lostCount := 0 }
    qsusp := 0, qsaved := 0, ipend := 0, diagSeq := 0, sluice := [] }

/-- FULL_SERVICE_SWITCH: once no launch is in flight, the L2 hash and the physical map change, the pool moves, the
listed registers are cleared, and the clock rises to 1.4 GHz. HBM content does not survive (log 2). -/
def execFullServiceSwitch (s : State) : Out :=
  .next (if !s.switching || !s.grids.isEmpty then s
    else { s with
      pkg := { s.pkg with fullMap := true, fsRequest := false, mpbase := 0x3EE, mpsize := 16, clockMHz := [] }
      tenants := (s.tenants.map fun e => (e.1, e.2.switched)).filter fun e => e.2 != Tenant.reset
      mem := [], hostLines := [], slots := [], views := [], fantail := [], foreign := [], cores := [] })

/-! ## Power and temperature (R15-R18) -/

/-- The clock of a die in MHz: that of the service in force, unless it has been lowered (R18). -/
def State.dieMHz (s : State) (d : Nat) : Nat := Sparse.get (if s.pkg.fullMap then 1400 else 700) s.pkg.clockMHz d

/-- One 25 MHz step down, to no less than 700 MHz. -/
def State.stepDown (s : State) (d : Nat) : State :=
  if s.dieMHz d ≤ 700 then s
  else { s with pkg := { s.pkg with clockMHz := Sparse.put s.pkg.clockMHz d (max 700 (s.dieMHz d - 25)) } }

/-- POWER_CAP_ENFORCE, with the power averaged over 10 ms: above the cap every compute die steps down; where none can,
cap-unmet is set and reported on vector 2 (R15, R57). -/
def execPowerCapEnforce (watts : Nat) (s : State) : Out :=
  .next (if watts ≤ s.pkg.powerCap.toNat then { s with pkg := { s.pkg with capUnmet := false } }
    else if (List.range 8).any fun d => decide (700 < s.dieMHz d) then (List.range 8).foldl (fun s d => s.stepDown d) s
    else if s.pkg.capUnmet then s
    else ({ s with pkg := { s.pkg with capUnmet := true } }).raiseAll 2)

/-- An I3C in-band interrupt and an event on vector 2 of every tenant (R16). -/
def State.thermalEvent (s : State) : State := ({ s with pkg := { s.pkg with ibi := s.pkg.ibi + 1 } }).raiseEvery 2

/-- THERMAL_THROTTLE: a junction above 100 °C; dies 8 and 9 are the edge dies. -/
def execThermalThrottle (die : BitVec 4) (s : State) : Out :=
  .next (let d := die.toNat
    if 9 < d then s
    else
      let entering := !onBit s.pkg.throttled d
      let s := ({ s with pkg := { s.pkg with throttled := setBit s.pkg.throttled d true } }).stepDown d
      if entering then s.thermalEvent else s)

/-- A clause being issued on a die stands still where it has come, and goes on once the clock is restored (R16). -/
def State.pauseDie (s : State) (d : Nat) : State :=
  match s.issue with
  | none => s
  | some i => if i.core / 64 == d then
      { s.updBundle i.core i.bundle fun u => { u with paused := some i } with issue := none } else s

/-- THERMAL_GATE: a junction at 110 °C or above. Nothing issues on the die while its clock is gated. -/
def execThermalGate (die : BitVec 4) (s : State) : Out :=
  .next (let d := die.toNat
    if 9 < d ∨ onBit s.pkg.gated d then s
    else (({ s with pkg := { s.pkg with gated := setBit s.pkg.gated d true } }).pauseDie d).thermalEvent)

/-- THERMAL_RESTORE: a junction back below 100 °C. The die returns to the clock of its service, even where the power cap had
lowered it: how the two combine is not stated (DESIGN CHOICE, log 79). -/
def execThermalRestore (die : BitVec 4) (s : State) : Out :=
  .next (let d := die.toNat
    if onBit s.pkg.gated d || onBit s.pkg.throttled d then
      ({ s with pkg := { s.pkg with
          gated := setBit s.pkg.gated d false, throttled := setBit s.pkg.throttled d false
          clockMHz := Sparse.erase s.pkg.clockMHz d } }).thermalEvent
    else s)

/-- THERMTRIP: THERMTRIP_N stays asserted until the next reset (R21). -/
def execThermtrip (s : State) : Out := .next { s with pkg := { s.pkg with thermTrip := true } }

/-- REFCLK_OUT_OF_TOLERANCE and its end: telemetry reports it, and nothing else changes (R18). -/
def execRefclkOutOfTolerance (s : State) : Out := .next { s with pkg := { s.pkg with refclkBad := true } }

def execRefclkInTolerance (s : State) : Out := .next { s with pkg := { s.pkg with refclkBad := false } }

/-! ## Loss of units (R27) -/

/-- Whether a version of a tile's history lies on a lost unit (R27, R131). -/
def State.historyLost (s : State) (f : Fantail) : Bool :=
  (List.range f.versions.length).any fun i => (s.lostAt (Config.poolAddr f.key.tenant (2 ^ 26 + i) f.key.taddr)).isSome

/-- A joined unit's CAPS bit clears, the histories that it held are emptied, and vector 2 of every enabled tenant is raised. -/
def State.loseUnit (s : State) (u : HwUnit) : State :=
  let s := { s with pkg := { (s.pkg.mark u false) with lost := s.pkg.lost ++ [u] } }
  ({ s with fantail := s.fantail.filter fun f => !s.historyLost f }).raiseAll 2

/-- STACK_LOST: later accesses to the stack fail. -/
def execStackLost (n : BitVec 4) (s : State) : Out := .next (if s.pkg.up (.stack n) then s.loseUnit (.stack n) else s)

/-- A block that stood on a lost die takes no further effect: nothing of it runs on. -/
def State.freezeBlock (s : State) (b : Nat) : State :=
  let s := { s with
    pending := s.pending.filter fun p => p.block != b
    engines := s.engines.filter fun e => e.block != b
    wheels := (s.wheels.map fun (w : Nat × List MatEntry) => (w.1, w.2.filter fun (e : MatEntry) => e.block != b)).filter fun w => !w.2.isEmpty
    issue := s.issue.bind fun i => if i.block == b then none else some i }
  (s.unfileBlock b).updBlock b fun k => { k with
    state := .lost, lackSince := none, granted := none, lackUse := none
    threads := k.threads.map fun th => match th.status with
      | .waiting (.remote _) => { th with status := .waiting .boundary }
      | _ => th }

/-- The launch that a block belongs to. -/
def State.launchOf (s : State) (k : Block) : Nat := match s.grid? k.grid with | some g => g.root k.grid | none => k.grid

/-- COMPUTE_DIE_LOST: its blocks stop for good, each launch that has one posts INTEG, cause 9, and what its cores held
is gone. -/
def execComputeDieLost (d : BitVec 3) (s : State) : Out :=
  .next (if !s.pkg.up (.die d) then s
    else
      let s := s.loseUnit (.die d)
      let there := s.blocks.filter fun e => e.2.core / 64 == d.toNat && e.2.state != .saved
      let s := there.foldl (fun s e => s.freezeBlock e.1) s
      let s := { s with cores := s.cores.filter fun c => c.1 / 64 != d.toNat }
      (dedup (there.map fun e => s.launchOf e.2)).foldl (fun s n => match s.grid? n with
        | some g => s.postEvent g.tenant { FaultRec.zero with
            code := BitVec.ofNat 8 cINTEG, cause := 9, queue := BitVec.ofNat 4 g.queue, grid := g.gid, aux0 := d.setWidth 64 }
        | none => s) s)

/-- EDGE_DIE_LOST: its ports and its host link are lost; with E0 no launch starts afterwards. -/
def execEdgeDieLost (e : BitVec 1) (s : State) : Out :=
  .next (if !s.pkg.up (.edge e) then s
    else
      let s := s.loseUnit (.edge e)
      let s := (List.range 9).foldl (fun s i => s.losePort (9 * e.toNat + i)) s
      s.loseHlink e.toNat)

/-! ## The management port (R28-R30) -/

/-- A reply on the management port; nothing answers once E0 is lost. -/
def State.i3c (s : State) (r : I3cReply) : State :=
  if s.e0Lost then s else { s with pkg := { s.pkg with i3cReplies := s.pkg.i3cReplies ++ [r] } }

/-- DYNAMIC_ADDRESS_ASSIGNMENT. -/
def execDynamicAddressAssignment (addr : BitVec 7) (s : State) : Out :=
  .next (if s.e0Lost then s else { s with pkg := { s.pkg with i3cAddr := some addr } })

/-- IN_BAND_INTERRUPT_ACCEPT: ALERT_N stays asserted while another is pending. -/
def execInBandInterruptAccept (s : State) : Out := .next { s with pkg := { s.pkg with ibi := s.pkg.ibi - 1 } }

/-- What the telemetry page tells of the state of the device: the clock of each of the ten dies in MHz, the gated and the
throttled dies, cap-unmet and the reference, the units lost and failed, and the ports and links that failed to train. -/
def State.telemetryHead (s : State) : List Byte :=
  let mask := fun (us : List HwUnit) => (allUnits.zipIdx.map fun e => if us.contains e.1 then 2 ^ e.2 else 0).sum
  (List.range 10).flatMap (fun d => natToBytes 2 (s.dieMHz d))
  ++ natToBytes 2 s.pkg.gated.toNat ++ natToBytes 2 s.pkg.throttled.toNat
  ++ natToBytes 1 ((if s.pkg.capUnmet then 1 else 0) + (if s.pkg.refclkBad then 2 else 0))
  ++ natToBytes 4 (mask s.pkg.lost) ++ natToBytes 4 (mask s.pkg.failed)
  ++ natToBytes 3 ((List.range 20).map fun i => if s.pkg.trainFail.contains i then 2 ^ i else 0).sum

/-- TELEM: the 256-byte telemetry page. Its layout is not given (DESIGN CHOICE, log 27); the bytes after those that tell of the
state, among them each die's power and temperature, are free. -/
def execTelem (s : State) : Out :=
  .next ((s.i3c (.ack (s.telemetryHead ++ (List.range (256 - s.telemetryHead.length)).map fun i =>
    Config.telemetry s.freeCtr i))).tick)

/-- PCAP: a write outside 1,500-4,000 W is ignored and not acknowledged; a read gives the cap. -/
def execPcap (watts : Option (BitVec 16)) (s : State) : Out :=
  .next (match watts with
    | none => s.i3c (.ack (natToBytes 2 s.pkg.powerCap.toNat))
    | some w =>
      if w.toNat < 1500 ∨ 4000 < w.toNat then s.i3c .nak
      else if s.e0Lost then s
      else ({ s with pkg := { s.pkg with powerCap := w } }).i3c (.ack []))

/-- CAPS. -/
def execCaps (s : State) : Out := .next (s.i3c (.ack (natToBytes 8 s.pkg.caps.toNat)))

/-- FWCHUNK: up to 240 bytes staged at an offset, over I3C or by the host through the management register block (R28). More
than 240 bytes are not acknowledged and stage nothing (DESIGN CHOICE, log 27: what becomes of them is not stated). -/
def execFwchunk (off : Word) (bytes : List Byte) (s : State) : Out :=
  .next (if 240 < bytes.length then s.i3c .nak
    else if s.e0Lost then s
    else
      let st := bytes.zipIdx.foldl (fun st e => Sparse.put st (off.toNat + e.2) e.1) s.pkg.firmware.staging
      ({ s with pkg := { s.pkg with firmware := { s.pkg.firmware with staging := st, status := 1 } } }).i3c (.ack []))

/-- The staged image, if its bytes lie without a gap from offset 0. -/
def Firmware.image (f : Firmware) : Option (List Byte) :=
  if !f.staging.isEmpty && f.staging.map (·.1) == List.range f.staging.length then some (f.staging.map (·.2)) else none

/-- The verdict on a staged image: 2 verified, 3 rejected signature, 4 rejected version, 5 rejected length (R28, R29). Length is
tested first, and fails where nothing is staged or a byte below the last is missing (DESIGN CHOICE, log 27: the spec gives
neither the lengths that are rejected nor the order of the tests). -/
def fwVerdict (f : Firmware) : BitVec 8 :=
  match f.image with
  | none => 5
  | some i => if !Config.signatureOk i then 3 else if Config.imageVersion i < Config.fusedVersion then 4 else 2

/-- FWCOMMIT: a verified image waits for the next reset, a rejected one is discarded; the running image stays. -/
def execFwcommit (s : State) : Out :=
  .next (if s.e0Lost then s
    else
      let f := s.pkg.firmware
      let v := fwVerdict f
      ({ s with pkg := { s.pkg with firmware := { f with
        staging := [], status := v, verified := if v == 2 then f.image else f.verified } } }).i3c (.ack []))

/-- FWSTATUS. -/
def execFwstatus (s : State) : Out := .next (s.i3c (.ack [s.pkg.firmware.status]))

/-- What an attestation report holds, but for its signature (R30): in the order in which the rule lists it, the security version
as 4 bytes at the end (DESIGN CHOICE, log 27: neither the layout nor the width is given). -/
def Package.report (p : Package) : List Byte :=
  natToBytes 32 p.nonce.toNat ++ p.measure.flatMap (fun m => natToBytes 64 m.toNat) ++ natToBytes 8 p.caps.toNat
  ++ Config.deviceIdentity ++ natToBytes 4 (Config.imageVersion p.firmware.running)

/-- ATTEST: the nonce written, or the signed report read, over I3C or by the host through the management register block. -/
def execAttest (nonce : Option (BitVec 256)) (s : State) : Out :=
  .next (match nonce with
    | some n => if s.e0Lost then s else ({ s with pkg := { s.pkg with nonce := n } }).i3c (.ack [])
    | none => s.i3c (.ack (s.pkg.report ++ Config.attestSignature s.pkg.report)))

/-- I3C_UNASSIGNED_COMMAND: a transfer with an unassigned code, or of a command whose earlier transfer is still
outstanding, is not acknowledged. -/
def execI3cUnassignedCommand (code : Byte) (s : State) : Out :=
  let _ := code
  .next (s.i3c .nak)

end Sys2Proof.Machine
end

