-- ==== Sys2Proof/Machine/HostIf.lean ====
section
/-! DEFINITION. The host interface: register writes, tenants, pools, interrupts, apertures, translation upkeep, queues,
launch records, the start and the end of launches, and the fault queue's commands (R51-R75, R80-R82, R89, R90). -/

namespace Sys2Proof.Machine

/-! ## Launches in flight -/

/-- The launches of a queue in flight: started and not complete (R68). -/
def State.launchesOf (s : State) (t q : Nat) : List (Nat × Grid) :=
  s.grids.filter fun e => e.2.tenant == t && e.2.queue == q && e.2.launch.isSome

/-- Whether the status dword of a launch of a queue is on its way to another device: the launch is in flight till then (R71). -/
def State.reporting (s : State) (t q : Nat) : Bool :=
  s.fabric.remotes.any fun r => r.tenant == t && match r.what with | .status q' .. => q' == q | _ => false

/-- IDLE of a queue (R68). -/
def State.queueIdle (s : State) (t q : Nat) : Bool := (s.launchesOf t q).isEmpty && !s.reporting t q

/-- Whether any launch of a tenant is in flight. -/
def State.tenantBusy (s : State) (t : Nat) : Bool :=
  s.grids.any (fun e => e.2.tenant == t && e.2.launch.isSome)
  || s.fabric.remotes.any fun r => r.tenant == t && match r.what with | .status .. => true | _ => false

/-- The grids that a launch comprises on this device: itself and its tasks (R93). -/
def State.launchGrids (s : State) (n : Nat) : List (Nat × Grid) := s.grids.filter fun e => e.2.root e.1 == n

/-- Whether every block of a grid that stands on a core has been saved. -/
def State.gridSaved (s : State) (g : Nat) : Bool := s.blocks.all fun e => e.2.grid != g || e.2.state == .saved

/-- Whether a grid belongs to a queue for its suspension: its launches, and the tasks that they created (R93). -/
def Grid.ofQueue (g : Grid) (t q : Nat) : Bool := g.tenant == t && g.queue == q

/-- QSAVED: the bit of a suspended queue sets once each of its grids in flight has been saved or has completed; one that
cannot be saved runs to completion first (R82, R93). -/
def State.settleQsaved (s : State) (t : Nat) : State :=
  (List.range 16).foldl (fun s q =>
    if onBit (s.tenant t).qsusp q && s.grids.all (fun e => !e.2.ofQueue t q || (e.2.preempt && s.gridSaved e.1)) then
      s.updTenant t fun x => { x with qsaved := setBit x.qsaved q true }
    else s) s

/-! ## Registers without a row of their own (R45, R53, R54, R68, R73, R80, R81, R228) -/

/-- Whether a range of physical memory places a byte in the reserved region (R26). -/
def State.inReserved (s : State) (a n : Nat) : Bool := decide (0 < n ∧ a < s.hbmBytes ∧ s.reservedBase < a + n)

/-- Whether a save of a tenant is in progress, or QSAVED shows a queue of it saved; a restore is one step (R80). -/
def State.savingTenant (s : State) (t : Nat) : Bool :=
  (s.tenant t).qsaved != 0 || s.blocks.any fun e => e.2.tenant == t && e.2.state == .saving

/-- A multicast tree entry (R45). -/
def State.writeTree (s : State) (i : Nat) (v : Dword) : State :=
  { s with fabric := { s.fabric with trees := Sparse.set Tree.none s.fabric.trees i ⟨BitVec.ofNat 64 (bitsAt v.toNat 0 26)⟩ } }

/-- A dword of DOMSET, effective at once (R53). -/
def domsetWith (d : BitVec 1024) (i : Nat) (v : Dword) : BitVec 1024 :=
  BitVec.ofNat 1024 (d.toNat - bitsAt d.toNat (64 * i) 64 * 2 ^ (64 * i) + v.toNat * 2 ^ (64 * i))

/-- A register of a control block (R54, R80). -/
def State.writeControl (s : State) (t o : Nat) (v : Dword) : State :=
  let n := v.toNat
  let x := s.tenant t
  if o = 0x008 then
    if s.inReserved (bitsAt n 13 27 * 2 ^ 13) (2 ^ 13) then s
    else s.updTenant t fun x => { x with rootv := onBit v 0, root := BitVec.ofNat 27 (bitsAt n 13 27) }
  else if o = 0x020 then
    if s.savingTenant t || s.inReserved (bitsAt n 16 24 * 2 ^ 16) (x.savesize.toNat * 2 ^ 20) then s
    else s.updTenant t fun x => { x with savebase := BitVec.ofNat 24 (bitsAt n 16 24) }
  else if o = 0x028 then
    if s.savingTenant t || s.inReserved (x.savebase.toNat * 2 ^ 16) (bitsAt n 0 16 * 2 ^ 20) then s
    else s.updTenant t fun x => { x with savesize := BitVec.ofNat 16 n }
  else if o = 0x030 then
    if s.tenantBusy t then s
    else s.updTenant t fun x => { x with diemask := BitVec.ofNat 8 n, ncore := BitVec.ofNat 7 (bitsAt n 8 7) }
  else if 0x180 ≤ o ∧ o < 0x200 then
    s.updTenant t fun x => { x with domset := domsetWith x.domset ((o - 0x180) / 8) v }
  else s

/-- A register of a queue's block: ignored unless EN = 0 and IDLE = 1, the W1C bits with the others (R68). The bits of
QBASE below its alignment hold nothing (DESIGN CHOICE, log 80). -/
def State.writeQueue (s : State) (t q o : Nat) (v : Dword) : State :=
  let n := v.toNat
  if (s.queue t q).en || !s.queueIdle t q then s
  else if o = 0x20 then
    s.updQueue t q fun x => { x with ovr := x.ovr && !onBit v 1, stop := x.stop && !onBit v 2 }
  else if o = 0x00 then s.updQueue t q fun x => { x with qbase := BitVec.ofNat 53 (bitsAt n 7 46 * 128) }
  else if o = 0x28 then s.updQueue t q fun x => { x with seed := x.seed.extractLsb' 64 64 ++ v }
  else if o = 0x30 then s.updQueue t q fun x => { x with seed := v ++ x.seed.extractLsb' 0 64 }
  else if o = 0x38 then s.updQueue t q fun x => { x with traceAddr := BitVec.ofNat 53 n }
  else s

/-- A register of a tenant page (R57, R68, R73, R228). -/
def State.writePage (s : State) (t o : Nat) (v : Dword) : State :=
  let n := v.toNat
  if o = 0x038 then s.updTenant t fun x => { x with fq := { x.fq with lostCount := BitVec.ofNat 32 n } }
  else if o = 0x048 then s.updTenant t fun x => { x with ipend := x.ipend &&& ~~~(BitVec.ofNat 4 n) }
  else if o = 0x060 then s.updTenant t fun x => { x with diagBase := BitVec.ofNat 43 (bitsAt n 10 43) }
  else if o = 0x068 then
    if 12 < bitsAt n 0 4 then s else s.updTenant t fun x => { x with diagLog2 := BitVec.ofNat 4 n }
  else if 0x200 ≤ o ∧ o < 0x600 then s.writeQueue t ((o - 0x200) / 0x40) ((o - 0x200) % 0x40) v
  else s

/-- REGISTER_WRITE: a write to a management, control block or tenant page register that has no row of its own; at any
other offset nothing happens (R53). -/
def execRegisterWrite (off : BitVec 24) (v : Dword) (s : State) : Out :=
  .next (let o := off.toNat
    if 0x2000 ≤ o ∧ o < 0x2400 ∧ o % 4 = 0 then s.writeTree ((o - 0x2000) / 4) v
    else if o = 0x0300 then
      { s with pkg := { s.pkg with pdelay := BitVec.ofNat 32 v.toNat, pen := onBit v 32 } }
    else if 0x50000 ≤ o ∧ o < 0x58000 then s.writeControl ((o - 0x50000) / 0x200) ((o - 0x50000) % 0x200) v
    else if 0x10000 ≤ o ∧ o < 0x50000 then s.writePage ((o - 0x10000) / 0x1000) ((o - 0x10000) % 0x1000) v
    else s)

/-! ## Tenants, wide entries, pools, interrupts (R53-R57) -/

/-- TENANT_EN_WRITE: writing 0 acts on each queue as a write of its EN to 0 does (R53). -/
def execTenantEnWrite (t : BitVec 6) (v : Dword) (s : State) : Out :=
  .next (if onBit v 0 then s.updTenant t.toNat fun x => { x with en := true }
    else s.updTenant t.toNat fun x => { x with
      en := false
      queues := (x.queues.map fun e => (e.1, { e.2.discard with en := false })).filter fun e => e.2 != Queue.reset })

/-- WIDE_ENTRY_LOW_WRITE: the low dword of an IVEC or WIN entry waits in its staging copy (R53). -/
def execWideEntryLowWrite (t : BitVec 6) (off : BitVec 9) (v : Dword) (s : State) : Out :=
  .next (let o := off.toNat
    if 0x040 ≤ o ∧ o < 0x180 ∧ o % 16 = 0 then
      s.updTenant t.toNat fun x => { x with staged := Sparse.set 0 x.staged o v }
    else s)

/-- WIDE_ENTRY_HIGH_WRITE: the whole entry takes effect, with the low dword last staged (R53, R57, R58). -/
def execWideEntryHighWrite (t : BitVec 6) (off : BitVec 9) (v : Dword) (s : State) : Out :=
  .next (let o := off.toNat
    if 0x040 ≤ o ∧ o < 0x180 ∧ o % 16 = 8 then
      s.updTenant t.toNat fun x =>
        let low := Sparse.get 0 x.staged (o - 8)
        if o < 0x080 then
          { x with ivec := Sparse.set Ivec.none x.ivec ((o - 0x040) / 16) ⟨low, BitVec.ofNat 32 v.toNat⟩ }
        else
          let w : Window := ⟨low.extractLsb' 12 52, BitVec.ofNat 36 v.toNat, onBit v 36, onBit v 37, onBit v 38⟩
          { x with win := Sparse.set Window.none x.win ((o - 0x080) / 16) w }
    else s)

/-- The sum of a share over the enabled tenants, with one tenant's replaced (R56). -/
def State.shareSum (s : State) (t : Nat) (f : Tenant → Nat) (v : Nat) : Nat :=
  s.tenants.foldl (fun a e => if e.1 != t && e.2.en then a + f e.2 else a) (if (s.tenant t).en then v else 0)

/-- MPSHARE_WRITE: ignored where the shares would exceed the pool; a larger share resumes suspended children, and
SPECs that wait for slots (R56, R117). -/
def execMpshareWrite (t : BitVec 6) (v : Dword) (s : State) : Out :=
  .next (let n := bitsAt v.toNat 0 16
    if s.pkg.mpsize.toNat * 1024 < s.shareSum t.toNat (fun x => x.mpshare.toNat) n then s
    else
      (s.updTenant t.toNat fun x => { x with mpshare := BitVec.ofNat 16 n }).resumeChildren t.toNat none)

/-- SLSHARE_WRITE: ignored where the shares would exceed 16,384 entries (R56). -/
def execSlshareWrite (t : BitVec 6) (v : Dword) (s : State) : Out :=
  .next (let n := bitsAt v.toNat 0 15
    if 16384 < n ∨ 16384 < s.shareSum t.toNat (fun x => x.slshare.toNat) n then s
    else s.updTenant t.toNat fun x => { x with slshare := BitVec.ofNat 15 n })

/-- Whether a pool of so many GiB at a base lies in service and clear of the reserved region (R56). -/
def State.poolFits (s : State) (base size : Nat) : Bool :=
  decide (base * 2 ^ 30 + size * 2 ^ 30 ≤ s.hbmBytes) && !s.inReserved (base * 2 ^ 30) (size * 2 ^ 30)

/-- POOL_BASE_WRITE: MPBASE, or MPSIZE, ignored while a view is open or where the pool would lie outside (R56). -/
def execPoolBaseWrite (size : Bool) (v : Dword) (s : State) : Out :=
  .next (if !s.views.isEmpty then s
    else if size then
      let n := bitsAt v.toNat 0 10
      if s.poolFits s.pkg.mpbase.toNat n then { s with pkg := { s.pkg with mpsize := BitVec.ofNat 10 n } } else s
    else
      let b := bitsAt v.toNat 30 10
      if s.poolFits b s.pkg.mpsize.toNat then { s with pkg := { s.pkg with mpbase := BitVec.ofNat 10 b } } else s)

/-- IMASK_WRITE: clearing a mask bit whose IPEND bit is set raises the vector once, and leaves IPEND (R57). -/
def execImaskWrite (t : BitVec 6) (v : Dword) (s : State) : Out :=
  .next (let x := s.tenant t.toNat
    let m := BitVec.ofNat 4 v.toNat
    let s := s.updTenant t.toNat fun x => { x with imask := m }
    [0, 1, 2, 3].foldl (fun s i =>
      if onBit x.imask i && !onBit m i && onBit x.ipend i then s.raiseVector t.toNat i else s) s)

/-! ## Apertures (R59, R176) -/

/-- A sector of a host access through an aperture: a local leaf whose domain is system, in memory that is not lost
(R27, R59). -/
def State.aperturePiece (s : State) (t va n : Nat) (w : Want) : Option Xl :=
  match s.xlate ownSite t va w with
  | .error _ => none
  | .ok x =>
    if x.leaf.kind == .local && x.leaf.domain == 2 && (s.lostHome x.home n).isNone then some x else none

/-- The sectors of a host access, as offset, length and place: none where any of them fails (R59). -/
def State.aperture (s : State) (t va n : Nat) (w : Want) : Option (List (Nat × Nat × Xl)) :=
  (sectorPieces va n).foldr (fun e acc => match s.aperturePiece t e.1 e.2.1 w, acc with
    | some x, some l => some ((e.2.2, e.2.1, x) :: l)
    | _, _ => none) (some [])

/-- A response given on Noern-H (R59). -/
def State.hostReply (s : State) (r : HostReply) : State := { s with hostReplies := s.hostReplies ++ [r] }

/-- HOST_APERTURE_LOAD: a fresh load at the home, where the buffered reductions of DL0 grids are flushed; its bytes go
to the host, or an error response (R59, R176, R184). -/
def execHostApertureLoad (t : BitVec 6) (off : BitVec 53) (n : BitVec 7) (s : State) : Out :=
  .next (match s.aperture t.toNat off.toNat n.toNat .rd with
    | none => s.hostReply .error
    | some l =>
      let s := l.foldl (fun s e => (s.fillTlb ownSite t.toNat e.2.2.leaf).flushAt e.2.2.home e.2.1) s
      s.hostReply (.data (l.flatMap fun e => s.readHome e.2.2.home e.2.1)))

/-- HOST_APERTURE_STORE: a store at the home and a release at system scope by the host, for which the host's later accesses wait
(State.hostWaits). Where any sector fails, the host gets an error response and nothing is written (R59, R176). -/
def execHostApertureStore (t : BitVec 6) (off : BitVec 53) (bytes : List Byte) (s : State) : Out :=
  .next (match s.aperture t.toNat off.toNat bytes.length .wr with
    | none => s.hostReply .error
    | some l =>
      let s := l.foldl (fun s e =>
        (s.fillTlb ownSite t.toNat e.2.2.leaf).writeHome e.2.2.home ((bytes.drop e.1).take e.2.1)) s
      (s.releaseLines t.toNat off.toNat bytes.length).hostReply .done)

/-! ## Translation (R60-R66) -/

/-- What a walk is made for. -/
def accessWant : Access → Want
  | .load | .engine | .queue => .rd
  | .store | .atomic => .wr
  | .fetch => .ex

/-- TABLE_WALK: a walk that produces a leaf fills the TLB, here that of E0 (log 38). A walk that faults is part of the access that asked for it,
whose own step takes the trap or posts the record; alone it changes nothing (R60, R66, R67). -/
def execTableWalk (t : BitVec 6) (va : Dword) (acc : Access) (s : State) : Out :=
  .next (match s.xlate ownSite t.toNat va.toNat (accessWant acc) with
    | .ok x => s.fillTlb ownSite t.toNat x.leaf
    | .error _ => s)

/-- The leaves and table pointers of a tenant that map any address of a span go, and BUSY is set; a write while BUSY is
ignored (R66). -/
def State.invalidate (s : State) (t lo size : Nat) : State :=
  if (s.tenant t).tlbBusy then s
  else
    let clear := fun (base n : Nat) => decide (base + n ≤ lo ∨ lo + size ≤ base)
    ({ s with
      tlb := s.tlb.filter fun e => e.tenant != t || clear e.leaf.base e.leaf.size
      tlbPtrs := s.tlbPtrs.filter fun p => p.tenant != t || clear p.base p.size }).updTenant t
        fun x => { x with tlbBusy := true, tlbSpan := (lo, size) }

/-- TLBINV_ALL. -/
def execTlbinvAll (t : BitVec 6) (s : State) : Out := .next (s.invalidate t.toNat 0 (2 ^ 53))

/-- TLBINV_SPAN: a span of 2^SPAN pages of 128 KiB, aligned down; 19 and above act as ALL (R66). -/
def execTlbinvSpan (t : BitVec 6) (span : BitVec 5) (vpage : BitVec 36) (s : State) : Out :=
  .next (if 19 ≤ span.toNat then s.invalidate t.toNat 0 (2 ^ 53)
    else
      let size := 2 ^ (span.toNat + 17)
      s.invalidate t.toNat (vpage.toNat * 2 ^ 17 / size * size) size)

/-- The address of a buffered effect that has been translated and is still to be performed. -/
def EffKind.va : EffKind → Option Nat
  | .store _ a _ _ | .discard _ a _ | .atomic _ a .. | .red _ a .. => some a
  | .fold r => some r.va
  | .late k => k.va
  | _ => none

/-- Whether an access of a tenant in a span has been translated and not performed: a buffered reduction, an effect of a
turn, a request at another device (R66). -/
def State.translatedOpen (s : State) (t lo size : Nat) : Bool :=
  let within := fun (a : Nat) => decide (lo ≤ a ∧ a < lo + size)
  (s.cores.any fun e => e.2.reds.any fun r => r.tenant == t && within r.va)
  || (s.grids.any fun e => e.2.tenant == t && e.2.effects.any fun f => f.kind.va.any within)
  || s.fabric.remotes.any fun r => r.tenant == t && r.what != .signature && within r.va

/-- TLBINV_COMPLETE: the dirty sectors of the tenant in the span go to their homes; BUSY clears once every other access
that was translated through a removed entry has been performed as well (R66). -/
def execTlbinvComplete (t : BitVec 6) (s : State) : Out :=
  .next (let t := t.toNat
    let (lo, size) := (s.tenant t).tlbSpan
    let hit := fun (x : CacheSector) => x.tenant == t && decide (lo ≤ x.sector * 64 ∧ x.sector * 64 < lo + size)
    let s := s.cores.foldl (fun s e =>
      let s := (e.2.cache.filter hit).foldl (fun s x => s.writeBack x) s
      s.updCore e.1 fun k => { k with cache := k.cache.map fun x => if hit x then { x with dirty := 0 } else x }) s
    let s := s.activeCores.foldl (fun s c => s.flushReds c fun r =>
      s.atDl0 r.grid && r.tenant == t && decide (lo ≤ r.va ∧ r.va < lo + size)) s
    if s.translatedOpen t lo size then s else s.updTenant t fun x => { x with tlbBusy := false })

/-! ## Dispatch traces (R89, R90) -/

/-- A part of the trace buffer written, if the recording has not failed (R89). -/
def State.traceWrite (s : State) (t q : Nat) (off : Nat) (bs : List Byte) (gid : Dword) : State :=
  let x := s.queue t q
  if x.traceFailed then s
  else match s.writeRoot t (x.traceAddr.toNat + off) bs (.trace q gid) with
    | .ok (s, _) => s
    | .error (a, e) => s.traceFail t q e a gid

/-- CAPACITY of a trace buffer as the recording knows it (R89). -/
def State.traceRoom (s : State) (t q : Nat) : Except (Nat × Err) (List Byte) := s.readRoot t ((s.queue t q).traceAddr.toNat + 8) 4

/-- Recording starts: MAGIC, VERSION, COUNT, LAUNCHES, VALID and OVF (R89). CAPACITY is software's. -/
def State.traceStart (s : State) (t q : Nat) : State :=
  let s := s.forgetRoot t ((s.queue t q).traceAddr.toNat + 8) 4
  let s := s.updQueue t q fun x => { x with traceFailed := false, traceOvf := false, traceCount := 0, traceLaunches := 0 }
  let s := s.traceWrite t q 0 (natToBytes 8 (0x4459544F + 2 ^ 32)) 0
  s.traceWrite t q 0x0C (natToBytes 12 0) 0

/-- A launch counted as recorded whole: LAUNCHES advances, and VALID is written unless an entry was lost (R89). -/
def State.traceLaunch (s : State) (t q : Nat) (gid : Dword) : State :=
  let x := s.queue t q
  if x.trace != 1 || x.traceFailed then s
  else
    let s := s.updQueue t q fun x => { x with traceLaunches := x.traceLaunches + 1 }
    s.traceWrite t q 0x10 (natToBytes 8 ((x.traceLaunches + 1) % 2 ^ 32 + (if x.traceOvf then 2 else 1) * 2 ^ 32)) gid

/-- One entry appended: BLOCK, CORE and LSEQ; beyond CAPACITY it is lost, OVF is set and TRACEOVF recorded (R89). OVF is written
with VALID as 0, since no launch is recorded without overflow from then on; LAUNCHES counts the later launches too (DESIGN
CHOICE, log 94). -/
def State.traceEntry (s : State) (g : Nat) (bid core : Nat) : State :=
  match s.grid? g with
  | none => s
  | some x =>
    let t := x.tenant
    let q := x.queue
    let k := s.queue t q
    if x.launch.isNone || k.trace != 1 || k.traceFailed then s
    else match s.traceRoom t q with
      | .error (a, e) => s.traceFail t q e a x.gid
      | .ok cap =>
        if bytesToNat cap ≤ k.traceCount then
          let s := (s.updQueue t q fun k => { k with traceOvf := true }).traceWrite t q 0x14 (natToBytes 4 2) x.gid
          s.gridEvent g 0x08 0
        else
          let e := bid % 2 ^ 32 + core % 2 ^ 9 * 2 ^ 32 + x.seq % 2 ^ 16 * 2 ^ 48
          let s := s.traceWrite t q (0x40 + 8 * k.traceCount) (natToBytes 8 e) x.gid
          let s := if (s.queue t q).traceFailed then s else s.updQueue t q fun k => { k with traceCount := k.traceCount + 1 }
          s.traceWrite t q 0x0C (natToBytes 4 ((k.traceCount + 1) % 2 ^ 32)) x.gid

/-- The dwords of a list of bytes. -/
def bytesToDwords : List Byte → Nat → List Nat
  | _, 0 => []
  | bs, n + 1 => bytesToNat (bs.take 8) :: bytesToDwords (bs.drop 8) n

/-- The entries of a launch in a trace buffer, as block and core, or none where R90 finds a mismatch in the header. The
outer error is a read that failed. -/
def State.traceEntries (s : State) (t q seq : Nat) : Except (Nat × Err) (Option (List (Nat × Nat))) :=
  let a := (s.queue t q).traceAddr.toNat
  match s.readRoot t a 0x40 with
  | .error f => .error f
  | .ok h =>
    let w := fun i => bytesToNat ((h.drop (4 * i)).take 4)
    let reserved := bitsAt (w 1) 16 16 != 0 || bitsAt (w 5) 2 30 != 0 || (List.range 10).any fun i => w (6 + i) != 0
    if w 0 != 0x4459544F || bitsAt (w 1) 0 16 != 1 || bitsAt (w 5) 0 2 != 1 || decide (w 4 ≤ seq) || reserved then .ok none
    else match s.readRoot t (a + 0x40) (8 * w 3) with
      | .error f => .error f
      | .ok bs =>
        let es := (bytesToDwords bs (w 3)).filter fun e => bitsAt e 48 16 == seq
        if es.any fun e => bitsAt e 41 7 != 0 then .ok none
        else .ok (some (es.map fun e => (bitsAt e 0 32, bitsAt e 32 9)))

/-- The parts of a trace buffer that lie on other devices are asked for, as far as what has come tells which (R38, R90). -/
def State.askTrace (s : State) (t q : Nat) : State :=
  let a := (s.queue t q).traceAddr.toNat
  let s := s.askRoot t a 0x40
  match s.readRoot t a 0x40 with
  | .ok h => s.askRoot t (a + 0x40) (8 * bytesToNat ((h.drop 12).take 4))
  | .error _ => s

/-- Whether the entries name every block of a grid once, on usable cores, and clusters on consecutive cores of one die
in member order (R90). -/
def State.traceFits (s : State) (t total n : Nat) (es : List (Nat × Nat)) : Bool :=
  let sorted := sortBy (fun (a b : Nat × Nat) => decide (a.1 < b.1)) es
  sorted.length == total
  && sorted.zipIdx.all (fun e => e.1.1 == e.2)
  && sorted.all (fun e => (s.usable t).contains e.2)
  && sorted.zipIdx.all fun e => e.2 % n == 0 || (match sorted[e.2 - 1]? with
      | some p => e.1.2 == p.2 + 1 && e.1.2 / 64 == p.2 / 64
      | none => false)

/-! ## Launch records (R70) -/

/-- A launch's own part of a record. -/
def recordInfo (va : Nat) (ws : List Dword) : LaunchInfo :=
  let d := fun i => (ws.getD i 0).toNat
  { recVa := va, gx := bitsAt (d 1) 0 32, gy := bitsAt (d 1) 32 16, gz := bitsAt (d 1) 48 16
    irq := bitAt (d 2) 0, rel := bitAt (d 2) 3, sigv := bitAt (d 13) 3, sigctr := bitsAt (d 13) 0 3
    sigval := ws.getD 12 0, paddr := ws.getD 3 0, psize := BitVec.ofNat 32 (bitsAt (d 2) 32 32) }

/-- The answers that the reading of a record has used are forgotten. -/
def State.forgetRecord (s : State) (t va : Nat) (ws : List Dword) : State :=
  let r := recordInfo 0 ws
  ((s.forgetRoot t va 128).forgetRoot t (ws.getD 0 0).toNat 64).forgetRoot t r.paddr.toNat r.psize.toNat

/-- The address of the record that a queue reads next (R68, R69). -/
def Queue.slot (x : Queue) : Nat := x.qbase.toNat + 128 * (x.qhead.toNat % 2 ^ x.log2size.toNat)

/-! ## Queue control and NOTIFY (R68, R69) -/

/-- A queue disabled: nothing starts, and what has not started is discarded, with what has been read of it (R68). -/
def State.disableQueue (s : State) (t q : Nat) : State :=
  let va := (s.queue t q).slot
  let ws := match s.readRoot t va 128 with | .ok bs => (bytesToDwords bs 16).map (BitVec.ofNat 64) | .error _ => []
  (s.forgetRecord t va ws).updQueue t q fun x => { x.discard with en := false }

/-- QUEUE_CONTROL_WRITE: a control word with a bad LOG2SIZE or TRACE can only clear EN; other fields change only while
EN = 0 and the queue is idle. Enabling starts the sequence numbers, and the recording of a trace (R68, R72, R89). -/
def execQueueControlWrite (t : BitVec 6) (q : BitVec 4) (v : Dword) (s : State) : Out :=
  .next (let t := t.toNat
    let q := q.toNat
    let n := v.toNat
    let x := s.queue t q
    let bad := decide (bitsAt n 8 5 < 4 ∨ 16 < bitsAt n 8 5) || bitsAt n 6 2 == 3
    let s := if !bad && !x.en && s.queueIdle t q then
        s.updQueue t q fun x => { x with
          prio := BitVec.ofNat 3 (bitsAt n 1 3), dl := BitVec.ofNat 2 (bitsAt n 4 2)
          trace := BitVec.ofNat 2 (bitsAt n 6 2), log2size := BitVec.ofNat 5 (bitsAt n 8 5)
          quota := BitVec.ofNat 32 (bitsAt n 32 32) }
      else s
    if !onBit v 0 then s.disableQueue t q
    else if bad || x.en then s
    else
      let s := s.updQueue t q fun x => { x with
        en := true, launchSeq := 0, taskSeq := 0, prior := x.lastStarted, epoch := s.nextUid }
      if (s.queue t q).trace == 1 then s.traceStart t q else s)

/-- The three tests of R69. -/
def Queue.accepts (x : Queue) (tail : Word) : Bool :=
  x.en && decide ((tail - x.qhead).toNat ≤ 2 ^ x.log2size.toNat)
  && decide ((tail - x.qtail).toNat ≤ (tail - x.qhead).toNat)

/-- NOTIFY: accepted, it sets QTAIL; refused, it sets OVR and raises vector 3 (R57, R69). While a request for full
service stands it is refused (R23). A disabled tenant ignores it. Where TAIL equals QTAIL and the queue is disabled, the
refusal stands: "no effect" is taken to speak of a write that passes the tests (DESIGN CHOICE, log 81). -/
def execNotify (t : BitVec 6) (v : Dword) (s : State) : Out :=
  .next (let t := t.toNat
    let q := bitsAt v.toNat 32 4
    let tail := BitVec.ofNat 32 v.toNat
    let x := s.queue t q
    if !(s.tenant t).en then s
    else if x.accepts tail && !s.switching then s.updQueue t q fun x => { x with qtail := tail }
    else (s.updQueue t q fun x => { x with ovr := true }).raiseVector t 3)

/-! ## Validation (R70, R71) -/

/-- CONC and ACQ of a record. -/
def recordConc (ws : List Dword) : Bool := onBit (ws.getD 2 0) 1
def recordAcq (ws : List Dword) : Bool := onBit (ws.getD 2 0) 2

/-- The wait entries of a record that are valid: queue, counter, value. -/
def recordWaits (ws : List Dword) : List (Nat × Nat × Dword) := (List.range 4).filterMap fun j =>
  let hi := (ws.getD (5 + 2 * j) 0).toNat
  if bitAt hi 7 then some (bitsAt hi 0 4, bitsAt hi 4 3, ws.getD (4 + 2 * j) 0) else none

/-- Whether a record is malformed: a reserved field, a zero dimension, a misaligned address, PSIZE above 4,096. -/
def recordBad (ws : List Dword) : Bool :=
  let d := fun i => (ws.getD i 0).toNat
  let r := recordInfo 0 ws
  bitsAt (d 2) 4 28 != 0 || bitsAt (d 13) 4 60 != 0 || d 14 != 0
  || ([5, 7, 9, 11].any fun i => bitsAt (d i) 8 56 != 0)
  || r.gx == 0 || r.gy == 0 || r.gz == 0 || d 0 % 64 != 0 || d 3 % 16 != 0 || decide (4096 < r.psize.toNat)

/-- The end of a launch as the host sees it: DCSUM, STATUS and DONE, the counter, the interrupt. Where the record lies on another
device, the answer to the write comes first (R38, R71). -/
def State.reportLaunch (s : State) (t q : Nat) (gid : Dword) (r : LaunchInfo) (status : Nat) (dcsum : Dword) : State :=
  let s := s.updQueue t q fun x => { x with dcsum := dcsum }
  match s.writeRoot t (r.recVa + 0x78) (natToBytes 8 (status + 2 ^ 8)) (.status q gid r) with
  | .ok (s, true) => s
  | .ok (s, false) => s.statusWritten t q gid r none
  | .error (_, e) => s.statusWritten t q gid r (some e)

/-- A launch that completes without a block: it counts in a trace that is being recorded (R89). -/
def State.refuseLaunch (s : State) (t q : Nat) (gid : Dword) (r : LaunchInfo) (status : Nat) : State :=
  (s.traceLaunch t q gid).reportLaunch t q gid r status 0

/-- A record's kernel, or the status with which its launch completes, and the read that failed (R71, R77, R80, R249). -/
def State.validate (s : State) (t : Nat) (ws : List Dword) : Except (Nat × Option (Nat × Err)) Kernel :=
  let r := recordInfo 0 ws
  if recordBad ws then .error (1, none)
  else match s.readRoot t (ws.getD 0 0).toNat 64 with
    | .error f => .error (6, some f)
    | .ok bs =>
      match parseKernel (ws.getD 0 0) bs with
      | .error st => .error (st, none)
      | .ok k =>
        if r.gx * r.gy * r.gz % k.cluster != 0 then .error (2, none)
        else if (s.tenant t).cores < k.cluster then .error (3, none)
        else match s.readRoot t r.paddr.toNat r.psize.toNat with
          | .error f => .error (6, some f)
          | .ok _ => .ok k

/-- Whether a queue reads records and starts launches: its tenant and itself enabled, not suspended, E0 up, and no
switch under way (R23, R27, R53, R68, R93). -/
def State.queueRuns (s : State) (t q : Nat) : Bool :=
  (s.tenant t).en && (s.queue t q).en && !onBit (s.tenant t).qsusp q && !s.switching && !s.e0Lost

/-- Whether the next record of a queue is to be read. -/
def State.recordDue (s : State) (t q : Nat) : Bool :=
  let x := s.queue t q
  s.queueRuns t q && !x.stop && x.qhead != x.qtail

/-- What a record's validation reads on other devices is asked for (R38, R71). -/
def State.askRecord (s : State) (t : Nat) (ws : List Dword) : State :=
  let r := recordInfo 0 ws
  (s.askRoot t (ws.getD 0 0).toNat 64).askRoot t r.paddr.toNat r.psize.toNat

/-- Whether a validation waits for bytes of another device. -/
def validating (r : Except (Nat × Option (Nat × Err)) Kernel) : Bool :=
  match r with | .error (_, some (_, e)) => e == notYet | _ => false

/-- LAUNCH_RECORD_READ: the next record is read, with acquire semantics at system scope, and validated; a ring that cannot
be read stops the queue (R68, R69, R71, R179). What lies on another device is asked for first (R38). -/
def execLaunchRecordRead (t : BitVec 6) (q : BitVec 4) (s : State) : Out :=
  .next (let t := t.toNat
    let q := q.toNat
    if !s.recordDue t q then s
    else
      let x := s.queue t q
      let va := x.slot
      match s.readRoot t va 128 with
      | .error (a, e) =>
        if e == notYet then s.askRoot t va 128
        else (((s.forgetRoot t va 128).updQueue t q fun x => { x with stop := true }).queueFault t q e a 0).raiseVector t 3
      | .ok bs =>
        let ws := (bytesToDwords bs 16).map (BitVec.ofNat 64)
        if validating (s.validate t ws) then s.askRecord t ws else
        let gid := gridId t q false 0 x.launchSeq
        let s := s.activeCores.foldl (fun s c => s.acquireCore c) s
        let s := s.updQueue t q fun x => { x with qhead := x.qhead + 1, launchSeq := x.launchSeq + 1 }
        let valid := s.validate t ws
        let s := s.forgetRecord t va ws
        match valid with
        | .error (st, f) =>
          let s := match f with | some (a, e) => s.queueFault t q e a gid | none => s
          s.refuseLaunch t q gid (recordInfo va ws) st
        | .ok k => s.updQueue t q fun y => { y with waiting := y.waiting ++ [⟨va, x.launchSeq, ws, k⟩] })

/-- QTL_WRITE (R71). -/
def execQtlWrite (t : BitVec 6) (q : BitVec 4) (k : BitVec 3) (v : Dword) (s : State) : Out :=
  .next (s.updQueue t.toNat q.toNat fun x => { x with qtl := Sparse.set 0 x.qtl k.toNat v })

/-! ## The start of a launch (R71, R90) -/

/-- Whether the waits of a record hold. -/
def State.waitsHold (s : State) (t : Nat) (ws : List Dword) : Bool :=
  (recordWaits ws).all fun w => decide (w.2.2.toNat ≤ ((s.queue t w.1).tlc w.2.1).toNat)

/-- Whether the launch of a queue before a record's has completed. The first one after EN was written to 1 follows the last
that the queue had started until then (R71). -/
def State.prevComplete (s : State) (t q : Nat) (r : Record) : Bool :=
  let x := s.queue t q
  if s.reporting t q then false
  else if r.seq = 0 then (s.grid? x.prior).isNone
  else (s.launchesOf t q).all fun e => decide (e.1 ≤ x.epoch) || e.2.seq + 1 != r.seq

/-- The record that a queue may start now. -/
def State.startable (s : State) (t q : Nat) : Option Record :=
  let x := s.queue t q
  match x.waiting with
  | [] => none
  | r :: _ =>
    if s.queueRuns t q && s.waitsHold t r.words && ((recordConc r.words && x.dl == 0) || s.prevComplete t q r) then some r else none

/-- The grid of a launch at its start. -/
def launchGrid (t q : Nat) (x : Queue) (r : Record) (id now : Nat) (trace : Option (List (Nat × Nat))) : Grid :=
  let i := recordInfo r.va r.words
  { gid := gridId t q false 0 r.seq, tenant := t, queue := q, seq := r.seq, dl := x.dl, prio := x.prio
    quota := if x.quota == 0 then 4096 else x.quota.toNat, kernel := r.kernel, launch := some i, task := none
    state := .started, nextBlock := 0, total := i.gx * i.gy * i.gz, finished := 0, order := id, waitingSince := now
    turn := 1, stall := 0, stalledFrom := none, closing := none, effects := [], effSeq := 0, accesses := [], dcause := DCause.zero, published := DCause.zero
    pendingEvents := [], ownFreed := 0, heldRed := [], folds := [], trace := trace, killed := false, traced := false, preempt := false }

/-- LAUNCH_START: under replay the trace is checked first, and a mismatch completes the launch with status 5. ACQ is
an acquire at system scope. A DL1 launch without replay records NOTRACE (R71, R90). What a trace buffer on another device holds is
read first (R38, R89). -/
def execLaunchStart (t : BitVec 6) (q : BitVec 4) (s : State) : Out :=
  .next (let t := t.toNat
    let q := q.toNat
    match s.startable t q with
    | none => s
    | some r =>
      let x := s.queue t q
      let found := s.traceEntries t q r.seq
      if x.trace == 2 && readWaits found then s.askTrace t q
      else if x.trace == 1 && !x.traceFailed && readWaits (s.traceRoom t q) then s.askRoot t (x.traceAddr.toNat + 8) 4
      else
      let i := recordInfo r.va r.words
      let gid := gridId t q false 0 r.seq
      let s := s.updQueue t q fun x => { x with waiting := x.waiting.drop 1 }
      let begin := fun (s : State) (tr : Option (List (Nat × Nat))) =>
        let s := if recordAcq r.words then s.activeCores.foldl (fun s c => s.acquireCore c) s else s
        let (id, s) := s.fresh
        let s := (s.setGrid id (launchGrid t q x r id s.placeTime tr)).updQueue t q fun x => { x with lastStarted := id }
        if x.dl == 1 && x.trace != 2 then s.gridEvent id 0x07 0 else s
      if x.trace != 2 then begin s none
      else
        let s := (s.forgetRoot t x.traceAddr.toNat 0x40).forgetRoot t (x.traceAddr.toNat + 0x40)
          (match s.readRoot t x.traceAddr.toNat 0x40 with | .ok h => 8 * bytesToNat ((h.drop 12).take 4) | .error _ => 0)
        match found with
        | .error (a, e) => (s.queueFault t q e a gid).refuseLaunch t q gid i 5
        | .ok none => s.refuseLaunch t q gid i 5
        | .ok (some es) =>
          if s.traceFits t (i.gx * i.gy * i.gz) r.kernel.cluster es then begin s (some es) else s.refuseLaunch t q gid i 5)

/-! ## The end of a launch (R71) -/

/-- The event codes that a grid has recorded, as bits (R82). -/
def Grid.dcsum (g : Grid) : Dword :=
  let codes := (g.dcause.entries ++ g.published.entries).map (·.code.toNat) ++ g.pendingEvents.map (·.1.toNat)
  codes.foldl (fun m c => setBit m c true) 0

/-- Whether a launch has nothing left to do: every block placed and complete, no contribution held for its end, every
task completed or failed (R71, R91). -/
def State.launchIdle (s : State) (n : Nat) (g : Grid) : Bool :=
  decide (g.total ≤ g.nextBlock)
  && s.blocks.all (fun e => e.2.grid != n)
  && g.heldRed.isEmpty
  && s.grids.all (fun e => e.1 == n || e.2.root e.1 != n)
  && (s.tenant g.tenant).sluice.all fun e => e.2.owner != n || e.2.st == .free || e.2.done

/-- What a launch leaves behind goes with it: its handles are dropped and its tiles' histories freed (R122, R131). -/
def State.forgetGrid (s : State) (n : Nat) (g : Grid) : State :=
  let s := { s with
    grids := s.grids.filter fun e => e.1 != n
    fantail := s.fantail.filter fun f => !(f.key.tenant == g.tenant && f.key.grid == g.gid) }
  let s := (s.tenant g.tenant).sluice.foldl (fun s e =>
    if e.2.owner == n && e.2.st != .free then
      (s.updSluice g.tenant e.1 fun e => { e with dropped := true }).reclaim g.tenant e.1
    else s) s
  s.resumeChildren g.tenant none

/-- Requests of other devices that waited for a boundary are performed once the tenant has no grid in turns (R88). -/
def State.freeArrived (s : State) (t : Nat) : State := if s.inTurns t then s else s.applyArrived t

/-- LAUNCH_COMPLETE. The launch completes with a release at system scope, which is REL's as well: first it is performed, and
its signatures and host stores are acknowledged (R71, R179). -/
def execLaunchComplete (grid : Nat) (s : State) : Out :=
  .next (match s.grid? grid with
    | none => s
    | some g =>
      match g.launch with
      | none => s
      | some r =>
        if !s.launchIdle grid g then s
        else
          let (s, complete) := s.endRelease grid 5 g
          if !complete then s
          else
            let s := if g.traced then s else s.traceLaunch g.tenant g.queue g.gid
            let s := s.reportLaunch g.tenant g.queue g.gid r (if g.killed then 4 else 0) g.dcsum
            ((s.forgetGrid grid g).freeArrived g.tenant).settleQsaved g.tenant)

/-! ## The fault queue's registers and commands (R73, R75) -/

/-- FQBASE_WRITE. The bits below its alignment hold nothing (DESIGN CHOICE, log 80). -/
def execFqbaseWrite (t : BitVec 6) (v : Dword) (s : State) : Out :=
  .next ((s.updTenant t.toNat fun x =>
    { x with fq := { x.fq with base := BitVec.ofNat 53 (bitsAt v.toNat 6 47 * 64) } }).retryRecords t.toNat)

/-- FQ_CONTROL_WRITE: a bad FQLOG2 changes nothing but FQEN, which it can only clear (R73). -/
def execFqControlWrite (t : BitVec 6) (v : Dword) (s : State) : Out :=
  .next (let n := bitsAt v.toNat 1 5
    let s := if n < 4 ∨ 16 < n then
        (if onBit v 0 then s else s.updTenant t.toNat fun x => { x with fq := { x.fq with en := false } })
      else s.updTenant t.toNat fun x => { x with fq := { x.fq with en := onBit v 0, log2 := BitVec.ofNat 5 n } }
    s.retryRecords t.toNat)

/-- FQHEAD_WRITE. -/
def execFqheadWrite (t : BitVec 6) (v : Dword) (s : State) : Out :=
  .next ((s.updTenant t.toNat fun x => { x with fq := { x.fq with head := BitVec.ofNat 32 v.toNat } }).retryRecords t.toNat)

/-- RESUME: the threads suspended on the record go on, those of a saved block once it is restored. A VIEWPOOL record of
cause 1 retries every suspended write once (R75, R94, R118, R225). -/
def execResume (t : BitVec 6) (seq : BitVec 62) (s : State) : Out :=
  .next (match (s.tenant t.toNat).fq.opened.find? (fun o => o.record.seq == seq.toNat) with
    | none => s
    | some o =>
      let s := s.resumeRecord t.toNat seq.toNat
      let s := o.threads.foldl (fun s e => match s.block? e.1 with
        | some k => if k.state == .saved || k.state == .lost then s else (s.stopAtQuota e.1).wakeQuad e.1 e.2
        | none => s) s
      if o.record.code == BitVec.ofNat 8 cVIEWPOOL && o.record.cause == 1 then
        (s.lackOrder t.toNat).foldl (fun s e => match e.2 with | some b => s.resumeChild b none | none => s) s
      else s)

/-- A VIEWPOOL record of cause 1 is resolved by a KILL that ends its launch (R75, R118). -/
def State.resolvePoolOf (s : State) (t : Nat) (gids : List Dword) : State :=
  s.updTenant t fun x => { x with fq := { x.fq with opened := x.fq.opened.filter fun o =>
    !(o.record.code == BitVec.ofNat 8 cVIEWPOOL && o.record.cause == 1 && gids.contains o.record.grid) } }

/-- The end that KILL brings to a launch: its blocks and its tasks' blocks stop and take no further effect, what it
holds back is dropped, and its handles break with code TRAP (R75, R115, R124). -/
def State.killLaunch (s : State) (n : Nat) : State :=
  match s.grid? n with
  | none => s
  | some g =>
    let s := s.setGrid n { g with killed := true, total := g.nextBlock, effects := [], closing := none, heldRed := [], trace := none }
    let s := s.stopGrid n
    let s := s.resolvePoolOf g.tenant ((s.launchGrids n).map fun e => e.2.gid)
    let tasks := (s.launchGrids n).filter fun e => e.1 != n
    let s := tasks.foldl (fun s e => s.failTask e.1 (BitVec.ofNat 8 cTRAP) 1) s
    let s := tasks.foldl (fun s e => s.updGrid e.1 fun g => { g with effects := [], closing := none, heldRed := [] }) s
    s.breakHandlesOf g.tenant (fun _ e => e.owner == n) (BitVec.ofNat 8 cTRAP) 1

/-- KILL: every launch in flight on the queue (R75). -/
def execKill (t : BitVec 6) (q : BitVec 4) (s : State) : Out :=
  .next ((s.launchesOf t.toNat q.toNat).foldl (fun s e => s.killLaunch e.1) s)

/-! ## Reads (R5, R6, R24, R32, R33, R45, R53, R54, R56, R66, R68, R69, R71, R73, R75, R80-R82, R228) -/

/-- A window as its two dwords (R58). -/
def Window.dword (w : Window) (high : Bool) : Nat :=
  if high then w.pages.toNat + (if w.valid then 2 ^ 36 else 0) + (if w.rd then 2 ^ 37 else 0) + (if w.wr then 2 ^ 38 else 0)
  else w.hbase.toNat * 2 ^ 12

/-- A control block as the host reads it; of IVEC and WIN the entry in effect (R53, R54, R80). -/
def Tenant.readControl (x : Tenant) (o : Nat) : Nat :=
  if o = 0x000 then (if x.en then 1 else 0)
  else if o = 0x008 then (if x.rootv then 1 else 0) + x.root.toNat * 2 ^ 13
  else if o = 0x010 then x.mpshare.toNat
  else if o = 0x018 then x.slshare.toNat
  else if o = 0x020 then x.savebase.toNat * 2 ^ 16
  else if o = 0x028 then x.savesize.toNat
  else if o = 0x030 then x.diemask.toNat + x.ncore.toNat * 2 ^ 8
  else if 0x040 ≤ o ∧ o < 0x080 then
    let e := Sparse.get Ivec.none x.ivec ((o - 0x040) / 16)
    if o % 16 = 8 then e.data.toNat else e.addr.toNat
  else if 0x080 ≤ o ∧ o < 0x180 then (Sparse.get Window.none x.win ((o - 0x080) / 16)).dword (o % 16 == 8)
  else if 0x180 ≤ o ∧ o < 0x200 then bitsAt x.domset.toNat (8 * (o - 0x180)) 64
  else 0

/-- A queue's registers as the host reads them (R68). -/
def State.readQueue (s : State) (t q o : Nat) : Nat :=
  let x := s.queue t q
  if o = 0x00 then x.qbase.toNat
  else if o = 0x08 then (if x.en then 1 else 0) + x.prio.toNat * 2 + x.dl.toNat * 2 ^ 4 + x.trace.toNat * 2 ^ 6
    + x.log2size.toNat * 2 ^ 8 + x.quota.toNat * 2 ^ 32
  else if o = 0x10 then x.qhead.toNat
  else if o = 0x18 then x.qtail.toNat
  else if o = 0x20 then (if s.queueIdle t q then 1 else 0) + (if x.ovr then 2 else 0) + (if x.stop then 4 else 0)
  else if o = 0x28 then bitsAt x.seed.toNat 0 64
  else if o = 0x30 then bitsAt x.seed.toNat 64 64
  else x.traceAddr.toNat

/-- A tenant page as the host reads it: zero while the tenant is disabled; NOTIFY, the operands of TLBINV and FQCMD are
write-only (R5, R53, R66, R69, R73, R75, R228). -/
def State.readPage (s : State) (t o : Nat) : Nat :=
  let x := s.tenant t
  if !x.en then 0
  else if o = 0x008 then (if x.tlbBusy then 2 ^ 63 else 0)
  else if o = 0x010 then x.fq.base.toNat
  else if o = 0x018 then (if x.fq.en then 1 else 0) + x.fq.log2.toNat * 2
  else if o = 0x020 then x.fq.head.toNat
  else if o = 0x028 then x.fq.tail.toNat
  else if o = 0x038 then x.fq.lostCount.toNat
  else if o = 0x040 then x.imask.toNat
  else if o = 0x048 then x.ipend.toNat
  else if o = 0x050 then x.qsusp.toNat
  else if o = 0x058 then x.qsaved.toNat
  else if o = 0x060 then x.diagBase.toNat * 2 ^ 10
  else if o = 0x068 then x.diagLog2.toNat
  else if o = 0x070 then x.diagSeq.toNat
  else if 0x200 ≤ o ∧ o < 0x600 then s.readQueue t ((o - 0x200) / 0x40) ((o - 0x200) % 0x40)
  else if 0x600 ≤ o ∧ o < 0xA00 then ((s.queue t ((o - 0x600) / 0x40)).tlc ((o - 0x600) % 0x40 / 8)).toNat
  else if 0xA00 ≤ o ∧ o < 0xA80 then (s.queue t ((o - 0xA00) / 8)).dcsum.toNat
  else 0

/-- A route or tree entry and, from an offset of a whole dword, the entry after it (R33, R45). -/
def entryPair (entry : Nat → Nat) (o : Nat) : Nat := entry (o / 4) + (if o % 8 = 0 then entry (o / 4 + 1) * 2 ^ 32 else 0)

/-- What the host reads at an offset of the management register block; of the 32-bit entries of a table, those that a dword
from there on holds. Reads change nothing; a reserved field and an offset that holds no register read as zero (R5, R6). -/
def State.readRegister (s : State) (off : Nat) : Dword := BitVec.ofNat 64 (
  if off = 0x0010 then s.pkg.caps.toNat
  else if off = 0x0100 then s.fabric.devid.toNat
  else if off = 0x0200 then s.pkg.mpbase.toNat * 2 ^ 30
  else if off = 0x0208 then s.pkg.mpsize.toNat
  else if off = 0x0300 then s.pkg.pdelay.toNat + (if s.pkg.pen then 2 ^ 32 else 0)
  else if 0x1000 ≤ off ∧ off < 0x2000 ∧ off % 4 = 0 then
    entryPair (fun j => let r := Sparse.get Route.none s.fabric.routes j; r.port.toNat + (if r.valid then 2 ^ 5 else 0)) (off - 0x1000)
  else if 0x2000 ≤ off ∧ off < 0x2400 ∧ off % 4 = 0 then
    entryPair (fun j => (Sparse.get Tree.none s.fabric.trees j).bits.toNat) (off - 0x2000)
  else if 0x10000 ≤ off ∧ off < 0x50000 ∧ off % 8 = 0 then s.readPage ((off - 0x10000) / 0x1000) ((off - 0x10000) % 0x1000)
  else if 0x50000 ≤ off ∧ off < 0x58000 ∧ off % 8 = 0 then
    (s.tenant ((off - 0x50000) / 0x200)).readControl ((off - 0x50000) % 0x200)
  else 0)

end Sys2Proof.Machine
end

