-- ==== Sys2Proof/Machine/Place.lean ====
section
/-! DEFINITION. Placement: what a block takes of a core, where a block, a cluster, a child or a saved block may stand, and
which launch is served next (R76-R80, R94, R98, R116, R123, R151). -/

namespace Sys2Proof.Machine

/-! ## What a block takes (R151, R154) -/

/-- Threads, registers, scratchpad bytes and barrier objects. -/
structure Need where
  threads : Nat
  regs : Nat
  scratch : Nat
  bars : Nat
  deriving DecidableEq, Repr

/-- The needs of a block of a kernel; a child of a FORK has a cluster size of 1 (R98, R151). -/
def Kernel.need (n : Kernel) (child : Bool) : Need where
  threads := n.threads
  regs := n.totalCharge
  scratch := roundUp n.scratch 256
  bars := if 1 < n.cluster ∧ child = false then 2 * n.bars else n.bars

/-- The needs of a block that exists. -/
def State.needOf (s : State) (k : Block) : Need :=
  match s.grid? k.grid with
  | some g => g.kernel.need k.parent.isSome
  | none => ⟨0, 0, 0, 0⟩

/-- The blocks that occupy a core: all that stand on it but the saved ones. -/
def State.residents (s : State) (c : Nat) : List (Nat × Block) :=
  s.blocks.filter fun e => e.2.core == c && e.2.state != .saved

/-- The lowest base at which a length fits between the ranges in use (log 28). -/
def freeBase (cap len : Nat) (used : List (Nat × Nat)) : Option Nat :=
  if len = 0 then some 0
  else (sortBy (fun a b => decide (a < b)) (0 :: used.map fun u => u.1 + u.2)).find? fun b =>
    decide (b + len ≤ cap) && used.all fun u => decide (b + len ≤ u.1 ∨ u.1 + u.2 ≤ b)

/-- The register and scratchpad bases at which a core takes in a block of these needs; none where it has no room
(R76, R151). -/
def State.spot (s : State) (c : Nat) (n : Need) : Option (Nat × Nat) :=
  let us := (s.residents c).map fun e => (e.2, s.needOf e.2)
  let sum := fun (f : Need → Nat) => us.foldl (fun a u => a + f u.2) 0
  if 2048 < sum (·.threads) + n.threads ∨ 65536 < sum (·.regs) + n.regs ∨ 393216 < sum (·.scratch) + n.scratch
      ∨ 128 < sum (·.bars) + n.bars then none
  else
    match freeBase 65536 n.regs (us.map fun u => (u.1.regBase, u.2.regs)),
      freeBase 393216 n.scratch (us.map fun u => (u.1.scratchBase, u.2.scratch)) with
    | some r, some m => some (r, m)
    | _, _ => none

/-- The cores on which a grid's blocks may stand: usable ones of its tenant, for the block of a task those of the die that
it names, for children of a fork any (R76, R80, R98, R123). R98 lets a child stand on another device of DOMSET; the children of a
fork stand on its own device (DESIGN CHOICE, log 92). -/
def State.coresFor (s : State) (g : Grid) (child : Bool) : List Nat :=
  (s.usable g.tenant).filter fun c => match g.task with
    | some t => child || t.kind != 1 || c / 64 == t.die
    | none => true

/-- The runs of m consecutive eligible cores of one die (R77). -/
def State.runsOf (s : State) (g : Grid) (child : Bool) (m : Nat) (n : Need) : List (List Nat) :=
  let ok := (s.coresFor g child).filter fun c => (s.spot c n).isSome
  ok.filterMap fun c =>
    let run := (List.range m).map fun i => c + i
    if decide (c % 64 + m ≤ 64) && run.all (fun d => ok.contains d) then some run else none

/-! ## What a grid places next -/

/-- A placement: root blocks of a cluster by their linear IDs, the next child of a block's fork, or saved blocks. -/
inductive Place where
  | roots (ids : List Nat)
  | child (parent : Nat)
  | restore (blocks : List Nat)
  deriving DecidableEq, Repr

/-- Whether a child of a tenant is suspended for slots, here or of another device (R116). -/
def State.anyLacks (s : State) (t : Nat) : Bool :=
  s.blocks.any (fun e => e.2.tenant == t && e.2.lackSince.isSome) || s.fabric.slotWait.any fun m => m.2.tenant.toNat == t

/-- The open forks of a grid with a child to dispatch, the oldest first. At DL1 and above a child starts in the turn
after its FORK; none starts while a child of the tenant is suspended for slots (R98, R116). -/
def State.forksDue (s : State) (n : Nat) (g : Grid) : List Nat :=
  if s.anyLacks g.tenant then []
  else
    let fs := s.blocks.filterMap fun e => match e.2.fork with
      | some f =>
        if e.2.grid == n && e.2.state == .running && !f.dropping && decide (f.next < f.n) && (g.dl == 0 || decide (f.turn < g.turn)) then
          some (f.order, e.1)
        else none
      | none => none
    (sortBy (fun (a b : Nat × Nat) => decide (a.1 < b.1)) fs).map (·.2)

/-- The entries of a replayed trace by cluster, in entry order: the blocks and their cores (R90). -/
def traceGroups (n : Nat) (es : List (Nat × Nat)) : List (List Nat × List Nat) :=
  (dedup (es.map fun e => e.1 / n)).map fun k =>
    let ids := (List.range n).map fun m => k * n + m
    (ids, ids.filterMap fun i => (es.find? fun e => e.1 == i).map (·.2))

/-- The first group whose cores are eligible and have no earlier entry left (R76, R90). -/
def State.traceNext (s : State) (g : Grid) (need : Need) : List (List Nat × List Nat) → List Nat → Option (List Nat × List Nat)
  | [], _ => none
  | (ids, cs) :: rest, seen =>
    if cs.all fun c => !seen.contains c && (s.coresFor g false).contains c && (s.spot c need).isSome then some (ids, cs)
    else s.traceNext g need rest (seen ++ cs)

/-- Whether a task waits behind an earlier one on the same handle that has not been placed (R126). -/
def State.behind (s : State) (g : Grid) : Bool :=
  match g.task.bind (·.on) with
  | none => false
  | some h => s.grids.any fun e => decide (e.2.order < g.order) && decide (e.2.nextBlock < e.2.total)
      && (match e.2.task with | some t => t.on == some h && !t.failed | none => false)

/-- What a grid places next that is new, and the cores on which it may stand now. -/
def State.nextNew (s : State) (n : Nat) (g : Grid) : Option (Place × List (List Nat)) :=
  match s.forksDue n g with
  | b :: _ => some (.child b, s.runsOf g true 1 (g.kernel.need true))
  | [] =>
    let need := g.kernel.need false
    match g.trace with
    | none =>
      if g.total ≤ g.nextBlock || s.behind g then none
      else some (.roots ((List.range g.kernel.cluster).map fun i => g.nextBlock + i), s.runsOf g false g.kernel.cluster need)
    | some es =>
      match traceGroups g.kernel.cluster es with
      | [] => none
      | (ids, cs) :: rest => match s.traceNext g need ((ids, cs) :: rest) [] with
        | some (ids, cs) => some (.roots ids, [cs])
        | none => some (.roots ids, [])

/-- Whether no member of a block's cluster is still to be saved. -/
def State.wholeSaved (s : State) (k : Block) : Bool :=
  (s.cluster k.cluster).members.all fun m => !((s.block? m).any fun x => x.state == .saving)

/-- The saved blocks of a grid that are restored together: at DL0 those of one cluster, above the whole grid (R77, R94). -/
def State.savedGroup (s : State) (n : Nat) (g : Grid) : List Nat :=
  let saved := s.blocks.filter fun e => e.2.grid == n && e.2.state == .saved
  if g.dl != 0 then saved.map (·.1)
  else match saved.find? fun e => s.wholeSaved e.2 with
    | none => []
    | some (_, k) => (s.cluster k.cluster).members.filter fun m => (s.block? m).any fun x => x.state == .saved

/-- A saved block seated on a core: at DL0 where there is room, above at its own place again. -/
def State.seat (s : State) (same : Bool) (b c : Nat) : Option State :=
  match s.block? b with
  | none => none
  | some k =>
    let need := s.needOf k
    match s.spot c need with
    | none => none
    | some (r, m) =>
      let free := (s.residents c).all fun e =>
        let n := s.needOf e.2
        decide (k.regBase + need.regs ≤ e.2.regBase ∨ e.2.regBase + n.regs ≤ k.regBase)
        && decide (k.scratchBase + need.scratch ≤ e.2.scratchBase ∨ e.2.scratchBase + n.scratch ≤ k.scratchBase)
      if same && !free then none
      else some (s.setBlock b { k with
        core := c, state := .running
        regBase := if same then k.regBase else r, scratchBase := if same then k.scratchBase else m })

/-- Saved blocks seated one after another. -/
def State.seatAll (s : State) (same : Bool) : List (Nat × Nat) → Option State
  | [] => some s
  | (b, c) :: l => match s.seat same b c with
    | some s => s.seatAll same l
    | none => none

/-- The cores that saved blocks have left. -/
def State.leftCores (s : State) (bs : List Nat) : List Nat := bs.filterMap fun b => ((s.block? b).bind fun k => k.image).map (·.core)

/-- The cores on which a group of saved blocks may stand now: at DL1 and above those that they have left, as at DL0 for blocks
of which a member of their cluster has stayed (R77, R94). -/
def State.restoreCores (s : State) (g : Grid) (bs : List Nat) : List (List Nat) :=
  match bs with
  | [] => []
  | b :: _ => match s.block? b with
    | none => []
    | some k =>
      if g.dl == 0 && bs.length == (s.cluster k.cluster).members.length then s.runsOf g k.parent.isSome bs.length (s.needOf k)
      else
        let cs := s.leftCores bs
        if cs.all (fun c => (s.coresFor g true).contains c) && (s.seatAll (g.dl != 0) (bs.zip cs)).isSome then [cs] else []

/-- The cores that a grid's next placement could use, in ascending order: those that a trace or an image binds it to, otherwise
any (R90, R93, R94). -/
def State.wanted (s : State) (n : Nat) (g : Grid) : List Nat :=
  let saved := s.savedGroup n g
  sortBy (fun a b => decide (a < b)) (dedup (
    if !saved.isEmpty && g.dl != 0 then s.leftCores saved
    else if !(s.forksDue n g).isEmpty then s.coresFor g true
    else match g.trace with
      | some es => ((traceGroups g.kernel.cluster es).head?.map fun x => x.2).getD []
      | none => s.coresFor g false))

/-! ## The choice of R79 -/

/-- A placement that could be made: its grid, what it places, and the core lists. -/
structure Cand where
  grid : Nat
  prio : Nat
  fresh : Bool
  rr : Nat
  order : Nat
  place : Place
  options : List (List Nat)
  deriving DecidableEq, Repr

/-- The round-robin rank of a queue after the one served last at its priority (R79). -/
def State.rank (s : State) (g : Grid) : Nat :=
  let id := 16 * g.tenant + g.queue + 1
  if Sparse.get 0 s.lastServed g.prio.toNat < id then id else id + 2048

/-- Whether a grid has been ended: by KILL, or as a task that failed (R75, R124). -/
def Grid.ended (g : Grid) : Bool := g.killed || (g.task.map (·.failed)).getD false

/-- The placements that a grid could make, unless it is pre-empted, has ended or is at a turn boundary: of saved blocks, and new ones (R79, R94). -/
def State.candsOf (s : State) (n : Nat) (g : Grid) : List Cand :=
  let mk := fun (fresh : Bool) (p : Place) (o : List (List Nat)) =>
    if o.isEmpty then [] else [(⟨n, g.prio.toNat, fresh, s.rank g, g.order, p, o⟩ : Cand)]
  if g.preempt || g.ended || g.closing.isSome then []
  else
    let saved := s.savedGroup n g
    let back := if saved.isEmpty then [] else
      mk false (.restore saved) (s.restoreCores g saved)
    let new_ := if g.dl != 0 && !saved.isEmpty then [] else match s.nextNew n g with
      | some (p, o) => mk true p o
      | none => []
    back ++ new_

/-- The order of R79: priority, restores before new blocks, round-robin, the oldest launch. -/
def Cand.before (a b : Cand) : Bool :=
  if a.prio != b.prio then decide (b.prio < a.prio)
  else if a.fresh != b.fresh then !a.fresh
  else if a.rr != b.rr then decide (a.rr < b.rr)
  else decide (a.order < b.order)

/-- The placement that the dispatcher makes next; none while E0 is lost (R27, R79). -/
def State.nextPlacement (s : State) : Option Cand :=
  if s.e0Lost then none
  else (sortBy Cand.before (s.grids.flatMap fun e => s.candsOf e.1 e.2)).head?

/-- Whether a grid could place something now, so that its turn does not end yet (R79, R87). -/
def State.placing (s : State) (n : Nat) (g : Grid) : Bool := !s.e0Lost && !(s.candsOf n g).isEmpty

end Sys2Proof.Machine
end

