-- ==== Sys2Proof/Machine/Timeout.lean ====
section
/-! DEFINITION. Timeouts: barriers, collectives, transaction barriers, reconvergence, Sluice slots, and the diagnostic
area (R127, R226-R228). -/

namespace Sys2Proof.Machine

/-! ## The diagnostic area (R228) -/

/-- A missing thread: cluster member, thread ID, program counter. -/
structure Missing where
  member : Nat
  tid : Nat
  pc : Dword
  deriving DecidableEq, Repr

/-- The 16 bytes of an entry. -/
def Missing.bytes (m : Missing) : List Byte :=
  natToBytes 8 (m.pc.toNat % 2 ^ 53) ++ natToBytes 8 (m.tid % 2 ^ 11 + m.member % 2 ^ 4 * 2 ^ 11)

/-- The AUX of a timeout's records: the threads missing, the entries listed, LOST, and the number of the event (R228). -/
def diagAux (miss : List Missing) (seq : Nat) (lost : Bool) : Nat :=
  min 0xFFFF miss.length + (if lost then 2 ^ 23 else min 64 miss.length * 2 ^ 16) + seq * 2 ^ 32

/-- The address of the next event's slot (R228). -/
def Tenant.diagSlot (x : Tenant) : Nat := x.diagBase.toNat * 1024 + 1024 * (x.diagSeq.toNat % 2 ^ x.diagLog2.toNat)

/-- A list of missing threads written, where it can be; a slot on another device is written as a whole, and its answer tells
(R228). -/
def State.writeDiag (s : State) (t va : Nat) (bytes : List Byte) (what : RemoteFor) : Option (State × Bool) :=
  match s.rootHome t va 64 with
  | .ok (.remote d a) =>
    (s.ownRequest t 0x0A d a (BitVec.ofNat 64 (16 + bytes.length * 2 ^ 16)) (flitsOf bytes) what).map fun s => (s, true)
  | _ => match s.writeRoot t va bytes what with
    | .ok r => some r
    | .error _ => none

/-- One timeout: the list of the missing threads takes its slot, DIAGSEQ rises, and every waiting thread takes the same trap, in
order; of a list that goes to another device, once its answer has come (R227, R228). -/
def State.timeOut (s : State) (t : Nat) (miss : List Missing) (who : List (Nat × Nat)) (trap : Nat → Trap) : State :=
  let x := s.tenant t
  let bytes := (miss.take 64).flatMap Missing.bytes
  let aux := diagAux miss x.diagSeq.toNat
  let p := trap (aux false)
  let written := if miss.isEmpty || x.diagBase == 0 then none
    else s.writeDiag t x.diagSlot bytes (.diag who p.code p.cause p.addr p.aux0 p.aux1 (aux true))
  let seq := fun (s : State) => s.updTenant t fun x => { x with diagSeq := x.diagSeq + 1 }
  let now := fun (s : State) (lost : Bool) => who.foldl (fun s e => s.trapWaiting e.1 e.2 (trap (aux lost))) s
  match written with
  | some (s, true) => who.foldl (fun s e => s.updThread e.1 e.2 fun th => { th with status := .waiting (.remote s.fabric.tagCtr) }) (seq s)
  | some (s, false) => now ((seq s).releaseLines t x.diagSlot bytes.length) false
  | none => now (seq s) !miss.isEmpty

/-- The trap of a timeout. -/
def timeoutTrap (code cause addr : Nat) (aux : Nat) : Trap := { Trap.of code cause with addr := addr, aux0 := aux }

/-- The threads of a block that take part in a phase and have not arrived. -/
def State.missing (s : State) (b : Nat) (k : Block) (member : Nat) (arrived : List (Nat × Nat)) : List Missing :=
  (k.live.filter fun t => !arrived.contains (member, t)).map fun t => ⟨member, t, s.pcOf b t⟩

/-- Arrivals in ascending order of member and thread. -/
def arrivalOrder (l : List (Nat × Nat)) : List (Nat × Nat) :=
  sortBy (fun (a b : Nat × Nat) => decide (a.1 < b.1 ∨ (a.1 = b.1 ∧ a.2 < b.2))) l

/-! ## The timers (R227) -/

/-- BAR. -/
def State.barTimeout (s : State) (b i : Nat) : State :=
  match s.block? b with
  | none => s
  | some k =>
    let x := Sparse.get Barrier.empty k.bars i
    if x.arrived.isEmpty || !s.expired b x.due || k.barDone x then s
    else
      let s := s.updBlock b fun k => { k with bars := Sparse.set Barrier.empty k.bars i Barrier.empty }
      let who := (arrivalOrder x.arrived).filterMap fun e =>
        if (k.thread e.2).status == .waiting (.bar i) then some (b, e.2) else none
      s.timeOut k.tenant (s.missing b k 0 x.arrived) who (timeoutTrap cBARTO 1 i)

/-- CBAR: the missing threads of every member. -/
def State.cbarTimeout (s : State) (n i : Nat) : State :=
  let c := s.cluster n
  let x := Sparse.get Barrier.empty c.cbars i
  match c.members with
  | [] => s
  | b :: _ =>
    if x.arrived.isEmpty || !s.expired b x.due || (s.clusterLive c).all (fun t => x.arrived.contains t) then s
    else
      let miss := c.members.zipIdx.flatMap fun e => match s.block? e.1 with
        | some k => s.missing e.1 k e.2 x.arrived
        | none => []
      let who := (arrivalOrder x.arrived).filterMap fun e => match c.members[e.1]? with
        | some m => if (s.thread m e.2).status == .waiting (.cbar i) then some (m, e.2) else none
        | none => none
      let s := s.updCluster n fun c => { c with cbars := Sparse.set Barrier.empty c.cbars i Barrier.empty }
      s.timeOut (s.tenantOf b) miss who (timeoutTrap cBARTO 2 i)

/-- A SPEC, or a SPECEND, while a participant has not arrived (R129; log 29). -/
def State.specTimeout (s : State) (b : Nat) (ends : Bool) : State :=
  match s.block? b with
  | none => s
  | some k =>
    let x := if ends then k.specendBar else k.specBar
    if x.arrived.isEmpty || !s.expired b x.due || k.barDone x then s
    else
      let s := s.updBlock b fun k => if ends then { k with specendBar := Barrier.empty } else { k with specBar := Barrier.empty }
      let who := (arrivalOrder x.arrived).filterMap fun e => match (k.thread e.2).status, ends with
        | .waiting (.spec _), false | .waiting .specend, true => some (b, e.2)
        | _, _ => none
      s.timeOut k.tenant (s.missing b k 0 x.arrived) who (timeoutTrap cBARTO 3 0)

/-- TBWAIT of one thread: PARR and PSEC of the barrier, and no list. -/
def State.tbTimeout (s : State) (b tid : Nat) : State :=
  match (s.thread b tid).status with
  | .waiting (.tbwait o off p _ due) =>
    if !s.expired b due || tbPhase (s.tbGet o off) != p.toNat then s
    else
      let v := s.tbGet o off
      s.timeOut (s.tenantOf b) [] [(b, tid)] fun aux =>
        { timeoutTrap cBARTO 4 off aux with aux1 := tbParr v + tbPsec v * 2 ^ 20 }
  | _ => s

/-- RWAIT: the threads of quads that hold the tag and have not arrived are missing. -/
def State.rwaitTimeout (s : State) (b tag : Nat) : State :=
  match s.block? b with
  | none => s
  | some k =>
    match k.rwaits.find? fun e => e.1 == tag with
    | none => s
    | some e =>
      if !s.expired b e.2 || k.tagMet tag then s
      else
        let ts := (k.tagged tag).flatMap k.quadThreads
        let waits := fun t => (k.thread t).status == .waiting .rwait
        let miss := (ts.filter fun t => !(k.thread t).exited && !waits t).map fun t => (⟨0, t, s.pcOf b t⟩ : Missing)
        let s := s.updBlock b fun k => { k with rwaits := k.rwaits.filter fun e => e.1 != tag }
        s.timeOut k.tenant miss ((sortBy (fun a b => decide (a < b)) (ts.filter waits)).map fun t => (b, t)) (timeoutTrap cRWTO 1 0)

/-- The threads of other lanes that wait for a slot at the same instruction since the same time: those of earlier lanes, or of
later ones. -/
def State.slotBeside (s : State) (b tid : Nat) (later : Bool) : List Nat :=
  match s.block? b, (s.thread b tid).slotSince with
  | some k, some c => (List.range k.T).filter fun u => match (k.thread u).status, (k.thread u).slotSince with
    | .waiting (.slot _), some d => d.1 == c.1 && (k.thread u).place == (k.thread tid).place
        && (if later then decide (c.2.1 < d.2.1) else decide (d.2.1 < c.2.1))
    | _, _ => false
  | _, _ => []

/-- A thread that has waited %sto cycles for a Sluice slot traps, and creates nothing; the lanes after it wait until it
resumes (R127, R266). -/
def State.slotTimeout (s : State) (b tid : Nat) : State :=
  match (s.thread b tid).status with
  | .waiting (.slot due) =>
    if !s.expired b due || !(s.slotBeside b tid false).isEmpty then s
    else
      let later := s.slotBeside b tid true
      let s := (s.updThread b tid fun th => { th with slotSince := none }).trapWaiting b tid (Trap.of cSLUICE 1)
      later.foldl (fun s u => s.updThread b u fun th =>
        { th with status := .waiting (s.behindLane b tid), slotSince := none }) s
  | _ => s

/-- The block whose timer a timed wait runs on. -/
def State.timedBlock (s : State) (w : TimedWait) : Nat :=
  match w with
  | .bar b _ | .spec b | .specend b | .tbwait b _ => b
  | .cbar c _ => (s.cluster c).members.headD 0

/-- The timeout of a timed wait, where it has come. -/
def State.waitTimeout (s : State) (w : TimedWait) : State :=
  match w with
  | .bar b i => s.barTimeout b i
  | .cbar c i => s.cbarTimeout c i
  | .spec b => s.specTimeout b false
  | .specend b => s.specTimeout b true
  | .tbwait b t => s.tbTimeout b t

/-- BARRIER_TIMEOUT: at DL1 and above a boundary tests the timers (R227). -/
def execBarrierTimeout (w : TimedWait) (s : State) : Out :=
  .next (if s.dl0 (s.timedBlock w) then s.waitTimeout w else s)

/-- RWAIT_TIMEOUT. -/
def execRwaitTimeout (block tag : Nat) (s : State) : Out :=
  .next (if s.dl0 block then s.rwaitTimeout block tag else s)

/-- SLUICE_TIMEOUT. -/
def execSluiceTimeout (block thread : Nat) (s : State) : Out :=
  .next (if s.dl0 block then s.slotTimeout block thread else s)

/-- Every timer of a block tested, those of its cluster with its first member (R227). -/
def State.testBlock (s : State) (b : Nat) : State :=
  match s.block? b with
  | none => s
  | some k =>
    let s := k.bars.foldl (fun s e => s.barTimeout b e.1) s
    let s := if k.member = 0 then (s.cluster k.cluster).cbars.foldl (fun s e => s.cbarTimeout k.cluster e.1) s else s
    let s := ((s.specTimeout b false).specTimeout b true).specSlotStep b
    let s := k.rwaits.foldl (fun s e => s.rwaitTimeout b e.1) s
    (List.range k.T).foldl (fun s t => (s.tbTimeout b t).slotTimeout b t) s

/-- Every timer of a grid tested: at a boundary, at DL1 and above (R227). -/
def State.testTimers (s : State) (n : Nat) : State := (s.blocksOf n).foldl (fun s b => s.testBlock b) s

/-- The timers of every block at DL0 tested, each cycle after its arrivals have counted (R127, R227). -/
def State.testDl0 (s : State) : State := s.blocks.foldl (fun s e => if s.dl0 e.1 then s.testBlock e.1 else s) s

end Sys2Proof.Machine
end

