-- ==== Sys2Proof/Machine/Turn.lean ====
section
/-! DEFINITION. Turns at DL1 and above: when a turn may end, the buffered effects in their order, the publication of
%dcause, and what a boundary releases (R86-R88, R92, R128). -/

namespace Sys2Proof.Machine

/-! ## Whether a turn may end (R86, R87) -/

/-- A thread that has stopped at quota or waits. What an engine entry or an acknowledgement ends is drained instead. -/
def Thread.stopped (th : Thread) : Bool :=
  match th.status with
  | .quota | .exited | .noSlot => true
  | .waiting .matrix | .waiting (.acc _ _) | .waiting (.acks _ _ _) | .waiting (.acquire _ _)
    | .waiting (.remote _) => false
  | .waiting _ => true
  | .running | .suspended _ => false

/-- Whether a thread of a block has stopped: a running one has where its bundle waits for what the boundary owes it. -/
def State.threadStopped (s : State) (b : Nat) (k : Block) (tid : Nat) : Bool :=
  let th := k.thread tid
  th.stopped || (th.status == .running && (match (k.quad (tid / 4)).place with
    | .bundle id => match s.bundle? k.core id with
      | some u => s.owed k b u
      | none => false
    | _ => false))

/-- Whether every thread of a block has stopped. The threads of a child that lacks slots wait, but for those suspended
on a record (R67, R86, R116). -/
def State.threadsStopped (s : State) (b : Nat) (k : Block) : Bool :=
  match k.state with
  | .running => (List.range k.T).all fun t => s.threadStopped b k t
  | .noSlots _ => k.threads.all fun th => match th.status with | .suspended _ => false | _ => true
  | .saving | .saved | .lost => false

/-- Whether a block has a request at another device, or a multicast, that is not answered. -/
def State.asksOf (s : State) (b : Nat) : Bool :=
  (s.fabric.remotes.any fun r => (s.whose r.what).any fun x => x.1 == b)
  || s.fabric.mcasts.any fun m => m.issuer.any fun x => x.1 == b

/-- Whether a block has a request that the drain of a turn waits for. The writes of a block that is suspended for slots
wait for one at their home (R86, R116). -/
def State.asksTurn (s : State) (b : Nat) (short : Bool) : Bool :=
  if short then s.fabric.remotes.any fun r => (s.whose r.what).any (fun x => x.1 == b) && (match r.what with
    | .store .. | .red .. | .copy _ | .capture .. => false
    | _ => true)
  else s.asksOf b

/-- Whether nothing that a block has issued is under way but what the boundary itself performs. -/
def State.blockDrained (s : State) (b : Nat) (k : Block) : Bool :=
  let short := match k.state with | .noSlots _ => true | _ => false
  s.pending.all (fun p => p.block != b || p.error.isSome || (!p.ready && !p.remote))
  && (short || !s.engines.any fun e => e.block == b)
  && !(s.wheels.any fun w => w.2.any fun e => e.block == b)
  && !s.asksTurn b short
  && !(s.blockRuns k && (s.core k.core).bolts.any (fun r => r.block == b) && !(s.freeQuads b k).isEmpty)
  && !(k.parent.isSome && s.childDone b)
  && (match k.fork with
    | none => true
    | some f => !f.dropping && (!s.joinReady b || (s.joinEnds b).isSome))

/-- Whether every thread of a grid has stopped and nothing of it can be placed, so that its turn drains (R86, R87). -/
def State.turnStopped (s : State) (n : Nat) (g : Grid) : Bool :=
  g.dl != 0 && !g.ended && g.closing.isNone
  && !(s.issue.any fun i => (s.block? i.block).any fun k => k.grid == n)
  && s.blocks.all (fun e => e.2.grid != n || s.threadsStopped e.1 e.2)
  && !s.placing n g

/-- Whether the turn of a grid may end (R86, R87): it has stopped, and what its threads have issued has drained. -/
def State.turnReady (s : State) (n : Nat) (g : Grid) : Bool :=
  s.turnStopped n g && s.blocks.all fun e => e.2.grid != n || s.blockDrained e.1 e.2

/-! ## Joins (R107, R263) -/

/-- Whether a block's join may go on: at DL0 at any time, above in the drain of a turn (R263). -/
def State.mayJoin (s : State) (b : Nat) : Bool :=
  s.dl0 b || (match s.block? b with
    | none => false
    | some k => (s.grid? k.grid).any fun g => s.turnStopped k.grid g)

/-- JOIN_CHECK: the check phase, of a block's own fork or of another device's on the slots that it holds here. -/
def execJoinCheck (j : JoinAt) (s : State) : Out :=
  .next (match j with
    | .far run => s.checkFar run
    | .abort run => s.unhold run
    | .own b reports =>
      if !s.joinReady b || !s.mayJoin b then s
      else match s.block? b with
        | none => s
        | some k => match k.fork with
          | none => s
          | some f => s.checkOwn b k f reports)

/-- JOIN_APPLY: the apply phase of a checked join, or of another device's on the slots that it holds here, which it may abort. -/
def execJoinApply (j : JoinAt) (s : State) : Out :=
  .next (match j with
    | .far run => s.applyFar run
    | .abort run => s.unhold run
    | .own b reports =>
      match s.block? b with
      | none => s
      | some k => match k.fork with
        | none => s
        | some f =>
          let far := s.farOf f.vtag0 f.n
          if !f.checked || !s.joinReady b || !s.mayJoin b || !covers reports far then s
          else if far.isEmpty && (mergeTrap ((s.grid? k.grid).elim 0 (·.dl)) f.vtag0
              { s.forkReport k f [] with lost := none }).isSome then
            s.updBlock b fun k => { k with fork := some { f with checked := false } }
          else s.applyOwn b k f reports)

/-! ## Buffered effects (R87) -/

/-- The order of R87: core, block path, thread, program order. -/
def Effect.before (a b : Effect) : Bool :=
  if a.core != b.core then decide (a.core < b.core)
  else if a.path != b.path then pathLt a.path b.path
  else if a.tid != b.tid then decide (a.tid < b.tid) else decide (a.seq < b.seq)

/-- The order of R128 for invocations, which no placement reaches. -/
def Effect.callBefore (a b : Effect) : Bool :=
  if a.path != b.path then pathLt a.path b.path
  else if a.tid != b.tid then decide (a.tid < b.tid) else decide (a.seq < b.seq)

/-- Whether an effect is an invocation. -/
def Effect.isCall (e : Effect) : Bool := match e.kind with | .invoke .. | .invokeOn .. => true | _ => false

/-- A waiting thread is answered at the boundary. -/
def State.answerWait (s : State) (b tid : Nat) : State :=
  if (s.thread b tid).status == .waiting .boundary then s.leaveWait b tid else s

/-- An event at the place of an effect in the order of R87, published with the turn's. -/
def State.eventAt (s : State) (n : Nat) (e : Effect) (code : Byte) : State :=
  s.updGrid n fun g => { g with effects := g.effects ++ [{ e with kind := .event code }] }

/-- A returning atomic performed at the boundary: its result, or zeros for .NF, is ready to be written; one on another
device is sent there now, and the drain waits for its answer (R86, R87, R326). -/
def State.performAtomic (s : State) (e : Effect) (t v va : Nat) (h : HomeAt) (op : AOp) (fmt : Fmt) (uns nf : Bool)
    (b c : Dword) (pend scope : Nat) : State :=
  match h with
  | .remote d a =>
    let (s, sent) := s.sendAtomic e.core t v va d a scope (atomOpw op fmt nf uns false) b.toNat c.toNat (.atomic pend (casOf op nf c.toNat))
    if sent then s.updPending pend fun p => { p with remote := true } else s.replyLost pend ⟨cINTEG, 3, 2, va⟩
  | h =>
    match s.lostHome h (atomBytes fmt) with
    | some cause => s.replyLost pend ⟨cINTEG, cause, 2, va⟩
    | none =>
      let (s, old, fl) := s.atomicAt ⟨e.block, e.tid, e.pc⟩ e.core t v va h op fmt uns b.toNat c.toNat
      let s := if op == .cas && v == 0 && old == c.toNat % 2 ^ (8 * atomBytes fmt) then s.noteStored e.block e.tid e.pc va else s
      s.updPending pend fun p => { p with
        ready := true, fpflags := fl
        regs := regWrites p.how.1 (natToWords p.how.2.1 (if nf then 0 else old)) }

/-- A RED of a view performed: on another device at its home there (R87, R104). -/
def State.performRed (s : State) (e : Effect) (t v va : Nat) (h : HomeAt) (op : AOp) (fmt : Fmt) (uns : Bool) (b : Dword)
    (scope : Nat) : State :=
  match h with
  | .remote d a =>
    (s.sendAtomic e.core t v va d a scope (atomOpw op fmt true uns false) b.toNat 0 (.red [(e.block, e.tid)] e.pc)).1
  | h =>
    match s.lostHome h (atomBytes fmt) with
    | some cause => s.lostStore e.block e.tid e.pc cause va
    | none =>
      let (s, _, fl) := s.atomicAt ⟨e.block, e.tid, e.pc⟩ e.core t v va h op fmt uns b.toNat 0
      s.raiseIn e.block e.tid fl

/-- A DISCARD performed: DISCOV where another core loaded from the sector in the turn, or a load of it is outstanding; the
home content stands (R92, R187). -/
def State.performDiscard (s : State) (n : Nat) (g : Grid) (e : Effect) (va : Nat) (h : HomeAt) : State :=
  let reader := g.accesses.any fun a => a.sector == va / 64 && a.turn == g.turn && a.core != e.core && !a.store
  let s := if reader || s.missOn g.tenant va then s.eventAt n e 0x02 else s
  let s := s.dropProxy g.tenant va 64
  match h with
  | .remote _ _ => s
  | h => s.discardOne e.block e.tid e.pc e.core va h false

/-- A multicast of a turn sent: MCORDER where it meets a store that a core holds dirty (R92, R334). -/
def State.performMcast (s : State) (n : Nat) (g : Grid) (e : Effect) (tree va : Nat) (bs : List Byte) : State :=
  let s := if s.dirtyMeets g.tenant va bs.length then s.eventAt n e 0x0A else s
  s.multicast e.block e.tid e.pc e.core g.tenant tree va bs

/-- What one buffered effect does, in a grid. Invocations, events and releases have their own places in the procedure. -/
def State.performKind (s : State) (n : Nat) (g : Grid) (e : Effect) : EffKind → State
  | .store v va home bs =>
    let s := if v = 0 then (s.syncSector e.core g.tenant va).noteWritten e.core g.tenant va else s
    s.putStore e.block e.tid e.pc v va home bs
  | .discard _ va home => s.performDiscard n g e va home
  | .atomic v va home op fmt uns nf b c pend scope => s.performAtomic e g.tenant v va home op fmt uns nf b c pend scope
  | .red v va home op fmt uns b scope => s.performRed e g.tenant v va home op fmt uns b scope
  | .tbArrive o off d =>
    let r := tbArriveWord (s.tbGet o off)
    let s := s.tbOp o off (s.knownOf e.block) tbArrived
    (s.updThread e.block e.tid fun th => th.setReg d r).answerWait e.block e.tid
  | .tbExpect o off k => (s.tbOp o off [] (tbSectors k.toNat false)).answerWait e.block e.tid
  | .scratch o off bs | .tbInit o off bs => s.writeScratch o off bs
  | .tlAdd k m => s.tlAdvance e.block k m
  | .fold r => s.foldRed e.core r
  | .mcast tree va bs _ => s.performMcast n g e tree va bs
  | .ocm addr ws => match s.ocmFind g.tenant addr (4 * ws.length) with
    | some x => s.ocmWrite x ws
    | none => s
  | .tbSectors o off m err => s.tbOp o off (s.knownOf e.block) (tbSectors m err)
  | .flags fl => s.raiseLive [(e.block, e.tid)] fl
  | .late k => s.performKind n g e k
  | .flush => s.flushReds e.core fun r => r.grid == n
  | .invoke .. | .invokeOn .. | .event _ | .release _ => s

/-- One buffered effect applied. -/
def State.performEffect (s : State) (n : Nat) (e : Effect) : State :=
  match s.grid? n with
  | none => s
  | some g => s.performKind n g e e.kind

/-! ## Races (R92) -/

/-- An access as an effect of its turn: what places it in the order of R87. -/
def SectorAcc.event (a : SectorAcc) : Effect := ⟨a.core, a.path, a.block, a.tid, a.seq, a.pc, .event 0x01⟩

/-- The first access, in the order of R87, that follows one of another core with which it races. -/
def firstRace : List SectorAcc → List SectorAcc → Option SectorAcc
  | _, [] => none
  | seen, a :: rest =>
    if seen.any fun b => b.core != a.core && (a.store || b.store) then some a else firstRace (seen ++ [a]) rest

/-- RACE for each global sector that one core stored to and another accessed in the turn. -/
def Grid.races (g : Grid) : List Effect :=
  let as_ := g.accesses.filter fun a => a.turn == g.turn && decide (a.sector < 2 ^ 58)
  (dedup (as_.map (·.sector))).filterMap fun sec =>
    (firstRace [] (sortBy (fun a b => a.event.before b.event) (as_.filter fun a => a.sector == sec))).map SectorAcc.event

/-- The bytes of the root view that an effect stores, and whether it multicasts them. -/
def EffKind.written : EffKind → Option (Nat × Nat × Bool)
  | .store 0 va _ bs => some (va, bs.length, false)
  | .mcast _ va bs _ => some (va, bs.length, true)
  | .late k => k.written
  | _ => none

/-- MCORDER for each effect, in the order of R87, that meets an earlier one of the turn at one address where one of the two
is a multicast and the other is not (R92, R334). -/
def mcastMeetings : List Effect → List Effect → List Effect
  | _, [] => []
  | seen, e :: rest =>
    let meets := match e.kind.written with
      | none => false
      | some (a, n, m) => seen.any fun x => match x.kind.written with
        | none => false
        | some (b, k, m') => m != m' && decide (a < b + k ∧ b < a + n)
    (if meets then [{ e with kind := .event 0x0A }] else []) ++ mcastMeetings (seen ++ [e]) rest

/-! ## The parts of a boundary -/

/-- Joins that a fault ends: their traps are taken at the boundary (R110, R263). -/
def State.faultJoins (s : State) (n : Nat) : State :=
  (s.blocksOf n).foldl (fun s b => s.endJoin b) s

/-- The cores on which a grid has blocks or effects, in ascending order. -/
def State.gridCores (s : State) (n : Nat) (es : List Effect) : List Nat :=
  sortBy (fun a b => decide (a < b))
    (dedup (es.map (·.core) ++ (s.blocks.filter fun e => e.2.grid == n).map fun e => e.2.core))

/-- The transaction barrier on which an effect is an arrival or a count. -/
def EffKind.barrier : EffKind → Option (Nat × Nat)
  | .tbArrive o off _ | .tbExpect o off _ | .tbSectors o off _ _ => some (o, off)
  | .late k => k.barrier
  | _ => none

/-- The transaction barrier that an effect initializes. -/
def EffKind.inits : EffKind → Option (Nat × Nat)
  | .tbInit o off _ => some (o, off)
  | _ => none

/-- An effect put behind the first that initializes a barrier. -/
def putAfter (x : Nat × Nat) (e : Effect) : List Effect → List Effect
  | [] => [e]
  | f :: fs => if f.kind.inits == some x then f :: e :: fs else f :: putAfter x e fs

/-- What reaches a barrier while a TBINIT of it is outstanding acts on the new content (R345). -/
def initsFirst : List Effect → List Effect
  | [] => []
  | e :: es => match e.kind.barrier with
    | some x => if es.any (fun f => f.kind.inits == some x) then putAfter x e (initsFirst es) else e :: initsFirst es
    | none => e :: initsFirst es

/-- The effects of a turn in the order in which they are applied: core by core, each core's part of the RED buffers of the grid
after its effects (R87, R184). -/
def State.inOrder (s : State) (n : Nat) (es : List Effect) : List Effect :=
  initsFirst ((s.gridCores n es).flatMap fun c => (es.filter fun e => e.core == c) ++ [⟨c, [], 0, 0, 0, 0, .flush⟩])

/-- The scope of a release among the effects of a turn, by a thread or an engine. -/
def EffKind.releases : EffKind → Option Nat
  | .release scope => some scope
  | .late k => k.releases
  | _ => none

/-- A release of the turn begins, or goes on where it has waited: what it waits for, none once it is complete (R173, R331). -/
def State.turnRelease (s : State) (e : Effect) (scope : Nat) (at_ : Option (List Word × Bool)) :
    State × Option (List Word × Bool) :=
  match s.block? e.block with
  | none => (s, none)
  | some k =>
    let s := if at_.isSome then s else (s.flushCore e.core).flushReds e.core fun r => s.atDl0 r.grid
    let a := at_.getD (s.ackTags k.tenant, false)
    match s.stepRelease k scope a.1 a.2 with
    | (s, some (.acks _ tags sent)) => (s, some (tags, sent))
    | (s, _) => (s, none)

/-- The effects of a turn applied up to a release that has to wait: what is left, and what that release waits for. -/
def State.performUntil (s : State) (n : Nat) (at_ : Option (List Word × Bool)) :
    List Effect → State × List Effect × Option (List Word × Bool)
  | [] => (s, [], none)
  | e :: es => match e.kind.releases with
    | none => (s.performEffect n e).performUntil n none es
    | some scope => match s.turnRelease e scope at_ with
      | (s, some w) => (s, e :: es, some w)
      | (s, none) => s.performUntil n none es

/-- What a slot granted at a boundary shows of where it came from: an invocation that has waited for it takes one that
the grid's own HDROPs freed, or was released from outside the grid: EXTWAIT (R92; log 34). -/
def State.noteGrant (s : State) (n : Nat) (waited : Bool) (e : Effect) : State :=
  match s.grid? n with
  | none => s
  | some g => if g.ownFreed = 0 ∧ waited then s.eventAt n e 0x09 else s.setGrid n { g with ownFreed := g.ownFreed - 1 }

/-- An invocation gets its slot at the boundary, or waits for one at a later boundary (R128). One that the outbox of its
view has no room for any more traps there (R129, R136). -/
def State.callNow (s : State) (n : Nat) (e : Effect) (d : Reg) (c : Call) (kernel : Dword) (args : List Word) (rngD : Dword) :
    State :=
  let th := s.thread e.block e.tid
  match th.status with
  | .waiting w =>
    match w with
    | .boundary | .slot _ =>
      if (s.block? e.block).any Block.outboxFull then s.trapWaiting e.block e.tid (Trap.of cSPECDEPTH 5)
      else match s.freeSlot (s.tenantOf e.block) with
      | some slot =>
        ((s.noteGrant n (w != .boundary) e).makeCall e.block e.tid slot d c kernel args rngD).leaveWait e.block e.tid
      | none =>
        let s := s.updGrid n fun g => { g with effects := g.effects ++ [e] }
        if w == .boundary then
          let due := s.deadline e.block (s.stoOf e.block)
          s.updThread e.block e.tid fun th => { th with status := .waiting (.slot due) }
        else s
    | _ => s
  | _ => s

def State.performCall (s : State) (n : Nat) (e : Effect) : State :=
  match e.kind with
  | .invoke d target kernel args rngD => s.callNow n e d (.target target) kernel args rngD
  | .invokeOn d h kernel args rngD => s.callNow n e d (.on h) kernel args rngD
  | _ => s

/-- Whether an effect is an event for %dcause. -/
def Effect.isEvent (e : Effect) : Bool := match e.kind with | .event _ => true | _ => false

/-- Events recorded in the order of R87. -/
def recordEvents (d : DCause) (es : List Effect) : DCause :=
  (sortBy Effect.before es).foldl (fun d e => match e.kind with | .event code => d.record code e.pc | _ => d) d

/-- The turn's entries of %dcause published in the order of R87, those of the boundary's own effects among them, then those
of no thread (R92). -/
def State.publish (s : State) (n : Nat) (es : List Effect) : State :=
  s.updGrid n fun g =>
    let d := recordEvents g.published (es ++ g.effects.filter Effect.isEvent)
    { g with published := g.pendingEvents.foldl (fun d e => d.record e.1 e.2) d, pendingEvents := []
             effects := g.effects.filter fun e => !e.isEvent }

/-- The done conditions of speculative views observed, and commits and squashes made where they are due (R133, R135). -/
def State.boundarySpec (s : State) (b : Nat) : State :=
  let s := if s.specPending b then s.specCheck b else s
  (s.restoreStep b).commitStep b

/-- The threads of a grid that only something outside the grid can release: those that await a handle, since a task is
a grid of its own; those at a TLWAIT on the queue's timeline, tl3; those at a SPEC whose block has waited for a Fantail
slot, which a grid's end alone frees; and those whose write a slot freed outside the grid lets go on (R88, R117, R128, R131); each as
an EXTWAIT at the instruction where it waits. -/
def State.awaiting (s : State) (n : Nat) : List Effect :=
  s.blocks.flatMap fun e => if e.2.grid == n then
      e.2.threads.zipIdx.filterMap fun x =>
        let at_ := x.1.pc + BitVec.ofNat 64 (4 * x.1.clpos)
        let ext := some (⟨e.2.core, e.2.path, e.1, x.2, 0, at_, .event 0x09⟩ : Effect)
        match x.1.status with
        | .waiting (.awaitH ..) | .waiting (.tlwait 3 _) => ext
        | .waiting (.spec _) => if e.2.specSlot.isSome then ext else none
        | .noSlot => if e.2.granted == some true then ext else none
        | _ => none
    else []

/-- A thread passes its JOIN or VDROP once the fork has closed; a part of a join that is lost traps (R114, R263). -/
def State.passFork (s : State) (b tid : Nat) : State :=
  match s.block? b with
  | none => s
  | some k => match (k.thread tid).status with
    | .waiting .join | .waiting .vdrop => if k.fork.isNone then s.leaveWait b tid else s
    | .waiting (.joinLost cause) => s.joinLost b tid cause
    | _ => s

/-- Children of a grid for which slots are there go on (R87, R117). -/
def State.resumeGranted (s : State) (n : Nat) : State :=
  (s.blocksOf n).foldl (fun s b => if (s.block? b).any fun k => k.granted.isSome then s.resumeBlock b else s) s

/-- Every waiting thread whose condition holds becomes running. One of those that waited for something outside the grid
records EXTWAIT (R88, R92). -/
def State.releaseWaits (s : State) (n : Nat) (before : List Effect) : State :=
  let s' := (s.blocksOf n).foldl (fun s b =>
    let s := s.settleBlock b true
    match s.block? b with
    | none => s
    | some k => (List.range k.T).foldl (fun s t => s.passFork b t) s) s
  let after := s'.awaiting n
  let out := before.filter fun e => !after.contains e
  s'.updGrid n fun g => { g with published := recordEvents g.published out }

/-- Every thread's count for the turn is zero again, and those at quota run. -/
def State.openTurn (s : State) (n : Nat) : State :=
  (s.blocksOf n).foldl (fun s b =>
    let stopped := match s.block? b with
      | some k => (List.range k.T).filter fun t => (k.thread t).status == TStatus.quota
      | none => []
    let s := s.updBlock b fun k => { k with threads := k.threads.map fun th =>
      { th with turnRetired := 0, status := if th.status == TStatus.quota then .running else th.status } }
    stopped.foldl (fun s t => s.wakeQuad b t) s) s

/-- What the other cores read of a grid's blocks within the next turn: their registers, scratchpads and tiles as they stand
(R87, R324). -/
def State.keepWas (s : State) (n : Nat) : State :=
  let mine := s.blocks.filter fun e => e.2.grid == n
  let s := { s with blocks := s.blocks.map fun (e : Nat × Block) =>
    if e.2.grid == n then (e.1, { e.2 with wasScratch := e.2.scratch, wasRegs := e.2.threads.map (·.regs) }) else e }
  (mine.flatMap fun e => e.2.tiles.map fun m => 4 * e.2.core + m).foldl (fun s i => s.updTile i fun x => { x with was := x.elems }) s

/-- Whether every thread of a grid waits and nothing is in flight (R88). -/
def State.gridStalled (s : State) (n : Nat) (g : Grid) : Bool :=
  g.effects.all Effect.isCall && g.pendingEvents.isEmpty
  && s.blocks.all (fun e => e.2.grid != n || (s.threadsStopped e.1 e.2 && e.2.threads.all Thread.still
      && s.blockDrained e.1 e.2 && s.pending.all fun p => p.block != e.1))

/-- The close of a turn: pre-emption takes the whole grid here (R93), and the next turn begins. -/
def State.closeTurn (s : State) (n : Nat) : State :=
  let s := match s.grid? n with
    | none => s
    | some g => if g.preempt then { s with blocks := s.blocks.map fun (e : Nat × Block) =>
        if e.2.grid == n && e.2.state != BState.saved && e.2.state != BState.lost then (e.1, { e.2 with state := .saving }) else e } else s
  let s := s.updGrid n fun g => { g with
    turn := g.turn + 1
    closing := none
    accesses := if 2 ≤ g.dl.toNat then g.accesses else []
    -- what a timeout has ended asks for no slot any more
    effects := g.effects.filter fun e => !e.isCall || (match (s.thread e.block e.tid).status with
      | .waiting (.slot _) => true
      | _ => false) }
  match s.grid? n with
  | none => s
  | some g => if s.gridStalled n g then s.updGrid n fun g => { g with stalledFrom := some s.cycle } else s

/-! ## The boundary (R87) -/

/-- A turn begins to end: its effects are taken out, in their order, and a join that a fault has ended in the drain takes its
trap (R87, R110). -/
def State.beginClose (s : State) (n : Nat) : State :=
  (s.updGrid n fun g =>
    let all := sortBy Effect.before g.effects
    { g with
      stall := match g.stalledFrom with | some c => g.stall + (s.cycle - c) | none => g.stall
      stalledFrom := none, effects := []
      closing := some ⟨s.inOrder n (all.filter fun e => !e.isCall && !e.isEvent), all, [], false, false⟩ }).faultJoins n

/-- The effects of a turn applied as far as no release among them waits, and then all that they have sent to other devices
acknowledged: where the boundary stands, none once it is all applied (R39, R87, R173). -/
def State.applyTurn (s : State) (n : Nat) (g : Grid) (c : Closing) : State × Option Closing :=
  let at_ := if c.todo.isEmpty || (c.tags.isEmpty && !c.sent) then none else some (c.tags, c.sent)
  match s.performUntil n at_ c.todo with
  | (s, todo, some w) => (s, some { c with todo := todo, tags := w.1, sent := w.2 })
  | (s, _, none) =>
    let tags := if c.todo.isEmpty then c.tags else s.ackTags g.tenant
    if s.tagsOpen tags then (s, some { c with todo := [], tags := tags, sent := true }) else (s, none)

/-- What follows the last effect: the cores' lines are signed to those of the device, the invocations get their slots, what
other devices have sent meanwhile is applied, and the entries of %dcause are published (R87, R88, R92, R128). -/
def State.endEffects (s : State) (n : Nat) (g : Grid) (c : Closing) : State :=
  let s := (s.gridCores n c.all).foldl (fun s x => s.signNear x 0 3) s
  let s := (sortBy Effect.callBefore (c.all.filter Effect.isCall)).foldl (fun s e => s.performCall n e) s
  let races := ((s.grid? n).getD g).races
  let s := (s.applyArrived g.tenant).publish n (c.all ++ races ++ mcastMeetings [] c.all)
  let s := (s.blocksOf n).foldl (fun s b => s.updBlock b Block.settleTimelines) s
  s.updGrid n fun g => { g with closing := some { c with todo := [], tags := [], sent := false, applied := true } }

/-- What the grid's speculation is about to read of other devices asked of them. -/
def State.askTiles (s : State) (n : Nat) : State :=
  (s.blocksOf n).foldl (fun s b =>
    let s := if s.specPending b then s.askCheck b else s
    match (s.block? b).bind Block.specArrived with
    | some o => s.askSpec b o
    | none => s) s

/-- The next turn begins, once the tiles of other devices that this boundary reads have come: the done conditions are observed,
waits whose conditions hold end, and every thread has its quota anew (R87, R88, R133, R227). -/
def State.nextTurn (s : State) (n : Nat) : State :=
  let s := s.askTiles n
  if (s.blocksOf n).any s.tileWaits then s
  else
    let before := s.awaiting n
    let s := (s.blocksOf n).foldl (fun s b => s.boundarySpec b) s
    let s := ((s.resumeGranted n).releaseWaits n before).testTimers n
    ((s.openTurn n).closeTurn n).keepWas n

/-- A boundary goes on from where it stands; while it waits for other devices, what they send is applied (R87, R88). -/
def State.closeOn (s : State) (n : Nat) (g : Grid) (c : Closing) : State :=
  if c.applied then s.nextTurn n
  else match s.applyTurn n g c with
    | (s, some c) => (s.updGrid n fun g => { g with closing := some c }).applyArrived g.tenant
    | (s, none) => (s.endEffects n g c).nextTurn n

/-- Whether a boundary of a grid that stands stalled has done anything. -/
def State.turnActs (s s' : State) (n : Nat) (g : Grid) : Bool :=
  g.stalledFrom.isNone || s'.blocks != s.blocks || !g.pendingEvents.isEmpty
  || !(g.effects.all Effect.isCall) || s.fabric.arrived.any (fun m => m.tenant.toNat == g.tenant)
  || (s'.grid? n).any fun g => g.closing.isSome

/-- TURN_BOUNDARY. A stalled grid stays in its turn until something would change in it (R88). -/
def execTurnBoundary (n : Nat) (s : State) : Out :=
  .next (match s.grid? n with
    | none => s
    | some g => match g.closing with
      | some c => if g.ended then s else s.closeOn n g c
      | none =>
        if !s.turnReady n g then s
        else
          let s₁ := s.beginClose n
          let s' := match s₁.grid? n with
            | some g => (match g.closing with | some c => s₁.closeOn n g c | none => s₁)
            | none => s₁
          if s.turnActs s' n g then s' else s)

end Sys2Proof.Machine
end

