-- ==== Sys2Proof/Machine/Complete.lean ====
section
/-! DEFINITION. Completion of children, blocks and tasks, and the eviction of a line (R100, R123, R152, R158, R172, R184,
R257). -/

namespace Sys2Proof.Machine

/-! ## What a block gives back -/

/-- The tiles of a core are released, and zeroed, when their tenant has no block left there (R158). -/
def State.freeTiles (s : State) (c t : Nat) : State :=
  if s.blocks.any fun e => e.2.core == c && e.2.tenant == t && e.2.state != .saved then s
  else (List.range 4).foldl (fun s m => s.updTile (4 * c + m) fun x => if x.owner == some t then Tile.free else x) s

/-- Blocks that are complete go, with what they held of their cores (R151). -/
def State.retireBlocks (s : State) (bs : List Nat) : State :=
  let at_ := bs.filterMap fun b => (s.block? b).map fun k => (k.core, k.tenant)
  let s := s.removeBlocks fun i _ => bs.contains i
  at_.foldl (fun s e => s.freeTiles e.1 e.2) s

/-- A grid's part of a core's RED buffer is folded when the last block of the grid there completes: at once at DL0, at
the grid's own boundaries above (R184). -/
def State.flushGrid (s : State) (n c : Nat) : State := if s.atDl0 n then s.flushReds c fun r => r.grid == n else s

/-! ## Children (R98, R100, R106) -/

/-- CHILD_COMPLETE: what is held of the child's own writes is performed in its working copies, and the fork counts it. -/
def execChildComplete (b : Nat) (s : State) : Out :=
  .next (match s.block? b with
    | none => s
    | some k => match k.parent, s.grid? k.grid with
      | some p, some g =>
        if g.ended || g.closing.isSome || k.state == .saved || k.state == .lost || !s.childDone b then s
        else
          let s := s.settleView b fun s e => s.performEffect k.grid e
          let s := s.updBlock p fun q => { q with fork := q.fork.map fun f => { f with done := f.done + 1 } }
          s.retireBlocks [b]
      | _, _ => s)

/-! ## Blocks (R152, R257) -/

/-- Whether the boundary after a block's last instructions has passed, so that its effects and races are not lost. -/
def Grid.quiet (g : Grid) (b : Nat) : Bool :=
  g.dl == 0 || (g.closing.isNone && g.effects.all (fun e => e.block != b) && g.accesses.all fun a => a.block != b || a.turn != g.turn)

/-- Whether a block of a launch or a task is complete: its threads have exited, its engine operations have retired, and
the record store holds none of its records (R257). -/
def State.blockDone (s : State) (b : Nat) : Bool :=
  match s.block? b with
  | none => true
  | some k => k.parent.isNone && k.state != .saved && k.state != .lost && s.threadsDone b && !s.busy b
      && (match s.grid? k.grid with | some g => g.quiet b | none => true)

/-- Whether every block of a grid on a core is complete. -/
def State.coreDone (s : State) (n c : Nat) : Bool := s.blocks.all fun e => e.2.grid != n || e.2.core != c || s.blockDone e.1

/-- The members of a block's cluster that exist. -/
def State.membersOf (s : State) (k : Block) (b : Nat) : List Nat :=
  let ms := (s.cluster k.cluster).members
  if ms.contains b then ms else [b]

/-- A block that ran to its end. It stays until its whole cluster has completed (R152). -/
def State.completeBlock (s : State) (b : Nat) (k : Block) : State :=
  if !s.blockDone b then s
  else
    let s := if s.coreDone k.grid k.core then s.flushGrid k.grid k.core else s
    let ms := s.membersOf k b
    if ms.all fun m => s.blockDone m then
      ((s.updGrid k.grid fun g => { g with finished := g.finished + ms.length }).retireBlocks ms).settleQsaved k.tenant
    else s

/-- A block of a launch or a task that was ended: it goes once its engine operations have retired and its children have
gone, and the views that it opened are freed (R75, R115, R124). A block on a lost die, or a saved one, runs nothing. -/
def State.discardBlock (s : State) (b : Nat) (k : Block) : State :=
  if (s.busy b && k.state != .lost) || !(s.childrenOf b).isEmpty then s
  else
    let opened := fun (v : Nat) => match Sparse.find s.views v with | some w => w.opener == b | none => false
    let s := { s with
      engines := s.engines.filter fun e => e.block != b
      pending := s.pending.filter fun p => p.block != b }
    let s := if k.state == .lost then s else s.flushCore k.core
    let s := s.freeRun k.tenant opened
    let s := if k.parent.isSome then s else s.updGrid k.grid fun g => { g with finished := g.finished + 1 }
    (((s.retireBlocks [b]).flushGrid k.grid k.core).resumeChildren k.tenant none).settleQsaved k.tenant

/-- BLOCK_COMPLETE. -/
def execBlockComplete (b : Nat) (s : State) : Out :=
  .next (match s.block? b with
    | none => s
    | some k => match s.grid? k.grid with
      | none => s.retireBlocks [b]
      | some g => if g.ended then s.discardBlock b k else s.completeBlock b k)

/-! ## Tasks (R123, R124) -/

/-- Whether a task's grid has nothing left to do. -/
def State.taskDone (s : State) (n : Nat) (g : Grid) : Bool :=
  g.task.isSome && s.blocks.all (fun e => e.2.grid != n)
  && (g.ended || (decide (g.total ≤ g.finished) && g.heldRed.isEmpty && g.effects.isEmpty && g.closing.isNone))

/-- Whether a core still holds a write of a tenant to a host line. -/
def State.holdsHost (s : State) (t : Nat) : Bool :=
  let host := fun (h : HomeAt) => match h with | .host .. => true | _ => false
  s.activeCores.any fun c => (s.core c).cache.any (fun x => x.tenant == t && x.dirty != 0 && host x.home)
    || (s.core c).reds.any fun r => r.tenant == t && host r.home

/-- The scope of an AWAIT's acquire, and so of a task's release: that of its widest write. It is system scope where writes
of the tenant to host lines are not yet acknowledged, and otherwise the tenant's domain where it has one (R125, R179). -/
def State.taskScope (s : State) (t : Nat) : Nat :=
  if s.hostOpen t || s.holdsHost t then 5 else if (s.domainPeers t).isEmpty then 3 else 4

/-- TASK_COMPLETE: the task's release, and once it is complete its result goes to the handle's home; a task that failed has
broken its handle already (R123, R124, R179). -/
def execTaskComplete (n : Nat) (s : State) : Out :=
  .next (match s.grid? n with
    | none => s
    | some g =>
      if !s.taskDone n g then s
      else
        let (s, complete) := if g.ended then (s, true) else s.endRelease n (s.taskScope g.tenant) g
        if !complete then s
        else
        let s := { s with fantail := s.fantail.filter fun f => !(f.key.tenant == g.tenant && f.key.grid == g.gid) }
        (((s.endTask n).resumeChildren g.tenant none).freeArrived g.tenant).settleQsaved g.tenant)

/-! ## Eviction (R172) -/

/-- LINE_EVICTION: a line of a core cache goes; dirty bytes are written to their home first. -/
def execLineEviction (core index : Nat) (s : State) : Out :=
  .next (match (s.core core).cache[index]? with
    | none => s
    | some x => (s.writeBack x).updCore core fun c => { c with cache := c.cache.eraseIdx index })

end Sys2Proof.Machine
end

