-- ==== Sys2Proof/Machine/Sched.lean ====
section
/-! DEFINITION. The dispatcher: the start of blocks, suspension and pre-emption, saving and restoring (R76-R79, R93, R94,
R98, R123, R139, R229-R232). -/

namespace Sys2Proof.Machine

/-! ## The start of a block (R137-R139) -/

/-- What sets one block of a kernel apart from another: its path and numbers, its view, and how its threads start. -/
structure Start where
  path : List Nat
  bid : Word
  member : Nat
  child : Word
  vtag : Nat
  parent : Option Nat
  entry : Dword
  rngId : Dword
  regs : List Word
  deriving DecidableEq, Repr

/-- A thread at the start of its block (R139). -/
def Thread.atStart (pc : Dword) (regs : List Word) : Thread := ({ Thread.start with pc := pc }).setGroup 0 regs

/-- The view index of a task: that of the fork's view it runs in, or none. -/
def State.viewIndex (s : State) (v : Nat) : Word :=
  match Sparse.find s.views v with
  | some w => if w.spec then 0xFFFFFFFF else BitVec.ofNat 32 w.index
  | none => 0xFFFFFFFF

/-- The start of a block of a launch, or of a task (R123, R138, R139). -/
def State.rootStart (s : State) (g : Grid) (m id : Nat) : Start :=
  let entry := g.kernel.addr + g.kernel.entry.setWidth 64
  match g.task with
  | some t => ⟨[0], 0, m, s.viewIndex t.vtag, t.vtag, none, entry, t.rngD, (t.args ++ List.replicate 8 0).take 8 ++ t.extra⟩
  | none =>
    let (a, n) := match g.launch with | some r => (r.paddr, r.psize) | none => (0, 0)
    ⟨[id], BitVec.ofNat 32 id, m, 0xFFFFFFFF, 0, none, entry, BitVec.ofNat 64 g.seq, natToWords 2 a.toNat ++ [n]⟩

/-- The start of the next child of a fork (R98). -/
def childStart (p : Nat) (k : Block) (f : Fork) : Start :=
  ⟨k.path ++ [f.next], BitVec.ofNat 32 f.next, 0, BitVec.ofNat 32 f.next, f.vtag0 + f.next, some p, f.entry, f.key.setWidth 64, f.args⟩

/-- A block placed on a core, in a cluster: its threads stand at their entry, and its quads are filed. SEED is that of the queue of
its number on this device, of a task that came from another device too (R216; DESIGN CHOICE, log 20). -/
def State.placeBlock (s : State) (n : Nat) (g : Grid) (cl c : Nat) (x : Start) : State :=
  match s.spot c (g.kernel.need x.parent.isSome) with
  | none => s
  | some (r, m) =>
    let (id, s) := s.fresh
    let k : Block := {
      grid := n, tenant := g.tenant, core := c, path := x.path, bid := x.bid, cluster := cl, member := x.member
      child := x.child, vtag := x.vtag, depth := s.viewDepth x.vtag, parent := x.parent, entry := x.entry, rngId := x.rngId
      seed := (s.queue g.tenant g.queue).seed
      threads := List.replicate g.kernel.threads (Thread.atStart x.entry x.regs)
      quads := [], scratch := [], regBase := r, scratchBase := m, bars := [], specBar := Barrier.empty, specendBar := Barrier.empty, rwaits := []
      tl := [], tlPost := [], tlDone := [], bto := 0x04000000, sto := 0x04000000, xval := [], fork := none, specs := []
      specWait := none, specSlot := none, tile := [], tiles := [], started := s.cycle, gatedCycles := 0, order := id
      state := .running, lackSince := none, granted := none, lackUse := none, image := none, clock := 0, knows := [], tbKnows := []
      wasScratch := [], wasRegs := List.replicate g.kernel.threads (Thread.atStart x.entry x.regs).regs }
    let s := (s.setBlock id k).updCluster cl fun c => { c with members := c.members ++ [id] }
    s.fileQuads id (List.range (divUp g.kernel.threads 4))

/-- What the dispatcher has done for a grid: its wait starts anew, and its queue has had its turn (R79, R81). -/
def State.served (s : State) (n : Nat) (g : Grid) : State :=
  let s := s.updGrid n fun g => { g with waitingSince := s.placeTime }
  { s with lastServed := Sparse.set 0 s.lastServed g.prio.toNat (16 * g.tenant + g.queue + 1) }

/-- Root blocks placed: a block or a whole cluster, with its trace entries (R77, R89). -/
def State.placeRoots (s : State) (n : Nat) (g : Grid) (ids cs : List Nat) : State :=
  let (cl, s) := s.fresh
  let s := ((ids.zip cs).zipIdx).foldl (fun s e => s.placeBlock n g cl e.1.2 (s.rootStart g e.2 e.1.1)) s
  let s := s.updGrid n fun g => { g with
    nextBlock := g.nextBlock + ids.length
    trace := g.trace.map fun es => es.filter fun e => !ids.contains e.1 }
  let s := (ids.zip cs).foldl (fun s e => s.traceEntry n e.1 e.2) s
  let s := if g.launch.isSome && decide (g.total ≤ g.nextBlock + ids.length) then
      (s.traceLaunch g.tenant g.queue g.gid).updGrid n fun g => { g with traced := true }
    else s
  match g.task with
  | some t => s.notePlaced t.handle (cs.headD 0 / 64)
  | none => s

/-- The next child of a block's fork placed (R98). -/
def State.placeChild (s : State) (n : Nat) (g : Grid) (p c : Nat) : State :=
  match s.block? p with
  | none => s
  | some k => match k.fork with
    | none => s
    | some f =>
      let (cl, s) := s.fresh
      (s.placeBlock n g cl c (childStart p k f)).updBlock p fun k => { k with fork := some { f with next := f.next + 1 } }

/-- DISPATCH_STEP: the placement that R79 chooses is made, on any of the cores where it may stand (R78; log 3). -/
def execDispatchStep (s : State) : Out :=
  .next (match s.nextPlacement with
    | none => s
    | some c =>
      match s.grid? c.grid with
      | none => s
      | some g =>
        let cs := c.options.getD (s.choose c.options.length) []
        match c.place with
        | .roots ids => (s.tick.placeRoots c.grid g ids cs).served c.grid g
        | .child p => (s.tick.placeChild c.grid g p (cs.headD 0)).served c.grid g
        | .restore _ => s)

/-! ## What can be saved (R93, R94, R229) -/

/-- The bytes that a block takes in the save area (R94). -/
def State.saveBytes (s : State) (k : Block) : Nat :=
  let n := s.needOf k
  4 * n.regs + n.scratch + 16384 + 65536 * k.tiles.length

/-- Whether a block is saved, or is to be. -/
def State.toSave (s : State) (k : Block) : Bool :=
  k.state == .saved || k.state == .saving || (s.grid? k.grid).any fun g => g.preempt && k.state != .lost

/-- The BOLT records and BOLT bins of a block, on its core or in its image. -/
def State.boltState (s : State) (b : Nat) (k : Block) : Nat × Nat :=
  match k.image with
  | some i => (i.bolts.length, (dedup (i.bolts.map fun r => (r.entry, r.key))).length)
  | none => (((s.core k.core).bolts.filter fun r => r.block == b).length, ((s.core k.core).bins.filter (Bin.boltOf b)).length)

/-- The bytes that a block takes in the control store: 128 for each thread, and for each BOLT record and BOLT bin 64, whose layout
is the device's own (R229; DESIGN CHOICE, log 93). -/
def State.storeBytes (s : State) (b : Nat) (k : Block) : Nat :=
  128 * k.T + 64 * ((s.boltState b k).1 + (s.boltState b k).2)

/-- Whether the save area of a tenant and the control store hold these blocks beside those that are saved or are to be
(R93, R229). -/
def State.saveFits (s : State) (t : Nat) (bs : List Nat) : Bool :=
  let x := s.tenant t
  let all := s.blocks.filter fun e => bs.contains e.1 || s.toSave e.2
  let area := all.foldl (fun a e => if e.2.tenant == t then a + s.saveBytes e.2 else a) 0
  let store : Nat := all.foldl (fun a e => a + s.storeBytes e.1 e.2) 0
  x.savesize != 0 && decide (area ≤ x.savesize.toNat * 2 ^ 20) && decide (store ≤ 2 ^ 29)

/-- The blocks of a grid that run, wait for slots, or are to be saved. -/
def State.liveBlocks (s : State) (n : Nat) : List (Nat × Block) :=
  s.blocks.filter fun e => e.2.grid == n && e.2.state != .saved && e.2.state != .lost

/-- Whether a grid can be saved. -/
def State.savable (s : State) (n : Nat) (g : Grid) : Bool :=
  !g.ended && s.saveFits g.tenant ((s.liveBlocks n).map (·.1))

/-- A block chosen for saving stops at its next clause boundary. -/
def State.markSaving (s : State) (b : Nat) : State :=
  s.updBlock b fun k => if k.state == .saved || k.state == .lost then k else { k with state := .saving }

/-- A block that stands again: a child that lacks slots still does, in its place in the order (R117). -/
def Block.standing (k : Block) : Block :=
  { k with state := match k.lackSince with | some since => .noSlots since | none => .running }

/-- A grid pre-empted: at DL0 its blocks stop at their clause boundaries, above at the turn boundary (R93). -/
def State.preemptGrid (s : State) (n : Nat) (g : Grid) : State :=
  let s := s.updGrid n fun g => { g with preempt := true }
  if g.dl == 0 then (s.liveBlocks n).foldl (fun s e => s.markSaving e.1) s else s

/-- The blocks of a grid that were to be saved and satisfy a test go on. -/
def State.resumeSaving (s : State) (n : Nat) (p : Block → Bool) : State :=
  (s.liveBlocks n).foldl (fun s e =>
    if e.2.state == .saving && p e.2 then
      let s := s.updBlock e.1 Block.standing
      (List.range e.2.T).foldl (fun s t => s.wakeQuad e.1 t) s
    else s) s

/-- Whether a member of a block's cluster has been saved. -/
def State.partSaved (s : State) (k : Block) : Bool :=
  (s.cluster k.cluster).members.any fun m => (s.block? m).any fun x => x.state == .saved

/-- A grid no longer pre-empted: at DL0 what is not saved yet goes on, but for clusters of which a member has been saved, whose
others are saved too, to return with it. Above, where a block of it has been saved, the rest waits for that block to return, so that
the grid resumes whole (R93, R94). -/
def State.releaseGrid (s : State) (n : Nat) (g : Grid) : State :=
  let s := s.updGrid n fun g => { g with preempt := false }
  if g.dl != 0 && s.blocks.any fun e => e.2.grid == n && e.2.state == .saved then s else s.resumeSaving n fun k => !s.partSaved k

/-- QSUSP_WRITE: the queues whose bits are set newly have their grids pre-empted, where they can be saved; those whose
bits are cleared go on (R82, R93). -/
def execQsuspWrite (t : BitVec 6) (v : Dword) (s : State) : Out :=
  .next (let t := t.toNat
    let old := (s.tenant t).qsusp
    let now : BitVec 16 := v.setWidth 16
    let s := s.updTenant t fun x => { x with qsusp := now, qsaved := x.qsaved &&& now }
    let s := (List.range 16).foldl (fun s q =>
      let gs := s.grids.filter fun e => e.2.ofQueue t q
      if onBit now q && !onBit old q then gs.foldl (fun s e => if s.savable e.1 e.2 then s.preemptGrid e.1 e.2 else s) s
      else if onBit old q && !onBit now q then gs.foldl (fun s e => s.releaseGrid e.1 e.2) s
      else s) s
    s.settleQsaved t)

/-! ## Priority pre-emption (R81, R93) -/

/-- Whether a grid's next placement waits for want of an eligible core. -/
def State.placementWaits (s : State) (n : Nat) (g : Grid) : Bool :=
  if g.preempt || g.ended then false
  else
    let saved := s.savedGroup n g
    if !saved.isEmpty then (s.restoreCores g saved).isEmpty
    else match s.nextNew n g with
      | some (_, o) => o.isEmpty
      | none => false

/-- The device as it will be once some blocks, and all that are to be saved already, have left their cores. -/
def State.vacated (s : State) (bs : List Nat) : State :=
  { s with blocks := s.blocks.map fun (e : Nat × Block) =>
      if e.2.state != .lost && (bs.contains e.1 || s.toSave e.2) then (e.1, { e.2 with state := .saved }) else e }

/-- The waiting placements that may pre-empt, for which what is to be saved already does not make room: the highest priority first,
then the oldest. -/
def State.preemptors (s : State) : List (Nat × Grid) :=
  sortBy (fun (a b : Nat × Grid) => if a.2.prio != b.2.prio then decide (b.2.prio.toNat < a.2.prio.toNat) else decide (a.2.order < b.2.order))
    (s.grids.filter fun e => decide (e.2.waitingSince + s.pkg.pdelay.toNat ≤ s.placeTime) && s.placementWaits e.1 e.2
      && (s.vacated []).placementWaits e.1 e.2)

/-- Blocks of a victim at DL0 taken core by core, with their clusters, until the placement would be eligible. -/
def State.takeCores (s : State) (n : Nat) (g : Grid) (v : Nat) : List Nat → List Nat → List Nat
  | [], acc => acc
  | c :: cs, acc =>
    if !(s.vacated acc).placementWaits n g then acc
    else
      let here := (s.liveBlocks v).filter fun e => e.2.core == c
      s.takeCores n g v cs (dedup (acc ++ here.flatMap fun e => s.membersOf e.2 e.1))

/-- The blocks of a grid that a placement takes: at DL0 enough of them, above all (R93). -/
def State.victimBlocks (s : State) (n : Nat) (g : Grid) (v : Nat) (x : Grid) : List Nat :=
  if x.dl == 0 then s.takeCores n g v (s.wanted n g) [] else (s.liveBlocks v).map (·.1)

/-- The grids that a placement may pre-empt: of lower priority, with work on a core that it could use, whose blocks that are to be
taken can be saved; the lowest priority first, then the youngest. -/
def State.victims (s : State) (n : Nat) (g : Grid) : List (Nat × Grid) :=
  let cs := s.wanted n g
  sortBy (fun (a b : Nat × Grid) => if a.2.prio != b.2.prio then decide (a.2.prio.toNat < b.2.prio.toNat) else decide (b.2.order < a.2.order))
    (s.grids.filter fun e => decide (e.2.prio.toNat < g.prio.toNat) && !e.2.preempt && !e.2.ended
      && ((s.liveBlocks e.1).any fun k => k.2.state != .saving && cs.contains k.2.core)
      && s.saveFits e.2.tenant (s.victimBlocks n g e.1 e.2))

/-- The placement that waits and the grid that it pre-empts. -/
def State.preemption (s : State) : Option (Nat × Grid × Nat × Grid) :=
  if !s.pkg.pen || s.e0Lost then none
  else s.preemptors.findSome? fun e => ((s.victims e.1 e.2).head?).map fun v => (e.1, e.2, v.1, v.2)

/-- PRIORITY_PREEMPT. -/
def execPriorityPreempt (s : State) : Out :=
  .next (match s.preemption with
    | none => s
    | some (n, g, v, x) =>
      let s := s.updGrid n fun g => { g with waitingSince := s.placeTime }
      if x.dl == 0 then (s.victimBlocks n g v x).foldl (fun s b => s.markSaving b) s
      else s.preemptGrid v x)

/-! ## Saving (R94, R229-R231) -/

/-- Whether a block chosen for saving has drained: it is between clauses, nothing that it issued is under way, no pass
of its matrix entries runs, and no join of it is being applied (R94, R119, R230). -/
def State.saveReady (s : State) (b : Nat) (k : Block) : Bool :=
  k.state == .saving
  && !(s.issue.any fun i => i.block == b)
  && s.pending.all (fun p => p.block != b || p.error.isSome)
  && !(s.engines.any fun e => e.block == b)
  && !(s.wheels.any fun w => w.2.any fun e => e.block == b && e.granted)
  && !s.asksOf b
  && !(k.threads.any fun th => match th.status with | .waiting (.acks ..) | .waiting (.acquire ..) => true | _ => false)
  && !(s.dl0 b && (s.core k.core).bundles.any fun u => u.block == b && u.paused.isSome)
  && (match k.fork with | some f => !f.checked | none => true)

/-- The register part of an image: the threads' registers in ascending thread, each to its role's budget. -/
def registerPart (n : Kernel) (k : Block) : List Byte :=
  k.threads.zipIdx.flatMap fun e => (List.range (n.charge e.2)).flatMap fun r => natToBytes 4 (e.1.reg r).toNat

/-- The words of a tile as bytes. -/
def tileBytes (x : Tile) : List Byte := (List.range 16384).flatMap fun i => natToBytes 4 (Sparse.get 0 x.elems i).toNat

/-- The place of an image in the save area: the lowest that its length fits (log 30). -/
def State.imageBase (s : State) (t len : Nat) : Option Nat :=
  let x := s.tenant t
  let base := x.savebase.toNat * 2 ^ 16
  let used := s.blocks.filterMap fun e => if e.2.tenant == t then e.2.image.map fun i => (i.addr - base, i.len + 65536 * i.tiles.length) else none
  (freeBase (x.savesize.toNat * 2 ^ 20) len used).map fun o => base + o

/-- The image of a block written to the save area: registers, scratchpad, a control part of the device's own, and its
tiles, each with its check value (R94, R229, R232). -/
def State.writeImage (s : State) (b : Nat) (k : Block) (n : Kernel) (addr : Nat) : State :=
  let main := registerPart n k ++ Memory.read k.scratch 0 (roundUp n.scratch 256) ++ s.freeBytes 16384
  let s := (s.writePhys addr main).tick
  let c := s.core k.core
  let tiles := k.tiles.zipIdx.map fun e =>
    let bs := tileBytes (s.tile (4 * k.core + e.1))
    (e.1, addr + main.length + 65536 * e.2, bs)
  let s := tiles.foldl (fun s e => s.writePhys e.2.1 e.2.2) s
  s.updBlock b fun k => { k with image := some {
    addr := addr, len := main.length, crc := crc32c main
    tiles := tiles.map fun e => (e.1, e.2.1, crc32c e.2.2)
    bolts := c.bolts.filter fun r => r.block == b
    entries := (s.wheel (wheelOf k.core)).filter fun e => e.block == b
    core := k.core
    bundles := c.bundles.filter fun u => u.block == b
    bins := c.bins.flatMap fun x => x.entries.filter fun e => e.block == b
    rotation := c.rotation.filter fun id => c.bundles.any fun u => u.id == id && u.block == b
    round := s.binTime (match s.grid? k.grid with | some g => g.dl | none => 0) k.core } }

/-- A saved block leaves its core. -/
def State.leaveCore (s : State) (b : Nat) (k : Block) : State :=
  let s := s.updWheel (wheelOf k.core) fun es => es.filter fun e => e.block != b
  let s := (s.unfileBlock b).updBlock b fun x => { x with state := .saved, quads := k.quads }
  s.freeTiles k.core k.tenant

/-- A block of a grid has been saved, and waits from now on for its return. A grid that was pre-empted for priority at DL1
and above may come back once it is saved whole (R81, R93). -/
def State.savedWhole (s : State) (n : Nat) : State :=
  s.updGrid n fun g =>
    let g := { g with waitingSince := s.placeTime }
    if g.dl != 0 && s.gridSaved n && !onBit (s.tenant g.tenant).qsusp g.queue then { g with preempt := false } else g

/-- The lost replies that a stopped block's threads meet at the clauses where they stand: their traps are taken before the block is
saved (R221, R231). -/
def State.takeReplies (s : State) (b : Nat) (k : Block) : State :=
  (List.range k.T).foldl (fun s tid =>
    let th := k.thread tid
    if !th.canIssue || th.keep then s
    else match s.fetchClause b th.pc with
      | .error _ => s
      | .ok (_, hdr, _) => match s.replyError b tid (Header.ofWord hdr).wait with
        | some (p, e) => s.takeReply b tid th.pc p e
        | none => s) s

/-- Whether a core holds dirty bytes of a tenant for another device. -/
def State.dirtyFar (s : State) (c t : Nat) : Bool :=
  (s.core c).cache.any fun x => x.tenant == t && x.dirty != 0 && (match x.home with | .remote .. => true | _ => false)

/-- What a core has written is published before a block leaves it, which may return to another (R94; log 30). -/
def State.publishLeft (s : State) (k : Block) : State :=
  if (s.domainPeers k.tenant).isEmpty then s.signNear k.core k.cluster 3 else s.signCores [k.core] k.tenant

/-- BLOCK_SAVE: a drained block is written out and leaves its core. Where the save area no longer holds it, its grid is
not pre-empted and goes on (R93, R94). -/
def execBlockSave (b : Nat) (s : State) : Out :=
  .next (match s.block? b with
    | none => s
    | some k =>
      match s.grid? k.grid with
      | none => s
      | some g =>
        if !s.saveReady b k || (g.dl != 0 && !g.preempt) then s
        else if s.dirtyFar k.core k.tenant then s.flushCore k.core
        else if s.takeReplies b k != s then s.takeReplies b k
        else
          let len := 4 * g.kernel.totalCharge + roundUp g.kernel.scratch 256 + 16384 + 65536 * k.tiles.length
          match (if s.saveFits k.tenant [b] then s.imageBase k.tenant len else none) with
          | none => (s.releaseGrid k.grid g).resumeSaving k.grid fun _ => true
          | some addr =>
            let s := ((s.publishLeft k).writeImage b k g.kernel addr).leaveCore b k
            (s.savedWhole k.grid).settleQsaved k.tenant)

/-! ## Restoring (R94, R230-R232) -/

/-- Whether the image of a saved block can be read and meets its check values (R27, R232). -/
def State.imageOk (s : State) (i : Image) : Bool :=
  (s.lostIn i.addr i.len).isNone && crc32c (s.readPhys i.addr i.len) == i.crc
  && i.tiles.all fun e => (s.lostIn e.2.1 65536).isNone && crc32c (s.readPhys e.2.1 65536) == e.2.2

/-- The threads' registers from the register part of an image. -/
def loadRegisters (n : Kernel) : Nat → List Thread → List Word → List Thread
  | _, [], _ => []
  | tid, th :: l, ws =>
    let c := n.charge tid
    ({ th with regs := [] }.setGroup 0 (ws.take c)) :: loadRegisters n (tid + 1) l (ws.drop c)

/-- What a block held of its core put back, aged as it was: its BOLT records, its filed quads, at DL1 and above its bundles and their
place in the rotation; at DL0 the quads of its bundles are filed anew (R229, R231). -/
def State.refile (s : State) (b : Nat) (dl : BitVec 2) (c : Nat) (i : Image) : State :=
  let since := fun (n : Nat) => s.binTime dl c - (i.round - n)
  let s := s.updCore c fun x => i.bolts.foldl (fun x r =>
    { x.boltBin r.block r.entry r.key with bolts := x.bolts ++ [{ r with since := since r.since }] }) x
  let s := s.updCore c fun x => i.bins.foldl (fun x e => x.fileEntry { e with since := since e.since }) x
  if dl == 0 then
    let s := s.updBlock b fun k => { k with quads := k.quads.map fun e =>
      (e.1, { e.2 with place := if e.2.place == .bin then .bin else .gone }) }
    s.fileQuads b ((List.range (divUp (match s.block? b with | some k => k.T | none => 0) 4)).filter fun q => !(i.bins.any fun e => e.quad == q))
  else
    let s := s.updCore c fun x => { x with bundles := x.bundles ++ i.bundles, rotation := x.rotation ++ i.rotation }
    s.updCore c fun x => { x with rotation := (sortBy s.bundleBefore (x.rotation.filterMap fun id => x.bundles.find? fun u => u.id == id)).map (·.id) }

/-- An accumulator tile of one core as that of another (R230). -/
def movedTile (old new_ tile : Nat) : Nat := tile + 4 * new_ - 4 * old

/-- A wait for an accumulator access names the tile of the core that receives the block (R230). -/
def Thread.moved (old new_ : Nat) (th : Thread) : Thread :=
  match th.status with
  | .waiting (.acc ids op) => { th with status := .waiting (.acc ids (match op with
    | .rd d tile e n wide => .rd d (movedTile old new_ tile) e n wide
    | .wr d tile e n wide => .wr d (movedTile old new_ tile) e n wide
    | .zero tile pair => .zero (movedTile old new_ tile) pair)) }
  | _ => th

/-- A saved block, seated on its core again, with everything of R229. The core drops the tenant's clean lines, which the
block's own acquires have not reached. -/
def State.restoreBlock (s : State) (b : Nat) (g : Grid) (i : Image) : State :=
  match s.block? b with
  | none => s
  | some k =>
    let bytes := s.readPhys i.addr i.len
    let regs := 4 * g.kernel.totalCharge
    let sc := roundUp g.kernel.scratch 256
    let s := s.setBlock b ({ k with
      threads := (loadRegisters g.kernel 0 k.threads (bytesToWords (bytes.take regs))).map (Thread.moved i.core k.core)
      scratch := Memory.write [] 0 ((bytes.drop regs).take sc)
      image := none }.standing)
    let s := i.tiles.foldl (fun s e => s.updTile (4 * k.core + e.1) fun _ =>
      let elems := (bytesToWords (s.readPhys e.2.1 65536)).zipIdx.foldl (fun (m : Sparse Word) w => Sparse.set 0 m w.2 w.1) []
      { owner := some k.tenant, elems := elems, was := elems }) s
    let s := s.updWheel (wheelOf k.core) fun es => es ++ i.entries.map fun e =>
      { e with core := k.core, lastPass := s.dieTime (k.core / 64), aged := false, granted := false }
    let s := s.updCore k.core fun c => { c with cache :=
      (c.cache.filter fun x => x.tenant != k.tenant || x.dirty != 0).map fun x => if x.tenant == k.tenant then s.refreshed x else x }
    s.refile b g.dl k.core i

/-- A failed check: the launch, or the task, ends, and the record of R232 is posted. -/
def State.imageFails (s : State) (n : Nat) (g : Grid) (k : Block) : State :=
  let s := s.postEvent g.tenant { FaultRec.zero with
    code := BitVec.ofNat 8 cINTEG, cause := 7, queue := BitVec.ofNat 4 g.queue, grid := g.gid, block := k.bid, aux0 := k.bid.setWidth 64 }
  if g.task.isSome then s.failTask n (BitVec.ofNat 8 cINTEG) 0 else s.killLaunch n

/-- Saved blocks restored together on the cores chosen for them. -/
def State.restoreAll (s : State) (n : Nat) (g : Grid) (bs cs : List Nat) : State :=
  let ks := bs.filterMap fun b => s.block? b
  match ks.find? fun k => !((k.image.map s.imageOk).getD false) with
  | some k => s.imageFails n g k
  | none =>
    let images := bs.filterMap fun b => ((s.block? b).bind fun k => k.image).map fun i => (b, i)
    match s.seatAll (g.dl != 0) (bs.zip cs) with
    | none => s
    | some s =>
      let s := (images.foldl (fun s e => s.restoreBlock e.1 g e.2) s).served n g
      (if g.dl != 0 then s.resumeSaving n fun _ => true else s).resumeChildren g.tenant none

/-- BLOCK_RESTORE: the saved blocks that R79 chooses, this one among them. -/
def execBlockRestore (b : Nat) (s : State) : Out :=
  .next (match s.nextPlacement with
    | none => s
    | some c =>
      match c.place, s.grid? c.grid with
      | .restore bs, some g =>
        if bs.contains b then s.tick.restoreAll c.grid g bs (c.options.getD (s.choose c.options.length) []) else s
      | _, _ => s)

end Sys2Proof.Machine
end

