-- ==== Sys2Proof/Machine/Events.lean ====
section
/-! DEFINITION. What the device does of its own accord: the steps that may come next, a word that no instruction fits,
and the placing of one instruction as the next to run (R79, R87, R235, R242). -/

namespace Sys2Proof.Machine

/-! ## A word that is no instruction (R242) -/

/-- The ILLEGAL trap of tests 1 to 5, with the offending word. -/
def illegalTrap (i : Issue) (cause word : Nat) : Trap :=
  let at_ := i.pos - 1 + word
  { Trap.of cILLEGAL cause with addr := i.pc.toNat + 4 * (at_ + 1), aux0 := (i.words.getD at_ 0).toNat }

/-- The least of the positions from which lanes go on. -/
def lowStart : List Lane → Option Nat
  | [] => none
  | l :: rest => match lowStart rest with
    | none => some l.start
    | some m => some (min l.start m)

/-- Every lane that has reached the word traps, whatever its predicate; the clause goes on at the next position that a
lane resumes from, or ends. -/
def State.trapWord (s : State) (i : Issue) (cause word : Nat) : State :=
  let t := illegalTrap i cause word
  let s := (i.lanes.filter fun l => decide (l.start ≤ i.pos)).foldl (fun s l =>
    (s.takeTrap i.block l.tid i.pc i.pos i.pc i.pos t).dropLane l.tid) s
  match s.issue with
  | none => s
  | some j => match lowStart j.lanes with
    | some p => { s with issue := some { j with pos := p } }
    | none => s.finishClause

/-! ## The steps that may come next -/

/-- The candidates of one tenant. -/
def tenantEvents (t : Nat) (x : Tenant) : List Instr :=
  let tt := BitVec.ofNat 6 t
  [.tlbinvComplete tt, .viewpoolDeadlock tt]
  ++ x.queues.flatMap fun q => [.launchRecordRead tt (BitVec.ofNat 4 q.1), .launchStart tt (BitVec.ofNat 4 q.1)]

/-- Whether the contributions of a grid to a reduction page may be folded or sent on the device's own accord: the page is homed
elsewhere, or every device that may contribute has (R50). -/
def State.foldable (s : State) (g : Grid) (page : Nat) : Bool :=
  (s.domainPeers g.tenant).isEmpty || g.folds.contains page || s.homeDevice g.tenant page != s.fabric.devid.toNat

/-- The candidates of one grid. -/
def State.gridEvents (s : State) (n : Nat) (g : Grid) : List Instr :=
  [.turnBoundary n, .taskComplete n, .launchComplete n]
  ++ ((dedup (g.heldRed.map fun r => s.pageBase g.tenant r.va)).filter (s.foldable g)).map fun p =>
    .crossDeviceFold g.gid ⟨BitVec.ofNat 64 p, []⟩

/-- The candidates of one block, and of its waits. -/
def blockEvents (b : Nat) (k : Block) : List Instr :=
  [.blockSave b, .blockRestore b, .childComplete b, .joinCheck (.own b []), .joinApply (.own b []), .vdropComplete (.own b []),
   .specSlotTimeout b, .specCheck b, .specCommit ⟨b, []⟩, .specRestore b, .blockComplete b, .barrierTimeout (.spec b),
   .barrierTimeout (.specend b)]
  ++ k.bars.map (fun e => .barrierTimeout (.bar b e.1))
  ++ k.rwaits.map (fun e => .rwaitTimeout b e.1)
  ++ k.threads.zipIdx.flatMap fun e => match e.1.status with
    | .waiting (.slot _) => [.sluiceTimeout b e.2]
    | .waiting (.tbwait ..) => [.barrierTimeout (.tbwait b e.2)]
    | _ => []

/-- The candidates of one core. -/
def coreEvents (c : Nat) (x : Core) : List Instr :=
  [.governorRound c, .boltDrain c 255]
  ++ x.bundles.map (fun u => .clauseIssue c u.id)
  ++ x.bins.flatMap (fun n => [.bundleDraw c n.no, .boltDrain c n.no])
  ++ (List.range x.cache.length).map fun i => .lineEviction c i

/-- The candidates of one wheel. -/
def wheelEvents (w : Nat) (es : List MatEntry) : List Instr :=
  [.matrixPassGrant w, .matrixPassComplete w] ++ es.flatMap fun e => [.matrixEntryAged w e.id, .engineAbandon e.id]

/-- Every step that the device may take of its own accord, were its condition to hold. -/
def State.candidates (s : State) : List Instr :=
  [.dispatchStep, .priorityPreempt, .fullServiceSwitch]
  ++ s.tenants.flatMap (fun e => tenantEvents e.1 e.2)
  ++ s.grids.flatMap (fun e => s.gridEvents e.1 e.2)
  ++ s.blocks.flatMap (fun e => blockEvents e.1 e.2)
  ++ s.clusters.flatMap (fun e => e.2.cbars.map fun x => .barrierTimeout (.cbar e.1 x.1))
  ++ s.cores.flatMap (fun e => coreEvents e.1 e.2)
  ++ s.wheels.flatMap (fun e => wheelEvents e.1 e.2)
  ++ s.engines.flatMap (fun e => [.copyComplete e.id, .nbgemvComplete e.id, .engineAbandon e.id])
  ++ (s.pending.map fun p => .resultWriteback p.id)
  ++ s.fabric.drops.map fun d => .vdropComplete (.ends d.1 d.2.1 d.2.2 false [])

/-! ## Writes held during a join (R107) -/

/-- The runs of views whose check has been made here and that are neither applied nor aborted. -/
def State.heldRuns (s : State) : List FarFork :=
  s.fabric.holds ++ s.blocks.filterMap fun e => e.2.fork.bind fun f =>
    if f.checked then some (s.farRun e.2.tenant e.2.vtag f.vtag0 f.n (s.dl0 e.1)) else none

/-- What the parent of such a run reads of its granules. -/
def State.heldContent (s : State) (r : FarFork) : List (Nat × List Byte) :=
  (s.runSlots r.tenant.toNat r.vtag0 r.n).map fun e => (e.1, s.parentBytes r.tenant.toNat r.parents e.1 e.2)

/-- Whether what has come of a step has changed such a granule from outside its fork: the run still stands, and its granules are
others. -/
def State.intrudes (s s' : State) : Bool :=
  s.heldRuns.any fun r => s'.heldRuns.contains r && s'.heldContent r != s.heldContent r

/-- What follows a step, put off while it would write what a join holds (R107). -/
def State.unlessHeld (s : State) (f : State → State) : State := if s.intrudes (f s) then s else f s

/-- The steps by which joins end. -/
def joins (i : Instr) : Bool := match i with | .joinCheck .. | .joinApply .. | .vdropComplete .. => true | _ => false

/-- Whether a step may be taken now: it writes nothing that a join holds (R107). -/
def State.allows (s : State) (run : Instr → State → Out) (i : Instr) : Bool :=
  s.heldRuns.isEmpty || joins i || (match run i s with
    | .next s' => !s.intrudes s'
    | _ => true)

/-- The tenant through whose aperture an input is an access of the host. -/
def hostAccess (i : Instr) : Option Nat :=
  match i with
  | .hostApertureStore t .. | .hostApertureLoad t .. => some t.toNat
  | _ => none

/-- Whether a host access waits for the release of an earlier store of the host, since Noern-H keeps the host's order: a signature
of the tenant is not acknowledged (R173, R176). -/
def State.hostWaits (s : State) (i : Instr) : Bool := (hostAccess i).any fun t => !(s.signTags t).isEmpty

/-- Whether an input may pass the first, which has to wait. -/
def State.mayPass (s : State) (run : Instr → State → Out) (first i : Instr) : Bool :=
  if s.hostWaits first then (hostAccess i).isNone && s.allows run i else joins i

/-- The input that is taken next and those that are left: the first, or, while that has to wait for a join or for an earlier
release of the host, the first that may pass it (R107, R176). -/
def State.nextInput (s : State) (run : Instr → State → Out) : Option (Instr × List Instr) :=
  match s.inputs with
  | [] => none
  | i :: rest =>
    if s.allows run i && !s.hostWaits i then some (i, rest)
    else (rest.find? (s.mayPass run i)).map fun j => (j, i :: rest.erase j)

/-- Whether a step would do anything: its condition holds where it does. -/
def State.acts (s : State) (run : Instr → State → Out) (i : Instr) : Bool :=
  match run i s with
  | .next s' => s' != s && (joins i || !s.intrudes s')
  | _ => true

/-- Whether a step may be left undone for ever: the eviction of a line (R172). -/
def optional (i : Instr) : Bool := match i with | .lineEviction .. => true | _ => false

/-- The steps that may be taken, the longest so first, each with the cycle from which it may. -/
def State.dueNow (s : State) (l : List Instr) : List (Nat × Instr) :=
  (s.due.filter fun e => l.contains e.2)
  ++ (l.filter fun i => !optional i && !(s.due.any fun e => e.2 == i)).map fun i => (s.cycle, i)

/-- Whether a step is taken before others once its condition holds: the spec says when it comes, or within what time (R127,
R146, R148, R159, R165, R227). -/
def prompt (i : Instr) : Bool :=
  match i with
  | .bundleDraw .. | .boltDrain .. | .matrixPassGrant .. | .barrierTimeout .. | .rwaitTimeout .. | .sluiceTimeout ..
  | .specSlotTimeout .. => true
  | _ => false

/-- The step that comes next of those whose conditions hold, and the steps that stay due: of the prompt ones the one due longest,
and otherwise any of them, but none is passed over for longer than 4,096 cycles (R165; log 3). -/
def State.pickEvent (s : State) (run : Instr → State → Out) : Option (Instr × List (Nat × Instr)) :=
  let l := s.candidates.filter (s.acts run)
  let d := s.dueNow l
  let pick := match d.find? fun e => prompt e.2 with
    | some e => some e.2
    | none => match d.head? with
      | some (since, i) => if since + 4096 ≤ s.cycle then some i else l[s.choose l.length]?
      | none => l[s.choose l.length]?
  pick.map fun i => (i, d.filter fun e => e.2 != i)

/-- What follows every step: the waits that can end do, then what has waited too long traps, and the clock advances; writes of
other devices that have waited for a slot are tried again, and receivers tell what their buffers have room for (R41, R103,
R227). -/
def State.finishStep (s : State) : State :=
  ((s.unlessHeld fun s => s.settle.testDl0).unstall.advance.unlessHeld State.retrySlotWait).flow

/-! ## One instruction placed as the next to run -/

/-- The class in which the reading of a bare table word is made; INT where it is none (log 6). -/
def tableClass (nbits w : Nat) : Cls :=
  match decodeTable nbits w with
  | some i => (encodeFields i).elim .int (·.cls)
  | none => .int

/-- The kernel that a placed instruction runs in: every feature, one quad, the whole register budget. -/
def placedKernel : Kernel where
  addr := 0
  features := 0x1F
  entry := 64
  handler := 0
  threads := 4
  cluster := 1
  bars := 16
  tbars := 16
  scratch := 4096
  roles := [⟨0, 4, 255⟩]

/-- A task's grid around a placed instruction, at DL0, for tenant 0. -/
def placedGrid (id now : Nat) : Grid :=
  { gid := 0, tenant := 0, queue := 0, seq := 0, dl := 0, prio := 0, quota := 4096, kernel := placedKernel
    launch := some ⟨0, 1, 1, 1, false, false, false, 0, 0, 0, 0⟩, task := none, state := .started, nextBlock := 1, total := 1
    finished := 0, order := id, waitingSince := now, turn := 1, stall := 0, stalledFrom := none, closing := none, effects := [], effSeq := 0
    accesses := [], dcause := DCause.zero, published := DCause.zero, pendingEvents := [], ownFreed := 0, heldRed := [], folds := [], trace := none
    killed := false, traced := false, preempt := false }

/-- A block of four threads on core 0 whose quad stands in a bundle. -/
def placedBlock (grid cl bundle id now : Nat) : Block :=
  { grid := grid, tenant := 0, core := 0, path := [0], bid := 0, cluster := cl, member := 0, child := 0xFFFFFFFF, vtag := 0
    depth := 0, parent := none, entry := 64, rngId := 0, seed := 0
    threads := List.replicate 4 { Thread.start with pc := 64 }
    quads := [(0, ⟨.bundle bundle, 0, none⟩)], scratch := [], regBase := 0, scratchBase := 0, bars := [], specBar := Barrier.empty, specendBar := Barrier.empty
    rwaits := [], tl := [], tlPost := [], tlDone := [], bto := 0x04000000, sto := 0x04000000, xval := [], fork := none
    specs := [], specWait := none, specSlot := none, tile := [], tiles := [], started := now, gatedCycles := 0, order := id
    state := .running, lackSince := none, granted := none, lackUse := none, image := none, clock := 0, knows := [], tbKnows := []
    wasScratch := [], wasRegs := List.replicate 4 [] }

/-- The header of the placed clause: N words of a class, no waits, no flags, unpredicated (R234). -/
def placedHeader (c : Cls) (n : Nat) : Header where
  reform := false
  pneg := false
  pred := 7
  setb := 15
  seta := 15
  wait := 0
  cls := c.code
  n := BitVec.ofNat 4 n

/-- The machine with one block whose bundle has fetched a clause of one instruction: what a launch, its dispatch, the
draw of a bundle and the fetch of a clause bring about (log 31). -/
def State.placeClause (s : State) (c : Cls) (ws : List Word) : State :=
  let g := s.nextUid + 1
  let cl := s.nextUid + 2
  let b := s.nextUid + 3
  let u := s.nextUid + 4
  let s := { s with
    nextUid := s.nextUid + 4, inputs := [], pkg := { s.pkg with inReset := false }
    grids := Sparse.put s.grids g (placedGrid g s.placeTime)
    blocks := Sparse.put s.blocks b (placedBlock g cl u b s.cycle)
    issue := some {
      core := 0, bundle := u, block := b, pc := 64, hdr := (placedHeader c ws.length).toWord, words := ws, pos := 1
      lanes := (List.range 4).map fun i => ⟨i, i, true, 1⟩, longs := 0, reform := false } }
  (s.updCluster cl fun _ => ⟨[b], []⟩).updCore 0 fun x => { x with bundles := x.bundles ++ [⟨u, b, 0, [(0, 0)], false, false, none⟩] }

end Sys2Proof.Machine
end

