-- ==== Sys2Proof/Machine/Flt.lean ====
section
/-! DEFINITION. Class FLT: IEEE and rational arithmetic, minimum and maximum, comparison, sign, scale, conversion, the
approximations and the rational instructions (R298-R318). -/

namespace Sys2Proof.Machine

/-! ## Arithmetic (R302, R303) -/

/-- The operand at a position of a short list. -/
def opd (xs : List Nat) (i : Nat) : Nat := xs.getD i 0
def opv (xs : List FV) (i : Nat) : FV := xs.getD i (.nan 0)

/-- An operation that has an IEEE and a rational form. -/
def arith (rnd : Rnd) (ieee : FpFmt → Nat → List Nat → Nat × Flags) (rat : List FV → FV × Flags)
    (th : Thread) (f : Fmt) (xs : List Nat) : Nat × Flags :=
  if f.isRat then ratElem (rqOf f) (qModeOf th rnd) rat xs
  else ieeeElem (fpOf f) th.fz (ieee (fpOf f) (modeOf th rnd)) xs

def execFadd (w : Width) (d a b : Reg) (rnd : Rnd) (fmt : Fmt) (x2 : Bool) (s : State) : Out :=
  .next (s.runElems (.fadd w d a b rnd fmt x2) w d [a, b] fmt x2 true
    (arith rnd (fun f m x => f.add m (opd x 0) (opd x 1)) fun x => qAdd (opv x 0) (opv x 1)))

def execFsub (w : Width) (d a b : Reg) (rnd : Rnd) (fmt : Fmt) (x2 : Bool) (s : State) : Out :=
  .next (s.runElems (.fsub w d a b rnd fmt x2) w d [a, b] fmt x2 true
    (arith rnd (fun f m x => f.sub m (opd x 0) (opd x 1)) fun x => qAdd (opv x 0) (opv x 1).neg))

def execFmul (w : Width) (d a b : Reg) (rnd : Rnd) (fmt : Fmt) (x2 : Bool) (s : State) : Out :=
  .next (s.runElems (.fmul w d a b rnd fmt x2) w d [a, b] fmt x2 true
    (arith rnd (fun f m x => f.mul m (opd x 0) (opd x 1)) fun x => qMul (opv x 0) (opv x 1)))

def execFfma (w : Width) (d a b c : Reg) (rnd : Rnd) (fmt : Fmt) (x2 : Bool) (s : State) : Out :=
  .next (s.runElems (.ffma w d a b c rnd fmt x2) w d [a, b, c] fmt x2 true
    (arith rnd (fun f m x => f.fma m (opd x 0) (opd x 1) (opd x 2)) fun x => qFma (opv x 0) (opv x 1) (opv x 2)))

def execFdiv (w : Width) (d a b : Reg) (rnd : Rnd) (fmt : Fmt) (x2 : Bool) (s : State) : Out :=
  .next (s.runElems (.fdiv w d a b rnd fmt x2) w d [a, b] fmt x2 true
    (arith rnd (fun f m x => f.div m (opd x 0) (opd x 1)) fun x => qDiv (opv x 0) (opv x 1)))

def execFsqrt (w : Width) (d a : Reg) (rnd : Rnd) (fmt : Fmt) (x2 : Bool) (s : State) : Out :=
  .next (s.runElems (.fsqrt w d a rnd fmt x2) w d [a] fmt x2 true
    (arith rnd (fun f m x => f.sqrt m (opd x 0)) fun x => qSqrt (opv x 0)))

/-! ## Minimum, maximum and comparison (R304-R306) -/

/-- The four operations of R198 and R304 on one element. -/
def minMaxElem (isMax num : Bool) (th : Thread) (f : Fmt) (xs : List Nat) : Nat × Flags :=
  if f.isRat then ratElem (rqOf f) 0 (fun v => (qMinMax isMax num (opv v 0) (opv v 1), 0)) xs
  else ieeeElem (fpOf f) th.fz (fun x =>
    if num then (fpOf f).minMaxNum isMax (opd x 0) (opd x 1) else (fpOf f).minMax isMax (opd x 0) (opd x 1)) xs

def execFmin (w : Width) (d a b : Reg) (fmt : Fmt) (x2 : Bool) (s : State) : Out :=
  .next (s.runElems (.fmin w d a b fmt x2) w d [a, b] fmt x2 true (minMaxElem false false))

def execFmax (w : Width) (d a b : Reg) (fmt : Fmt) (x2 : Bool) (s : State) : Out :=
  .next (s.runElems (.fmax w d a b fmt x2) w d [a, b] fmt x2 true (minMaxElem true false))

def execFminnum (w : Width) (d a b : Reg) (fmt : Fmt) (x2 : Bool) (s : State) : Out :=
  .next (s.runElems (.fminnum w d a b fmt x2) w d [a, b] fmt x2 true (minMaxElem false true))

def execFmaxnum (w : Width) (d a b : Reg) (fmt : Fmt) (x2 : Bool) (s : State) : Out :=
  .next (s.runElems (.fmaxnum w d a b fmt x2) w d [a, b] fmt x2 true (minMaxElem true true))

/-- The condition of FCMP on two values, and the flags of the comparison (R305). `nan` says that either is a NaN,
`snan` that either signals. -/
def fcmpCond (c : FCond) (x y : FV) (nan snan : Bool) : Bool × Flags :=
  let ord := !nan
  let loud : Flags := if nan then fIV else 0
  let quiet : Flags := if snan then fIV else 0
  match c with
  | .eq => (ord && fvEq x y, quiet)
  | .ne => (nan || !fvEq x y, quiet)
  | .lt => (ord && fvLt x y, loud)
  | .le => (ord && !fvLt y x, loud)
  | .gt => (ord && fvLt y x, loud)
  | .ge => (ord && !fvLt x y, loud)
  | .un => (nan, quiet)
  | .ord => (ord, quiet)

/-- The condition of FCMP on two elements. -/
def fcmpElem (c : FCond) (th : Thread) (f : Fmt) (a b : Nat) : Bool × Flags :=
  if f.isRat then
    let (x, bx) := (rqOf f).decode a
    let (y, by_) := (rqOf f).decode b
    let (r, fl) := fcmpCond c x y (x.isNan || y.isNan) false
    (r, fl ||| (if bx || by_ then fIV else 0))
  else
    let g := fpOf f
    let a := g.flushIn th.fz a
    let b := g.flushIn th.fz b
    fcmpCond c (g.decode a) (g.decode b) (g.isNan a || g.isNan b) (g.isSnan a || g.isSnan b)

def execFcmp (w : Width) (pd : PredNo) (a b : Reg) (pc : PredNo) (fmt : Fmt) (cond : FCond) (s : State) : Out :=
  .next (s.runFlt (.fcmp w pd a b pc fmt cond) (fun th => (th.fmtIn fmt).isRat) fun _ _ _ th =>
    let f := th.fmtIn fmt
    let (r, fl) := fcmpElem cond th f ((th.flts a f false w).getD 0 0) ((th.flts b f false w).getD 0 0)
    .ok ⟨[], [(pd.toNat, r && th.pred pc.toNat)], fl⟩)

/-- The class word of an element (R306). -/
def fclassElem (f : Fmt) (a : Nat) : Nat :=
  let side := fun (neg : Bool) (n p : Nat) => if neg then n else p
  if f.isRat then
    let q := rqOf f
    match q.decode a with
    | (_, true) => 2 ^ 10
    | (v, false) =>
      let c := match v with
        | .nan _ => 9
        | .inf neg => side neg 0 7
        | .fin neg n _ => if n = 0 then 4 else side neg 1 6
      2 ^ c + (if q.canon v = a then 0 else 2 ^ 11)
  else if f == .d8 then
    match d8Decode a with
    | some (.fin neg n _) => 2 ^ (if n = 0 then 4 else side neg 1 6)
    | _ => 2 ^ 9
  else
    let g := fpOf f
    2 ^ (match g.decode a with
      | .nan _ => if g.isSnan a then 8 else 9
      | .inf neg => side neg 0 7
      | .fin neg n _ => if n = 0 then side neg 3 4 else if g.isSub a then side neg 2 5 else side neg 1 6)

def execFclass (w : Width) (d a : Reg) (fmt : Fmt) (s : State) : Out :=
  .next (s.runFlt (.fclass w d a fmt) (fun _ => fmt.isRat) fun _ _ _ th =>
    let x := (th.elems a w.toNat (fltSlot fmt false) 1).getD 0 0 % 2 ^ fmt.bits
    .ok ⟨regWrites d.toNat [BitVec.ofNat 32 (fclassElem fmt x)], [], 0⟩)

/-! ## Sign, integral rounding and scale (R307-R309) -/

/-- FABS and FNEG on one element (R307). -/
def signElem (neg : Bool) (_ : Thread) (f : Fmt) (xs : List Nat) : Nat × Flags :=
  if f.isRat then ratElem (rqOf f) 0 (fun v => (if neg then (opv v 0).neg else (opv v 0).abs, 0)) xs
  else
    let g := fpOf f
    let mag := opd xs 0 % g.signBit
    (if neg && !(bitAt (opd xs 0) (g.eb + g.fb)) then mag + g.signBit else mag, 0)

def execFabs (w : Width) (d a : Reg) (fmt : Fmt) (x2 : Bool) (s : State) : Out :=
  .next (s.runElems (.fabs w d a fmt x2) w d [a] fmt x2 true (signElem false))

def execFneg (w : Width) (d a : Reg) (fmt : Fmt) (x2 : Bool) (s : State) : Out :=
  .next (s.runElems (.fneg w d a fmt x2) w d [a] fmt x2 true (signElem true))

def execFcopysign (w : Width) (d a b : Reg) (fmt : Fmt) (x2 : Bool) (s : State) : Out :=
  .next (s.runElems (.fcopysign w d a b fmt x2) w d [a, b] fmt x2 false fun _ f xs =>
    let g := fpOf f
    (opd xs 0 % g.signBit + opd xs 1 / g.signBit * g.signBit, 0))

/-- FRINT on one pattern (R308). -/
def rintElem (g : FpFmt) (m : Nat) (nx : Bool) (a : Nat) : Nat × Flags :=
  match g.nanOf [a] with
  | some r => r
  | none => match g.decode a with
    | .fin neg n d =>
      let (k, exact) := roundUnits n d 0 m neg
      ((g.round 0 neg k 1).1, if nx && !exact then fNX else 0)
    | _ => (a, 0)

def execFrint (w : Width) (d a : Reg) (rnd : Rnd) (fmt : Fmt) (x2 : Bool) (nx : Bool) (s : State) : Out :=
  .next (s.runElems (.frint w d a rnd fmt x2 nx) w d [a] fmt x2 false fun th f xs =>
    ieeeElem (fpOf f) th.fz (fun x => rintElem (fpOf f) (modeOf th rnd) nx (opd x 0)) xs)

/-- FSCALE on one pattern (R309); beyond ±8192 the scale changes nothing of the rounded result. -/
def scaleElem (g : FpFmt) (m : Nat) (a : Nat) (n : Int) : Nat × Flags :=
  match g.nanOf [a] with
  | some r => r
  | none => match g.decode a with
    | .fin neg x d =>
      let (p, r) := pow2 (satTo n (-8192) 8192)
      g.round m neg (x * p) (d * r)
    | _ => (a, 0)

def execFscale (w : Width) (d a b : Reg) (rnd : Rnd) (fmt : Fmt) (x2 : Bool) (s : State) : Out :=
  .next (s.runFlt (.fscale w d a b rnd fmt x2) (fun _ => false) fun _ _ _ th =>
    let g := fpOf fmt
    let slot := fltSlot fmt x2
    let ns := th.elems b w.toNat slot (fltCount fmt x2 w)
    let rs := map2 (fun x n => ieeeElem g th.fz (fun y => scaleElem g (modeOf th rnd) (opd y 0) (sext n slot)) [x])
      (th.flts a fmt x2 w) ns
    let (es, fl) := elemResults rs
    .ok ⟨regWrites d.toNat (fltWords fmt x2 w es), [], fl⟩)

/-- FGETEXP on one pattern (R309). -/
def getexpElem (g : FpFmt) (a : Nat) : Nat × Flags :=
  match g.nanOf [a] with
  | some r => r
  | none => match g.decode a with
    | .fin _ n d =>
      if n = 0 then (g.withSign true g.infBits, fDZ)
      else let e := exponentOf n d; ((g.round 0 (decide (e < 0)) e.natAbs 1).1, 0)
    | _ => (g.infBits, 0)

def execFgetexp (w : Width) (d a : Reg) (fmt : Fmt) (x2 : Bool) (s : State) : Out :=
  .next (s.runElems (.fgetexp w d a fmt x2) w d [a] fmt x2 false fun th f xs =>
    ieeeElem (fpOf f) th.fz (fun x => getexpElem (fpOf f) (opd x 0)) xs)

/-! ## Conversions (R310-R313) -/

/-- A source element read: its value, the IEEE format whose NaN pattern that value may carry, and its flags (R311). -/
def cvtSource (f : Fmt) (fz : Bool) (xval scale e : Nat) : FV × Option FpFmt × Flags :=
  match f with
  | .d8 => ((d8Decode e).getD (.nan 0), none, 0)
  | .fp4x => let r := fp4Value e xval (scale % 2 ^ 16); (r.1, some bf16, r.2)
  | .int4g =>
    let r := int4gExpand e (bitsAt scale 16 4) (scale % 2 ^ 16)
    (bf16.decode r.1, some bf16, r.2)
  | .rq32 | .rq64 => let r := (rqOf f).decode e; (r.1, none, if r.2 then fIV else 0)
  | _ =>
    let g := fpOf f
    (g.decode (g.flushIn fz e), some g, if g.isSnan e then fIV else 0)

/-- A value written in a destination format (R311). -/
def cvtDest (f : Fmt) (fz : Bool) (m : Nat) (v : FV) (src : Option FpFmt) : Nat × Flags :=
  match f with
  | .d8 => d8OfFV v
  | .fp4x => fp4OfFV v
  | .rq32 | .rq64 => (rqOf f).ofFV m v
  | _ =>
    let g := fpOf f
    match v, src with
    | .nan b, some h => (h.nanTo g b, 0)
    | .nan _, none => (g.qnan, 0)
    | v, _ => g.flushOut fz (g.ofFV m v)

/-- A packed group of 2^w elements of a size in bits (R310). -/
def Thread.packed (th : Thread) (r : Reg) (w : Width) (bits : Nat) : List Nat :=
  th.elems r (groupLog (2 ^ w.toNat * bits)) bits (2 ^ w.toNat)

def packedWrites (d : Reg) (w : Width) (bits : Nat) (es : List Nat) : List (Nat × Word) :=
  regWrites d.toNat (natToWords (2 ^ groupLog (2 ^ w.toNat * bits)) (packElems bits es))

/-- The %xval register n of a block (R203). -/
def State.xval (s : State) (b n : Nat) : Nat :=
  match s.block? b with
  | some k => (Sparse.get 0 k.xval n).toNat
  | none => 0

/-- FCVT (R310, R311). -/
def execFcvt (w : Width) (d a b : Reg) (rnd : Rnd) (dt st : Fmt) (xn : BitVec 4) (s : State) : Out :=
  .next (s.runFlt (.fcvt w d a b rnd dt st xn) (fun _ => dt.isRat || st.isRat) fun s i _ th =>
    let grouped := st == .fp4x || st == .int4g
    let scale := if grouped then (th.reg b.toNat).toNat else 0
    if grouped && (scaleWord (st == .fp4x) scale).isNone then .error (Trap.of cOPERAND 9)
    else
      let m := if st == .int4g then 0 else if dt.isRat then qModeOf th rnd else modeOf th rnd
      let rs := (th.packed a w st.bits).map fun e =>
        let (v, src, fl) := cvtSource st th.fz (s.xval i.block xn.toNat) scale e
        let (r, fl') := cvtDest dt th.fz m v src
        (r, fl ||| fl')
      let (es, fl) := elemResults rs
      .ok ⟨packedWrites d w dt.bits es, [], fl⟩)

/-- The range of an integer type (R312). -/
def intRange : IntTy → Int × Int
  | .s32 => (-(2 ^ 31), 2 ^ 31 - 1)
  | .u32 => (0, 2 ^ 32 - 1)
  | .s64 => (-(2 ^ 63), 2 ^ 63 - 1)
  | .u64 => (0, 2 ^ 64 - 1)

/-- A value as an integer of a type (R312). -/
def toIntElem (lo hi : Int) (m : Nat) (v : FV) : Int × Flags :=
  match v with
  | .nan _ => (0, fIV)
  | .inf neg => (if neg then lo else hi, fIV)
  | .fin neg n d =>
    let (k, exact) := roundUnits n d 0 m neg
    let x := signed neg k
    if x < lo then (lo, fIV) else if hi < x then (hi, fIV) else (x, if exact then 0 else fNX)

def execFcvti (w : Width) (d a : Reg) (rnd : Rnd) (st : Fmt) (it : IntTy) (s : State) : Out :=
  .next (s.runFlt (.fcvti w d a rnd st it) (fun _ => st.isRat) fun _ _ _ th =>
    let (lo, hi) := intRange it
    let rs := (th.packed a w st.bits).map fun e =>
      let (x, fl) := toIntElem lo hi (modeOf th rnd) (cvtSource st th.fz 0 0 e).1
      (wrap x it.bits, fl)
    let (es, fl) := elemResults rs
    .ok ⟨packedWrites d w it.bits es, [], fl⟩)

def execIcvtf (w : Width) (d a : Reg) (rnd : Rnd) (dt : Fmt) (it : IntTy) (s : State) : Out :=
  .next (s.runFlt (.icvtf w d a rnd dt it) (fun _ => dt.isRat) fun _ _ _ th =>
    let m := if dt.isRat then qModeOf th rnd else modeOf th rnd
    let rs := (th.packed a w it.bits).map fun e =>
      let x : Int := match it with
        | .s32 | .s64 => sext e it.bits
        | .u32 | .u64 => (e : Int)
      cvtDest dt th.fz m (.fin (decide (x < 0)) x.natAbs 1) none
    let (es, fl) := elemResults rs
    .ok ⟨packedWrites d w dt.bits es, [], fl⟩)

/-! ## Approximations (R314-R316) -/

/-- An approximation over the FP32 elements of a group. -/
def State.runApprox (s : State) (ins : Instr) (w : Width) (d a : Reg) (op : Approx) : State :=
  s.runElems ins w d [a] .fp32 false false fun th _ xs => ieeeElem fp32 th.fz (fun x => approx op (opd x 0)) xs

def execFrcpa (w : Width) (d a : Reg) (s : State) : Out := .next (s.runApprox (.frcpa w d a) w d a .rcp)
def execFrsqa (w : Width) (d a : Reg) (s : State) : Out := .next (s.runApprox (.frsqa w d a) w d a .rsq)
def execFexp2a (w : Width) (d a : Reg) (s : State) : Out := .next (s.runApprox (.fexp2a w d a) w d a .exp2)
def execFlog2a (w : Width) (d a : Reg) (s : State) : Out := .next (s.runApprox (.flog2a w d a) w d a .log2)
def execFsina (w : Width) (d a : Reg) (s : State) : Out := .next (s.runApprox (.fsina w d a) w d a .sin)
def execFcosa (w : Width) (d a : Reg) (s : State) : Out := .next (s.runApprox (.fcosa w d a) w d a .cos)

/-! ## Rational construction and inspection (R317, R318) -/

/-- QMAKE on one pair of elements. -/
def qmakeElem (q : RqFmt) (m a b : Nat) : Nat × Flags :=
  let x := sext a q.size
  if b = 0 then (if x = 0 then q.indet else q.infinity (decide (x < 0)), 0)
  else q.round m (decide (x < 0)) x.natAbs b

def execQmake (w : Width) (d a b : Reg) (rnd : Rnd) (fmt : Fmt) (s : State) : Out :=
  .next (s.runElems (.qmake w d a b rnd fmt) w d [a, b] fmt false false fun th f xs =>
    qmakeElem (rqOf f) (qModeOf th rnd) (opd xs 0) (opd xs 1))

/-- Numerator with its sign and denominator of a value: ±1/0 for ±∞, 0/0 for indeterminate (R317). -/
def qParts (v : FV) : Int × Nat :=
  match v with
  | .nan _ => (0, 0)
  | .inf neg => (if neg then -1 else 1, 0)
  | .fin neg n d => if n = 0 then (0, 1) else (signed neg n, d)

def execQnum (w : Width) (d a : Reg) (fmt : Fmt) (s : State) : Out :=
  .next (s.runElems (.qnum w d a fmt) w d [a] fmt false false fun _ f xs =>
    let (v, bad) := (rqOf f).decode (opd xs 0)
    (wrap (qParts v).1 (rqOf f).size, if bad then fIV else 0))

def execQden (w : Width) (d a : Reg) (fmt : Fmt) (s : State) : Out :=
  .next (s.runElems (.qden w d a fmt) w d [a] fmt false false fun _ f xs =>
    let (v, bad) := (rqOf f).decode (opd xs 0)
    ((qParts v).2, if bad then fIV else 0))

/-- The mediant of two values (R318). -/
def qMediant (x y : FV) : FV :=
  if x.isNan || y.isNan then .nan 0
  else
    let (a, b) := qParts x
    let (c, e) := qParts y
    let n := a + c
    if b + e = 0 then (if n = 0 then .nan 0 else .inf (decide (n < 0)))
    else .fin (decide (n < 0)) n.natAbs (b + e)

def execQmed (w : Width) (d a b : Reg) (rnd : Rnd) (fmt : Fmt) (s : State) : Out :=
  .next (s.runElems (.qmed w d a b rnd fmt) w d [a, b] fmt false false fun th f xs =>
    ratElem (rqOf f) (qModeOf th rnd) (fun v => (qMediant (opv v 0) (opv v 1), 0)) xs)

def execQcanon (w : Width) (d a : Reg) (fmt : Fmt) (s : State) : Out :=
  .next (s.runElems (.qcanon w d a fmt) w d [a] fmt false false fun _ f xs =>
    ratElem (rqOf f) 0 (fun v => (opv v 0, 0)) xs)

end Sys2Proof.Machine
end

