-- ==== Sys2Proof/Machine/Int.lean ====
section
/-! DEFINITION. Class INT: arithmetic, shifts, logic, selection, moves and predicate logic (R274-R290). -/

namespace Sys2Proof.Machine

/-! ## Arithmetic (R277-R281) -/

def execIadd (w : Width) (d a b : Reg) (s : State) : Out :=
  .next (s.runInt2 (.iadd w d a b) w d a b fun x y => (x + y) % 2 ^ intBits w)

def execIaddImm (w : Width) (d a : Reg) (i : BitVec 8) (s : State) : Out :=
  .next (s.runInt1 (.iaddImm w d a i) w d a fun x => wrap ((x : Int) + sext i.toNat 8) (intBits w))

/-- IADDC (R279): the carry into P[pco]. -/
def execIaddc (w : Width) (d a b : Reg) (pco : PredNo) (pci : Option PredNo) (s : State) : Out :=
  .next (s.runThreads (.iaddc w d a b pco pci) fun th =>
    let ci := match pci with
      | some p => if th.pred p.toNat then 1 else 0
      | none => 0
    let t := th.groupNat a.toNat (2 ^ w.toNat) + th.groupNat b.toNat (2 ^ w.toNat) + ci
    .ok ((th.putInts d w [t % 2 ^ intBits w]).setPred pco.toNat (decide (2 ^ intBits w ≤ t))))

def execIsub (w : Width) (d a b : Reg) (s : State) : Out :=
  .next (s.runInt2 (.isub w d a b) w d a b fun x y => wrap ((x : Int) - y) (intBits w))

def execIsubImm (w : Width) (d a : Reg) (i : BitVec 8) (s : State) : Out :=
  .next (s.runInt1 (.isubImm w d a i) w d a fun x => wrap ((x : Int) - sext i.toNat 8) (intBits w))

def execImul (w : Width) (d a b : Reg) (s : State) : Out :=
  .next (s.runInt2 (.imul w d a b) w d a b fun x y => x * y % 2 ^ intBits w)

def execImulh (w : Width) (d a b : Reg) (s : State) : Out :=
  .next (s.runInt2 (.imulh w d a b) w d a b fun x y => x * y / 2 ^ intBits w)

def execImad (w : Width) (d a b c : Reg) (m : SatMode) (s : State) : Out :=
  .next (s.runInt3 (.imad w d a b c m) w d a b c (imadElem m (intBits w)))

def execIdiv (w : Width) (d a b : Reg) (s : State) : Out :=
  .next (s.runInt2 (.idiv w d a b) w d a b (idivElem (intBits w)))

def execIrem (w : Width) (d a b : Reg) (s : State) : Out :=
  .next (s.runInt2 (.irem w d a b) w d a b (iremElem (intBits w)))

def execIneg (w : Width) (d a : Reg) (s : State) : Out :=
  .next (s.runInt1 (.ineg w d a) w d a fun x => wrap (-(sext x (intBits w))) (intBits w))

def execIabs (w : Width) (d a : Reg) (s : State) : Out :=
  .next (s.runInt1 (.iabs w d a) w d a fun x => (sext x (intBits w)).natAbs % 2 ^ intBits w)

def execImin (w : Width) (d a b : Reg) (s : State) : Out :=
  .next (s.runInt2 (.imin w d a b) w d a b fun x y => if sext x (intBits w) ≤ sext y (intBits w) then x else y)

def execImax (w : Width) (d a b : Reg) (s : State) : Out :=
  .next (s.runInt2 (.imax w d a b) w d a b fun x y => if sext x (intBits w) ≤ sext y (intBits w) then y else x)

def execIdp4 (d a b c : Reg) (sa sb sat : Bool) (s : State) : Out :=
  .next (s.runInt3 (.idp4 d a b c sa sb sat) 0 d a b c (idp4Elem sa sb sat))

/-! ## Shifts, logic and bit operations (R282-R286) -/

def execShl (w : Width) (d a b : Reg) (s : State) : Out :=
  .next (s.runInt2 (.shl w d a b) w d a b (shlElem (intBits w)))

def execShlImm (w : Width) (d a : Reg) (i : BitVec 8) (s : State) : Out :=
  .next (s.runInt1 (.shlImm w d a i) w d a fun x => shlElem (intBits w) x i.toNat)

def execShr (w : Width) (d a b : Reg) (s : State) : Out :=
  .next (s.runInt2 (.shr w d a b) w d a b (shrElem (intBits w)))

def execShrImm (w : Width) (d a : Reg) (i : BitVec 8) (s : State) : Out :=
  .next (s.runInt1 (.shrImm w d a i) w d a fun x => shrElem (intBits w) x i.toNat)

def execSar (w : Width) (d a b : Reg) (s : State) : Out :=
  .next (s.runInt2 (.sar w d a b) w d a b (sarElem (intBits w)))

def execSarImm (w : Width) (d a : Reg) (i : BitVec 8) (s : State) : Out :=
  .next (s.runInt1 (.sarImm w d a i) w d a fun x => sarElem (intBits w) x i.toNat)

def execRol (w : Width) (d a b : Reg) (s : State) : Out :=
  .next (s.runInt2 (.rol w d a b) w d a b (rolElem (intBits w)))

def execRolImm (w : Width) (d a : Reg) (i : BitVec 8) (s : State) : Out :=
  .next (s.runInt1 (.rolImm w d a i) w d a fun x => rolElem (intBits w) x i.toNat)

def execAndReg (w : Width) (d a b : Reg) (s : State) : Out :=
  .next (s.runInt2 (.andReg w d a b) w d a b fun x y => x &&& y)

def execOrReg (w : Width) (d a b : Reg) (s : State) : Out :=
  .next (s.runInt2 (.orReg w d a b) w d a b fun x y => x ||| y)

def execXorReg (w : Width) (d a b : Reg) (s : State) : Out :=
  .next (s.runInt2 (.xorReg w d a b) w d a b fun x y => x ^^^ y)

def execNotReg (w : Width) (d a : Reg) (s : State) : Out :=
  .next (s.runInt1 (.notReg w d a) w d a (notElem (intBits w)))

def execAndn (w : Width) (d a b : Reg) (s : State) : Out :=
  .next (s.runInt2 (.andn w d a b) w d a b fun x y => x &&& notElem (intBits w) y)

/-- The immediate of the logic forms: imm32 extended with its sign to the element (R283). -/
def logicImm (w : Width) (i : Word) : Nat := wrap (sext i.toNat 32) (intBits w)

def execAndImm32 (w : Width) (d a : Reg) (i : Word) (s : State) : Out :=
  .next (s.runInt1 (.andImm32 w d a i) w d a fun x => x &&& logicImm w i)

def execOrImm32 (w : Width) (d a : Reg) (i : Word) (s : State) : Out :=
  .next (s.runInt1 (.orImm32 w d a i) w d a fun x => x ||| logicImm w i)

def execXorImm32 (w : Width) (d a : Reg) (i : Word) (s : State) : Out :=
  .next (s.runInt1 (.xorImm32 w d a i) w d a fun x => x ^^^ logicImm w i)

def execPopc (w : Width) (d a : Reg) (s : State) : Out :=
  .next (s.runInt1 (.popc w d a) w d a (popcElem (intBits w)))

def execClz (w : Width) (d a : Reg) (s : State) : Out :=
  .next (s.runInt1 (.clz w d a) w d a (clzElem (intBits w)))

def execCtz (w : Width) (d a : Reg) (s : State) : Out :=
  .next (s.runInt1 (.ctz w d a) w d a (ctzElem (intBits w)))

def execBrev (w : Width) (d a : Reg) (s : State) : Out :=
  .next (s.runInt1 (.brev w d a) w d a (brevElem (intBits w)))

def execBfx (w : Width) (d a b : Reg) (sg : Bool) (s : State) : Out :=
  .next (s.runInt2 (.bfx w d a b sg) w d a b (bfxElem sg (intBits w)))

def execBfi (w : Width) (d a b c : Reg) (s : State) : Out :=
  .next (s.runInt3 (.bfi w d a b c) w d a b c (bfiElem (intBits w)))

def execPrmb (d a b c : Reg) (s : State) : Out :=
  .next (s.runInt3 (.prmb d a b c) 0 d a b c prmbElem)

/-! ## Selection, comparison and moves (R287-R289) -/

def execIsel (w : Width) (d a b : Reg) (pc : PredNo) (s : State) : Out :=
  .next (s.runThreads (.isel w d a b pc) fun th =>
    .ok (th.setGroup d.toNat (th.group (if th.pred pc.toNat then a else b).toNat (2 ^ w.toNat))))

def execIcmp (w : Width) (pd : PredNo) (a b : Reg) (pc : PredNo) (cond : ICond) (s : State) : Out :=
  .next (s.runThreads (.icmp w pd a b pc cond) fun th =>
    .ok (th.setPred pd.toNat (icmpCond cond (intBits w) (th.groupNat a.toNat (2 ^ w.toNat))
      (th.groupNat b.toNat (2 ^ w.toNat)) && th.pred pc.toNat)))

def execImov (w : Width) (d a : Reg) (s : State) : Out :=
  .next (s.runThreads (.imov w d a) fun th => .ok (th.setGroup d.toNat (th.group a.toNat (2 ^ w.toNat))))

def execMovi (w : Width) (d : Reg) (i : Half) (s : State) : Out :=
  .next (s.runThreads (.movi w d i) fun th => .ok (th.putInts d w [wrap (sext i.toNat 16) (intBits w)]))

/-- MOVHI (R288): the low half of the destination stays. -/
def execMovhi (d : Reg) (i : Half) (s : State) : Out :=
  .next (s.runThreads (.movhi d i) fun th => .ok (th.setReg d.toNat (i ++ (th.reg d.toNat).extractLsb' 0 16)))

def execMoviImm32 (w : Width) (d : Reg) (i : Word) (s : State) : Out :=
  .next (s.runThreads (.moviImm32 w d i) fun th => .ok (th.putInts d w [wrap (sext i.toNat 32) (intBits w)]))

/-- LEA (R289). -/
def execLea (d a b : Reg) (sh : BitVec 3) (u : Bool) (s : State) : Out :=
  .next (s.runThreads (.lea d a b sh u) fun th =>
    let x : Int := if u then ((th.reg b.toNat).toNat : Int) else sext (th.reg b.toNat).toNat 32
    .ok (th.setPair d.toNat (BitVec.ofInt 64 (((th.pair a.toNat).toNat : Int) + x * (2 ^ sh.toNat : Nat)))))

/-! ## Predicate logic (R290) -/

def execPand (pd pa pb : PredNo) (s : State) : Out :=
  .next (s.runThreads (.pand pd pa pb) fun th => .ok (th.setPred pd.toNat (th.pred pa.toNat && th.pred pb.toNat)))

def execPor (pd pa pb : PredNo) (s : State) : Out :=
  .next (s.runThreads (.por pd pa pb) fun th => .ok (th.setPred pd.toNat (th.pred pa.toNat || th.pred pb.toNat)))

def execPxor (pd pa pb : PredNo) (s : State) : Out :=
  .next (s.runThreads (.pxor pd pa pb) fun th => .ok (th.setPred pd.toNat (th.pred pa.toNat != th.pred pb.toNat)))

def execPnot (pd pa : PredNo) (s : State) : Out :=
  .next (s.runThreads (.pnot pd pa) fun th => .ok (th.setPred pd.toNat (!th.pred pa.toNat)))

def execPmov (pd pa : PredNo) (s : State) : Out :=
  .next (s.runThreads (.pmov pd pa) fun th => .ok (th.setPred pd.toNat (th.pred pa.toNat)))

end Sys2Proof.Machine
end

