-- ==== Sys2Proof/Machine/Lane.lean ====
section
/-! DEFINITION. Class LANE: exchanges, votes, reductions and matches over the active lanes of a bundle (R291-R297). -/

namespace Sys2Proof.Machine

/-- An active lane of a LANE instruction: its position and its thread as it stands at issue (R291). -/
structure Active where
  pos : Nat
  th : Thread
  deriving DecidableEq, Repr

/-- The active lanes in ascending position: the clause predicate holds, the lane has reached this instruction, and no
test stops it (R291; log 14). -/
def State.actives (s : State) (ins : Instr) : List Active :=
  match s.issue with
  | none => []
  | some i => sortBy (fun x y => decide (x.pos < y.pos))
      (i.lanes.filterMap fun l =>
        if l.pred && decide (l.start ≤ i.pos) && (s.gate i l ins).isNone then some ⟨l.lane, s.laneThread i l⟩ else none)

/-- The thread of an active position. -/
def activeAt (as : List Active) (p : Nat) : Option Thread := (as.find? fun a => a.pos == p).map (·.th)

/-- A LANE instruction: every source is read at issue, and every result is written later. -/
def State.runLaneOp (s : State) (ins : Instr)
    (f : List Active → Nat → Thread → List (Nat × Word) × List (Nat × Bool) × Flags) : State :=
  let as := s.actives ins
  s.runLong ins fun s i l => .ok (f as l.lane (s.laneThread i l))

/-- The lane's own group or another's, and whether the source lane was active. -/
def takeFrom (th : Thread) (src : Option Thread) (d a : Reg) (w : Width) (po : Nat) :
    List (Nat × Word) × List (Nat × Bool) × Flags :=
  let g := (src.getD th).group a.toNat (2 ^ w.toNat)
  (regWrites d.toNat g, [(po, src.isSome)], 0)

/-- The source index of SHFL within its sub-group (R293). -/
def shflSource (mode : ShflMode) (wrapped : Bool) (w j k : Nat) : Int :=
  let src : Int := match mode with
    | .at => k
    | .below => (j : Int) - k
    | .above => (j : Int) + k
    | .flip => ((j ^^^ k : Nat) : Int)
  if wrapped then src % (w : Int) else src

def execShfl (w : Width) (d a b : Reg) (po : PredNo) (g : BitVec 3) (mode : ShflMode) (wrapped : Bool) (s : State) : Out :=
  .next (s.runLaneOp (.shfl w d a b po g mode wrapped) fun as l th =>
    let n := 2 ^ g.toNat
    let src := shflSource mode wrapped n (l % n) (th.reg b.toNat).toNat
    let from_ := if 0 ≤ src ∧ src < n then activeAt as (l - l % n + src.toNat) else none
    takeFrom th from_ d a w po.toNat)

/-- The mask of the active lanes that satisfy a test. -/
def maskOf (as : List Active) (p : Thread → Bool) : Word :=
  as.foldl (fun m a => if p a.th then setBit m a.pos true else m) 0

def execVote (d a : Reg) (mode : VoteMode) (s : State) : Out :=
  .next (s.runLaneOp (.vote d a mode) fun as l _ =>
    let p := fun (t : Thread) => t.pred a.toNat
    let every := as.all fun x => p x.th
    let some_ := as.any fun x => p x.th
    match mode with
    | .every => ([], [(d.toNat, every)], 0)
    | .some => ([], [(d.toNat, some_)], 0)
    | .same => ([], [(d.toNat, every || !some_)], 0)
    | .mask => (regWrites d.toNat [maskOf as p], [], 0)
    | .live => (regWrites d.toNat [maskOf as fun _ => true], [], 0)
    | .pos => (regWrites d.toNat [BitVec.ofNat 32 l], [], 0))

/-! ## LRED and LSCAN (R295) -/

/-- One combining step on elements of a type. -/
def laneStep (op : LaneOp) (fmt : Fmt) (m : Nat) (a b : Nat) : Nat × Flags :=
  let s := fmt.bits
  let g := fpOf fmt
  match op with
  | .add => ((a + b) % 2 ^ s, 0)
  | .min => (if sext a s ≤ sext b s then a else b, 0)
  | .max => (if sext a s ≤ sext b s then b else a, 0)
  | .minu => (min a b, 0)
  | .maxu => (max a b, 0)
  | .and => (a &&& b, 0)
  | .or => (a ||| b, 0)
  | .xor => (a ^^^ b, 0)
  | .fadd => g.add m a b
  | .fmin => g.minMax false a b
  | .fmax => g.minMax true a b
  | .fminnum => g.minMaxNum false a b
  | .fmaxnum => g.minMaxNum true a b

/-- The identity of an operation. -/
def laneIdentity (op : LaneOp) (fmt : Fmt) : Nat :=
  let s := fmt.bits
  let g := fpOf fmt
  match op with
  | .add | .maxu | .or | .xor => 0
  | .minu | .and => 2 ^ s - 1
  | .min => 2 ^ (s - 1) - 1
  | .max => 2 ^ (s - 1)
  | .fadd => g.withSign true 0
  | .fmin | .fminnum => g.infBits
  | .fmax | .fmaxnum => g.withSign true g.infBits

/-- A left fold with the flags of its steps; the identity where there is nothing. -/
def laneFold (op : LaneOp) (fmt : Fmt) (m : Nat) : List Nat → Nat × Flags
  | [] => (laneIdentity op fmt, 0)
  | x :: l => l.foldl (fun (acc : Nat × Flags) v =>
      let (r, fl) := laneStep op fmt m acc.1 v
      (r, acc.2 ||| fl)) (x, 0)

/-- The fold over the lanes of the sub-group that a predicate on positions keeps. -/
def foldLanes (as : List Active) (l : Nat) (th : Thread) (w : Width) (d a : Reg) (rnd : Rnd) (fmt : Fmt) (op : LaneOp)
    (g : BitVec 3) (keep : Nat → Bool) : List (Nat × Word) × List (Nat × Bool) × Flags :=
  let n := 2 ^ g.toNat
  let grp := as.filter fun x => x.pos / n == l / n && keep x.pos
  let (r, fl) := laneFold op fmt (modeOf th rnd) (grp.map fun x => x.th.groupNat a.toNat (2 ^ w.toNat))
  (regWrites d.toNat (natToWords (2 ^ w.toNat) r), [], fl)

def execLred (w : Width) (d a : Reg) (rnd : Rnd) (fmt : Fmt) (op : LaneOp) (g : BitVec 3) (s : State) : Out :=
  .next (s.runLaneOp (.lred w d a rnd fmt op g) fun as l th =>
    foldLanes as l th w d a rnd fmt op g fun _ => true)

def execLscan (w : Width) (d a : Reg) (rnd : Rnd) (fmt : Fmt) (op : LaneOp) (g : BitVec 3) (ex : Bool) (s : State) : Out :=
  .next (s.runLaneOp (.lscan w d a rnd fmt op g ex) fun as l th =>
    foldLanes as l th w d a rnd fmt op g fun p => if ex then decide (p < l) else decide (p ≤ l))

/-! ## LMATCH, QSWP, QBCAST (R296, R297) -/

def execLmatch (w : Width) (d a : Reg) (s : State) : Out :=
  .next (s.runLaneOp (.lmatch w d a) fun as _ th =>
    let mine := th.groupNat a.toNat (2 ^ w.toNat)
    (regWrites d.toNat [maskOf as fun t => t.groupNat a.toNat (2 ^ w.toNat) == mine], [], 0))

def execQswp (w : Width) (d a : Reg) (m : BitVec 2) (po : PredNo) (s : State) : Out :=
  .next (s.runLaneOp (.qswp w d a m po) fun as l th =>
    takeFrom th (activeAt as (l - l % 4 + (l % 4 ^^^ m.toNat))) d a w po.toNat)

def execQbcast (w : Width) (d a : Reg) (k : BitVec 2) (po : PredNo) (s : State) : Out :=
  .next (s.runLaneOp (.qbcast w d a k po) fun as l th =>
    takeFrom th (activeAt as (l - l % 4 + k.toNat)) d a w po.toNat)

end Sys2Proof.Machine
end

