-- ==== Sys2Proof/Machine/Dispatch.lean ====
section
/-! DEFINITION. The meaning of every instruction and device step: one arm per constructor, one direct call each. -/

namespace Sys2Proof.Machine

/-- The meaning of an instruction or a device step. -/
def exec (i : Instr) (s : State) : Host.Outcome State Fault Refusal :=
  match i with
  -- package, bring-up, power, loss (R15-R27)
  | .unitJoin u => Sys2Proof.Machine.execUnitJoin u s
  | .unitJoinTimeout u => Sys2Proof.Machine.execUnitJoinTimeout u s
  | .hlinkTrain link ok => Sys2Proof.Machine.execHlinkTrain link ok s
  | .fportTrain port ok peer => Sys2Proof.Machine.execFportTrain port ok peer s
  | .powerCapEnforce watts => Sys2Proof.Machine.execPowerCapEnforce watts s
  | .thermalThrottle die => Sys2Proof.Machine.execThermalThrottle die s
  | .thermalGate die => Sys2Proof.Machine.execThermalGate die s
  | .thermalRestore die => Sys2Proof.Machine.execThermalRestore die s
  | .stackLost n => Sys2Proof.Machine.execStackLost n s
  | .computeDieLost d => Sys2Proof.Machine.execComputeDieLost d s
  | .edgeDieLost e => Sys2Proof.Machine.execEdgeDieLost e s
  | .hlinkLost link => Sys2Proof.Machine.execHlinkLost link s
  -- board management (R28-R30)
  | .pcap watts => Sys2Proof.Machine.execPcap watts s
  | .fwchunk off bytes => Sys2Proof.Machine.execFwchunk off bytes s
  | .attest nonce => Sys2Proof.Machine.execAttest nonce s
  | .i3cUnassignedCommand code => Sys2Proof.Machine.execI3cUnassignedCommand code s
  -- fabric (R31-R50)
  | .fabidWrite v => Sys2Proof.Machine.execFabidWrite v s
  | .routeEntryWrite id v => Sys2Proof.Machine.execRouteEntryWrite id v s
  | .ldq m => Sys2Proof.Machine.execLdq m s
  | .lda m => Sys2Proof.Machine.execLda m s
  | .stq m => Sys2Proof.Machine.execStq m s
  | .sta m => Sys2Proof.Machine.execSta m s
  | .atq m => Sys2Proof.Machine.execAtq m s
  | .ata m => Sys2Proof.Machine.execAta m s
  | .sig m => Sys2Proof.Machine.execSig m s
  | .mcs m => Sys2Proof.Machine.execMcs m s
  | .mca m => Sys2Proof.Machine.execMca m s
  | .cpw m => Sys2Proof.Machine.execCpw m s
  | .ivq m => Sys2Proof.Machine.execIvq m s
  | .ivo m => Sys2Proof.Machine.execIvo m s
  | .hpl m => Sys2Proof.Machine.execHpl m s
  | .hrs m => Sys2Proof.Machine.execHrs m s
  | .hbk m => Sys2Proof.Machine.execHbk m s
  | .nak m => Sys2Proof.Machine.execNak m s
  | .messageForward m => Sys2Proof.Machine.execMessageForward m s
  | .flitReplay port => Sys2Proof.Machine.execFlitReplay port s
  | .flowStop port vc => Sys2Proof.Machine.execFlowStop port vc s
  | .flowGo port vc => Sys2Proof.Machine.execFlowGo port vc s
  | .crossDeviceFold grid page => Sys2Proof.Machine.execCrossDeviceFold grid page s
  -- host registers (R53-R59)
  | .registerWrite off v => Sys2Proof.Machine.execRegisterWrite off v s
  | .tenantEnWrite t v => Sys2Proof.Machine.execTenantEnWrite t v s
  | .wideEntryLowWrite t off v => Sys2Proof.Machine.execWideEntryLowWrite t off v s
  | .wideEntryHighWrite t off v => Sys2Proof.Machine.execWideEntryHighWrite t off v s
  | .mpshareWrite t v => Sys2Proof.Machine.execMpshareWrite t v s
  | .slshareWrite t v => Sys2Proof.Machine.execSlshareWrite t v s
  | .poolBaseWrite size v => Sys2Proof.Machine.execPoolBaseWrite size v s
  | .imaskWrite t v => Sys2Proof.Machine.execImaskWrite t v s
  | .hostApertureLoad t off n => Sys2Proof.Machine.execHostApertureLoad t off n s
  | .hostApertureStore t off bytes => Sys2Proof.Machine.execHostApertureStore t off bytes s
  | .hostLineInvalidate addr bytes => Sys2Proof.Machine.execHostLineInvalidate addr bytes s
  -- translation (R60-R66)
  | .tableWalk t va acc => Sys2Proof.Machine.execTableWalk t va acc s
  | .tlbinvAll t => Sys2Proof.Machine.execTlbinvAll t s
  | .tlbinvSpan t span vpage => Sys2Proof.Machine.execTlbinvSpan t span vpage s
  | .tlbinvComplete t => Sys2Proof.Machine.execTlbinvComplete t s
  -- queues and the fault queue (R68-R75)
  | .queueControlWrite t q v => Sys2Proof.Machine.execQueueControlWrite t q v s
  | .notify t v => Sys2Proof.Machine.execNotify t v s
  | .launchRecordRead t q => Sys2Proof.Machine.execLaunchRecordRead t q s
  | .qtlWrite t q k v => Sys2Proof.Machine.execQtlWrite t q k v s
  | .launchStart t q => Sys2Proof.Machine.execLaunchStart t q s
  | .launchComplete grid => Sys2Proof.Machine.execLaunchComplete grid s
  | .fqbaseWrite t v => Sys2Proof.Machine.execFqbaseWrite t v s
  | .fqControlWrite t v => Sys2Proof.Machine.execFqControlWrite t v s
  | .fqheadWrite t v => Sys2Proof.Machine.execFqheadWrite t v s
  | .resume t seq => Sys2Proof.Machine.execResume t seq s
  | .kill t q => Sys2Proof.Machine.execKill t q s
  -- dispatch, pre-emption, turns (R76-R94)
  | .qsuspWrite t v => Sys2Proof.Machine.execQsuspWrite t v s
  | .blockSave block => Sys2Proof.Machine.execBlockSave block s
  | .blockRestore block => Sys2Proof.Machine.execBlockRestore block s
  | .governorRound core => Sys2Proof.Machine.execGovernorRound core s
  | .turnBoundary grid => Sys2Proof.Machine.execTurnBoundary grid s
  -- views, handles, speculation (R95-R136)
  | .viewpoolDeadlock t => Sys2Proof.Machine.execViewpoolDeadlock t s
  | .childComplete block => Sys2Proof.Machine.execChildComplete block s
  | .joinCheck at_ => Sys2Proof.Machine.execJoinCheck at_ s
  | .joinApply at_ => Sys2Proof.Machine.execJoinApply at_ s
  | .vdropComplete at_ => Sys2Proof.Machine.execVdropComplete at_ s
  | .taskComplete grid => Sys2Proof.Machine.execTaskComplete grid s
  | .sluiceTimeout block thread => Sys2Proof.Machine.execSluiceTimeout block thread s
  | .specSlotTimeout block => Sys2Proof.Machine.execSpecSlotTimeout block s
  | .specCheck block => Sys2Proof.Machine.execSpecCheck block s
  | .specCommit block => Sys2Proof.Machine.execSpecCommit block s
  | .specRestore block => Sys2Proof.Machine.execSpecRestore block s
  -- issue, matrix, blocks, waits, engines (R140-R172, R227, R235, R257, R339-R355)
  | .clauseIssue core bundle => Sys2Proof.Machine.execClauseIssue core bundle s
  | .bundleDraw core bin => Sys2Proof.Machine.execBundleDraw core bin s
  | .boltDrain core bin => Sys2Proof.Machine.execBoltDrain core bin s
  | .resultWriteback pending => Sys2Proof.Machine.execResultWriteback pending s
  | .matrixPassGrant wheel => Sys2Proof.Machine.execMatrixPassGrant wheel s
  | .matrixEntryAged wheel entry => Sys2Proof.Machine.execMatrixEntryAged wheel entry s
  | .matrixPassComplete wheel => Sys2Proof.Machine.execMatrixPassComplete wheel s
  | .blockComplete block => Sys2Proof.Machine.execBlockComplete block s
  | .lineEviction core index => Sys2Proof.Machine.execLineEviction core index s
  | .barrierTimeout w => Sys2Proof.Machine.execBarrierTimeout w s
  | .rwaitTimeout block tag => Sys2Proof.Machine.execRwaitTimeout block tag s
  | .copyComplete op => Sys2Proof.Machine.execCopyComplete op s
  | .engineAbandon op => Sys2Proof.Machine.execEngineAbandon op s
  | .nbgemvComplete op => Sys2Proof.Machine.execNbgemvComplete op s
  -- class INT (R276)
  | .iadd w d a b => Sys2Proof.Machine.execIadd w d a b s
  | .iaddImm w d a imm => Sys2Proof.Machine.execIaddImm w d a imm s
  | .iaddc w d a b pco pci => Sys2Proof.Machine.execIaddc w d a b pco pci s
  | .isub w d a b => Sys2Proof.Machine.execIsub w d a b s
  | .isubImm w d a imm => Sys2Proof.Machine.execIsubImm w d a imm s
  | .imul w d a b => Sys2Proof.Machine.execImul w d a b s
  | .imulh w d a b => Sys2Proof.Machine.execImulh w d a b s
  | .imad w d a b c m => Sys2Proof.Machine.execImad w d a b c m s
  | .idiv w d a b => Sys2Proof.Machine.execIdiv w d a b s
  | .irem w d a b => Sys2Proof.Machine.execIrem w d a b s
  | .ineg w d a => Sys2Proof.Machine.execIneg w d a s
  | .iabs w d a => Sys2Proof.Machine.execIabs w d a s
  | .imin w d a b => Sys2Proof.Machine.execImin w d a b s
  | .imax w d a b => Sys2Proof.Machine.execImax w d a b s
  | .idp4 d a b c sa sb sat => Sys2Proof.Machine.execIdp4 d a b c sa sb sat s
  | .shl w d a b => Sys2Proof.Machine.execShl w d a b s
  | .shlImm w d a imm => Sys2Proof.Machine.execShlImm w d a imm s
  | .shr w d a b => Sys2Proof.Machine.execShr w d a b s
  | .shrImm w d a imm => Sys2Proof.Machine.execShrImm w d a imm s
  | .sar w d a b => Sys2Proof.Machine.execSar w d a b s
  | .sarImm w d a imm => Sys2Proof.Machine.execSarImm w d a imm s
  | .rol w d a b => Sys2Proof.Machine.execRol w d a b s
  | .rolImm w d a imm => Sys2Proof.Machine.execRolImm w d a imm s
  | .andReg w d a b => Sys2Proof.Machine.execAndReg w d a b s
  | .orReg w d a b => Sys2Proof.Machine.execOrReg w d a b s
  | .xorReg w d a b => Sys2Proof.Machine.execXorReg w d a b s
  | .notReg w d a => Sys2Proof.Machine.execNotReg w d a s
  | .andn w d a b => Sys2Proof.Machine.execAndn w d a b s
  | .andImm32 w d a imm => Sys2Proof.Machine.execAndImm32 w d a imm s
  | .orImm32 w d a imm => Sys2Proof.Machine.execOrImm32 w d a imm s
  | .xorImm32 w d a imm => Sys2Proof.Machine.execXorImm32 w d a imm s
  | .popc w d a => Sys2Proof.Machine.execPopc w d a s
  | .clz w d a => Sys2Proof.Machine.execClz w d a s
  | .ctz w d a => Sys2Proof.Machine.execCtz w d a s
  | .brev w d a => Sys2Proof.Machine.execBrev w d a s
  | .bfx w d a b signed => Sys2Proof.Machine.execBfx w d a b signed s
  | .bfi w d a b c => Sys2Proof.Machine.execBfi w d a b c s
  | .prmb d a b c => Sys2Proof.Machine.execPrmb d a b c s
  | .isel w d a b pc => Sys2Proof.Machine.execIsel w d a b pc s
  | .icmp w pd a b pc cond => Sys2Proof.Machine.execIcmp w pd a b pc cond s
  | .imov w d a => Sys2Proof.Machine.execImov w d a s
  | .movi w d imm => Sys2Proof.Machine.execMovi w d imm s
  | .movhi d imm => Sys2Proof.Machine.execMovhi d imm s
  | .moviImm32 w d imm => Sys2Proof.Machine.execMoviImm32 w d imm s
  | .lea d a b sh u => Sys2Proof.Machine.execLea d a b sh u s
  | .pand pd pa pb => Sys2Proof.Machine.execPand pd pa pb s
  | .por pd pa pb => Sys2Proof.Machine.execPor pd pa pb s
  | .pxor pd pa pb => Sys2Proof.Machine.execPxor pd pa pb s
  | .pnot pd pa => Sys2Proof.Machine.execPnot pd pa s
  | .pmov pd pa => Sys2Proof.Machine.execPmov pd pa s
  -- class FLT (R301)
  | .fadd w d a b rnd fmt x2 => Sys2Proof.Machine.execFadd w d a b rnd fmt x2 s
  | .fsub w d a b rnd fmt x2 => Sys2Proof.Machine.execFsub w d a b rnd fmt x2 s
  | .fmul w d a b rnd fmt x2 => Sys2Proof.Machine.execFmul w d a b rnd fmt x2 s
  | .ffma w d a b c rnd fmt x2 => Sys2Proof.Machine.execFfma w d a b c rnd fmt x2 s
  | .fdiv w d a b rnd fmt x2 => Sys2Proof.Machine.execFdiv w d a b rnd fmt x2 s
  | .fsqrt w d a rnd fmt x2 => Sys2Proof.Machine.execFsqrt w d a rnd fmt x2 s
  | .fmin w d a b fmt x2 => Sys2Proof.Machine.execFmin w d a b fmt x2 s
  | .fmax w d a b fmt x2 => Sys2Proof.Machine.execFmax w d a b fmt x2 s
  | .fminnum w d a b fmt x2 => Sys2Proof.Machine.execFminnum w d a b fmt x2 s
  | .fmaxnum w d a b fmt x2 => Sys2Proof.Machine.execFmaxnum w d a b fmt x2 s
  | .fcmp w pd a b pc fmt cond => Sys2Proof.Machine.execFcmp w pd a b pc fmt cond s
  | .fclass w d a fmt => Sys2Proof.Machine.execFclass w d a fmt s
  | .fabs w d a fmt x2 => Sys2Proof.Machine.execFabs w d a fmt x2 s
  | .fneg w d a fmt x2 => Sys2Proof.Machine.execFneg w d a fmt x2 s
  | .fcopysign w d a b fmt x2 => Sys2Proof.Machine.execFcopysign w d a b fmt x2 s
  | .frint w d a rnd fmt x2 nx => Sys2Proof.Machine.execFrint w d a rnd fmt x2 nx s
  | .fscale w d a b rnd fmt x2 => Sys2Proof.Machine.execFscale w d a b rnd fmt x2 s
  | .fgetexp w d a fmt x2 => Sys2Proof.Machine.execFgetexp w d a fmt x2 s
  | .fcvt w d a b rnd dt st xn => Sys2Proof.Machine.execFcvt w d a b rnd dt st xn s
  | .fcvti w d a rnd st it => Sys2Proof.Machine.execFcvti w d a rnd st it s
  | .icvtf w d a rnd dt it => Sys2Proof.Machine.execIcvtf w d a rnd dt it s
  | .frcpa w d a => Sys2Proof.Machine.execFrcpa w d a s
  | .frsqa w d a => Sys2Proof.Machine.execFrsqa w d a s
  | .fexp2a w d a => Sys2Proof.Machine.execFexp2a w d a s
  | .flog2a w d a => Sys2Proof.Machine.execFlog2a w d a s
  | .fsina w d a => Sys2Proof.Machine.execFsina w d a s
  | .fcosa w d a => Sys2Proof.Machine.execFcosa w d a s
  | .qmake w d a b rnd fmt => Sys2Proof.Machine.execQmake w d a b rnd fmt s
  | .qnum w d a fmt => Sys2Proof.Machine.execQnum w d a fmt s
  | .qden w d a fmt => Sys2Proof.Machine.execQden w d a fmt s
  | .qmed w d a b rnd fmt => Sys2Proof.Machine.execQmed w d a b rnd fmt s
  | .qcanon w d a fmt => Sys2Proof.Machine.execQcanon w d a fmt s
  -- class MEM (R320)
  | .ld w d a off pol fresh fmt size sx => Sys2Proof.Machine.execLd w d a off pol fresh fmt size sx s
  | .st w d a off rnd pol fresh fmt size => Sys2Proof.Machine.execSt w d a off rnd pol fresh fmt size s
  | .lds w d a off => Sys2Proof.Machine.execLds w d a off s
  | .sts w d a off => Sys2Proof.Machine.execSts w d a off s
  | .ldc w d a off => Sys2Proof.Machine.execLdc w d a off s
  | .stc w d a off => Sys2Proof.Machine.execStc w d a off s
  | .ldm w d a off => Sys2Proof.Machine.execLdm w d a off s
  | .stm w d a off => Sys2Proof.Machine.execStm w d a off s
  | .atom w d a b c scope op fmt nf ord uns => Sys2Proof.Machine.execAtom w d a b c scope op fmt nf ord uns s
  | .atoms w d a b c scope op fmt ord uns => Sys2Proof.Machine.execAtoms w d a b c scope op fmt ord uns s
  | .red w a b scope op fmt uns => Sys2Proof.Machine.execRed w a b scope op fmt uns s
  | .fence kind scope => Sys2Proof.Machine.execFence kind scope s
  | .discard a n => Sys2Proof.Machine.execDiscard a n s
  | .pref a off pol => Sys2Proof.Machine.execPref a off pol s
  | .stmc w d a b => Sys2Proof.Machine.execStmc w d a b s
  -- class CTL (R254)
  | .bra imm => Sys2Proof.Machine.execBra imm s
  | .bri a => Sys2Proof.Machine.execBri a s
  | .call d imm => Sys2Proof.Machine.execCall d imm s
  | .calli d a => Sys2Proof.Machine.execCalli d a s
  | .ret a => Sys2Proof.Machine.execRet a s
  | .bar imm => Sys2Proof.Machine.execBar imm s
  | .cbar imm => Sys2Proof.Machine.execCbar imm s
  | .fork a imm => Sys2Proof.Machine.execFork a imm s
  | .invoke d a b c n => Sys2Proof.Machine.execInvoke d a b c n s
  | .invokeOn d a b c n => Sys2Proof.Machine.execInvokeOn d a b c n s
  | .await d a pb trap => Sys2Proof.Machine.execAwait d a pb trap s
  | .hpoll d a => Sys2Proof.Machine.execHpoll d a s
  | .hdrop a => Sys2Proof.Machine.execHdrop a s
  | .spec a => Sys2Proof.Machine.execSpec a s
  | .bolt d a imm => Sys2Proof.Machine.execBolt d a imm s
  -- class ENG (R337)
  | .cpy d a st tb p => Sys2Proof.Machine.execCpy d a st tb p s
  | .cpyg d a tb p => Sys2Proof.Machine.execCpyg d a tb p s
  | .cpys d a tb p => Sys2Proof.Machine.execCpys d a tb p s
  | .cpyr d a ss tb p => Sys2Proof.Machine.execCpyr d a ss tb p s
  | .tbinit a imm => Sys2Proof.Machine.execTbinit a imm s
  | .tbarrive d a => Sys2Proof.Machine.execTbarrive d a s
  | .tbexpect a b => Sys2Proof.Machine.execTbexpect a b s
  | .tbwait pd a b => Sys2Proof.Machine.execTbwait pd a b s
  | .tbtest d a b => Sys2Proof.Machine.execTbtest d a b s
  | .tlwait a k => Sys2Proof.Machine.execTlwait a k s
  | .tlread d k => Sys2Proof.Machine.execTlread d k s
  | .tladd a k => Sys2Proof.Machine.execTladd a k s
  | .mma p => Sys2Proof.Machine.execMma p s
  | .accrd w d a m fmt => Sys2Proof.Machine.execAccrd w d a m fmt s
  | .accwr w d a m fmt => Sys2Proof.Machine.execAccwr w d a m fmt s
  | .accz m pair => Sys2Proof.Machine.execAccz m pair s
  | .nbgemv d a tb p => Sys2Proof.Machine.execNbgemv d a tb p s
  | .rng w d kind => Sys2Proof.Machine.execRng w d kind s
  -- class LANE (R292)
  | .shfl w d a b po g mode wrap => Sys2Proof.Machine.execShfl w d a b po g mode wrap s
  | .vote d a mode => Sys2Proof.Machine.execVote d a mode s
  | .lred w d a rnd fmt op g => Sys2Proof.Machine.execLred w d a rnd fmt op g s
  | .lscan w d a rnd fmt op g ex => Sys2Proof.Machine.execLscan w d a rnd fmt op g ex s
  | .lmatch w d a => Sys2Proof.Machine.execLmatch w d a s
  | .qswp w d a m po => Sys2Proof.Machine.execQswp w d a m po s
  | .qbcast w d a k po => Sys2Proof.Machine.execQbcast w d a k po s
  -- class SYS (R337)
  | .srd w d r => Sys2Proof.Machine.execSrd w d r s
  | .swr w d r => Sys2Proof.Machine.execSwr w d r s
  | .trap imm => Sys2Proof.Machine.execTrap imm s
  | .bkpt imm => Sys2Proof.Machine.execBkpt imm s
  | .cctl a off op => Sys2Proof.Machine.execCctl a off op s
  | .clock d => Sys2Proof.Machine.execClock d s
  -- the steps listed last in the table (R18, R21, R28, R42, R173)
  | .dynamicAddressAssignment addr => Sys2Proof.Machine.execDynamicAddressAssignment addr s
  | .flitAcknowledge port n => Sys2Proof.Machine.execFlitAcknowledge port n s
  -- the rows without operands, last (of every class above)
  | .deviceReset => Sys2Proof.Machine.execDeviceReset s
  | .fullServiceRequest => Sys2Proof.Machine.execFullServiceRequest s
  | .fullServiceSwitch => Sys2Proof.Machine.execFullServiceSwitch s
  | .thermtrip => Sys2Proof.Machine.execThermtrip s
  | .refclkOutOfTolerance => Sys2Proof.Machine.execRefclkOutOfTolerance s
  | .telem => Sys2Proof.Machine.execTelem s
  | .caps => Sys2Proof.Machine.execCaps s
  | .fwcommit => Sys2Proof.Machine.execFwcommit s
  | .fwstatus => Sys2Proof.Machine.execFwstatus s
  | .dispatchStep => Sys2Proof.Machine.execDispatchStep s
  | .priorityPreempt => Sys2Proof.Machine.execPriorityPreempt s
  | .exit => Sys2Proof.Machine.execExit s
  | .nop => Sys2Proof.Machine.execNop s
  | .yield => Sys2Proof.Machine.execYield s
  | .reform => Sys2Proof.Machine.execReform s
  | .rwait => Sys2Proof.Machine.execRwait s
  | .join => Sys2Proof.Machine.execJoin s
  | .vdrop => Sys2Proof.Machine.execVdrop s
  | .specend => Sys2Proof.Machine.execSpecend s
  | .eret => Sys2Proof.Machine.execEret s
  | .deviceResetAssert => Sys2Proof.Machine.execDeviceResetAssert s
  | .refclkInTolerance => Sys2Proof.Machine.execRefclkInTolerance s
  | .inBandInterruptAccept => Sys2Proof.Machine.execInBandInterruptAccept s
  | .hostStoreAcknowledge => Sys2Proof.Machine.execHostStoreAcknowledge s

end Sys2Proof.Machine
end

