-- ==== Sys2Proof/Machine/Step.lean ====
section
/-! DEFINITION. One step of the machine: an event from outside, the next instruction of the clause being issued, or a step
that the device takes of its own accord. -/

namespace Sys2Proof.Machine

/-- What follows every step (log 4). -/
def after (o : Host.Outcome State Fault Refusal) : Host.Outcome State Fault Refusal :=
  match o with
  | .next s => .next s.finishStep
  | .fault f => .fault f
  | .refused r => .refused r

/-- A step of the device's own accord; none is due in a machine that stands still or is held in reset (R18). -/
def stepOwn (s : State) : Host.Outcome State Fault Refusal :=
  if s.pkg.inReset then .next s
  else match s.pickEvent exec with
    | some (i, due) => exec i { s.tick with due := due }
    | none => .next s

/-- The next instruction of the clause being issued, or the trap of a word that is none (R235, R242). While a join holds what it
writes, other steps go first (R107). -/
def stepIssue (i : Issue) (s : State) : Host.Outcome State Fault Refusal :=
  match i.decodeNext with
  | .ok ins _ => if s.allows exec ins then exec ins s else stepOwn s
  | .illegal cause word => .next (s.trapWord i cause word)

/-- One step. -/
def step (s : State) : Host.Outcome State Fault Refusal :=
  match s.nextInput exec with
  | some (i, rest) => after (exec i { s with inputs := rest })
  | none => match s.issue with
    | some i => after (stepIssue i s)
    | none => after (stepOwn s)

/-- The machine about to run the instruction whose bits are w, numbered as the operation table numbers them. A machine
without a thread fetches nothing, so the block, its bundle and the clause that it has fetched are placed (log 31). -/
def State.withFetchWord (s : State) (nbits w : Nat) : State :=
  s.placeClause (tableClass nbits w) (tableWords (tableClass nbits w) nbits w)

end Sys2Proof.Machine
end

