-- ==== Sys2Proof/Safety.lean ====
section
/-! DEFINITION. What counts as a safe step and a safe run, the invariants that claims speak of, and the frames in which
claims say what an instruction changes and what it leaves alone. -/

namespace Sys2Proof.Machine

/-! ## Runs and invariants -/

/-- A step that neither faults nor is refused. -/
def Steps (s s' : State) : Prop := step s = .next s'

/-- Device memory, host memory, every scratchpad, what other cores see of it within a turn, and every scratchpad saved by a
SPEC are in canonical form. -/
def State.memWf (s : State) : Prop :=
  Memory.wf s.mem = true ∧ Memory.wf s.hostMem = true
  ∧ ∀ e ∈ s.blocks, Memory.wf e.2.scratch = true ∧ Memory.wf e.2.wasScratch = true
      ∧ ∀ w ∈ e.2.specs, Memory.wf w.checkpoint.scratch = true

/-! ## The clause being issued -/

/-- A clause of block k is being issued: its lanes are distinct threads of the block, its bundle is one of the block, and
the table of cores is in canonical form. Every clause that CLAUSE_ISSUE begins stands so. -/
structure Issuing (s : State) (i : Issue) (k : Block) : Prop where
  clause : s.issue = some i
  block : s.block? i.block = some k
  lanes : (i.lanes.map (·.tid)).Nodup
  within : ∀ l ∈ i.lanes, l.tid < k.T
  bundle : ∀ u, s.bundle? i.core i.bundle = some u → u.block = i.block
  cores : Sparse.wf Core.reset s.cores = true

/-- Whether a thread is a lane of the clause that has reached this word of it. -/
def Issue.reaches (i : Issue) (tid : Nat) : Bool := i.lanes.any fun l => l.tid == tid && decide (l.start ≤ i.pos)

/-- Whether a thread executes the instruction at this word: it has reached it, and the clause predicate holds. -/
def Issue.runs (i : Issue) (tid : Nat) : Bool := i.lanes.any fun l => l.tid == tid && l.pred && decide (l.start ≤ i.pos)

/-- No lane that has reached the instruction fails one of the tests 6 to 9 of R242 or the ceiling of R91. -/
def State.passes (s : State) (i : Issue) (ins : Instr) : Prop :=
  ∀ l ∈ i.lanes, l.start ≤ i.pos → s.gate i l ins = none

/-! ## Frames -/

/-- The same but for where a thread stands, whether it is stopped at its quota, its counts of instructions retired, what
it has already done of the instruction at which it stands, and the completion flags that its clause still owed it. -/
def Thread.same (a b : Thread) : Prop :=
  b = { a with pc := b.pc, clpos := b.clpos, keep := b.keep, status := b.status, retired := b.retired, turnRetired := b.turnRetired
               released := b.released, pages := b.pages, captured := b.captured, owed := b.owed, flags := b.flags }
  ∧ (∀ f, f ∉ a.owed → b.flag f = a.flag f) ∧ ∀ f ∈ b.owed, f ∈ a.owed

/-- The same but that a running thread may have stopped at its quota. -/
def Thread.rests (a b : Thread) : Prop := b = { a with status := b.status } ∧ (a.status ≠ .running → b = a)

/-- The same but for its threads, of which there are as many, and the places of its quads. -/
def Block.same (a b : Block) : Prop := b = { a with threads := b.threads, quads := b.quads } ∧ b.T = a.T

/-- The same but for its bins, bundles and rotation: no line of its cache, no buffered reduction has changed. -/
def Core.same (a b : Core) : Prop := b = { a with bins := b.bins, bundles := b.bundles, rotation := b.rotation }

/-- What an instruction changes that acts on the threads of its own block alone: nothing outside the block but the places
of quads and the clause under way; device memory, host memory, caches, tenants, grids, the fabric and every other
block stand as they were. -/
structure Within (b : Nat) (s t : State) : Prop where
  outside : t = { s with blocks := t.blocks, cores := t.cores, issue := t.issue }
  others : ∀ x, x ≠ b → t.block? x = s.block? x
  cores : ∀ c, Core.same (s.core c) (t.core c)

/-- A block whose threads that execute the instruction have become f of what they were, and that is the same otherwise. -/
def Block.became (k : Block) (i : Issue) (f : Nat → Thread → Thread) (k' : Block) : Prop :=
  k' = { k with threads := k'.threads } ∧ k'.T = k.T
  ∧ ∀ tid, k'.thread tid = if i.runs tid then f tid (k.thread tid) else k.thread tid

/-- An instruction of n words ran over its lanes: each thread that executes it became f of what it was, and then the lanes
passed it. A thread of the block that is no lane of the clause stands as it was, and nothing else has changed. -/
structure Ran (s : State) (i : Issue) (k : Block) (n : Nat) (f : Nat → Thread → Thread) (t : State) : Prop where
  within : Within i.block s t
  block : ∃ k', t.block? i.block = some k' ∧ Block.same k k' ∧ ∀ tid,
    Thread.same (if i.runs tid then f tid (k.thread tid) else k.thread tid) (k'.thread tid)
    ∧ ((∀ l ∈ i.lanes, l.tid ≠ tid) → Thread.rests (k.thread tid) (k'.thread tid))
  ends : ∃ (u : State) (k' : Block), t = u.afterInstr n ∧ u = { s with blocks := u.blocks } ∧ (∀ x, x ≠ i.block → u.block? x = s.block? x)
    ∧ u.block? i.block = some k' ∧ k.became i f k'

/-- An instruction of the clause being issued that passes the tests completes, and every thread that executes it becomes f
of what it was. -/
def Computes (s : State) (i : Issue) (k : Block) (ins : Instr) (f : Thread → Thread) : Prop :=
  s.passes i ins → ∃ t, exec ins s = .next t ∧ Ran s i k (wordsOf ins) (fun _ => f) t

/-! ## What passing an instruction leaves -/

/-- A thread that has not passed the instruction, or has: one instruction more is retired, and what it had done of it is over. -/
def Thread.passed (th : Thread) (reached : Bool) : Thread :=
  if reached then
    { th with retired := th.retired + 1, turnRetired := th.turnRetired + 1, released := false, pages := [], captured := [] }
  else th

/-- Whether a thread that stood thus may have stopped at the quota of a turn, and in nothing else differs (R86). -/
def Thread.maybeStopped (g : Option Grid) (a b : Thread) : Prop :=
  b = a ∨ ∃ x, g = some x ∧ x.dl ≠ 0 ∧ a.status = .running ∧ a.clpos = 0 ∧ x.quota ≤ a.turnRetired ∧ b = { a with status := .quota }

/-- A lane that has come to the end of its clause: it stands at the next clause, and outside a handler the flags that the
clause owed it are owed no longer, and are set but where a pending result still reports to them. -/
structure State.Ended (s : State) (i : Issue) (tid : Nat) (a b : Thread) : Prop where
  place : b = { a with pc := i.next, clpos := 0, keep := false, owed := b.owed, flags := b.flags }
  owed : b.owed = if a.hm then a.owed else []
  flags : ∀ f, b.flag f = (a.flag f || (!a.hm && a.owed.contains f
    && !(s.pending.any fun p => p.block == i.block && p.tid == tid && p.flag == f)))

/-- What State.afterInstr leaves after an instruction of n words of the clause i: the clause stands n words on, or has ended
with its lanes at the next clause, and each lane that had reached the instruction has retired exactly one more. -/
structure Advanced (s : State) (i : Issue) (k : Block) (n : Nat) (t : State) : Prop where
  goesOn : i.pos + n ≤ i.header.n.toNat →
    t = { s with blocks := t.blocks, issue := some { i with pos := i.pos + n } }
    ∧ ∃ k', t.block? i.block = some k' ∧ k' = { k with threads := k'.threads } ∧ k'.T = k.T
      ∧ ∀ tid < k.T, k'.thread tid = (k.thread tid).passed (i.reaches tid)
  ends : i.header.n.toNat < i.pos + n →
    t.issue = none
    ∧ ∃ k', t.block? i.block = some k' ∧ Block.same k k'
      ∧ (∀ tid < k.T, (∀ l ∈ i.lanes, l.tid ≠ tid) → Thread.maybeStopped (s.gridOf i.block) (k.thread tid) (k'.thread tid))
      ∧ ∀ l ∈ i.lanes, ∃ th, s.Ended i l.tid ((k.thread l.tid).passed (decide (l.start ≤ i.pos))) th
          ∧ Thread.maybeStopped (s.gridOf i.block) th (k'.thread l.tid)

/-! ## Instructions that do more than change their own threads -/

/-- What some lanes of a clause do to the machine, one after another, where they execute the instruction. -/
def State.upTo (s : State) (i : Issue) (f : State → Lane → State) (ls : List Lane) : State :=
  ls.foldl (fun s l => if l.start ≤ i.pos ∧ l.pred = true then f s l else s) s

/-- What the lanes that execute an instruction do to the machine, one after another in ascending order. -/
def State.inLanes (s : State) (i : Issue) (f : State → Lane → State) : State := s.upTo i f i.lanes

/-- Every lane passes the tests of R242 when its turn comes, and P holds there of every lane that executes. -/
def Along (i : Issue) (ins : Instr) (P : State → Lane → Prop) (f : State → Lane → State) : List Lane → State → Prop
  | [], _ => True
  | l :: ls, s =>
    (l.start ≤ i.pos → s.gate i l ins = none ∧ (l.pred = true → P s l))
      ∧ Along i ins P f ls (if l.start ≤ i.pos ∧ l.pred = true then f s l else s)

/-- What follows when an instruction of n words has passed its lanes: they, and nobody else, move on; places of quads and
bundles change, and nothing else does. A thread that left the clause stands where the instruction left it. -/
structure Passed (b n : Nat) (s t : State) : Prop where
  ends : t = s.afterInstr n
  within : Within b s t
  block : ∀ k, s.block? b = some k → ∃ k', t.block? b = some k' ∧ Block.same k k' ∧ ∀ tid,
    Thread.same (k.thread tid) (k'.thread tid)
    ∧ ((∀ j, s.issue = some j → ∀ l ∈ j.lanes, l.tid ≠ tid) → Thread.rests (k.thread tid) (k'.thread tid))

/-- An instruction of the clause being issued completes, and the machine becomes f of what it was in each lane that
executes it, in ascending order, if P holds of each of these lanes when its turn comes. -/
def Does (s : State) (i : Issue) (ins : Instr) (P : State → Lane → Prop) (f : State → Lane → State) : Prop :=
  Along i ins P f i.lanes s → ∃ t, exec ins s = .next t ∧ Passed i.block (wordsOf ins) (s.inLanes i f) t

/-- The clause after one more long-latency instruction of it has issued (R156). -/
def Issue.counted (i : Issue) : Issue := { i with longs := i.longs + 1 }

/-- A long-latency instruction: it counts as one more of its clause before its lanes act. -/
def DoesLong (s : State) (i : Issue) (ins : Instr) (P : State → Lane → Prop) (f : State → Lane → State) : Prop :=
  Along i.counted ins P f i.lanes { s with issue := some i.counted } →
    ∃ t, exec ins s = .next t ∧ Passed i.block (wordsOf ins) (State.inLanes { s with issue := some i.counted } i.counted f) t

/-- An instruction of the clause being issued stops its clause at a lane that waits: the lanes before it, of each of which P
holds when its turn comes, have made the machine f of what it was, and then, where Q holds of the waiting lane, the machine is
g of that. No later lane has done anything. -/
def Stops (s : State) (i : Issue) (ins : Instr) (P : State → Lane → Prop) (f : State → Lane → State) (Q : State → Lane → Prop)
    (g : State → Lane → State) : Prop :=
  ∀ ls l rest, i.lanes = ls ++ l :: rest → l.start ≤ i.pos → l.pred = true → Along i ins P f ls s →
    (s.upTo i f ls).gate i l ins = none → Q (s.upTo i f ls) l → exec ins s = .next (g (s.upTo i f ls) l)

/-- The same of a long-latency instruction. -/
def StopsLong (s : State) (i : Issue) (ins : Instr) (P : State → Lane → Prop) (f : State → Lane → State) (Q : State → Lane → Prop)
    (g : State → Lane → State) : Prop :=
  ∀ ls l rest, i.lanes = ls ++ l :: rest → l.start ≤ i.pos → l.pred = true →
    Along i.counted ins P f ls { s with issue := some i.counted } →
    let s' := State.upTo { s with issue := some i.counted } i.counted f ls
    s'.gate i.counted l ins = none → Q s' l → exec ins s = .next (g s' l)

/-! ## Floating-point instructions -/

/-- What a FLT instruction gives a thread, element by element: the results to the group d, the union of the flags. -/
def Thread.eachElem (th : Thread) (w : Width) (d : Reg) (srcs : List Reg) (f : Fmt) (x2 : Bool)
    (op : List Nat → Nat × Flags) : FltOut :=
  let rs := (List.range (fltCount f x2 w)).map fun j => op (srcs.map fun r => (th.flts r f x2 w).getD j 0)
  ⟨regWrites d.toNat (fltWords f x2 w (rs.map (·.1))), [], rs.foldl (fun a r => a ||| r.2) 0⟩

/-- A FLT instruction in one lane: its result is written at once, or stays pending where it is long-latency (R298). -/
def fltLane (i : Issue) (long : Thread → Bool) (out : State → Thread → FltOut) (s : State) (l : Lane) : State :=
  let th := s.thread i.block l.tid
  if long th then s.pend i l (out s th).regs (out s th).preds (out s th).fl true false (0, 0, 0) none
  else s.updThread i.block l.tid fun _ => th.write (out s th)

/-- A FLT instruction completes, with its results written or pending; it counts as a long-latency instruction of the
clause where it is one in some lane. P holds of each thread that executes it. -/
def Floats (s : State) (i : Issue) (ins : Instr) (long : Thread → Bool) (P : Thread → Prop) (out : State → Thread → FltOut) : Prop :=
  ((∀ l ∈ i.lanes, l.pred = true → long (s.thread i.block l.tid) = false) →
    Does s i ins (fun s l => P (s.thread i.block l.tid)) (fltLane i long out))
  ∧ ((∃ l ∈ i.lanes, l.pred = true ∧ long (s.thread i.block l.tid) = true) →
    DoesLong s i ins (fun s l => P (s.thread i.block l.tid)) (fltLane i.counted long out))

/-! ## Steps of the device -/

/-- A step of the device that completes and leaves this state. -/
def Becomes (s : State) (ins : Instr) (t : State) : Prop := exec ins s = .next t

/-- A step of the device that completes and leaves a state of which P holds. -/
def Reaches (s : State) (ins : Instr) (P : State → Prop) : Prop := ∃ t, exec ins s = .next t ∧ P t

end Sys2Proof.Machine
end

