-- ==== Sys2Proof/Certificates/Slice0/Obligations.lean ====
section
/-! DEFINITION. The statements for the provers. -/

open Sys2Proof Sys2Proof.Machine

/-! ## Class INT -/

/-- R274 to R284: what each arithmetic, shift and logic instruction of class INT writes, element by element, and that it
changes nothing else. -/
def Obligations.IntArithmeticShiftAndLogicResults : Prop :=
  (∀ (s : State) (i : Issue) (k : Block), Issuing s i k → ∀ (w : Width) (d a b c : Reg),
     Computes s i k (.iadd w d a b) (fun th => th.putInts d w
       (map2 (fun (x y : Nat) => wrap ((x : Int) + y) (intBits w)) (th.ints a w) (th.ints b w)))
     ∧ (∀ n, Computes s i k (.iaddImm w d a n) fun th => th.putInts d w
         (map1 (fun (x : Nat) => wrap ((x : Int) + sext n.toNat 8) (intBits w)) (th.ints a w)))
     ∧ Computes s i k (.isub w d a b) (fun th => th.putInts d w
         (map2 (fun (x y : Nat) => wrap ((x : Int) - y) (intBits w)) (th.ints a w) (th.ints b w)))
     ∧ (∀ n, Computes s i k (.isubImm w d a n) fun th => th.putInts d w
         (map1 (fun (x : Nat) => wrap ((x : Int) - sext n.toNat 8) (intBits w)) (th.ints a w)))
     ∧ (∀ (pco : PredNo) (pci : Option PredNo), Computes s i k (.iaddc w d a b pco pci) fun th =>
         let ci := match pci with
           | some p => (th.pred p.toNat).toNat
           | none => 0
         let t := th.groupNat a.toNat (2 ^ w.toNat) + th.groupNat b.toNat (2 ^ w.toNat) + ci
         (th.putInts d w [wrap (t : Int) (intBits w)]).setPred pco.toNat (decide (2 ^ intBits w ≤ t)))
     ∧ Computes s i k (.imul w d a b) (fun th => th.putInts d w
         (map2 (fun (x y : Nat) => wrap ((x : Int) * y) (intBits w)) (th.ints a w) (th.ints b w)))
     ∧ Computes s i k (.imulh w d a b) (fun th => th.putInts d w
         (map2 (fun x y => x * y / 2 ^ intBits w) (th.ints a w) (th.ints b w)))
     ∧ Computes s i k (.imad w d a b c .wrap) (fun th => th.putInts d w
         (map3 (fun (x y z : Nat) => wrap ((x : Int) * y + z) (intBits w)) (th.ints a w) (th.ints b w) (th.ints c w)))
     ∧ Computes s i k (.imad w d a b c .sat) (fun th => th.putInts d w
         (map3 (fun x y z => wrap (satTo (sext x (intBits w) * sext y (intBits w) + sext z (intBits w))
           (-(2 : Int) ^ (intBits w - 1)) ((2 : Int) ^ (intBits w - 1) - 1)) (intBits w)) (th.ints a w) (th.ints b w) (th.ints c w)))
     ∧ Computes s i k (.imad w d a b c .usat) (fun th => th.putInts d w
         (map3 (fun x y z => min (x * y + z) (2 ^ intBits w - 1)) (th.ints a w) (th.ints b w) (th.ints c w)))
     ∧ Computes s i k (.idiv w d a b) (fun th => th.putInts d w
         (map2 (fun x y => if sext y (intBits w) = 0 then wrap (-1) (intBits w)
           else wrap (Int.tdiv (sext x (intBits w)) (sext y (intBits w))) (intBits w)) (th.ints a w) (th.ints b w)))
     ∧ Computes s i k (.irem w d a b) (fun th => th.putInts d w
         (map2 (fun x y => if sext y (intBits w) = 0 then x
           else wrap (Int.tmod (sext x (intBits w)) (sext y (intBits w))) (intBits w)) (th.ints a w) (th.ints b w)))
     ∧ Computes s i k (.ineg w d a) (fun th => th.putInts d w
         (map1 (fun x => wrap (-(sext x (intBits w))) (intBits w)) (th.ints a w)))
     ∧ Computes s i k (.iabs w d a) (fun th => th.putInts d w
         (map1 (fun x => wrap (max (sext x (intBits w)) (-(sext x (intBits w)))) (intBits w)) (th.ints a w)))
     ∧ Computes s i k (.imin w d a b) (fun th => th.putInts d w
         (map2 (fun x y => if sext x (intBits w) ≤ sext y (intBits w) then x else y) (th.ints a w) (th.ints b w)))
     ∧ Computes s i k (.imax w d a b) (fun th => th.putInts d w
         (map2 (fun x y => if sext x (intBits w) ≤ sext y (intBits w) then y else x) (th.ints a w) (th.ints b w)))
     ∧ (∀ sa sb sat : Bool, Computes s i k (.idp4 d a b c sa sb sat) fun th => th.putInts d 0
         (map3 (fun x y z =>
           let byte := fun (sg : Bool) (v j : Nat) => if sg then sext (v / 2 ^ (8 * j)) 8 else ((v / 2 ^ (8 * j) % 256 : Nat) : Int)
           let t := sext z 32 + byte sa x 0 * byte sb y 0 + byte sa x 1 * byte sb y 1 + byte sa x 2 * byte sb y 2
             + byte sa x 3 * byte sb y 3
           wrap (if sat then satTo t (-2147483648) 2147483647 else t) 32) (th.ints a 0) (th.ints b 0) (th.ints c 0))))
  ∧ (∀ (s : State) (i : Issue) (k : Block), Issuing s i k → ∀ (w : Width) (d a b : Reg),
       let n := intBits w
       let shl := fun (x c : Nat) => if c < n then wrap ((x : Int) * 2 ^ c) n else 0
       let shr := fun (x c : Nat) => if c < n then x / 2 ^ c else 0
       let sar := fun (x c : Nat) => if c < n then wrap (Int.fdiv (sext x n) (2 ^ c)) n else if sext x n < 0 then 2 ^ n - 1 else 0
       let rol := fun (x c : Nat) => if c % n = 0 then x else wrap ((x : Int) * 2 ^ (c % n) + (x / 2 ^ (n - c % n) : Nat)) n
       let two := fun (f : Nat → Nat → Nat) (th : Thread) => th.putInts d w (map2 f (th.ints a w) (th.ints b w))
       let one := fun (f : Nat → Nat) (th : Thread) => th.putInts d w (map1 f (th.ints a w))
       Computes s i k (.shl w d a b) (two shl) ∧ Computes s i k (.shr w d a b) (two shr)
       ∧ Computes s i k (.sar w d a b) (two sar) ∧ Computes s i k (.rol w d a b) (two rol)
       ∧ (∀ m : BitVec 8, Computes s i k (.shlImm w d a m) (one fun x => shl x m.toNat)
           ∧ Computes s i k (.shrImm w d a m) (one fun x => shr x m.toNat)
           ∧ Computes s i k (.sarImm w d a m) (one fun x => sar x m.toNat)
           ∧ Computes s i k (.rolImm w d a m) (one fun x => rol x m.toNat))
       ∧ Computes s i k (.andReg w d a b) (two fun x y => x &&& y)
       ∧ Computes s i k (.orReg w d a b) (two fun x y => x ||| y)
       ∧ Computes s i k (.xorReg w d a b) (two fun x y => x ^^^ y)
       ∧ Computes s i k (.andn w d a b) (two fun x y => x &&& (2 ^ n - 1 - y % 2 ^ n))
       ∧ Computes s i k (.notReg w d a) (one fun x => 2 ^ n - 1 - x % 2 ^ n)
       ∧ (∀ m : Word, Computes s i k (.andImm32 w d a m) (one fun x => x &&& wrap (sext m.toNat 32) n)
           ∧ Computes s i k (.orImm32 w d a m) (one fun x => x ||| wrap (sext m.toNat 32) n)
           ∧ Computes s i k (.xorImm32 w d a m) (one fun x => x ^^^ wrap (sext m.toNat 32) n)))

/-- R284 to R290: what the bit-count, bit-field, move, compare and predicate instructions of class INT write, and that they
change nothing else. -/
def Obligations.IntMoveCompareAndPredicateResults : Prop :=
  (∀ (s : State) (i : Issue) (k : Block), Issuing s i k → ∀ (w : Width) (d a b c : Reg),
     let n := intBits w
     let one := fun (f : Nat → Nat) (th : Thread) => th.putInts d w (map1 f (th.ints a w))
     let pos := fun (y : Nat) => y % 2 ^ 8
     let len := fun (y : Nat) => min (y / 2 ^ 8 % 2 ^ 8) (n - pos y)
     let field := fun (x y : Nat) => x / 2 ^ pos y % 2 ^ len y
     Computes s i k (.popc w d a) (one fun x => (List.range n).countP fun j => x.testBit j)
     ∧ Computes s i k (.clz w d a) (one fun x => n - (if x = 0 then 0 else x.log2 + 1))
     ∧ Computes s i k (.ctz w d a) (one fun x => ((List.range n).find? fun j => x.testBit j).getD n)
     ∧ Computes s i k (.brev w d a) (one (brevElem n))
     ∧ (∀ sg, Computes s i k (.bfx w d a b sg) fun th => th.putInts d w (map2 (fun x y =>
           if y / 2 ^ 8 % 2 ^ 8 = 0 ∨ n ≤ pos y then 0
           else if sg then wrap (sext (field x y) (len y)) n else field x y) (th.ints a w) (th.ints b w)))
     ∧ Computes s i k (.bfi w d a b c) (fun th => th.putInts d w (map3 (fun x y z =>
           if y / 2 ^ 8 % 2 ^ 8 = 0 ∨ n ≤ pos y then z
           else
             let m := (2 ^ len y - 1) * 2 ^ pos y
             (z &&& (2 ^ n - 1 - m % 2 ^ n)) ||| ((x * 2 ^ pos y) &&& m)) (th.ints a w) (th.ints b w) (th.ints c w)))
     ∧ Computes s i k (.prmb d a b c) (fun th => th.putInts d 0 (map3 prmbElem (th.ints a 0) (th.ints b 0) (th.ints c 0)))
     ∧ (∀ p : PredNo, Computes s i k (.isel w d a b p) fun th =>
         th.setGroup d.toNat (th.group (if th.pred p.toNat then a.toNat else b.toNat) (2 ^ w.toNat)))
     ∧ (∀ (pd p : PredNo) (cond : ICond), Computes s i k (.icmp w pd a b p cond) fun th =>
         let x := th.groupNat a.toNat (2 ^ w.toNat)
         let y := th.groupNat b.toNat (2 ^ w.toNat)
         th.setPred pd.toNat ((match cond with
           | .eq => decide (x = y) | .ne => decide (x ≠ y)
           | .lt => decide (sext x n < sext y n) | .le => decide (sext x n ≤ sext y n)
           | .gt => decide (sext x n > sext y n) | .ge => decide (sext x n ≥ sext y n)
           | .ltu => decide (x < y) | .leu => decide (x ≤ y)
           | .gtu => decide (x > y) | .geu => decide (x ≥ y)) && th.pred p.toNat))
     ∧ Computes s i k (.imov w d a) (fun th => th.setGroup d.toNat (th.group a.toNat (2 ^ w.toNat)))
     ∧ (∀ m : Half, Computes s i k (.movi w d m) fun th => th.putInts d w [wrap (sext m.toNat 16) n])
     ∧ (∀ m : Half, Computes s i k (.movhi d m) fun th =>
         th.setReg d.toNat (BitVec.ofNat 32 (m.toNat * 2 ^ 16 + (th.reg d.toNat).toNat % 2 ^ 16)))
     ∧ (∀ m : Word, Computes s i k (.moviImm32 w d m) fun th => th.putInts d w [wrap (sext m.toNat 32) n])
     ∧ (∀ (sh : BitVec 3) (u : Bool), Computes s i k (.lea d a b sh u) fun th =>
         let x : Int := if u then ((th.reg b.toNat).toNat : Int) else sext (th.reg b.toNat).toNat 32
         th.setPair d.toNat (BitVec.ofNat 64 (wrap ((th.groupNat a.toNat 2 : Int) + x * 2 ^ sh.toNat) 64))))
  ∧ (∀ (s : State) (i : Issue) (k : Block), Issuing s i k → ∀ pd pa pb : PredNo,
       Computes s i k (.pand pd pa pb) (fun th => th.setPred pd.toNat (th.pred pa.toNat && th.pred pb.toNat))
       ∧ Computes s i k (.por pd pa pb) (fun th => th.setPred pd.toNat (th.pred pa.toNat || th.pred pb.toNat))
       ∧ Computes s i k (.pxor pd pa pb) (fun th => th.setPred pd.toNat (xor (th.pred pa.toNat) (th.pred pb.toNat)))
       ∧ Computes s i k (.pnot pd pa) (fun th => th.setPred pd.toNat (!th.pred pa.toNat))
       ∧ Computes s i k (.pmov pd pa) (fun th => th.setPred pd.toNat (th.pred pa.toNat)))

/-- R284 and R286: BREV moves bit j to bit s - 1 - j, and byte j of PRMB's result is the selected byte or its sign. R155, R241,
R244 and R274: a group written with elements reads back as those elements, registers outside it stay, and the group numbered
255 is discarded and reads as zeros. -/
def Obligations.BytesBitsAndGroups : Prop :=
  ((∀ n x j : Nat, x < 2 ^ n → j < n → (brevElem n x).testBit j = x.testBit (n - 1 - j))
   ∧ (∀ n x : Nat, brevElem n x < 2 ^ n)
   ∧ (∀ x y z j : Nat, x < 2 ^ 32 → y < 2 ^ 32 → j < 4 →
       prmbElem x y z / 2 ^ (8 * j) % 2 ^ 8 =
         let sel := z / 2 ^ (4 * j) % 2 ^ 4
         let byte := (x + 2 ^ 32 * y) / 2 ^ (8 * (sel % 8)) % 2 ^ 8
         if sel < 8 then byte else if 128 ≤ byte then 255 else 0))
  ∧ ((∀ (th : Thread) (d : Reg) (w : Width) (es : List Nat), Sparse.wf (0 : Word) th.regs = true → d.toNat + 2 ^ w.toNat ≤ 255 →
         es.length = intCount w →
         (th.putInts d w es).ints d w = es.map (· % 2 ^ intBits w)
         ∧ (∀ r, r < d.toNat ∨ d.toNat + 2 ^ w.toNat ≤ r → (th.putInts d w es).reg r = th.reg r)
         ∧ Sparse.wf (0 : Word) (th.putInts d w es).regs = true)
     ∧ (∀ (th : Thread) (w : Width) (es : List Nat), th.putInts 255 w es = th ∧ th.ints 255 w = List.replicate (intCount w) 0))


/-! ## Class FLT -/

/-- R302 and R303 under R299 and R300: element by element, the arithmetic instructions give the exact result rounded once,
an IEEE result or a rational one. -/
def Obligations.FltArithmeticResults : Prop :=
  ∀ (s : State) (i : Issue) (k : Block), Issuing s i k → ∀ (w : Width) (d a b c : Reg) (rnd : Rnd) (fmt : Fmt) (x2 : Bool),
    let used := fun (th : Thread) => if x2 then fmt else th.fmtIn fmt
    let does := fun (ins : Instr) (srcs : List Reg) (ieee : FpFmt → Nat → List Nat → Nat × Flags) (rat : List FV → FV × Flags) =>
      Floats s i ins (fun th => (used th).isRat) (fun _ => True) fun _ th => th.eachElem w d srcs (used th) x2 fun xs =>
        if (used th).isRat then ratElem (rqOf (used th)) (qModeOf th rnd) rat xs
        else ieeeElem (fpOf (used th)) th.fz (ieee (fpOf (used th)) (modeOf th rnd)) xs
    let x := fun (xs : List Nat) (j : Nat) => xs.getD j 0
    let v := fun (vs : List FV) (j : Nat) => vs.getD j (.nan 0)
    does (.fadd w d a b rnd fmt x2) [a, b] (fun f m xs => f.add m (x xs 0) (x xs 1)) (fun vs => qAdd (v vs 0) (v vs 1))
    ∧ does (.fsub w d a b rnd fmt x2) [a, b] (fun f m xs => f.sub m (x xs 0) (x xs 1)) (fun vs => qAdd (v vs 0) (v vs 1).neg)
    ∧ does (.fmul w d a b rnd fmt x2) [a, b] (fun f m xs => f.mul m (x xs 0) (x xs 1)) (fun vs => qMul (v vs 0) (v vs 1))
    ∧ does (.ffma w d a b c rnd fmt x2) [a, b, c] (fun f m xs => f.fma m (x xs 0) (x xs 1) (x xs 2))
        (fun vs => qFma (v vs 0) (v vs 1) (v vs 2))
    ∧ does (.fdiv w d a b rnd fmt x2) [a, b] (fun f m xs => f.div m (x xs 0) (x xs 1)) (fun vs => qDiv (v vs 0) (v vs 1))
    ∧ does (.fsqrt w d a rnd fmt x2) [a] (fun f m xs => f.sqrt m (x xs 0)) (fun vs => qSqrt (v vs 0))

/-- R302 with R195: on finite operands, each IEEE operation is one rounding of the exact sum, difference, product,
quotient or fused product and sum; a zero sum, fused or not, has the sign that R195 gives it; the root of a zero is that zero; and the root that is rounded stands exactly,
or strictly between two neighbours of an odd number of half units, on the right side of them. -/
def Obligations.IeeeResultsRoundTheExactValueOnce : Prop :=
  ∀ f ∈ [fp16, bf16, fp32, fp64], ∀ (m a b c : Nat) (sa sb sc : Bool) (n₁ d₁ n₂ d₂ n₃ d₃ : Nat), b < 2 ^ f.width →
    f.decode a = .fin sa n₁ d₁ → f.decode b = .fin sb n₂ d₂ → f.decode c = .fin sc n₃ d₃ →
    let val := fun (sg : Bool) (n d : Nat) => (signed sg n : ℚ) / d
    let x := val sa n₁ d₁
    let y := val sb n₂ d₂
    (∃ (sg : Bool) (n d : Nat), 0 < d ∧ f.add m a b = f.round m sg n d ∧ val sg n d = x + y
        ∧ (n = 0 → sg = if n₁ = 0 ∧ n₂ = 0 ∧ sa = sb then sa else m == 3))
    ∧ (∃ (sg : Bool) (n d : Nat), 0 < d ∧ f.sub m a b = f.round m sg n d ∧ val sg n d = x - y
        ∧ (n = 0 → sg = if n₁ = 0 ∧ n₂ = 0 ∧ sa = !sb then sa else m == 3))
    ∧ (∃ n d : Nat, 0 < d ∧ f.mul m a b = f.round m (xor sa sb) n d ∧ val (xor sa sb) n d = x * y)
    ∧ (n₂ ≠ 0 → ∃ n d : Nat, 0 < d ∧ f.div m a b = f.round m (xor sa sb) n d ∧ val (xor sa sb) n d = x / y)
    ∧ (n₂ = 0 → f.div m a b = if n₁ = 0 then (f.qnan, fIV) else (f.withSign (xor sa sb) f.infBits, fDZ))
    ∧ (∃ (sg : Bool) (n d : Nat), 0 < d ∧ f.fma m a b c = f.round m sg n d ∧ val sg n d = x * y + val sc n₃ d₃
        ∧ (n = 0 → sg = if (n₁ = 0 ∨ n₂ = 0) ∧ n₃ = 0 ∧ xor sa sb = sc then sc else m == 3))
    ∧ (sa = false → n₁ ≠ 0 → ∃ r q : Nat, 0 < q ∧ f.sqrt m a = f.round m false r q
        ∧ (r * r * d₁ = n₁ * (q * q) ∨ (r % 2 = 1 ∧ (r - 1) * (r - 1) * d₁ < n₁ * (q * q) ∧ n₁ * (q * q) < (r + 1) * (r + 1) * d₁)))
    ∧ (sa = true → n₁ ≠ 0 → f.sqrt m a = (f.qnan, fIV))
    ∧ (n₁ = 0 → f.sqrt m a = (if sa then f.signBit else 0, 0))

/-- R193 and R195: what one rounding of a positive value n / d gives under RZ, RU, RD and RN, with overflow and inexact. -/
def Obligations.RoundingChoosesTheNeighbour : Prop :=
  ∀ f ∈ [fp16, bf16, fp32, fp64], ∀ n d : Nat, 0 < n → 0 < d →
    let x : ℚ := (n : ℚ) / d
    let val := fun (b : Nat) => match f.decode b with | .fin _ p q => (p : ℚ) / q | _ => 0
    (let r := (f.round 1 false n d).1
     r ≤ f.maxBits ∧ val r ≤ x ∧ (r < f.maxBits → x < val (r + 1)))
    ∧ f.round 3 false n d = f.round 1 false n d
    ∧ (let r := (f.round 2 false n d).1
       r ≤ f.infBits ∧ (r < f.infBits → x ≤ val r) ∧ 0 < r ∧ val (r - 1) < x)
    ∧ (let r := (f.round 0 false n d).1
       r ≤ f.infBits ∧ (r < f.infBits → ∀ b, b ≤ f.maxBits →
         |x - val r| ≤ |x - val b| ∧ (b ≠ r → |x - val r| = |x - val b| → r % 2 = 0)))
    ∧ (∀ m, m ≤ 4 → let r := f.round m false n d
        r.2 &&& fNX = (if r.1 < f.infBits ∧ val r.1 = x then 0 else fNX)
        ∧ (r.2 &&& fOF = fOF → val f.maxBits < x)
        ∧ r.2 &&& fIV = 0 ∧ r.2 &&& fDZ = 0)
    ∧ (∀ m, m ≤ 4 → let m' := if m = 2 then 3 else if m = 3 then 2 else m
        f.round m true n d = ((f.round m' false n d).1 + f.signBit, (f.round m' false n d).2))

/-- R304 to R307: minimum and maximum under R198, FCMP, FCLASS and the sign instructions. -/
def Obligations.FltSelectionAndSignResults : Prop :=
  ∀ (s : State) (i : Issue) (k : Block), Issuing s i k → ∀ (w : Width) (d a b : Reg) (fmt : Fmt) (x2 : Bool),
    let used := fun (th : Thread) => if x2 then fmt else th.fmtIn fmt
    let rat := fun (th : Thread) => (used th).isRat
    let x := fun (xs : List Nat) (j : Nat) => xs.getD j 0
    let v := fun (vs : List FV) (j : Nat) => vs.getD j (.nan 0)
    let minMax := fun (ins : Instr) (isMax num : Bool) =>
      Floats s i ins rat (fun _ => True) fun _ th => th.eachElem w d [a, b] (used th) x2 fun xs =>
        if rat th then ratElem (rqOf (used th)) 0 (fun vs => (qMinMax isMax num (v vs 0) (v vs 1), 0)) xs
        else ieeeElem (fpOf (used th)) th.fz (fun ys =>
          if num then (fpOf (used th)).minMaxNum isMax (x ys 0) (x ys 1) else (fpOf (used th)).minMax isMax (x ys 0) (x ys 1)) xs
    minMax (.fmin w d a b fmt x2) false false ∧ minMax (.fmax w d a b fmt x2) true false
    ∧ minMax (.fminnum w d a b fmt x2) false true ∧ minMax (.fmaxnum w d a b fmt x2) true true
    ∧ (∀ (pd pc : PredNo) (cond : FCond),
        Floats s i (.fcmp w pd a b pc fmt cond) (fun th => (th.fmtIn fmt).isRat) (fun _ => True) fun _ th =>
          let r := fcmpElem cond th (th.fmtIn fmt) ((th.flts a (th.fmtIn fmt) false w).getD 0 0) ((th.flts b (th.fmtIn fmt) false w).getD 0 0)
          ⟨[], [(pd.toNat, r.1 && th.pred pc.toNat)], r.2⟩)
    ∧ Floats s i (.fclass w d a fmt) (fun _ => fmt.isRat) (fun _ => True) (fun _ th =>
        ⟨regWrites d.toNat [BitVec.ofNat 32 (fclassElem fmt ((th.elems a w.toNat (fltSlot fmt false) 1).getD 0 0 % 2 ^ fmt.bits))], [], 0⟩)
    ∧ Floats s i (.fabs w d a fmt x2) rat (fun _ => True) (fun _ th => th.eachElem w d [a] (used th) x2 fun xs =>
        if rat th then ratElem (rqOf (used th)) 0 (fun vs => ((v vs 0).abs, 0)) xs else (x xs 0 % (fpOf (used th)).signBit, 0))
    ∧ Floats s i (.fneg w d a fmt x2) rat (fun _ => True) (fun _ th => th.eachElem w d [a] (used th) x2 fun xs =>
        let g := fpOf (used th)
        if rat th then ratElem (rqOf (used th)) 0 (fun vs => ((v vs 0).neg, 0)) xs
        else (x xs 0 % g.signBit + if (x xs 0).testBit (g.eb + g.fb) then 0 else g.signBit, 0))
    ∧ Floats s i (.fcopysign w d a b fmt x2) (fun _ => fmt.isRat) (fun _ => True) (fun _ th => th.eachElem w d [a, b] fmt x2 fun xs =>
        let g := fpOf fmt
        (x xs 0 % g.signBit + x xs 1 / g.signBit * g.signBit, 0))

/-- R198, R199, R201, R202 and R301 to R308: the elements that selections, sign operations and conversions give. -/
def Obligations.FltElementResults : Prop :=
  (∀ f ∈ [fp16, bf16, fp32, fp64], ∀ a b : Nat, a < 2 ^ f.width → b < 2 ^ f.width →
     (f.isNan a = true → f.minMax false a b = (f.quiet a, if f.isSnan a || f.isSnan b then fIV else 0)
       ∧ f.minMax true a b = f.minMax false a b)
     ∧ (f.isNan a = true → f.isNan b = false → ∀ mx, f.minMaxNum mx a b = (b, if f.isSnan a then fIV else 0)
         ∧ f.minMaxNum mx b a = (b, if f.isSnan a then fIV else 0))
     ∧ (f.isNan a = true → f.isNan b = true → ∀ mx, f.minMaxNum mx a b = (f.qnan, if f.isSnan a || f.isSnan b then fIV else 0))
     ∧ (f.isNan a = false → f.isNan b = false → ∀ num : Bool,
         let mn := if num then f.minMaxNum false a b else f.minMax false a b
         let mx := if num then f.minMaxNum true a b else f.minMax true a b
         mn.2 = 0 ∧ mx.2 = 0 ∧ ((mn.1 = a ∧ mx.1 = b) ∨ (mn.1 = b ∧ mx.1 = a))
         ∧ fvLt (f.decode mx.1) (f.decode mn.1) = false)
     ∧ f.minMax false 0 f.signBit = (f.signBit, 0) ∧ f.minMax true f.signBit 0 = (0, 0)
     ∧ (∀ (cond : FCond) (nan snan : Bool) (x y : FV), fcmpCond cond x y nan snan =
         (match cond with
           | .eq => !nan && fvEq x y | .ne => nan || !fvEq x y
           | .lt => !nan && fvLt x y | .le => !nan && !fvLt y x
           | .gt => !nan && fvLt y x | .ge => !nan && !fvLt x y
           | .un => nan | .ord => !nan,
          if (match cond with | .lt | .le | .gt | .ge => nan | _ => snan) then fIV else 0))
     ∧ (∃ j, j ≤ 9 ∧ ∀ g ∈ [Fmt.fp16, Fmt.bf16, Fmt.fp32, Fmt.fp64], fpOf g = f → fclassElem g a = 2 ^ j))
  ∧ (∀ f ∈ [fp16, bf16, fp32, fp64], ∀ (m a n d : Nat) (neg : Bool), f.decode a = .fin neg n d →
       (∀ e : Int, -8192 ≤ e → e ≤ 8192 → ∃ p q : Nat, 0 < q ∧ scaleElem f m a e = f.round m neg p q
           ∧ (p : ℚ) / q = (n : ℚ) / d * (2 : ℚ) ^ e)
       ∧ (n ≠ 0 → ∃ e : Int, (2 : ℚ) ^ e ≤ (n : ℚ) / d ∧ (n : ℚ) / d < (2 : ℚ) ^ (e + 1)
           ∧ getexpElem f a = ((f.round 0 (decide (e < 0)) e.natAbs 1).1, 0))
       ∧ (n = 0 → getexpElem f a = (f.withSign true f.infBits, fDZ))
       ∧ (∀ (lo hi : Int) (j : Nat) (ex : Bool), roundUnits n d 0 m neg = (j, ex) →
           toIntElem lo hi m (.fin neg n d) =
             if signed neg j < lo then (lo, fIV) else if hi < signed neg j then (hi, fIV) else (signed neg j, if ex then 0 else fNX))
       ∧ (∀ (lo hi : Int) (b : Nat), toIntElem lo hi m (.nan b) = (0, fIV) ∧ toIntElem lo hi m (.inf false) = (hi, fIV)
           ∧ toIntElem lo hi m (.inf true) = (lo, fIV))
       ∧ (let j := (roundUnits n d 0 m neg).1
          (rintElem f m true a).1 = (f.round 0 neg j 1).1 ∧ (rintElem f m false a) = ((rintElem f m true a).1, 0)
          ∧ (m = 1 → (j : ℚ) ≤ (n : ℚ) / d ∧ (n : ℚ) / d < (j : ℚ) + 1)))

/-- R308 to R313: integral rounding, scale, exponent and the conversions. -/
def Obligations.FltConversionResults : Prop :=
  ∀ (s : State) (i : Issue) (k : Block), Issuing s i k → ∀ (w : Width) (d a b : Reg) (rnd : Rnd) (fmt st : Fmt) (x2 : Bool),
    let g := fpOf fmt
    let x := fun (xs : List Nat) (j : Nat) => xs.getD j 0
    let all := fun (dst : Nat) (rs : List (Nat × Flags)) =>
      (⟨packedWrites d w dst (rs.map (·.1)), [], rs.foldl (fun f r => f ||| r.2) 0⟩ : FltOut)
    (∀ nx : Bool, Floats s i (.frint w d a rnd fmt x2 nx) (fun _ => fmt.isRat) (fun _ => True) fun _ th =>
      th.eachElem w d [a] fmt x2 fun xs => ieeeElem g th.fz (fun ys => rintElem g (modeOf th rnd) nx (x ys 0)) xs)
    ∧ Floats s i (.fscale w d a b rnd fmt x2) (fun _ => false) (fun _ => True) (fun _ th =>
        let slot := fltSlot fmt x2
        let rs := map2 (fun e n => ieeeElem g th.fz (fun ys => scaleElem g (modeOf th rnd) (x ys 0) (sext n slot)) [e])
          (th.flts a fmt x2 w) (th.elems b w.toNat slot (fltCount fmt x2 w))
        ⟨regWrites d.toNat (fltWords fmt x2 w (rs.map (·.1))), [], rs.foldl (fun f r => f ||| r.2) 0⟩)
    ∧ Floats s i (.fgetexp w d a fmt x2) (fun _ => fmt.isRat) (fun _ => True) (fun _ th =>
        th.eachElem w d [a] fmt x2 fun xs => ieeeElem g th.fz (fun ys => getexpElem g (x ys 0)) xs)
    ∧ (∀ xn : BitVec 4,
        let scale := fun (th : Thread) => if st = .fp4x ∨ st = .int4g then (th.reg b.toNat).toNat else 0
        Floats s i (.fcvt w d a b rnd fmt st xn) (fun _ => fmt.isRat || st.isRat)
          (fun th => st = .fp4x ∨ st = .int4g → (scaleWord (st == .fp4x) (scale th)).isSome) fun s th =>
          let m := if st = .int4g then 0 else if fmt.isRat then qModeOf th rnd else modeOf th rnd
          all fmt.bits ((th.packed a w st.bits).map fun e =>
            let src := cvtSource st th.fz (s.xval i.block xn.toNat) (scale th) e
            let r := cvtDest fmt th.fz m src.1 src.2.1
            (r.1, src.2.2 ||| r.2)))
    ∧ (∀ it : IntTy, Floats s i (.fcvti w d a rnd st it) (fun _ => st.isRat) (fun _ => True) fun _ th =>
        all it.bits ((th.packed a w st.bits).map fun e =>
          let r := toIntElem (intRange it).1 (intRange it).2 (modeOf th rnd) (cvtSource st th.fz 0 0 e).1
          (wrap r.1 it.bits, r.2)))
    ∧ (∀ it : IntTy, Floats s i (.icvtf w d a rnd fmt it) (fun _ => fmt.isRat) (fun _ => True) fun _ th =>
        all fmt.bits ((th.packed a w it.bits).map fun e =>
          let y : Int := match it with | .s32 => sext e 32 | .s64 => sext e 64 | .u32 | .u64 => (e : Int)
          cvtDest fmt th.fz (if fmt.isRat then qModeOf th rnd else modeOf th rnd) (.fin (decide (y < 0)) y.natAbs 1) none))

/-- R314 to R318: the approximations on FP32 elements, and the instructions that make and take apart rationals. -/
def Obligations.FltApproximationAndRationalResults : Prop :=
  ∀ (s : State) (i : Issue) (k : Block), Issuing s i k → ∀ (w : Width) (d a b : Reg) (rnd : Rnd) (fmt : Fmt),
    let x := fun (xs : List Nat) (j : Nat) => xs.getD j 0
    let q := rqOf fmt
    let apx := fun (ins : Instr) (op : Approx) => Floats s i ins (fun _ => false) (fun _ => True) fun _ th =>
      th.eachElem w d [a] .fp32 false fun xs => ieeeElem fp32 th.fz (fun ys => approx op (x ys 0)) xs
    let part := fun (ins : Instr) (take : FV → Nat) => Floats s i ins (fun _ => fmt.isRat) (fun _ => True) fun _ th =>
      th.eachElem w d [a] fmt false fun xs => (take (q.decode (x xs 0)).1, if (q.decode (x xs 0)).2 then fIV else 0)
    apx (.frcpa w d a) .rcp ∧ apx (.frsqa w d a) .rsq ∧ apx (.fexp2a w d a) .exp2 ∧ apx (.flog2a w d a) .log2
    ∧ apx (.fsina w d a) .sin ∧ apx (.fcosa w d a) .cos
    ∧ Floats s i (.qmake w d a b rnd fmt) (fun _ => fmt.isRat) (fun _ => True) (fun _ th =>
        th.eachElem w d [a, b] fmt false fun xs =>
          let n := sext (x xs 0) q.size
          if x xs 1 = 0 then (if n = 0 then q.indet else q.infinity (decide (n < 0)), 0)
          else q.round (qModeOf th rnd) (decide (n < 0)) n.natAbs (x xs 1))
    ∧ part (.qnum w d a fmt) (fun v => match v with
        | .nan _ => 0
        | .inf neg => wrap (if neg then -1 else 1) q.size
        | .fin neg n _ => wrap (signed neg n) q.size)
    ∧ part (.qden w d a fmt) (fun v => match v with | .nan _ | .inf _ => 0 | .fin _ n e => if n = 0 then 1 else e)
    ∧ Floats s i (.qmed w d a b rnd fmt) (fun _ => fmt.isRat) (fun _ => True) (fun _ th =>
        th.eachElem w d [a, b] fmt false fun xs =>
          ratElem q (qModeOf th rnd) (fun vs => (qMediant (vs.getD 0 (.nan 0)) (vs.getD 1 (.nan 0)), 0)) xs)
    ∧ Floats s i (.qcanon w d a fmt) (fun _ => fmt.isRat) (fun _ => True) (fun _ th =>
        th.eachElem w d [a] fmt false fun xs => ratElem q 0 (fun vs => (vs.getD 0 (.nan 0), 0)) xs)

/-- R207, R208 and R317: the codes of RQ32 and RQ64. A value in lowest terms that fits has the code that reads back as it,
a value that fits is never rounded, and a code with its b out of range is malformed. -/
def Obligations.RationalCodesReadBack : Prop :=
  ∀ q ∈ [rq32, rq64],
    (∀ (neg : Bool) (n d : Nat), 0 < n → 0 < d → Nat.gcd n d = 1 → bitlen n + bitlen d ≤ q.w →
      q.decode (q.code neg n d) = (.fin neg n d, false) ∧ q.code neg n d < 2 ^ q.size
      ∧ ∀ (m g : Nat), 0 < g → q.round m neg (g * n) (g * d) = (q.code neg n d, 0))
    ∧ (∀ neg, q.decode (q.infinity neg) = (.inf neg, false)) ∧ q.decode q.indet = (.nan 0, false)
    ∧ q.decode q.zero = (.fin false 0 1, false)
    ∧ (∀ m neg d, q.round m neg 0 d = (q.zero, 0))
    ∧ (∀ c, c < 2 ^ q.size → (let e := c / 2 ^ q.w % 2 ^ (q.size - 1 - q.w)
        e = 0 ∨ q.w ≤ e) → q.decode c = (.nan 0, true))
    ∧ (q = rq32 → q.code false 1 3 = 0x06000003 ∧ q.code false 1 2 = 0x06000002 ∧ q.code false 2 5 = 0x0A000005
        ∧ q.code false 3 2 = 0x0B000002 ∧ q.infinity true = 0x86000000)

/-! ## Class MEM -/

/-- R323 with R321, R322, R38 and R156: an LD whose address is aligned and whose access does not trap leaves its result pending:
as the loaded bytes in registers, as an error where a unit of its home is lost, or as a request to the device that homes the page.
Of a page on another device the thread asks first whether the access is allowed, and where only the page gives the format, of
each page that may give it, and its clause stands still until the answer. The registers that a load gives, by its size. -/
def Obligations.LoadResultsAndRegisters : Prop :=
  (∀ (s : State) (i : Issue) (k : Block), Issuing s i k →
     ∀ (w : Width) (d a : Reg) (off : BitVec 8) (pol : Policy) (fresh : Bool) (fmt : Fmt) (size : LdSize) (sx : Bool),
     let ins : Instr := .ld w d a off pol fresh fmt size sx
     let byPage := size == .x && fmt == .bytes
     -- where the access lies if its elements have z bytes, and where it lies
     let by_ := fun (s : State) (l : Lane) (z : Nat) => elemAddr ((s.thread i.block l.tid).pair a.toNat).toNat w off z
     let at_ := fun (s : State) (l : Lane) => s.accessOf i l .rd w a off fmt size
     let unasked := fun (s : State) (l : Lane) (va : Nat) => s.untested i.block l.tid va .rd
     let eight := fun (s : State) (l : Lane) => (s.narrowAt i l .rd (by_ s l 1)).any fun f => f.bits == 8
     let load := fun (s : State) (l : Lane) => s.loadLane i.block l.tid i.at (at_ s l).1 (at_ s l).2.1 ⟨pol.code.toNat, fresh⟩
       (accessPage fmt size false 0 (at_ s l).1)
     let blank := regWrites d.toNat (List.replicate (2 ^ w.toNat) 0)
     let sized := fun (s : State) (l : Lane) => byPage → unasked s l (by_ s l 1) = none
       ∧ (eight s l = true ∨ unasked s l (by_ s l 2) = none) ∧ ∃ x, s.laneXlate i.block l.tid (at_ s l).1 .rd = .ok x
     let told := fun (s : State) (l : Lane) => sized s l ∧ (at_ s l).1 % min (at_ s l).2.1 32 = 0
     let loads := fun (s : State) (l : Lane) => told s l ∧ unasked s l (at_ s l).1 = none ∧ ∀ t, load s l ≠ .trap t
     let loaded := fun (s : State) (l : Lane) => match load s l with
       | .bytes s' lf bs =>
         let r := loadRegs w size sx (at_ s l).2.2 bs
         let s₁ := s'.pend i.counted l (regWrites d.toNat r.1) [] r.2 true (lf.kind == .host) (0, 0, 0) none
         s₁.overHost (s₁.tenantOf i.block) (homeOf (s₁.tenantOf i.block) (at_ s l).1 lf) 0 (at_ s l).1
       | .lost s' c => s'.pend i.counted l blank [] 0 true false (0, 0, 0) (some ⟨cINTEG, c, 0, (at_ s l).1⟩)
       | .remote s' lf dev ra keep near inl cover =>
         let s₁ := s'.pend i.counted l blank [] 0 false true (howCode d.toNat w size sx (accessFmt fmt lf.fmt)) none
         let s₂ := { s₁ with pending := s₁.pending.map fun (p : PendOp) => if p.id = s₁.nextUid then { p with cover := cover } else p }
         let r := s₂.request (s₂.tenantOf i.block) 0x01 dev 0 ra (BitVec.ofNat 64 ((at_ s l).2.1 * 2 ^ 16)) inl []
           (.load s₁.nextUid keep near)
         if r.2 then r.1 else r.1.replyLost s₁.nextUid ⟨cINTEG, 3, 0, (at_ s l).1⟩
       | .trap _ => s
     let ask := fun (s : State) (l : Lane) (va dev ra : Nat) =>
       s.request (s.tenantOf i.block) 0x01 dev 0 ra 0 0 [] (.test i.block l.tid 0 va false)
     -- the page that is asked about: one that may give the format, or that of the access
     let about := fun (s : State) (l : Lane) =>
       if byPage ∧ (unasked s l (by_ s l 1)).isSome then some (by_ s l 1)
       else if byPage ∧ eight s l = false ∧ (unasked s l (by_ s l 2)).isSome then some (by_ s l 2)
       else if (at_ s l).1 % min (at_ s l).2.1 32 = 0 ∧ (unasked s l (at_ s l).1).isSome then some (at_ s l).1 else none
     DoesLong s i ins loads loaded
     ∧ StopsLong s i ins loads loaded
       (fun s l => ∃ va dev ra, about s l = some va ∧ unasked s l va = some (dev, ra) ∧ (ask s l va dev ra).2 = true)
       (fun s l => match about s l with
         | none => s
         | some va => match unasked s l va with
           | none => s
           | some (dev, ra) =>
             let s' := (ask s l va dev ra).1
             s'.pauseAt i.counted l (i.pos + 2) (.waiting (.remote s'.fabric.tagCtr))))
  ∧ (∀ (w : Width) (sx : Bool) (f : Fmt) (bs : List Byte),
       loadRegs w .raw sx f bs = (natToWords (2 ^ w.toNat) (bytesToNat bs), 0)
       ∧ (bs.length = 1 → loadRegs w .byte sx f bs
           = ([BitVec.ofInt 32 (if sx then sext (bytesToNat bs) 8 else (bytesToNat bs : Int))], 0))
       ∧ (bs.length = 2 → loadRegs w .half sx f bs
           = ([BitVec.ofInt 32 (if sx then sext (bytesToNat bs) 16 else (bytesToNat bs : Int))], 0))
       ∧ (loadRegs w .x sx f bs).1.length = 2 ^ w.toNat
       ∧ (∀ j, j < 2 ^ w.toNat → (loadRegs w .x sx f bs).1[j]?
           = some (decodeElem f (bytesToNat ((bs.drop (f.bits / 8 * j)).take (f.bits / 8)))).1)
       ∧ (∀ e : Nat, e < 2 ^ 16 → decodeElem .int8 (e % 2 ^ 8) = (BitVec.ofInt 32 (sext e 8), 0)
           ∧ decodeElem .int16 e = (BitVec.ofInt 32 (sext e 16), 0)
           ∧ (bf16.isNan e = false → decodeElem .bf16 e = (BitVec.ofNat 32 (e * 2 ^ 16), 0))))

/-- R323 with R321, R322, R170 to R172, R87 and R38. An ST at DL0, in the root view, whose address is aligned and whose page
admits it, completes: the core's cache takes the bytes of the registers as the page's policy and the instruction's say, or the
device that homes the page is sent them, and the flags of their conversion are raised. At DL1 and above the store is one of the
effects of the turn. Of a page on another device the thread first asks whether the store is allowed, and in a view for a slot
there, and its clause stands still until the answer. In general a store that does not trap or wait completes with its effect. -/
def Obligations.StoreEffects : Prop :=
  ∀ (s : State) (i : Issue) (k : Block), Issuing s i k →
    ∀ (w : Width) (d a : Reg) (off : BitVec 8) (rnd : Rnd) (pol : Policy) (fresh : Bool) (fmt : Fmt) (size : LdSize),
    let ins : Instr := .st w d a off rnd pol fresh fmt size
    let byPage := size == .x && fmt == .bytes
    let by_ := fun (s : State) (l : Lane) (z : Nat) => elemAddr ((s.thread i.block l.tid).pair a.toNat).toNat w off z
    let at_ := fun (s : State) (l : Lane) => s.accessOf i l .wr w a off fmt size
    let unasked := fun (s : State) (l : Lane) (va : Nat) => s.untested i.block l.tid va .wr
    let eight := fun (s : State) (l : Lane) => (s.narrowAt i l .wr (by_ s l 1)).any fun f => f.bits == 8
    let va := fun (s : State) (l : Lane) => (at_ s l).1
    let bytes := fun (s : State) (l : Lane) => storeBytes (s.thread i.block l.tid) w d rnd size (at_ s l).2.2 (at_ s l).2.1
    let page := fun (s : State) (l : Lane) => accessPage fmt size (rnd != .inForce) 1 (va s l)
    let store := fun (s : State) (l : Lane) => s.storeLane i.block l.tid i.at (va s l) (bytes s l).1 ⟨pol.code.toNat, fresh⟩ (page s l)
    -- the size and the address are known, the address is aligned, and nothing is to be asked about its page
    let told := fun (s : State) (l : Lane) => (byPage → unasked s l (by_ s l 1) = none
        ∧ (eight s l = true ∨ unasked s l (by_ s l 2) = none) ∧ ∃ x, s.laneXlate i.block l.tid (va s l) .wr = .ok x)
      ∧ va s l % min (at_ s l).2.1 32 = 0 ∧ unasked s l (va s l) = none
    -- a thread of the root view whose page is known, admits the store, and is not told of by a multicast under way
    let root := fun (s : State) (l : Lane) (x : Xl) (dl : Nat → Prop) => told s l ∧ (∃ k' g, s.block? i.block = some k' ∧ k'.core = k.core
        ∧ k'.tenant = k.tenant ∧ k'.grid = k.grid ∧ k'.vtag = 0 ∧ k'.specs = [] ∧ k'.fork = none
        ∧ s.gridOf i.block = some g ∧ dl g.dl.toNat)
      ∧ s.laneXlate i.block l.tid (va s l) .wr = .ok x ∧ page s l x.leaf = none
      ∧ s.mcastMeets k.tenant (va s l) (bytes s l).1.length = false
    let stores := fun (s : State) (l : Lane) => told s l ∧ ∃ s', store s l = .done s'
    let stored := fun (s : State) (l : Lane) => match store s l with
      | .done s' => s'.raiseIn i.block l.tid (bytes s l).2
      | _ => s
    let ask := fun (s : State) (l : Lane) (va dev ra : Nat) =>
      s.request (s.tenantOf i.block) 0x03 dev 0 ra 0 0 [] (.test i.block l.tid 1 va false)
    let about := fun (s : State) (l : Lane) =>
      if byPage ∧ (unasked s l (by_ s l 1)).isSome then some (by_ s l 1)
      else if byPage ∧ eight s l = false ∧ (unasked s l (by_ s l 2)).isSome then some (by_ s l 2)
      else if va s l % min (at_ s l).2.1 32 = 0 ∧ (unasked s l (va s l)).isSome then some (va s l) else none
    Does s i ins (fun s l => ∃ x, root s l x (· = 0))
      (fun s l => match s.laneXlate i.block l.tid (va s l) .wr, s.block? i.block with
        | .ok x, some k' => ((s.fillTlb k.core k.tenant x.leaf).rootStore i.block l.tid i.at k' (va s l) x (bytes s l).1
            ⟨pol.code.toNat, fresh⟩).raiseIn i.block l.tid (bytes s l).2
        | _, _ => s)
    ∧ Does s i ins
      (fun s l => ∃ x s', root s l x (0 < ·) ∧ s.noteAccess i.block l.tid i.at (va s l / 64) true = .ok s')
      (fun s l => match s.laneXlate i.block l.tid (va s l) .wr, s.noteAccess i.block l.tid i.at (va s l / 64) true with
        | .ok x, .ok s' => (((s'.fillTlb k.core k.tenant x.leaf).closeReds i.block l.tid i.at x.home (bytes s l).1.length).addEffect
            i.block l.tid i.at (.store 0 (va s l) x.home (bytes s l).1)).raiseIn i.block l.tid (bytes s l).2
        | _, _ => s)
    ∧ Does s i ins stores stored
    ∧ Stops s i ins stores stored
      (fun s l => s.frozenAt i.block = false ∧ ∃ va dev ra, about s l = some va ∧ unasked s l va = some (dev, ra)
        ∧ (ask s l va dev ra).2 = true)
      (fun s l => match about s l with
        | none => s
        | some va => match unasked s l va with
          | none => s
          | some (dev, ra) =>
            let s' := (ask s l va dev ra).1
            s'.pauseAt i l (i.pos + 2) (.waiting (.remote s'.fabric.tagCtr)))
    ∧ Stops s i ins stores stored (fun s l => told s l ∧ ∃ s' tag, store s l = .ask s' tag)
      (fun s l => match store s l with
        | .ask s' tag => s'.pauseAt i l (i.pos + 2) (.waiting (.remote tag))
        | _ => s)

/-- R170 to R173 and R183 for a core's own accesses at DL0, in the root view, to memory of this device: what a store leaves
for later loads of the core, and what each policy leaves in memory; the line stands in the core's next signature. A default store changes no memory; a bypassing or fresh
one changes exactly its own bytes of it. -/
def Obligations.CachedAccesses : Prop :=
  ∀ (s : State) (who : Site) (core t va pa n : Nat) (bs : List Byte) (q : Qual), Sparse.wf Core.reset s.cores = true → Memory.wf s.mem = true →
    va % 64 = pa % 64 → bs.length = n → va % 64 + n ≤ 64 → s.lostHome (.dev pa) n = none →
    (∀ x, (s.core core).sector? t (va / 64) = some x → x.bytes.length = 64 ∧ x.home = .dev (pa - pa % 64)) →
    let s' := s.cachedStore who core t va (.dev pa) bs q
    (s'.cachedLoad core t va (.dev pa) n ⟨0, false⟩).2 = bs
    ∧ (q.policy = 0 ∧ q.fresh = false → s'.mem = s.mem)
    ∧ (q.policy ≠ 0 ∨ q.fresh = true →
        (∀ j, j < n → Memory.byte s'.mem (pa + j) = bs.getD j 0)
        ∧ ∀ p, p < pa ∨ pa + n ≤ p → Memory.byte s'.mem p = Memory.byte s.mem p)
    ∧ (t, va / 256) ∈ (s'.core core).written
    ∧ s'.hostMem = s.hostMem ∧ s'.blocks = s.blocks ∧ s'.tenants = s.tenants ∧ s'.pending = s.pending
    ∧ (∀ c, c ≠ core → s'.core c = s.core c)
    ∧ ((s.core core).sector? t (va / 64) = none → (s.cachedLoad core t va (.dev pa) n q).2 = Memory.read s.mem pa n
        ∧ (s.cachedLoad core t va (.dev pa) n q).1.mem = s.mem)

/-- R324 and R329 with R161, R163, R164, R87 and R91: LDS, STS and ATOMS at aligned addresses within the declared scratchpad, which
change no byte of the scratchpad but their own; LDC and STC on a member's scratchpad, LDM and STM on the on-chip map, which
at DL1 and above wait for the turn boundary where they lie on another core. -/
def Obligations.ScratchpadAndOnChipResults : Prop :=
  (∀ (s : State) (i : Issue) (k : Block), Issuing s i k →
     ∀ (w : Width) (d a b c : Reg) (off : BitVec 8) (scope : Scope) (op : AOp) (fmt : Fmt) (ord : Ordering3) (uns : Bool),
     let n := 4 * 2 ^ w.toNat
     let th := fun (s : State) (l : Lane) => s.thread i.block l.tid
     let ad := fun (s : State) (l : Lane) => wrap ((((th s l).reg a.toNat).toNat : Int) + 4 * sext off.toNat 8) 32
     let size := if fmt = .int64 ∨ fmt = .fp64 then 8 else 4
     let at_ := fun (s : State) (l : Lane) => ((th s l).reg a.toNat).toNat
     -- a block alone in its cluster is checked against nobody
     let alone := fun (s : State) => ∃ k', s.block? i.block = some k' ∧ (s.cluster k'.cluster).members.length ≤ 1
     let fits := fun (s : State) (l : Lane) => ad s l % min n 16 = 0 ∧ ad s l + n ≤ s.scratchSize i.block
     let noted := fun (s : State) (l : Lane) (x m : Nat) (st : Bool) => s.noteMember i.block l.tid i.at i.block x m st none
     let onNoted := fun (s : State) (l : Lane) (x m : Nat) (st : Bool) (f : State → State) =>
       match noted s l x m st with | .ok s' => f s' | .error _ => s
     (∀ l x m st, alone s → noted s l x m st = .ok s)
     ∧ DoesLong s i (.lds w d a off) (fun s l => fits s l ∧ ∃ s', noted s l (ad s l) n false = .ok s')
         (fun s l => onNoted s l (ad s l) n false fun s' => s'.pend i.counted l
           (regWrites d.toNat (natToWords (2 ^ w.toNat) (bytesToNat (s.readScratch i.block (ad s l) n)))) [] 0 true false (0, 0, 0) none)
     ∧ Does s i (.sts w d a off) (fun s l => fits s l ∧ ∃ s', noted s l (ad s l) n true = .ok s')
         (fun s l => onNoted s l (ad s l) n true fun s' => s'.updBlock i.block fun k =>
           { k with scratch := Memory.write k.scratch (ad s l) (natToBytes n ((th s l).groupNat d.toNat (2 ^ w.toNat))) })
     ∧ DoesLong s i (.atoms w d a b c scope op fmt ord uns)
         (fun s l => at_ s l % size = 0 ∧ at_ s l + size ≤ s.scratchSize i.block ∧ ∃ s', noted s l (at_ s l) size true = .ok s')
         (fun s l => onNoted s l (at_ s l) size true fun s' =>
           let old := bytesToNat (s.readScratch i.block (at_ s l) size)
           let r := atomStep op fmt uns old ((th s l).groupNat b.toNat (2 ^ w.toNat))
             (if op = .cas then (th s l).groupNat c.toNat (2 ^ w.toNat) else 0)
           (s'.updBlock i.block fun k => { k with scratch := Memory.write k.scratch (at_ s l) (natToBytes size r.1) }).pend
             i.counted l (regWrites d.toNat (natToWords (2 ^ w.toNat) old)) [] r.2 true false (0, 0, 0) none))
  ∧ (∀ (s : State) (i : Issue) (k : Block), Issuing s i k → ∀ (w : Width) (d a : Reg) (off : BitVec 8),
       let n := 4 * 2 ^ w.toNat
       let th := fun (s : State) (l : Lane) => s.thread i.block l.tid
       let ad := fun (s : State) (l : Lane) => wrap ((((th s l).reg a.toNat).toNat : Int) + 4 * sext off.toNat 8) 32
       let aligned := fun (s : State) (l : Lane) => ad s l % min n 16 = 0
       let noted := fun (s : State) (l : Lane) (o at_ : Nat) (st : Bool) => s.noteMember i.block l.tid i.at o at_ n st none
       let member := fun (st : Bool) (s : State) (l : Lane) => aligned s l ∧ ∃ o at_ s', s.clusterAddr i.block (ad s l) n = .ok (o, at_)
         ∧ noted s l o at_ st = .ok s'
       let onMember := fun (st : Bool) (s : State) (l : Lane) (f : State → Nat → Nat → State) =>
         match s.clusterAddr i.block (ad s l) n with
         | .ok (o, at_) => match noted s l o at_ st with | .ok s' => f s' o at_ | .error _ => s
         | .error _ => s
       let place := fun (s : State) (l : Lane) => s.ocmFind (s.tenantOf i.block) (ad s l) n
       DoesLong s i (.ldc w d a off) (member false) (fun s l => onMember false s l fun s' o at_ => s'.pend i.counted l
           (regWrites d.toNat (natToWords (2 ^ w.toNat) (bytesToNat (s'.readMember i.block o at_ n)))) [] 0 true false (0, 0, 0) none)
       ∧ Does s i (.stc w d a off) (member true) (fun s l => onMember true s l fun s' o at_ =>
           s'.writeMember i.block l.tid i.at o at_ (natToBytes n ((th s l).groupNat d.toNat (2 ^ w.toNat))))
       ∧ DoesLong s i (.ldm w d a off) (fun s l => aligned s l ∧ (place s l).isSome) (fun s l => match place s l with
           | some x => s.pend i.counted l (regWrites d.toNat (s.ocmRead i.block (ad s l) x (2 ^ w.toNat))) [] 0 true false (0, 0, 0) none
           | none => s)
       ∧ Does s i (.stm w d a off) (fun s l => aligned s l ∧ (place s l).isSome) (fun s l => match place s l with
           | some x =>
             let ws := (th s l).group d.toNat (2 ^ w.toNat)
             if s.ocmFar i.block (ad s l) then s.addEffect i.block l.tid i.at (.ocm (ad s l) ws) else s.ocmWrite x ws
           | none => s))

/-- Byte memories: a write is read back, changes no byte outside itself, and keeps the canonical form; equal contents are
equal data. -/
def Obligations.MemoryReadsBackWrites : Prop :=
  ∀ (m : Memory) (a : Nat) (bs : List Byte), Memory.wf m = true →
    Memory.wf (Memory.write m a bs) = true
    ∧ Memory.read (Memory.write m a bs) a bs.length = bs
    ∧ (∀ x, x < a ∨ a + bs.length ≤ x → Memory.byte (Memory.write m a bs) x = Memory.byte m x)
    ∧ (∀ m' : Memory, Memory.wf m' = true → (∀ x, Memory.byte m' x = Memory.byte m x) → m' = m)
    ∧ bytesToNat (Memory.read m a bs.length) < 2 ^ (8 * bs.length)
    ∧ (∀ n v, bytesToNat (natToBytes n v) = v % 2 ^ (8 * n) ∧ (natToBytes n v).length = n)

/-- R183 and R326: the new value of an integer element, operation by operation, and one atomic step on memory of this device
that no cache and no reduction buffer holds: the old value, and exactly the element's bytes changed, with the line in the core's
next signature; a CAS that finds another value changes nothing. -/
def Obligations.AtomicStepsAtMemory : Prop :=
  (∀ (wide : Bool) (uns : Bool) (x b c : Nat), let n := if wide then 64 else 32
     x < 2 ^ n → b < 2 ^ n → c < 2 ^ n →
     let step := fun (op : AOp) => atomStep op (if wide then .int64 else .int32) uns x b c
     let less := if uns then decide (x < b) else decide (sext x n < sext b n)
     step .add = ((x + b) % 2 ^ n, 0) ∧ (∃ y, step .sub = (y, 0) ∧ y < 2 ^ n ∧ (y + b) % 2 ^ n = x)
     ∧ step .min = (if less then x else b, 0) ∧ step .max = (if less then b else x, 0)
     ∧ step .and = (x &&& b, 0) ∧ step .or = (x ||| b, 0) ∧ step .xor = (x ^^^ b, 0) ∧ step .xchg = (b, 0)
     ∧ step .cas = (if x = c then b else x, 0)
     ∧ step .incwrap = (if b ≤ x then 0 else x + 1, 0)
     ∧ step .decwrap = (if x = 0 ∨ b < x then b else x - 1, 0)
     ∧ atomStep .add .fp32 uns x b c = fp32.add 0 x b ∧ atomStep .add .fp64 uns x b c = fp64.add 0 x b
     ∧ (∀ f ∈ [Fmt.fp16, Fmt.bf16], (atomStep .add f uns x b c).1
         = ((fpOf f).add 0 (x % 2 ^ 16) (b % 2 ^ 16)).1 + ((fpOf f).add 0 (x / 2 ^ 16 % 2 ^ 16) (b / 2 ^ 16 % 2 ^ 16)).1 * 2 ^ 16))
  ∧ (∀ (s : State) (who : Site) (core t va pa : Nat) (op : AOp) (fmt : Fmt) (uns : Bool) (b c : Nat), Memory.wf s.mem = true →
       s.cores = [] →
       let n := if fmt = .int64 ∨ fmt = .fp64 then 8 else 4
       s.lostHome (.dev pa) n = none →
       let old := bytesToNat (Memory.read s.mem pa n)
       let r := s.atomicAt who core t 0 va (.dev pa) op fmt uns b c
       let failed := op = .cas ∧ old ≠ c % 2 ^ (8 * n)
       r.2.1 = old ∧ r.2.2 = (atomStep op fmt uns old b c).2 ∧ Memory.wf r.1.mem = true
       ∧ bytesToNat (Memory.read r.1.mem pa n)
           = (if failed then old else (atomStep op fmt uns old b c).1 % 2 ^ (8 * n))
       ∧ (∀ p, p < pa ∨ pa + n ≤ p → Memory.byte r.1.mem p = Memory.byte s.mem p)
       ∧ { r.1 with mem := s.mem, cores := s.cores } = s ∧ (failed → r.1 = s) ∧ (¬ failed → (r.1.core core).written = [(t, va / 256)]))

/-- R325 to R328, R183, R86, R38 to R40 and R178: an ATOM of the root view. At DL0 on an element of this device's memory or its
host's it is one step at the home, with its old value pending, after the release and before the acquire that its order asks for.
At DL1 it is held for the turn boundary. On a page of another device it is sent there at domain scope where it is ordered, and an
acquire waits for its answer. The page of another device is asked first; a status that it has given is the result; a release that
is not complete is waited for. -/
def Obligations.AtomResults : Prop :=
  ∀ (s : State) (i : Issue) (k : Block), Issuing s i k →
    ∀ (w : Width) (d a b c : Reg) (scope : Scope) (op : AOp) (fmt : Fmt) (nf : Bool) (ord : Ordering3) (uns : Bool),
    let ins : Instr := .atom w d a b c scope op fmt nf ord uns
    let n := if fmt = .int64 ∨ fmt = .fp64 then 8 else 4
    let th := fun (s : State) (l : Lane) => s.thread i.block l.tid
    let va := fun (s : State) (l : Lane) => ((th s l).pair a.toNat).toNat
    let bv := fun (s : State) (l : Lane) => (th s l).groupNat b.toNat (2 ^ w.toNat)
    let cv := fun (s : State) (l : Lane) => if op = .cas then (th s l).groupNat c.toNat (2 ^ w.toNat) else 0
    let check := fun (s : State) (l : Lane) => s.checkWrite i.block l.tid i.at (va s l) n true (op != .cas) 2
      (atomPageFault scope fmt (va s l))
    let rel := ord = .rel ∨ ord = .ar
    let acq := ord = .acq ∨ ord = .ar
    let sc := fun (x : Xl) => if x.leaf.kind = .remote ∧ ord ≠ .none then max 4 scope.code.toNat else scope.code.toNat
    let before := fun (s : State) (l : Lane) (x : Xl) => if rel then s.fenceRelease i.block l.tid i.at (sc x) else (s, none)
    let result := fun (s : State) (old : Nat) (fl : Flags) (l : Lane) => s.pend i.counted l
      (regWrites d.toNat (natToWords (2 ^ w.toNat) old)) [] fl true false (0, 0, 0) none
    let awaited := fun (s : State) (l : Lane) (x : Xl) => (s.pend i.counted l (regWrites d.toNat (natToWords (2 ^ w.toNat) 0)) [] 0
      false false (d.toNat, 2 ^ w.toNat, if nf then 1 else 0) none).overHost k.tenant x.home 2 (va s l)
    let refused := fun (s : State) (l : Lane) => (th s l).refused (va s l)
    -- the lane goes on at once
    let goes := fun (s : State) (l : Lane) => ∃ s', atomLane w d a b c scope op fmt nf ord uns s i.counted l = .done s'
    let gone := fun (s : State) (l : Lane) => match atomLane w d a b c scope op fmt nf ord uns s i.counted l with
      | .done s' => s'
      | _ => s
    -- the access is aligned, and its page admits it; the release before it is complete
    let passes := fun (s : State) (l : Lane) (s' : State) (x : Xl) (want : Nat → Prop) => va s l % n = 0
      ∧ s.untested i.block l.tid (va s l) .wr = none ∧ (∃ path, check s l = .ok (s', x, path))
      ∧ (∃ k' g, s'.block? i.block = some k' ∧ k'.core = k.core ∧ k'.tenant = k.tenant ∧ s'.gridOf i.block = some g ∧ k'.vtag = 0
          ∧ want g.dl.toNat)
      ∧ (before s' l x).2 = none
    let run := fun (s : State) (l : Lane) (f : State → Xl → State) => match check s l with
      | .ok (s', x, _) => f (before s' l x).1 x
      | .error _ => s
    DoesLong s i ins
      (fun s l => refused s l = 0 ∧ ∃ s' x, passes s l s' x (· = 0) ∧ x.leaf.kind ≠ .remote ∧ (∀ dev ra, x.home ≠ .remote dev ra)
        ∧ (before s' l x).1.lostHome x.home n = none)
      (fun s l => run s l fun s₁ x =>
        let r := s₁.atomicAt ⟨i.block, l.tid, i.at⟩ k.core k.tenant 0 (va s l) x.home op fmt uns (bv s l) (cv s l)
        let s₂ := (result r.1 (if nf then 0 else r.2.1) r.2.2 l).overHost k.tenant x.home 2 (va s l)
        if acq then s₂.acquire i.block (sc x) else s₂)
    ∧ DoesLong s i ins
      (fun s l => refused s l = 0 ∧ ∃ s' x, passes s l s' x (0 < ·) ∧ (before s' l x).1.lostHome x.home n = none)
      (fun s l => run s l fun s₁ x =>
        let s₂ := awaited (s₁.closeReds i.block l.tid i.at x.home n) l x
        s₂.addEffect i.block l.tid i.at
          (.atomic 0 (va s l) x.home op fmt uns nf (BitVec.ofNat 64 (bv s l)) (BitVec.ofNat 64 (cv s l)) s₂.nextUid (sc x)))
    ∧ DoesLong s i ins
      (fun s l => refused s l = 0 ∧ ∃ s' x dev ra, passes s l s' x (· = 0) ∧ x.leaf.kind = .remote ∧ x.home = .remote dev ra)
      (fun s l => run s l fun s₁ x => match x.home with
        | .remote dev ra =>
          let s₂ := awaited ((s₁.closeReds i.block l.tid i.at x.home n).syncSector k.core k.tenant (va s l)) l x
          let r := s₂.sendAtomic k.core k.tenant 0 (va s l) dev ra (sc x) (atomOpw op fmt nf uns false) (bv s l) (cv s l)
            (.atomic s₂.nextUid (if op = .cas ∧ nf = false then some (BitVec.ofNat 64 (cv s l)) else none))
          let s₃ := if r.2 then r.1 else r.1.replyLost s₂.nextUid ⟨cINTEG, 3, 2, va s l⟩
          if acq then
            if s₃.lastSent then
              s₃.park i.counted l.tid (i.pos + 2) (.waiting (.acquire (sc x) s₃.fabric.tagCtr))
            else s₃.acquire i.block (sc x)
          else s₃
        | _ => s)
    ∧ DoesLong s i ins
      (fun s l => refused s l ≠ 0 ∧ ¬ acq ∧ ∃ s' x, passes s l s' x fun _ => True)
      (fun s l => run s l fun s₁ _ => result s₁ (refused s l) 0 l)
    -- a release that is not complete: at DL0 the thread waits by itself, above its clause stands still
    ∧ (let releasing := fun (s : State) (l : Lane) (alone : Bool) => va s l % n = 0 ∧ s.untested i.block l.tid (va s l) .wr = none
         ∧ ∃ s' x path t, check s l = .ok (s', x, path) ∧ (s'.block? i.block).isSome ∧ (s'.gridOf i.block).isSome
           ∧ (before s' l x).2 = some t ∧ t.pauses ((before s' l x).1.dl0 i.block) = !alone
       let waits := fun (s : State) (l : Lane) (f : State → Wait → State) => match check s l with
         | .ok (s', x, _) => match (before s' l x).2 with
           | some t => f (before s' l x).1 t
           | none => s
         | .error _ => s
       DoesLong s i ins (fun s l => releasing s l true)
         (fun s l => waits s l fun s' t => s'.park i.counted l.tid (i.pos + 2) (.waiting t))
       ∧ StopsLong s i ins goes gone (fun s l => releasing s l false)
         (fun s l => waits s l fun s' t => s'.pauseAt i.counted l (i.pos + 2) (.waiting t)))
    ∧ StopsLong s i ins goes gone
      (fun s l => va s l % n = 0 ∧ s.frozenAt i.block = false ∧ ∃ dev ra, s.untested i.block l.tid (va s l) .wr = some (dev, ra)
        ∧ (s.request (s.tenantOf i.block) 0x05 dev scope.code.toNat ra (atomOpw op fmt nf uns true) 0 []
            (.test i.block l.tid 2 (va s l) nf)).2 = true)
      (fun s l => match s.untested i.block l.tid (va s l) .wr with
        | some (dev, ra) =>
          let s' := (s.request (s.tenantOf i.block) 0x05 dev scope.code.toNat ra (atomOpw op fmt nf uns true) 0 []
            (.test i.block l.tid 2 (va s l) nf)).1
          s'.pauseAt i.counted l (i.pos + 2) (.waiting (.remote s'.fabric.tagCtr))
        | none => s)

/-- R330, R184, R91, R38 and R39: a RED of the root view enters its core's buffer, after the core's own copy of the sector has
gone home; on a reduction page at DL2 and above it is held for the end of its grid, and is not checked for races; the page of
another device is asked first. R331, R178, R332, R187, R92 and R333: FENCE, which waits until its release is complete and its
thread's loads from other devices have come; DISCARD at DL0 in the root view; PREF. -/
def Obligations.RedFenceDiscardAndPrefetch : Prop :=
  (∀ (s : State) (i : Issue) (k : Block), Issuing s i k →
      ∀ (w : Width) (a b : Reg) (scope : Scope) (op : AOp) (fmt : Fmt) (uns : Bool),
      let ins : Instr := .red w a b scope op fmt uns
      let n := if fmt = .int64 ∨ fmt = .fp64 then 8 else 4
      let th := fun (s : State) (l : Lane) => s.thread i.block l.tid
      let va := fun (s : State) (l : Lane) => ((th s l).pair a.toNat).toNat
      let bv := fun (s : State) (l : Lane) => BitVec.ofNat 64 ((th s l).groupNat b.toNat (2 ^ w.toNat))
      let here := fun (s : State) (want : Nat → Prop) => ∃ k' g, s.block? i.block = some k' ∧ k'.vtag = 0 ∧ k'.core = k.core
        ∧ k'.grid = k.grid ∧ k'.path = k.path ∧ k'.tenant = k.tenant ∧ k'.fork = none ∧ s.gridOf i.block = some g ∧ want g.dl.toNat
      let goes := fun (s : State) (l : Lane) => ∃ s', redLane w a b scope op fmt uns s i l = .done s'
      let gone := fun (s : State) (l : Lane) => match redLane w a b scope op fmt uns s i l with | .done s' => s' | _ => s
      let check := fun (s : State) (l : Lane) => s.checkWrite i.block l.tid i.at (va s l) n true true 2
        (redPageFault scope op fmt uns (va s l))
      Does s i ins
        (fun s l => va s l % n = 0 ∧ s.untested i.block l.tid (va s l) .wr = none ∧ here s (· ≤ 1)
          ∧ ∃ s' x path, check s l = .ok (s', x, path) ∧ s'.lostHome x.home n = none)
        (fun s l => match check s l with
          | .ok (s', x, _) => ((s'.syncSector k.core k.tenant (va s l)).dropProxy k.tenant (va s l) n).bufferRed k.core k.grid k.tenant
              ⟨i.block, l.tid, i.at⟩ (va s l) x.home op fmt uns (bv s l) scope.code.toNat
          | .error _ => s)
      ∧ Does s i ins
        (fun s l => va s l % n = 0 ∧ s.untested i.block l.tid (va s l) .wr = none ∧ here s (2 ≤ ·)
          ∧ ∃ x, s.laneXlate i.block l.tid (va s l) .wr = .ok x ∧ x.leaf.redop ≠ 0
          ∧ redPageFault scope op fmt uns (va s l) x.leaf = none ∧ s.lostHome x.home n = none)
        (fun s l => match s.laneXlate i.block l.tid (va s l) .wr with
          | .ok x => (s.fillTlb k.core k.tenant x.leaf).holdRed k i.block l.tid (va s l) op fmt (bv s l)
          | .error _ => s)
      ∧ Stops s i ins goes gone
        (fun s l => va s l % n = 0 ∧ s.frozenAt i.block = false ∧ ∃ dev ra, s.untested i.block l.tid (va s l) .wr = some (dev, ra)
          ∧ (s.request (s.tenantOf i.block) 0x05 dev scope.code.toNat ra (atomOpw op fmt true uns true) 0 []
              (.test i.block l.tid 2 (va s l) false)).2 = true)
        (fun s l => match s.untested i.block l.tid (va s l) .wr with
          | some (dev, ra) =>
            let s' := (s.request (s.tenantOf i.block) 0x05 dev scope.code.toNat ra (atomOpw op fmt true uns true) 0 []
              (.test i.block l.tid 2 (va s l) false)).1
            s'.pauseAt i l (i.pos + 2) (.waiting (.remote s'.fabric.tagCtr))
          | none => s))
  ∧ (∀ (s : State) (i : Issue) (k : Block), Issuing s i k →
      ∀ (a : Reg) (scope : Scope) (kind : FenceKind) (m off : BitVec 8) (pol : Policy),
      let th := fun (s : State) (l : Lane) => s.thread i.block l.tid
      let va := fun (s : State) (l : Lane) => ((th s l).pair a.toNat).toNat
      (let sc := scope.code.toNat
       let ins : Instr := .fence kind scope
       let out := fun (s : State) (l : Lane) =>
         if kind = .acq then (s, s.loadsWait i.block l.tid) else s.fenceRelease i.block l.tid i.at sc
       let quiet := fun (s : State) (l : Lane) => (th s l).px = 0 ∨ (th s l).hm = true
       let fenced := fun (s : State) (l : Lane) => quiet s l ∧ (out s l).2 = none
       let passed := fun (s : State) (l : Lane) => if kind = .rel then (out s l).1 else (out s l).1.acquire i.block sc
       let waits := fun (s : State) (l : Lane) (alone : Bool) => quiet s l
         ∧ ∃ t, (out s l).2 = some t ∧ t.pauses ((out s l).1.dl0 i.block) = !alone
       Does s i ins fenced passed
       ∧ Does s i ins (fun s l => waits s l true)
         (fun s l => match (out s l).2 with
           | some t => (out s l).1.park i l.tid (i.pos + 1) (.waiting t)
           | none => s)
       ∧ Stops s i ins fenced passed (fun s l => waits s l false)
         (fun s l => match (out s l).2 with
           | some t => (out s l).1.pauseAt i l (i.pos + 1) (.waiting t)
           | none => s)
       -- a fence at thread or block scope, or one whose release is made, waits for the thread's loads alone
       ∧ (∀ s l, kind = .acq ∨ (th s l).released = true ∨ sc < 2 → (out s l).1 = s
           ∧ ((out s l).2 = none ↔ s.loadTags i.block l.tid = []))
       -- a release at DL0: the core's dirty sectors and buffered reductions go home, what other devices have not answered is
       -- waited for, and then the signature is given: at cluster and device scope on this device
       ∧ (∀ s l k', kind ≠ .acq → s.block? i.block = some k' → (th s l).released = false → 2 ≤ sc → k'.vtag = 0 → s.dl0 i.block = true →
           let s₁ := s.sendHome k'.core k'.grid
           (s₁.tagsOpen (s₁.ackTags k'.tenant) = true → out s l = (s₁, some (.acks sc (s₁.ackTags k'.tenant) false)))
           ∧ (s₁.tagsOpen (s₁.ackTags k'.tenant) = false → sc < 4 →
               (out s l).1 = s₁.signNear k'.core k'.cluster sc
               ∧ ((out s l).2 = none ↔ (out s l).1.loadTags i.block l.tid = []))
           ∧ (s₁.tagsOpen (s₁.ackTags k'.tenant) = false → 4 ≤ sc →
               (out s l).1 = s₁.signCores [k'.core] k'.tenant
               ∧ ((out s l).1.signTags k'.tenant ≠ [] → (out s l).2 = some (.acks sc ((out s l).1.signTags k'.tenant) true))))
       -- at DL1 and above a release is an effect of the turn, after the core's buffered reductions
       ∧ (∀ s l k', kind ≠ .acq → s.block? i.block = some k' → (th s l).released = false → 2 ≤ sc → k'.vtag = 0 → s.dl0 i.block = false →
           (out s l).1 = (s.redsToTurn i.block l.tid i.at k' fun _ => true).addEffect i.block l.tid i.at (.release sc)))
      ∧ (let secs := fun (s : State) (l : Lane) => (List.range (m.toNat + 1)).map fun j => ea (va s l) (64 * j : Nat)
         let one := fun (s : State) (l : Lane) (v : Nat) => match s.laneXlate i.block l.tid v .wr with
           | .error _ => s
           | .ok x =>
             let s₁ := (if s.missOn k.tenant v then s.threadEvent i.block l.tid 0x02 i.at else s).dropProxy k.tenant v 64
             if x.leaf.kind = .remote then s₁.discardFar k.tenant v else s₁.discardOne i.block l.tid i.at i.core v x.home true
         Does s i (.discard a m)
           (fun s l => va s l % 64 = 0 ∧ (∃ k' g, s.block? i.block = some k' ∧ s.gridOf i.block = some g
             ∧ k'.vtag = 0 ∧ g.dl = 0 ∧ k'.fork = none ∧ k'.tenant = k.tenant)
             ∧ ∀ v ∈ secs s l, s.untested i.block l.tid v .wr = none ∧ ∃ x, s.laneXlate i.block l.tid v .wr = .ok x)
           (fun s l => (secs s l).foldl (fun s v => one s l v) s))
      ∧ (let line := fun (s : State) (l : Lane) => ea (va s l) (64 * sext off.toNat 8) / 64 * 64
         Does s i (.pref a off pol)
          (fun s _ => ∃ k' g, s.block? i.block = some k' ∧ k'.core = k.core ∧ k'.tenant = k.tenant ∧ k'.vtag = k.vtag
            ∧ s.gridOf i.block = some g ∧ g.dl = 0)
          (fun s l => match s.xlate k.core k.tenant (line s l) .rd with
            | .error _ => s
            | .ok x =>
              if pol ≠ .dflt ∨ x.leaf.policy ≠ 0 ∨ k.vtag ≠ 0 ∨ x.leaf.kind = .remote ∨ (s.lostHome x.home 64).isSome
                ∨ ∃ r ∈ (s.core k.core).reds, r.home.overlaps 8 x.home 64 = true then s
              else (s.cachedLoad k.core k.tenant (line s l) x.home 64 ⟨0, false⟩).1)))

/-- R46, R334, R87 and R92: an STMC to a page of the tenant's domain, at DL0, is applied to this device's entry of its tree, and
records MCAST where it meets a unicast store that has not reached its home; at DL1 it is sent at the turn boundary. Where the
tree delivers here and reaches no other device, the store is made at its home, and nothing is outstanding. -/
def Obligations.MulticastStores : Prop :=
  (∀ (s : State) (i : Issue) (k : Block), Issuing s i k → ∀ (w : Width) (d a b : Reg),
    let n := 4 * 2 ^ w.toNat
    let th := fun (s : State) (l : Lane) => s.thread i.block l.tid
    let va := fun (s : State) (l : Lane) => ((th s l).pair a.toNat).toNat
    let tree := fun (s : State) (l : Lane) => ((th s l).reg b.toNat).toNat
    let bytes := fun (s : State) (l : Lane) => natToBytes n ((th s l).groupNat d.toNat (2 ^ w.toNat))
    let fits := fun (s : State) (l : Lane) (x : Xl) (s' : State) (want : Nat → Prop) => tree s l < 2 ^ 8 ∧ va s l % min n 32 = 0
      ∧ (∃ k' g, s.block? i.block = some k' ∧ k'.tenant = k.tenant ∧ k'.core = k.core ∧ k'.fork = none ∧ k'.vtag = 0
          ∧ s.gridOf i.block = some g ∧ want g.dl.toNat)
      ∧ s.xlate k.core k.tenant (va s l) .wr = .ok x ∧ x.leaf.kind = .local ∧ x.leaf.domain ≠ 0
      ∧ s.noteAccess i.block l.tid i.at (va s l / 64) true = .ok s'
    let closed := fun (s : State) (l : Lane) => match s.xlate k.core k.tenant (va s l) .wr, s.noteAccess i.block l.tid i.at (va s l / 64) true with
      | .ok x, .ok s' => (s'.fillTlb k.core k.tenant x.leaf).closeReds i.block l.tid i.at x.home n
      | _, _ => s
    Does s i (.stmc w d a b)
      (fun s l => ∃ x s', fits s l x s' (· = 0))
      (fun s l =>
        let s₁ := closed s l
        (if s₁.dirtyMeets k.tenant (va s l) n then s₁.threadEvent i.block l.tid 0x0A i.at else s₁).multicast
          i.block l.tid i.at k.core k.tenant (tree s l) (va s l) (bytes s l))
    ∧ Does s i (.stmc w d a b)
      (fun s l => ∃ x s', fits s l x s' (0 < ·))
      (fun s l => (closed s l).addEffect i.block l.tid i.at
        (.mcast (tree s l) (va s l) (bytes s l) ((closed s l).deliversHere k.tenant (tree s l)))))
  ∧ (∀ (s : State) (b tid core t tree va : Nat) (pc : Dword) (bs : List Byte) (x : Xl),
      let e := (Sparse.get Tree.none s.fabric.trees tree).bits.toNat
      let s₁ := (s.newTag.2.syncSector core t va).noteWritten core t va
      e.testBit 19 = true → e.testBit 18 = true → e / 2 ^ 20 % 2 ^ 6 = t → e % 2 ^ 18 = 0 →
      s₁.pageHere t va 4 .wr = .ok x → s₁.lostHome x.home bs.length = none → s₁.fabric.trees = s.fabric.trees →
      s.multicast b tid pc core t tree va bs = ((s₁.fillTlb ownSite t x.leaf).storeHome (some ⟨b, tid, pc⟩) t va x.home bs).newTag.2)

/-! ## Class CTL -/

/-- R253, R255 and R256: a transfer to a target that is a multiple of 4 leaves the clause there, with the link in its pair:
BRA and CALL relative to the header, BRI, CALLI and RET by a pair that is read before the link is written. -/
def Obligations.TransferResults : Prop :=
  ∀ (s : State) (i : Issue) (k : Block), Issuing s i k → ∀ (d a : Reg) (imm : Half),
    let rel : Dword := i.pc + BitVec.ofInt 64 (4 * sext imm.toNat 16)
    let ind := fun (s : State) (l : Lane) => (s.thread i.block l.tid).pair a.toNat
    let goes := fun (ins : Instr) (target : State → Lane → Dword) (link : Thread → Thread) =>
      Does s i ins (fun s l => (target s l).toNat % 4 = 0) fun s l =>
        (s.updThread i.block l.tid fun th => { link th with
          pc := target s l, clpos := 0, keep := false, retired := th.retired + 1, turnRetired := th.turnRetired + 1
          released := false, pages := [], captured := [] }).dropLane l.tid
    let linked := fun (th : Thread) => th.setPair d.toNat i.next
    goes (.bra imm) (fun _ _ => rel) id ∧ goes (.bri a) ind id ∧ goes (.call d imm) (fun _ _ => rel) linked
    ∧ goes (.calli d a) ind linked ∧ goes (.ret a) ind id
    ∧ i.next = i.pc + BitVec.ofNat 64 (4 * (i.header.n.toNat + 1))

/-- R257 to R259: what the end of a thread leaves of it, with nothing else of its block changed; EXIT of a thread with no fork
of its own and no speculative view open, NOP, YIELD and REFORM. -/
def Obligations.ThreadEndAndHints : Prop :=
  (∀ (s : State) (b tid : Nat) (k : Block), s.block? b = some k → tid < k.T → k.specs = [] → Sparse.wf Core.reset s.cores = true →
     let t := s.endThread b tid
     ∃ k', t.block? b = some k' ∧ (k'.thread tid).status = .exited ∧ (k'.thread tid).flags = BitVec.allOnes 12
       ∧ (k'.thread tid).px = 0 ∧ (k'.thread tid).hm = false ∧ (k'.thread tid).marks = [] ∧ (k'.thread tid).owed = [] ∧ (k'.thread tid).trec = []
       ∧ (k'.thread tid).regs = (k.thread tid).regs ∧ (∀ x, x ≠ tid → k'.thread x = k.thread x)
       ∧ { k' with threads := k.threads } = k
       ∧ t.pending = s.pending.filter (fun p => !(p.block == b && p.tid == tid))
       ∧ (∀ x ∈ (t.core k.core).cache, x.dirty = 0)
       ∧ (tid = 0 → k.parent = none → ∀ g x, s.grid? k.grid = some g → g.task = some x →
           ∃ g', t.grid? k.grid = some g' ∧ (g'.task.bind (·.result)) = some (x.result.getD ((k.thread 0).group 0 8))))
  ∧ (∀ (s : State) (i : Issue) (k : Block), Issuing s i k →
       Does s i .exit (fun s l => ∃ k', s.block? i.block = some k' ∧ k'.specs = [] ∧ ∀ f, k'.fork = some f → f.tid ≠ l.tid)
         (fun s l => (s.endThread i.block l.tid).dropLane l.tid)
       ∧ Does s i .nop (fun _ _ => True) (fun s _ => s)
       ∧ Does s i .yield (fun _ _ => True) (fun s l => s.updBlock i.block fun k => match k.yieldKey (l.tid / 4) i.pc with
           | none => k
           | some p => k.updQuad (l.tid / 4) fun q => { q with yielded := some p })
       ∧ Does s i .reform (fun _ _ => True) (fun s _ => { s with issue := s.issue.map fun j => { j with reform := true } })
       ∧ (∀ (k : Block) (q : Nat) (pc p : Dword), k.yieldKey q pc = some p →
           pc.toNat < p.toNat ∧ (∃ t ∈ k.quadThreads q, (k.thread t).canIssue = true ∧ (k.thread t).pc = p)
           ∧ ∀ t ∈ k.quadThreads q, (k.thread t).canIssue = true → pc.toNat < (k.thread t).pc.toNat → p.toNat ≤ (k.thread t).pc.toNat))

/-- R97 to R99, R115, R197, R260, R261, R263 and R264: a thread with no pending trap arrives at a declared barrier and waits there;
RWAIT waits in a quad with a split tag at DL0 and passes otherwise; FORK within the limits of R97, and JOIN and VDROP of the
thread whose fork is open. The timer of a phase starts with its first arrival. -/
def Obligations.BarriersForksAndJoins : Prop :=
  (∀ (s : State) (i : Issue) (k : Block), Issuing s i k → ∀ x : BitVec 8,
     let free := fun (s : State) (l : Lane) => (s.thread i.block l.tid).px = 0 ∨ (s.thread i.block l.tid).hm = true
     let declared := fun (s : State) => ∃ n, s.kernelOf i.block = some n ∧ x.toNat < n.bars
     let arrived := fun (s : State) (bs : Sparse Barrier) (e : Nat × Nat) => Sparse.set Barrier.empty bs x.toNat
       ((Sparse.get Barrier.empty bs x.toNat).arrive e (s.deadline i.block (s.btoOf i.block)))
     Does s i (.bar x) (fun s l => declared s ∧ free s l) (fun s l =>
         (s.updBlock i.block fun k => { k with bars := arrived s k.bars (0, l.tid) }).park i l.tid (i.pos + 1) (.waiting (.bar x.toNat)))
     ∧ (let here := fun (s : State) (l : Lane) => declared s ∧ free s l
          ∧ ∃ k', s.block? i.block = some k' ∧ k'.cluster = k.cluster ∧ k'.member = k.member
        let release := fun (s : State) (l : Lane) => s.releaseAt i.block l.tid i.at 2
        Does s i (.cbar x) (fun s l => here s l ∧ (release s l).2 = none)
          (fun s l => ((release s l).1.updCluster k.cluster fun c => { c with cbars := arrived s c.cbars (k.member, l.tid) }).park
            i l.tid (i.pos + 1) (.waiting (.cbar x.toNat)))
        ∧ Does s i (.cbar x) (fun s l => here s l ∧ s.dl0 i.block = true ∧ (release s l).2.isSome)
          (fun s l => match (release s l).2 with
            | some t => (release s l).1.park i l.tid (i.pos + 1) (.waiting t)
            | none => s))
     ∧ Does s i .rwait (fun s l => ∃ k', s.block? i.block = some k' ∧ ((k'.quad (l.tid / 4)).tag = 0 ∨ s.dl0 i.block = false))
         (fun s _ => s)
     ∧ Does s i .rwait (fun s l => ∃ k', s.block? i.block = some k' ∧ (k'.quad (l.tid / 4)).tag ≠ 0 ∧ s.dl0 i.block = true)
         (fun s l => (s.updBlock i.block fun k' => if k'.rwaits.any (fun e => e.1 == (k'.quad (l.tid / 4)).tag) then k'
           else { k' with rwaits := k'.rwaits ++ [((k'.quad (l.tid / 4)).tag, s.deadline i.block (s.btoOf i.block))] }).park
         i l.tid (i.pos + 1) (.waiting .rwait))
     ∧ (∀ (y : Barrier) (e : Nat × Nat) (due : Nat), (y.arrive e due).arrived.contains e = true
         ∧ (∀ z, y.arrived.contains z = true → (y.arrive e due).arrived.contains z = true)
         ∧ (y.arrive e due).due = if y.arrived = [] then due else y.due))
  ∧ (∀ (s : State) (i : Issue) (k : Block), Issuing s i k → ∀ (a : Reg) (imm : Word),
       let entry : Dword := i.pc + BitVec.ofInt 64 (4 * sext imm.toNat 32)
       let n := fun (s : State) (l : Lane) => ((s.thread i.block l.tid).reg a.toNat).toNat
       let mine := fun (s : State) (l : Lane) (f : Fork) => ∃ k', s.block? i.block = some k' ∧ k'.fork = some f ∧ f.tid = l.tid
       let cut := fun (s : State) (f : Fork) => s.dropFork i.block f false
       let release := fun (s : State) (l : Lane) (k' : Block) => s.releaseAt i.block l.tid i.at (s.parentScope k'.tenant)
       let may := fun (s : State) (l : Lane) (k' : Block) (vid : Nat) => s.block? i.block = some k' ∧ 1 ≤ n s l ∧ n s l ≤ 4096
         ∧ k'.fork = none ∧ s.viewDepth k'.vtag < 8 ∧ s.freeVids (n s l) = some vid
       Does s i (.fork a imm) (fun s l => ∃ k' vid, may s l k' vid ∧ (release s l k').2 = none)
         (fun s l => match s.block? i.block, s.freeVids (n s l) with
           | some k', some vid => (release s l k').1.openFork i l k' (n s l) vid entry
           | _, _ => s)
       ∧ Does s i (.fork a imm) (fun s l => s.dl0 i.block = true ∧ ∃ k' vid, may s l k' vid ∧ (release s l k').2.isSome)
         (fun s l => match s.block? i.block with
           | some k' => match (release s l k').2 with
             | some t => (release s l k').1.park i l.tid (i.pos + 2) (.waiting t)
             | none => s
           | none => s)
       ∧ (∀ (s : State) (b tid scope : Nat) (pc : Dword) (k' : Block), s.block? b = some k' →
           (k'.thread tid).released = true ∨ scope < 2 ∨ k'.vtag ≠ 0 → s.releaseAt b tid pc scope = (s, none))
       ∧ (∀ (s : State) (l : Lane) (k' : Block) (m vid : Nat), s.block? i.block = some k' → l.tid < k'.T →
           ∃ k₁ f, (s.openFork i l k' m vid entry).block? i.block = some k₁ ∧ k₁.fork = some f ∧ k₁.frozen = true
             ∧ f.n = m ∧ f.tid = l.tid ∧ f.pc = i.at ∧ f.entry = entry ∧ f.vtag0 = s.fabric.devid.toNat * 2 ^ 16 + vid
             ∧ f.args = (k'.thread l.tid).group 0 8 ∧ f.next = 0 ∧ f.done = 0 ∧ f.asked = false ∧ f.checked = false
             ∧ (k₁.thread l.tid).forks = (k'.thread l.tid).forks + 1 ∧ (∀ x, x ≠ l.tid → (k₁.thread x).forks = (k'.thread x).forks)
             ∧ ∀ x, (k₁.thread x).regs = (k'.thread x).regs ∧ (k₁.thread x).preds = (k'.thread x).preds)
       ∧ Does s i .join (fun s l => ∃ f, mine s l f) (fun s l => s.park i l.tid (i.pos + 1) (.waiting .join))
       ∧ Does s i .vdrop (fun s l => ∃ f, mine s l f ∧ (cut s f).issue = s.issue)
           (fun s l => match (s.block? i.block).bind (·.fork) with
             | some f => (cut s f).park i l.tid (i.pos + 1) (.waiting .vdrop)
             | none => s))

/-- R265 to R270, R125, R127 and R128: an invocation with no fault of its operands. At DL0 with a slot granted the handle is
written and the task sent, without one the thread waits for a slot; at DL1 and above it waits for the boundary with its
effect held. AWAIT, HPOLL and HDROP on a handle that the thread may name. -/
def Obligations.InvocationAndHandleResults : Prop :=
  (∀ (s : State) (i : Issue) (k : Block), Issuing s i k → ∀ (d a b c : Reg) (n : BitVec 4),
     let th := fun (s : State) (l : Lane) => s.thread i.block l.tid
     let D := fun (s : State) (l : Lane) => match s.block? i.block with | some k' => k'.rngD l.tid | none => 0
     let form := fun (ins : Instr) (call : Thread → Call) (kernel : Thread → Dword) =>
       let legal := fun (s : State) (l : Lane) => ∃ k', s.block? i.block = some k' ∧ k'.tenant = k.tenant ∧ k'.sto = k.sto
         ∧ s.callTrap k' (kernel (th s l)) (call (th s l)) = none
       Does s i ins (fun s l => legal s l ∧ s.dl0 i.block = true ∧ s.slotGranted i.block l.tid = true ∧ ∃ slot, s.freeSlot k.tenant = some slot)
         (fun s l => match s.freeSlot k.tenant with
           | some slot => s.makeCall i.block l.tid slot d (call (th s l)) (kernel (th s l)) (argWords (th s l) c n.toNat) (D s l)
           | none => s)
       ∧ Does s i ins (fun s l => legal s l ∧ s.dl0 i.block = true ∧ s.slotGranted i.block l.tid = false)
         (fun s l =>
           let since := (th s l).slotSince.getD (s.cycle, l.lane, s.deadline i.block k.sto)
           (s.updThread i.block l.tid fun x => { x with slotSince := some since }).park i l.tid (i.pos + 2) (.waiting (.slot since.2.2)))
       ∧ Does s i ins (fun s l => legal s l ∧ s.dl0 i.block = false)
         (fun s l => (s.addEffect i.block l.tid i.at
           ((call (th s l)).effect d (kernel (th s l)) (argWords (th s l) c n.toNat) (D s l))).park i l.tid (i.pos + 2) (.waiting .boundary))
     form (.invoke d a b c n) (fun th => .target (th.reg b.toNat)) (fun th => th.pair a.toNat)
     ∧ form (.invokeOn d a b c n) (fun th => .on (th.pair a.toNat)) (fun th => th.pair b.toNat)
     ∧ (∀ (th : Thread), (argWords th c n.toNat).length = 8 ∧ ∀ j, j < 8 → c.toNat ≤ 247 → (argWords th c n.toNat)[j]?
         = some (if j < n.toNat then th.reg (c.toNat + j) else 0)))
  ∧ (∀ (s : State) (i : Issue) (k : Block), Issuing s i k → ∀ (d a : Reg) (pb : PredNo) (trap : Bool),
       let h := fun (s : State) (l : Lane) => (s.thread i.block l.tid).pair a.toNat
       let legal := fun (s : State) (l : Lane) => ∃ k', s.block? i.block = some k' ∧ k'.tenant = k.tenant ∧ k'.grid = k.grid
         ∧ s.awaitTrap k' (h s l) = none
       let ins : Instr := .await d a pb trap
       let here := fun (s : State) (l : Lane) => hHome (h s l) = s.fabric.devid
       let ask := fun (s : State) (l : Lane) => s.askHome (h s l) .await (.await i.block l.tid)
       let wait := fun (s : State) (l : Lane) (h : Dword) (told : List Word) =>
         s.park i l.tid (i.pos + 2) (.waiting (.awaitH h d pb trap told))
       Does s i ins (fun s l => legal s l ∧ here s l ∧ (s.dl0 i.block = false ∨ s.handleView (h s l) = .notReady))
           (fun s l => wait s l (h s l) [])
       ∧ Does s i ins (fun s l => legal s l ∧ here s l ∧ s.dl0 i.block = true ∧ ∃ r, s.handleView (h s l) = .ready r)
           (fun s l => match s.handleView (h s l) with
             | .ready r => ((s.learn i.block (match s.entryOf (h s l) with | some e => e.knows | none => [])).acquire i.block 4).updThread
                 i.block l.tid fun th => (th.setGroup d.toNat r).setPred pb.toNat false
             | _ => s)
       ∧ (trap = false → Does s i ins (fun s l => legal s l ∧ here s l ∧ s.dl0 i.block = true ∧ ∃ st, s.handleView (h s l) = .broken st)
           (fun s l => match s.handleView (h s l) with
             | .broken st => s.updThread i.block l.tid fun th => (th.setGroup d.toNat (st :: List.replicate 7 0)).setPred pb.toNat true
             | _ => s))
       -- of a handle homed elsewhere each AWAIT asks the home, and is broken with INTEG where no route leads there
       ∧ Does s i ins (fun s l => legal s l ∧ ¬ here s l ∧ (ask s l).isSome)
           (fun s l => match ask s l with | some (t, _) => wait t l (h s l) [] | none => s)
       ∧ Does s i ins (fun s l => legal s l ∧ ¬ here s l ∧ ask s l = none)
           (fun s l => wait (s.homeless i.block l.tid i.at (h s l)).1 l (h s l) [statusWord (BitVec.ofNat 8 cINTEG) 0 0])
       ∧ Does s i (.hpoll d a) (fun s l => legal s l ∧ here s l) (fun s l =>
           let t := s.threadEvent i.block l.tid 0x03 i.at
           t.updThread i.block l.tid fun th => th.setReg d.toNat (match t.handleView (h s l) with
             | .notReady => 0
             | .ready _ => 1
             | .broken st => 0x80000000 ||| st))
       ∧ (let poll := fun (s : State) (l : Lane) =>
            (s.threadEvent i.block l.tid 0x03 i.at).askHome (h s l) .poll (.poll i.block l.tid d.toNat)
          let homeless := fun (s : State) (l : Lane) => legal s l ∧ ¬ here s l ∧ poll s l = none
          let broken := fun (s : State) (l : Lane) =>
            ((s.threadEvent i.block l.tid 0x03 i.at).homeless i.block l.tid i.at (h s l)).1.updThread i.block l.tid fun th =>
              th.setReg d.toNat (0x80000000 ||| statusWord (BitVec.ofNat 8 cINTEG) 0 0)
          Does s i (.hpoll d a) homeless broken
          ∧ Stops s i (.hpoll d a) homeless broken (fun s l => legal s l ∧ ¬ here s l ∧ (poll s l).isSome) (fun s l =>
              match poll s l with
              | some (t, tag) => t.pauseAt i l (i.pos + 1) (.waiting (.remote tag))
              | none => s))
       ∧ (∀ (s : State) (h : Dword) (k : Asking) (what : RemoteFor) (t : State) (tag : Word), s.askHome h k what = some (t, tag) →
           ∃ r ∈ t.fabric.remotes, r.tag = tag ∧ r.what = what ∧ r.dst = hHome h)
       ∧ Does s i (.hdrop a) (fun s l => ∃ k', s.block? i.block = some k' ∧ k'.tenant = k.tenant ∧ k'.grid = k.grid
           ∧ s.handleTrap k.tenant (h s l) = none)
           (fun s l => let t := s.dropHandle (h s l)
             if s.freeSlots k.tenant < t.freeSlots k.tenant then t.updGrid k.grid fun g => { g with ownFreed := g.ownFreed + 1 } else t))

/-- R271 to R273: SPEC and SPECEND arrive and wait, and BOLT appends its record and ends the thread. -/
def Obligations.SpeculationAndBolt : Prop :=
  ∀ (s : State) (i : Issue) (k : Block), Issuing s i k → ∀ (d a : Reg) (imm : Word),
    Does s i (.spec a) (fun _ _ => True) (fun s l => (s.arriveSpec i.block l.tid).park i l.tid (i.pos + 1)
        (.waiting (.spec ((s.thread i.block l.tid).group a.toNat 8))))
    ∧ Does s i .specend (fun s _ => ∃ k', s.block? i.block = some k' ∧ k'.specs ≠ []) (fun s l =>
        (s.arriveSpecend i.block l.tid).park i l.tid (i.pos + 1) (.waiting .specend))
    ∧ Does s i (.bolt d a imm)
        (fun s l => ∃ k' g, s.block? i.block = some k' ∧ k'.core = k.core ∧ s.gridOf i.block = some g ∧ k'.specs = []
          ∧ ∀ f, k'.fork = some f → f.tid ≠ l.tid)
        (fun s l =>
          let th := s.thread i.block l.tid
          let entry : Dword := i.pc + BitVec.ofInt 64 (4 * sext imm.toNat 32)
          let since := match s.gridOf i.block with | some g => s.binTime g.dl k.core | none => 0
          ((s.updCore k.core fun c => { c.boltBin i.block entry (th.reg a.toNat) with
            bolts := c.bolts ++ [⟨i.block, l.tid, entry, th.reg a.toNat, th.group d.toNat 8, th.retired + 1, since⟩] }).endThread
            i.block l.tid).dropLane l.tid)

/-! ## Class ENG -/

/-- R335, R336, R338, R179, R340, R342 and R354: a copy or a near-bank operation whose block is well formed, whose scratchpad bytes
lie within their members, whose barrier is valid and, where it writes global memory, whose block is not frozen, is posted:
after the release at the widest scope of its pages and spaces, the next number of its timeline, and its place among the
operations. Where that release is not complete at DL0 the thread waits for it. -/
def Obligations.CopyPosting : Prop :=
  ∀ (s : State) (i : Issue) (k : Block), Issuing s i k → ∀ (d a : Reg) (st ss tb : Bool) (p : PBlock),
    let th := fun (s : State) (l : Lane) => s.thread i.block l.tid
    let pw := fun (s : State) (l : Lane) (j : Nat) => paramAt p (th s l) j
    let va := fun (s : State) (l : Lane) (j : Nat) => pw s l j + pw s l (j + 1) * 2 ^ 32
    let len := fun (s : State) (l : Lane) => ((th s l).reg a.toNat).toNat
    let quad := fun (s : State) (l : Lane) => (th s l).groupNat a.toNat 4
    let bar := fun (s : State) (l : Lane) =>
      if tb = true then (s.tbAddr i.block ((th s l).reg d.toNat).toNat).map some else .ok none
    let ok := fun (writes : Bool) (s : State) (l : Lane) => (∃ e, bar s l = .ok e)
      ∧ (writes = true → ∀ k', s.block? i.block = some k' → k'.frozen = false)
    let fits := fun (s : State) (ad n : Nat) => ∃ x, s.clusterAddr i.block ad n = .ok x
    let reserved := fun (ad : Nat) => bitsAt ad 19 9 ≠ 0
    let posts := fun (ins : Instr) (P : State → Lane → Prop) (tlk : Nat) (kind : State → Lane → EngKind) =>
      let scope := fun (s : State) (l : Lane) => s.kindScope i.block (kind s l)
      let rel := fun (s : State) (l : Lane) => s.releaseAt i.block l.tid i.at (scope s l)
      Does s i ins (fun s l => P s l ∧ (rel s l).2 = none) (fun s l => (rel s l).1.post i l (scope s l) tlk
        (match bar s l with | .ok (some e) => some (e.1 * 2 ^ 20 + e.2) | _ => none) (kind s l))
      ∧ Does s i ins (fun s l => P s l ∧ s.dl0 i.block = true ∧ (rel s l).2.isSome) (fun s l => match (rel s l).2 with
        | some w => (rel s l).1.park i l.tid (i.pos + 5) (.waiting w)
        | none => s)
    (∀ (s : State) (l : Lane) (scope tlk : Nat) (b : Option Nat) (kind : EngKind) (k' : Block) (g : Grid),
      s.block? i.block = some k' → s.grid? k'.grid = some g → s.post i l scope tlk b kind =
        { (s.setBlock i.block { k' with tlPost := Sparse.set 0 k'.tlPost tlk (Sparse.get 0 k'.tlPost tlk + 1) }).setGrid k'.grid
            { g with effSeq := g.effSeq + 1 } with
          nextUid := s.nextUid + 1
          engines := s.engines ++ [⟨s.nextUid + 1, i.block, l.tid, i.at, k'.vtag, kind, tlk, Sparse.get 0 k'.tlPost tlk + 1, b,
            [], 0, false, false, scope, none, g.effSeq⟩] })
    ∧ (∀ (s : State) (b x y n : Nat), s.kindScope b (.cpys x y n) = max (s.memberScope b x) (s.memberScope b y)
        ∧ s.kindScope b (.cpyr true x y n) = 3
        ∧ s.memberScope b x = if s.memberOf b (bitsAt x 28 4) = some b then 1 else 2)
    ∧ (∀ (s : State) (b : Nat) (k' : Block) (kind : EngKind), s.block? b = some k' →
        ∀ r ∈ s.kindReads k'.core k'.tenant kind ++ kind.others, s.pageScope k'.core k'.tenant r.1 ≤ s.kindScope b kind)
    ∧ (let rec_ := fun (s : State) (l : Lane) => pw s l 0 + pw s l 1 * 2 ^ 32 + pw s l 2 * 2 ^ 64 + pw s l 3 * 2 ^ 96
       let F := fun (s : State) (l : Lane) (lo n : Nat) => bitsAt (rec_ s l) lo n
       let C := fun (s : State) (l : Lane) (lo n : Nat) => bitsAt (quad s l) lo n
       let e := fun (s : State) (l : Lane) => tensorBits (F s l 56 4)
       let boxc := fun (s : State) (l : Lane) => C s l 64 16 + 1
       let size := fun (s : State) (l : Lane) => (C s l 80 16 + 1) * rowBytes (boxc s l) (e s l)
       posts (.cpy d a st tb p)
        (fun s l => F s l 53 3 = 0 ∧ F s l 62 2 = 0 ∧ F s l 56 4 < 14 ∧ F s l 60 2 ≠ 3 ∧ F s l 0 53 % 16 = 0
          ∧ F s l 96 32 % 16 = 0 ∧ (F s l 64 16 + 1) * e s l ≤ F s l 96 32 * 8 ∧ C s l 96 32 % 16 = 0
          ∧ (e s l = 4 → sext (C s l 0 32) 32 % 2 = 0 ∧ boxc s l % 2 = 0 ∧ (F s l 64 16 + 1) % 2 = 0)
          ∧ size s l ≤ 2 ^ 18 ∧ fits s (C s l 96 32) (size s l) ∧ ok st s l)
        0 (fun s l => .cpy st (F s l 0 53) ((fmtOfNat (F s l 56 4)).getD .bytes) (F s l 60 2) (F s l 64 16) (F s l 80 16) (F s l 96 32)
          (sext (C s l 0 32) 32) (sext (C s l 32 32) 32) (boxc s l) (C s l 80 16 + 1) (C s l 96 32)))
    ∧ posts (.cpyg d a tb p)
        (fun s l => len s l % 64 = 0 ∧ 64 ≤ len s l ∧ len s l ≤ 2 ^ 24 ∧ va s l 0 % 64 = 0 ∧ va s l 2 % 64 = 0
          ∧ va s l 0 < 2 ^ 53 ∧ va s l 2 < 2 ^ 53 ∧ ok true s l)
        0 (fun s l => .cpyg (va s l 0) (va s l 2) (len s l))
    ∧ posts (.cpys d a tb p)
        (fun s l => len s l % 16 = 0 ∧ 16 ≤ len s l ∧ len s l ≤ 384 * 1024 ∧ pw s l 0 % 16 = 0 ∧ pw s l 1 % 16 = 0
          ∧ pw s l 2 = 0 ∧ pw s l 3 = 0 ∧ ¬ reserved (pw s l 0) ∧ ¬ reserved (pw s l 1)
          ∧ fits s (pw s l 0) (len s l) ∧ fits s (pw s l 1) (len s l) ∧ ok false s l)
        0 (fun s l => .cpys (pw s l 0) (pw s l 1) (len s l))
    ∧ posts (.cpyr d a ss tb p)
        (fun s l => len s l % 4 = 0 ∧ 4 ≤ len s l ∧ len s l ≤ 256 * 1024 ∧ pw s l 2 % 4 = 0 ∧ pw s l 3 = 0 ∧ pw s l 2 < 2 ^ 29
          ∧ (if ss then pw s l 0 % 4 = 0 ∧ pw s l 1 = 0 ∧ ¬ reserved (pw s l 0) ∧ fits s (pw s l 0) (len s l)
            else va s l 0 % 4 = 0 ∧ va s l 0 < 2 ^ 53) ∧ ok false s l)
        0 (fun s l => .cpyr ss (if ss then pw s l 0 else va s l 0) (pw s l 2) (len s l))
    ∧ (let Q := fun (s : State) (l : Lane) (lo n : Nat) => bitsAt (quad s l) lo n
       let K := fun (s : State) (l : Lane) => bitsAt (pw s l 2) 0 16
       let N := fun (s : State) (l : Lane) => bitsAt (pw s l 2) 16 16
       posts (.nbgemv d a tb p)
        (fun s l => ∃ f v, fmtOfNat (Q s l 60 4) = some f ∧ vectorFmt f = some v ∧ bitsAt (va s l 0) 53 11 = 0
          ∧ Q s l 19 9 = 0 ∧ Q s l 51 9 = 0 ∧ ((f = .fp4x ∨ f = .int4g) ↔ Q s l 64 64 ≠ 0) ∧ (Q s l 28 4 ≠ 0 → f = .fp4x)
          ∧ va s l 0 % 64 = 0 ∧ pw s l 3 % 64 = 0 ∧ divUp ((K s l + 1) * f.bits) 512 * 64 ≤ pw s l 3
          ∧ Q s l 0 19 % 16 = 0 ∧ Q s l 32 19 % 16 = 0 ∧ Q s l 64 64 % 4 = 0
          ∧ Q s l 0 19 + divUp ((K s l + 1) * v.bits) 8 ≤ s.scratchSize i.block ∧ Q s l 32 19 + 4 * (N s l + 1) ≤ s.scratchSize i.block
          ∧ ok false s l)
        2 (fun s l => .nbgemv (va s l 0) (K s l) (N s l) (pw s l 3) (Q s l 0 19) (Q s l 32 19)
          (match s.block? i.block with | some b => (Sparse.get 0 b.xval (Q s l 28 4)).toNat | none => 0)
          ((fmtOfNat (Q s l 60 4)).getD .bytes) (Q s l 64 64)))

/-- R344 to R347, R335, R86 and R87: what an arrival, a change of the pending sectors and the completion of a phase do to each
field of a barrier's 128 bits, and the five instructions on a valid barrier. On a barrier of another core at DL1 and above an
arrival and an expectation are held for the turn boundary with the thread waiting, and TBWAIT waits for it. -/
def Obligations.TransactionBarrierResults : Prop :=
  (∀ v : Nat, v < 2 ^ 128 →
     let same := fun (x : Nat) => tbReload x = tbReload v ∧ x / 2 ^ 77 = v / 2 ^ 77 ∧ x < 2 ^ 128
     (tbPhase v + tbParr v * 2 ^ 4 + tbPsec v * 2 ^ 24 + (if tbErr v then 2 ^ 56 else 0) + tbReload v * 2 ^ 57 + v / 2 ^ 77 * 2 ^ 77 = v)
     ∧ (let x := tbArrived v
        same x ∧ tbPhase x = tbPhase v ∧ tbPsec x = tbPsec v ∧ tbParr x = tbParr v - 1 ∧ (tbErr x = true ↔ tbErr v = true ∨ tbParr v = 0))
     ∧ (∀ (n : Nat) (e : Bool), let x := tbSectors n e v
        same x ∧ tbPhase x = tbPhase v ∧ tbParr x = tbParr v ∧ tbPsec x = (tbPsec v + n) % 2 ^ 32 ∧ tbErr x = (tbErr v || e))
     ∧ (let x := tbClose v
        if tbParr v = 0 ∧ tbPsec v = 0 then
          same x ∧ tbPhase x = (tbPhase v + 1) % 16 ∧ tbParr x = tbReload v ∧ tbPsec x = 0 ∧ tbErr x = tbErr v
        else x = v))
  ∧ (∀ (s : State) (i : Issue) (k : Block), Issuing s i k → ∀ (d a b : Reg) (pd : PredNo) (imm : Word),
       let th := fun (s : State) (l : Lane) => s.thread i.block l.tid
       let ad := fun (s : State) (l : Lane) => s.tbAddr i.block ((th s l).reg a.toNat).toNat
       let onBar := fun (s : State) (l : Lane) (f : Nat → Nat → State) => match ad s l with | .ok (o, off) => f o off | .error _ => s
       let asked := fun (s : State) (l : Lane) => bitsAt ((th s l).reg b.toNat).toNat 0 4
       let rel := fun (s : State) (l : Lane) => (s.releaseAt i.block l.tid i.at 2).1
       let released := fun (s : State) (l : Lane) => (s.releaseAt i.block l.tid i.at 2).2 = none
       Does s i (.tbinit a imm) (fun s l => (∃ o off, ad s l = .ok (o, off)) ∧ 0 < imm.toNat ∧ imm.toNat < 2 ^ 20)
         (fun s l => onBar s l fun o off =>
           let bs := natToBytes 16 (imm.toNat * 2 ^ 4 + imm.toNat * 2 ^ 57)
           if s.buffered i.block o off then s.addEffect i.block l.tid i.at (.tbInit o off bs) else s.writeScratch o off bs)
       ∧ Does s i (.tbarrive d a) (fun s l => released s l ∧ ∃ o off, ad s l = .ok (o, off) ∧ (rel s l).buffered i.block o off = false)
         (fun s l => onBar s l fun o off =>
           let v := (rel s l).tbGet o off
           ((rel s l).tbOp o off ((rel s l).knownOf i.block) tbArrived).updThread i.block l.tid fun th => th.setReg d.toNat
             (BitVec.ofNat 32 (tbPhase v + (if tbParr v = 0 then 2 ^ 31 else (tbParr v - 1) * 2 ^ 4))))
       ∧ Does s i (.tbarrive d a) (fun s l => released s l ∧ ∃ o off, ad s l = .ok (o, off) ∧ (rel s l).buffered i.block o off = true)
         (fun s l => onBar s l fun o off => ((rel s l).addEffect i.block l.tid i.at (.tbArrive o off d.toNat)).park i l.tid (i.pos + 1)
           (.waiting .boundary))
       ∧ Does s i (.tbarrive d a) (fun s l => s.dl0 i.block = true ∧ ¬ released s l ∧ ∃ o off, ad s l = .ok (o, off))
         (fun s l => match (s.releaseAt i.block l.tid i.at 2).2 with
           | some t => (rel s l).park i l.tid (i.pos + 1) (.waiting t)
           | none => s)
       ∧ Does s i (.tbexpect a b) (fun s l => ∃ o off, ad s l = .ok (o, off) ∧ s.buffered i.block o off = false)
         (fun s l => onBar s l fun o off => s.tbOp o off [] (tbSectors ((th s l).reg b.toNat).toNat false))
       ∧ Does s i (.tbexpect a b) (fun s l => ∃ o off, ad s l = .ok (o, off) ∧ s.buffered i.block o off = true)
         (fun s l => onBar s l fun o off => (s.addEffect i.block l.tid i.at (.tbExpect o off ((th s l).reg b.toNat))).park i l.tid (i.pos + 1)
           (.waiting .boundary))
       ∧ Does s i (.tbwait pd a b)
         (fun s l => ∃ o off, ad s l = .ok (o, off) ∧ s.buffered i.block o off = false ∧ tbPhase (s.tbGet o off) ≠ asked s l)
         (fun s l => onBar s l fun o off =>
           ((s.learn i.block (match s.block? o with | some k => Sparse.get [] k.tbKnows (2 * off + 1) | none => [])).acquire i.block 2).updThread
             i.block l.tid fun th => th.setPred pd.toNat (tbErr (s.tbGet o off)))
       ∧ Does s i (.tbwait pd a b)
         (fun s l => ∃ o off, ad s l = .ok (o, off) ∧ (s.buffered i.block o off = true ∨ tbPhase (s.tbGet o off) = asked s l))
         (fun s l => onBar s l fun o off => s.park i l.tid (i.pos + 1) (.waiting (.tbwait o off (BitVec.ofNat 4 (asked s l)) pd
           (s.deadline i.block (s.btoOf i.block)))))
       ∧ Does s i (.tbtest d a b) (fun s l => ∃ o off, ad (s.threadEvent i.block l.tid 0x03 i.at) l = .ok (o, off))
         (fun s l =>
           let t := s.threadEvent i.block l.tid 0x03 i.at
           onBar t l fun o off => t.updThread i.block l.tid fun th => th.setReg d.toNat
             ((if tbPhase (t.tbGet o off) ≠ asked t l then 1 else 0) + (if tbErr (t.tbGet o off) = true then 2 else 0)))
       ∧ (∀ (s : State) (o off : Nat) (who : Sparse Nat) (f : Nat → Nat) (m : Block), s.block? o = some m →
           ∃ m', (s.tbOp o off who f).block? o = some m'
             ∧ m'.scratch = Memory.write m.scratch off (natToBytes 16 (tbClose (f (bytesToNat (Memory.read m.scratch off 16)))))
             ∧ { m' with scratch := m.scratch, tbKnows := m.tbKnows } = m)
       ∧ (∀ (s : State) (ad o off : Nat), s.tbAddr i.block ad = .ok (o, off) →
           off = bitsAt ad 0 19 ∧ bitsAt ad 19 9 = 0 ∧ off % 16 = 0 ∧ ∃ n, s.kernelOf i.block = some n ∧ off < 16 * n.tbars))

/-- R348, R338, R339, R343, R179, R173 and R87: the timeline instructions; and what the completion of an engine operation does,
once its bytes have been written and acknowledged: its release, its barrier and its timeline. At DL1 and above the release and the
barrier are effects of the turn; at domain scope completion waits for the answers of its signatures, at system scope for Noern-H
too. -/
def Obligations.TimelineAndCompletionResults : Prop :=
  (∀ (s : State) (i : Issue) (k : Block), Issuing s i k → ∀ (d a : Reg) (n : BitVec 3),
    let v := fun (s : State) (l : Lane) => (s.thread i.block l.tid).pair a.toNat
    let step := fun (s : State) (l : Lane) => ((s.thread i.block l.tid).reg a.toNat).setWidth 64
    let rel := fun (s : State) (l : Lane) => (s.releaseAt i.block l.tid i.at 3).1
    let released := fun (s : State) (l : Lane) => (s.releaseAt i.block l.tid i.at 3).2 = none
    Does s i (.tlwait a n) (fun s l => ∃ k', s.block? i.block = some k' ∧ (v s l).toNat ≤ (Sparse.get 0 k'.tl n.toNat).toNat)
      (fun s _ => s.acquire i.block 5)
    ∧ Does s i (.tlwait a n) (fun s l => ∃ k', s.block? i.block = some k' ∧ (Sparse.get 0 k'.tl n.toNat).toNat < (v s l).toNat)
      (fun s l => s.park i l.tid (i.pos + 1) (.waiting (.tlwait n.toNat (v s l))))
    ∧ Does s i (.tlread d n) (fun _ _ => True) (fun s l =>
        let t := s.threadEvent i.block l.tid 0x03 i.at
        t.updThread i.block l.tid fun th => th.setPair d.toNat
          (match t.block? i.block with | some b => Sparse.get 0 b.tl n.toNat | none => 0))
    ∧ (4 ≤ n.toNat → Does s i (.tladd a n) (fun s l => released s l ∧ (rel s l).dl0 i.block = true)
      (fun s l => (rel s l).updBlock i.block fun b =>
        { b with tl := Sparse.set 0 b.tl n.toNat (Sparse.get 0 b.tl n.toNat + step s l) }))
    ∧ (4 ≤ n.toNat → Does s i (.tladd a n) (fun s l => released s l ∧ (rel s l).dl0 i.block = false)
      (fun s l => (rel s l).addEffect i.block l.tid i.at (.tlAdd n.toNat (step s l))))
    ∧ (4 ≤ n.toNat → Does s i (.tladd a n) (fun s l => s.dl0 i.block = true ∧ ¬ released s l)
      (fun s l => match (s.releaseAt i.block l.tid i.at 3).2 with
        | some t => (rel s l).park i l.tid (i.pos + 1) (.waiting t)
        | none => s)))
  ∧ (∀ (s : State) (op : EngOp) (o off : Nat) (m : Block), op.tb = some (o * 2 ^ 20 + off) → off < 2 ^ 20 → s.block? o = some m → o ≠ op.block →
     op.bytes < 2 ^ 32 → s.engineTurns op = false →
     let v := bytesToNat (Memory.read m.scratch off 16)
     ∃ m', (s.finishEngine op).block? o = some m'
       ∧ m'.scratch = Memory.write m.scratch off (natToBytes 16 (tbClose (tbMake (tbPhase v) (tbParr v)
           ((tbPsec v + (2 ^ 32 - divUp op.bytes 64)) % 2 ^ 32) (tbErr v || op.err) (tbReload v) v)))
       ∧ { m' with scratch := m.scratch, tbKnows := m.tbKnows } = m)
  ∧ (∀ (s : State) (op : EngOp) (k : Block), s.engine? op.id = some op → s.block? op.block = some k → op.waits = 0 → op.written = true →
     let go := fun (t : State) => match op.kind with
       | .nbgemv .. => Becomes s (.nbgemvComplete op.id) t ∧ Becomes s (.copyComplete op.id) s
       | _ => Becomes s (.copyComplete op.id) t ∧ Becomes s (.nbgemvComplete op.id) s
     let signed := fun (u : State) (tags : List Word) => u.updEngine op.id fun e => { e with signed := some tags }
     let unheard := fun (u : State) (tags : List Word) => (∃ g ∈ tags, ∃ r ∈ u.fabric.remotes, r.tag = g)
       ∨ (5 ≤ op.scope ∧ ∃ x ∈ u.fabric.hostUnacked, x.tenant = k.tenant)
     let ends := fun (u : State) (tags : List Word) => (unheard u tags → go u) ∧ (¬ unheard u tags → go (u.finishEngine op))
     (∀ tags, op.signed = some tags → ends s tags)
     ∧ (op.signed = none → s.engineTurns op = true →
         let u := if op.vtag ≠ 0 ∨ op.scope < 2 then s else s.engineEffect op (.late (.release op.scope))
         ends (signed u []) [])
     ∧ (op.signed = none → s.engineTurns op = false → op.scope < 4 →
         let u := if op.vtag ≠ 0 ∨ op.scope < 2 then s else s.signNear k.core k.cluster op.scope
         ends (signed u []) [])
     ∧ (op.signed = none → s.engineTurns op = false → 4 ≤ op.scope →
         let u := if op.vtag ≠ 0 then s else s.signCores [k.core] k.tenant
         ends (signed u (u.signTags k.tenant)) (u.signTags k.tenant)))
  ∧ (∀ (s : State) (op : EngOp) (k : Block) (g : Grid) (o off : Nat), op.tb = some (o * 2 ^ 20 + off) → off < 2 ^ 20 →
     op.bytes < 2 ^ 32 → s.block? op.block = some k → s.grid? k.grid = some g → g.dl ≠ 0 →
     ∃ g', (s.finishEngine op).grid? k.grid = some g' ∧ g'.effects = g.effects ++
       [⟨k.core, k.path, op.block, op.tid, op.seq, op.pc, .tbSectors o off (2 ^ 32 - divUp op.bytes 64) op.err⟩])
  ∧ (∀ (k : Block) (i : Nat), i < 4 → Sparse.wf 0 k.tl = true → (k.tlc i).toNat + k.tlDone.length + 1 < 2 ^ 64 →
     let v := (k.settleTimelines.tlc i).toNat
     (k.tlc i).toNat ≤ v ∧ (i, v + 1) ∉ k.tlDone ∧ ∀ n, (k.tlc i).toNat < n → n ≤ v → (i, n) ∈ k.tlDone)

/-- R349, R350, R353, R158, R159 and R163: MMA with a well-formed block, its operands within the scratchpad, its tiles free or
held and room in the reservation table takes its tiles and its entry; with the table full the thread waits, at DL0 by itself and
above with its clause. An access to an accumulator of the tenant waits so for the entries that name its tile, and otherwise reads,
writes or clears its elements. -/
def Obligations.MatrixEntriesAndAccumulators : Prop :=
  (∀ (s : State) (i : Issue) (k : Block), Issuing s i k → ∀ (p : PBlock),
     let parse := fun (s : State) (l : Lane) =>
       let pw := fun j => paramAt p (s.thread i.block l.tid) j
       mmaParse (pw 0) (pw 1) (pw 2) (pw 3)
     let legal := fun (room : Nat → Prop) (s : State) (l : Lane) => ∃ mp k' g s', parse s l = some mp
       ∧ mp.reach ≤ s.scratchSize i.block ∧ s.block? i.block = some k' ∧ k'.tenant = k.tenant ∧ k'.core = k.core ∧ k'.xval = k.xval
       ∧ s.gridOf i.block = some g ∧ s.takeTiles k.tenant (mp.tiles k.core) = some s' ∧ room (s.wheel (k.core / 4)).length
     let posted := fun (s : State) (l : Lane) => match parse s l, s.gridOf i.block with
       | some mp, some g => match s.takeTiles k.tenant (mp.tiles k.core) with
         | some s' =>
           let s₁ := s'.nameTiles i.block (mp.tiles k.core)
           let n := (s₁.tlPosted i.block 1).1
           let s₂ := (s₁.tlPosted i.block 1).2
           State.updWheel { s₂ with nextUid := s₂.nextUid + 1 } (k.core / 4) fun es => es ++
             [⟨s₂.nextUid + 1, i.block, l.tid, i.at, k.core, g.prio, { mp with xval := (Sparse.get 0 k.xval mp.xval).toNat }, n,
               s₂.nextUid + 1, 0, s₂.dieTime (k.core / 64), false, false, 0, []⟩]
         | none => s
       | _, _ => s
     Does s i (.mma p) (legal fun n => n < 32) posted
     ∧ Does s i (.mma p) (fun s l => s.dl0 i.block = true ∧ legal (fun n => 32 ≤ n) s l)
         (fun s l => s.park i l.tid (i.pos + 5) (.waiting .matrix))
     ∧ Stops s i (.mma p) (legal fun n => n < 32) posted (fun s l => s.dl0 i.block = false ∧ legal (fun n => 32 ≤ n) s l)
         (fun s l => s.pauseAt i l (i.pos + 5) (.waiting .matrix))
     ∧ (∀ (t : Nat) (ts : List Nat) (s s' : State), s.takeTiles t ts = some s' →
         (∀ x ∈ ts, (s.tile x).owner = none ∨ (s.tile x).owner = some t) ∧ { s' with tiles := s.tiles } = s
         ∧ ∀ x, (s'.tile x).owner = (if x ∈ ts then some t else (s.tile x).owner) ∧ (s'.tile x).elems = (s.tile x).elems)
     ∧ (∀ (w0 w1 w2 w3 : Nat) (mp : MmaParams), mmaParse w0 w1 w2 w3 = some mp →
         mp.aoff = 16 * bitsAt w0 0 15 ∧ mp.boff = 16 * bitsAt w0 16 15 ∧ mp.k = bitsAt w1 0 16 ∧ 1 ≤ mp.k ∧ mp.tile = bitsAt w1 16 2
         ∧ (mp.acc = true ↔ bitsAt w1 18 1 = 1) ∧ mp.m = bitsAt w2 0 7 + 1 ∧ mp.n = bitsAt w2 8 7 + 1
         ∧ fmtOfNat (bitsAt w2 16 4) = some mp.afmt ∧ fmtOfNat (bitsAt w2 20 4) = some mp.bfmt ∧ (mmaPair mp.afmt mp.bfmt).isSome
         ∧ mp.saoff = 16 * bitsAt w3 0 15 ∧ mp.sboff = 16 * bitsAt w3 16 15 ∧ (mp.bfmt = .fp64 → mp.tile % 2 = 0)
         ∧ bitsAt w0 15 1 = 0 ∧ bitsAt w0 31 1 = 0 ∧ bitsAt w1 19 13 = 0 ∧ bitsAt w2 30 2 = 0))
  ∧ (∀ (s : State) (i : Issue) (k : Block), Issuing s i k → ∀ (w : Width) (d a : Reg) (m : BitVec 2) (fmt : Fmt) (pair : Bool),
       let wide := decide (fmt = .fp64)
       let n := if wide then 2 ^ (w.toNat - 1) else 2 ^ w.toNat
       let e := fun (s : State) (l : Lane) => ((s.thread i.block l.tid).reg a.toNat).toNat
       let ok := fun (s : State) (l : Lane) => (fmt = .bytes ∨ fmt = .fp64 ∧ m.toNat % 2 = 0) ∧ e s l + n ≤ 16384
       let t := 4 * k.core + m.toNat
       let taken := fun (ts : List Nat) (named : Bool) (s : State) =>
         (s.takeTiles k.tenant ts).map fun s' => if named then s'.nameTiles i.block ts else s'
       let form := fun (ins : Instr) (ts : List Nat) (named : Bool) (legal : State → Lane → Prop) (op : State → Lane → AccOp) =>
         let free := fun (idle : Bool) (s : State) (l : Lane) => legal s l
           ∧ (∃ k', s.block? i.block = some k' ∧ k'.tenant = k.tenant ∧ k'.core = k.core)
           ∧ ∃ s', taken ts named s = some s' ∧ (s'.entriesOn k.core ts).isEmpty = idle
         let done_ := fun (s : State) (l : Lane) => match taken ts named s with
           | some s' => s'.accDo i.block l.tid (op s l)
           | none => s
         Does s i ins (free true) done_
         ∧ Does s i ins (fun s l => s.dl0 i.block = true ∧ free false s l) (fun s l => match taken ts named s with
             | some s' => s'.park i l.tid (i.pos + wordsOf ins) (.waiting (.acc (s'.entriesOn k.core ts) (op s l)))
             | none => s)
         ∧ Stops s i ins (free true) done_ (fun s l => s.dl0 i.block = false ∧ free false s l) (fun s l => match taken ts named s with
             | some s' => s'.pauseAt i l (i.pos + wordsOf ins) (.waiting (.acc (s'.entriesOn k.core ts) (op s l)))
             | none => s)
       let pairOf := fun (b : Bool) => if b then [t, t + 1] else [t]
       form (.accrd w d a m fmt) (pairOf wide) false ok (fun s l => .rd d t (e s l) n wide)
       ∧ form (.accwr w d a m fmt) (pairOf wide) true ok (fun s l => .wr d t (e s l) n wide)
       ∧ form (.accz m pair) (pairOf pair) true (fun _ _ => pair = true → m.toNat % 2 = 0) (fun _ _ => .zero t pair)
       ∧ (∀ (s : State) (tid e : Nat),
           s.accDo i.block tid (.rd d t e n false) = s.updThread i.block tid (fun th => th.setGroup d.toNat
             ((List.range n).map fun j => Sparse.get 0 (s.tile (t + (e + j) / 16384)).elems ((e + j) % 16384)))
           ∧ (Sparse.wf Tile.free s.tiles = true → ((s.accDo i.block tid (.zero t pair)).tile t).elems = []
               ∧ (s.accDo i.block tid (.zero t pair)).tile (t + 1) = (if pair then { s.tile (t + 1) with elems := [] } else s.tile (t + 1)))
           ∧ (e + n ≤ 16384 → n ≤ 8 → Sparse.wf Tile.free s.tiles = true → Sparse.wf 0 (s.tile t).elems = true →
               ∀ x j, Sparse.get 0 ((s.accDo i.block tid (.wr d t e n false)).tile x).elems j
                 = if x = t ∧ e ≤ j ∧ j < e + n then ((s.thread i.block tid).group d.toNat n).getD (j - e) 0
                   else Sparse.get 0 (s.tile x).elems j)))

/-- R216 to R219 and R356: a draw gives the next words of the thread's stream, in ascending registers, and moves the
counter past them; a wrap is recorded. -/
def Obligations.RandomDraws : Prop :=
  (∀ (s : State) (i : Issue) (k : Block), Issuing s i k → ∀ (w : Width) (d : Reg) (kind : RngKind),
    let n := 2 ^ w.toNat
    let c := fun (s : State) (l : Lane) => (s.thread i.block l.tid).rngCtr
    Does s i (.rng w d kind)
      (fun s l => ∃ k', s.block? i.block = some k' ∧ k'.seed = k.seed ∧ k'.rngId = k.rngId ∧ k'.bid = k.bid
        ∧ (k'.thread l.tid).relaunch = (k.thread l.tid).relaunch)
      (fun s l =>
        let key := k.seed ^^^ (k.rngId ++ k.bid ++ BitVec.ofNat 21 (k.thread l.tid).relaunch ++ BitVec.ofNat 11 l.tid)
        let t := if 2 ^ 64 ≤ (c s l).toNat + n then s.threadEvent i.block l.tid 0x05 i.at else s
        t.updThread i.block l.tid fun th => { th with rngCtr := c s l + BitVec.ofNat 64 n }.setGroup d.toNat
          (rngRegs kind ((List.range n).map fun j => rngWord key (c s l + BitVec.ofNat 64 j)))))
  ∧ (∀ (K : BitVec 128) (c : Dword),
      let key := fun i => K.toNat / 2 ^ (32 * (i % 4)) % 2 ^ 32
      let rotl := fun (x n : Nat) => (x * 2 ^ n + x / 2 ^ (32 - n)) % 2 ^ 32
      let r := (List.range 12).foldl (fun (r : Nat × Nat × Nat × Nat) i =>
        let a := (r.1 + key i + i) % 2 ^ 32
        let b := rotl (r.2.1 ^^^ a) 7
        let x := (r.2.2.1 + b) % 2 ^ 32
        let y := rotl (r.2.2.2 ^^^ x) 13
        let a := a ^^^ y
        (a, (b + rotl a 16) % 2 ^ 32, x, y)) (c.toNat % 2 ^ 32, c.toNat / 2 ^ 32, 0x5AB1E3C7, 0x2D46F1A9)
      (rngWord K c).toNat = r.1 ^^^ r.2.1 ^^^ r.2.2.1 ^^^ r.2.2.2)
  ∧ (∀ (ws : List Word), rngRegs .u32 ws = ws ∧ (rngRegs .f32 ws).length = ws.length
      ∧ ∀ j, j < ws.length → (rngRegs .f32 ws)[j]? = ws[j]?.map rngF32)
  ∧ (∀ w : Word, ∀ mode, mode < 5 → fp32.round mode false (w.toNat / 2 ^ 8) (2 ^ 24) = ((rngF32 w).toNat, 0))
  ∧ (∀ w0 w1 : Word, (∀ ws, rngRegs .f64 (w0 :: w1 :: ws) = natToWords 2 (rngF64 w0 w1) ++ rngRegs .f64 ws)
      ∧ ∀ mode, mode < 5 → fp64.round mode false (w1.toNat / 2 ^ 11 * 2 ^ 32 + w0.toNat) (2 ^ 53) = (rngF64 w0 w1, 0))

/-! ## Engine operations as they run -/

/-- R335, R339, R179, R341, R342, R354 and R355: what each copy and a near-bank sum of device scope or narrower have written when
they have run to completion at DL0, and an operation that a failing check abandons. The translations that a copy meets are held in
the TLBs of its core, so that nothing it writes can change them; no core holds dirty sectors or buffered reductions. The elements of a box row are those of the tensor, the nearest or the padding. -/
def Obligations.CopiesAndNearBankRun : Prop :=
  (∀ (edge cols rows e : Nat) (col0 gr : Int) (boxc rb first seg c : Nat), 0 < e → boxc * e ≤ 8 * rb → c < boxc →
     let inside := 0 ≤ gr ∧ gr ≤ (rows : Int) ∧ 0 ≤ col0 + c ∧ col0 + c ≤ (cols : Int)
     bytesToNat (boxRow edge cols rows e col0 gr boxc rb first seg) / 2 ^ (c * e) % 2 ^ e =
       if inside then seg / 2 ^ (((col0 + c).toNat - first) * e) % 2 ^ e
       else if edge = 1 then seg / 2 ^ (((min (max (col0 + c) 0) cols).toNat - first) * e) % 2 ^ e
       else if edge = 0 then 0 else 2 ^ e - 1)  ∧ ∀ (s : State) (op : EngOp) (k : Block) (g : Grid), s.engine? op.id = some op → s.block? op.block = some k → s.grid? k.grid = some g →
     g.dl = 0 → op.waits = 0 → op.written = false → op.signed = none → op.tb = none → op.got = [] → op.scope < 4 → op.vtag = 0 →
     s.gatedDie (k.core / 64) = false → (∀ c, (s.core c).reds = [] ∧ ∀ x ∈ (s.core c).cache, x.dirty = 0) →
     Sparse.wf Core.reset s.cores = true → Memory.wf s.mem = true → Memory.wf k.scratch = true →
     let done := fun (t : State) (k' : Block) => t.block? op.block = some k' ∧ t.engines = s.engines.filter (fun e => e.id != op.id)
       ∧ k'.tlDone = k.tlDone ++ [(op.tlk, op.tlNum)]
     let mapped := fun (va n base pa : Nat) (w : Want) (page : Leaf → Bool) => ∀ u : State, u.tlb = s.tlb → ∀ p ∈ sectorPieces va n,
       s.lostHome (.dev (pa + (p.1 - base))) p.2.1 = none
       ∧ ∃ x, u.xlate k.core k.tenant p.1 w = .ok x ∧ x.home = .dev (pa + (p.1 - base)) ∧ x.leaf.kind = .local ∧ page x.leaf = true
     (∀ src dst n f h, op.kind = .cpys src dst n → s.clusterAddr op.block src n = .ok (op.block, f) →
        s.clusterAddr op.block dst n = .ok (op.block, h) →
        Reaches s (.copyComplete op.id) fun t => t.mem = s.mem ∧ ∃ k', done t k'
          ∧ ∀ a, Memory.byte k'.scratch a = if h ≤ a ∧ a < h + n then Memory.byte k.scratch (f + (a - h)) else Memory.byte k.scratch a)
     ∧ (∀ src dst m pa qa, op.kind = .cpyg src dst (64 * m) → src % 64 = 0 → dst % 64 = 0 → mapped src (64 * m) src pa .rd (fun _ => true) →
        mapped dst (64 * m) dst qa .wr (fun _ => true) → pa + 64 * m ≤ qa ∨ qa + 64 * m ≤ pa →
        Reaches s (.copyComplete op.id) fun t => (∃ k', done t k' ∧ k'.scratch = k.scratch)
          ∧ ∀ a, Memory.byte t.mem a =
              if qa ≤ a ∧ a < qa + 64 * m then Memory.byte s.mem (pa + (a - qa)) else Memory.byte s.mem a)
     ∧ (∀ ss src dst n o off pa x, op.kind = .cpyr ss src dst n → 0 < n → n % 4 = 0 → s.ocmFind k.tenant dst n = some x →
        (if ss = true then s.clusterAddr op.block src n = .ok (o, off) else mapped src n src pa .rd (fun _ => true)) →
        (match x with
         | .scratch b _ => ∃ m, s.block? b = some m ∧ Memory.wf m.scratch = true
         | .tile i _ => Sparse.wf Tile.free s.tiles = true ∧ Sparse.wf 0 (s.tile i).elems = true
         | .reg b at_ => ∃ m n', s.block? b = some m ∧ s.kernelOf b = some n' ∧ ∀ j, j < n / 4 → ∃ tid r, regAt n' m.T 0 (at_ / 4 + j) = some (tid, r)
             ∧ tid < m.T ∧ r < 255 ∧ s.lastPend b tid r = none ∧ Sparse.wf 0 (m.thread tid).regs = true) →
        Reaches s (.copyComplete op.id) fun t => t.mem = s.mem ∧ (∃ k', done t k')
          ∧ ∀ j, j < n / 4 → t.ocmReadWord x false j =
              BitVec.ofNat 32 (bytesToNat (if ss = true then s.readScratch o (off + 4 * j) 4 else Memory.read s.mem (pa + 4 * j) 4)))
     ∧ (∀ gbase fmt edge cols rows gpitch col0 row0 boxc boxr saddr pa f,
        op.kind = .cpy false gbase fmt edge cols rows gpitch col0 row0 boxc boxr saddr →
        let rb := rowBytes boxc fmt.bits
        let seg := fun (j : Nat) => match boxSegment edge cols rows col0 (row0 + j) boxc with
          | none => (gbase, 0, 0)
          | some (cr, lo, hi) => segmentBytes gbase gpitch fmt.bits cr lo hi
        (∀ j, j < boxr → mapped (seg j).1 (seg j).2.1 gbase pa .rd (fun l => (boxPage fmt l).isNone)) →
        (∀ j, j < boxr → s.clusterAddr op.block (saddr + j * rb) rb = .ok (op.block, f + j * rb)) →
        Reaches s (.copyComplete op.id) fun t => t.mem = s.mem ∧ ∃ k', done t k'
          ∧ (∀ j i, j < boxr → i < rb → Memory.byte k'.scratch (f + j * rb + i) =
              (boxRow edge cols rows fmt.bits col0 (row0 + j) boxc rb (seg j).2.2
                (bytesToNat (Memory.read s.mem (pa + ((seg j).1 - gbase)) (seg j).2.1))).getD i 0)
          ∧ ∀ a, ¬ (f ≤ a ∧ a < f + boxr * rb) → Memory.byte k'.scratch a = Memory.byte k.scratch a)
     ∧ (∀ gbase fmt edge cols rows gpitch col0 row0 boxc boxr saddr pa f,
        op.kind = .cpy true gbase fmt edge cols rows gpitch col0 row0 boxc boxr saddr → (cols + 1) * fmt.bits / 8 ≤ gpitch →
        let e := fmt.bits
        let rb := rowBytes boxc e
        let inside := fun (j : Nat) => 0 ≤ row0 + (j : Int) ∧ row0 + (j : Int) ≤ (rows : Int) ∧ col0 ≤ (cols : Int) ∧ 0 ≤ col0 + boxc - 1
        let lo := (satInt col0 0 cols).toNat
        let hi := (satInt (col0 + boxc - 1) 0 cols).toNat
        let at_ := fun (j : Nat) => (row0 + (j : Int)).toNat * gpitch + lo * e / 8
        let data := fun (j : Nat) => ((Memory.read k.scratch (f + j * rb) rb).drop (((lo : Int) - col0).toNat * e / 8)).take ((hi - lo + 1) * e / 8)
        (∀ j, j < boxr → inside j → mapped (gbase + at_ j) (data j).length gbase pa .wr (fun l => (boxPage fmt l).isNone)) →
        (∀ j, j < boxr → s.clusterAddr op.block (saddr + j * rb) rb = .ok (op.block, f + j * rb)) →
        Reaches s (.copyComplete op.id) fun t => (∃ k', done t k' ∧ k'.scratch = k.scratch)
          ∧ (∀ j i, j < boxr → inside j → i < (data j).length → Memory.byte t.mem (pa + at_ j + i) = (data j).getD i 0)
          ∧ ∀ a, (∀ j, j < boxr → inside j → ¬ (pa + at_ j ≤ a ∧ a < pa + at_ j + (data j).length)) →
              Memory.byte t.mem a = Memory.byte s.mem a)
     ∧ (∀ src dst n e, op.kind = .cpyg src dst n → 64 ≤ n → src % 64 = 0 → s.xlate k.core k.tenant src .rd = .error e →
        s.copyNeeds op k.tenant = [] → Sparse.wf Tenant.reset s.tenants = true → (∀ e ∈ s.blocks, e.2.specs = []) →
        Becomes s (.copyComplete op.id) s
        ∧ Reaches s (.engineAbandon op.id) fun t => t.blocks = s.blocks ∧ t.engines = s.engines.filter (fun e => e.id != op.id)
          ∧ (t.tenant k.tenant).fq.nextSeq = (s.tenant k.tenant).fq.nextSeq + 1)
     ∧ (∀ wbase wk wpitch voff yoff xv f pa, op.kind = .nbgemv wbase wk 0 wpitch voff yoff xv f 0 →
        f = .fp16 ∨ f = .bf16 ∨ f = .d8 → wbase % 64 = 0 → (wk + 1) * f.bits ≤ 512 → op.tid < k.T → (k.thread op.tid).exited = false →
        ∀ x es fl, s.xlate k.core k.tenant wbase .rd = .ok x → x.home = .dev pa →
        weightPage f x.leaf = none → s.lostHome (.dev pa) (divUp ((wk + 1) * f.bits) 8) = none →
        let vf := (vectorFmt f).getD .bf16
        let v := (List.range (wk + 1)).map fun j =>
          mElem vf (rowElem (Memory.read k.scratch voff (divUp ((wk + 1) * vf.bits) 8)) vf.bits j)
        rowElems f (Memory.read s.mem pa (divUp ((wk + 1) * f.bits) 8)) [] (groupOf x.leaf.geom) xv 0 (wk + 1) = some (es, fl) →
        Becomes s (.copyComplete op.id) s
        ∧ Reaches s (.nbgemvComplete op.id) fun t => t.mem = s.mem ∧ ∃ k', done t k'
          ∧ (k'.thread op.tid) = (k.thread op.tid).raise (fl ||| (nearBankDot (chunkOf f) (v.zip es)).2)
          ∧ ∀ a, Memory.byte k'.scratch a = if yoff ≤ a ∧ a < yoff + 4
              then (natToBytes 4 (nearBankDot (chunkOf f) (v.zip es)).1).getD (a - yoff) 0 else Memory.byte k.scratch a)

/-- R16, R159, R213, R230 and R351: which entry of a wheel is granted its next pass, none on a gated die, the ageing of an entry, and a pass: the
accumulators after its chunk, and at the last pass the tile, the flags and the matrix timeline. -/
def Obligations.MatrixPasses : Prop :=
  (∀ (s : State) (w : Nat) (e : MatEntry), s.matNext w = some e →
     (∃ x ∈ s.wheel w, e = { x with aged := s.matAged x }) ∧ (∀ x ∈ s.wheel w, x.granted = false) ∧ s.savingBlock e.block = false
     ∧ s.gatedDie (w / 16) = false
     ∧ (∀ x ∈ s.wheel w, x.order < e.order → ∀ t ∈ x.params.tiles x.core, t ∉ e.params.tiles e.core)
     ∧ (∀ x ∈ s.wheel w, matBlocked (s.wheel w) x = false → s.savingBlock x.block = false →
         (s.matAged x = true → e.aged = true ∧ e.lastPass ≤ x.lastPass)
         ∧ (e.aged = false → x.prio.toNat ≤ e.prio.toNat ∧ (x.prio = e.prio → e.order ≤ x.order)))
     ∧ (Sparse.wf [] s.wheels = true → Reaches s (.matrixPassGrant w) fun t => { t with wheels := s.wheels } = s
         ∧ t.wheel w = (s.wheel w).map (fun x => if x.id = e.id then { x with granted := true } else x)
         ∧ ∀ y, y ≠ w → t.wheel y = s.wheel y))
  ∧ (∀ (s : State) (w : Nat), s.gatedDie (w / 16) = true → Becomes s (.matrixPassGrant w) s)
  ∧ (∀ (s : State) (e : MatEntry), s.matAged e = true ↔ e.aged = true ∨ e.lastPass + 4096 ≤ s.dieTime (e.core / 64))
  ∧ (∀ (s : State) (w id : Nat), Sparse.wf [] s.wheels = true → Reaches s (.matrixEntryAged w id) fun t => { t with wheels := s.wheels } = s
     ∧ (∀ y, y ≠ w → t.wheel y = s.wheel y) ∧ (t.wheel w).length = (s.wheel w).length
     ∧ ∀ (j : Nat) (x : MatEntry), (s.wheel w)[j]? = some x → (t.wheel w)[j]? = some { x with
         aged := x.aged || (decide (x.id = id) && !x.granted && decide (x.lastPass + 4096 ≤ s.dieTime (x.core / 64))) })
  ∧ (∀ (s : State) (w : Nat) (e : MatEntry) (accs : List Nat) (fl : Flags) (k : Block) (g : Grid), (s.wheel w).find? (·.granted) = some e →
     Sparse.wf [] s.wheels = true → s.matPass e = some (accs, fl) → s.block? e.block = some k → s.grid? k.grid = some g → g.dl = 0 →
     let passes := divUp e.params.k (chunkOf e.params.bfmt)
     (e.nextPass + 1 < passes → Reaches s (.matrixPassComplete w) fun t => { t with wheels := s.wheels } = s
        ∧ t.wheel w = (s.wheel w).map fun x => if x.id = e.id then { e with
            accs := accs, flags := e.flags ||| fl, nextPass := e.nextPass + 1, lastPass := s.dieTime (e.core / 64), aged := false, granted := false } else x)
     ∧ (passes ≤ e.nextPass + 1 → e.params.bfmt ≠ .fp64 → e.params.n ≤ 128 → accs.length ≤ 128 * e.params.n → 0 < e.params.n →
        Sparse.wf Tile.free s.tiles = true → e.tid < k.T → (k.thread e.tid).exited = false →
        let tile := 4 * e.core + e.params.tile
        Sparse.wf 0 (s.tile tile).elems = true →
        Reaches s (.matrixPassComplete w) fun t => t.wheel w = (s.wheel w).filter (fun x => x.id != e.id) ∧ t.mem = s.mem
          ∧ (∀ x, x ≠ tile → t.tile x = s.tile x) ∧ (t.tile tile).owner = (s.tile tile).owner
          ∧ (∀ y, y < accs.length → Sparse.get 0 (t.tile tile).elems (y / e.params.n * 128 + y % e.params.n) = BitVec.ofNat 32 (accs.getD y 0))
          ∧ (∀ x, (∀ y, y < accs.length → x ≠ y / e.params.n * 128 + y % e.params.n) →
              Sparse.get 0 (t.tile tile).elems x = Sparse.get 0 (s.tile tile).elems x)
          ∧ ∃ k', t.block? e.block = some k' ∧ k'.thread e.tid = (k.thread e.tid).raise (e.flags ||| fl)
            ∧ k'.tlDone = k.tlDone ++ [(1, e.tl)]))
  ∧ (∀ (s : State) (w : Nat) (e : MatEntry), s.engine? e.id = none →
     s.wheels.findSome? (fun w => (w.2.find? fun x => x.id == e.id).map fun x => (w.1, x)) = some (w, e) → e.granted = true →
     s.matPass e = none → Sparse.wf [] s.wheels = true → (∀ e ∈ s.blocks, e.2.specs = []) → Reaches s (.engineAbandon e.id) fun t => t.blocks = s.blocks ∧ t.tiles = s.tiles
       ∧ t.wheel w = (s.wheel w).filter fun x => x.id != e.id)
  ∧ (∀ (s : State) (e : MatEntry), e.params.bfmt = .int8 → 0 < e.params.n →
     let p := e.params
     let lo := 64 * e.nextPass
     let el := fun (off row j : Nat) => sext ((s.readScratch e.block (off + row * mmaPitch p.k .int8) (mmaRow p.k .int8)).getD j 0).toNat 8
     let old := if e.nextPass = 0 then s.matStart e else e.accs
     ∃ out, s.matPass e = some (out, 0) ∧ out.length = old.length ∧ ∀ y, y < out.length →
       out.getD y 0 = wrap ((old.getD y 0 : Int)
         + ((List.range (min p.k (lo + 64) - lo)).map fun j => el p.aoff (y / p.n) (lo + j) * el p.boff (y % p.n) (lo + j)).sum) 32)

/-! ## Class LANE -/

/-- R291, R293 to R297: the LANE instructions, whose lanes stand in ascending positions. Every source is read at issue, from
the lanes that execute alone; the results stay pending. And R295: the combining steps, the identities, and the order of the
fold: from the first operand, each further one on the right. -/
def Obligations.LaneExchangeAndFoldResults : Prop :=
  (∀ (s : State) (i : Issue) (k : Block), Issuing s i k → (i.lanes.map (·.lane)).Pairwise (· < ·) →
     ∀ (w : Width) (d a b : Reg) (po : PredNo) (g : BitVec 3) (wrapped ex : Bool) (rnd : Rnd) (fmt : Fmt) (op : LaneOp) (m : BitVec 2),
     let th := fun (l : Lane) => s.thread i.block l.tid
     let active := i.lanes.filter fun l => decide (l.start ≤ i.pos) && l.pred
     let src := fun (p : Nat) => (active.find? fun l => l.lane == p).map th
     let n := 2 ^ g.toNat
     let gives := fun (ins : Instr) (regs : Lane → List (Nat × Word)) (preds : Lane → List (Nat × Bool)) (fl : Lane → Flags) =>
       DoesLong s i ins (fun _ _ => True) fun s l => s.pend i.counted l (regs l) (preds l) (fl l) true false (0, 0, 0) none
     let takes := fun (ins : Instr) (from_ : Lane → Option Thread) => gives ins
       (fun l => regWrites d.toNat (((from_ l).getD (th l)).group a.toNat (2 ^ w.toNat))) (fun l => [(po.toNat, (from_ l).isSome)]) (fun _ => 0)
     let shuffle := fun (mode : ShflMode) (f : Int → Int → Int) => takes (.shfl w d a b po g mode wrapped) fun l =>
       let x := f (l.lane % n : Nat) ((th l).reg b.toNat).toNat
       let x := if wrapped then x % (n : Int) else x
       if 0 ≤ x ∧ x < n then src (l.lane - l.lane % n + x.toNat) else none
     let mask := fun (q : Thread → Bool) => (active.filter fun l => q (th l)).foldl (fun v l => setBit v l.lane true) (0 : Word)
     let p := fun (t : Thread) => t.pred a.toNat
     let vote := fun (mode : VoteMode) (r : Bool) => gives (.vote d a mode) (fun _ => []) (fun _ => [(d.toNat, r)]) (fun _ => 0)
     let word := fun (ins : Instr) (v : Lane → Word) => gives ins (fun l => regWrites d.toNat [v l]) (fun _ => []) (fun _ => 0)
     let value := fun (l : Lane) => (th l).groupNat a.toNat (2 ^ w.toNat)
     let fold := fun (ins : Instr) (keep : Lane → Lane → Bool) =>
       let r := fun (l : Lane) => laneFold op fmt (modeOf (th l) rnd)
         ((active.filter fun x => x.lane / n == l.lane / n && keep l x).map value)
       gives ins (fun l => regWrites d.toNat (natToWords (2 ^ w.toNat) (r l).1)) (fun _ => []) (fun l => (r l).2)
     shuffle .at (fun _ x => x) ∧ shuffle .below (fun j x => j - x) ∧ shuffle .above (fun j x => j + x)
     ∧ shuffle .flip (fun j x => ((j.toNat ^^^ x.toNat : Nat) : Int))
     ∧ vote .every (active.all fun l => p (th l)) ∧ vote .some (active.any fun l => p (th l))
     ∧ vote .same ((active.all fun l => p (th l)) || !(active.any fun l => p (th l)))
     ∧ word (.vote d a .mask) (fun _ => mask p) ∧ word (.vote d a .live) (fun _ => mask fun _ => true)
     ∧ word (.vote d a .pos) (fun l => BitVec.ofNat 32 l.lane)
     ∧ fold (.lred w d a rnd fmt op g) (fun _ _ => true)
     ∧ fold (.lscan w d a rnd fmt op g ex) (fun l x => if ex then decide (x.lane < l.lane) else decide (x.lane ≤ l.lane))
     ∧ word (.lmatch w d a) (fun l => mask fun t => t.groupNat a.toNat (2 ^ w.toNat) == value l)
     ∧ takes (.qswp w d a m po) (fun l => src (l.lane - l.lane % 4 + (l.lane % 4 ^^^ m.toNat)))
     ∧ takes (.qbcast w d a m po) (fun l => src (l.lane - l.lane % 4 + m.toNat)))
  ∧ (∀ (wide : Bool) (mode x y : Nat),
       let s := if wide then 64 else 32
       let f := if wide then Fmt.int64 else .int32
       let g := if wide then Fmt.fp64 else .fp32
       let G := if wide then fp64 else fp32
       x < 2 ^ s → y < 2 ^ s →
       let step := fun (op : LaneOp) => laneStep op f mode x y
       step .add = ((x + y) % 2 ^ s, 0) ∧ step .and = (x &&& y, 0) ∧ step .or = (x ||| y, 0) ∧ step .xor = (x ^^^ y, 0)
       ∧ step .minu = (if x ≤ y then x else y, 0) ∧ step .maxu = (if x ≤ y then y else x, 0)
       ∧ sext (step .min).1 s = min (sext x s) (sext y s) ∧ sext (step .max).1 s = max (sext x s) (sext y s)
       ∧ laneStep .fadd g mode x y = G.add mode x y ∧ laneStep .fmin g mode x y = G.minMax false x y
       ∧ laneStep .fmax g mode x y = G.minMax true x y ∧ laneStep .fminnum g mode x y = G.minMaxNum false x y
       ∧ laneStep .fmaxnum g mode x y = G.minMaxNum true x y
       ∧ (∀ op ∈ [LaneOp.add, .min, .max, .minu, .maxu, .and, .or, .xor], laneStep op f mode (laneIdentity op f) y = (y, 0))
       ∧ laneIdentity .fadd g = 2 ^ (s - 1) ∧ G.decode (laneIdentity .fmin g) = .inf false ∧ G.decode (laneIdentity .fmax g) = .inf true
       ∧ (∀ op f, laneFold op f mode [] = (laneIdentity op f, 0) ∧ laneFold op f mode [x] = (x, 0)
         ∧ ∀ l, l ≠ [] → laneFold op f mode (l ++ [y]) =
           (let r := laneStep op f mode (laneFold op f mode l).1 y
            (r.1, (laneFold op f mode l).2 ||| r.2))))


/-! ## Class SYS -/

/-- R357, R358, R361 and R362 with R85, R92, R96, R137, R163, R193, R203, R222 and R226: the value that SRD and CLOCK give
for each special register, what SWR does to each that can be written, and CCTL. -/
def Obligations.SpecialRegisterResults : Prop :=
  ((∀ (s : State) (i : Issue) (k : Block), Issuing s i k → ∀ (w : Width) (d : Reg) (r : Half),
     Does s i (.srd w d r) (fun _ _ => True) (fun s l => s.updThread i.block l.tid fun th =>
       th.setGroup d.toNat (natToWords (2 ^ w.toNat) (s.readSpecial i.block l.tid r).toNat))
     ∧ Does s i (.clock d) (fun _ _ => True) (fun s l => s.updThread i.block l.tid fun th =>
       th.setPair d.toNat (s.readSpecial i.block l.tid 0x018)))
   ∧ ∀ (s : State) (b tid : Nat) (k : Block) (g : Grid), s.block? b = some k → s.gridOf b = some g →
     let th := k.thread tid
     let rd := fun (r : Half) => s.readSpecial b tid r
     rd 0x000 = BitVec.ofNat 64 tid ∧ rd 0x001 = BitVec.ofNat 64 (tid / 4) ∧ rd 0x002 = k.bid.setWidth 64
     ∧ rd 0x003 = BitVec.ofNat 64 k.member ∧ rd 0x004 = k.child.setWidth 64
     ∧ rd 0x005 = BitVec.ofNat 64 (match Sparse.find s.views k.vtag with | some v => v.depth | none => 0)
     ∧ rd 0x008 = BitVec.ofNat 64 (k.core * 2 ^ 20 + 4 * k.regBase + (k.core * 2 ^ 20 + 0x40000 + k.scratchBase) * 2 ^ 32)
     ∧ rd 0x006 = g.dl.setWidth 64 ∧ rd 0x010 = th.fpcr.setWidth 64 ∧ rd 0x011 = th.fpsr.setWidth 64
     ∧ rd 0x018 = (if g.dl = 0 then BitVec.ofNat 64 (s.cycle - k.started - k.gatedCycles) else th.retired)
     ∧ rd 0x019 = th.retired ∧ rd 0x020 = k.bto.setWidth 64 ∧ rd 0x021 = k.sto.setWidth 64
     ∧ (∀ n, n < 16 → rd (BitVec.ofNat 16 (0x030 + n)) = (Sparse.get 0 k.xval n).setWidth 64)
     ∧ (∀ n, n < 8 → rd (BitVec.ofNat 16 (0x040 + n)) = Sparse.get 0 th.trec n)
     ∧ (∀ n, n < 33 → rd (BitVec.ofNat 16 (0x080 + n)) = (if g.dl = 0 then g.dcause else g.published).dword n)
     ∧ (∀ (x : DCause) (n : Nat), x.dword 32 = x.ovfl.setWidth 64 ∧ (n < 16 → x.dword (2 * n + 1) = (x.entries[n]?.map (·.pc)).getD 0
         ∧ x.dword (2 * n) = (x.entries[n]?.map fun e => BitVec.ofNat 64 (e.code.toNat + e.count.toNat * 2 ^ 32)).getD 0)))
  ∧ ((∀ (s : State) (i : Issue) (k : Block), Issuing s i k → ∀ (w : Width) (d a : Reg) (off : BitVec 8),
       let v := fun (s : State) (l : Lane) => (s.thread i.block l.tid).groupNat d.toNat (2 ^ w.toNat)
       let word := fun (s : State) (l : Lane) => BitVec.ofNat 32 (v s l)
       let swr := fun (r : Half) => Does s i (.swr w d r)
       let line := fun (s : State) (l : Lane) => ea ((s.thread i.block l.tid).pair a.toNat).toNat (256 * sext off.toNat 8)
       swr 0x010
         (fun s l => bitsAt (v s l) 0 3 < 5 ∧ bitsAt (v s l) 11 3 < 5 ∧ bitsAt (v s l) 3 1 = 0 ∧ bitsAt (v s l) 14 18 = 0
           ∧ (bitsAt (v s l) 10 1 = 1 → ∃ n, s.kernelOf i.block = some n ∧ onBit n.features 3 = true))
         (fun s l => s.updThread i.block l.tid fun th => { th with fpcr := word s l })
       ∧ swr 0x011 (fun _ _ => True) (fun s l => s.updThread i.block l.tid fun th =>
           { th with fpsr := (th.fpsr &&& 0x1F00) ||| (word s l &&& 0x1F) })
       ∧ swr 0x020 (fun _ _ => True) (fun s l => s.updBlock i.block fun b => { b with bto := word s l })
       ∧ swr 0x021 (fun _ _ => True) (fun s l => s.updBlock i.block fun b => { b with sto := word s l })
       ∧ (∀ n, n < 16 → swr (BitVec.ofNat 16 (0x030 + n)) (fun _ _ => True) (fun s l => s.updBlock i.block fun b =>
           { b with xval := Sparse.set 0 b.xval n (BitVec.ofNat 16 (v s l)) }))
       ∧ (∀ n, n < 8 → swr (BitVec.ofNat 16 (0x040 + n)) (fun _ _ => True) (fun s l => s.updThread i.block l.tid fun th =>
           { th with trec := Sparse.set 0 th.trec n (BitVec.ofNat 64 (v s l) &&&
             (if n = 1 then 0x0000000F0F07FFFF else if n = 3 then 0x000007FFFFFFFFFF else BitVec.allOnes 64)) }))
       ∧ Does s i (.cctl a off .iinv) (fun s _ => ∃ k', s.block? i.block = some k' ∧ k'.core = k.core)
           (fun s _ => s.updCore k.core fun c => { c with icache := [] })
       ∧ (∀ op ∈ [CctlOp.wb, .wbi], Does s i (.cctl a off op)
           (fun s _ => ∃ k', s.block? i.block = some k' ∧ k'.core = k.core ∧ k'.tenant = k.tenant ∧ k'.vtag = k.vtag)
           (fun s l => match s.xlate k.core k.tenant (line s l) .rd with
             | .ok _ => if k.vtag ≠ 0 then s else s.cleanLine k.core k.tenant (line s l) (op == .wbi)
             | .error _ => s)))
     ∧ ∀ (s : State) (core t va : Nat) (inv : Bool), Sparse.wf Core.reset s.cores = true → (∀ e ∈ s.blocks, e.2.specs = []) →
         let s' := s.cleanLine core t va inv
         (∀ j, j < 4 → (s'.core core).sector? t (va / 256 * 4 + j)
           = if inv then none else ((s.core core).sector? t (va / 256 * 4 + j)).map fun x => { x with dirty := 0 })
         ∧ (∀ sec, sec / 4 ≠ va / 256 → (s'.core core).sector? t sec = (s.core core).sector? t sec)
         ∧ (∀ c, c ≠ core → { s'.core c with pendingSig := (s.core c).pendingSig } = s.core c)
         ∧ s'.blocks = s.blocks ∧ s'.grids = s.grids)

/-- R359, R360, R224 and R235: TRAP and BKPT take their trap at the instruction, to resume at the word after it, or at the
next clause where it stands last, and count as retired; a task's thread that has no handler to go to fails its task; ERET leaves a
handler, and where it resumes at a header sets the completion flags still owed. -/
def Obligations.TrapAndReturn : Prop :=
  ∀ (s : State) (i : Issue) (k : Block), Issuing s i k → ∀ imm : Half,
    let past := i.header.n.toNat < i.pos + 1
    let raised := fun (code : Nat) (s : State) (l : Lane) =>
      ((s.updThread i.block l.tid fun th => { th with retired := th.retired + 1, turnRetired := th.turnRetired + 1 }).takeTrap
        i.block l.tid i.pc i.pos (if past then i.next else i.pc) (if past then 0 else i.pos + 1)
        { Trap.of code (imm.toNat % 256) with aux0 := imm.toNat }).dropLane l.tid
    let P := fun (s : State) (l : Lane) => ∃ g, s.gridOf i.block = some g
      ∧ (g.task = none ∨ g.kernel.handler ≠ 0 ∧ (s.thread i.block l.tid).hm = false)
    let pos := fun (th : Thread) => bitsAt (th.trecAt 1).toNat 32 4
    let hdr := fun (th : Thread) => th.trecAt 0 - BitVec.ofNat 64 (4 * pos th)
    Does s i (.trap imm) P (raised 0x15) ∧ Does s i (.bkpt imm) P (raised 0x16)
    ∧ (∀ (g : Grid) (l : Lane), s.grid? k.grid = some g → g.task.isSome = true →
        (g.kernel.handler = 0 ∨ (s.thread i.block l.tid).hm = true) → i.lanes = [l] → l.start ≤ i.pos → l.pred = true →
        ∀ ins ∈ [Instr.trap imm, Instr.bkpt imm], s.gate i l ins = none →
          Reaches s ins fun t => ∃ g', t.grid? k.grid = some g' ∧ g'.task.map (·.failed) = some true)
    ∧ Does s i .eret
      (fun s l =>
        let th := s.thread i.block l.tid
        th.hm = true ∧ (hdr th).toNat % 4 = 0 ∧ ∃ t got w, s.fetchWord i.block (hdr th).toNat [] = .ok (t, got, w)
          ∧ (Header.ofWord w).fault = none ∧ pos th ≤ (Header.ofWord w).n.toNat)
      (fun s l =>
        let t := s.updThread i.block l.tid fun th =>
          { th with hm := false, pc := hdr th, clpos := pos th, keep := false
                    retired := th.retired + 1, turnRetired := th.turnRetired + 1 }
        (if pos (s.thread i.block l.tid) = 0 then t.releaseOwed i.block l.tid else t).dropLane l.tid)

/-- R220 to R223, R225, R67 and R74: a trap whose code goes to handlers, in a kernel with a handler, of a thread outside one: what
is saved and where the thread goes on, with nothing else changed; and any other trap of a thread that is not a task's
suspends it at its resume point, on the open record it merges into, or else on a new one under the tenant's next number. -/
def Obligations.TrapsTaken : Prop :=
  (∀ (s : State) (b tid : Nat) (k : Block) (g : Grid) (hdr rhdr : Dword) (pos rpos : Nat) (t : Trap), s.block? b = some k →
     s.gridOf b = some g → tid < k.T → t.toHandler = true → g.kernel.handler ≠ 0 → (k.thread tid).hm = false →
     t.code < 2 ^ 8 → t.cause < 2 ^ 8 → t.access < 2 ^ 3 → rpos < 2 ^ 4 → tid < 2 ^ 11 → Sparse.wf 0 (k.thread tid).trec = true →
     let u := s.takeTrap b tid hdr pos rhdr rpos t
     ∃ k', u.block? b = some k' ∧ { u with blocks := s.blocks } = s ∧ (∀ x, x ≠ b → u.block? x = s.block? x)
       ∧ { k' with threads := k.threads } = k ∧ (∀ x, x ≠ tid → k'.thread x = k.thread x)
       ∧ (let th := k.thread tid
          let th' := k'.thread tid
          th'.hm = true ∧ th'.pc = g.kernel.addr + g.kernel.handler.setWidth 64 ∧ th'.clpos = 0 ∧ th'.status = .running
          ∧ th'.trecAt 0 = rhdr + BitVec.ofNat 64 (4 * rpos)
          ∧ (th'.trecAt 1).toNat = t.code + t.cause * 2 ^ 8 + t.access * 2 ^ 16 + (g.queue % 16) * 2 ^ 24 + rpos * 2 ^ 32
          ∧ th'.trecAt 2 = g.gid ∧ (th'.trecAt 3).toNat = k.bid.toNat + tid * 2 ^ 32
          ∧ th'.trecAt 4 = hdr + BitVec.ofNat 64 (4 * pos) ∧ th'.trecAt 5 = BitVec.ofNat 64 t.addr
          ∧ th'.trecAt 6 = BitVec.ofNat 64 t.aux0 ∧ th'.trecAt 7 = BitVec.ofNat 64 t.aux1
          ∧ th'.fpsr = (if t.code = 0x14 then th.fpsr &&& 0xFFFFE0FF else th.fpsr)
          ∧ th'.regs = th.regs ∧ th'.preds = th.preds ∧ th'.flags = th.flags ∧ th'.owed = th.owed ∧ th'.fpcr = th.fpcr ∧ th'.rngCtr = th.rngCtr
          ∧ th'.retired = th.retired ∧ th'.marks = th.marks))
  ∧ (∀ (s : State) (b tid : Nat) (k : Block) (g : Grid) (hdr rhdr : Dword) (pos rpos : Nat) (t : Trap), s.block? b = some k →
       s.gridOf b = some g → tid < k.T → (t.toHandler = false ∨ g.kernel.handler = 0 ∨ (k.thread tid).hm = true) → g.task = none →
       Sparse.wf Tenant.reset s.tenants = true →
       let r := s.trapRecord b tid (hdr + BitVec.ofNat 64 (4 * pos)) t
       let fq := (s.tenant k.tenant).fq
       let u := s.takeTrap b tid hdr pos rhdr rpos t
       let rests := fun (seq : Nat) => ∃ k', u.block? b = some k' ∧ (∀ x, x ≠ tid → k'.thread x = k.thread x)
         ∧ k'.thread tid = { k.thread tid with
             pc := rhdr, clpos := rpos, keep := false, after := none, released := false, pages := [], captured := [], status := .suspended seq
             fpsr := if t.code = 0x14 then (k.thread tid).fpsr &&& 0xFFFFE0FF else (k.thread tid).fpsr }
       (r.code = BitVec.ofNat 8 t.code ∧ r.cause = BitVec.ofNat 8 t.cause ∧ r.access = BitVec.ofNat 3 t.access ∧ r.grid = g.gid
         ∧ r.block = k.bid ∧ r.thread = BitVec.ofNat 11 tid ∧ r.core = BitVec.ofNat 9 k.core ∧ r.count = 1
         ∧ r.pc = hdr + BitVec.ofNat 64 (4 * pos) ∧ r.addr = BitVec.ofNat 64 t.addr)
       ∧ (∀ o, fq.opened.find? (fun o => mergeKey o r t.xl) = some o → rests o.record.seq
           ∧ u.mem = s.mem ∧ (u.tenant k.tenant).fq = { fq with
               opened := fq.opened.map fun p => if p.record.seq = o.record.seq then { p with threads := p.threads ++ [(b, tid)] } else p })
       ∧ (fq.opened.find? (fun o => mergeKey o r t.xl) = none → rests fq.nextSeq ∧ (u.tenant k.tenant).fq.nextSeq = fq.nextSeq + 1
           ∧ ∃ o ∈ (u.tenant k.tenant).fq.opened, o.record = { r with seq := fq.nextSeq } ∧ o.byPage = t.xl ∧ o.threads = [(b, tid)])
       ∧ (∀ o : OpenRec, mergeKey o r t.xl = true ↔ o.byPage = t.xl ∧ o.record.core = r.core ∧ o.record.code = r.code
           ∧ if t.xl then o.record.access = r.access ∧ o.record.addr.toNat / 2 ^ 17 = r.addr.toNat / 2 ^ 17
             else o.record.pc = r.pc ∧ o.record.cause = r.cause))


/-! ## Package, bring-up, power and loss -/

/-- R21 to R24, R29 and R32: units join or are declared failed, links and ports train, the device is reset, and the service
switches, with what each changes and nothing else. -/
def Obligations.BringUpAndReset : Prop :=
  ∀ s : State,
    let switching := fun (x : State) => x.pkg.fsRequest = true ∧ x.pkg.service = 1 ∧ x.pkg.fullMap = false
    let discarded := fun (x : State) => { x with tenants := x.tenants.map fun e => (e.1, { e.2 with
      queues := e.2.queues.map fun q => (q.1, { q.2 with waiting := [], qhead := q.2.qtail }) }) }
    let told := fun (x : State) => x.raiseAll 2
    (∀ u : HwUnit, s.pkg.up u = false → u ∉ s.pkg.failed → u ∉ s.pkg.lost →
      let p := s.pkg.mark u true
      let whole := ∀ v : HwUnit, p.up v = true ∨ v ∈ s.pkg.lost
      let t := { s with pkg := p }
      let full := { s with pkg := { p with service := 1 } }
      (whole ∧ s.pkg.service = 0 → Becomes s (.unitJoin u) (if switching full then discarded full else full))
      ∧ (¬ (whole ∧ s.pkg.service = 0) → Becomes s (.unitJoin u) (if switching t then discarded t else t))
      ∧ p.up u = true ∧ (∀ v, v ≠ u → p.up v = s.pkg.up v)
      ∧ Becomes s (.unitJoinTimeout u)
        { s with pkg := { s.pkg with failed := s.pkg.failed ++ [u], service := 2, fsRequest := false } })
    ∧ (∀ u : HwUnit, s.pkg.up u = true ∨ u ∈ s.pkg.failed ∨ u ∈ s.pkg.lost →
        Becomes s (.unitJoin u) s ∧ Becomes s (.unitJoinTimeout u) s)
    ∧ (∀ l : BitVec 1, onBit s.pkg.hlinks l.toNat = false → 18 + l.toNat ∉ s.pkg.trainFail → onBit s.pkg.edges l.toNat = true →
        Becomes s (.hlinkTrain l true) { s with pkg := { s.pkg with hlinks := setBit s.pkg.hlinks l.toNat true } }
        ∧ Becomes s (.hlinkTrain l false)
          (told { s with pkg := { s.pkg with trainFail := s.pkg.trainFail ++ [18 + l.toNat] } }))
    ∧ (∀ (p : BitVec 5) (ok : Bool) (peer : PeerInfo), p.toNat < 18 → (s.port p.toNat).trained = false → p.toNat ∉ s.pkg.trainFail →
        onBit s.pkg.edges (if p.toNat < 9 then 0 else 1) = true →
        let sound := ok = true ∧ s.fabric.devid ≠ peer.devid ∧ s.fabric.devid ≠ 0x3FF ∧ peer.devid ≠ 0x3FF ∧ peer.roundTripNs ≤ 585
        (sound → Becomes s (.fportTrain p ok peer) { s with
          pkg := { s.pkg with fports := setBit s.pkg.fports p.toNat true }
          fabric := { s.fabric with ports := Sparse.set Port.none s.fabric.ports p.toNat { Port.none with trained := true, peer := .some peer, gave := .some (s.pkg.arch, s.pkg.step) } } })
        ∧ (¬ sound → Becomes s (.fportTrain p ok peer)
          (told { s with pkg := { s.pkg with trainFail := s.pkg.trainFail ++ [p.toNat] } })))
    ∧ Becomes s .deviceResetAssert { State.reset with
        pkg := { Package.reset with inReset := true, firmware := ⟨[], 0, s.pkg.firmware.verified, s.pkg.firmware.running⟩ }
        hostMem := s.hostMem, inputs := s.inputs, freeCtr := s.freeCtr, nextUid := s.nextUid }
    ∧ (s.pkg.inReset = true →
        let run := s.pkg.firmware.verified.getD s.pkg.firmware.running
        Becomes s .deviceReset { s with pkg := { s.pkg with
          inReset := false
          firmware := { s.pkg.firmware with verified := .none, running := run }
          measure := (s.pkg.measure.zip ((List.range 7).map Config.bootStage ++ [run])).map fun e =>
            BitVec.ofNat 512 (bytesToNat (shake512 (natToBytes 64 e.1.toNat ++ shake512 e.2))) } })
    ∧ (s.pkg.service ≠ 2 → s.pkg.fullMap = false →
        let t := { s with pkg := { s.pkg with fsRequest := true } }
        Becomes s .fullServiceRequest (if switching t then discarded t else t))
    ∧ (s.pkg.service = 2 ∨ s.pkg.fullMap = true → Becomes s .fullServiceRequest s)
    ∧ (switching s → s.grids = [] → Becomes s .fullServiceSwitch { s with
        pkg := { s.pkg with fullMap := true, fsRequest := false, mpbase := 0x3EE, mpsize := 16, clockMHz := [] }
        tenants := (s.tenants.map fun e => (e.1, e.2.switched)).filter fun e => e.2 != Tenant.reset
        mem := [], hostLines := [], slots := [], views := [], fantail := [], foreign := [], cores := [] })
    ∧ (∀ (x : Tenant) (q : Queue), x.switched.rootv = false ∧ x.switched.qsusp = 0 ∧ x.switched.qsaved = 0 ∧ x.switched.ipend = 0
        ∧ x.switched.diagSeq = 0 ∧ x.switched.sluice = []
        ∧ x.switched.fq = { x.fq with en := false, head := 0, tail := 0, lostCount := 0 } ∧ x.switched.en = x.en ∧ x.switched.root = x.root
        ∧ q.switched = { q with en := false, qhead := 0, qtail := 0, ovr := false, stop := false, qtl := [], dcsum := 0, waiting := [] })

/-- R15 to R18, R21, R27 to R30, R42 and R51: what the power cap, the temperature, the reference clock and the loss of a unit do;
each command of the management port while edge die E0 stands, with its answer, and what firmware comes to. The layout of the
telemetry page and of the report, the lengths that are rejected, and the clock of a restored die under a power cap are the
model's choices (log 27, log 79). -/
def Obligations.PowerLossAndBoardManagement : Prop :=
  (∀ s : State,
     let mhz := fun (x : State) (d : Nat) => Sparse.get (if x.pkg.fullMap then 1400 else 700) x.pkg.clockMHz d
     let alarm := fun (x : State) => (List.range 64).foldl (fun y t => y.raiseVector t 2) { x with pkg := { x.pkg with ibi := x.pkg.ibi + 1 } }
     -- a clause under way on a die stands still in its bundle
     let stood := fun (d : Nat) (x : State) => match x.issue with
       | none => x
       | some i => if i.core / 64 = d then { x.updBundle i.core i.bundle fun u => { u with paused := some i } with issue := none } else x
     -- a unit lost: its bit clears, and the tile histories that it held are emptied
     let gone := fun (u : HwUnit) =>
       let x := { s with pkg := { s.pkg.mark u false with lost := s.pkg.lost ++ [u] } }
       ({ x with fantail := x.fantail.filter fun f => !x.historyLost f } : State).raiseAll 2
     (∀ (x : State) (d : Nat), x.stepDown d = if mhz x d ≤ 700 then x
       else { x with pkg := { x.pkg with clockMHz := Sparse.put x.pkg.clockMHz d (max 700 (mhz x d - 25)) } })
     ∧ (∀ w : Nat,
         (w ≤ s.pkg.powerCap.toNat → Becomes s (.powerCapEnforce w) { s with pkg := { s.pkg with capUnmet := false } })
         ∧ (s.pkg.powerCap.toNat < w → (∃ d, d < 8 ∧ 700 < mhz s d) →
           Becomes s (.powerCapEnforce w) ((List.range 8).foldl (fun x d => x.stepDown d) s))
         ∧ (s.pkg.powerCap.toNat < w → (∀ d, d < 8 → mhz s d ≤ 700) → s.pkg.capUnmet = false →
           Becomes s (.powerCapEnforce w) (({ s with pkg := { s.pkg with capUnmet := true } } : State).raiseAll 2)))
     ∧ (∀ d : BitVec 4, d.toNat < 10 →
         let hot := ({ s with pkg := { s.pkg with throttled := setBit s.pkg.throttled d.toNat true } } : State).stepDown d.toNat
         Becomes s (.thermalThrottle d) (if onBit s.pkg.throttled d.toNat then hot else alarm hot)
         ∧ (onBit s.pkg.gated d.toNat = false → Becomes s (.thermalGate d)
           (alarm (stood d.toNat { s with pkg := { s.pkg with gated := setBit s.pkg.gated d.toNat true } })))
         ∧ (onBit s.pkg.gated d.toNat = true ∨ onBit s.pkg.throttled d.toNat = true → Becomes s (.thermalRestore d)
           (alarm { s with pkg := { s.pkg with
             gated := setBit s.pkg.gated d.toNat false, throttled := setBit s.pkg.throttled d.toNat false
             clockMHz := Sparse.erase s.pkg.clockMHz d.toNat } })))
     ∧ Becomes s .thermtrip { s with pkg := { s.pkg with thermTrip := true } }
     ∧ Becomes s .refclkOutOfTolerance { s with pkg := { s.pkg with refclkBad := true } }
     ∧ Becomes s .refclkInTolerance { s with pkg := { s.pkg with refclkBad := false } }
     ∧ (∀ n : BitVec 4, onBit s.pkg.hbm n.toNat = true → Becomes s (.stackLost n) (gone (.stack n)))
     ∧ (∀ d : BitVec 3, onBit s.pkg.dies d.toNat = true → (s.blocks.map (·.1)).Nodup → Reaches s (.computeDieLost d) fun t =>
         onBit t.pkg.dies d.toNat = false ∧ .die d ∈ t.pkg.lost ∧ (∀ c, c / 64 = d.toNat → t.core c = Core.reset)
         ∧ ∀ b k, s.block? b = some k →
             if k.core / 64 = d.toNat ∧ k.state ≠ .saved then
               (∃ k', t.block? b = some k' ∧ k'.state = .lost ∧ k'.T = k.T ∧ ∀ tid, k'.thread tid = match (k.thread tid).status with
                   | .waiting (.remote _) => { k.thread tid with status := .waiting .boundary }
                   | _ => k.thread tid)
               ∧ (∀ p ∈ t.pending, p.block ≠ b) ∧ (∀ e ∈ t.engines, e.block ≠ b) ∧ ∀ i, t.issue = some i → i.block ≠ b
             else t.block? b = some k)
     ∧ (∀ e : BitVec 1, onBit s.pkg.edges e.toNat = true → Becomes s (.edgeDieLost e)
         (((List.range 9).foldl (fun x j => x.losePort (9 * e.toNat + j)) (gone (.edge e))).loseHlink e.toNat))
     ∧ (∀ p, (s.port p).trained = true → (s.port p).unacked = [] → (s.port p).waiting = [] → s.losePort p =
         ({ s with pkg := { s.pkg with fports := setBit s.pkg.fports p false, trainFail := s.pkg.trainFail ++ [p] }
                   fabric := { s.fabric with ports := Sparse.set Port.none s.fabric.ports p Port.none } } : State).raiseAll 2)
     ∧ (∀ l : BitVec 1, onBit s.pkg.hlinks l.toNat = true → (∀ x ∈ s.fabric.hostUnacked, s.linkOf x.sector ≠ l.toNat) →
         (∀ p ∈ s.pending, ∀ x, p.host = some x → s.linkOf x.1 ≠ l.toNat) → Becomes s (.hlinkLost l)
         (({ s with pkg := { s.pkg with hlinks := setBit s.pkg.hlinks l.toNat false, trainFail := s.pkg.trainFail ++ [18 + l.toNat] } } : State).raiseAll 2)))
  ∧ (∀ s : State, HwUnit.edge 0 ∉ s.pkg.lost →
       let answers := fun (x : State) (r : I3cReply) => { x with pkg := { x.pkg with i3cReplies := x.pkg.i3cReplies ++ [r] } }
       let p := s.pkg
       let report := natToBytes 32 p.nonce.toNat ++ p.measure.flatMap (fun m => natToBytes 64 m.toNat) ++ natToBytes 8 p.caps.toNat
         ++ Config.deviceIdentity ++ natToBytes 4 (Config.imageVersion p.firmware.running)
       (∀ a, Becomes s (.dynamicAddressAssignment a) { s with pkg := { p with i3cAddr := some a } })
       ∧ Becomes s .inBandInterruptAccept { s with pkg := { p with ibi := p.ibi - 1 } }
       ∧ (∃ rest, Becomes s .telem { answers s (.ack (s.telemetryHead ++ rest)) with freeCtr := s.freeCtr + 1 }
             ∧ (s.telemetryHead ++ rest).length = 256)
       ∧ (∀ d, d < 10 → (s.telemetryHead.drop (2 * d)).take 2 = natToBytes 2 (s.dieMHz d))
       ∧ s.telemetryHead.drop 20 = natToBytes 2 p.gated.toNat ++ natToBytes 2 p.throttled.toNat ++ s.telemetryHead.drop 24
       ∧ (s.telemetryHead.drop 24).head? = some ((if p.capUnmet then 1 else 0) + (if p.refclkBad then 2 else 0))
       ∧ Becomes s (.pcap none) (answers s (.ack (natToBytes 2 p.powerCap.toNat)))
       ∧ (∀ w : BitVec 16, Becomes s (.pcap (some w)) (if 1500 ≤ w.toNat ∧ w.toNat ≤ 4000 then
           answers { s with pkg := { p with powerCap := w } } (.ack []) else answers s .nak))
       ∧ Becomes s .caps (answers s (.ack (natToBytes 8 p.caps.toNat)))
       ∧ (p.caps.toNat = p.dies.toNat + p.hbm.toNat * 2 ^ 8 + p.edges.toNat * 2 ^ 24 + p.fports.toNat * 2 ^ 26 + p.hlinks.toNat * 2 ^ 44
           + p.service.toNat * 2 ^ 46 + p.step.toNat * 2 ^ 48 + p.arch.toNat * 2 ^ 52)
       ∧ (∀ (off : Word) (bs : List Byte), (bs.length ≤ 240 → Becomes s (.fwchunk off bs) (answers { s with pkg := { p with firmware := { p.firmware with
             staging := bs.zipIdx.foldl (fun st e => Sparse.put st (off.toNat + e.2) e.1) p.firmware.staging, status := 1 } } } (.ack [])))
           ∧ (240 < bs.length → Becomes s (.fwchunk off bs) (answers s .nak)))
       ∧ (let f := p.firmware
          let image := if f.staging ≠ [] ∧ f.staging.map (·.1) = List.range f.staging.length then some (f.staging.map (·.2)) else none
          let verdict : Byte := match image with
            | none => 5
            | some x => if Config.signatureOk x = false then 3 else if Config.imageVersion x < Config.fusedVersion then 4 else 2
          Becomes s .fwcommit (answers { s with pkg := { p with firmware := { f with
            staging := [], status := verdict, verified := if verdict = 2 then image else f.verified } } } (.ack [])))
       ∧ Becomes s .fwstatus (answers s (.ack [p.firmware.status]))
       ∧ (∀ n, Becomes s (.attest (some n)) (answers { s with pkg := { p with nonce := n } } (.ack [])))
       ∧ Becomes s (.attest none) (answers s (.ack (report ++ Config.attestSignature report)))
       ∧ ∀ c, Becomes s (.i3cUnassignedCommand c) (answers s .nak))


/-! ## Fabric -/

/-- R32 to R34, R36 to R44, R46 to R52, R88, R123, R173 and R175: device ID and routes, forwarding, replay and flow control, folds at
a grid's end, and writes of the host to its own memory; what a message for this device that is well formed and whose checks
hold does, where its page is one of this device's that may be reached from others, and how a failed one is answered. -/
def Obligations.FabricPortsAndMessages : Prop :=
  (∀ s : State,
     let port := fun (x : State) (p : Nat) => Sparse.get Port.none x.fabric.ports p
     let withPort := fun (x : State) (p : Nat) (v : Port) => { x with fabric := { x.fabric with ports := Sparse.set Port.none x.fabric.ports p v } }
     let linked := fun (x : State) (m : Msg) => match m.via with | .some p => x.flitPassed p.toNat | .none => x
     (∀ v : Dword, Becomes s (.fabidWrite v) (if (∃ e ∈ s.fabric.ports, e.2.trained = true) then s
         else { s with fabric := { s.fabric with devid := BitVec.ofNat 10 v.toNat } }))
     ∧ (∀ (d : BitVec 10) (v : Word), Becomes s (.routeEntryWrite d v) (if 17 < v.toNat % 2 ^ 5 then s
         else { s with fabric := { s.fabric with
           routes := Sparse.set Route.none s.fabric.routes d.toNat ⟨v.getLsbD 5, BitVec.ofNat 5 v.toNat⟩ } }))
     ∧ (∀ m : Msg, m.dst ≠ s.fabric.devid → m.ty ≠ 0x08 → linkOk m = true →
         let u := linked s m
         let r := Sparse.get Route.none u.fabric.routes m.dst.toNat
         let p := port u r.port.toNat
         let m' := { sealMsg { m with hops := m.hops + 1 } with via := m.via }
         let whole := msgMalformed m = false ∧ ∀ f ∈ m.data, flitOk f = true
         (msgMalformed m = true → Becomes s (.messageForward m)
           (if m.ty.toNat ∈ [0x02, 0x04, 0x06, 0x09, 0x1F] then (u.reject m 4 0 0).nakTo m.dst m 4 0 0 else u.reject m 4 0 0))
         ∧ (msgMalformed m = false → m.hops = 15 → Becomes s (.messageForward m) (u.dropForward m 4))
         ∧ (msgMalformed m = false → m.hops ≠ 15 → (∃ f ∈ m.data, flitOk f = false) → Becomes s (.messageForward m) (u.dropForward m 2))
         ∧ (whole → m.hops ≠ 15 → r.valid = true → p.trained = true → onBit p.stopped m.vc.toNat = false → Becomes s (.messageForward m)
           { u with fabric := { u.fabric with
             sent := u.fabric.sent ++ [m']
             ports := Sparse.set Port.none u.fabric.ports r.port.toNat { p with unacked := p.unacked ++ [(m', 1 + m.data.length)] } } })
         ∧ (whole → m.hops ≠ 15 → r.valid = true → p.trained = true → onBit p.stopped m.vc.toNat = true → Becomes s (.messageForward m)
           (withPort u r.port.toNat { p with waiting := p.waiting ++ [m'] }))
         ∧ (whole → m.hops ≠ 15 → r.valid = false ∨ p.trained = false → Becomes s (.messageForward m) (u.dropForward m 3))
         ∧ (∀ c, (m.ty.toNat ∉ [0x02, 0x04, 0x06, 0x09, 0x1F] → s.dropForward m c = s.reject m 4 cINTEG c)
           ∧ (m.ty.toNat ∈ [0x02, 0x04, 0x06, 0x09] → s.dropForward m c = s.nakTo m.dst m 4 cINTEG c)
           ∧ (m.ty.toNat = 0x1F → s.dropForward m c = s)))
     ∧ (∀ (p : BitVec 5) (vc : BitVec 2) (n : Nat), (port s p.toNat).trained = true →
         let x := port s p.toNat
         let failed := if 8 ≤ x.failures then s.losePort p.toNat else withPort s p.toNat { x with failures := x.failures + 1, asks := x.asks + 1 }
         Becomes s (.flitReplay p) failed ∧ s.flitFailed p.toNat = failed
         ∧ s.flitPassed p.toNat = (if x.failures = 0 then s else withPort s p.toNat { x with failures := 0 })
         ∧ Becomes s (.flitAcknowledge p n) (withPort s p.toNat { x with unacked := dropFlits n x.unacked })
         ∧ Becomes s (.flowStop p vc) (withPort s p.toNat { x with stopped := setBit x.stopped vc.toNat true })
         ∧ Becomes s (.flowGo p vc) ((x.waiting.filter fun m => decide (m.vc = vc)).foldl (fun y m => y.toPort p.toNat m)
           (withPort s p.toNat { x with
             stopped := setBit x.stopped vc.toNat false, waiting := x.waiting.filter fun m => decide (m.vc ≠ vc) })))
     ∧ (∀ (n : Nat) (l : List (Msg × Nat)), dropFlits 0 l = l.dropWhile (fun e => e.2 = 0)
         ∧ ∀ m k, dropFlits n ((m, k) :: l) = if n < k then (m, k - n) :: l else dropFlits (n - k) l)
     ∧ (∀ (gid page : Dword) (others : List Contribution),
         let t := gid.toNat / 2 ^ 58
         let home := s.homeDevice t page.toNat
         let here := home = s.fabric.devid.toNat
         let mine := fun (r : HeldRed) => decide (s.pageBase t r.va = page.toNat)
         let theirs := others.map (Contribution.held gid)
         let fold := fun (x : State) (rs : List HeldRed) => (sortBy heldBefore rs).foldl (fun x r => x.foldHeld t r) x
         let ev := Instr.crossDeviceFold gid ⟨page, others⟩
         (s.gridNamed gid = none → Becomes s ev (if here then fold s theirs else s))
         ∧ ∀ (n : Nat) (g : Grid), s.gridNamed gid = some (n, g) →
           let own := g.heldRed.filter mine
           let s₁ := s.setGrid n { g with heldRed := g.heldRed.filter fun r => !mine r }
           (g.finished < g.total → Becomes s ev (if here then
             s.setGrid n { g with heldRed := g.heldRed ++ theirs, folds := g.folds ++ [page.toNat] } else s))
           ∧ (g.total ≤ g.finished → Becomes s ev (if here then fold s₁ (own ++ theirs)
               else if own = [] then s else s₁.note home (.contribute gid (own.map HeldRed.contribution)))))
     ∧ (∀ (t : Nat) (r : HeldRed) (x : Xl), let n := if r.fmt = .int64 ∨ r.fmt = .fp64 then 8 else 4
         r.fmt ∈ [Fmt.int32, .int64, .fp32, .fp64] → s.xlate ownSite t r.va .wr = .ok x → s.lostHome x.home n = none →
         let s₁ := s.flushAt x.home n
         let step := atomStep r.op r.fmt false (bytesToNat (s₁.readHome x.home n)) r.value.toNat 0
         s.foldHeld t r = (s₁.storeHome (r.threads.head?.map fun tid => ⟨r.block, tid, r.record.pc⟩) t r.va x.home
           (natToBytes n step.1)).raiseLive (r.threads.map fun tid => (r.block, tid)) step.2)
     ∧ (∀ (a : Dword) (bs : List Byte), Memory.wf s.hostMem = true → Reaches s (.hostLineInvalidate a bs) fun t =>
         (∀ x, Memory.byte t.hostMem x = if a.toNat ≤ x ∧ x < a.toNat + bs.length ∧ x / 64 = a.toNat / 64 then bs.getD (x - a.toNat) 0
           else Memory.byte s.hostMem x)
         ∧ (∀ j, Sparse.find t.hostLines j = if j % 2 ^ 58 = a.toNat / 64 then none else Sparse.find s.hostLines j)
         ∧ { t with hostMem := s.hostMem, hostLines := s.hostLines, cores := s.cores } = s)
     ∧ Becomes s .hostStoreAcknowledge { s with fabric := { s.fabric with hostUnacked := s.fabric.hostUnacked.drop 1 } })
  ∧ (∀ (o : State) (m : Msg),
       let s := match m.via with | some p => o.flitPassed p.toNat | none => o
       let t := m.tenant.toNat
       let n := bitsAt m.opw.toNat 16 16
       let bytes := flitBytes m.data
       let sound := fun (ty : Nat) => m.ty.toNat = ty ∧ m.dst = s.fabric.devid ∧ linkOk m = true ∧ msgMalformed m = false
         ∧ msgInteg m = none
       let now := s.inTurns t = false
       let root := msgViews m = []
       let answer := fun (x : State) (ty : Nat) (opw : Nat) (inl : Nat) (data : List Flit) =>
         x.tell (mkMsg ty x.fabric.devid m.src t 0 0 m.tag (BitVec.ofNat 64 opw) (BitVec.ofNat 256 inl) data)
       let inl := fun (j : Nat) => (BitVec.ofNat 64 (bitsAt m.inl.toNat (64 * j) 64) : Dword)
       -- a flit whose link check fails is discarded and asked for again; a message of another type or device is not the step's
       (∀ e ∈ [(Instr.ldq m, 0x01), (.lda m, 0x02), (.stq m, 0x03), (.sta m, 0x04), (.atq m, 0x05), (.ata m, 0x06), (.sig m, 0x07),
           (.mcs m, 0x08), (.mca m, 0x09), (.cpw m, 0x0A), (.ivq m, 0x10), (.ivo m, 0x11), (.hpl m, 0x12), (.hrs m, 0x13), (.hbk m, 0x14), (.nak m, 0x1F)],
         (m.ty.toNat = e.2 → m.dst = o.fabric.devid → linkOk m = false →
           Becomes o e.1 (match m.via with | some p => o.flitFailed p.toNat | none => o))
         ∧ (m.ty.toNat ≠ e.2 → (e.2 = 0x1F → (msgVc m.ty.toNat).isSome = true) → Becomes o e.1 o))
       -- loads, stores, atomics and copy writes of the root view, with the attributes of their page in the answer
       ∧ (∀ x, now → root → 0 < n → s.remoteXlate m .rd = .ok x → s.lostHome x.home n = none → sound 0x01 →
         let s₁ := ((s.fillTlb ownSite t x.leaf).fillHost x.home false).flushAt x.home n
         Becomes o (.ldq m) (answer s₁ 0x02 (leafBits x.leaf + n * 2 ^ 16) 0 (flitsOf (s₁.readHome x.home n))))
       ∧ (∀ x, now → root → 0 < n → s.remoteXlate m .wr = .ok x → s.lostHome x.home n = none → sound 0x03 →
         Becomes o (.stq m)
           (answer ((s.fillTlb ownSite t x.leaf).storeHome none t m.addr.toNat x.home (bytes.take n)) 0x04 (leafBits x.leaf) 0 []))
       ∧ (∀ x op fmt, now → root → s.remoteXlate m .wr = .ok x → sound 0x05 → bitAt m.opw.toNat 14 = false →
           atomOpOf (bitsAt m.opw.toNat 0 8) = some op → atomFmtOk (bitsAt m.opw.toNat 8 4) = some fmt →
           (x.leaf.fmt = .bytes ∨ x.leaf.fmt = fmt) →
           let k := if fmt = .int64 ∨ fmt = .fp64 then 8 else 4
           s.lostHome x.home k = none →
           let s₁ := ((s.fillTlb ownSite t x.leaf).flushAt x.home k).fillHost x.home true
           let old := bytesToNat (s₁.readHome x.home k)
           let r := atomStep op fmt (bitAt m.opw.toNat 13) old (inl 0).toNat (inl 1).toNat
           Becomes o (.atq m) (answer (if op = .cas ∧ old ≠ (inl 1).toNat % 2 ^ (8 * k) then s₁
             else s₁.storeHome none t m.addr.toNat x.home (natToBytes k r.1)) 0x06 (leafBits x.leaf + r.2.toNat * 2 ^ 56) old []))
       ∧ (∀ s₁, now → sound 0x0A → msgOnChip m = false → s.cpwFault m = none →
           s.writeSectors m (bytes.take n) (fun _ => true) = some s₁ → Becomes o (.cpw m) (answer s₁ 0x04 0 0 []))
       -- the test of a page, an atomic that this device does not implement, and a tenant that is not enabled
       ∧ (∀ x, now → n = 0 → s.remoteXlate m .rd = .ok x → sound 0x01 → Becomes o (.ldq m) (answer s 0x02 (leafBits x.leaf) 0 []))
       ∧ (∀ x, now → root → n = 0 → s.remoteXlate m .wr = .ok x → sound 0x03 → Becomes o (.stq m) (answer s 0x04 (leafBits x.leaf) 0 []))
       ∧ (∀ x, sound 0x05 → bitAt m.opw.toNat 14 = true → atomOpOf (bitsAt m.opw.toNat 0 8) ≠ none →
           atomFmtOk (bitsAt m.opw.toNat 8 4) ≠ none → s.remoteXlate m .wr = .ok x → Becomes o (.atq m) (answer s 0x06 (leafBits x.leaf) 0 []))
       ∧ (now → sound 0x05 →
           (atomOpOf (bitsAt m.opw.toNat 0 8) = none → Becomes o (.atq m) (answer s 0x06 (2 ^ 32) 0 []))
           ∧ (atomOpOf (bitsAt m.opw.toNat 0 8) ≠ none → atomFmtOk (bitsAt m.opw.toNat 8 4) = none →
             Becomes o (.atq m) (answer s 0x06 (2 * 2 ^ 32) 0 []))
           ∧ (atomOpOf (bitsAt m.opw.toNat 0 8) ≠ none → atomFmtOk (bitsAt m.opw.toNat 8 4) ≠ none → (s.tenant t).en = false →
             Becomes o (.atq m) (answer s 0x06 (3 * 2 ^ 32) 0 [])))
       -- a write of a view goes to its working copy here, or waits for a slot
       ∧ (∀ x v l, now → msgViews m = v :: l → s.remoteXlate m .wr = .ok x → s.lostHome x.home (max 1 n) = none → sound 0x03 →
           (∀ s₁, (s.fillTlb ownSite t x.leaf).captureIn t (v :: l) m.addr.toNat x = some s₁ →
             Becomes o (.stq m) (answer (s₁.writeSlot t v m.addr.toNat (bytes.take n)) 0x04 (leafBits x.leaf) 0 []))
           ∧ ((s.fillTlb ownSite t x.leaf).captureIn t (v :: l) m.addr.toNat x = none →
             Becomes o (.stq m) (({ s with fabric := { s.fabric with slotWait := s.fabric.slotWait ++ [(s.cycle, m)] } } : State).reject m 0 cVIEWPOOL 0)))
       -- where a grid of the tenant runs in turns, what would change memory waits for the boundary, and a load behind it
       ∧ (s.inTurns t = true → root → msgTests m = false →
           let kept := { s with fabric := { s.fabric with arrived := s.fabric.arrived ++ [m] } }
           (∀ e ∈ [(Instr.stq m, 0x03), (.atq m, 0x05), (.cpw m, 0x0A)], sound e.2 → Becomes o e.1 kept)
           ∧ ((∃ x ∈ s.fabric.arrived, x.tenant = m.tenant ∧ x.src = m.src ∧ msgsMeet x m = true) → sound 0x01 → Becomes o (.ldq m) kept)
           ∧ ((∀ x ∈ s.fabric.arrived, ¬ (x.tenant = m.tenant ∧ x.src = m.src ∧ msgsMeet x m = true)) → sound 0x01 →
               Becomes o (.ldq m) (s.performLdq m)))
       -- answers, which come from the device that was asked
       ∧ (∀ r, s.fabric.remotes.find? (fun r => r.tag == m.tag) = some r → m.src = r.dst →
           let s₁ := { s with fabric := { s.fabric with remotes := s.fabric.remotes.filter fun x => x.tag != r.tag } }
           let va := r.dst.toNat * 2 ^ 43 + r.addr % 2 ^ 43
           let got := bytes.take n
           let ready := fun (x : State) (p : Nat) (f : PendOp → List (Nat × Word) × Flags) => { x with pending := x.pending.map fun y =>
             if y.id = p then { y with regs := (f y).1, fpflags := (f y).2, ready := true } else y }
           (∀ p keep near, r.what = .load p keep near → sound 0x02 →
             let policy := bitsAt m.opw.toNat 10 2
             let s₂ := if keep = true ∧ policy ≠ 1 then { s₁ with proxy := (s₁.proxy.filter fun y =>
                 !decide (y.tenant = r.tenant ∧ y.va < va + got.length ∧ va < y.va + y.bytes.length)) ++ [⟨r.tenant, va, got⟩] } else s₁
             let s₃ := match (if near = true ∧ policy = 0 then s₂.coreOf p else none) with
               | some c => s₂.keepRemote c r.tenant va (.remote r.dst.toNat r.addr) got
               | none => s₂
             Becomes o (.lda m) (ready s₃ p fun x => loadHow x.how (overlayStores got va x.cover)))
           ∧ (∀ p cas, r.what = .atomic p cas → sound 0x06 → bitsAt m.opw.toNat 32 8 = 0 →
             let s₂ := match s₁.pending.find? (fun x => x.id == p), cas with
               | some x, some c => if c.toNat = (inl 0).toNat then (match s₁.block? x.block with
                   | some k => if k.vtag = 0 then (s₁.noteWritten k.core r.tenant va).noteStored x.block x.tid x.pc va else s₁
                   | none => s₁) else s₁
               | _, _ => s₁
             let s₃ := match s₂.whose r.what with | some e => s₂.unlack e.1 | none => s₂
             Becomes o (.ata m) (ready s₃ p fun x =>
               (regWrites x.how.1 (natToWords x.how.2.1 (if x.how.2.2 = 1 then 0 else (inl 0).toNat)), BitVec.ofNat 5 (bitsAt m.opw.toNat 56 5))))
           ∧ (∀ b tid pc, r.what = .store b tid pc → sound 0x04 → Becomes o (.sta m) (s₁.unlack b))
           ∧ (∀ ths pc, r.what = .red ths pc → sound 0x06 → bitsAt m.opw.toNat 32 8 = 0 →
               Becomes o (.ata m) ((ths.foldl (fun x e => x.unlack e.1) s₁).raiseLive ths (BitVec.ofNat 5 (bitsAt m.opw.toNat 56 5))))
           ∧ (∀ b tid access w nf, r.what = .test b tid access w nf → sound 0x04 → (s₁.thread b tid).status = .waiting (.remote r.tag) →
               let l := leafFrom 0 (m.opw.toNat % 2 ^ 16)
               Becomes o (.sta m) ((s₁.tellPage b tid w
                 { remoteLeaf w with fmt := l.fmt, redop := l.redop, view := l.view, domain := l.domain, policy := l.policy, geom := l.geom } 0).wake b tid))
           ∧ (∀ b tid access w, r.what = .capture b tid access w → sound 0x04 → (s₁.thread b tid).status = .waiting (.remote r.tag) →
               Becomes o (.sta m) (s₁.giveSlot b tid w))
           ∧ (sound 0x1F → bitAt m.inl.toNat 65 = false → bitAt m.inl.toNat 64 = false → s.mcastTag m.tag = false → msgError m ≠ (cVIEWPOOL, 0) →
               let e := msgError m
               let cause := if e.1 = cINTEG then e.2 else 6
               (∀ p keep near, r.what = .load p keep near →
                 Becomes o (.nak m) ((s₁.remoteRecord r.tenant r.what va cINTEG cause).replyLost p ⟨cINTEG, cause, 0, va⟩))
               ∧ (∀ b tid access w nf, r.what = .test b tid access w nf → (s₁.thread b tid).status = .waiting (.remote r.tag) →
                   e.1 ≠ cINTEG → bitsAt m.opw.toNat 40 8 ≠ 0 → Becomes o (.nak m) (s₁.trapWaiting b tid (Trap.ofXlate e access w)))))
       ∧ (sound 0x1F → bitAt m.inl.toNat 65 = true → Becomes o (.nak m) s)
       ∧ (sound 0x1F → bitAt m.inl.toNat 65 = false → bitAt m.inl.toNat 64 = true →
           let e := msgError m
           Becomes o (.nak m) (((s.postEvent t (FaultRec.integ (if e.1 = cINTEG then e.2 else 6))).answerAsked m.tag (inl 0) lostHandle).breakHandle
             chainFuel (inl 0) (BitVec.ofNat 8 cINTEG) 0 0))
       ∧ (sound 0x07 → ∀ f rest, m.data = f :: rest →
           Becomes o (.sig m) (answer ((s.activeCores.foldl (fun x c => x.giveSig f.sector c) s).dropMatching f.sector) 0x04 0 0 []))
       ∧ (m.ty.toNat = 0x08 → linkOk m = true → msgMalformed m = false → msgInteg m = none →
           let r := s.applyMcs (m.dst.toNat % 256) t m.addr.toNat m (bytes.take n) (some m.src) none (s.inTurns t)
           let s₁ := match r.2.2.2.1 with
             | some tag => { r.1 with fabric := { r.1.fabric with arrived := r.1.fabric.arrived ++ [retag m tag] } }
             | none => r.1
           (m.hops = 15 → Becomes o (.mcs m) (answer s 0x09 (4 * 2 ^ 32) 0 []))
           ∧ (m.hops ≠ 15 → Becomes o (.mcs m) (if r.2.2.2.2 = true then answer s₁ 0x09 (r.2.1 * 2 ^ 32) 0 [] else s₁)))
       ∧ (m.ty.toNat = 0x08 → linkOk m = true → msgMalformed m = true → Becomes o (.mcs m) (answer s 0x09 (4 * 2 ^ 32) 0 []))
       ∧ (∀ x, sound 0x09 → s.fabric.mcasts.find? (fun x => BitVec.ofNat 32 x.id == m.tag) = some x →
           let st := max x.status (bitsAt m.opw.toNat 32 8)
           let s₁ := { s with fabric := { s.fabric with mcasts := s.fabric.mcasts.filter fun y => y.id != x.id } }
           (1 < x.left → Becomes o (.mca m) { s with fabric := { s.fabric with mcasts := s.fabric.mcasts.map fun y =>
             if y.id = x.id then { y with left := y.left - 1, status := st, lost := x.lost } else y } })
           ∧ (∀ p, x.left ≤ 1 → x.issuer = none → x.parent = some p →
             Becomes o (.mca m) (s₁.tell (mkMsg 0x09 s₁.fabric.devid p x.tenant 0 0 x.tag (BitVec.ofNat 64 (st * 2 ^ 32)) 0 [])))
           ∧ (∀ e, x.left ≤ 1 → x.issuer = some e →
             Becomes o (.mca m) ((s₁.closeRemote x.tag).finishStmc x.tenant ⟨e.1, e.2.1, e.2.2.1⟩ e.2.2.2 st x.lost)))
       -- messages about handles
       ∧ (∀ f rest, m.data = f :: rest →
           let v := s.learnViews t m.views
           (sound 0x10 → Becomes o (.ivq m) ((v.know (inl 0)).createTask (inl 0) (inl 1) (natToWords 8 (f.sector.toNat % 2 ^ 256)) []
             none (if bitAt m.opw.toNat 3 = true then some (bitsAt m.opw.toNat 0 3) else none)
             (v.termsFrom t (bitsAt m.inl.toNat 128 128 + 2 ^ 128 * (m.opw.toNat / 2 ^ 4)))))
           ∧ (sound 0x11 → Becomes o (.ivo m) (((v.know (inl 0)).know (inl 1)).addIvo (inl 0)
             ⟨inl 1, inl 2, natToWords 8 (f.sector.toNat % 2 ^ 256),
               v.termsFrom t (bitsAt m.inl.toNat 192 64 + 2 ^ 64 * m.opw.toNat + 2 ^ 128 * m.tag.toNat)⟩)))
       ∧ (hHome m.opw = s.fabric.devid → s.gone m.opw = false → bitsAt m.inl.toNat 8 3 = 0 → sound 0x12 → Becomes o (.hpl m)
           ((s.updSluice (hTenant m.opw) (hSlot m.opw) fun e => { e with
             st := if e.st = .unplaced then .placed else e.st, place := some (m.src, bitsAt m.inl.toNat 0 3) }).releaseIvos m.opw))
       ∧ (hHome m.opw = s.fabric.devid → bitsAt m.inl.toNat 8 3 = 1 → sound 0x12 → Becomes o (.hpl m) (s.answerAsk m))
       ∧ (hHome m.opw = s.fabric.devid → bitsAt m.inl.toNat 8 3 = 2 → sound 0x12 → Becomes o (.hpl m) (s.dropHandle m.opw))
       ∧ (bitAt m.inl.toNat 10 = true → sound 0x12 → Becomes o (.hpl m) (s.answerAsked m.tag m.opw .notReady))
       ∧ (hHome m.opw ≠ s.fabric.devid → bitAt m.inl.toNat 10 = false → sound 0x12 → Becomes o (.hpl m) s)
       ∧ (hHome m.opw ≠ s.fabric.devid → sound 0x13 →
           let result := natToWords 8 m.inl.toNat
           let x := ((s.know m.opw).updForeign m.opw fun e => { e with st := .ready, done := true, result := result }).releaseIvos m.opw
           Becomes o (.hrs m) (if m.tag = 0 then x.tellAwaits m.opw (.ready result) else x.answerAsked m.tag m.opw (.ready result)))
       ∧ (hHome (inl 0) ≠ s.fabric.devid → sound 0x14 →
           let code : Byte := BitVec.ofNat 8 (bitsAt m.inl.toNat 64 8)
           let hops : Byte := BitVec.ofNat 8 (bitsAt m.inl.toNat 72 8)
           let reason := BitVec.ofNat 2 (bitsAt m.inl.toNat 80 2)
           let v := HView.broken (statusWord code hops reason)
           Becomes o (.hbk m) (if m.tag = 0 then ((s.know (inl 0)).breakKnown (inl 0) code hops reason).tellAwaits (inl 0) v
             else s.answerAsked m.tag (inl 0) v))
       ∧ (hHome m.opw = s.fabric.devid → sound 0x13 → Becomes o (.hrs m) (s.noteReady m.opw (natToWords 8 m.inl.toNat)))
       ∧ (hHome (inl 0) = s.fabric.devid → sound 0x14 → Becomes o (.hbk m) (s.breakHandle chainFuel (inl 0)
           (BitVec.ofNat 8 (bitsAt m.inl.toNat 64 8)) (BitVec.ofNat 8 (bitsAt m.inl.toNat 72 8)) (BitVec.ofNat 2 (bitsAt m.inl.toNat 80 2))))
       ∧ (msgMalformed m = true → linkOk m = true → m.dst = s.fabric.devid →
           ∀ e ∈ [(Instr.ldq m, 0x01), (.stq m, 0x03), (.atq m, 0x05), (.sig m, 0x07), (.cpw m, 0x0A), (.ivq m, 0x10), (.ivo m, 0x11),
             (.hpl m, 0x12), (.hrs m, 0x13), (.hbk m, 0x14)], m.ty.toNat = e.2 → Becomes o e.1 (s.reject m 4 0 0)))

/-! ## The host's registers, apertures and translation -/

/-- R5, R6, R26, R45, R53 to R58, R68, R73, R80, R81 and R228: what a write of the host does to each register, and when it is
ignored; what a read gives of write-only and of disabled registers, of W1C bits, and of an entry that is only staged. -/
def Obligations.HostRegisterWrites : Prop :=
  ∀ (s : State) (v : Dword),
    let n := v.toNat
    let reg := fun (o : Nat) (t : State) => Becomes s (.registerWrite (BitVec.ofNat 24 o) v) t
    (∀ j, j < 256 → reg (0x2000 + 4 * j) { s with fabric := { s.fabric with
        trees := Sparse.set Tree.none s.fabric.trees j ⟨BitVec.ofNat 64 (n % 2 ^ 26)⟩ } })
    ∧ reg 0x0300 { s with pkg := { s.pkg with pdelay := BitVec.ofNat 32 n, pen := bitAt n 32 } }
    ∧ (∀ t : Nat, t < 64 →
        let x := s.tenant t
        let ctl := fun (o : Nat) (f : Tenant → Tenant) => reg (0x50000 + 0x200 * t + o) (s.updTenant t f)
        let page := fun (o : Nat) (f : Tenant → Tenant) => reg (0x10000 + 0x1000 * t + o) (s.updTenant t f)
        let clear := fun (a m : Nat) => ¬ (0 < m ∧ a < s.hbmBytes ∧ s.reservedBase < a + m)
        (clear (bitsAt n 13 27 * 2 ^ 13) (2 ^ 13) → ctl 0x008 fun x => { x with rootv := bitAt n 0, root := BitVec.ofNat 27 (bitsAt n 13 27) })
        ∧ (¬ clear (bitsAt n 13 27 * 2 ^ 13) (2 ^ 13) → reg (0x50000 + 0x200 * t + 0x008) s)
        ∧ (s.savingTenant t = false → clear (bitsAt n 16 24 * 2 ^ 16) (x.savesize.toNat * 2 ^ 20) →
            ctl 0x020 fun x => { x with savebase := BitVec.ofNat 24 (bitsAt n 16 24) })
        ∧ (s.savingTenant t = false → clear (x.savebase.toNat * 2 ^ 16) (bitsAt n 0 16 * 2 ^ 20) →
            ctl 0x028 fun x => { x with savesize := BitVec.ofNat 16 n })
        ∧ (s.savingTenant t = true ∨ ¬ clear (bitsAt n 16 24 * 2 ^ 16) (x.savesize.toNat * 2 ^ 20) → reg (0x50000 + 0x200 * t + 0x020) s)
        ∧ (s.savingTenant t = true ∨ ¬ clear (x.savebase.toNat * 2 ^ 16) (bitsAt n 0 16 * 2 ^ 20) → reg (0x50000 + 0x200 * t + 0x028) s)
        ∧ (s.savingTenant t = true ↔ x.qsaved ≠ 0 ∨ ∃ e ∈ s.blocks, e.2.tenant = t ∧ e.2.state = .saving)
        ∧ (s.tenantBusy t = false → ctl 0x030 fun x => { x with diemask := BitVec.ofNat 8 n, ncore := BitVec.ofNat 7 (bitsAt n 8 7) })
        ∧ (s.tenantBusy t = true → reg (0x50000 + 0x200 * t + 0x030) s)
        ∧ (∀ j, j < 16 → ctl (0x180 + 8 * j) fun x => { x with domset := domsetWith x.domset j v })
        ∧ page 0x038 (fun x => { x with fq := { x.fq with lostCount := BitVec.ofNat 32 n } })
        ∧ page 0x048 (fun x => { x with ipend := x.ipend &&& ~~~(BitVec.ofNat 4 n) })
        ∧ page 0x060 (fun x => { x with diagBase := BitVec.ofNat 43 (bitsAt n 10 43) })
        ∧ (bitsAt n 0 4 ≤ 12 → page 0x068 fun x => { x with diagLog2 := BitVec.ofNat 4 n })
        ∧ (∀ q : Nat, q < 16 →
            let queue := fun (o : Nat) (f : Queue → Queue) => page (0x200 + 0x40 * q + o) fun x => x.setQueue q (f (x.queue q))
            ((s.queue t q).en = false → s.queueIdle t q = true →
                queue 0x20 (fun y => { y with ovr := y.ovr && !bitAt n 1, stop := y.stop && !bitAt n 2 })
                ∧ queue 0x00 (fun y => { y with qbase := BitVec.ofNat 53 (bitsAt n 7 46 * 128) })
                ∧ queue 0x28 (fun y => { y with seed := BitVec.ofNat 128 (y.seed.toNat / 2 ^ 64 * 2 ^ 64 + n) })
                ∧ queue 0x30 (fun y => { y with seed := BitVec.ofNat 128 (n * 2 ^ 64 + y.seed.toNat % 2 ^ 64) })
                ∧ queue 0x38 (fun y => { y with traceAddr := BitVec.ofNat 53 n }))
            ∧ ((s.queue t q).en = true ∨ s.queueIdle t q = false → ∀ o ∈ [0x00, 0x20, 0x28, 0x30, 0x38],
                reg (0x10000 + 0x1000 * t + (0x200 + 0x40 * q + o)) s)))
    ∧ (∀ (d : BitVec 1024) (j i : Nat), j < 16 → i < 1024 →
        onBit (domsetWith d j v) i = if i / 64 = j then v.getLsbD (i % 64) else onBit d i)
    -- reads
    ∧ (∀ r : Dword, r.toNat % 8 ≠ 0 → s.readRegister (0x10000 + r.toNat % 0x48000) = 0)
    ∧ s.readRegister 0x0010 = s.pkg.caps
    ∧ (∀ j, j < 1024 → let entry := fun (j : Nat) => let r := Sparse.get Route.none s.fabric.routes j
          r.port.toNat + if r.valid = true then 2 ^ 5 else 0
        s.readRegister (0x1000 + 4 * j) = BitVec.ofNat 64 (entry j + if j % 2 = 0 then entry (j + 1) * 2 ^ 32 else 0))
    ∧ (∀ t o : Nat, t < 64 → o < 0x200 → o % 8 = 0 →
        let x := s.tenant t
        (∀ p, p < 0x1000 → x.en = false → s.readRegister (0x10000 + 0x1000 * t + p) = 0)
        ∧ (∀ p ∈ [0x000, 0x030, 0xA80], s.readRegister (0x10000 + 0x1000 * t + p) = 0)
        ∧ (x.en = true → s.readRegister (0x10000 + 0x1000 * t + 0x048) = x.ipend.setWidth 64
          ∧ s.readRegister (0x10000 + 0x1000 * t + 0x008) = (if x.tlbBusy = true then 2 ^ 63 else 0))
        ∧ (∀ j, j < 16 → s.readRegister (0x50000 + 0x200 * t + 0x180 + 8 * j) = x.domset.extractLsb' (64 * j) 64)
        ∧ (∀ e w, Sparse.wf Tenant.reset s.tenants = true → s.readRegister (0x50000 + 0x200 * t + o)
            = (s.updTenant t fun x => { x with staged := Sparse.set 0 x.staged e w }).readRegister (0x50000 + 0x200 * t + o)))

/-- R53, R56 to R60, R64, R66, R174, R176 and R184: tenants, wide entries, shares, the pool, interrupt masks, accesses of the
host through an aperture, walks and TLBINV. -/
def Obligations.TenantsAperturesAndTranslation : Prop :=
  ∀ (s : State) (t : BitVec 6) (v : Dword),
    let n := v.toNat
    let x := s.tenant t.toNat
    let upd := s.updTenant t.toNat
    Becomes s (.tenantEnWrite t v) (if v.getLsbD 0 then upd fun x => { x with en := true } else upd fun x => { x with
      en := false
      queues := (x.queues.map fun e => (e.1, { e.2 with waiting := [], qhead := e.2.qtail, en := false })).filter fun e => e.2 != Queue.reset })
    ∧ (∀ j, j < 20 →
        Becomes s (.wideEntryLowWrite t (BitVec.ofNat 9 (0x040 + 16 * j)) v) (upd fun x => { x with staged := Sparse.set 0 x.staged (0x040 + 16 * j) v })
        ∧ (let low := Sparse.get 0 x.staged (0x040 + 16 * j)
           Becomes s (.wideEntryHighWrite t (BitVec.ofNat 9 (0x048 + 16 * j)) v) (upd fun x => if j < 4 then
             { x with ivec := Sparse.set Ivec.none x.ivec j ⟨low, BitVec.ofNat 32 n⟩ }
           else
             let w : Window := ⟨BitVec.ofNat 52 (low.toNat / 2 ^ 12), BitVec.ofNat 36 n, bitAt n 36, bitAt n 37, bitAt n 38⟩
             { x with win := Sparse.set Window.none x.win (j - 4) w })))
    ∧ (let sum := fun (f : Tenant → Nat) (w : Nat) =>
         s.tenants.foldl (fun a e => if e.1 ≠ t.toNat ∧ e.2.en = true then a + f e.2 else a) (if x.en = true then w else 0)
       Becomes s (.mpshareWrite t v) (if s.pkg.mpsize.toNat * 1024 < sum (fun y => y.mpshare.toNat) (n % 2 ^ 16) then s
         else (upd fun x => { x with mpshare := BitVec.ofNat 16 n }).resumeChildren t.toNat none)
       ∧ Becomes s (.slshareWrite t v) (if 16384 < n % 2 ^ 15 ∨ 16384 < sum (fun y => y.slshare.toNat) (n % 2 ^ 15) then s
         else upd fun x => { x with slshare := BitVec.ofNat 15 n }))
    ∧ (let fits := fun (b z : Nat) => (b + z) * 2 ^ 30 ≤ s.hbmBytes ∧ ¬ (0 < z ∧ b * 2 ^ 30 < s.hbmBytes ∧ s.reservedBase < (b + z) * 2 ^ 30)
       Becomes s (.poolBaseWrite true v) (if s.views = [] ∧ fits s.pkg.mpbase.toNat (n % 2 ^ 10) then
           { s with pkg := { s.pkg with mpsize := BitVec.ofNat 10 n } } else s)
       ∧ Becomes s (.poolBaseWrite false v) (if s.views = [] ∧ fits (bitsAt n 30 10) s.pkg.mpsize.toNat then
           { s with pkg := { s.pkg with mpbase := BitVec.ofNat 10 (bitsAt n 30 10) } } else s))
    ∧ Becomes s (.imaskWrite t v) ([0, 1, 2, 3].foldl (fun y i =>
        if onBit x.imask i = true ∧ bitAt n i = false ∧ onBit x.ipend i = true then y.raiseVector t.toNat i else y)
        (upd fun x => { x with imask := BitVec.ofNat 4 n }))
    ∧ (∀ w : Nat, let e := Sparse.get Ivec.none x.ivec w
        s.raiseVector t.toNat w = if onBit x.imask w = true ∨ e.addr = 0 then upd fun x => { x with ipend := setBit x.ipend w true }
          else s.putHost e.addr.toNat (natToBytes 4 e.data.toNat))
    ∧ (∀ (off : BitVec 53) (m : BitVec 7) (xl : Xl), off.toNat % 64 + m.toNat ≤ 64 → 0 < m.toNat → s.xlate ownSite t.toNat off.toNat .rd = .ok xl →
        xl.leaf.kind = PageKind.local → xl.leaf.domain = 2 → s.lostHome xl.home m.toNat = none →
        let s₁ := (s.fillTlb ownSite t.toNat xl.leaf).flushAt xl.home m.toNat
        Becomes s (.hostApertureLoad t off m) { s₁ with hostReplies := s₁.hostReplies ++ [.data (s₁.readHome xl.home m.toNat)] })
    ∧ (∀ (off : BitVec 53) (bs : List Byte) (xl : Xl), off.toNat % 64 + bs.length ≤ 64 → bs ≠ [] → s.xlate ownSite t.toNat off.toNat .wr = .ok xl →
        xl.leaf.kind = PageKind.local → xl.leaf.domain = 2 → s.lostHome xl.home bs.length = none →
        let s₁ := ((s.fillTlb ownSite t.toNat xl.leaf).writeHome xl.home bs).releaseLines t.toNat off.toNat bs.length
        Becomes s (.hostApertureStore t off bs) { s₁ with hostReplies := s₁.hostReplies ++ [.done] })
    ∧ (∀ (off : BitVec 53) (m : BitVec 7) (bs : List Byte),
        let refused := { s with hostReplies := s.hostReplies ++ [.error] }
        (m ≠ 0 → (∀ xl, s.xlate ownSite t.toNat off.toNat .rd ≠ .ok xl ∨ xl.leaf.kind ≠ PageKind.local ∨ xl.leaf.domain ≠ 2) →
          Becomes s (.hostApertureLoad t off m) refused)
        ∧ (bs ≠ [] → (∀ xl, s.xlate ownSite t.toNat off.toNat .wr ≠ .ok xl ∨ xl.leaf.kind ≠ PageKind.local ∨ xl.leaf.domain ≠ 2) →
          Becomes s (.hostApertureStore t off bs) refused))
    ∧ (∀ (va : Dword) (acc : Access), let want := match acc with | .load | .engine | .queue => Want.rd | .store | .atomic => .wr | .fetch => .ex
        Becomes s (.tableWalk t va acc) (match s.xlate ownSite t.toNat va.toNat want with | .ok xl => s.fillTlb ownSite t.toNat xl.leaf | .error _ => s))
    ∧ (x.tlbBusy = true → Becomes s (.tlbinvAll t) s ∧ ∀ span vp, Becomes s (.tlbinvSpan t span vp) s)
    ∧ (x.tlbBusy = false →
        let inv := fun (lo size : Nat) (u : State) => u.tenant t.toNat = { x with tlbBusy := true, tlbSpan := (lo, size) }
          ∧ (∀ e, e ∈ u.tlb ↔ e ∈ s.tlb ∧ (e.tenant ≠ t.toNat ∨ e.leaf.base + e.leaf.size ≤ lo ∨ lo + size ≤ e.leaf.base))
          ∧ (∀ p, p ∈ u.tlbPtrs ↔ p ∈ s.tlbPtrs ∧ (p.tenant ≠ t.toNat ∨ p.base + p.size ≤ lo ∨ lo + size ≤ p.base))
          ∧ { u with tlb := s.tlb, tlbPtrs := s.tlbPtrs, tenants := s.tenants } = s
        Sparse.wf Tenant.reset s.tenants = true → Reaches s (.tlbinvAll t) (inv 0 (2 ^ 53))
        ∧ ∀ (span : BitVec 5) (vp : BitVec 36), Reaches s (.tlbinvSpan t span vp)
            (if span.toNat < 19 then
              let size := 2 ^ (span.toNat + 17)
              inv (vp.toNat * 2 ^ 17 / size * size) size
            else inv 0 (2 ^ 53)))
    ∧ (let lo := x.tlbSpan.1
       let size := x.tlbSpan.2
       (s.cores = [] → Becomes s (.tlbinvComplete t)
         (if s.translatedOpen t.toNat lo size = true then s else upd fun x => { x with tlbBusy := false }))
       ∧ (Sparse.wf Core.reset s.cores = true → Reaches s (.tlbinvComplete t) fun u => ∀ c, ∀ e ∈ (u.core c).cache,
           e.tenant = t.toNat → lo ≤ e.sector * 64 → e.sector * 64 < lo + size → e.dirty = 0))

/-! ## Queues, launches and the fault queue -/

/-- R68 to R71, R82, R89 and R93: control words, NOTIFY, the reading of launch records, counters, and the suspension of
queues. -/
def Obligations.QueueControlAndRecords : Prop :=
  ∀ (s : State) (t : BitVec 6) (q : BitVec 4) (v : Dword),
    let n := v.toNat
    let x := s.queue t.toNat q.toNat
    let upd := fun (y : State) => y.updQueue t.toNat q.toNat
    let words := fun (bs : List Byte) => ((List.range 16).map fun j => BitVec.ofNat 64 (bytesToNat ((bs.drop (8 * j)).take 8)) : List Dword)
    (let ok := 4 ≤ bitsAt n 8 5 ∧ bitsAt n 8 5 ≤ 16 ∧ bitsAt n 6 2 ≠ 3
     let off := fun (y : State) =>
       let z := y.queue t.toNat q.toNat
       let va := z.qbase.toNat + 128 * (z.qhead.toNat % 2 ^ z.log2size.toNat)
       let ws := match y.readRoot t.toNat va 128 with | .ok bs => words bs | .error _ => []
       upd (y.forgetRecord t.toNat va ws) fun z => { z with waiting := [], qhead := z.qtail, en := false }
     let set := upd s fun z => { z with
       prio := BitVec.ofNat 3 (bitsAt n 1 3), dl := BitVec.ofNat 2 (bitsAt n 4 2), trace := BitVec.ofNat 2 (bitsAt n 6 2)
       log2size := BitVec.ofNat 5 (bitsAt n 8 5), quota := BitVec.ofNat 32 (bitsAt n 32 32) }
     (¬ ok → Becomes s (.queueControlWrite t q v) (if bitAt n 0 then s else off s))
     ∧ (ok → x.en = true → Becomes s (.queueControlWrite t q v) (if bitAt n 0 then s else off s))
     ∧ (ok → x.en = false → s.queueIdle t.toNat q.toNat = false → bitAt n 0 = false → Becomes s (.queueControlWrite t q v) (off s))
     ∧ (ok → x.en = false → s.queueIdle t.toNat q.toNat = false → bitAt n 0 = true → x.trace ≠ 1 → Sparse.wf Tenant.reset s.tenants = true →
         Sparse.wf Queue.reset (s.tenant t.toNat).queues = true →
         Becomes s (.queueControlWrite t q v) (upd s fun z => { z with
           en := true, launchSeq := 0, taskSeq := 0, prior := z.lastStarted, epoch := s.nextUid }))
     ∧ (ok → x.en = false → s.queueIdle t.toNat q.toNat = true → bitAt n 0 = false → Becomes s (.queueControlWrite t q v) (off set))
     ∧ (ok → x.en = false → s.queueIdle t.toNat q.toNat = true → bitAt n 0 = true → bitsAt n 6 2 ≠ 1 →
         Sparse.wf Tenant.reset s.tenants = true → Sparse.wf Queue.reset (s.tenant t.toNat).queues = true →
         Becomes s (.queueControlWrite t q v) (upd set fun z => { z with
           en := true, launchSeq := 0, taskSeq := 0, prior := z.lastStarted, epoch := s.nextUid })))
    ∧ (let u := bitsAt n 32 4
       let y := s.queue t.toNat u
       let tail : Word := BitVec.ofNat 32 n
       let good := y.en = true ∧ (tail - y.qhead).toNat ≤ 2 ^ y.log2size.toNat ∧ (tail - y.qtail).toNat ≤ (tail - y.qhead).toNat ∧ s.switching = false
       ((s.tenant t.toNat).en = false → Becomes s (.notify t v) s)
       ∧ ((s.tenant t.toNat).en = true → good → Becomes s (.notify t v) (s.updQueue t.toNat u fun z => { z with qtail := tail }))
       ∧ ((s.tenant t.toNat).en = true → ¬ good → Becomes s (.notify t v) ((s.updQueue t.toNat u fun z => { z with ovr := true }).raiseVector t.toNat 3)))
    ∧ (∀ k : BitVec 3, Becomes s (.qtlWrite t q k v) (upd s fun z => { z with qtl := Sparse.set 0 z.qtl k.toNat v }))
    ∧ ((s.tenant t.toNat).en = true → x.en = true → onBit (s.tenant t.toNat).qsusp q.toNat = false → s.switching = false → s.e0Lost = false →
        x.stop = false → x.qhead ≠ x.qtail →
        let va := x.qbase.toNat + 128 * (x.qhead.toNat % 2 ^ x.log2size.toNat)
        (∀ a e, s.readRoot t.toNat va 128 = .error (a, e) → e ≠ notYet → Becomes s (.launchRecordRead t q)
          (((upd (s.forgetRoot t.toNat va 128) fun z => { z with stop := true }).queueFault t.toNat q.toNat e a 0).raiseVector t.toNat 3))
        -- what lies on another device is asked for, and the record is read again once it has come
        ∧ (∀ a, s.readRoot t.toNat va 128 = .error (a, notYet) → Becomes s (.launchRecordRead t q) (s.askRoot t.toNat va 128))
        ∧ ∀ bs, s.readRoot t.toNat va 128 = .ok bs →
          let ws := words bs
          (∀ st a, s.validate t.toNat ws = .error (st, some (a, notYet)) →
            Becomes s (.launchRecordRead t q) ((s.askRoot t.toNat (ws.getD 0 0).toNat 64).askRoot t.toNat (ws.getD 3 0).toNat
              (bitsAt (ws.getD 2 0).toNat 32 32)))
          ∧ ((∀ st a, s.validate t.toNat ws ≠ .error (st, some (a, notYet))) →
            let s₁ := upd (s.activeCores.foldl (fun y c => y.acquireCore c) s) fun z => { z with
              qhead := z.qhead + 1, launchSeq := z.launchSeq + 1 }
            let s₂ := s₁.forgetRecord t.toNat va ws
            let gid : Dword := BitVec.ofNat 64 (t.toNat * 2 ^ 58 + q.toNat * 2 ^ 54 + x.launchSeq % 2 ^ 43)
            (∀ k, s₁.validate t.toNat ws = .ok k → Becomes s (.launchRecordRead t q)
              (upd s₂ fun z => { z with waiting := z.waiting ++ [⟨va, x.launchSeq, ws, k⟩] }))
            ∧ (∀ st, s₁.validate t.toNat ws = .error (st, none) → Becomes s (.launchRecordRead t q)
              (s₂.refuseLaunch t.toNat q.toNat gid (recordInfo va ws) st))
            ∧ ∀ st a e, s₁.validate t.toNat ws = .error (st, some (a, e)) → Becomes s (.launchRecordRead t q)
              ((s₂.queueFault t.toNat q.toNat e a gid).refuseLaunch t.toNat q.toNat gid (recordInfo va ws) st)))
    ∧ (∀ ws : List Dword, ws.length = 16 → recordBad ws = true → s.validate t.toNat ws = .error (1, none))
    ∧ (s.grids = [] → Sparse.wf Tenant.reset s.tenants = true → Reaches s (.qsuspWrite t v) fun u =>
          (u.tenant t.toNat).qsusp = v.setWidth 16 ∧ (u.tenant t.toNat).qsaved = v.setWidth 16)

/-- R71, R73, R75, R90 and R225: the start and the end of a launch, the registers of the fault queue, RESUME and KILL. -/
def Obligations.LaunchesAndFaultQueue : Prop :=
  ∀ (s : State) (t : BitVec 6) (q : BitVec 4) (v : Dword),
    let fq := fun (f : FaultQueue → FaultQueue) => (s.updTenant t.toNat fun x => { x with fq := f x.fq }).retryRecords t.toNat
    let x := s.queue t.toNat q.toNat
    (∀ r, s.startable t.toNat q.toNat = some r →
      let s₁ := s.updQueue t.toNat q.toNat fun z => { z with waiting := z.waiting.drop 1 }
      let id := s.nextUid + 1
      let dims := (bitsAt (r.words.getD 1 0).toNat 0 32) * (bitsAt (r.words.getD 1 0).toNat 32 16) * (bitsAt (r.words.getD 1 0).toNat 48 16)
      let gid : Dword := BitVec.ofNat 64 (t.toNat * 2 ^ 58 + q.toNat * 2 ^ 54 + r.seq % 2 ^ 43)
      let starts := fun (y : State) (trace : Option (List (Nat × Nat))) => Reaches s (.launchStart t q) fun u =>
        let y' := if recordAcq r.words then y.activeCores.foldl (fun z c => z.acquireCore c) y else y
        { u with grids := y'.grids, nextUid := s.nextUid } = y'.updQueue t.toNat q.toNat (fun z => { z with lastStarted := id })
        ∧ u.nextUid = id ∧ (∀ n, n ≠ id → u.grid? n = s.grid? n)
        ∧ ∃ g, u.grid? id = some g ∧ g.tenant = t.toNat ∧ g.queue = q.toNat ∧ g.seq = r.seq ∧ g.dl = x.dl ∧ g.prio = x.prio
          ∧ g.quota = (if x.quota = 0 then 4096 else x.quota.toNat) ∧ g.kernel = r.kernel ∧ g.task = none ∧ g.total = dims
          ∧ g.nextBlock = 0 ∧ g.finished = 0 ∧ g.trace = trace ∧ g.gid = gid
          ∧ g.pendingEvents = (if x.dl = 1 ∧ x.trace ≠ 2 then [(0x07, 0)] else [])
      -- a trace that is recorded: how much its buffer holds is read first
      (x.trace = 1 → x.traceFailed = false → readWaits (s.traceRoom t.toNat q.toNat) = true →
        Becomes s (.launchStart t q) (s.askRoot t.toNat (x.traceAddr.toNat + 8) 4))
      ∧ (x.trace ≠ 2 → (x.trace = 1 → x.traceFailed = true ∨ readWaits (s.traceRoom t.toNat q.toNat) = false) → starts s₁ none)
      -- replay: the entries of this launch are read and tested first
      ∧ (x.trace = 2 →
        let found := s.traceEntries t.toNat q.toNat r.seq
        let s₂ := (s₁.forgetRoot t.toNat x.traceAddr.toNat 0x40).forgetRoot t.toNat (x.traceAddr.toNat + 0x40)
          (match s₁.readRoot t.toNat x.traceAddr.toNat 0x40 with | .ok h => 8 * bytesToNat ((h.drop 12).take 4) | .error _ => 0)
        let refused := fun (y : State) => y.refuseLaunch t.toNat q.toNat gid (recordInfo r.va r.words) 5
        (readWaits found = true → Becomes s (.launchStart t q) (s.askTrace t.toNat q.toNat))
        ∧ (∀ a e, found = .error (a, e) → e ≠ notYet → Becomes s (.launchStart t q) (refused (s₂.queueFault t.toNat q.toNat e a gid)))
        ∧ (found = .ok none → Becomes s (.launchStart t q) (refused s₂))
        ∧ ∀ es, found = .ok (some es) →
          if s₂.traceFits t.toNat dims r.kernel.cluster es = true then starts s₂ (some es) else Becomes s (.launchStart t q) (refused s₂)))
    ∧ (∀ r, s.startable t.toNat q.toNat = some r ↔ ∃ rest, x.waiting = r :: rest ∧ s.queueRuns t.toNat q.toNat = true
        ∧ (∀ w ∈ recordWaits r.words, w.2.2.toNat ≤ (Sparse.get 0 (s.queue t.toNat w.1).qtl w.2.1).toNat)
        ∧ ((recordConc r.words = true ∧ x.dl = 0) ∨ s.reporting t.toNat q.toNat = false ∧ ((r.seq = 0 ∧ s.grid? x.prior = none)
          ∨ (r.seq ≠ 0 ∧ ∀ e ∈ s.launchesOf t.toNat q.toNat, e.1 ≤ x.epoch ∨ e.2.seq + 1 ≠ r.seq))))
    ∧ (∀ (n : Nat) (g : Grid) (r : LaunchInfo), s.grid? n = some g → g.launch = some r → s.launchIdle n g = true →
        let x := s.endRelease n 5 g
        let s₁ := if g.traced then x.1 else x.1.traceLaunch g.tenant g.queue g.gid
        (x.2 = true → x.1.hostOpen g.tenant = false)
        ∧ Becomes s (.launchComplete n) (if x.2 = false then x.1 else ((((s₁.reportLaunch g.tenant g.queue g.gid r (if g.killed then 4 else 0) g.dcsum).forgetGrid n g).freeArrived
          g.tenant).settleQsaved g.tenant)))
    -- STATUS and DONE, then the counter that SIGV names and the interrupt that IRQ asks for
    ∧ (∀ (a : Nat) (gid dc : Dword) (r : LaunchInfo) (st : Nat),
        let u := s.updQueue t.toNat a fun z => { z with dcsum := dc }
        let at_ := r.recVa + 0x78
        let signal := fun (y : State) =>
          let z := if r.sigv = true then y.updQueue t.toNat a fun z =>
            let old := Sparse.get 0 z.qtl r.sigctr
            { z with qtl := Sparse.set 0 z.qtl r.sigctr (if old.toNat < r.sigval.toNat then r.sigval else old) } else y
          if r.irq = true then z.raiseVector t.toNat 0 else z
        let written := u.writeRoot t.toNat at_ (natToBytes 8 (st + 2 ^ 8)) (.status a gid r)
        (∀ s₁, written = .ok (s₁, false) → s.reportLaunch t.toNat a gid r st dc = signal (s₁.releaseLines t.toNat at_ 8))
        ∧ (∀ va e, written = .error (va, e) → s.reportLaunch t.toNat a gid r st dc = signal (u.queueFault t.toNat a e at_ gid))
        ∧ (∀ s₁, written = .ok (s₁, true) → s.reportLaunch t.toNat a gid r st dc = s₁)
        ∧ s.statusWritten t.toNat a gid r none = signal (s.releaseLines t.toNat at_ 8)
        ∧ ∀ e, s.statusWritten t.toNat a gid r (some e) = signal (s.queueFault t.toNat a e at_ gid))
    ∧ Becomes s (.fqbaseWrite t v) (fq fun f => { f with base := BitVec.ofNat 53 (bitsAt v.toNat 6 47 * 64) })
    ∧ Becomes s (.fqControlWrite t v)
        (let n := bitsAt v.toNat 1 5
         if 4 ≤ n ∧ n ≤ 16 then fq fun f => { f with en := bitAt v.toNat 0, log2 := BitVec.ofNat 5 n }
         else if bitAt v.toNat 0 then s.retryRecords t.toNat else fq fun f => { f with en := false })
    ∧ Becomes s (.fqheadWrite t v) (fq fun f => { f with head := BitVec.ofNat 32 v.toNat })
    -- one attempt to write a record, and the attempts of those that are held, in their order
    ∧ (∀ (r : FaultRec) (f : FaultQueue), (s.tenant t.toNat).fq = f →
        let at_ := f.base.toNat + 64 * (f.tail.toNat % 2 ^ f.log2.toNat)
        let may := f.en = true ∧ (f.tail - f.head).toNat < 2 ^ f.log2.toNat ∧ ∀ x ∈ s.fabric.remotes, ¬ (x.tenant = t.toNat ∧ x.what = .record)
        let written := s.writeRoot t.toNat at_ r.bytes .record
        (¬ may → s.writeRecord t.toNat r = .kept)
        ∧ (may → (∀ e, written = .error e → s.writeRecord t.toNat r = .kept)
          ∧ (∀ s₁, written = .ok (s₁, true) → s.writeRecord t.toNat r = .sent s₁)
          ∧ ∀ s₁, written = .ok (s₁, false) → s.writeRecord t.toNat r = .written (((s₁.signLines t.toNat at_ 64).updTenant t.toNat fun x =>
              { x with fq := { x.fq with tail := x.fq.tail + 1, opened := x.fq.opened.map fun o =>
                if o.record.seq = r.seq then { o with written := true } else o } }).raiseRecord t.toNat r))
        ∧ (s.irqHolder r = none → s.raiseRecord t.toNat r = s.raiseVector t.toNat 1)
        ∧ ∀ b k w rest, s.irqHolder r = some (b, k) → k.specs = w :: rest → s.raiseRecord t.toNat r =
            if w.outbox.length < 256 then s.setBlock b { k with specs := { w with outbox := w.outbox ++ [.interrupt r.thread.toNat] } :: rest }
            else s.raiseVector t.toNat 1)
    ∧ (∀ n, (s.tenant t.toNat).fq.held = [] → s.retryHeld t.toNat n = s)
    ∧ (∀ n h r rest, (s.tenant t.toNat).fq.held = (h, r) :: rest →
        let r' := { r with count := s.recordCount t.toNat r }
        (s.writeRecord t.toNat r' = .kept → s.retryHeld t.toNat (n + 1) = s)
        ∧ (∀ u, s.writeRecord t.toNat r' = .sent u → s.retryHeld t.toNat (n + 1) = u)
        ∧ ∀ u, s.writeRecord t.toNat r' = .written u → s.retryHeld t.toNat (n + 1) =
          (u.updTenant t.toNat fun x => { x with fq := { x.fq with held := rest } }).retryHeld t.toNat n)
    ∧ (∀ (o : OpenRec) (seq : BitVec 62), (s.tenant t.toNat).fq.opened.find? (fun o => o.record.seq == seq.toNat) = some o →
        o.record.code ≠ BitVec.ofNat 8 cVIEWPOOL → (s.blocks.map (·.1)).Nodup → Sparse.wf Tenant.reset s.tenants = true → Reaches s (.resume t seq) fun u =>
          (u.tenant t.toNat).fq.opened = (s.tenant t.toNat).fq.opened.filter (fun p => decide (p.record.seq ≠ seq.toNat)) ∧ u.mem = s.mem
          ∧ ∀ b k, s.block? b = some k → ∃ k', u.block? b = some k' ∧ ∀ tid, Thread.maybeStopped (s.gridOf b)
              (if (b, tid) ∈ o.threads ∧ (k.thread tid).status = .suspended seq.toNat then { k.thread tid with status := .running }
                else k.thread tid) (k'.thread tid))
    ∧ (s.launchesOf t.toNat q.toNat = [] → Becomes s (.kill t q) s)
    ∧ (∀ (n : Nat) (g : Grid), s.launchesOf t.toNat q.toNat = [(n, g)] → s.grids = [(n, g)] → g.task = none → (s.tenant t.toNat).sluice = [] →
        s.foreign = [] → Reaches s (.kill t q) fun u =>
          (∃ g', u.grid? n = some g' ∧ g'.killed = true ∧ g'.total = g.nextBlock ∧ g'.effects = [] ∧ g'.heldRed = [])
          ∧ ∀ b k, u.block? b = some k → k.grid = n → ∀ tid, tid < k.T → (k.thread tid).status = .exited)

/-! ## Scheduling -/

/-- R76, R79, R81, R93, R98, R137 and R139: what the dispatcher chooses, where a block may stand, how a block of a launch and
a child of a fork start, and what pre-emption for priority takes. -/
def Obligations.DispatchAndPreemption : Prop :=
  (∀ (s : State) (c : Cand), s.nextPlacement = some c →
     let all := s.grids.flatMap fun e => s.candsOf e.1 e.2
     c ∈ all ∧ s.e0Lost = false
     ∧ ∀ x ∈ all, x.prio ≤ c.prio ∧ (x.prio = c.prio → (x.fresh = false → c.fresh = false)
         ∧ (x.fresh = c.fresh → c.rr ≤ x.rr ∧ (x.rr = c.rr → c.order ≤ x.order))))
  ∧ (∀ (s : State) (c : Nat) (n : Need) (r m : Nat), s.spot c n = some (r, m) →
     let sum := fun (f : Need → Nat) => ((s.residents c).map fun e => f (s.needOf e.2)).sum
     sum (·.threads) + n.threads ≤ 2048 ∧ sum (·.bars) + n.bars ≤ 128 ∧ r + n.regs ≤ 65536 ∧ m + n.scratch ≤ 393216
     ∧ ∀ e ∈ s.residents c, (n.regs = 0 ∨ r + n.regs ≤ e.2.regBase ∨ e.2.regBase + (s.needOf e.2).regs ≤ r)
         ∧ (n.scratch = 0 ∨ m + n.scratch ≤ e.2.scratchBase ∨ e.2.scratchBase + (s.needOf e.2).scratch ≤ m))
  ∧ (∀ (s : State) (n : Nat) (g : Grid), ∀ x ∈ s.candsOf n g, ∀ ids, x.place = .roots ids → ∀ cs ∈ x.options, ∀ d ∈ cs,
     (s.spot d (g.kernel.need false)).isSome)
  ∧ (∀ (s : State) (c : Cand) (g : Grid) (d : Nat), s.nextPlacement = some c → s.grid? c.grid = some g →
     c.options.getD (s.choose c.options.length) [] = [d] →
     let b := s.nextUid + 2
     let started := fun (pc : Dword) (regs : List Word) => List.replicate g.kernel.threads (({ Thread.start with pc := pc }).setGroup 0 regs)
     (∀ id, c.place = .roots [id] → g.task = none → (s.spot d (g.kernel.need false)).isSome →
       Reaches s .dispatchStep fun t => (∀ x, x ≠ b → t.block? x = s.block? x)
         ∧ (∃ g', t.grid? c.grid = some g' ∧ g'.nextBlock = g.nextBlock + 1)
         ∧ ∃ k, t.block? b = some k ∧ k.grid = c.grid ∧ k.tenant = g.tenant ∧ k.core = d ∧ k.path = [id] ∧ k.bid = BitVec.ofNat 32 id
           ∧ k.parent = none ∧ k.vtag = 0 ∧ k.state = .running ∧ k.scratch = [] ∧ k.tl = [] ∧ k.bto = 0x04000000 ∧ k.sto = 0x04000000
           ∧ k.threads = started (g.kernel.addr + g.kernel.entry.setWidth 64) (match g.launch with
               | some r => natToWords 2 r.paddr.toNat ++ [r.psize]
               | none => [0, 0, 0]))
     ∧ (∀ p kp f, c.place = .child p → s.block? p = some kp → kp.fork = some f → p ≤ s.nextUid → (s.spot d (g.kernel.need true)).isSome →
       Reaches s .dispatchStep fun t => (∀ x, x ≠ b → x ≠ p → t.block? x = s.block? x)
         ∧ t.block? p = some { kp with fork := some { f with next := f.next + 1 } }
         ∧ ∃ k, t.block? b = some k ∧ k.grid = c.grid ∧ k.tenant = g.tenant ∧ k.core = d ∧ k.path = kp.path ++ [f.next]
           ∧ k.child = BitVec.ofNat 32 f.next ∧ k.parent = some p ∧ k.vtag = f.vtag0 + f.next ∧ k.state = .running
           ∧ k.threads = started f.entry f.args))
  ∧ (∀ (s : State) (n : Nat) (g : Grid) (v : Nat) (x : Grid), s.preemption = some (n, g, v, x) →
     s.pkg.pen = true ∧ s.e0Lost = false ∧ (n, g) ∈ s.grids ∧ (v, x) ∈ s.grids ∧ x.prio.toNat < g.prio.toNat
     ∧ g.waitingSince + s.pkg.pdelay.toNat ≤ s.placeTime ∧ s.placementWaits n g = true ∧ (s.tenant x.tenant).savesize ≠ 0
     -- the lowest priority, then the youngest, of the grids that it could take; itself the highest, then the oldest
     ∧ (let may := fun (e : Nat × Grid) => e ∈ s.grids ∧ e.2.prio.toNat < g.prio.toNat ∧ e.2.preempt = false ∧ e.2.ended = false
          ∧ (∃ b ∈ s.liveBlocks e.1, b.2.state ≠ .saving ∧ b.2.core ∈ s.wanted n g)
          ∧ s.saveFits e.2.tenant (s.victimBlocks n g e.1 e.2) = true
        may (v, x) ∧ ∀ e, may e → x.prio.toNat ≤ e.2.prio.toNat ∧ (x.prio = e.2.prio → e.2.order ≤ x.order))
     ∧ (∀ e ∈ s.grids, e.2.waitingSince + s.pkg.pdelay.toNat ≤ s.placeTime → s.placementWaits e.1 e.2 = true →
         (s.vacated []).placementWaits e.1 e.2 = true → s.victims e.1 e.2 ≠ [] →
         e.2.prio.toNat ≤ g.prio.toNat ∧ (e.2.prio = g.prio → g.order ≤ e.2.order))
     ∧ (x.dl ≠ 0 → s.grid? n = some g → s.grid? v = some x → Reaches s .priorityPreempt fun t => t.blocks = s.blocks
         ∧ t.grid? n = some { g with waitingSince := s.placeTime } ∧ t.grid? v = some { x with preempt := true })
     ∧ (x.dl = 0 → (s.blocks.map (·.1)).Nodup → Reaches s .priorityPreempt fun t =>
         (∀ b k, s.block? b = some k → t.block? b = some k
           ∨ (t.block? b = some { k with state := .saving } ∧ ∃ e ∈ s.liveBlocks v, e.2.core ∈ s.wanted n g ∧ b ∈ s.membersOf e.2 e.1))
         ∧ ∃ b k, s.block? b = some k ∧ k.grid = v ∧ k.state ≠ .saving ∧ t.block? b = some { k with state := .saving }))

/-- R94, R229 and R231: a block that has drained is written to the save area and leaves its core, one that the area does
not hold goes on, and a saved block that is placed again has its registers, its scratchpad and its threads back. -/
def Obligations.SavingAndRestoring : Prop :=
  (∀ (s : State) (b : Nat) (k : Block) (g : Grid), s.block? b = some k → s.grid? k.grid = some g → s.saveReady b k = true →
     (g.dl = 0 ∨ g.preempt = true) → Memory.wf s.mem = true →
     -- first its core's bytes for other devices go out, and the lost replies that its threads meet are taken
     (s.dirtyFar k.core k.tenant = true → Becomes s (.blockSave b) (s.flushCore k.core))
     ∧ (s.dirtyFar k.core k.tenant = false → s.takeReplies b k ≠ s → Becomes s (.blockSave b) (s.takeReplies b k))
     ∧ (s.dirtyFar k.core k.tenant = false → s.takeReplies b k = s →
     let regs := registerPart g.kernel k
     let len := 4 * g.kernel.totalCharge + roundUp g.kernel.scratch 256 + 16384 + 65536 * k.tiles.length
     (∀ addr, s.saveFits k.tenant [b] = true → s.imageBase k.tenant len = some addr → Reaches s (.blockSave b) fun t =>
        t.readPhys addr regs.length = regs
        ∧ t.readPhys (addr + regs.length) (roundUp g.kernel.scratch 256) = Memory.read k.scratch 0 (roundUp g.kernel.scratch 256)
        ∧ ∃ k' i, t.block? b = some k' ∧ k'.state = .saved ∧ k'.image = some i ∧ i.addr = addr ∧ i.core = k.core
          ∧ crc32c (t.readPhys i.addr i.len) = i.crc ∧ k'.tl = k.tl ∧ k'.fork = k.fork ∧ ((∀ x ∈ (s.core k.core).cache, x.dirty = 0) → k'.specs = k.specs)
          ∧ ∀ tid, k'.thread tid = { k.thread tid with fpsr := (k'.thread tid).fpsr })
     ∧ (s.saveFits k.tenant [b] = false → Reaches s (.blockSave b) fun t => t.mem = s.mem
          ∧ t.grid? k.grid = some { g with preempt := false }
          ∧ (g.dl = 0 → k.lackSince = none → ∃ k', t.block? b = some k' ∧ k'.state = .running))))
  ∧ (∀ (s : State) (b d : Nat) (c : Cand) (g : Grid) (k : Block) (i : Image), s.nextPlacement = some c → c.place = .restore [b] →
     s.grid? c.grid = some g → c.options.getD (s.choose c.options.length) [] = [d] → s.block? b = some k → k.image = some i →
     s.imageOk i = true → (s.seat (g.dl != 0) b d).isSome → (∀ tid, (k.thread tid).status ≠ .noSlot) →
     let bytes := s.readPhys i.addr i.len
     Reaches s (.blockRestore b) fun t => ∃ k', t.block? b = some k' ∧ k'.core = d ∧ (k.lackSince = none → k'.state = .running) ∧ k'.image = none
       ∧ k'.path = k.path ∧ k'.tl = k.tl ∧ k'.fork = k.fork ∧ k'.specs = k.specs
       ∧ k'.threads = (loadRegisters g.kernel 0 k.threads (bytesToWords (bytes.take (4 * g.kernel.totalCharge)))).map (Thread.moved i.core d)
       ∧ k'.scratch = Memory.write [] 0 ((bytes.drop (4 * g.kernel.totalCharge)).take (roundUp g.kernel.scratch 256)))
  ∧ (∀ (n : Kernel) (k : Block) (rest : List Word),
     let back := loadRegisters n 0 k.threads (bytesToWords (registerPart n k) ++ rest)
     back.length = k.threads.length
     ∧ ∀ tid, tid < k.threads.length → ∃ th, back[tid]? = some th ∧ th = { k.thread tid with regs := th.regs }
       ∧ (∀ r, r < n.charge tid → th.reg r = (k.thread tid).reg r) ∧ (∀ r, n.charge tid ≤ r → th.reg r = 0))

/-- R84, R86 to R88 and R118: a round of the Governor, the order of a turn's effects, the boundary of a turn in which every
thread has stopped at its quota or exited, and the record of a deadlock of the view pool. -/
def Obligations.GovernorTurnsAndPool : Prop :=
  (∀ (s : State) (c : Nat), s.roundDue c = true → s.issue = none → Sparse.wf Core.reset s.cores = true →
     Reaches s (.governorRound c) fun t => (t.core c).round = (s.core c).round + 1
       ∧ (∀ u ∈ (t.core c).bundles, t.dl0 u.block = false → t.runnable c u.id = true → u.id ∈ (t.core c).rotation)
       ∧ (∀ id ∈ (t.core c).rotation, ∃ u ∈ (t.core c).bundles, u.id = id ∧ ((t.dl0 u.block = false ∧ t.runnable c id = true) ∨ u.paused.isSome))
       ∧ t.mem = s.mem ∧ ((∀ r ∈ (s.core c).bolts, s.dl0 r.block = true) →
           ∀ b k, s.block? b = some k → ∃ k', t.block? b = some k' ∧ k' = { k with quads := k'.quads }))
  ∧ (∀ es : List Effect, (sortBy Effect.before es).Perm es
     ∧ (sortBy Effect.before es).Pairwise fun a b => a.core < b.core ∨ (a.core = b.core ∧ (pathLt a.path b.path = true
         ∨ (pathLt b.path a.path = false ∧ (a.tid < b.tid ∨ (a.tid = b.tid ∧ a.seq ≤ b.seq))))))
  ∧ (∀ (s : State) (n : Nat) (g : Grid), s.grid? n = some g → s.turnReady n g = true → g.stalledFrom = none → g.preempt = false →
     g.effects = [] → g.accesses = [] → g.pendingEvents = [] → s.fabric.arrived = [] → (∀ c, (s.core c).reds = []) → (s.blocks.map (·.1)).Nodup →
     (∀ b k, s.block? b = some k → k.grid = n → k.state = .running ∧ k.parent = none ∧ k.fork = none ∧ k.specs = [] ∧ k.bars = []
       ∧ k.specBar = Barrier.empty ∧ k.specendBar = Barrier.empty ∧ k.specSlot = none ∧ k.granted = none ∧ k.rwaits = [] ∧ k.quads.all (fun e => e.2.tag == 0) = true ∧ (s.cluster k.cluster).cbars = []
       ∧ k.settleTimelines = k ∧ ∀ th ∈ k.threads, th.status = .quota ∨ th.status = .exited) →
     Reaches s (.turnBoundary n) fun t => (∃ g', t.grid? n = some g' ∧ g'.turn = g.turn + 1 ∧ g'.published = g.published)
       ∧ ∀ b k, s.block? b = some k → k.grid = n → ∃ k', t.block? b = some k' ∧ k'.threads = k.threads.map fun th =>
           { th with turnRetired := 0, status := if th.status = .quota then .running else th.status })
  ∧ (∀ (s : State) (t : BitVec 6) (b : Nat) (k : Block) (f : Fork) (rest : List (Nat × Block × Fork)), s.poolDeadlock t.toNat = true →
     s.openForks t.toNat = (b, k, f) :: rest → Sparse.wf Tenant.reset s.tenants = true →
     Reaches s (.viewpoolDeadlock t) fun u => ((∀ e ∈ s.blocks, e.2.specs = []) → u.blocks = s.blocks) ∧ u.grids = s.grids
       ∧ ∃ o ∈ (u.tenant t.toNat).fq.opened, o.threads = [] ∧ o.record.seq = (s.tenant t.toNat).fq.nextSeq
         ∧ o.record.code = BitVec.ofNat 8 cVIEWPOOL ∧ o.record.cause = 1 ∧ o.record.block = k.bid ∧ o.record.thread = BitVec.ofNat 11 f.tid
         ∧ o.record.count = 0)

/-- R85, R141, R142, R146, R149, R156, R157 and R235: what passing an instruction leaves of its clause and of its lanes; when a
bundle's next clause begins, and when it does not; which bin the issue unit draws from, and the bundle drawn; the writing of a
result. -/
def Obligations.ClausesBundlesAndResults : Prop :=
  (∀ (s : State) (i : Issue) (k : Block) (n : Nat), Issuing s i k → Advanced s i k n (s.afterInstr n))
  ∧ (∀ (s : State) (core id : Nat), s.mayIssue core id = true →
     let s₁ := s.settleBundle core id none
     ∀ u k pc, s₁.bundle? core id = some u → s₁.block? u.block = some k → k.bundleKey u = some pc →
       let ls := k.activeLanes u pc
       s₁.held k u.block u ls = false → ∀ s₂ hdr ws, s₁.fetchClause u.block pc = .ok (s₂, hdr, ws) →
       let h := Header.ofWord hdr
       let ready := fun (tid : Nat) => (k.thread tid).keep = true ∨ ∀ f, f < 12 → onBit h.wait f = true → (k.thread tid).flag f = true
       let all := ls.map fun l => (⟨l.1, l.2, (k.thread l.2).keep || ((k.thread l.2).pred h.pred.toNat != h.pneg), max 1 (k.thread l.2).clpos⟩ : Lane)
       let x := clauseStart ((Cls.ofCode h.cls).getD .int) ws all
       (∀ u', s.bundle? core id = some u' → u'.paused = none) →
       (∀ l ∈ ls, (k.thread l.2).keep = true ∨ s₂.replyError u.block l.2 h.wait = none) →
       let again := h.reform = true ∧ u.fell = true ∧ ∀ l ∈ ls, (k.thread l.2).keep = false ∧ (k.thread l.2).clpos = 0
       (again → Becomes s (.clauseIssue core id) (s₂.reformBundle core u.id))
       ∧ (¬ again → ((∀ l ∈ ls, ready l.2) → s₂.unreadyPred u.block h ls = [] → Reaches s (.clauseIssue core id) fun t =>
          t.issue = some { core := core, bundle := id, block := u.block, pc := pc, hdr := hdr, words := ws, pos := x.2.1, longs := x.2.2
                           reform := false, lanes := x.1 }
          ∧ t.mem = s₂.mem ∧ t.pending = s₂.pending
          ∧ (ls ≠ [] → (∀ l ∈ ls, (k.thread l.2).clpos ≤ 1) → x = (all, 1, 0))
          ∧ ∀ l ∈ x.1, (k.thread l.tid).keep = false → (t.thread u.block l.tid).marks
              = (k.thread l.tid).marks.filter fun m => !(m.flag == 15 || (decide (m.flag < 12) && onBit h.wait m.flag)))
       ∧ ((∃ l ∈ ls, ¬ ready l.2) → s₂.dl0 u.block = false → Becomes s (.clauseIssue core id) s₂)))
  ∧ (∀ (s : State) (core id : Nat) (u : Bundle) (j : Issue), s.mayIssue core id = true → s.bundle? core id = some u → u.paused = some j →
     Sparse.wf Core.reset s.cores = true →
     Reaches s (.clauseIssue core id) fun t => t = { s with cores := t.cores, issue := some j } ∧ ∀ c, Core.same (s.core c) (t.core c))
  ∧ (∀ (s : State) (core bin : Nat), s.nextDraw core = some bin →
     let full := fun (m : Bin) => ∃ e ∈ s.waitingIn m,
       8 ≤ ((s.waitingIn m).filter fun x => x.block = e.block ∧ x.role = e.role ∧ x.pc = e.pc).length
     ∃ n ∈ (s.core core).bins, ∃ since, n.no = bin ∧ s.drawable n ≠ [] ∧ s.binSince n = some since
       ∧ (∀ m ∈ (s.core core).bins, (full n → full m) → ∀ x, s.binSince m = some x → since ≤ x)
       ∧ (full n ∨ (∀ m ∈ (s.core core).bins, ¬ full m)
           ∧ (since + 64 ≤ s.dieTime (core / 64) ∨ s.someIssues core = false)))
  ∧ (∀ (s : State) (core bin : Nat) (n : Bin) (e : BinEntry) (es : List BinEntry), s.nextDraw core = some bin → s.issue = none →
     (s.core core).bins.find? (fun n => n.no == bin) = some n → (s.drawable n).take 8 = e :: es → Sparse.wf Core.reset s.cores = true →
     let qs := (e :: es).map (·.quad)
     Reaches s (.bundleDraw core bin) fun t =>
       (∃ u ∈ (t.core core).bundles, u.id = s.nextUid + 1 ∧ u.block = e.block ∧ u.role = e.role ∧ u.fell = false
         ∧ u.slots = (List.range qs.length).zip qs)
       ∧ (∀ m ∈ (t.core core).bins, ∀ x ∈ m.entries, x.block = e.block → x.quad ∉ qs)
       ∧ t.mem = s.mem ∧ ∀ b k, s.block? b = some k → ∃ k', t.block? b = some k' ∧ k' = { k with quads := k'.quads })
  ∧ (∀ (s : State) (id : Nat) (p : PendOp) (k : Block), s.pending.find? (fun p => p.id == id) = some p → p.ready = true → p.error = none → s.writeDue p = true →
     s.block? p.block = some k → p.tid < k.T → (k.thread p.tid).exited = false →
     let th := k.thread p.tid
     Reaches s (.resultWriteback id) fun t => ∃ k', t.block? p.block = some k' ∧ t.pending = s.pending.filter (fun q => q.id != id)
       ∧ t.mem = s.mem ∧ (∀ b, b ≠ p.block → t.block? b = s.block? b) ∧ (∀ tid, tid ≠ p.tid → k'.thread tid = k.thread tid)
       ∧ (∀ r, (k'.thread p.tid).reg r = ((p.regs ++ p.ocm).foldl (fun x e => x.setReg e.1 e.2) th).reg r)
       ∧ (∀ r, (k'.thread p.tid).pred r = (p.preds.foldl (fun x e => x.setPred e.1 e.2) th).pred r)
       ∧ (k'.thread p.tid).fpsr = (th.raise p.fpflags).fpsr ∧ (k'.thread p.tid).pc = th.pc
       ∧ (∀ f, (k'.thread p.tid).flag f
           = if f = p.flag ∧ f ∉ th.owed ∧ ∀ q ∈ t.pending, ¬ (q.block = p.block ∧ q.tid = p.tid ∧ q.flag = f) then true else th.flag f))
  ∧ (∀ (s : State) (id : Nat) (p : PendOp), s.pending.find? (fun p => p.id == id) = some p → p.ready = false ∨ p.error ≠ none ∨ s.writeDue p = false →
     Becomes s (.resultWriteback id) s)

/-- R148, R152, R172, R123 and R257: the drain of a BOLT bin, the completion of a block and of a task, and the eviction of a
line. -/
def Obligations.DrainsCompletionsAndEviction : Prop :=
  (∀ (s : State) (core bin : Nat) (x : Nat × Dword × Word) (k : Block) (q : Nat) (qs : List Nat), (s.core core).boltKey bin = some x →
     s.boltDue core x = true → s.dl0 x.1 = true → s.issue = none → s.block? x.1 = some k → s.freeQuads x.1 k = q :: qs →
     let rs := (s.core core).boltsOf x
     (32 ≤ rs.length ∨ ∃ r ∈ rs.head?, ∃ g, s.gridOf x.1 = some g ∧ (if g.dl = 0 then 64 else 2) ≤ s.binTime g.dl core - r.since)
     ∧ (∀ j tid, (k.quadThreads j).length ≤ 4 ∧ (j ∈ q :: qs → tid ∈ k.quadThreads j → (k.thread tid).exited = true))
     ∧ Reaches s (.boltDrain core bin) fun t => ∃ k', t.block? x.1 = some k'
       ∧ (∀ p ∈ (k.quadThreads q).zip rs, k'.thread p.1
           = ({ Thread.start with pc := p.2.entry, retired := p.2.count, relaunch := (k.thread p.1).relaunch + 1 }).setGroup 0 p.2.payload
           ∧ (k'.thread p.1).status = .running)
       ∧ (∀ tid, (k.thread tid).exited = false → k'.thread tid = k.thread tid)
       ∧ t.mem = s.mem ∧ ∀ b, b ≠ x.1 → t.block? b = s.block? b)
  ∧ (∀ (s : State) (b : Nat) (k : Block) (g : Grid), s.block? b = some k → s.grid? k.grid = some g → g.ended = false →
     s.blockDone b = true → s.membersOf k b = [b] → Sparse.wf Core.reset s.cores = true →
     (∀ r ∈ (s.core k.core).reds, r.grid ≠ k.grid) →
     k.parent = none ∧ (∀ tid, (k.thread tid).exited = true) ∧ s.engines.all (fun e => e.block != b) = true
     ∧ Reaches s (.blockComplete b) fun t => t.block? b = none ∧ t.mem = s.mem
       ∧ ∃ g', t.grid? k.grid = some g' ∧ g'.finished = g.finished + 1)
  ∧ (∀ (s : State) (n : Nat) (g : Grid) (x : TaskInfo) (e : Sluice), s.grid? n = some g → s.taskDone n g = true → g.task = some x →
     g.ended = false → x.failed = false → (s.endRelease n (s.taskScope g.tenant) g).2 = true →
     hHome x.handle = s.fabric.devid → s.gone x.handle = false →
     s.sluice (hTenant x.handle) (hSlot x.handle) = e → e.st ≠ .ready → e.st ≠ .broken → e.ivos = [] → e.dropped = false →
     s.fabric.arrived = [] → Sparse.wf Tenant.reset s.tenants = true →
     Sparse.wf Sluice.reset (s.tenant (hTenant x.handle)).sluice = true →
     Reaches s (.taskComplete n) fun t => t.grid? n = none
       ∧ (t.sluice (hTenant x.handle) (hSlot x.handle)).st = .ready
       ∧ (t.sluice (hTenant x.handle) (hSlot x.handle)).result = x.result.getD (List.replicate 8 0))
  ∧ (∀ (s : State) (n : Nat) (g : Grid), s.grid? n = some g → s.taskDone n g = true → g.ended = false →
     (s.endRelease n (s.taskScope g.tenant) g).2 = false → Becomes s (.taskComplete n) (s.endRelease n (s.taskScope g.tenant) g).1)
  ∧ (∀ (s : State) (n : Nat) (g : Grid), s.grid? n = some g → s.taskDone n g = true → g.ended = true → s.fabric.arrived = [] →
     (g.task.map (·.failed)) = some true → Reaches s (.taskComplete n) fun t => t.grid? n = none)
  ∧ (∀ (s : State) (core j : Nat) (x : CacheSector), (s.core core).cache[j]? = some x → Sparse.wf Core.reset s.cores = true →
     Memory.wf s.mem = true →
     Reaches s (.lineEviction core j) fun t =>
       (x.dirty = 0 ∨ (∃ pa, x.home = .dev pa ∧ s.lostHome (.dev pa) 64 = none) → t.blocks = s.blocks
         ∧ (t.core core).cache = (s.core core).cache.eraseIdx j ∧ ∀ c, c ≠ core → t.core c = s.core c)
       ∧ (x.dirty = 0 → t.mem = s.mem ∧ t.hostMem = s.hostMem)
       ∧ (∀ d a o bs, x.home = .remote d a → x.dirty ≠ 0 → x.runs = [(o, bs)] →
           let w := x.writer.getD ⟨0, 0, 0⟩
           let r := (s.dropProxy x.tenant (x.sector * 64 + o) bs.length).request x.tenant 0x03 d 0 (a + o)
             (BitVec.ofNat 64 (bs.length * 2 ^ 16)) 0 (flitsOf bs) (.store w.block w.tid w.pc)
           r.2 = true → t.fabric = r.1.fabric ∧ t.mem = s.mem ∧ t.hostMem = s.hostMem ∧ t.blocks = s.blocks
             ∧ (t.core core).cache = (s.core core).cache.eraseIdx j)
       ∧ (∀ pa, x.home = .dev pa → x.bytes.length = 64 → s.lostHome (.dev pa) 64 = none → t.hostMem = s.hostMem ∧ ∀ a, Memory.byte t.mem a =
           if pa ≤ a ∧ a < pa + 64 ∧ onBit x.dirty (a - pa) = true then x.bytes.getD (a - pa) 0 else Memory.byte s.mem a))

/-! ## Views, speculation and timeouts -/

/-- R108 to R112: the merge of one granule, byte by byte where its page names no reduction and as a sum modulo 2^32 for an
INT32 addition, and the fault that ends a join. -/
def Obligations.MergeOfGranules : Prop :=
  (∀ (g first : Nat) (x₀ : Slot) (ss : List Slot) (p : List Byte), p.length = 128 →
     (∀ x ∈ x₀ :: ss, x.working.length = 128 ∧ x.twin.length = 128) →
     let m := mergeGranule g first (x₀ :: ss) p
     m.outside = ((x₀ :: ss).filter fun x => x.twin != p).map (fun x => x.vtag - first)
     ∧ (x₀.redop = 0 → ∀ j, j < 128 →
         match (x₀ :: ss).filter fun x => x.working[j]? != x.twin[j]? with
         | [] => m.content[j]? = p[j]? ∧ ∀ c ∈ m.conflicts, c.1 ≠ g * 128 + j
         | [x] => m.content[j]? = x.working[j]? ∧ ∀ c ∈ m.conflicts, c.1 ≠ g * 128 + j
         | x :: y :: _ => (g * 128 + j, x.vtag - first, y.vtag - first) ∈ m.conflicts)
     ∧ (x₀.redop = 0 → m.conflicts.Pairwise (fun a b => a.1 < b.1) ∧ m.flags = 0)
     ∧ (x₀.redop = 1 → x₀.fmt = .int32 → m.conflicts = [] ∧ m.flags = 0 ∧ ∀ e, e < 32 →
         (elemAt m.content 4 e : Int) = (elemAt p 4 e
           + ((x₀ :: ss).map fun x => (elemAt x.working 4 e : Int) - elemAt x.twin 4 e).sum) % 2 ^ 32))
  ∧ (∀ (s : State) (t v0 n : Nat) (parents : List Nat),
     let ms := s.mergeViews t parents v0 n
     let r := s.runReport t parents v0 n
     ((∀ m ∈ ms, m.outside = []) ↔ r.outLow = none) ∧ ((∀ m ∈ ms, m.conflicts = []) ↔ r.confLow = none)
     ∧ r.outs = (ms.filter fun m => !m.outside.isEmpty).length ∧ r.confs = (ms.map fun m => m.conflicts.length).sum
     ∧ (∀ o, r.outLow = some o → ∃ m ∈ ms, m.outside.head? = some o.2 ∧ o.1 = m.granule * 128
         ∧ ∀ m' ∈ ms, m'.outside ≠ [] → m.granule ≤ m'.granule)
     ∧ (∀ c, r.confLow = some c → ∃ m ∈ ms, m.conflicts.head? = some c ∧ ∀ m' ∈ ms, m'.conflicts ≠ [] → m.granule ≤ m'.granule))
  ∧ (∀ a b : FarReport, ∀ o, (joinReports a b).outLow = some o →
     (a.outLow = some o ∨ b.outLow = some o) ∧ ∀ x, a.outLow = some x ∨ b.outLow = some x → o.1 ≤ x.1)
  ∧ (∀ (dl : BitVec 2) (v0 : Nat) (r : FarReport),
     (mergeTrap dl v0 r = none ↔ r.lost = none ∧ r.confLow = none ∧ (dl = 0 ∨ r.outLow = none))
     ∧ (∀ c, r.lost = some c → ∃ t, mergeTrap dl v0 r = some t ∧ t.code = cINTEG ∧ t.cause = c)
     ∧ (∀ o, r.lost = none → dl ≠ 0 → r.outLow = some o → ∃ t, mergeTrap dl v0 r = some t ∧ t.code = cOUTSIDE
         ∧ t.cause = 1 ∧ t.access = 1 ∧ t.addr = o.1 ∧ t.aux0 = o.2 % 2 ^ 12 + 0xFFF * 2 ^ 16 + v0 * 2 ^ 32 ∧ t.aux1 = r.outs)
     ∧ (∀ c, r.lost = none → (dl = 0 ∨ r.outLow = none) → r.confLow = some c → ∃ t, mergeTrap dl v0 r = some t
         ∧ t.code = cCONFLICT ∧ t.cause = 1 ∧ t.access = 1 ∧ t.addr = c.1
         ∧ t.aux0 = c.2.1 % 2 ^ 12 + c.2.2 % 2 ^ 12 * 2 ^ 16 + v0 * 2 ^ 32 ∧ t.aux1 = r.confs))

/-- R98, R100, R107, R110, R113 and R115: the completion of a child, the check and the apply of a join, and the end of a dropped fork. -/
def Obligations.JoinsAndDrops : Prop :=
  (∀ (s : State) (b p : Nat) (k kp : Block) (g : Grid) (f : Fork), s.block? b = some k → k.parent = some p → s.grid? k.grid = some g →
     g.ended = false → g.closing = none → k.state ≠ .saved → k.state ≠ .lost → s.childDone b = true → s.block? p = some kp → kp.fork = some f → p ≠ b →
     (∀ e ∈ g.effects, e.block ≠ b) →
     (∀ tid, (k.thread tid).exited = true) ∧ s.engines.all (fun e => e.block != b) = true
     ∧ Reaches s (.childComplete b) fun t => t.block? b = none ∧ t.block? p = some { kp with fork := some { f with done := f.done + 1 } }
       ∧ t.mem = s.mem ∧ t.slots = s.slots ∧ t.views = s.views)
  ∧ (∀ (s : State) (b : Nat) (k : Block) (g : Grid) (f : Fork), s.block? b = some k → s.grid? k.grid = some g → k.fork = some f →
     s.joinReady b = true →
     (f.next = f.n ∧ f.done = f.n ∧ (k.thread f.tid).status = .waiting .join)
     ∧ (g.dl ≠ 0 → s.turnStopped k.grid g = false → ∀ rs, Becomes s (.joinCheck (.own b rs)) s ∧ Becomes s (.joinApply (.own b rs)) s)
     ∧ (g.dl = 0 ∨ s.turnStopped k.grid g = true →
     let marked := fun (u : State) (asked checked : Bool) (rs : List FarReport) =>
       u.setBlock b { k with fork := some { f with asked := asked, checked := checked, reports := rs } }
     let run : FarFork := ⟨BitVec.ofNat 6 k.tenant, f.vtag0, f.n, s.viewChain nestFuel k.vtag, g.dl == 0⟩
     let told := fun (u : State) (ds : List Nat) (x : Note) =>
       { u with fabric := { u.fabric with notes := u.fabric.notes ++ ds.map fun d => (BitVec.ofNat 10 d, x) } }
     (∀ rs, let u := s.learnFar f.vtag0 rs
       let far := u.farOf f.vtag0 f.n
       (far ≠ [] → f.asked = false → Becomes s (.joinCheck (.own b rs)) (marked (told u far (.check run)) true false []))
       ∧ (f.asked = true → covers rs far = false → Becomes s (.joinCheck (.own b rs))
           (if rs = [] then u else told u (far.filter fun d => rs.all fun r => decide (r.dev.toNat ≠ d)) (.check run)))
       ∧ ((far = [] ∨ f.asked = true) → covers rs far = true →
         (u.joinFault k { f with reports := rs } = none →
           Becomes s (.joinCheck (.own b rs)) (marked (told u far (.apply run)) f.asked true rs))
         ∧ ∀ t, u.joinFault k { f with reports := rs } = some t →
           Becomes s (.joinCheck (.own b rs)) (if g.dl = 0 then (marked (told u far (.abort run)) false false rs).trapWaiting b f.tid t
             else marked (told u far (.abort run)) false false rs)))
     ∧ (let far := s.farOf f.vtag0 f.n
       s.joinFault k { f with reports := [] } = none → far = [] → f.checked = true → ¬ (f.vtag0 ≤ k.vtag ∧ k.vtag < f.vtag0 + f.n) →
         k.state = .running →
         Reaches s (.joinApply (.own b [])) fun t => (∃ k', t.block? b = some k' ∧ k'.fork = none ∧ k'.vtag = k.vtag
             ∧ (g.dl = 0 → (k'.thread f.tid).status = .running)
             ∧ ∀ tid r, (k'.thread tid).reg r = (k.thread tid).reg r)
           ∧ (∀ v, f.vtag0 ≤ v → v < f.vtag0 + f.n → Sparse.find t.views v = none ∧ ∀ x ∈ t.slots, x.tenant = k.tenant → x.vtag ≠ v)
           ∧ (s.mergeViews k.tenant (s.viewChain nestFuel k.vtag) f.vtag0 f.n = [] → t.mem = s.mem)
           ∧ (∀ m x, s.mergeViews k.tenant [] f.vtag0 f.n = [m] → m.slots.head? = some x → m.content.length = 128 → k.vtag = 0 →
               (s.core k.core).cache = [] → Memory.wf s.mem = true → ∀ a, Memory.byte t.mem a =
                 if x.pa ≤ a ∧ a < x.pa + 128 then m.content.getD (a - x.pa) 0 else Memory.byte s.mem a))))
  ∧ (∀ (s : State) (r : FarFork),
     let other := s.fabric.holds.filter fun x => x.tenant != r.tenant || x.vtag0 != r.vtag0
     Becomes s (.joinCheck (.far r)) { s with fabric := { s.fabric with
       notes := s.fabric.notes ++
         [(BitVec.ofNat 10 (r.vtag0 / 2 ^ 16), .report (virtualReport (s.runReport r.tenant.toNat r.parents r.vtag0 r.n)))]
       holds := other ++ [r] } }
     ∧ Becomes s (.joinCheck (.abort r)) { s with fabric := { s.fabric with holds := other } }
     ∧ Becomes s (.joinApply (.abort r)) { s with fabric := { s.fabric with holds := other } })
  ∧ (∀ (s : State) (r : FarFork), ¬ (r.vtag0 ≤ r.parents.headD 0 ∧ r.parents.headD 0 < r.vtag0 + r.n) →
     Reaches s (.joinApply (.far r)) fun t => (∀ x ∈ t.slots, x.tenant = r.tenant.toNat → ¬ (r.vtag0 ≤ x.vtag ∧ x.vtag < r.vtag0 + r.n))
       ∧ t.fabric.notes = s.fabric.notes
           ++ [(BitVec.ofNat 10 (r.vtag0 / 2 ^ 16), .report (virtualReport (s.runReport r.tenant.toNat r.parents r.vtag0 r.n)))]
       ∧ t.fabric.holds = s.fabric.holds.filter fun x => x.tenant != r.tenant || x.vtag0 != r.vtag0)
  ∧ (∀ (s : State) (b : Nat) (k : Block) (f : Fork) (ended : List (BitVec 10)), s.block? b = some k → k.fork = some f → k.failed = none →
     f.dropping = true → s.dropDrained b f ended = true → 0 < f.vtag0 → Reaches s (.vdropComplete (.own b ended)) fun t => t.mem = s.mem ∧ t.hostMem = s.hostMem
       ∧ (∃ k', t.block? b = some k' ∧ k'.fork = none ∧ ∀ tid r, (k'.thread tid).reg r = (k.thread tid).reg r)
       ∧ (∀ v, f.vtag0 ≤ v → v < f.vtag0 + f.n → Sparse.find t.views v = none ∧
           ((Sparse.find s.views v).isSome → ∀ x ∈ t.slots, x.vtag ≠ v))
       ∧ (∀ c kc, c ≠ b → s.block? c = some kc → kc.parent.isSome = true → f.vtag0 ≤ kc.vtag → kc.vtag < f.vtag0 + f.n → t.block? c = none))
  ∧ (∀ (s : State) (n : BitVec 6) (vs : List Nat), Reaches s (.vdropComplete (.far n vs)) fun t =>
     t.mem = s.mem ∧ (∀ x ∈ t.slots, x ∈ s.slots ∧ ¬ (x.tenant = n.toNat ∧ x.vtag ∈ vs))
       ∧ ∀ x ∈ s.slots, x.vtag ∉ vs → s.viewWithin (fun v => vs.contains v) (nestFuel + 1) x.vtag = false → x ∈ t.slots)
  ∧ (∀ (s : State) (src : BitVec 10) (n : BitVec 6) (vs : List Nat) (squash : Bool) (ended : List (BitVec 10)),
     (src, n, vs) ∈ s.fabric.drops →
     let drained := (∀ e ∈ s.blocks, s.viewWithin (fun v => vs.contains v) (nestFuel + 1) e.2.vtag = true → s.busy e.1 = false)
       ∧ ∀ d ∈ s.farWithin (fun v => vs.contains v), ∃ e ∈ ended, e.toNat = d
     (drained → Becomes s (.vdropComplete (.ends src n vs squash ended)) { s with fabric := { s.fabric with
       notes := s.fabric.notes ++ [(src, .ended n vs)], drops := s.fabric.drops.filter fun x => x != (src, n, vs) } })
     ∧ (¬ drained → Becomes s (.vdropComplete (.ends src n vs squash ended)) s))

/-- R132 and R133: a prediction is the exact LAST, LIN or DAMP value rounded once to nearest, and an element passes the check
when its bits are equal or the exact difference is within ABS + REL times the real element. -/
def Obligations.PredictionAndTolerance : Prop :=
  ∀ f ∈ [fp16, bf16, fp32, fp64], ∀ (a b : Nat) (sa sb : Bool) (n₁ d₁ n₂ d₂ : Nat), f.decode a = .fin sa n₁ d₁ → f.decode b = .fin sb n₂ d₂ →
    let val := fun (sg : Bool) (n d : Nat) => (signed sg n : ℚ) / d
    let x := val sa n₁ d₁
    let y := val sb n₂ d₂
    predictElem f 0 a b = a
    ∧ (∃ (sg : Bool) (n d : Nat), 0 < d ∧ predictElem f 1 a b = (f.round 0 sg n d).1 ∧ val sg n d = 2 * x - y)
    ∧ (∃ (sg : Bool) (n d : Nat), 0 < d ∧ predictElem f 2 a b = (f.round 0 sg n d).1 ∧ val sg n d = x + (x - y) / 2)
    ∧ (∀ c, f.isNan c = true → predictElem f 1 a c = f.quiet c ∧ predictElem f 2 c b = f.quiet c)
    ∧ (∀ (abs rel : Word) (s₁ s₂ : Bool) (p q u v : Nat), fp32.decode abs.toNat = .fin s₁ p q → fp32.decode rel.toNat = .fin s₂ u v →
        toleranceOk abs = true → toleranceOk rel = true →
        (withinElem f abs rel a b = true ↔ a = b ∨ |x - y| ≤ (p : ℚ) / q + (u : ℚ) / v * |y|))
    ∧ (∀ (abs rel : Word) (c : Nat), (∀ sg n d, f.decode c ≠ .fin sg n d) →
        withinElem f abs rel a c = false ∧ withinElem f abs rel c b = false ∧ withinElem f abs rel c c = true)

/-- R131 to R136: the check of a view at DL0, the commit of one that has passed, the restore of one that has failed, and the
timeout of a SPEC that waits for a Fantail slot. -/
def Obligations.SpeculationSteps : Prop :=
  (∀ (s : State) (b : Nat) (k : Block) (g : Grid) (w : SpecView) (par : View), s.block? b = some k → s.grid? k.grid = some g → g.dl = 0 →
     k.state = .running → s.slotRoom k.tenant (s.versionNeed (w.record.key k.tenant g.gid) w.record) = true →
     k.specs = [w] → w.verdict = .none → s.specDone b w.record = true → Sparse.find s.views w.vtag = some par → w.outbox = [] →
     k.fork = none → (∀ e ∈ s.grids, e.2.task = none) → s.tileWaits b = false →
     (∀ p ∈ w.record.pieces, ∀ x, s.xlate k.core k.tenant p.1 .rd = .ok x → ∀ d a, x.home ≠ .remote d a) →
     let real := (s.readTile k par.parent w.record).2
     Reaches s (.specCheck b) fun t => (∃ k' out, t.block? b = some k'
         ∧ k'.specs = [{ w with verdict := if withinTile w.record w.predicted real then .pass else .fail, outbox := out }])
       ∧ t.fantail = s.fantail.map fun f => if f.key == w.record.key k.tenant g.gid then { f with versions := (real :: f.versions).take 2 } else f)
  ∧ (∀ (s : State) (b : Nat) (k : Block) (g : Grid) (w : SpecView) (rest : List SpecView) (par : View), s.block? b = some k →
     s.grid? k.grid = some g → g.dl = 0 → k.state = .running → k.specs = w :: rest → w.verdict = .pass → k.specendArrived = true →
     s.busy b = false → s.pending.all (fun p => p.block != b) = true → w.outbox = [] → Sparse.find s.views w.vtag = some par →
     w.vtag ≠ par.parent → w.reports = [] → s.farOf w.vtag 1 = [] →
     mergeTrap 0 w.vtag (s.runReport k.tenant (s.viewChain nestFuel par.parent) w.vtag 1) = none →
     Reaches s (.specCommit ⟨b, []⟩) fun t => Sparse.find t.views w.vtag = none ∧ (∀ x ∈ t.slots, x.tenant = k.tenant → x.vtag ≠ w.vtag)
       ∧ ∃ k', t.block? b = some k' ∧ k'.specs.map (·.vtag) = rest.map (·.vtag) ∧ k'.vtag = par.parent
         ∧ ∀ tid ∈ k.live, (k'.thread tid).status = .running ∧ (k'.thread tid).retired = (k.thread tid).retired + 1
           ∧ ∀ r, (k'.thread tid).reg r = (k.thread tid).reg r)
  ∧ (∀ (s : State) (b : Nat) (k : Block) (n : Kernel) (w : SpecView) (inner : List SpecView) (par : View), s.block? b = some k →
     s.kernelOf b = some n → s.dl0 b = true → k.state = .running → k.failed = some (w, inner) → s.squashDrained b w inner = true →
     Sparse.find s.views w.vtag = some par → Memory.wf w.checkpoint.scratch = true →
     Reaches s (.specRestore b) fun t => ∃ k', t.block? b = some k' ∧ k'.vtag = par.parent
       ∧ k'.specs = k.specs.filter (fun x => !(x.vtag == w.vtag || inner.any fun y => y.vtag == x.vtag))
       ∧ (∀ a, Memory.byte k'.scratch a = if a < 16 * n.tbars then Memory.byte k.scratch a else Memory.byte w.checkpoint.scratch a)
       ∧ (∀ tid th, w.checkpoint.threads[tid]? = some th → ∃ th', k'.threads[tid]? = some th' ∧ th'.regs = th.regs ∧ th'.preds = th.preds
           ∧ th'.flags = th.flags ∧ th'.fpcr = th.fpcr ∧ th'.fpsr = th.fpsr ∧ th'.hm = th.hm ∧ th'.trec = th.trec
           ∧ th'.rngCtr = (k.thread tid).rngCtr
           ∧ ∀ o at_, th.status = .waiting (.spec o) → th.after = some at_ → th'.status = .running ∧ th'.pc = at_.1 ∧ th'.clpos = at_.2))
  ∧ (∀ (s : State) (b : Nat) (k : Block) (g : Grid), s.block? b = some k → s.grid? k.grid = some g → g.dl = 0 →
     (s.specSlotExpired b = false → Becomes s (.specSlotTimeout b) s)
     ∧ (s.specSlotExpired b = true → g.task = none → (∀ u ∈ (s.core k.core).bundles, u.paused = none) →
         Reaches s (.specSlotTimeout b) fun t => ∃ k', t.block? b = some k' ∧ k'.specSlot = none ∧ k'.specBar = Barrier.empty
           ∧ k'.specs.map (·.vtag) = k.specs.map (·.vtag)
           ∧ ∀ tid ∈ k.live, (∀ r, (k'.thread tid).reg r = (k.thread tid).reg r) ∧ (∀ w, (k'.thread tid).status ≠ .waiting w)
             ∧ (g.kernel.handler ≠ 0 → (k.thread tid).hm = false → (k'.thread tid).hm = true
                 ∧ (k'.thread tid).pc = g.kernel.addr + g.kernel.handler.setWidth 64
                 ∧ (k'.thread tid).trecAt 1 % 2 ^ 16 = BitVec.ofNat 64 (cSPECDEPTH + 2 * 2 ^ 8))))

/-- R127 and R227: the timer of every kind of wait. One that has not come, a phase that is complete, and any wait of a grid at DL1
and above between its boundaries, ends nothing; one that has come withdraws the arrivals, and every thread that waits there takes
the trap, where no clause stands still within an instruction. The diagnostic area is absent or on this device. Of the lanes of one
instruction that wait for Sluice slots the first alone traps, and those after it wait for it. -/
def Obligations.Timeouts : Prop :=
  ∀ (s : State) (b : Nat) (k : Block) (g : Grid), s.block? b = some k → s.grid? k.grid = some g →
    let takes := fun (k' : Block) (tid code cause : Nat) => (∀ w, (k'.thread tid).status ≠ .waiting w)
      ∧ (g.kernel.handler ≠ 0 → (k.thread tid).hm = false → (k'.thread tid).hm = true
          ∧ (k'.thread tid).pc = g.kernel.addr + g.kernel.handler.setWidth 64
          ∧ (k'.thread tid).trecAt 1 % 2 ^ 16 = BitVec.ofNat 64 (code + cause * 2 ^ 8))
    let keeps := fun (k' : Block) => ∀ tid r, (k'.thread tid).reg r = (k.thread tid).reg r
    let calm := (g.task = none ∨ (g.kernel.handler ≠ 0 ∧ ∀ e ∈ s.blocks, e.2.grid = k.grid → ∀ th ∈ e.2.threads, th.hm = false))
      ∧ ∀ c, ∀ u ∈ (s.core c).bundles, u.paused = none
    let near := (s.tenant k.tenant).diagBase = 0 ∨ ∀ va n d a, s.rootHome k.tenant va n ≠ .ok (.remote d a)
    (g.dl ≠ 0 → (∀ w, s.timedBlock w = b → Becomes s (.barrierTimeout w) s)
      ∧ ∀ x, Becomes s (.rwaitTimeout b x) s ∧ Becomes s (.sluiceTimeout b x) s)
    ∧ (g.dl = 0 →
      (∀ j, let x := Sparse.get Barrier.empty k.bars j
        (x.arrived = [] ∨ s.expired b x.due = false ∨ k.barDone x = true → Becomes s (.barrierTimeout (.bar b j)) s)
        ∧ (x.arrived ≠ [] → s.expired b x.due = true → k.barDone x = false → calm → near → Sparse.wf Barrier.empty k.bars = true →
            Sparse.wf Tenant.reset s.tenants = true → x.arrived.Nodup → (∀ e ∈ x.arrived, e.1 = 0) →
            Reaches s (.barrierTimeout (.bar b j)) fun t => (t.tenant k.tenant).diagSeq = (s.tenant k.tenant).diagSeq + 1
              ∧ ∃ k', t.block? b = some k' ∧ Sparse.get Barrier.empty k'.bars j = Barrier.empty ∧ keeps k'
              ∧ (∀ j', j' ≠ j → Sparse.get Barrier.empty k'.bars j' = Sparse.get Barrier.empty k.bars j')
              ∧ ∀ tid, tid < k.T → ((0, tid) ∈ x.arrived → (k.thread tid).status = .waiting (.bar j) → takes k' tid cBARTO 1)
                ∧ ((0, tid) ∉ x.arrived → k'.thread tid = k.thread tid)))
      ∧ (∀ ends : Bool, let x := if ends = true then k.specendBar else k.specBar
        let w : TimedWait := if ends = true then .specend b else .spec b
        (x.arrived = [] ∨ s.expired b x.due = false ∨ k.barDone x = true → Becomes s (.barrierTimeout w) s)
        ∧ (x.arrived ≠ [] → s.expired b x.due = true → k.barDone x = false → calm → near → x.arrived.Nodup → (∀ e ∈ x.arrived, e.1 = 0) →
            Reaches s (.barrierTimeout w) fun t => ∃ k', t.block? b = some k'
              ∧ (if ends = true then k'.specendBar = Barrier.empty ∧ k'.specBar = k.specBar
                 else k'.specBar = Barrier.empty ∧ k'.specendBar = k.specendBar)
              ∧ keeps k' ∧ k'.specs.map (·.vtag) = k.specs.map (·.vtag) ∧ ∀ tid, tid < k.T → (0, tid) ∈ x.arrived →
                (if ends = true then (k.thread tid).status = .waiting .specend else ∃ o, (k.thread tid).status = .waiting (.spec o)) →
                takes k' tid cBARTO 3))
      ∧ (∀ tid o off p pd due, tid < k.T → (k.thread tid).status = .waiting (.tbwait o off p pd due) →
        (s.expired b due = false ∨ tbPhase (s.tbGet o off) ≠ p.toNat → Becomes s (.barrierTimeout (.tbwait b tid)) s)
        ∧ (s.expired b due = true → tbPhase (s.tbGet o off) = p.toNat → calm →
            Reaches s (.barrierTimeout (.tbwait b tid)) fun t => ∃ k', t.block? b = some k' ∧ keeps k' ∧ takes k' tid cBARTO 4
              ∧ ∀ x, x ≠ tid → k'.thread x = k.thread x))
      ∧ (∀ c j ms, (s.cluster c).members = b :: ms → (b :: ms).Nodup →
        (∀ m ∈ ms, ∃ km, s.block? m = some km ∧ km.grid = k.grid) → let x := Sparse.get Barrier.empty (s.cluster c).cbars j
        (x.arrived = [] ∨ s.expired b x.due = false ∨ (∀ e ∈ s.clusterLive (s.cluster c), e ∈ x.arrived) →
          Becomes s (.barrierTimeout (.cbar c j)) s)
        ∧ (x.arrived ≠ [] → s.expired b x.due = true → (∃ e ∈ s.clusterLive (s.cluster c), e ∉ x.arrived) → calm → near → x.arrived.Nodup →
            Reaches s (.barrierTimeout (.cbar c j)) fun t => ∀ e ∈ x.arrived, ∀ m, (b :: ms)[e.1]? = some m →
              (s.thread m e.2).status = .waiting (.cbar j) → (∀ w, (t.thread m e.2).status ≠ .waiting w)
                ∧ ∀ r, (t.thread m e.2).reg r = (s.thread m e.2).reg r))
      ∧ (∀ tag, (∀ e, k.rwaits.find? (fun e => e.1 == tag) = some e → s.expired b e.2 = false ∨ k.tagMet tag = true) →
          Becomes s (.rwaitTimeout b tag) s)
      ∧ (∀ tag e, k.rwaits.find? (fun e => e.1 == tag) = some e → s.expired b e.2 = true → k.tagMet tag = false → calm → near →
          (k.tagged tag).Nodup →
          Reaches s (.rwaitTimeout b tag) fun t => ∃ k', t.block? b = some k' ∧ k'.rwaits = k.rwaits.filter (fun e => e.1 != tag)
            ∧ keeps k' ∧ ∀ q ∈ k.tagged tag, ∀ tid ∈ k.quadThreads q, (k.thread tid).status = .waiting .rwait → takes k' tid cRWTO 1)
      ∧ (∀ tid due, (k.thread tid).status = .waiting (.slot due) → tid < k.T → Sparse.wf Tenant.reset s.tenants = true →
          (s.expired b due = false ∨ s.slotBeside b tid false ≠ [] → Becomes s (.sluiceTimeout b tid) s)
          ∧ (s.expired b due = true → s.slotBeside b tid false = [] → calm → Reaches s (.sluiceTimeout b tid) fun t => ∃ k', t.block? b = some k'
              ∧ (k'.thread tid).slotSince = none ∧ keeps k' ∧ takes k' tid cSLUICE 1
              ∧ (∀ x, x ≠ tid → x ∉ s.slotBeside b tid true → k'.thread x = k.thread x)
              ∧ (∀ x ∈ s.slotBeside b tid true, x ≠ tid → (k'.thread x).slotSince = none ∧ ∃ w, (k'.thread x).status = .waiting w)
              ∧ (t.tenant k.tenant).sluice = (s.tenant k.tenant).sluice)))

/-! ## Encodings, steps, reset and the invariant of every step -/

/-- R235, R237 to R239, R241 to R243: decoding the words of a well-formed instruction gives it back, whatever words follow it
in its clause; a transfer is the last. -/
def Obligations.DecodeOfEncode : Prop :=
  ∀ (i : Instr) (e : Enc) (rest : List Word), encodeFields i = some e → i.wf = true → (i.isTransfer = true → rest = []) →
    decode e.cls (encode i ++ rest) = .ok i (encode i).length

/-- R236 and R242: what is decoded is the encoding of a well-formed instruction of its class, and tests 1 to 3 refuse the
other words in their order. -/
def Obligations.DecodeAcceptsOnlyEncodings : Prop :=
  (∀ (c : Cls) (ws : List Word) (i : Instr) (n : Nat), decode c ws = .ok i n →
     ws.take n = encode i ∧ n = (encode i).length ∧ 1 ≤ n ∧ i.wf = true ∧ (i.isTransfer = true → ws.length = n)
     ∧ ∃ e, encodeFields i = some e ∧ e.cls = c)
  ∧ (∀ (c : Cls) (x : Word) (rest : List Word),
     let op := x.extractLsb' 26 6
     (opWords c op = none → decode c (x :: rest) = .illegal 3 0)
     ∧ (∀ n, opWords c op = some n → rest.length + 1 < n → decode c (x :: rest) = .illegal 7 0)
     ∧ (∀ n, opWords c op = some n → n < rest.length + 1 → opIsTransfer c op = true → decode c (x :: rest) = .illegal 6 0))
  ∧ (∀ w : Word, let h := Header.ofWord w
     h.toWord = w ∧ (h.fault = none ↔ h.cls ≠ 7 ∧ h.n ≠ 0 ∧ (h.seta.toNat < 12 ∨ h.seta = 15) ∧ (h.setb.toNat < 12 ∨ h.setb = 15)))

/-- R234, R237, R238 and R243: words written out from the encodings of one instruction of each class decode to it. -/
def Obligations.WordsDecode : Prop :=
  decode .int [0x00040506#32] = .ok (.iadd 0 4 5 6) 1
  ∧ decode .int [0xC407FFFE#32] = .ok (.movi 0 7 0xFFFE) 1
  ∧ decode .flt [0x0C040506#32, 0x07A00070#32] = .ok (.ffma 0 4 5 6 7 (.forced 2) .fp32 false) 2
  ∧ decode .lane [0x00040506#32, 0x1A000002#32] = .ok (.shfl 0 4 5 6 2 3 .above false) 2
  ∧ decode .mem [0x20080406#32, 0x00006060#32] = .ok (.atom 0 8 4 6 0 .device .add .bf16 false .none false) 2
  ∧ decode .ctl [0x00000039#32] = .ok (.bra 57) 1
  ∧ decode .eng [0x2800090A#32] = .ok (.tbexpect 9 10) 1
  ∧ decode .sys [0x18040000#32] = .ok (.clock 4) 1
  ∧ Header.ofWord 0x4FF80082#32 = ⟨false, true, 1, 15, 15, 1, 0, 2⟩
  ∧ (Header.ofWord 0x4FF80072#32).fault = some 1

/-- R235 and R242: a step takes the next event from outside that nothing keeps back; else, in a clause under way, it is the
meaning of the instruction that its words decode to, where no join holds what it writes, or the trap of words that are none; else
what the device does of its own accord. -/
def Obligations.StepRunsDecodedInstruction : Prop :=
  ∀ s : State,
    (∀ ev rest, s.nextInput exec = some (ev, rest) → step s = after (exec ev { s with inputs := rest }))
    ∧ (∀ ev rest, s.inputs = ev :: rest → s.heldRuns = [] → s.hostWaits ev = false →
        step s = after (exec ev { s with inputs := rest }))
    ∧ (s.nextInput exec = none → ∀ i c, s.issue = some i → Cls.ofCode i.header.cls = some c →
        (∀ ins n, ins.wf = true → decode c (i.words.drop (i.pos - 1)) = .ok ins n → s.heldRuns = [] ∨ s.allows exec ins = true →
          step s = after (exec ins s))
        ∧ (∀ cause word, decode c (i.words.drop (i.pos - 1)) = .illegal cause word → step s = .next (s.trapWord i cause word).finishStep))
    ∧ (s.nextInput exec = none → s.issue = none →
        (s.pkg.inReset = true → step s = .next s.finishStep)
        ∧ (s.pkg.inReset = false → ∀ ev due, s.pickEvent exec = some (ev, due) → step s = after (exec ev { s.tick with due := due }))
        ∧ (s.pkg.inReset = false → s.pickEvent exec = none → step s = .next s.finishStep))
    ∧ (s.inputs = [] → s.nextInput exec = none)
    ∧ (∀ t : State, after (.next t) = .next t.finishStep ∧ t.advance.cycle = t.cycle + 1
        ∧ t.finishStep = ((t.unlessHeld fun u => u.settle.testDl0).unstall.advance.unlessHeld State.retrySlotWait).flow)

/-- R22, R24, R26, R45, R53 to R56, R68 and R81: what reset leaves. -/
def Obligations.ResetLeaves : Prop :=
  let s := State.reset
  s.pkg.service = 0 ∧ s.pkg.arch = 1 ∧ s.pkg.step = 1 ∧ s.pkg.dies = 0x01 ∧ s.pkg.hbm = 0x0003 ∧ s.pkg.edges = 0b01
  ∧ s.pkg.hlinks = 0b01 ∧ s.pkg.fports = 0 ∧ s.pkg.pdelay = 0x00100000 ∧ s.pkg.pen = true
  ∧ s.pkg.caps = 0x0011100001000301
  ∧ s.blocks = [] ∧ s.grids = [] ∧ s.issue = none ∧ s.mem = []
  ∧ ∀ t q, (s.tenant t).en = false ∧ (s.tenant t).rootv = false ∧ (s.tenant t).savesize = 0 ∧ (s.queue t q).en = false
      ∧ (s.queue t q).qhead = 0 ∧ (s.queue t q).qtail = 0 ∧ (s.tenant t).qsusp = 0 ∧ (s.tenant t).fq.en = false

/-- Device memory, host memory, every scratchpad and every scratchpad that a checkpoint holds are in canonical form after reset. -/
def Obligations.MemoryWellFormedAtReset : Prop := State.reset.memWf

/-- Every step keeps device memory, host memory, every scratchpad and every scratchpad that a checkpoint holds in canonical
form. -/
def Obligations.StepsKeepMemoryWellFormed : Prop := ∀ s t : State, s.memWf → Steps s t → t.memWf
end

