-- ==== Sys2Proof/Laws/Sparse.lean ====
section
/-! SUPPORT. The laws of sparse tables and of memories: what a write reads as, that a write keeps the canonical form, and
that a table in that form is determined by what it reads as. -/

namespace Sys2Proof

/-! ## Lookup in tables of objects -/

theorem Sparse.find_put_self {α : Type} (l : Sparse α) (n : Nat) (v : α) : Sparse.find (Sparse.put l n v) n = some v := by
  induction l with
  | nil => simp [Sparse.put, Sparse.find]
  | cons e l ih =>
    obtain ⟨k, w⟩ := e
    simp only [Sparse.put]
    split
    · simp [Sparse.find]
    · split
      · simp [Sparse.find]
      · next h => simp [Sparse.find, Ne.symm h, ih]

theorem Sparse.find_put_ne {α : Type} (l : Sparse α) (n m : Nat) (v : α) (h : m ≠ n) :
    Sparse.find (Sparse.put l n v) m = Sparse.find l m := by
  induction l with
  | nil => simp [Sparse.put, Sparse.find, Ne.symm h]
  | cons e l ih =>
    obtain ⟨k, w⟩ := e
    simp only [Sparse.put]
    split
    · simp [Sparse.find, Ne.symm h]
    · split
      · next hk => subst hk; simp [Sparse.find, Ne.symm h]
      · simp [Sparse.find, ih]

/-! ## Tables of values -/

theorem Sparse.get_set_ne {α : Type} [DecidableEq α] (d : α) (l : Sparse α) (n m : Nat) (v : α) (h : m ≠ n) :
    Sparse.get d (Sparse.set d l n v) m = Sparse.get d l m := by
  induction l with
  | nil =>
    simp only [Sparse.set]
    split <;> simp [Sparse.get, Ne.symm h]
  | cons e l ih =>
    obtain ⟨k, w⟩ := e
    simp only [Sparse.set]
    split
    · split <;> simp [Sparse.get, Ne.symm h]
    · split
      · next hk => subst hk; split <;> simp [Sparse.get, Ne.symm h]
      · simp [Sparse.get, ih]

theorem Sparse.get_below {α : Type} [DecidableEq α] (d : α) (l : Sparse α) (lo n : Nat) (hw : Sparse.wfFrom d lo l = true)
    (h : n < lo) : Sparse.get d l n = d := by
  induction l generalizing lo with
  | nil => rfl
  | cons e l ih =>
    obtain ⟨k, w⟩ := e
    simp only [Sparse.wfFrom, Bool.and_eq_true, decide_eq_true_eq] at hw
    have hk : k ≠ n := by omega
    simp only [Sparse.get, if_neg hk]
    exact ih (k + 1) hw.2 (by omega)

theorem Sparse.get_set_self_from {α : Type} [DecidableEq α] (d : α) (l : Sparse α) (lo n : Nat) (v : α)
    (hw : Sparse.wfFrom d lo l = true) : Sparse.get d (Sparse.set d l n v) n = v := by
  induction l generalizing lo with
  | nil =>
    simp only [Sparse.set]
    split
    · next h => simp [Sparse.get, h]
    · simp [Sparse.get]
  | cons e l ih =>
    obtain ⟨k, w⟩ := e
    simp only [Sparse.wfFrom, Bool.and_eq_true, decide_eq_true_eq] at hw
    simp only [Sparse.set]
    split
    · next hn =>
      split
      · next hv =>
        have hk : k ≠ n := by omega
        simp only [Sparse.get, if_neg hk]
        rw [Sparse.get_below d l (k + 1) n hw.2 (by omega), hv]
      · simp [Sparse.get]
    · split
      · next hn =>
        split
        · next hv => rw [Sparse.get_below d l (k + 1) n hw.2 (by omega), hv]
        · simp [Sparse.get]
      · next hn =>
        simp only [Sparse.get, if_neg (Ne.symm hn)]
        exact ih (k + 1) hw.2

/-- A write reads back. -/
theorem Sparse.get_set_self {α : Type} [DecidableEq α] (d : α) (l : Sparse α) (n : Nat) (v : α) (hw : Sparse.wf d l = true) :
    Sparse.get d (Sparse.set d l n v) n = v := Sparse.get_set_self_from d l 0 n v hw

/-- A write of a value that is not the default reads back in any table. -/
theorem Sparse.get_set_listed {α : Type} [DecidableEq α] (d : α) (l : Sparse α) (n : Nat) (v : α) (hv : v ≠ d) :
    Sparse.get d (Sparse.set d l n v) n = v := by
  induction l with
  | nil => simp [Sparse.set, Sparse.get, hv]
  | cons e l ih =>
    obtain ⟨k, w⟩ := e
    simp only [Sparse.set, if_neg hv]
    split
    · simp [Sparse.get]
    · split
      · simp [Sparse.get]
      · next hn => simp [Sparse.get, Ne.symm hn, ih]

theorem Sparse.wfFrom_mono {α : Type} [DecidableEq α] (d : α) (l : Sparse α) (lo lo' : Nat) (h : lo' ≤ lo)
    (hw : Sparse.wfFrom d lo l = true) : Sparse.wfFrom d lo' l = true := by
  cases l with
  | nil => rfl
  | cons e l =>
    obtain ⟨k, w⟩ := e
    simp only [Sparse.wfFrom, Bool.and_eq_true, decide_eq_true_eq] at hw ⊢
    exact ⟨⟨by omega, hw.1.2⟩, hw.2⟩

theorem Sparse.wfFrom_set {α : Type} [DecidableEq α] (d : α) (l : Sparse α) (lo n : Nat) (v : α) (hn : lo ≤ n)
    (hw : Sparse.wfFrom d lo l = true) : Sparse.wfFrom d lo (Sparse.set d l n v) = true := by
  induction l generalizing lo with
  | nil =>
    simp only [Sparse.set]
    split
    · rfl
    · next hv => simp [Sparse.wfFrom, hn, hv]
  | cons e l ih =>
    obtain ⟨k, w⟩ := e
    have hw' := hw
    simp only [Sparse.wfFrom, Bool.and_eq_true, decide_eq_true_eq] at hw'
    simp only [Sparse.set]
    split
    · next hk =>
      split
      · exact hw
      · next hv =>
        simp only [Sparse.wfFrom, Bool.and_eq_true, decide_eq_true_eq]
        exact ⟨⟨hn, hv⟩, ⟨by omega, hw'.1.2⟩, hw'.2⟩
    · split
      · next hk =>
        subst hk
        split
        · exact Sparse.wfFrom_mono d l (n + 1) lo (by omega) hw'.2
        · next hv =>
          simp only [Sparse.wfFrom, Bool.and_eq_true, decide_eq_true_eq]
          exact ⟨⟨hn, hv⟩, hw'.2⟩
      · simp only [Sparse.wfFrom, Bool.and_eq_true, decide_eq_true_eq]
        exact ⟨hw'.1, ih (k + 1) (by omega) hw'.2⟩

/-- A write keeps the canonical form. -/
theorem Sparse.wf_set {α : Type} [DecidableEq α] (d : α) (l : Sparse α) (n : Nat) (v : α) (hw : Sparse.wf d l = true) :
    Sparse.wf d (Sparse.set d l n v) = true := Sparse.wfFrom_set d l 0 n v (Nat.zero_le n) hw

theorem Sparse.wf_nil {α : Type} [DecidableEq α] (d : α) : Sparse.wf d ([] : Sparse α) = true := rfl

theorem Sparse.ext_from {α : Type} [DecidableEq α] (d : α) (l m : Sparse α) (lo : Nat) (hl : Sparse.wfFrom d lo l = true)
    (hm : Sparse.wfFrom d lo m = true) (h : ∀ n, Sparse.get d l n = Sparse.get d m n) : l = m := by
  induction l generalizing m lo with
  | nil =>
    cases m with
    | nil => rfl
    | cons e m =>
      obtain ⟨k, w⟩ := e
      simp only [Sparse.wfFrom, Bool.and_eq_true, decide_eq_true_eq] at hm
      exact absurd (by simpa [Sparse.get] using (h k).symm) hm.1.2
  | cons e l ih =>
    obtain ⟨k, w⟩ := e
    have hl' := hl
    simp only [Sparse.wfFrom, Bool.and_eq_true, decide_eq_true_eq] at hl'
    cases m with
    | nil => exact absurd (by simpa [Sparse.get] using h k) hl'.1.2
    | cons e' m =>
      obtain ⟨k', w'⟩ := e'
      have hm' := hm
      simp only [Sparse.wfFrom, Bool.and_eq_true, decide_eq_true_eq] at hm'
      have hk : k = k' := by
        rcases Nat.lt_trichotomy k k' with hlt | heq | hlt
        · have h1 := h k
          simp only [Sparse.get, if_neg (by omega : k' ≠ k), if_true] at h1
          exact absurd (h1.trans (Sparse.get_below d m (k' + 1) k hm'.2 (by omega))) hl'.1.2
        · exact heq
        · have h1 := h k'
          simp only [Sparse.get, if_neg (by omega : k ≠ k'), if_true] at h1
          exact absurd (h1.symm.trans (Sparse.get_below d l (k + 1) k' hl'.2 (by omega))) hm'.1.2
      subst hk
      have hv : w = w' := by simpa [Sparse.get] using h k
      subst hv
      congr 1
      refine ih m (k + 1) hl'.2 hm'.2 fun n => ?_
      by_cases hn : k = n
      · subst hn
        rw [Sparse.get_below d l (k + 1) k hl'.2 (by omega), Sparse.get_below d m (k + 1) k hm'.2 (by omega)]
      · simpa [Sparse.get, hn] using h n

/-- Two tables in canonical form that read alike are equal. -/
theorem Sparse.ext {α : Type} [DecidableEq α] (d : α) (l m : Sparse α) (hl : Sparse.wf d l = true) (hm : Sparse.wf d m = true)
    (h : ∀ n, Sparse.get d l n = Sparse.get d m n) : l = m := Sparse.ext_from d l m 0 hl hm h

/-! ## Memories -/

theorem Memory.wf_setByte (m : Memory) (a : Nat) (b : Byte) (h : Memory.wf m = true) :
    Memory.wf (Memory.setByte m a b) = true := Sparse.wf_set 0 m a b h

/-- Every write of bytes keeps the canonical form. -/
theorem Memory.wf_write (m : Memory) (a : Nat) (bs : List Byte) (h : Memory.wf m = true) :
    Memory.wf (Memory.write m a bs) = true := by
  induction bs generalizing m a with
  | nil => exact h
  | cons b bs ih => exact ih (Memory.setByte m a b) (a + 1) (Memory.wf_setByte m a b h)

/-- A write of bytes leaves every other byte alone. -/
theorem Memory.byte_write_outside (m : Memory) (a x : Nat) (bs : List Byte) (h : x < a ∨ a + bs.length ≤ x) :
    Memory.byte (Memory.write m a bs) x = Memory.byte m x := by
  induction bs generalizing m a with
  | nil => rfl
  | cons b bs ih =>
    simp only [List.length_cons] at h
    rw [Memory.write, ih (Memory.setByte m a b) (a + 1) (by omega)]
    exact Sparse.get_set_ne 0 m a x b (by omega)

/-- A write of bytes reads back, byte by byte. -/
theorem Memory.byte_write_inside (m : Memory) (a i : Nat) (bs : List Byte) (hw : Memory.wf m = true) (h : i < bs.length) :
    Memory.byte (Memory.write m a bs) (a + i) = bs.getD i 0 := by
  induction bs generalizing m a i with
  | nil => simp at h
  | cons b bs ih =>
    have hw' := Memory.wf_setByte m a b hw
    cases i with
    | zero =>
      rw [Memory.write, Memory.byte_write_outside _ _ _ _ (by omega)]
      exact Sparse.get_set_self 0 m a b hw
    | succ i =>
      rw [Memory.write, show a + (i + 1) = (a + 1) + i by omega, ih _ _ _ hw' (by simpa using h)]
      rfl

/-- A write of bytes reads back whole. -/
theorem Memory.read_write (m : Memory) (a : Nat) (bs : List Byte) (hw : Memory.wf m = true) :
    Memory.read (Memory.write m a bs) a bs.length = bs := by
  suffices h : ∀ (l : List Byte) (k : Nat), (∀ i, i < l.length → Memory.byte (Memory.write m a bs) (k + i) = l.getD i 0) →
      Memory.read (Memory.write m a bs) k l.length = l from
    h bs a fun i hi => Memory.byte_write_inside m a i bs hw hi
  intro l
  induction l with
  | nil => intros; rfl
  | cons b l ih =>
    intro k h
    simp only [List.length_cons, Memory.read]
    congr 1
    · simpa using h 0 (by simp)
    · refine ih (k + 1) fun i hi => ?_
      simpa [Nat.add_assoc, Nat.add_comm 1 i] using h (i + 1) (by simpa using hi)

theorem Memory.read_length (m : Memory) (a n : Nat) : (Memory.read m a n).length = n := by
  induction n generalizing a with
  | zero => rfl
  | succ n ih => simp [Memory.read, ih]

/-! ## Bytes and numbers (R3) -/

theorem natToBytes_length (n v : Nat) : (natToBytes n v).length = n := by
  induction n generalizing v with
  | zero => rfl
  | succ n ih => simp [natToBytes, ih]

/-- Bytes of a number give it back. -/
theorem bytesToNat_natToBytes (n v : Nat) : bytesToNat (natToBytes n v) = v % 256 ^ n := by
  induction n generalizing v with
  | zero => simp [natToBytes, bytesToNat, Nat.mod_one]
  | succ n ih =>
    rw [natToBytes, bytesToNat, ih, Nat.pow_succ', Nat.mod_mul, BitVec.toNat_ofNat]

end Sys2Proof
end

