-- ==== Sys2Proof/Laws/State.lean ====
section
/-! SUPPORT. What each named update of the state leaves alone, field by field, and what it sets. -/

namespace Sys2Proof.Machine

/-! ## State.setTenant -/

@[simp] theorem State.setTenant_pkg (s : State) (t : Nat) (v : Tenant) : (s.setTenant t v).pkg = s.pkg := rfl
@[simp] theorem State.setTenant_fabric (s : State) (t : Nat) (v : Tenant) : (s.setTenant t v).fabric = s.fabric := rfl
@[simp] theorem State.setTenant_mem (s : State) (t : Nat) (v : Tenant) : (s.setTenant t v).mem = s.mem := rfl
@[simp] theorem State.setTenant_hostMem (s : State) (t : Nat) (v : Tenant) : (s.setTenant t v).hostMem = s.hostMem := rfl
@[simp] theorem State.setTenant_hostLines (s : State) (t : Nat) (v : Tenant) : (s.setTenant t v).hostLines = s.hostLines := rfl
@[simp] theorem State.setTenant_proxy (s : State) (t : Nat) (v : Tenant) : (s.setTenant t v).proxy = s.proxy := rfl
@[simp] theorem State.setTenant_hostReplies (s : State) (t : Nat) (v : Tenant) : (s.setTenant t v).hostReplies = s.hostReplies := rfl
@[simp] theorem State.setTenant_tlb (s : State) (t : Nat) (v : Tenant) : (s.setTenant t v).tlb = s.tlb := rfl
@[simp] theorem State.setTenant_tlbPtrs (s : State) (t : Nat) (v : Tenant) : (s.setTenant t v).tlbPtrs = s.tlbPtrs := rfl
@[simp] theorem State.setTenant_cycle (s : State) (t : Nat) (v : Tenant) : (s.setTenant t v).cycle = s.cycle := rfl
@[simp] theorem State.setTenant_grids (s : State) (t : Nat) (v : Tenant) : (s.setTenant t v).grids = s.grids := rfl
@[simp] theorem State.setTenant_blocks (s : State) (t : Nat) (v : Tenant) : (s.setTenant t v).blocks = s.blocks := rfl
@[simp] theorem State.setTenant_clusters (s : State) (t : Nat) (v : Tenant) : (s.setTenant t v).clusters = s.clusters := rfl
@[simp] theorem State.setTenant_cores (s : State) (t : Nat) (v : Tenant) : (s.setTenant t v).cores = s.cores := rfl
@[simp] theorem State.setTenant_tiles (s : State) (t : Nat) (v : Tenant) : (s.setTenant t v).tiles = s.tiles := rfl
@[simp] theorem State.setTenant_wheels (s : State) (t : Nat) (v : Tenant) : (s.setTenant t v).wheels = s.wheels := rfl
@[simp] theorem State.setTenant_views (s : State) (t : Nat) (v : Tenant) : (s.setTenant t v).views = s.views := rfl
@[simp] theorem State.setTenant_slots (s : State) (t : Nat) (v : Tenant) : (s.setTenant t v).slots = s.slots := rfl
@[simp] theorem State.setTenant_fantail (s : State) (t : Nat) (v : Tenant) : (s.setTenant t v).fantail = s.fantail := rfl
@[simp] theorem State.setTenant_foreign (s : State) (t : Nat) (v : Tenant) : (s.setTenant t v).foreign = s.foreign := rfl
@[simp] theorem State.setTenant_engines (s : State) (t : Nat) (v : Tenant) : (s.setTenant t v).engines = s.engines := rfl
@[simp] theorem State.setTenant_pending (s : State) (t : Nat) (v : Tenant) : (s.setTenant t v).pending = s.pending := rfl
@[simp] theorem State.setTenant_lastServed (s : State) (t : Nat) (v : Tenant) : (s.setTenant t v).lastServed = s.lastServed := rfl
@[simp] theorem State.setTenant_issue (s : State) (t : Nat) (v : Tenant) : (s.setTenant t v).issue = s.issue := rfl
@[simp] theorem State.setTenant_inputs (s : State) (t : Nat) (v : Tenant) : (s.setTenant t v).inputs = s.inputs := rfl
@[simp] theorem State.setTenant_due (s : State) (t : Nat) (v : Tenant) : (s.setTenant t v).due = s.due := rfl
@[simp] theorem State.setTenant_freeCtr (s : State) (t : Nat) (v : Tenant) : (s.setTenant t v).freeCtr = s.freeCtr := rfl
@[simp] theorem State.setTenant_nextUid (s : State) (t : Nat) (v : Tenant) : (s.setTenant t v).nextUid = s.nextUid := rfl

/-! ## State.updTenant -/

@[simp] theorem State.updTenant_pkg (s : State) (t : Nat) (f : Tenant → Tenant) : (s.updTenant t f).pkg = s.pkg := rfl
@[simp] theorem State.updTenant_fabric (s : State) (t : Nat) (f : Tenant → Tenant) : (s.updTenant t f).fabric = s.fabric := rfl
@[simp] theorem State.updTenant_mem (s : State) (t : Nat) (f : Tenant → Tenant) : (s.updTenant t f).mem = s.mem := rfl
@[simp] theorem State.updTenant_hostMem (s : State) (t : Nat) (f : Tenant → Tenant) : (s.updTenant t f).hostMem = s.hostMem := rfl
@[simp] theorem State.updTenant_hostLines (s : State) (t : Nat) (f : Tenant → Tenant) : (s.updTenant t f).hostLines = s.hostLines := rfl
@[simp] theorem State.updTenant_proxy (s : State) (t : Nat) (f : Tenant → Tenant) : (s.updTenant t f).proxy = s.proxy := rfl
@[simp] theorem State.updTenant_hostReplies (s : State) (t : Nat) (f : Tenant → Tenant) : (s.updTenant t f).hostReplies = s.hostReplies := rfl
@[simp] theorem State.updTenant_tlb (s : State) (t : Nat) (f : Tenant → Tenant) : (s.updTenant t f).tlb = s.tlb := rfl
@[simp] theorem State.updTenant_tlbPtrs (s : State) (t : Nat) (f : Tenant → Tenant) : (s.updTenant t f).tlbPtrs = s.tlbPtrs := rfl
@[simp] theorem State.updTenant_cycle (s : State) (t : Nat) (f : Tenant → Tenant) : (s.updTenant t f).cycle = s.cycle := rfl
@[simp] theorem State.updTenant_grids (s : State) (t : Nat) (f : Tenant → Tenant) : (s.updTenant t f).grids = s.grids := rfl
@[simp] theorem State.updTenant_blocks (s : State) (t : Nat) (f : Tenant → Tenant) : (s.updTenant t f).blocks = s.blocks := rfl
@[simp] theorem State.updTenant_clusters (s : State) (t : Nat) (f : Tenant → Tenant) : (s.updTenant t f).clusters = s.clusters := rfl
@[simp] theorem State.updTenant_cores (s : State) (t : Nat) (f : Tenant → Tenant) : (s.updTenant t f).cores = s.cores := rfl
@[simp] theorem State.updTenant_tiles (s : State) (t : Nat) (f : Tenant → Tenant) : (s.updTenant t f).tiles = s.tiles := rfl
@[simp] theorem State.updTenant_wheels (s : State) (t : Nat) (f : Tenant → Tenant) : (s.updTenant t f).wheels = s.wheels := rfl
@[simp] theorem State.updTenant_views (s : State) (t : Nat) (f : Tenant → Tenant) : (s.updTenant t f).views = s.views := rfl
@[simp] theorem State.updTenant_slots (s : State) (t : Nat) (f : Tenant → Tenant) : (s.updTenant t f).slots = s.slots := rfl
@[simp] theorem State.updTenant_fantail (s : State) (t : Nat) (f : Tenant → Tenant) : (s.updTenant t f).fantail = s.fantail := rfl
@[simp] theorem State.updTenant_foreign (s : State) (t : Nat) (f : Tenant → Tenant) : (s.updTenant t f).foreign = s.foreign := rfl
@[simp] theorem State.updTenant_engines (s : State) (t : Nat) (f : Tenant → Tenant) : (s.updTenant t f).engines = s.engines := rfl
@[simp] theorem State.updTenant_pending (s : State) (t : Nat) (f : Tenant → Tenant) : (s.updTenant t f).pending = s.pending := rfl
@[simp] theorem State.updTenant_lastServed (s : State) (t : Nat) (f : Tenant → Tenant) : (s.updTenant t f).lastServed = s.lastServed := rfl
@[simp] theorem State.updTenant_issue (s : State) (t : Nat) (f : Tenant → Tenant) : (s.updTenant t f).issue = s.issue := rfl
@[simp] theorem State.updTenant_inputs (s : State) (t : Nat) (f : Tenant → Tenant) : (s.updTenant t f).inputs = s.inputs := rfl
@[simp] theorem State.updTenant_due (s : State) (t : Nat) (f : Tenant → Tenant) : (s.updTenant t f).due = s.due := rfl
@[simp] theorem State.updTenant_freeCtr (s : State) (t : Nat) (f : Tenant → Tenant) : (s.updTenant t f).freeCtr = s.freeCtr := rfl
@[simp] theorem State.updTenant_nextUid (s : State) (t : Nat) (f : Tenant → Tenant) : (s.updTenant t f).nextUid = s.nextUid := rfl

/-! ## State.updQueue -/

@[simp] theorem State.updQueue_pkg (s : State) (t q : Nat) (f : Queue → Queue) : (s.updQueue t q f).pkg = s.pkg := rfl
@[simp] theorem State.updQueue_fabric (s : State) (t q : Nat) (f : Queue → Queue) : (s.updQueue t q f).fabric = s.fabric := rfl
@[simp] theorem State.updQueue_mem (s : State) (t q : Nat) (f : Queue → Queue) : (s.updQueue t q f).mem = s.mem := rfl
@[simp] theorem State.updQueue_hostMem (s : State) (t q : Nat) (f : Queue → Queue) : (s.updQueue t q f).hostMem = s.hostMem := rfl
@[simp] theorem State.updQueue_hostLines (s : State) (t q : Nat) (f : Queue → Queue) : (s.updQueue t q f).hostLines = s.hostLines := rfl
@[simp] theorem State.updQueue_proxy (s : State) (t q : Nat) (f : Queue → Queue) : (s.updQueue t q f).proxy = s.proxy := rfl
@[simp] theorem State.updQueue_hostReplies (s : State) (t q : Nat) (f : Queue → Queue) : (s.updQueue t q f).hostReplies = s.hostReplies := rfl
@[simp] theorem State.updQueue_tlb (s : State) (t q : Nat) (f : Queue → Queue) : (s.updQueue t q f).tlb = s.tlb := rfl
@[simp] theorem State.updQueue_tlbPtrs (s : State) (t q : Nat) (f : Queue → Queue) : (s.updQueue t q f).tlbPtrs = s.tlbPtrs := rfl
@[simp] theorem State.updQueue_cycle (s : State) (t q : Nat) (f : Queue → Queue) : (s.updQueue t q f).cycle = s.cycle := rfl
@[simp] theorem State.updQueue_grids (s : State) (t q : Nat) (f : Queue → Queue) : (s.updQueue t q f).grids = s.grids := rfl
@[simp] theorem State.updQueue_blocks (s : State) (t q : Nat) (f : Queue → Queue) : (s.updQueue t q f).blocks = s.blocks := rfl
@[simp] theorem State.updQueue_clusters (s : State) (t q : Nat) (f : Queue → Queue) : (s.updQueue t q f).clusters = s.clusters := rfl
@[simp] theorem State.updQueue_cores (s : State) (t q : Nat) (f : Queue → Queue) : (s.updQueue t q f).cores = s.cores := rfl
@[simp] theorem State.updQueue_tiles (s : State) (t q : Nat) (f : Queue → Queue) : (s.updQueue t q f).tiles = s.tiles := rfl
@[simp] theorem State.updQueue_wheels (s : State) (t q : Nat) (f : Queue → Queue) : (s.updQueue t q f).wheels = s.wheels := rfl
@[simp] theorem State.updQueue_views (s : State) (t q : Nat) (f : Queue → Queue) : (s.updQueue t q f).views = s.views := rfl
@[simp] theorem State.updQueue_slots (s : State) (t q : Nat) (f : Queue → Queue) : (s.updQueue t q f).slots = s.slots := rfl
@[simp] theorem State.updQueue_fantail (s : State) (t q : Nat) (f : Queue → Queue) : (s.updQueue t q f).fantail = s.fantail := rfl
@[simp] theorem State.updQueue_foreign (s : State) (t q : Nat) (f : Queue → Queue) : (s.updQueue t q f).foreign = s.foreign := rfl
@[simp] theorem State.updQueue_engines (s : State) (t q : Nat) (f : Queue → Queue) : (s.updQueue t q f).engines = s.engines := rfl
@[simp] theorem State.updQueue_pending (s : State) (t q : Nat) (f : Queue → Queue) : (s.updQueue t q f).pending = s.pending := rfl
@[simp] theorem State.updQueue_lastServed (s : State) (t q : Nat) (f : Queue → Queue) : (s.updQueue t q f).lastServed = s.lastServed := rfl
@[simp] theorem State.updQueue_issue (s : State) (t q : Nat) (f : Queue → Queue) : (s.updQueue t q f).issue = s.issue := rfl
@[simp] theorem State.updQueue_inputs (s : State) (t q : Nat) (f : Queue → Queue) : (s.updQueue t q f).inputs = s.inputs := rfl
@[simp] theorem State.updQueue_due (s : State) (t q : Nat) (f : Queue → Queue) : (s.updQueue t q f).due = s.due := rfl
@[simp] theorem State.updQueue_freeCtr (s : State) (t q : Nat) (f : Queue → Queue) : (s.updQueue t q f).freeCtr = s.freeCtr := rfl
@[simp] theorem State.updQueue_nextUid (s : State) (t q : Nat) (f : Queue → Queue) : (s.updQueue t q f).nextUid = s.nextUid := rfl

/-! ## State.updSluice -/

@[simp] theorem State.updSluice_pkg (s : State) (t n : Nat) (f : Sluice → Sluice) : (s.updSluice t n f).pkg = s.pkg := rfl
@[simp] theorem State.updSluice_fabric (s : State) (t n : Nat) (f : Sluice → Sluice) : (s.updSluice t n f).fabric = s.fabric := rfl
@[simp] theorem State.updSluice_mem (s : State) (t n : Nat) (f : Sluice → Sluice) : (s.updSluice t n f).mem = s.mem := rfl
@[simp] theorem State.updSluice_hostMem (s : State) (t n : Nat) (f : Sluice → Sluice) : (s.updSluice t n f).hostMem = s.hostMem := rfl
@[simp] theorem State.updSluice_hostLines (s : State) (t n : Nat) (f : Sluice → Sluice) : (s.updSluice t n f).hostLines = s.hostLines := rfl
@[simp] theorem State.updSluice_proxy (s : State) (t n : Nat) (f : Sluice → Sluice) : (s.updSluice t n f).proxy = s.proxy := rfl
@[simp] theorem State.updSluice_hostReplies (s : State) (t n : Nat) (f : Sluice → Sluice) : (s.updSluice t n f).hostReplies = s.hostReplies := rfl
@[simp] theorem State.updSluice_tlb (s : State) (t n : Nat) (f : Sluice → Sluice) : (s.updSluice t n f).tlb = s.tlb := rfl
@[simp] theorem State.updSluice_tlbPtrs (s : State) (t n : Nat) (f : Sluice → Sluice) : (s.updSluice t n f).tlbPtrs = s.tlbPtrs := rfl
@[simp] theorem State.updSluice_cycle (s : State) (t n : Nat) (f : Sluice → Sluice) : (s.updSluice t n f).cycle = s.cycle := rfl
@[simp] theorem State.updSluice_grids (s : State) (t n : Nat) (f : Sluice → Sluice) : (s.updSluice t n f).grids = s.grids := rfl
@[simp] theorem State.updSluice_blocks (s : State) (t n : Nat) (f : Sluice → Sluice) : (s.updSluice t n f).blocks = s.blocks := rfl
@[simp] theorem State.updSluice_clusters (s : State) (t n : Nat) (f : Sluice → Sluice) : (s.updSluice t n f).clusters = s.clusters := rfl
@[simp] theorem State.updSluice_cores (s : State) (t n : Nat) (f : Sluice → Sluice) : (s.updSluice t n f).cores = s.cores := rfl
@[simp] theorem State.updSluice_tiles (s : State) (t n : Nat) (f : Sluice → Sluice) : (s.updSluice t n f).tiles = s.tiles := rfl
@[simp] theorem State.updSluice_wheels (s : State) (t n : Nat) (f : Sluice → Sluice) : (s.updSluice t n f).wheels = s.wheels := rfl
@[simp] theorem State.updSluice_views (s : State) (t n : Nat) (f : Sluice → Sluice) : (s.updSluice t n f).views = s.views := rfl
@[simp] theorem State.updSluice_slots (s : State) (t n : Nat) (f : Sluice → Sluice) : (s.updSluice t n f).slots = s.slots := rfl
@[simp] theorem State.updSluice_fantail (s : State) (t n : Nat) (f : Sluice → Sluice) : (s.updSluice t n f).fantail = s.fantail := rfl
@[simp] theorem State.updSluice_foreign (s : State) (t n : Nat) (f : Sluice → Sluice) : (s.updSluice t n f).foreign = s.foreign := rfl
@[simp] theorem State.updSluice_engines (s : State) (t n : Nat) (f : Sluice → Sluice) : (s.updSluice t n f).engines = s.engines := rfl
@[simp] theorem State.updSluice_pending (s : State) (t n : Nat) (f : Sluice → Sluice) : (s.updSluice t n f).pending = s.pending := rfl
@[simp] theorem State.updSluice_lastServed (s : State) (t n : Nat) (f : Sluice → Sluice) : (s.updSluice t n f).lastServed = s.lastServed := rfl
@[simp] theorem State.updSluice_issue (s : State) (t n : Nat) (f : Sluice → Sluice) : (s.updSluice t n f).issue = s.issue := rfl
@[simp] theorem State.updSluice_inputs (s : State) (t n : Nat) (f : Sluice → Sluice) : (s.updSluice t n f).inputs = s.inputs := rfl
@[simp] theorem State.updSluice_due (s : State) (t n : Nat) (f : Sluice → Sluice) : (s.updSluice t n f).due = s.due := rfl
@[simp] theorem State.updSluice_freeCtr (s : State) (t n : Nat) (f : Sluice → Sluice) : (s.updSluice t n f).freeCtr = s.freeCtr := rfl
@[simp] theorem State.updSluice_nextUid (s : State) (t n : Nat) (f : Sluice → Sluice) : (s.updSluice t n f).nextUid = s.nextUid := rfl

/-! ## State.updCore -/

@[simp] theorem State.updCore_pkg (s : State) (c : Nat) (f : Core → Core) : (s.updCore c f).pkg = s.pkg := rfl
@[simp] theorem State.updCore_fabric (s : State) (c : Nat) (f : Core → Core) : (s.updCore c f).fabric = s.fabric := rfl
@[simp] theorem State.updCore_tenants (s : State) (c : Nat) (f : Core → Core) : (s.updCore c f).tenants = s.tenants := rfl
@[simp] theorem State.updCore_mem (s : State) (c : Nat) (f : Core → Core) : (s.updCore c f).mem = s.mem := rfl
@[simp] theorem State.updCore_hostMem (s : State) (c : Nat) (f : Core → Core) : (s.updCore c f).hostMem = s.hostMem := rfl
@[simp] theorem State.updCore_hostLines (s : State) (c : Nat) (f : Core → Core) : (s.updCore c f).hostLines = s.hostLines := rfl
@[simp] theorem State.updCore_proxy (s : State) (c : Nat) (f : Core → Core) : (s.updCore c f).proxy = s.proxy := rfl
@[simp] theorem State.updCore_hostReplies (s : State) (c : Nat) (f : Core → Core) : (s.updCore c f).hostReplies = s.hostReplies := rfl
@[simp] theorem State.updCore_tlb (s : State) (c : Nat) (f : Core → Core) : (s.updCore c f).tlb = s.tlb := rfl
@[simp] theorem State.updCore_tlbPtrs (s : State) (c : Nat) (f : Core → Core) : (s.updCore c f).tlbPtrs = s.tlbPtrs := rfl
@[simp] theorem State.updCore_cycle (s : State) (c : Nat) (f : Core → Core) : (s.updCore c f).cycle = s.cycle := rfl
@[simp] theorem State.updCore_grids (s : State) (c : Nat) (f : Core → Core) : (s.updCore c f).grids = s.grids := rfl
@[simp] theorem State.updCore_blocks (s : State) (c : Nat) (f : Core → Core) : (s.updCore c f).blocks = s.blocks := rfl
@[simp] theorem State.updCore_clusters (s : State) (c : Nat) (f : Core → Core) : (s.updCore c f).clusters = s.clusters := rfl
@[simp] theorem State.updCore_tiles (s : State) (c : Nat) (f : Core → Core) : (s.updCore c f).tiles = s.tiles := rfl
@[simp] theorem State.updCore_wheels (s : State) (c : Nat) (f : Core → Core) : (s.updCore c f).wheels = s.wheels := rfl
@[simp] theorem State.updCore_views (s : State) (c : Nat) (f : Core → Core) : (s.updCore c f).views = s.views := rfl
@[simp] theorem State.updCore_slots (s : State) (c : Nat) (f : Core → Core) : (s.updCore c f).slots = s.slots := rfl
@[simp] theorem State.updCore_fantail (s : State) (c : Nat) (f : Core → Core) : (s.updCore c f).fantail = s.fantail := rfl
@[simp] theorem State.updCore_foreign (s : State) (c : Nat) (f : Core → Core) : (s.updCore c f).foreign = s.foreign := rfl
@[simp] theorem State.updCore_engines (s : State) (c : Nat) (f : Core → Core) : (s.updCore c f).engines = s.engines := rfl
@[simp] theorem State.updCore_pending (s : State) (c : Nat) (f : Core → Core) : (s.updCore c f).pending = s.pending := rfl
@[simp] theorem State.updCore_lastServed (s : State) (c : Nat) (f : Core → Core) : (s.updCore c f).lastServed = s.lastServed := rfl
@[simp] theorem State.updCore_issue (s : State) (c : Nat) (f : Core → Core) : (s.updCore c f).issue = s.issue := rfl
@[simp] theorem State.updCore_inputs (s : State) (c : Nat) (f : Core → Core) : (s.updCore c f).inputs = s.inputs := rfl
@[simp] theorem State.updCore_due (s : State) (c : Nat) (f : Core → Core) : (s.updCore c f).due = s.due := rfl
@[simp] theorem State.updCore_freeCtr (s : State) (c : Nat) (f : Core → Core) : (s.updCore c f).freeCtr = s.freeCtr := rfl
@[simp] theorem State.updCore_nextUid (s : State) (c : Nat) (f : Core → Core) : (s.updCore c f).nextUid = s.nextUid := rfl

/-! ## State.updTile -/

@[simp] theorem State.updTile_pkg (s : State) (i : Nat) (f : Tile → Tile) : (s.updTile i f).pkg = s.pkg := rfl
@[simp] theorem State.updTile_fabric (s : State) (i : Nat) (f : Tile → Tile) : (s.updTile i f).fabric = s.fabric := rfl
@[simp] theorem State.updTile_tenants (s : State) (i : Nat) (f : Tile → Tile) : (s.updTile i f).tenants = s.tenants := rfl
@[simp] theorem State.updTile_mem (s : State) (i : Nat) (f : Tile → Tile) : (s.updTile i f).mem = s.mem := rfl
@[simp] theorem State.updTile_hostMem (s : State) (i : Nat) (f : Tile → Tile) : (s.updTile i f).hostMem = s.hostMem := rfl
@[simp] theorem State.updTile_hostLines (s : State) (i : Nat) (f : Tile → Tile) : (s.updTile i f).hostLines = s.hostLines := rfl
@[simp] theorem State.updTile_proxy (s : State) (i : Nat) (f : Tile → Tile) : (s.updTile i f).proxy = s.proxy := rfl
@[simp] theorem State.updTile_hostReplies (s : State) (i : Nat) (f : Tile → Tile) : (s.updTile i f).hostReplies = s.hostReplies := rfl
@[simp] theorem State.updTile_tlb (s : State) (i : Nat) (f : Tile → Tile) : (s.updTile i f).tlb = s.tlb := rfl
@[simp] theorem State.updTile_tlbPtrs (s : State) (i : Nat) (f : Tile → Tile) : (s.updTile i f).tlbPtrs = s.tlbPtrs := rfl
@[simp] theorem State.updTile_cycle (s : State) (i : Nat) (f : Tile → Tile) : (s.updTile i f).cycle = s.cycle := rfl
@[simp] theorem State.updTile_grids (s : State) (i : Nat) (f : Tile → Tile) : (s.updTile i f).grids = s.grids := rfl
@[simp] theorem State.updTile_blocks (s : State) (i : Nat) (f : Tile → Tile) : (s.updTile i f).blocks = s.blocks := rfl
@[simp] theorem State.updTile_clusters (s : State) (i : Nat) (f : Tile → Tile) : (s.updTile i f).clusters = s.clusters := rfl
@[simp] theorem State.updTile_cores (s : State) (i : Nat) (f : Tile → Tile) : (s.updTile i f).cores = s.cores := rfl
@[simp] theorem State.updTile_wheels (s : State) (i : Nat) (f : Tile → Tile) : (s.updTile i f).wheels = s.wheels := rfl
@[simp] theorem State.updTile_views (s : State) (i : Nat) (f : Tile → Tile) : (s.updTile i f).views = s.views := rfl
@[simp] theorem State.updTile_slots (s : State) (i : Nat) (f : Tile → Tile) : (s.updTile i f).slots = s.slots := rfl
@[simp] theorem State.updTile_fantail (s : State) (i : Nat) (f : Tile → Tile) : (s.updTile i f).fantail = s.fantail := rfl
@[simp] theorem State.updTile_foreign (s : State) (i : Nat) (f : Tile → Tile) : (s.updTile i f).foreign = s.foreign := rfl
@[simp] theorem State.updTile_engines (s : State) (i : Nat) (f : Tile → Tile) : (s.updTile i f).engines = s.engines := rfl
@[simp] theorem State.updTile_pending (s : State) (i : Nat) (f : Tile → Tile) : (s.updTile i f).pending = s.pending := rfl
@[simp] theorem State.updTile_lastServed (s : State) (i : Nat) (f : Tile → Tile) : (s.updTile i f).lastServed = s.lastServed := rfl
@[simp] theorem State.updTile_issue (s : State) (i : Nat) (f : Tile → Tile) : (s.updTile i f).issue = s.issue := rfl
@[simp] theorem State.updTile_inputs (s : State) (i : Nat) (f : Tile → Tile) : (s.updTile i f).inputs = s.inputs := rfl
@[simp] theorem State.updTile_due (s : State) (i : Nat) (f : Tile → Tile) : (s.updTile i f).due = s.due := rfl
@[simp] theorem State.updTile_freeCtr (s : State) (i : Nat) (f : Tile → Tile) : (s.updTile i f).freeCtr = s.freeCtr := rfl
@[simp] theorem State.updTile_nextUid (s : State) (i : Nat) (f : Tile → Tile) : (s.updTile i f).nextUid = s.nextUid := rfl

/-! ## State.updWheel -/

@[simp] theorem State.updWheel_pkg (s : State) (w : Nat) (f : List MatEntry → List MatEntry) : (s.updWheel w f).pkg = s.pkg := rfl
@[simp] theorem State.updWheel_fabric (s : State) (w : Nat) (f : List MatEntry → List MatEntry) : (s.updWheel w f).fabric = s.fabric := rfl
@[simp] theorem State.updWheel_tenants (s : State) (w : Nat) (f : List MatEntry → List MatEntry) : (s.updWheel w f).tenants = s.tenants := rfl
@[simp] theorem State.updWheel_mem (s : State) (w : Nat) (f : List MatEntry → List MatEntry) : (s.updWheel w f).mem = s.mem := rfl
@[simp] theorem State.updWheel_hostMem (s : State) (w : Nat) (f : List MatEntry → List MatEntry) : (s.updWheel w f).hostMem = s.hostMem := rfl
@[simp] theorem State.updWheel_hostLines (s : State) (w : Nat) (f : List MatEntry → List MatEntry) : (s.updWheel w f).hostLines = s.hostLines := rfl
@[simp] theorem State.updWheel_proxy (s : State) (w : Nat) (f : List MatEntry → List MatEntry) : (s.updWheel w f).proxy = s.proxy := rfl
@[simp] theorem State.updWheel_hostReplies (s : State) (w : Nat) (f : List MatEntry → List MatEntry) : (s.updWheel w f).hostReplies = s.hostReplies := rfl
@[simp] theorem State.updWheel_tlb (s : State) (w : Nat) (f : List MatEntry → List MatEntry) : (s.updWheel w f).tlb = s.tlb := rfl
@[simp] theorem State.updWheel_tlbPtrs (s : State) (w : Nat) (f : List MatEntry → List MatEntry) : (s.updWheel w f).tlbPtrs = s.tlbPtrs := rfl
@[simp] theorem State.updWheel_cycle (s : State) (w : Nat) (f : List MatEntry → List MatEntry) : (s.updWheel w f).cycle = s.cycle := rfl
@[simp] theorem State.updWheel_grids (s : State) (w : Nat) (f : List MatEntry → List MatEntry) : (s.updWheel w f).grids = s.grids := rfl
@[simp] theorem State.updWheel_blocks (s : State) (w : Nat) (f : List MatEntry → List MatEntry) : (s.updWheel w f).blocks = s.blocks := rfl
@[simp] theorem State.updWheel_clusters (s : State) (w : Nat) (f : List MatEntry → List MatEntry) : (s.updWheel w f).clusters = s.clusters := rfl
@[simp] theorem State.updWheel_cores (s : State) (w : Nat) (f : List MatEntry → List MatEntry) : (s.updWheel w f).cores = s.cores := rfl
@[simp] theorem State.updWheel_tiles (s : State) (w : Nat) (f : List MatEntry → List MatEntry) : (s.updWheel w f).tiles = s.tiles := rfl
@[simp] theorem State.updWheel_views (s : State) (w : Nat) (f : List MatEntry → List MatEntry) : (s.updWheel w f).views = s.views := rfl
@[simp] theorem State.updWheel_slots (s : State) (w : Nat) (f : List MatEntry → List MatEntry) : (s.updWheel w f).slots = s.slots := rfl
@[simp] theorem State.updWheel_fantail (s : State) (w : Nat) (f : List MatEntry → List MatEntry) : (s.updWheel w f).fantail = s.fantail := rfl
@[simp] theorem State.updWheel_foreign (s : State) (w : Nat) (f : List MatEntry → List MatEntry) : (s.updWheel w f).foreign = s.foreign := rfl
@[simp] theorem State.updWheel_engines (s : State) (w : Nat) (f : List MatEntry → List MatEntry) : (s.updWheel w f).engines = s.engines := rfl
@[simp] theorem State.updWheel_pending (s : State) (w : Nat) (f : List MatEntry → List MatEntry) : (s.updWheel w f).pending = s.pending := rfl
@[simp] theorem State.updWheel_lastServed (s : State) (w : Nat) (f : List MatEntry → List MatEntry) : (s.updWheel w f).lastServed = s.lastServed := rfl
@[simp] theorem State.updWheel_issue (s : State) (w : Nat) (f : List MatEntry → List MatEntry) : (s.updWheel w f).issue = s.issue := rfl
@[simp] theorem State.updWheel_inputs (s : State) (w : Nat) (f : List MatEntry → List MatEntry) : (s.updWheel w f).inputs = s.inputs := rfl
@[simp] theorem State.updWheel_due (s : State) (w : Nat) (f : List MatEntry → List MatEntry) : (s.updWheel w f).due = s.due := rfl
@[simp] theorem State.updWheel_freeCtr (s : State) (w : Nat) (f : List MatEntry → List MatEntry) : (s.updWheel w f).freeCtr = s.freeCtr := rfl
@[simp] theorem State.updWheel_nextUid (s : State) (w : Nat) (f : List MatEntry → List MatEntry) : (s.updWheel w f).nextUid = s.nextUid := rfl

/-! ## State.setGrid -/

@[simp] theorem State.setGrid_pkg (s : State) (g : Nat) (v : Grid) : (s.setGrid g v).pkg = s.pkg := rfl
@[simp] theorem State.setGrid_fabric (s : State) (g : Nat) (v : Grid) : (s.setGrid g v).fabric = s.fabric := rfl
@[simp] theorem State.setGrid_tenants (s : State) (g : Nat) (v : Grid) : (s.setGrid g v).tenants = s.tenants := rfl
@[simp] theorem State.setGrid_mem (s : State) (g : Nat) (v : Grid) : (s.setGrid g v).mem = s.mem := rfl
@[simp] theorem State.setGrid_hostMem (s : State) (g : Nat) (v : Grid) : (s.setGrid g v).hostMem = s.hostMem := rfl
@[simp] theorem State.setGrid_hostLines (s : State) (g : Nat) (v : Grid) : (s.setGrid g v).hostLines = s.hostLines := rfl
@[simp] theorem State.setGrid_proxy (s : State) (g : Nat) (v : Grid) : (s.setGrid g v).proxy = s.proxy := rfl
@[simp] theorem State.setGrid_hostReplies (s : State) (g : Nat) (v : Grid) : (s.setGrid g v).hostReplies = s.hostReplies := rfl
@[simp] theorem State.setGrid_tlb (s : State) (g : Nat) (v : Grid) : (s.setGrid g v).tlb = s.tlb := rfl
@[simp] theorem State.setGrid_tlbPtrs (s : State) (g : Nat) (v : Grid) : (s.setGrid g v).tlbPtrs = s.tlbPtrs := rfl
@[simp] theorem State.setGrid_cycle (s : State) (g : Nat) (v : Grid) : (s.setGrid g v).cycle = s.cycle := rfl
@[simp] theorem State.setGrid_blocks (s : State) (g : Nat) (v : Grid) : (s.setGrid g v).blocks = s.blocks := rfl
@[simp] theorem State.setGrid_clusters (s : State) (g : Nat) (v : Grid) : (s.setGrid g v).clusters = s.clusters := rfl
@[simp] theorem State.setGrid_cores (s : State) (g : Nat) (v : Grid) : (s.setGrid g v).cores = s.cores := rfl
@[simp] theorem State.setGrid_tiles (s : State) (g : Nat) (v : Grid) : (s.setGrid g v).tiles = s.tiles := rfl
@[simp] theorem State.setGrid_wheels (s : State) (g : Nat) (v : Grid) : (s.setGrid g v).wheels = s.wheels := rfl
@[simp] theorem State.setGrid_views (s : State) (g : Nat) (v : Grid) : (s.setGrid g v).views = s.views := rfl
@[simp] theorem State.setGrid_slots (s : State) (g : Nat) (v : Grid) : (s.setGrid g v).slots = s.slots := rfl
@[simp] theorem State.setGrid_fantail (s : State) (g : Nat) (v : Grid) : (s.setGrid g v).fantail = s.fantail := rfl
@[simp] theorem State.setGrid_foreign (s : State) (g : Nat) (v : Grid) : (s.setGrid g v).foreign = s.foreign := rfl
@[simp] theorem State.setGrid_engines (s : State) (g : Nat) (v : Grid) : (s.setGrid g v).engines = s.engines := rfl
@[simp] theorem State.setGrid_pending (s : State) (g : Nat) (v : Grid) : (s.setGrid g v).pending = s.pending := rfl
@[simp] theorem State.setGrid_lastServed (s : State) (g : Nat) (v : Grid) : (s.setGrid g v).lastServed = s.lastServed := rfl
@[simp] theorem State.setGrid_issue (s : State) (g : Nat) (v : Grid) : (s.setGrid g v).issue = s.issue := rfl
@[simp] theorem State.setGrid_inputs (s : State) (g : Nat) (v : Grid) : (s.setGrid g v).inputs = s.inputs := rfl
@[simp] theorem State.setGrid_due (s : State) (g : Nat) (v : Grid) : (s.setGrid g v).due = s.due := rfl
@[simp] theorem State.setGrid_freeCtr (s : State) (g : Nat) (v : Grid) : (s.setGrid g v).freeCtr = s.freeCtr := rfl
@[simp] theorem State.setGrid_nextUid (s : State) (g : Nat) (v : Grid) : (s.setGrid g v).nextUid = s.nextUid := rfl

/-! ## State.setBlock -/

@[simp] theorem State.setBlock_pkg (s : State) (b : Nat) (v : Block) : (s.setBlock b v).pkg = s.pkg := rfl
@[simp] theorem State.setBlock_fabric (s : State) (b : Nat) (v : Block) : (s.setBlock b v).fabric = s.fabric := rfl
@[simp] theorem State.setBlock_tenants (s : State) (b : Nat) (v : Block) : (s.setBlock b v).tenants = s.tenants := rfl
@[simp] theorem State.setBlock_mem (s : State) (b : Nat) (v : Block) : (s.setBlock b v).mem = s.mem := rfl
@[simp] theorem State.setBlock_hostMem (s : State) (b : Nat) (v : Block) : (s.setBlock b v).hostMem = s.hostMem := rfl
@[simp] theorem State.setBlock_hostLines (s : State) (b : Nat) (v : Block) : (s.setBlock b v).hostLines = s.hostLines := rfl
@[simp] theorem State.setBlock_proxy (s : State) (b : Nat) (v : Block) : (s.setBlock b v).proxy = s.proxy := rfl
@[simp] theorem State.setBlock_hostReplies (s : State) (b : Nat) (v : Block) : (s.setBlock b v).hostReplies = s.hostReplies := rfl
@[simp] theorem State.setBlock_tlb (s : State) (b : Nat) (v : Block) : (s.setBlock b v).tlb = s.tlb := rfl
@[simp] theorem State.setBlock_tlbPtrs (s : State) (b : Nat) (v : Block) : (s.setBlock b v).tlbPtrs = s.tlbPtrs := rfl
@[simp] theorem State.setBlock_cycle (s : State) (b : Nat) (v : Block) : (s.setBlock b v).cycle = s.cycle := rfl
@[simp] theorem State.setBlock_grids (s : State) (b : Nat) (v : Block) : (s.setBlock b v).grids = s.grids := rfl
@[simp] theorem State.setBlock_clusters (s : State) (b : Nat) (v : Block) : (s.setBlock b v).clusters = s.clusters := rfl
@[simp] theorem State.setBlock_cores (s : State) (b : Nat) (v : Block) : (s.setBlock b v).cores = s.cores := rfl
@[simp] theorem State.setBlock_tiles (s : State) (b : Nat) (v : Block) : (s.setBlock b v).tiles = s.tiles := rfl
@[simp] theorem State.setBlock_wheels (s : State) (b : Nat) (v : Block) : (s.setBlock b v).wheels = s.wheels := rfl
@[simp] theorem State.setBlock_views (s : State) (b : Nat) (v : Block) : (s.setBlock b v).views = s.views := rfl
@[simp] theorem State.setBlock_slots (s : State) (b : Nat) (v : Block) : (s.setBlock b v).slots = s.slots := rfl
@[simp] theorem State.setBlock_fantail (s : State) (b : Nat) (v : Block) : (s.setBlock b v).fantail = s.fantail := rfl
@[simp] theorem State.setBlock_foreign (s : State) (b : Nat) (v : Block) : (s.setBlock b v).foreign = s.foreign := rfl
@[simp] theorem State.setBlock_engines (s : State) (b : Nat) (v : Block) : (s.setBlock b v).engines = s.engines := rfl
@[simp] theorem State.setBlock_pending (s : State) (b : Nat) (v : Block) : (s.setBlock b v).pending = s.pending := rfl
@[simp] theorem State.setBlock_lastServed (s : State) (b : Nat) (v : Block) : (s.setBlock b v).lastServed = s.lastServed := rfl
@[simp] theorem State.setBlock_issue (s : State) (b : Nat) (v : Block) : (s.setBlock b v).issue = s.issue := rfl
@[simp] theorem State.setBlock_inputs (s : State) (b : Nat) (v : Block) : (s.setBlock b v).inputs = s.inputs := rfl
@[simp] theorem State.setBlock_due (s : State) (b : Nat) (v : Block) : (s.setBlock b v).due = s.due := rfl
@[simp] theorem State.setBlock_freeCtr (s : State) (b : Nat) (v : Block) : (s.setBlock b v).freeCtr = s.freeCtr := rfl
@[simp] theorem State.setBlock_nextUid (s : State) (b : Nat) (v : Block) : (s.setBlock b v).nextUid = s.nextUid := rfl

/-! ## State.updCluster -/

@[simp] theorem State.updCluster_pkg (s : State) (c : Nat) (f : Cluster → Cluster) : (s.updCluster c f).pkg = s.pkg := rfl
@[simp] theorem State.updCluster_fabric (s : State) (c : Nat) (f : Cluster → Cluster) : (s.updCluster c f).fabric = s.fabric := rfl
@[simp] theorem State.updCluster_tenants (s : State) (c : Nat) (f : Cluster → Cluster) : (s.updCluster c f).tenants = s.tenants := rfl
@[simp] theorem State.updCluster_mem (s : State) (c : Nat) (f : Cluster → Cluster) : (s.updCluster c f).mem = s.mem := rfl
@[simp] theorem State.updCluster_hostMem (s : State) (c : Nat) (f : Cluster → Cluster) : (s.updCluster c f).hostMem = s.hostMem := rfl
@[simp] theorem State.updCluster_hostLines (s : State) (c : Nat) (f : Cluster → Cluster) : (s.updCluster c f).hostLines = s.hostLines := rfl
@[simp] theorem State.updCluster_proxy (s : State) (c : Nat) (f : Cluster → Cluster) : (s.updCluster c f).proxy = s.proxy := rfl
@[simp] theorem State.updCluster_hostReplies (s : State) (c : Nat) (f : Cluster → Cluster) : (s.updCluster c f).hostReplies = s.hostReplies := rfl
@[simp] theorem State.updCluster_tlb (s : State) (c : Nat) (f : Cluster → Cluster) : (s.updCluster c f).tlb = s.tlb := rfl
@[simp] theorem State.updCluster_tlbPtrs (s : State) (c : Nat) (f : Cluster → Cluster) : (s.updCluster c f).tlbPtrs = s.tlbPtrs := rfl
@[simp] theorem State.updCluster_cycle (s : State) (c : Nat) (f : Cluster → Cluster) : (s.updCluster c f).cycle = s.cycle := rfl
@[simp] theorem State.updCluster_grids (s : State) (c : Nat) (f : Cluster → Cluster) : (s.updCluster c f).grids = s.grids := rfl
@[simp] theorem State.updCluster_blocks (s : State) (c : Nat) (f : Cluster → Cluster) : (s.updCluster c f).blocks = s.blocks := rfl
@[simp] theorem State.updCluster_cores (s : State) (c : Nat) (f : Cluster → Cluster) : (s.updCluster c f).cores = s.cores := rfl
@[simp] theorem State.updCluster_tiles (s : State) (c : Nat) (f : Cluster → Cluster) : (s.updCluster c f).tiles = s.tiles := rfl
@[simp] theorem State.updCluster_wheels (s : State) (c : Nat) (f : Cluster → Cluster) : (s.updCluster c f).wheels = s.wheels := rfl
@[simp] theorem State.updCluster_views (s : State) (c : Nat) (f : Cluster → Cluster) : (s.updCluster c f).views = s.views := rfl
@[simp] theorem State.updCluster_slots (s : State) (c : Nat) (f : Cluster → Cluster) : (s.updCluster c f).slots = s.slots := rfl
@[simp] theorem State.updCluster_fantail (s : State) (c : Nat) (f : Cluster → Cluster) : (s.updCluster c f).fantail = s.fantail := rfl
@[simp] theorem State.updCluster_foreign (s : State) (c : Nat) (f : Cluster → Cluster) : (s.updCluster c f).foreign = s.foreign := rfl
@[simp] theorem State.updCluster_engines (s : State) (c : Nat) (f : Cluster → Cluster) : (s.updCluster c f).engines = s.engines := rfl
@[simp] theorem State.updCluster_pending (s : State) (c : Nat) (f : Cluster → Cluster) : (s.updCluster c f).pending = s.pending := rfl
@[simp] theorem State.updCluster_lastServed (s : State) (c : Nat) (f : Cluster → Cluster) : (s.updCluster c f).lastServed = s.lastServed := rfl
@[simp] theorem State.updCluster_issue (s : State) (c : Nat) (f : Cluster → Cluster) : (s.updCluster c f).issue = s.issue := rfl
@[simp] theorem State.updCluster_inputs (s : State) (c : Nat) (f : Cluster → Cluster) : (s.updCluster c f).inputs = s.inputs := rfl
@[simp] theorem State.updCluster_due (s : State) (c : Nat) (f : Cluster → Cluster) : (s.updCluster c f).due = s.due := rfl
@[simp] theorem State.updCluster_freeCtr (s : State) (c : Nat) (f : Cluster → Cluster) : (s.updCluster c f).freeCtr = s.freeCtr := rfl
@[simp] theorem State.updCluster_nextUid (s : State) (c : Nat) (f : Cluster → Cluster) : (s.updCluster c f).nextUid = s.nextUid := rfl

/-! ## State.tick -/

@[simp] theorem State.tick_pkg (s : State) : (s.tick).pkg = s.pkg := rfl
@[simp] theorem State.tick_fabric (s : State) : (s.tick).fabric = s.fabric := rfl
@[simp] theorem State.tick_tenants (s : State) : (s.tick).tenants = s.tenants := rfl
@[simp] theorem State.tick_mem (s : State) : (s.tick).mem = s.mem := rfl
@[simp] theorem State.tick_hostMem (s : State) : (s.tick).hostMem = s.hostMem := rfl
@[simp] theorem State.tick_hostLines (s : State) : (s.tick).hostLines = s.hostLines := rfl
@[simp] theorem State.tick_proxy (s : State) : (s.tick).proxy = s.proxy := rfl
@[simp] theorem State.tick_hostReplies (s : State) : (s.tick).hostReplies = s.hostReplies := rfl
@[simp] theorem State.tick_tlb (s : State) : (s.tick).tlb = s.tlb := rfl
@[simp] theorem State.tick_tlbPtrs (s : State) : (s.tick).tlbPtrs = s.tlbPtrs := rfl
@[simp] theorem State.tick_cycle (s : State) : (s.tick).cycle = s.cycle := rfl
@[simp] theorem State.tick_grids (s : State) : (s.tick).grids = s.grids := rfl
@[simp] theorem State.tick_blocks (s : State) : (s.tick).blocks = s.blocks := rfl
@[simp] theorem State.tick_clusters (s : State) : (s.tick).clusters = s.clusters := rfl
@[simp] theorem State.tick_cores (s : State) : (s.tick).cores = s.cores := rfl
@[simp] theorem State.tick_tiles (s : State) : (s.tick).tiles = s.tiles := rfl
@[simp] theorem State.tick_wheels (s : State) : (s.tick).wheels = s.wheels := rfl
@[simp] theorem State.tick_views (s : State) : (s.tick).views = s.views := rfl
@[simp] theorem State.tick_slots (s : State) : (s.tick).slots = s.slots := rfl
@[simp] theorem State.tick_fantail (s : State) : (s.tick).fantail = s.fantail := rfl
@[simp] theorem State.tick_foreign (s : State) : (s.tick).foreign = s.foreign := rfl
@[simp] theorem State.tick_engines (s : State) : (s.tick).engines = s.engines := rfl
@[simp] theorem State.tick_pending (s : State) : (s.tick).pending = s.pending := rfl
@[simp] theorem State.tick_lastServed (s : State) : (s.tick).lastServed = s.lastServed := rfl
@[simp] theorem State.tick_issue (s : State) : (s.tick).issue = s.issue := rfl
@[simp] theorem State.tick_inputs (s : State) : (s.tick).inputs = s.inputs := rfl
@[simp] theorem State.tick_due (s : State) : (s.tick).due = s.due := rfl
@[simp] theorem State.tick_nextUid (s : State) : (s.tick).nextUid = s.nextUid := rfl

/-! ## State.updGrid -/

@[simp] theorem State.updGrid_pkg (s : State) (g : Nat) (f : Grid → Grid) : (s.updGrid g f).pkg = s.pkg := by unfold State.updGrid; split <;> rfl
@[simp] theorem State.updGrid_fabric (s : State) (g : Nat) (f : Grid → Grid) : (s.updGrid g f).fabric = s.fabric := by unfold State.updGrid; split <;> rfl
@[simp] theorem State.updGrid_tenants (s : State) (g : Nat) (f : Grid → Grid) : (s.updGrid g f).tenants = s.tenants := by unfold State.updGrid; split <;> rfl
@[simp] theorem State.updGrid_mem (s : State) (g : Nat) (f : Grid → Grid) : (s.updGrid g f).mem = s.mem := by unfold State.updGrid; split <;> rfl
@[simp] theorem State.updGrid_hostMem (s : State) (g : Nat) (f : Grid → Grid) : (s.updGrid g f).hostMem = s.hostMem := by unfold State.updGrid; split <;> rfl
@[simp] theorem State.updGrid_hostLines (s : State) (g : Nat) (f : Grid → Grid) : (s.updGrid g f).hostLines = s.hostLines := by unfold State.updGrid; split <;> rfl
@[simp] theorem State.updGrid_proxy (s : State) (g : Nat) (f : Grid → Grid) : (s.updGrid g f).proxy = s.proxy := by unfold State.updGrid; split <;> rfl
@[simp] theorem State.updGrid_hostReplies (s : State) (g : Nat) (f : Grid → Grid) : (s.updGrid g f).hostReplies = s.hostReplies := by unfold State.updGrid; split <;> rfl
@[simp] theorem State.updGrid_tlb (s : State) (g : Nat) (f : Grid → Grid) : (s.updGrid g f).tlb = s.tlb := by unfold State.updGrid; split <;> rfl
@[simp] theorem State.updGrid_tlbPtrs (s : State) (g : Nat) (f : Grid → Grid) : (s.updGrid g f).tlbPtrs = s.tlbPtrs := by unfold State.updGrid; split <;> rfl
@[simp] theorem State.updGrid_cycle (s : State) (g : Nat) (f : Grid → Grid) : (s.updGrid g f).cycle = s.cycle := by unfold State.updGrid; split <;> rfl
@[simp] theorem State.updGrid_blocks (s : State) (g : Nat) (f : Grid → Grid) : (s.updGrid g f).blocks = s.blocks := by unfold State.updGrid; split <;> rfl
@[simp] theorem State.updGrid_clusters (s : State) (g : Nat) (f : Grid → Grid) : (s.updGrid g f).clusters = s.clusters := by unfold State.updGrid; split <;> rfl
@[simp] theorem State.updGrid_cores (s : State) (g : Nat) (f : Grid → Grid) : (s.updGrid g f).cores = s.cores := by unfold State.updGrid; split <;> rfl
@[simp] theorem State.updGrid_tiles (s : State) (g : Nat) (f : Grid → Grid) : (s.updGrid g f).tiles = s.tiles := by unfold State.updGrid; split <;> rfl
@[simp] theorem State.updGrid_wheels (s : State) (g : Nat) (f : Grid → Grid) : (s.updGrid g f).wheels = s.wheels := by unfold State.updGrid; split <;> rfl
@[simp] theorem State.updGrid_views (s : State) (g : Nat) (f : Grid → Grid) : (s.updGrid g f).views = s.views := by unfold State.updGrid; split <;> rfl
@[simp] theorem State.updGrid_slots (s : State) (g : Nat) (f : Grid → Grid) : (s.updGrid g f).slots = s.slots := by unfold State.updGrid; split <;> rfl
@[simp] theorem State.updGrid_fantail (s : State) (g : Nat) (f : Grid → Grid) : (s.updGrid g f).fantail = s.fantail := by unfold State.updGrid; split <;> rfl
@[simp] theorem State.updGrid_foreign (s : State) (g : Nat) (f : Grid → Grid) : (s.updGrid g f).foreign = s.foreign := by unfold State.updGrid; split <;> rfl
@[simp] theorem State.updGrid_engines (s : State) (g : Nat) (f : Grid → Grid) : (s.updGrid g f).engines = s.engines := by unfold State.updGrid; split <;> rfl
@[simp] theorem State.updGrid_pending (s : State) (g : Nat) (f : Grid → Grid) : (s.updGrid g f).pending = s.pending := by unfold State.updGrid; split <;> rfl
@[simp] theorem State.updGrid_lastServed (s : State) (g : Nat) (f : Grid → Grid) : (s.updGrid g f).lastServed = s.lastServed := by unfold State.updGrid; split <;> rfl
@[simp] theorem State.updGrid_issue (s : State) (g : Nat) (f : Grid → Grid) : (s.updGrid g f).issue = s.issue := by unfold State.updGrid; split <;> rfl
@[simp] theorem State.updGrid_inputs (s : State) (g : Nat) (f : Grid → Grid) : (s.updGrid g f).inputs = s.inputs := by unfold State.updGrid; split <;> rfl
@[simp] theorem State.updGrid_due (s : State) (g : Nat) (f : Grid → Grid) : (s.updGrid g f).due = s.due := by unfold State.updGrid; split <;> rfl
@[simp] theorem State.updGrid_freeCtr (s : State) (g : Nat) (f : Grid → Grid) : (s.updGrid g f).freeCtr = s.freeCtr := by unfold State.updGrid; split <;> rfl
@[simp] theorem State.updGrid_nextUid (s : State) (g : Nat) (f : Grid → Grid) : (s.updGrid g f).nextUid = s.nextUid := by unfold State.updGrid; split <;> rfl

/-! ## State.updBlock -/

@[simp] theorem State.updBlock_pkg (s : State) (b : Nat) (f : Block → Block) : (s.updBlock b f).pkg = s.pkg := by unfold State.updBlock; split <;> rfl
@[simp] theorem State.updBlock_fabric (s : State) (b : Nat) (f : Block → Block) : (s.updBlock b f).fabric = s.fabric := by unfold State.updBlock; split <;> rfl
@[simp] theorem State.updBlock_tenants (s : State) (b : Nat) (f : Block → Block) : (s.updBlock b f).tenants = s.tenants := by unfold State.updBlock; split <;> rfl
@[simp] theorem State.updBlock_mem (s : State) (b : Nat) (f : Block → Block) : (s.updBlock b f).mem = s.mem := by unfold State.updBlock; split <;> rfl
@[simp] theorem State.updBlock_hostMem (s : State) (b : Nat) (f : Block → Block) : (s.updBlock b f).hostMem = s.hostMem := by unfold State.updBlock; split <;> rfl
@[simp] theorem State.updBlock_hostLines (s : State) (b : Nat) (f : Block → Block) : (s.updBlock b f).hostLines = s.hostLines := by unfold State.updBlock; split <;> rfl
@[simp] theorem State.updBlock_proxy (s : State) (b : Nat) (f : Block → Block) : (s.updBlock b f).proxy = s.proxy := by unfold State.updBlock; split <;> rfl
@[simp] theorem State.updBlock_hostReplies (s : State) (b : Nat) (f : Block → Block) : (s.updBlock b f).hostReplies = s.hostReplies := by unfold State.updBlock; split <;> rfl
@[simp] theorem State.updBlock_tlb (s : State) (b : Nat) (f : Block → Block) : (s.updBlock b f).tlb = s.tlb := by unfold State.updBlock; split <;> rfl
@[simp] theorem State.updBlock_tlbPtrs (s : State) (b : Nat) (f : Block → Block) : (s.updBlock b f).tlbPtrs = s.tlbPtrs := by unfold State.updBlock; split <;> rfl
@[simp] theorem State.updBlock_cycle (s : State) (b : Nat) (f : Block → Block) : (s.updBlock b f).cycle = s.cycle := by unfold State.updBlock; split <;> rfl
@[simp] theorem State.updBlock_grids (s : State) (b : Nat) (f : Block → Block) : (s.updBlock b f).grids = s.grids := by unfold State.updBlock; split <;> rfl
@[simp] theorem State.updBlock_clusters (s : State) (b : Nat) (f : Block → Block) : (s.updBlock b f).clusters = s.clusters := by unfold State.updBlock; split <;> rfl
@[simp] theorem State.updBlock_cores (s : State) (b : Nat) (f : Block → Block) : (s.updBlock b f).cores = s.cores := by unfold State.updBlock; split <;> rfl
@[simp] theorem State.updBlock_tiles (s : State) (b : Nat) (f : Block → Block) : (s.updBlock b f).tiles = s.tiles := by unfold State.updBlock; split <;> rfl
@[simp] theorem State.updBlock_wheels (s : State) (b : Nat) (f : Block → Block) : (s.updBlock b f).wheels = s.wheels := by unfold State.updBlock; split <;> rfl
@[simp] theorem State.updBlock_views (s : State) (b : Nat) (f : Block → Block) : (s.updBlock b f).views = s.views := by unfold State.updBlock; split <;> rfl
@[simp] theorem State.updBlock_slots (s : State) (b : Nat) (f : Block → Block) : (s.updBlock b f).slots = s.slots := by unfold State.updBlock; split <;> rfl
@[simp] theorem State.updBlock_fantail (s : State) (b : Nat) (f : Block → Block) : (s.updBlock b f).fantail = s.fantail := by unfold State.updBlock; split <;> rfl
@[simp] theorem State.updBlock_foreign (s : State) (b : Nat) (f : Block → Block) : (s.updBlock b f).foreign = s.foreign := by unfold State.updBlock; split <;> rfl
@[simp] theorem State.updBlock_engines (s : State) (b : Nat) (f : Block → Block) : (s.updBlock b f).engines = s.engines := by unfold State.updBlock; split <;> rfl
@[simp] theorem State.updBlock_pending (s : State) (b : Nat) (f : Block → Block) : (s.updBlock b f).pending = s.pending := by unfold State.updBlock; split <;> rfl
@[simp] theorem State.updBlock_lastServed (s : State) (b : Nat) (f : Block → Block) : (s.updBlock b f).lastServed = s.lastServed := by unfold State.updBlock; split <;> rfl
@[simp] theorem State.updBlock_issue (s : State) (b : Nat) (f : Block → Block) : (s.updBlock b f).issue = s.issue := by unfold State.updBlock; split <;> rfl
@[simp] theorem State.updBlock_inputs (s : State) (b : Nat) (f : Block → Block) : (s.updBlock b f).inputs = s.inputs := by unfold State.updBlock; split <;> rfl
@[simp] theorem State.updBlock_due (s : State) (b : Nat) (f : Block → Block) : (s.updBlock b f).due = s.due := by unfold State.updBlock; split <;> rfl
@[simp] theorem State.updBlock_freeCtr (s : State) (b : Nat) (f : Block → Block) : (s.updBlock b f).freeCtr = s.freeCtr := by unfold State.updBlock; split <;> rfl
@[simp] theorem State.updBlock_nextUid (s : State) (b : Nat) (f : Block → Block) : (s.updBlock b f).nextUid = s.nextUid := by unfold State.updBlock; split <;> rfl

/-! ## State.updThread -/

@[simp] theorem State.updThread_pkg (s : State) (b t : Nat) (f : Thread → Thread) : (s.updThread b t f).pkg = s.pkg := State.updBlock_pkg s b _
@[simp] theorem State.updThread_fabric (s : State) (b t : Nat) (f : Thread → Thread) : (s.updThread b t f).fabric = s.fabric := State.updBlock_fabric s b _
@[simp] theorem State.updThread_tenants (s : State) (b t : Nat) (f : Thread → Thread) : (s.updThread b t f).tenants = s.tenants := State.updBlock_tenants s b _
@[simp] theorem State.updThread_mem (s : State) (b t : Nat) (f : Thread → Thread) : (s.updThread b t f).mem = s.mem := State.updBlock_mem s b _
@[simp] theorem State.updThread_hostMem (s : State) (b t : Nat) (f : Thread → Thread) : (s.updThread b t f).hostMem = s.hostMem := State.updBlock_hostMem s b _
@[simp] theorem State.updThread_hostLines (s : State) (b t : Nat) (f : Thread → Thread) : (s.updThread b t f).hostLines = s.hostLines := State.updBlock_hostLines s b _
@[simp] theorem State.updThread_proxy (s : State) (b t : Nat) (f : Thread → Thread) : (s.updThread b t f).proxy = s.proxy := State.updBlock_proxy s b _
@[simp] theorem State.updThread_hostReplies (s : State) (b t : Nat) (f : Thread → Thread) : (s.updThread b t f).hostReplies = s.hostReplies := State.updBlock_hostReplies s b _
@[simp] theorem State.updThread_tlb (s : State) (b t : Nat) (f : Thread → Thread) : (s.updThread b t f).tlb = s.tlb := State.updBlock_tlb s b _
@[simp] theorem State.updThread_tlbPtrs (s : State) (b t : Nat) (f : Thread → Thread) : (s.updThread b t f).tlbPtrs = s.tlbPtrs := State.updBlock_tlbPtrs s b _
@[simp] theorem State.updThread_cycle (s : State) (b t : Nat) (f : Thread → Thread) : (s.updThread b t f).cycle = s.cycle := State.updBlock_cycle s b _
@[simp] theorem State.updThread_grids (s : State) (b t : Nat) (f : Thread → Thread) : (s.updThread b t f).grids = s.grids := State.updBlock_grids s b _
@[simp] theorem State.updThread_clusters (s : State) (b t : Nat) (f : Thread → Thread) : (s.updThread b t f).clusters = s.clusters := State.updBlock_clusters s b _
@[simp] theorem State.updThread_cores (s : State) (b t : Nat) (f : Thread → Thread) : (s.updThread b t f).cores = s.cores := State.updBlock_cores s b _
@[simp] theorem State.updThread_tiles (s : State) (b t : Nat) (f : Thread → Thread) : (s.updThread b t f).tiles = s.tiles := State.updBlock_tiles s b _
@[simp] theorem State.updThread_wheels (s : State) (b t : Nat) (f : Thread → Thread) : (s.updThread b t f).wheels = s.wheels := State.updBlock_wheels s b _
@[simp] theorem State.updThread_views (s : State) (b t : Nat) (f : Thread → Thread) : (s.updThread b t f).views = s.views := State.updBlock_views s b _
@[simp] theorem State.updThread_slots (s : State) (b t : Nat) (f : Thread → Thread) : (s.updThread b t f).slots = s.slots := State.updBlock_slots s b _
@[simp] theorem State.updThread_fantail (s : State) (b t : Nat) (f : Thread → Thread) : (s.updThread b t f).fantail = s.fantail := State.updBlock_fantail s b _
@[simp] theorem State.updThread_foreign (s : State) (b t : Nat) (f : Thread → Thread) : (s.updThread b t f).foreign = s.foreign := State.updBlock_foreign s b _
@[simp] theorem State.updThread_engines (s : State) (b t : Nat) (f : Thread → Thread) : (s.updThread b t f).engines = s.engines := State.updBlock_engines s b _
@[simp] theorem State.updThread_pending (s : State) (b t : Nat) (f : Thread → Thread) : (s.updThread b t f).pending = s.pending := State.updBlock_pending s b _
@[simp] theorem State.updThread_lastServed (s : State) (b t : Nat) (f : Thread → Thread) : (s.updThread b t f).lastServed = s.lastServed := State.updBlock_lastServed s b _
@[simp] theorem State.updThread_issue (s : State) (b t : Nat) (f : Thread → Thread) : (s.updThread b t f).issue = s.issue := State.updBlock_issue s b _
@[simp] theorem State.updThread_inputs (s : State) (b t : Nat) (f : Thread → Thread) : (s.updThread b t f).inputs = s.inputs := State.updBlock_inputs s b _
@[simp] theorem State.updThread_due (s : State) (b t : Nat) (f : Thread → Thread) : (s.updThread b t f).due = s.due := State.updBlock_due s b _
@[simp] theorem State.updThread_freeCtr (s : State) (b t : Nat) (f : Thread → Thread) : (s.updThread b t f).freeCtr = s.freeCtr := State.updBlock_freeCtr s b _
@[simp] theorem State.updThread_nextUid (s : State) (b t : Nat) (f : Thread → Thread) : (s.updThread b t f).nextUid = s.nextUid := State.updBlock_nextUid s b _

/-! ## Thread.setReg -/

@[simp] theorem Thread.setReg_preds (th : Thread) (r : Nat) (v : Word) : (th.setReg r v).preds = th.preds := by unfold Thread.setReg; split <;> rfl
@[simp] theorem Thread.setReg_flags (th : Thread) (r : Nat) (v : Word) : (th.setReg r v).flags = th.flags := by unfold Thread.setReg; split <;> rfl
@[simp] theorem Thread.setReg_fpcr (th : Thread) (r : Nat) (v : Word) : (th.setReg r v).fpcr = th.fpcr := by unfold Thread.setReg; split <;> rfl
@[simp] theorem Thread.setReg_fpsr (th : Thread) (r : Nat) (v : Word) : (th.setReg r v).fpsr = th.fpsr := by unfold Thread.setReg; split <;> rfl
@[simp] theorem Thread.setReg_pc (th : Thread) (r : Nat) (v : Word) : (th.setReg r v).pc = th.pc := by unfold Thread.setReg; split <;> rfl
@[simp] theorem Thread.setReg_clpos (th : Thread) (r : Nat) (v : Word) : (th.setReg r v).clpos = th.clpos := by unfold Thread.setReg; split <;> rfl
@[simp] theorem Thread.setReg_hm (th : Thread) (r : Nat) (v : Word) : (th.setReg r v).hm = th.hm := by unfold Thread.setReg; split <;> rfl
@[simp] theorem Thread.setReg_trec (th : Thread) (r : Nat) (v : Word) : (th.setReg r v).trec = th.trec := by unfold Thread.setReg; split <;> rfl
@[simp] theorem Thread.setReg_rngCtr (th : Thread) (r : Nat) (v : Word) : (th.setReg r v).rngCtr = th.rngCtr := by unfold Thread.setReg; split <;> rfl
@[simp] theorem Thread.setReg_relaunch (th : Thread) (r : Nat) (v : Word) : (th.setReg r v).relaunch = th.relaunch := by unfold Thread.setReg; split <;> rfl
@[simp] theorem Thread.setReg_forks (th : Thread) (r : Nat) (v : Word) : (th.setReg r v).forks = th.forks := by unfold Thread.setReg; split <;> rfl
@[simp] theorem Thread.setReg_retired (th : Thread) (r : Nat) (v : Word) : (th.setReg r v).retired = th.retired := by unfold Thread.setReg; split <;> rfl
@[simp] theorem Thread.setReg_turnRetired (th : Thread) (r : Nat) (v : Word) : (th.setReg r v).turnRetired = th.turnRetired := by unfold Thread.setReg; split <;> rfl
@[simp] theorem Thread.setReg_status (th : Thread) (r : Nat) (v : Word) : (th.setReg r v).status = th.status := by unfold Thread.setReg; split <;> rfl
@[simp] theorem Thread.setReg_marks (th : Thread) (r : Nat) (v : Word) : (th.setReg r v).marks = th.marks := by unfold Thread.setReg; split <;> rfl
@[simp] theorem Thread.setReg_after (th : Thread) (r : Nat) (v : Word) : (th.setReg r v).after = th.after := by unfold Thread.setReg; split <;> rfl
@[simp] theorem Thread.setReg_keep (th : Thread) (r : Nat) (v : Word) : (th.setReg r v).keep = th.keep := by unfold Thread.setReg; split <;> rfl
@[simp] theorem Thread.setReg_slotSince (th : Thread) (r : Nat) (v : Word) : (th.setReg r v).slotSince = th.slotSince := by unfold Thread.setReg; split <;> rfl
@[simp] theorem Thread.setReg_released (th : Thread) (r : Nat) (v : Word) : (th.setReg r v).released = th.released := by unfold Thread.setReg; split <;> rfl
@[simp] theorem Thread.setReg_owed (th : Thread) (r : Nat) (v : Word) : (th.setReg r v).owed = th.owed := by unfold Thread.setReg; split <;> rfl
@[simp] theorem Thread.setReg_pages (th : Thread) (r : Nat) (v : Word) : (th.setReg r v).pages = th.pages := by unfold Thread.setReg; split <;> rfl
@[simp] theorem Thread.setReg_captured (th : Thread) (r : Nat) (v : Word) : (th.setReg r v).captured = th.captured := by unfold Thread.setReg; split <;> rfl

/-! ## Thread.setPred -/

@[simp] theorem Thread.setPred_regs (th : Thread) (p : Nat) (v : Bool) : (th.setPred p v).regs = th.regs := by unfold Thread.setPred; split <;> rfl
@[simp] theorem Thread.setPred_flags (th : Thread) (p : Nat) (v : Bool) : (th.setPred p v).flags = th.flags := by unfold Thread.setPred; split <;> rfl
@[simp] theorem Thread.setPred_fpcr (th : Thread) (p : Nat) (v : Bool) : (th.setPred p v).fpcr = th.fpcr := by unfold Thread.setPred; split <;> rfl
@[simp] theorem Thread.setPred_fpsr (th : Thread) (p : Nat) (v : Bool) : (th.setPred p v).fpsr = th.fpsr := by unfold Thread.setPred; split <;> rfl
@[simp] theorem Thread.setPred_pc (th : Thread) (p : Nat) (v : Bool) : (th.setPred p v).pc = th.pc := by unfold Thread.setPred; split <;> rfl
@[simp] theorem Thread.setPred_clpos (th : Thread) (p : Nat) (v : Bool) : (th.setPred p v).clpos = th.clpos := by unfold Thread.setPred; split <;> rfl
@[simp] theorem Thread.setPred_hm (th : Thread) (p : Nat) (v : Bool) : (th.setPred p v).hm = th.hm := by unfold Thread.setPred; split <;> rfl
@[simp] theorem Thread.setPred_trec (th : Thread) (p : Nat) (v : Bool) : (th.setPred p v).trec = th.trec := by unfold Thread.setPred; split <;> rfl
@[simp] theorem Thread.setPred_rngCtr (th : Thread) (p : Nat) (v : Bool) : (th.setPred p v).rngCtr = th.rngCtr := by unfold Thread.setPred; split <;> rfl
@[simp] theorem Thread.setPred_relaunch (th : Thread) (p : Nat) (v : Bool) : (th.setPred p v).relaunch = th.relaunch := by unfold Thread.setPred; split <;> rfl
@[simp] theorem Thread.setPred_forks (th : Thread) (p : Nat) (v : Bool) : (th.setPred p v).forks = th.forks := by unfold Thread.setPred; split <;> rfl
@[simp] theorem Thread.setPred_retired (th : Thread) (p : Nat) (v : Bool) : (th.setPred p v).retired = th.retired := by unfold Thread.setPred; split <;> rfl
@[simp] theorem Thread.setPred_turnRetired (th : Thread) (p : Nat) (v : Bool) : (th.setPred p v).turnRetired = th.turnRetired := by unfold Thread.setPred; split <;> rfl
@[simp] theorem Thread.setPred_status (th : Thread) (p : Nat) (v : Bool) : (th.setPred p v).status = th.status := by unfold Thread.setPred; split <;> rfl
@[simp] theorem Thread.setPred_marks (th : Thread) (p : Nat) (v : Bool) : (th.setPred p v).marks = th.marks := by unfold Thread.setPred; split <;> rfl
@[simp] theorem Thread.setPred_after (th : Thread) (p : Nat) (v : Bool) : (th.setPred p v).after = th.after := by unfold Thread.setPred; split <;> rfl
@[simp] theorem Thread.setPred_keep (th : Thread) (p : Nat) (v : Bool) : (th.setPred p v).keep = th.keep := by unfold Thread.setPred; split <;> rfl
@[simp] theorem Thread.setPred_slotSince (th : Thread) (p : Nat) (v : Bool) : (th.setPred p v).slotSince = th.slotSince := by unfold Thread.setPred; split <;> rfl
@[simp] theorem Thread.setPred_released (th : Thread) (p : Nat) (v : Bool) : (th.setPred p v).released = th.released := by unfold Thread.setPred; split <;> rfl
@[simp] theorem Thread.setPred_owed (th : Thread) (p : Nat) (v : Bool) : (th.setPred p v).owed = th.owed := by unfold Thread.setPred; split <;> rfl
@[simp] theorem Thread.setPred_pages (th : Thread) (p : Nat) (v : Bool) : (th.setPred p v).pages = th.pages := by unfold Thread.setPred; split <;> rfl
@[simp] theorem Thread.setPred_captured (th : Thread) (p : Nat) (v : Bool) : (th.setPred p v).captured = th.captured := by unfold Thread.setPred; split <;> rfl

/-! ## Thread.setFlag -/

@[simp] theorem Thread.setFlag_regs (th : Thread) (i : Nat) (v : Bool) : (th.setFlag i v).regs = th.regs := by unfold Thread.setFlag; split <;> rfl
@[simp] theorem Thread.setFlag_preds (th : Thread) (i : Nat) (v : Bool) : (th.setFlag i v).preds = th.preds := by unfold Thread.setFlag; split <;> rfl
@[simp] theorem Thread.setFlag_fpcr (th : Thread) (i : Nat) (v : Bool) : (th.setFlag i v).fpcr = th.fpcr := by unfold Thread.setFlag; split <;> rfl
@[simp] theorem Thread.setFlag_fpsr (th : Thread) (i : Nat) (v : Bool) : (th.setFlag i v).fpsr = th.fpsr := by unfold Thread.setFlag; split <;> rfl
@[simp] theorem Thread.setFlag_pc (th : Thread) (i : Nat) (v : Bool) : (th.setFlag i v).pc = th.pc := by unfold Thread.setFlag; split <;> rfl
@[simp] theorem Thread.setFlag_clpos (th : Thread) (i : Nat) (v : Bool) : (th.setFlag i v).clpos = th.clpos := by unfold Thread.setFlag; split <;> rfl
@[simp] theorem Thread.setFlag_hm (th : Thread) (i : Nat) (v : Bool) : (th.setFlag i v).hm = th.hm := by unfold Thread.setFlag; split <;> rfl
@[simp] theorem Thread.setFlag_trec (th : Thread) (i : Nat) (v : Bool) : (th.setFlag i v).trec = th.trec := by unfold Thread.setFlag; split <;> rfl
@[simp] theorem Thread.setFlag_rngCtr (th : Thread) (i : Nat) (v : Bool) : (th.setFlag i v).rngCtr = th.rngCtr := by unfold Thread.setFlag; split <;> rfl
@[simp] theorem Thread.setFlag_relaunch (th : Thread) (i : Nat) (v : Bool) : (th.setFlag i v).relaunch = th.relaunch := by unfold Thread.setFlag; split <;> rfl
@[simp] theorem Thread.setFlag_forks (th : Thread) (i : Nat) (v : Bool) : (th.setFlag i v).forks = th.forks := by unfold Thread.setFlag; split <;> rfl
@[simp] theorem Thread.setFlag_retired (th : Thread) (i : Nat) (v : Bool) : (th.setFlag i v).retired = th.retired := by unfold Thread.setFlag; split <;> rfl
@[simp] theorem Thread.setFlag_turnRetired (th : Thread) (i : Nat) (v : Bool) : (th.setFlag i v).turnRetired = th.turnRetired := by unfold Thread.setFlag; split <;> rfl
@[simp] theorem Thread.setFlag_status (th : Thread) (i : Nat) (v : Bool) : (th.setFlag i v).status = th.status := by unfold Thread.setFlag; split <;> rfl
@[simp] theorem Thread.setFlag_marks (th : Thread) (i : Nat) (v : Bool) : (th.setFlag i v).marks = th.marks := by unfold Thread.setFlag; split <;> rfl
@[simp] theorem Thread.setFlag_after (th : Thread) (i : Nat) (v : Bool) : (th.setFlag i v).after = th.after := by unfold Thread.setFlag; split <;> rfl
@[simp] theorem Thread.setFlag_keep (th : Thread) (i : Nat) (v : Bool) : (th.setFlag i v).keep = th.keep := by unfold Thread.setFlag; split <;> rfl
@[simp] theorem Thread.setFlag_slotSince (th : Thread) (i : Nat) (v : Bool) : (th.setFlag i v).slotSince = th.slotSince := by unfold Thread.setFlag; split <;> rfl
@[simp] theorem Thread.setFlag_released (th : Thread) (i : Nat) (v : Bool) : (th.setFlag i v).released = th.released := by unfold Thread.setFlag; split <;> rfl
@[simp] theorem Thread.setFlag_owed (th : Thread) (i : Nat) (v : Bool) : (th.setFlag i v).owed = th.owed := by unfold Thread.setFlag; split <;> rfl
@[simp] theorem Thread.setFlag_pages (th : Thread) (i : Nat) (v : Bool) : (th.setFlag i v).pages = th.pages := by unfold Thread.setFlag; split <;> rfl
@[simp] theorem Thread.setFlag_captured (th : Thread) (i : Nat) (v : Bool) : (th.setFlag i v).captured = th.captured := by unfold Thread.setFlag; split <;> rfl

/-! ## Thread.setTrec -/

@[simp] theorem Thread.setTrec_regs (th : Thread) (i : Nat) (v : Dword) : (th.setTrec i v).regs = th.regs := rfl
@[simp] theorem Thread.setTrec_preds (th : Thread) (i : Nat) (v : Dword) : (th.setTrec i v).preds = th.preds := rfl
@[simp] theorem Thread.setTrec_flags (th : Thread) (i : Nat) (v : Dword) : (th.setTrec i v).flags = th.flags := rfl
@[simp] theorem Thread.setTrec_fpcr (th : Thread) (i : Nat) (v : Dword) : (th.setTrec i v).fpcr = th.fpcr := rfl
@[simp] theorem Thread.setTrec_fpsr (th : Thread) (i : Nat) (v : Dword) : (th.setTrec i v).fpsr = th.fpsr := rfl
@[simp] theorem Thread.setTrec_pc (th : Thread) (i : Nat) (v : Dword) : (th.setTrec i v).pc = th.pc := rfl
@[simp] theorem Thread.setTrec_clpos (th : Thread) (i : Nat) (v : Dword) : (th.setTrec i v).clpos = th.clpos := rfl
@[simp] theorem Thread.setTrec_hm (th : Thread) (i : Nat) (v : Dword) : (th.setTrec i v).hm = th.hm := rfl
@[simp] theorem Thread.setTrec_rngCtr (th : Thread) (i : Nat) (v : Dword) : (th.setTrec i v).rngCtr = th.rngCtr := rfl
@[simp] theorem Thread.setTrec_relaunch (th : Thread) (i : Nat) (v : Dword) : (th.setTrec i v).relaunch = th.relaunch := rfl
@[simp] theorem Thread.setTrec_forks (th : Thread) (i : Nat) (v : Dword) : (th.setTrec i v).forks = th.forks := rfl
@[simp] theorem Thread.setTrec_retired (th : Thread) (i : Nat) (v : Dword) : (th.setTrec i v).retired = th.retired := rfl
@[simp] theorem Thread.setTrec_turnRetired (th : Thread) (i : Nat) (v : Dword) : (th.setTrec i v).turnRetired = th.turnRetired := rfl
@[simp] theorem Thread.setTrec_status (th : Thread) (i : Nat) (v : Dword) : (th.setTrec i v).status = th.status := rfl
@[simp] theorem Thread.setTrec_marks (th : Thread) (i : Nat) (v : Dword) : (th.setTrec i v).marks = th.marks := rfl
@[simp] theorem Thread.setTrec_after (th : Thread) (i : Nat) (v : Dword) : (th.setTrec i v).after = th.after := rfl
@[simp] theorem Thread.setTrec_keep (th : Thread) (i : Nat) (v : Dword) : (th.setTrec i v).keep = th.keep := rfl
@[simp] theorem Thread.setTrec_slotSince (th : Thread) (i : Nat) (v : Dword) : (th.setTrec i v).slotSince = th.slotSince := rfl
@[simp] theorem Thread.setTrec_released (th : Thread) (i : Nat) (v : Dword) : (th.setTrec i v).released = th.released := rfl
@[simp] theorem Thread.setTrec_owed (th : Thread) (i : Nat) (v : Dword) : (th.setTrec i v).owed = th.owed := rfl
@[simp] theorem Thread.setTrec_pages (th : Thread) (i : Nat) (v : Dword) : (th.setTrec i v).pages = th.pages := rfl
@[simp] theorem Thread.setTrec_captured (th : Thread) (i : Nat) (v : Dword) : (th.setTrec i v).captured = th.captured := rfl

/-! ## Thread.raise -/

@[simp] theorem Thread.raise_regs (th : Thread) (f : BitVec 5) : (th.raise f).regs = th.regs := rfl
@[simp] theorem Thread.raise_preds (th : Thread) (f : BitVec 5) : (th.raise f).preds = th.preds := rfl
@[simp] theorem Thread.raise_flags (th : Thread) (f : BitVec 5) : (th.raise f).flags = th.flags := rfl
@[simp] theorem Thread.raise_fpcr (th : Thread) (f : BitVec 5) : (th.raise f).fpcr = th.fpcr := rfl
@[simp] theorem Thread.raise_pc (th : Thread) (f : BitVec 5) : (th.raise f).pc = th.pc := rfl
@[simp] theorem Thread.raise_clpos (th : Thread) (f : BitVec 5) : (th.raise f).clpos = th.clpos := rfl
@[simp] theorem Thread.raise_hm (th : Thread) (f : BitVec 5) : (th.raise f).hm = th.hm := rfl
@[simp] theorem Thread.raise_trec (th : Thread) (f : BitVec 5) : (th.raise f).trec = th.trec := rfl
@[simp] theorem Thread.raise_rngCtr (th : Thread) (f : BitVec 5) : (th.raise f).rngCtr = th.rngCtr := rfl
@[simp] theorem Thread.raise_relaunch (th : Thread) (f : BitVec 5) : (th.raise f).relaunch = th.relaunch := rfl
@[simp] theorem Thread.raise_forks (th : Thread) (f : BitVec 5) : (th.raise f).forks = th.forks := rfl
@[simp] theorem Thread.raise_retired (th : Thread) (f : BitVec 5) : (th.raise f).retired = th.retired := rfl
@[simp] theorem Thread.raise_turnRetired (th : Thread) (f : BitVec 5) : (th.raise f).turnRetired = th.turnRetired := rfl
@[simp] theorem Thread.raise_status (th : Thread) (f : BitVec 5) : (th.raise f).status = th.status := rfl
@[simp] theorem Thread.raise_marks (th : Thread) (f : BitVec 5) : (th.raise f).marks = th.marks := rfl
@[simp] theorem Thread.raise_after (th : Thread) (f : BitVec 5) : (th.raise f).after = th.after := rfl
@[simp] theorem Thread.raise_keep (th : Thread) (f : BitVec 5) : (th.raise f).keep = th.keep := rfl
@[simp] theorem Thread.raise_slotSince (th : Thread) (f : BitVec 5) : (th.raise f).slotSince = th.slotSince := rfl
@[simp] theorem Thread.raise_released (th : Thread) (f : BitVec 5) : (th.raise f).released = th.released := rfl
@[simp] theorem Thread.raise_owed (th : Thread) (f : BitVec 5) : (th.raise f).owed = th.owed := rfl
@[simp] theorem Thread.raise_pages (th : Thread) (f : BitVec 5) : (th.raise f).pages = th.pages := rfl
@[simp] theorem Thread.raise_captured (th : Thread) (f : BitVec 5) : (th.raise f).captured = th.captured := rfl

/-! ## Thread.clearPx -/

@[simp] theorem Thread.clearPx_regs (th : Thread) : (th.clearPx).regs = th.regs := rfl
@[simp] theorem Thread.clearPx_preds (th : Thread) : (th.clearPx).preds = th.preds := rfl
@[simp] theorem Thread.clearPx_flags (th : Thread) : (th.clearPx).flags = th.flags := rfl
@[simp] theorem Thread.clearPx_fpcr (th : Thread) : (th.clearPx).fpcr = th.fpcr := rfl
@[simp] theorem Thread.clearPx_pc (th : Thread) : (th.clearPx).pc = th.pc := rfl
@[simp] theorem Thread.clearPx_clpos (th : Thread) : (th.clearPx).clpos = th.clpos := rfl
@[simp] theorem Thread.clearPx_hm (th : Thread) : (th.clearPx).hm = th.hm := rfl
@[simp] theorem Thread.clearPx_trec (th : Thread) : (th.clearPx).trec = th.trec := rfl
@[simp] theorem Thread.clearPx_rngCtr (th : Thread) : (th.clearPx).rngCtr = th.rngCtr := rfl
@[simp] theorem Thread.clearPx_relaunch (th : Thread) : (th.clearPx).relaunch = th.relaunch := rfl
@[simp] theorem Thread.clearPx_forks (th : Thread) : (th.clearPx).forks = th.forks := rfl
@[simp] theorem Thread.clearPx_retired (th : Thread) : (th.clearPx).retired = th.retired := rfl
@[simp] theorem Thread.clearPx_turnRetired (th : Thread) : (th.clearPx).turnRetired = th.turnRetired := rfl
@[simp] theorem Thread.clearPx_status (th : Thread) : (th.clearPx).status = th.status := rfl
@[simp] theorem Thread.clearPx_marks (th : Thread) : (th.clearPx).marks = th.marks := rfl
@[simp] theorem Thread.clearPx_after (th : Thread) : (th.clearPx).after = th.after := rfl
@[simp] theorem Thread.clearPx_keep (th : Thread) : (th.clearPx).keep = th.keep := rfl
@[simp] theorem Thread.clearPx_slotSince (th : Thread) : (th.clearPx).slotSince = th.slotSince := rfl
@[simp] theorem Thread.clearPx_released (th : Thread) : (th.clearPx).released = th.released := rfl
@[simp] theorem Thread.clearPx_owed (th : Thread) : (th.clearPx).owed = th.owed := rfl
@[simp] theorem Thread.clearPx_pages (th : Thread) : (th.clearPx).pages = th.pages := rfl
@[simp] theorem Thread.clearPx_captured (th : Thread) : (th.clearPx).captured = th.captured := rfl

/-! ## Thread.setGroup -/

@[simp] theorem Thread.setGroup_preds (th : Thread) (r : Nat) (ws : List Word) : (th.setGroup r ws).preds = th.preds := by
  induction ws generalizing th r with
  | nil => rfl
  | cons w ws ih => simp only [Thread.setGroup]; split <;> simp [ih]

@[simp] theorem Thread.setGroup_flags (th : Thread) (r : Nat) (ws : List Word) : (th.setGroup r ws).flags = th.flags := by
  induction ws generalizing th r with
  | nil => rfl
  | cons w ws ih => simp only [Thread.setGroup]; split <;> simp [ih]

@[simp] theorem Thread.setGroup_fpcr (th : Thread) (r : Nat) (ws : List Word) : (th.setGroup r ws).fpcr = th.fpcr := by
  induction ws generalizing th r with
  | nil => rfl
  | cons w ws ih => simp only [Thread.setGroup]; split <;> simp [ih]

@[simp] theorem Thread.setGroup_fpsr (th : Thread) (r : Nat) (ws : List Word) : (th.setGroup r ws).fpsr = th.fpsr := by
  induction ws generalizing th r with
  | nil => rfl
  | cons w ws ih => simp only [Thread.setGroup]; split <;> simp [ih]

@[simp] theorem Thread.setGroup_pc (th : Thread) (r : Nat) (ws : List Word) : (th.setGroup r ws).pc = th.pc := by
  induction ws generalizing th r with
  | nil => rfl
  | cons w ws ih => simp only [Thread.setGroup]; split <;> simp [ih]

@[simp] theorem Thread.setGroup_clpos (th : Thread) (r : Nat) (ws : List Word) : (th.setGroup r ws).clpos = th.clpos := by
  induction ws generalizing th r with
  | nil => rfl
  | cons w ws ih => simp only [Thread.setGroup]; split <;> simp [ih]

@[simp] theorem Thread.setGroup_hm (th : Thread) (r : Nat) (ws : List Word) : (th.setGroup r ws).hm = th.hm := by
  induction ws generalizing th r with
  | nil => rfl
  | cons w ws ih => simp only [Thread.setGroup]; split <;> simp [ih]

@[simp] theorem Thread.setGroup_trec (th : Thread) (r : Nat) (ws : List Word) : (th.setGroup r ws).trec = th.trec := by
  induction ws generalizing th r with
  | nil => rfl
  | cons w ws ih => simp only [Thread.setGroup]; split <;> simp [ih]

@[simp] theorem Thread.setGroup_rngCtr (th : Thread) (r : Nat) (ws : List Word) : (th.setGroup r ws).rngCtr = th.rngCtr := by
  induction ws generalizing th r with
  | nil => rfl
  | cons w ws ih => simp only [Thread.setGroup]; split <;> simp [ih]

@[simp] theorem Thread.setGroup_relaunch (th : Thread) (r : Nat) (ws : List Word) : (th.setGroup r ws).relaunch = th.relaunch := by
  induction ws generalizing th r with
  | nil => rfl
  | cons w ws ih => simp only [Thread.setGroup]; split <;> simp [ih]

@[simp] theorem Thread.setGroup_forks (th : Thread) (r : Nat) (ws : List Word) : (th.setGroup r ws).forks = th.forks := by
  induction ws generalizing th r with
  | nil => rfl
  | cons w ws ih => simp only [Thread.setGroup]; split <;> simp [ih]

@[simp] theorem Thread.setGroup_retired (th : Thread) (r : Nat) (ws : List Word) : (th.setGroup r ws).retired = th.retired := by
  induction ws generalizing th r with
  | nil => rfl
  | cons w ws ih => simp only [Thread.setGroup]; split <;> simp [ih]

@[simp] theorem Thread.setGroup_turnRetired (th : Thread) (r : Nat) (ws : List Word) : (th.setGroup r ws).turnRetired = th.turnRetired := by
  induction ws generalizing th r with
  | nil => rfl
  | cons w ws ih => simp only [Thread.setGroup]; split <;> simp [ih]

@[simp] theorem Thread.setGroup_status (th : Thread) (r : Nat) (ws : List Word) : (th.setGroup r ws).status = th.status := by
  induction ws generalizing th r with
  | nil => rfl
  | cons w ws ih => simp only [Thread.setGroup]; split <;> simp [ih]

@[simp] theorem Thread.setGroup_marks (th : Thread) (r : Nat) (ws : List Word) : (th.setGroup r ws).marks = th.marks := by
  induction ws generalizing th r with
  | nil => rfl
  | cons w ws ih => simp only [Thread.setGroup]; split <;> simp [ih]

@[simp] theorem Thread.setGroup_after (th : Thread) (r : Nat) (ws : List Word) : (th.setGroup r ws).after = th.after := by
  induction ws generalizing th r with
  | nil => rfl
  | cons w ws ih => simp only [Thread.setGroup]; split <;> simp [ih]

@[simp] theorem Thread.setGroup_keep (th : Thread) (r : Nat) (ws : List Word) : (th.setGroup r ws).keep = th.keep := by
  induction ws generalizing th r with
  | nil => rfl
  | cons w ws ih => simp only [Thread.setGroup]; split <;> simp [ih]

@[simp] theorem Thread.setGroup_slotSince (th : Thread) (r : Nat) (ws : List Word) : (th.setGroup r ws).slotSince = th.slotSince := by
  induction ws generalizing th r with
  | nil => rfl
  | cons w ws ih => simp only [Thread.setGroup]; split <;> simp [ih]

@[simp] theorem Thread.setGroup_released (th : Thread) (r : Nat) (ws : List Word) : (th.setGroup r ws).released = th.released := by
  induction ws generalizing th r with
  | nil => rfl
  | cons w ws ih => simp only [Thread.setGroup]; split <;> simp [ih]

@[simp] theorem Thread.setGroup_owed (th : Thread) (r : Nat) (ws : List Word) : (th.setGroup r ws).owed = th.owed := by
  induction ws generalizing th r with
  | nil => rfl
  | cons w ws ih => simp only [Thread.setGroup]; split <;> simp [ih]

@[simp] theorem Thread.setGroup_pages (th : Thread) (r : Nat) (ws : List Word) : (th.setGroup r ws).pages = th.pages := by
  induction ws generalizing th r with
  | nil => rfl
  | cons w ws ih => simp only [Thread.setGroup]; split <;> simp [ih]

@[simp] theorem Thread.setGroup_captured (th : Thread) (r : Nat) (ws : List Word) : (th.setGroup r ws).captured = th.captured := by
  induction ws generalizing th r with
  | nil => rfl
  | cons w ws ih => simp only [Thread.setGroup]; split <;> simp [ih]

/-! ## Objects by name -/

@[simp] theorem State.block?_setBlock (s : State) (b : Nat) (v : Block) : (s.setBlock b v).block? b = some v :=
  Sparse.find_put_self s.blocks b v

theorem State.block?_setBlock_ne (s : State) (b x : Nat) (v : Block) (h : x ≠ b) : (s.setBlock b v).block? x = s.block? x :=
  Sparse.find_put_ne s.blocks b x v h

@[simp] theorem State.grid?_setGrid (s : State) (g : Nat) (v : Grid) : (s.setGrid g v).grid? g = some v :=
  Sparse.find_put_self s.grids g v

theorem State.grid?_setGrid_ne (s : State) (g x : Nat) (v : Grid) (h : x ≠ g) : (s.setGrid g v).grid? x = s.grid? x :=
  Sparse.find_put_ne s.grids g x v h

/-- An update of a block that exists. -/
theorem State.block?_updBlock (s : State) (b : Nat) (f : Block → Block) (k : Block) (h : s.block? b = some k) :
    (s.updBlock b f).block? b = some (f k) := by
  simp [State.updBlock, h]

theorem State.block?_updBlock_ne (s : State) (b x : Nat) (f : Block → Block) (h : x ≠ b) :
    (s.updBlock b f).block? x = s.block? x := by
  unfold State.updBlock
  split
  · exact State.block?_setBlock_ne s b x _ h
  · rfl

theorem State.core_updCore_ne (s : State) (c x : Nat) (f : Core → Core) (h : x ≠ c) : (s.updCore c f).core x = s.core x :=
  Sparse.get_set_ne _ _ _ _ _ h

theorem State.core_updCore (s : State) (c : Nat) (f : Core → Core) (h : Sparse.wf Core.reset s.cores = true) :
    (s.updCore c f).core c = f (s.core c) := Sparse.get_set_self _ _ _ _ h

theorem State.wf_updCore (s : State) (c : Nat) (f : Core → Core) (h : Sparse.wf Core.reset s.cores = true) :
    Sparse.wf Core.reset (s.updCore c f).cores = true := Sparse.wf_set _ _ _ _ h

theorem State.tenant_updTenant (s : State) (t : Nat) (f : Tenant → Tenant) (h : Sparse.wf Tenant.reset s.tenants = true) :
    (s.updTenant t f).tenant t = f (s.tenant t) := Sparse.get_set_self _ _ _ _ h

theorem State.tenant_updTenant_ne (s : State) (t x : Nat) (f : Tenant → Tenant) (h : x ≠ t) :
    (s.updTenant t f).tenant x = s.tenant x := Sparse.get_set_ne _ _ _ _ _ h

/-! ## Threads of a block -/

@[simp] theorem Block.T_setThread (k : Block) (t : Nat) (v : Thread) : (k.setThread t v).T = k.T := by
  simp [Block.T, Block.setThread]

theorem Block.thread_setThread (k : Block) (t : Nat) (v : Thread) (h : t < k.T) : (k.setThread t v).thread t = v := by
  simp only [Block.T] at h
  simp [Block.thread, Block.setThread, h]

theorem Block.thread_setThread_ne (k : Block) (t x : Nat) (v : Thread) (h : x ≠ t) : (k.setThread t v).thread x = k.thread x := by
  simp [Block.thread, Block.setThread, Ne.symm h]

/-! ## Registers and predicates of a thread -/

/-- x255 reads zero (R155). -/
@[simp] theorem Thread.reg_zero (th : Thread) : th.reg 255 = 0 := rfl

/-- A write to x255 is discarded (R155). -/
@[simp] theorem Thread.setReg_zero (th : Thread) (v : Word) : th.setReg 255 v = th := rfl

theorem Thread.reg_setReg (th : Thread) (r : Nat) (v : Word) (hr : r < 255) (h : Sparse.wf (0 : Word) th.regs = true) :
    (th.setReg r v).reg r = v := by
  simp only [Thread.setReg, Thread.reg, ge_iff_le, Nat.not_le.mpr hr, if_false]
  exact Sparse.get_set_self 0 th.regs r v h

theorem Thread.reg_setReg_ne (th : Thread) (r x : Nat) (v : Word) (h : x ≠ r) : (th.setReg r v).reg x = th.reg x := by
  simp only [Thread.setReg, Thread.reg]
  split
  · rfl
  · split
    · rfl
    · exact Sparse.get_set_ne 0 th.regs r x v h

theorem Thread.wf_setReg (th : Thread) (r : Nat) (v : Word) (h : Sparse.wf (0 : Word) th.regs = true) :
    Sparse.wf (0 : Word) (th.setReg r v).regs = true := by
  simp only [Thread.setReg]
  split
  · exact h
  · exact Sparse.wf_set 0 th.regs r v h

theorem Thread.wf_setGroup (th : Thread) (r : Nat) (ws : List Word) (h : Sparse.wf (0 : Word) th.regs = true) :
    Sparse.wf (0 : Word) (th.setGroup r ws).regs = true := by
  induction ws generalizing th r with
  | nil => exact h
  | cons w ws ih =>
    simp only [Thread.setGroup]
    split
    · exact h
    · exact ih _ _ (Thread.wf_setReg th r w h)

/-- A group written leaves every register outside it alone (R155). -/
theorem Thread.reg_setGroup_outside (th : Thread) (r x : Nat) (ws : List Word) (h : x < r ∨ r + ws.length ≤ x) :
    (th.setGroup r ws).reg x = th.reg x := by
  induction ws generalizing th r with
  | nil => rfl
  | cons w ws ih =>
    simp only [List.length_cons] at h
    simp only [Thread.setGroup]
    split
    · rfl
    · rw [ih _ _ (by omega), Thread.reg_setReg_ne _ _ _ _ (by omega)]

/-- A group written reads back, register by register (R155). -/
theorem Thread.reg_setGroup_inside (th : Thread) (r i : Nat) (ws : List Word) (hw : Sparse.wf (0 : Word) th.regs = true)
    (hr : r + ws.length ≤ 255) (h : i < ws.length) : (th.setGroup r ws).reg (r + i) = ws.getD i 0 := by
  induction ws generalizing th r i with
  | nil => simp at h
  | cons w ws ih =>
    simp only [List.length_cons] at h hr
    have hlt : ¬ r ≥ 255 := by omega
    simp only [Thread.setGroup, if_neg hlt]
    cases i with
    | zero =>
      rw [Thread.reg_setGroup_outside _ _ _ _ (by omega)]
      exact Thread.reg_setReg th r w (by omega) hw
    | succ i =>
      rw [show r + (i + 1) = (r + 1) + i by omega, ih _ _ _ (Thread.wf_setReg th r w hw) (by omega) (by omega)]
      rfl

/-- A write to the group numbered 255 is discarded (R155, R241). -/
@[simp] theorem Thread.setGroup_zero (th : Thread) (ws : List Word) : th.setGroup 255 ws = th := by
  cases ws <;> rfl

theorem natToWords_length (n v : Nat) : (natToWords n v).length = n := by
  induction n generalizing v with
  | zero => rfl
  | succ n ih => simp [natToWords, ih]

/-- p7 reads true and a write to it is discarded (R155). -/
@[simp] theorem Thread.pred_seven (th : Thread) : th.pred 7 = true := rfl
@[simp] theorem Thread.setPred_seven (th : Thread) (v : Bool) : th.setPred 7 v = th := rfl

end Sys2Proof.Machine
end

