-- ==== Sys2Proof/Laws/Frames.lean ====
section
/-! SUPPORT. What the operations at the end of an instruction and of a clause leave alone: a relation between states that
they all keep, proved once for each of them. -/

namespace Sys2Proof.Machine

theorem Thread.same_refl (a : Thread) : Thread.same a a := ⟨rfl, fun _ _ => rfl, fun _ h => h⟩

theorem Thread.same_trans {a b c : Thread} (h : Thread.same a b) (h' : Thread.same b c) : Thread.same a c := by
  refine ⟨?_, fun f hf => (h'.2.1 f fun hb => hf (h.2.2 f hb)).trans (h.2.1 f hf), fun f hf => h.2.2 f (h'.2.2 f hf)⟩
  rw [h'.1, h.1]

theorem onBit_setBit_ne (v : BitVec 12) (i j : Nat) (x : Bool) (h : j ≠ i) (hj : j < 12) : onBit (setBit v i x) j = onBit v j := by
  unfold onBit setBit
  split
  · simp only [BitVec.getLsbD_or, BitVec.getLsbD_ofNat, Nat.testBit_two_pow, Ne.symm h, decide_false, Bool.and_false, Bool.or_false]
  · simp only [BitVec.getLsbD_and, BitVec.getLsbD_not, BitVec.getLsbD_ofNat, Nat.testBit_two_pow, Ne.symm h, hj, decide_false,
      decide_true, Bool.and_false, Bool.not_false, Bool.and_true]

/-- A flag that was still owed may be set. -/
theorem Thread.same_setFlag {a b : Thread} {f : Nat} (h : Thread.same a b) (hf : f ∈ a.owed) : Thread.same a (b.setFlag f true) := by
  unfold Thread.setFlag
  split
  · exact h
  · next h12 =>
    refine ⟨by rw [h.1], fun g hg => ?_, h.2.2⟩
    rw [← h.2.1 g hg]
    simp only [Thread.flag]
    split
    · rfl
    · next hg12 => exact onBit_setBit_ne _ _ _ _ (fun he => hg (he ▸ hf)) (Nat.lt_of_not_le hg12)

theorem Block.same_refl (a : Block) : Block.same a a := ⟨rfl, rfl⟩

theorem Block.same_trans {a b c : Block} (h : Block.same a b) (h' : Block.same b c) : Block.same a c := by
  refine ⟨?_, h'.2.trans h.2⟩
  rw [h'.1, h.1]

theorem Core.same_refl (a : Core) : Core.same a a := rfl

theorem Core.same_trans {a b c : Core} (h : Core.same a b) (h' : Core.same b c) : Core.same a c := by
  unfold Core.same at *
  rw [h', h]

/-- What the end of an instruction does to a thread: one of those that move may move, any other rests. -/
def Thread.moves (p : Prop) (a b : Thread) : Prop := Thread.same a b ∧ (¬ p → Thread.rests a b)

theorem Thread.rests_refl (a : Thread) : Thread.rests a a := ⟨rfl, fun _ => rfl⟩

theorem Thread.rests_trans {a b c : Thread} (h : Thread.rests a b) (h' : Thread.rests b c) : Thread.rests a c := by
  refine ⟨by rw [h'.1, h.1], fun hs => ?_⟩
  have := h.2 hs
  subst this
  exact h'.2 hs

theorem Thread.moves_refl (p : Prop) (a : Thread) : Thread.moves p a a := ⟨Thread.same_refl a, fun _ => Thread.rests_refl a⟩

theorem Thread.moves_trans {p : Prop} {a b c : Thread} (h : Thread.moves p a b) (h' : Thread.moves p b c) : Thread.moves p a c :=
  ⟨Thread.same_trans h.1 h'.1, fun hp => Thread.rests_trans (h.2 hp) (h'.2 hp)⟩

variable {p : Nat → Prop}

/-- Nothing but what Within allows has changed, the table of cores is still canonical, and each thread of block b stands
as it was but for its place. -/
structure Calm (p : Nat → Prop) (b : Nat) (s t : State) : Prop where
  within : Within b s t
  wf : Sparse.wf Core.reset t.cores = true
  block : ∀ k, s.block? b = some k → ∃ k', t.block? b = some k' ∧ Block.same k k' ∧ ∀ tid, Thread.moves (p tid) (k.thread tid) (k'.thread tid)

theorem Within.refl (b : Nat) (s : State) : Within b s s := ⟨rfl, fun _ _ => rfl, fun _ => rfl⟩

theorem Within.trans {b : Nat} {s t u : State} (h : Within b s t) (h' : Within b t u) : Within b s u := by
  refine ⟨?_, fun x hx => (h'.others x hx).trans (h.others x hx), fun c => Core.same_trans (h.cores c) (h'.cores c)⟩
  rw [h'.outside, h.outside]

theorem Calm.refl (b : Nat) (s : State) (hw : Sparse.wf Core.reset s.cores = true) : Calm p b s s :=
  ⟨Within.refl b s, hw, fun k hk => ⟨k, hk, Block.same_refl k, fun _ => Thread.moves_refl _ _⟩⟩

theorem Calm.trans {b : Nat} {s t u : State} (h : Calm p b s t) (h' : Calm p b t u) : Calm p b s u := by
  refine ⟨h.within.trans h'.within, h'.wf, fun k hk => ?_⟩
  obtain ⟨k₁, h₁, s₁, t₁⟩ := h.block k hk
  obtain ⟨k₂, h₂, s₂, t₂⟩ := h'.block k₁ h₁
  exact ⟨k₂, h₂, Block.same_trans s₁ s₂, fun tid => Thread.moves_trans (t₁ tid) (t₂ tid)⟩

/-! ## Single updates -/

/-- An update of the block itself. -/
theorem within_updBlock (b : Nat) (s : State) (f : Block → Block) : Within b s (s.updBlock b f) := by
  refine ⟨?_, fun x hx => State.block?_updBlock_ne s b x f hx, fun c => ?_⟩
  · unfold State.updBlock State.setBlock; split <;> rfl
  · simp only [State.core, State.updBlock_cores]; rfl

theorem calm_updBlock (b : Nat) (s : State) (f : Block → Block) (hw : Sparse.wf Core.reset s.cores = true)
    (h : ∀ k, s.block? b = some k → Block.same k (f k) ∧ ∀ tid, Thread.moves (p tid) (k.thread tid) ((f k).thread tid)) :
    Calm p b s (s.updBlock b f) :=
  ⟨within_updBlock b s f, by simpa using hw, fun k hk => ⟨f k, State.block?_updBlock s b f k hk, (h k hk).1, (h k hk).2⟩⟩

theorem Block.same_updThread (k : Block) (t : Nat) (f : Thread → Thread) : Block.same k (k.updThread t f) := by
  refine ⟨rfl, ?_⟩
  simp [Block.updThread]

theorem Block.thread_updThread (k : Block) (t x : Nat) (f : Thread → Thread) :
    (k.updThread t f).thread x = if x = t ∧ t < k.T then f (k.thread t) else k.thread x := by
  unfold Block.updThread
  by_cases h : x = t
  · subst h
    by_cases hT : x < k.T
    · simp [hT, Block.thread_setThread k x _ hT]
    · have hT' : ¬ x < k.threads.length := hT
      simp [hT, Block.thread, Block.setThread, List.set_eq_of_length_le (Nat.not_lt.mp hT'),
        List.getElem?_eq_none (Nat.not_lt.mp hT')]
  · simp [h, Block.thread_setThread_ne k t x _ h]

theorem calm_updThread (b : Nat) (s : State) (t : Nat) (f : Thread → Thread) (hw : Sparse.wf Core.reset s.cores = true)
    (hp : p t) (h : ∀ th, Thread.same th (f th)) : Calm p b s (s.updThread b t f) := by
  refine calm_updBlock b s _ hw fun k _ => ⟨Block.same_updThread k t f, fun tid => ?_⟩
  rw [Block.thread_updThread]
  split
  · next hx => rw [hx.1]; exact ⟨h _, fun hn => absurd hp hn⟩
  · exact Thread.moves_refl _ _

theorem Block.thread_updQuad (k : Block) (q t : Nat) (f : Quad → Quad) : (k.updQuad q f).thread t = k.thread t := rfl

theorem Block.same_updQuad (k : Block) (q : Nat) (f : Quad → Quad) : Block.same k (k.updQuad q f) := ⟨rfl, rfl⟩

/-- Updates of quads, one after another. -/
theorem Block.calm_quads {α : Type} (l : List α) (k : Block) (q : α → Nat) (f : α → Quad → Quad) :
    Block.same k (l.foldl (fun k e => k.updQuad (q e) (f e)) k)
      ∧ ∀ tid, Thread.moves (p tid) (k.thread tid) ((l.foldl (fun k e => k.updQuad (q e) (f e)) k).thread tid) := by
  induction l generalizing k with
  | nil => exact ⟨Block.same_refl k, fun _ => Thread.moves_refl _ _⟩
  | cons e l ih =>
    obtain ⟨h, h'⟩ := ih (k.updQuad (q e) (f e))
    exact ⟨Block.same_trans (Block.same_updQuad k _ _) h, h'⟩

theorem calm_updCore (b : Nat) (s : State) (c : Nat) (f : Core → Core) (hw : Sparse.wf Core.reset s.cores = true)
    (h : ∀ x, Core.same x (f x)) : Calm p b s (s.updCore c f) := by
  refine ⟨⟨rfl, fun _ _ => rfl, fun x => ?_⟩, State.wf_updCore s c f hw, fun k hk => ⟨k, hk, Block.same_refl k, fun _ => Thread.moves_refl _ _⟩⟩
  by_cases hx : x = c
  · subst hx; rw [State.core_updCore s x f hw]; exact h _
  · rw [State.core_updCore_ne s c x f hx]; rfl

theorem calm_issue (b : Nat) (s : State) (i : Option Issue) (hw : Sparse.wf Core.reset s.cores = true) :
    Calm p b s { s with issue := i } :=
  ⟨⟨rfl, fun _ _ => rfl, fun _ => rfl⟩, hw, fun k hk => ⟨k, hk, Block.same_refl k, fun _ => Thread.moves_refl _ _⟩⟩

/-- Steps that each keep the relation, one after another. -/
theorem calm_foldl {α : Type} (b : Nat) (l : List α) (f : State → α → State) (s : State) (hw : Sparse.wf Core.reset s.cores = true)
    (h : ∀ s e, e ∈ l → Sparse.wf Core.reset s.cores = true → Calm p b s (f s e)) : Calm p b s (l.foldl f s) := by
  induction l generalizing s with
  | nil => exact Calm.refl b s hw
  | cons e l ih =>
    have h₁ := h s e (by simp) hw
    exact h₁.trans (ih (f s e) h₁.wf fun s e he => h s e (by simp [he]))

/-! ## Quads and bundles -/

theorem calm_fileQuad (b : Nat) (s : State) (q : Nat) (hw : Sparse.wf Core.reset s.cores = true) : Calm p b s (s.fileQuad b q) := by
  unfold State.fileQuad
  split
  · split
    · exact Calm.refl b s hw
    · split
      · exact Calm.refl b s hw
      · have h₁ : ∀ (c : Nat) (f : Core → Core), (∀ x, Core.same x (f x)) → Calm p b s (s.updCore c f) :=
          fun c f h => calm_updCore b s c f hw h
        refine (h₁ _ _ fun x => ?_).trans (calm_updBlock b _ _ (State.wf_updCore s _ _ hw)
          fun k _ => ⟨Block.same_updQuad k _ _, fun _ => Thread.moves_refl _ _⟩)
        unfold Core.fileEntry
        dsimp only
        split
        · rfl
        · split <;> rfl
  · exact Calm.refl b s hw

theorem calm_fileQuads (b : Nat) (s : State) (qs : List Nat) (hw : Sparse.wf Core.reset s.cores = true) :
    Calm p b s (s.fileQuads b qs) :=
  calm_foldl b _ _ s hw fun s q _ h => calm_fileQuad b s q h

theorem calm_updBundle (b : Nat) (s : State) (c id : Nat) (f : Bundle → Bundle) (hw : Sparse.wf Core.reset s.cores = true) :
    Calm p b s (s.updBundle c id f) := calm_updCore b s c _ hw fun _ => rfl

theorem calm_dropBundle (b : Nat) (s : State) (c id : Nat) (hw : Sparse.wf Core.reset s.cores = true) :
    Calm p b s (s.dropBundle c id) := calm_updCore b s c _ hw fun _ => rfl

theorem calm_reformBundle (b : Nat) (s : State) (c id : Nat) (hw : Sparse.wf Core.reset s.cores = true)
    (hb : ∀ u, s.bundle? c id = some u → u.block = b) : Calm p b s (s.reformBundle c id) := by
  unfold State.reformBundle
  split
  · exact Calm.refl b s hw
  · next u hu =>
    rw [hb u hu]
    have h₁ := calm_dropBundle (p := p) b s c id hw
    have h₂ := calm_updBlock (p := p) b (s.dropBundle c id) (fun k => u.slots.foldl (fun k e => k.updQuad e.2 fun d => { d with place := .gone }) k)
      h₁.wf fun k _ => Block.calm_quads u.slots k _ _
    exact (h₁.trans h₂).trans (calm_fileQuads b _ _ h₂.wf)

/-- After an update of a bundle that keeps its block, the bundle of that number is one of the same block. -/
theorem bundle?_updBundle (s : State) (c id : Nat) (f : Bundle → Bundle) (b : Nat) (hf : ∀ u, (f u).block = u.block ∧ (f u).id = u.id)
    (hw : Sparse.wf Core.reset s.cores = true) (h : ∀ u, s.bundle? c id = some u → u.block = b) :
    ∀ u, (s.updBundle c id f).bundle? c id = some u → u.block = b := by
  intro u hu
  simp only [State.bundle?, State.updBundle, State.core_updCore s c _ hw] at hu
  have key : ∀ l : List Bundle, (∀ u, l.find? (fun u => u.id == id) = some u → u.block = b) →
      (l.map fun u => if (u.id == id) = true then f u else u).find? (fun u => u.id == id) = some u → u.block = b := by
    intro l
    induction l with
    | nil => simp
    | cons x l ih =>
      intro hl hu
      by_cases hx : (x.id == id) = true
      · have hfx : ((f x).id == id) = true := by rw [(hf x).2]; exact hx
        simp only [List.map_cons, hx, if_true, List.find?_cons, hfx] at hu
        have := hl x (by simp [hx])
        cases hu
        rw [(hf x).1, this]
      · simp only [Bool.not_eq_true] at hx
        rw [List.find?_cons, hx] at hl
        rw [List.map_cons, if_neg (by simp [hx]), List.find?_cons, hx] at hu
        exact ih hl hu
  exact key _ (fun u hu => h u (by simpa [State.bundle?] using hu)) hu

theorem bundle?_dropBundle (s : State) (c id : Nat) (hw : Sparse.wf Core.reset s.cores = true) :
    (s.dropBundle c id).bundle? c id = none := by
  simp only [State.bundle?, State.dropBundle, State.core_updCore s c _ hw]
  simp

theorem bundle?_updBlock (s : State) (b c id : Nat) (f : Block → Block) : (s.updBlock b f).bundle? c id = s.bundle? c id := by
  simp [State.bundle?, State.core]

theorem calm_sweepBundle (b : Nat) (s : State) (c id : Nat) (hw : Sparse.wf Core.reset s.cores = true)
    (hb : ∀ u, s.bundle? c id = some u → u.block = b) :
    Calm p b s (s.sweepBundle c id) ∧ ∀ u, (s.sweepBundle c id).bundle? c id = some u → u.block = b := by
  unfold State.sweepBundle
  split
  · next u k hu hk =>
    rw [hb u hu]
    have h₁ := calm_updBlock (p := p) b s (fun k' => (u.slots.partition fun e => k.quadExited e.2).1.foldl
      (fun k e => k.updQuad e.2 fun d => { d with place := .gone }) k') hw fun k' _ => Block.calm_quads _ k' _ _
    dsimp only
    split
    · exact ⟨h₁.trans (calm_dropBundle b _ c id h₁.wf), by rw [bundle?_dropBundle _ c id h₁.wf]; simp⟩
    · exact ⟨h₁.trans (calm_updBundle b _ c id _ h₁.wf),
        bundle?_updBundle _ c id _ b (fun u => ⟨rfl, rfl⟩) h₁.wf (by rw [bundle?_updBlock]; exact hb)⟩
  · exact ⟨calm_dropBundle b s c id hw, by rw [bundle?_dropBundle s c id hw]; simp⟩
  · exact ⟨Calm.refl b s hw, hb⟩

theorem calm_settleBundle (b : Nat) (s : State) (c id : Nat) (fall : Option Dword) (hw : Sparse.wf Core.reset s.cores = true)
    (hb : ∀ u, s.bundle? c id = some u → u.block = b) : Calm p b s (s.settleBundle c id fall) := by
  obtain ⟨h₁, hb₁⟩ := calm_sweepBundle (p := p) b s c id hw hb
  unfold State.settleBundle
  dsimp only
  split
  · next u k hu hk =>
    split
    · exact h₁
    · next win _ =>
      generalize ((u.slots.filterMap fun e => (k.quadKey e.2).map fun p => (e, p)).filter fun e => e.2 != win).map
        (fun e => e.1.2) = losers
      split
      · exact h₁
      · have h₂ := calm_updBundle (p := p) b (s.sweepBundle c id) c id
          (fun u => { u with slots := u.slots.filter fun e => !losers.contains e.2 }) h₁.wf
        rw [hb₁ u hu]
        have h₃ := calm_updBlock (p := p) b _ (fun k => losers.foldl (fun k q => k.updQuad q fun d => { d with place := .gone }) k)
          h₂.wf fun k _ => Block.calm_quads losers k (fun q => q) (fun _ d => { d with place := .gone })
        exact ((h₁.trans h₂).trans h₃).trans (calm_fileQuads b _ _ h₃.wf)
  · exact h₁

/-! ## The end of an instruction and of a clause -/

theorem calm_stopAtQuota (b : Nat) (s : State) (hw : Sparse.wf Core.reset s.cores = true) : Calm p b s (s.stopAtQuota b) := by
  unfold State.stopAtQuota
  split
  · exact Calm.refl b s hw
  · next g _ =>
    split
    · exact Calm.refl b s hw
    · refine calm_updBlock b s _ hw fun k _ => ⟨⟨rfl, by simp [Block.T]⟩, fun tid => ?_⟩
      simp only [Block.thread, List.getD_eq_getElem?_getD, List.getElem?_map, List.getElem?_zipIdx]
      cases k.threads[tid]? with
      | none => exact Thread.moves_refl _ _
      | some th =>
        simp only [Option.map_some, Option.getD_some]
        split
        · next h =>
          refine ⟨⟨rfl, fun _ _ => rfl, fun _ h => h⟩, fun _ => ⟨rfl, fun hr => ?_⟩⟩
          simp only [Bool.and_eq_true, beq_iff_eq] at h
          exact absurd h.1.1.1 hr
        · exact Thread.moves_refl _ _

@[simp] theorem State.stopAtQuota_cores (s : State) (b : Nat) : (s.stopAtQuota b).cores = s.cores := by
  unfold State.stopAtQuota
  split
  · rfl
  · split
    · rfl
    · simp

/-- Steps that each leave the cores alone, one after another. -/
theorem foldl_cores {α : Type} (l : List α) (f : State → α → State) (h : ∀ s e, (f s e).cores = s.cores) (s : State) :
    (l.foldl f s).cores = s.cores := by
  induction l generalizing s with
  | nil => rfl
  | cons e l ih => rw [List.foldl_cons, ih, h]

@[simp] theorem State.settleFlag_cores (s : State) (b tid f : Nat) : (s.settleFlag b tid f).cores = s.cores := by
  unfold State.settleFlag
  split <;> simp

@[simp] theorem State.releaseOwed_cores (s : State) (b tid : Nat) : (s.releaseOwed b tid).cores = s.cores := by
  unfold State.releaseOwed
  dsimp only
  split
  · rfl
  · rw [foldl_cores _ _ fun s f => State.settleFlag_cores s b tid f]; simp

/-- A flag that a moving thread was owed may be set. -/
theorem calm_settleFlag {b tid f : Nat} {s t : State} (h : Calm p b s t) (hp : p tid) (hf : f ∈ (s.thread b tid).owed) :
    Calm p b s (t.settleFlag b tid f) := by
  unfold State.settleFlag
  split
  · exact h
  · refine ⟨h.within.trans (within_updBlock b t _), by simpa using h.wf, fun k hk => ?_⟩
    obtain ⟨k₁, h₁, hs, ht⟩ := h.block k hk
    refine ⟨_, State.block?_updBlock t b _ k₁ h₁, Block.same_trans hs (Block.same_updThread k₁ tid _), fun x => ?_⟩
    rw [Block.thread_updThread]
    split
    · next hx =>
      rw [hx.1]
      exact ⟨Thread.same_setFlag (ht tid).1 (by simpa [State.thread, hk] using hf), fun hn => absurd hp hn⟩
    · exact ht x

/-- What a clause owed to a moving thread is owed no longer. -/
theorem calm_releaseOwed (b tid : Nat) (s : State) (hw : Sparse.wf Core.reset s.cores = true) (hp : p tid) :
    Calm p b s (s.releaseOwed b tid) := by
  unfold State.releaseOwed
  dsimp only
  split
  · exact Calm.refl b s hw
  · have h₁ := calm_updThread b s tid (fun th => { th with owed := [] }) hw hp fun _ => ⟨rfl, fun _ _ => rfl, fun _ h => by simp at h⟩
    have key : ∀ (fs : List Nat) (t : State), (∀ f ∈ fs, f ∈ (s.thread b tid).owed) → Calm p b s t →
        Calm p b s (fs.foldl (fun s f => s.settleFlag b tid f) t) := by
      intro fs
      induction fs with
      | nil => exact fun t _ h => h
      | cons f fs ih =>
        exact fun t hfs h => ih _ (fun g hg => hfs g (by simp [hg])) (calm_settleFlag h hp (hfs f (by simp)))
    exact key _ _ (fun _ h => h) h₁

theorem State.endLane_cores (i : Issue) (s : State) (l : Lane) : (State.endLane i s l).cores = s.cores := by
  unfold State.endLane
  dsimp only
  split <;> simp

theorem calm_endLane (i : Issue) (s : State) (l : Lane) (hw : Sparse.wf Core.reset s.cores = true) (hp : p l.tid) :
    Calm p i.block s (State.endLane i s l) := by
  have h := calm_updThread i.block s l.tid (fun th => { th with pc := i.next, clpos := 0, keep := false }) hw hp
    fun _ => ⟨rfl, fun _ _ => rfl, fun _ h => h⟩
  unfold State.endLane
  dsimp only
  split
  · exact h
  · exact h.trans (calm_releaseOwed i.block l.tid _ h.wf hp)

theorem calm_finishClause (s : State) (i : Issue) (hi : s.issue = some i) (hp : ∀ l ∈ i.lanes, p l.tid)
    (hw : Sparse.wf Core.reset s.cores = true)
    (hb : ∀ u, s.bundle? i.core i.bundle = some u → u.block = i.block) : Calm p i.block s s.finishClause := by
  unfold State.finishClause
  rw [hi]
  dsimp only
  have h₁ := calm_foldl (p := p) i.block i.lanes (State.endLane i) s hw fun s l hl h => calm_endLane i s l h (hp l hl)
  have hc : (i.lanes.foldl (State.endLane i) s).cores = s.cores := foldl_cores _ _ (State.endLane_cores i) s
  generalize i.lanes.foldl (State.endLane i) s = s₁ at h₁ hc ⊢
  have h₂ := h₁.trans (calm_issue i.block s₁ none h₁.wf)
  have h₃ := h₂.trans (calm_stopAtQuota i.block { s₁ with issue := none } h₂.wf)
  have hb₃ : ∀ u, (State.stopAtQuota { s₁ with issue := none } i.block).bundle? i.core i.bundle = some u → u.block = i.block := by
    intro u hu
    refine hb u ?_
    simpa [State.bundle?, State.core, hc] using hu
  generalize State.stopAtQuota { s₁ with issue := none } i.block = s₃ at h₃ hb₃ ⊢
  have h₄ := h₃.trans (calm_updBundle i.block s₃ i.core i.bundle
    (fun u => { u with fell := true, hold := i.header.seta == 15 && decide (0 < i.longs) }) h₃.wf)
  have hb₄ := bundle?_updBundle s₃ i.core i.bundle
    (fun u => { u with fell := true, hold := i.header.seta == 15 && decide (0 < i.longs) }) i.block (fun _ => ⟨rfl, rfl⟩) h₃.wf hb₃
  split
  · have h₅ := h₄.trans (calm_reformBundle i.block _ i.core i.bundle h₄.wf hb₄)
    exact h₅.trans (calm_updCore i.block _ i.core _ h₅.wf fun _ => rfl)
  · have h₅ := h₄.trans (calm_settleBundle i.block _ i.core i.bundle (some i.next) h₄.wf hb₄)
    exact h₅.trans (calm_updCore i.block _ i.core _ h₅.wf fun _ => rfl)

/-- What follows an instruction whose lanes have passed it: counts, places and bundles move, and nothing else. -/
theorem calm_afterInstr (s : State) (i : Issue) (n : Nat) (hi : s.issue = some i) (hp : ∀ l ∈ i.lanes, p l.tid)
    (hw : Sparse.wf Core.reset s.cores = true)
    (hb : ∀ u, s.bundle? i.core i.bundle = some u → u.block = i.block) : Calm p i.block s (s.afterInstr n) := by
  unfold State.afterInstr
  rw [hi]
  dsimp only
  have h₁ := calm_foldl (p := p) i.block i.lanes (fun s l => if l.start ≤ i.pos then
      s.updThread i.block l.tid fun th => { th with
        retired := th.retired + 1, turnRetired := th.turnRetired + 1, released := false, pages := [], captured := [] } else s) s hw
    fun s l hl h => by
      split
      · exact calm_updThread i.block s l.tid _ h (hp l hl) fun _ => ⟨rfl, fun _ _ => rfl, fun _ h => h⟩
      · exact Calm.refl i.block s h
  have hc : (i.lanes.foldl (fun s l => if l.start ≤ i.pos then
      s.updThread i.block l.tid fun th => { th with
        retired := th.retired + 1, turnRetired := th.turnRetired + 1, released := false, pages := [], captured := [] } else s) s).cores
      = s.cores := foldl_cores _ _ (fun s l => by split <;> simp) s
  generalize i.lanes.foldl _ s = s₁ at h₁ hc ⊢
  have h₂ := h₁.trans (calm_issue i.block s₁ (some { i with pos := i.pos + n }) h₁.wf)
  split
  · refine h₂.trans ?_
    exact calm_finishClause { s₁ with issue := some { i with pos := i.pos + n } } { i with pos := i.pos + n } rfl hp h₂.wf
      fun u hu => hb u (by simpa [State.bundle?, State.core, hc] using hu)
  · exact h₂

end Sys2Proof.Machine
end

