-- ==== Sys2Proof/Laws/Lanes.lean ====
section
/-! SUPPORT. What an instruction that acts on each lane's thread alone does to the machine: the one lemma that the
statements about such instructions rest on. -/

namespace Sys2Proof.Machine

/-- The block after some of its lanes have executed. -/
def runOn (i : Issue) (g : Nat → Thread → Thread) (ls : List Lane) (k : Block) : Block :=
  ls.foldl (fun k l => if l.pred && decide (l.start ≤ i.pos) then k.updThread l.tid (g l.tid) else k) k

theorem runOn_same (i : Issue) (g : Nat → Thread → Thread) (ls : List Lane) (k : Block) : Block.same k (runOn i g ls k) := by
  induction ls generalizing k with
  | nil => exact Block.same_refl k
  | cons l ls ih =>
    simp only [runOn, List.foldl_cons]
    split
    · exact Block.same_trans (Block.same_updThread k l.tid _) (ih _)
    · exact ih _

theorem runOn_threads (i : Issue) (g : Nat → Thread → Thread) (ls : List Lane) (k : Block) :
    runOn i g ls k = { k with threads := (runOn i g ls k).threads } := by
  induction ls generalizing k with
  | nil => rfl
  | cons l ls ih =>
    simp only [runOn, List.foldl_cons]
    split
    · exact (ih (k.updThread l.tid (g l.tid))).trans rfl
    · exact ih k

/-- Each lane that runs becomes g of what it was, and every other thread stays. -/
theorem runOn_thread (i : Issue) (g : Nat → Thread → Thread) (ls : List Lane) (k : Block) (hn : (ls.map (·.tid)).Nodup)
    (hT : ∀ l ∈ ls, l.tid < k.T) (tid : Nat) :
    (runOn i g ls k).thread tid
      = if ls.any (fun l => l.tid == tid && l.pred && decide (l.start ≤ i.pos)) then g tid (k.thread tid) else k.thread tid := by
  induction ls generalizing k with
  | nil => rfl
  | cons l ls ih =>
    simp only [List.map_cons, List.nodup_cons] at hn
    have hT' : ∀ k' : Block, Block.same k k' → ∀ x ∈ ls, x.tid < k'.T := fun k' hk x hx => by
      rw [hk.2]; exact hT x (by simp [hx])
    have hrest : l.tid = tid → ls.any (fun x => x.tid == tid && x.pred && decide (x.start ≤ i.pos)) = false := by
      intro h
      simp only [List.any_eq_false, Bool.and_eq_true, beq_iff_eq, not_and]
      intro x hx hxt
      exact absurd (List.mem_map.mpr ⟨x, hx, hxt.1.trans h.symm⟩) hn.1
    simp only [runOn, List.foldl_cons, List.any_cons]
    by_cases hr : (l.pred && decide (l.start ≤ i.pos)) = true
    · rw [if_pos hr]
      have := ih (k.updThread l.tid (g l.tid)) hn.2 (hT' _ (Block.same_updThread k l.tid _))
      rw [runOn] at this
      rw [this, Block.thread_updThread]
      by_cases ht : l.tid = tid
      · have hl : tid < k.T := ht ▸ hT l (by simp)
        have h0 := hrest ht
        simp only [Bool.and_assoc] at h0
        simp [ht, hl, Bool.and_assoc, hr, h0]
      · have ht' : ¬ (tid = l.tid ∧ l.tid < k.T) := fun h => ht h.1.symm
        simp [ht, ht']
    · rw [if_neg hr]
      have := ih k hn.2 (hT' _ (Block.same_refl k))
      rw [runOn] at this
      rw [this]
      simp only [Bool.not_eq_true] at hr
      simp [Bool.and_assoc, hr]

/-- The states that the loop over lanes goes through: the block has changed in its threads alone. -/
structure Midway (s : State) (i : Issue) (k : Block) (t : State) : Prop where
  state : t = { s with blocks := t.blocks }
  others : ∀ x, x ≠ i.block → t.block? x = s.block? x
  block : t.block? i.block = some k

theorem Midway.issue {s : State} {i : Issue} {k : Block} {t : State} (h : Midway s i k t) : t.issue = s.issue := by
  rw [h.state]

theorem Midway.within {s : State} {i : Issue} {k : Block} {t : State} (h : Midway s i k t) : Within i.block s t := by
  refine ⟨?_, h.others, fun c => ?_⟩
  · have := h.state
    rw [this]
  · rw [h.state]; rfl

theorem Midway.updThread {s : State} {i : Issue} {k : Block} {t : State} (h : Midway s i k t) (tid : Nat) (f : Thread → Thread) :
    Midway s i (k.updThread tid f) (t.updThread i.block tid f) := by
  refine ⟨?_, fun x hx => (State.block?_updBlock_ne t i.block x _ hx).trans (h.others x hx), State.block?_updBlock t i.block _ k h.block⟩
  have := h.state
  simp only [State.updThread, State.updBlock, h.block, State.setBlock]
  rw [this]

/-- The loop over lanes of an instruction that in every lane does no more than make its thread g of what it was. -/
theorem laneLoop_runOn (s : State) (i : Issue) (k : Block) (rpos : Nat) (ordered : Bool) (F : State → Issue → Lane → LaneOut)
    (g : Nat → Thread → Thread) (hi : s.issue = some i) (ls : List Lane) (hls : ∀ l ∈ ls, l ∈ i.lanes)
    (hn : (ls.map (·.tid)).Nodup) (hT : ∀ l ∈ ls, l.tid < k.T)
    (hF : ∀ (t : State) (k' : Block) (l : Lane), l ∈ ls → Midway s i k' t → Block.same k k' → k'.thread l.tid = k.thread l.tid →
      l.start ≤ i.pos → F t i l = .done (if l.pred then t.updThread i.block l.tid (g l.tid) else t))
    (k₀ : Block) (hk : Block.same k k₀) (ht : ∀ l ∈ ls, k₀.thread l.tid = k.thread l.tid)
    (t : State) (hm : Midway s i k₀ t) :
    Midway s i (runOn i g ls k₀) (t.laneLoop i rpos ordered F ls) := by
  induction ls generalizing k₀ t with
  | nil => exact hm
  | cons l ls ih =>
    simp only [List.map_cons, List.nodup_cons] at hn
    have hrest : ∀ (k₁ : Block) (t₁ : State), Block.same k k₁ → (∀ x ∈ ls, k₁.thread x.tid = k.thread x.tid) → Midway s i k₁ t₁ →
        Midway s i (runOn i g ls k₁) (t₁.laneLoop i rpos ordered F ls) :=
      fun k₁ t₁ hk₁ ht₁ hm₁ => ih (fun x hx => hls x (by simp [hx])) hn.2 (fun x hx => hT x (by simp [hx]))
        (fun t' k' x hx => hF t' k' x (by simp [hx])) k₁ hk₁ ht₁ t₁ hm₁
    have hne : ∀ x ∈ ls, x.tid ≠ l.tid := fun x hx h => hn.1 (List.mem_map.mpr ⟨x, hx, h⟩)
    have here : (t.issue.map fun j => j.lanes.any fun m => m.tid == l.tid).getD false = true := by
      rw [hm.issue, hi]
      simpa using ⟨l, hls l (by simp), rfl⟩
    simp only [State.laneLoop, here, Bool.true_and, runOn, List.foldl_cons]
    by_cases hs : l.start ≤ i.pos
    · simp only [hs, decide_true, if_true, Bool.and_true]
      rw [hF t k₀ l (by simp) hm hk (ht l (by simp)) hs]
      simp only [State.settleLane, Bool.false_and, Bool.false_eq_true, if_false]
      by_cases hp : l.pred = true
      · simp only [hp, if_true]
        refine hrest (k₀.updThread l.tid (g l.tid)) _ (Block.same_trans hk (Block.same_updThread k₀ l.tid _)) (fun x hx => ?_)
          (hm.updThread l.tid (g l.tid))
        rw [Block.thread_updThread, if_neg fun h => hne x hx h.1]
        exact ht x (by simp [hx])
      · simp only [hp]
        exact hrest k₀ t hk (fun x hx => ht x (by simp [hx])) hm
    · simp only [hs, decide_false, Bool.and_false, Bool.false_eq_true, if_false]
      exact hrest k₀ t hk (fun x hx => ht x (by simp [hx])) hm

/-- The tests of R242 on a lane look at its own thread and at what no lane of the clause changes. -/
theorem gate_midway (s t : State) (i : Issue) (k k' : Block) (l : Lane) (ins : Instr) (hb : s.block? i.block = some k)
    (hm : Midway s i k' t) (hk : Block.same k k') (ht : k'.thread l.tid = k.thread l.tid) : t.gate i l ins = s.gate i l ins := by
  have hg : t.gridOf i.block = s.gridOf i.block := by
    simp only [State.gridOf, hm.block, hb, Option.bind_some]
    rw [show k'.grid = k.grid by rw [hk.1]]
    rw [hm.state]; rfl
  have hth : t.thread i.block l.tid = s.thread i.block l.tid := by simp [State.thread, hm.block, hb, ht]
  have hp : (t.block? i.block).any (fun k => k.parent.isNone) = (s.block? i.block).any (fun k => k.parent.isNone) := by
    simp only [hm.block, hb, Option.any_some]
    rw [hk.1]
  simp only [State.gate, hg, hth, hp]

/-- What an instruction does in one lane: the tests of R242, then its own effect where the clause predicate holds. -/
def gated (ins : Instr) (F : State → Issue → Lane → LaneOut) (s : State) (i : Issue) (l : Lane) : LaneOut :=
  match s.gate i l ins with
  | some t => .trap t
  | none =>
    let s := if l.pred && instrCeiling ins == 0 then s.threadEvent i.block l.tid 0x03 (i.pc + BitVec.ofNat 64 (4 * i.pos)) else s
    if l.pred then F s i l else .done s

theorem runLanes_eq (s : State) (i : Issue) (ins : Instr) (F : State → Issue → Lane → LaneOut) (h : s.issue = some i) :
    s.runLanes ins F = (s.laneLoop i (i.pos + wordsOf ins) (instrOrders ins) (gated ins F) i.lanes).afterInstr (wordsOf ins) := by
  unfold State.runLanes
  rw [h]
  rfl

/-- An instruction whose lane function, in each lane that runs, makes the lane's thread g of what it was. -/
theorem runLanes_ran (s : State) (i : Issue) (k : Block) (ins : Instr) (F : State → Issue → Lane → LaneOut)
    (g : Nat → Thread → Thread) (h : Issuing s i k) (hp : s.passes i ins) (hc : instrCeiling ins ≠ 0)
    (hF : ∀ (t : State) (k' : Block) (l : Lane), l ∈ i.lanes → Midway s i k' t → Block.same k k' → k'.thread l.tid = k.thread l.tid →
      l.pred = true → F t i l = .done (t.updThread i.block l.tid (g l.tid))) :
    Ran s i k (wordsOf ins) g (s.runLanes ins F) := by
  have hm : Midway s i (runOn i g i.lanes k) _ := laneLoop_runOn s i k (i.pos + wordsOf ins) (instrOrders ins)
    (gated ins F) g h.clause i.lanes (fun _ hl => hl) h.lanes h.within
    (fun t k' l hl hm hk ht hs => by
      have hg : t.gate i l ins = none := by
        rw [gate_midway s t i k k' l ins h.block hm hk ht]
        exact hp l hl hs
      have hc' : (instrCeiling ins == 0) = false := by simpa using hc
      simp only [gated, hg, hc', Bool.and_false, Bool.false_eq_true, if_false]
      by_cases hpr : l.pred = true
      · simp only [hpr, if_true]
        exact hF t k' l hl hm hk ht hpr
      · simp [hpr])
    k (Block.same_refl k) (fun _ _ => rfl) s ⟨rfl, fun _ _ => rfl, h.block⟩
  rw [runLanes_eq s i ins F h.clause]
  generalize s.laneLoop i _ _ _ i.lanes = t at hm ⊢
  have hcores : t.cores = s.cores := by rw [hm.state]
  have hca := calm_afterInstr (p := fun tid => ∃ l ∈ i.lanes, l.tid = tid) t i (wordsOf ins) (hm.issue.trans h.clause)
    (fun l hl => ⟨l, hl, rfl⟩) (hcores ▸ h.cores) fun u hu => h.bundle u (by simpa [State.bundle?, State.core, hcores] using hu)
  obtain ⟨k', hk', hsame, hth⟩ := hca.block _ hm.block
  have hrun := runOn_thread i g i.lanes k h.lanes h.within
  refine ⟨hm.within.trans hca.within, ⟨k', hk', Block.same_trans (runOn_same i g i.lanes k) hsame, fun tid => ⟨?_, fun hn => ?_⟩⟩,
    t, _, rfl, hm.state, hm.others, hm.block, runOn_threads i g i.lanes k, (runOn_same i g i.lanes k).2, hrun⟩
  · have := (hth tid).1
    rwa [hrun tid] at this
  · have := (hth tid).2 (by rintro ⟨l, hl, he⟩; exact hn l hl he)
    rw [hrun tid, if_neg] at this
    · exact this
    · simp only [List.any_eq_true, Bool.and_eq_true, beq_iff_eq, not_exists, not_and]
      exact fun l hl he => absurd he.1 (hn l hl)

/-- An instruction on each lane's thread alone: every thread that executes it becomes g of what it was. -/
theorem runThreads_ran (s : State) (i : Issue) (k : Block) (ins : Instr) (F : Thread → Except Trap Thread)
    (g : Nat → Thread → Thread) (h : Issuing s i k) (hp : s.passes i ins) (hc : instrCeiling ins ≠ 0)
    (hF : ∀ l ∈ i.lanes, l.pred = true → F (k.thread l.tid) = .ok (g l.tid (k.thread l.tid))) :
    Ran s i k (wordsOf ins) g (s.runThreads ins F) := by
  refine runLanes_ran s i k ins (onThread F) g h hp hc fun t k' l hl hm hk ht hpr => ?_
  have hth : t.thread i.block l.tid = k.thread l.tid := by simp [State.thread, hm.block, ht]
  simp only [onThread, hth, hF l hl hpr]
  congr 1
  simp only [State.updThread, State.updBlock, hm.block, Block.updThread, ht]

/-- An instruction whose meaning is a run over threads computes f where its thread function answers f. -/
theorem computes_of_threads {s : State} {i : Issue} {k : Block} {ins : Instr} {F : Thread → Except Trap Thread}
    {f : Thread → Thread} (h : Issuing s i k) (hc : instrCeiling ins = 3) (he : exec ins s = .next (s.runThreads ins F))
    (hF : ∀ th, F th = .ok (f th)) : Computes s i k ins f :=
  fun hp => ⟨_, he, runThreads_ran s i k ins F (fun _ => f) h hp (by rw [hc]; decide) fun l _ _ => hF _⟩

/-! ## Instructions that do more than change their own threads -/

/-- The table of cores is canonical, and the bundle being issued is one of the block. -/
def Good (i : Issue) (t : State) : Prop :=
  Sparse.wf Core.reset t.cores = true ∧ ∀ u, t.bundle? i.core i.bundle = some u → u.block = i.block

/-- What a lane's effect may do to the clause: it goes on, it is to be filed when it completes, or the lane leaves it. -/
def Leaves (i : Issue) (l : Lane) (t t' : State) : Prop :=
  Good i t' ∧ (t'.issue = t.issue ∨ t'.issue = t.issue.map (fun j => { j with reform := true })
    ∨ t'.issue = t.issue.map fun j => { j with lanes := j.lanes.filter fun m => m.tid != l.tid })

/-- The loop over lanes of an instruction, where each lane that executes makes the machine f of what it was. -/
theorem laneLoop_inLanes (i : Issue) (ins : Instr) (rpos : Nat) (F : State → Issue → Lane → LaneOut)
    (P : State → Lane → Prop) (f : State → Lane → State)
    (hF : ∀ (t : State) (l : Lane), l ∈ i.lanes → l.start ≤ i.pos → l.pred = true → t.gate i l ins = none → Good i t → P t l →
      (t.settleLane i l rpos (gated ins F t i l)).1 = f t l
        ∧ ((t.settleLane i l rpos (gated ins F t i l)).2 && instrOrders ins) = false ∧ Leaves i l t (f t l))
    (ls : List Lane) (hls : ∀ l ∈ ls, l ∈ i.lanes) (hn : (ls.map (·.tid)).Nodup) (t : State) (L : List Lane) (r : Bool)
    (ht : t.issue = some { i with lanes := L, reform := r }) (hL : ∀ l ∈ ls, l ∈ L) (hg : Good i t) (ha : Along i ins P f ls t)
    (more : List Lane) :
    t.laneLoop i rpos (instrOrders ins) (gated ins F) (ls ++ more)
        = (ls.foldl (fun s l => if l.start ≤ i.pos ∧ l.pred = true then f s l else s) t).laneLoop i rpos (instrOrders ins)
            (gated ins F) more
      ∧ Good i (ls.foldl (fun s l => if l.start ≤ i.pos ∧ l.pred = true then f s l else s) t)
      ∧ ∃ L' r', (ls.foldl (fun s l => if l.start ≤ i.pos ∧ l.pred = true then f s l else s) t).issue
          = some { i with lanes := L', reform := r' } ∧ ∀ m ∈ L, (∀ x ∈ ls, x.tid ≠ m.tid) → m ∈ L' := by
  induction ls generalizing t L r with
  | nil => exact ⟨rfl, hg, L, r, ht, fun m hm _ => hm⟩
  | cons l ls ih =>
    simp only [List.map_cons, List.nodup_cons] at hn
    have hne : ∀ x ∈ ls, x.tid ≠ l.tid := fun x hx h => hn.1 (List.mem_map.mpr ⟨x, hx, h⟩)
    have here : (t.issue.map fun j => j.lanes.any fun m => m.tid == l.tid).getD false = true := by
      rw [ht]
      simpa using ⟨l, hL l (by simp), rfl⟩
    obtain ⟨hp, hrest⟩ := ha
    have hls' : ∀ x ∈ ls, x ∈ i.lanes := fun x hx => hls x (by simp [hx])
    have widen : ∀ {u : State} {M : List Lane} {Q₁ Q₂ : Prop},
        (Q₁ ∧ Q₂ ∧ ∃ L' r', u.issue = some { i with lanes := L', reform := r' } ∧ ∀ m ∈ M, (∀ x ∈ ls, x.tid ≠ m.tid) → m ∈ L') →
        (∀ m ∈ L, m.tid ≠ l.tid → m ∈ M) →
        Q₁ ∧ Q₂ ∧ ∃ L' r', u.issue = some { i with lanes := L', reform := r' }
          ∧ ∀ m ∈ L, (∀ x ∈ l :: ls, x.tid ≠ m.tid) → m ∈ L' :=
      fun ⟨h₁, h₂, L', r', hi, hm⟩ hM => ⟨h₁, h₂, L', r', hi, fun m hmL hx =>
        hm m (hM m hmL (hx l (by simp)).symm) fun x hxl => hx x (by simp [hxl])⟩
    have hL' : ∀ x ∈ ls, x ∈ L := fun x hx => hL x (by simp [hx])
    simp only [List.cons_append, State.laneLoop, here, Bool.true_and, List.foldl_cons]
    by_cases hs : l.start ≤ i.pos
    · simp only [hs, decide_true, if_true, true_and]
      obtain ⟨hgate, hP⟩ := hp hs
      by_cases hpr : l.pred = true
      · obtain ⟨he, ho, hgood, hiss⟩ := hF t l (hls l (by simp)) hs hpr hgate hg (hP hpr)
        simp only [he, ho, Bool.false_eq_true, if_false, hpr, if_true]
        rw [if_pos ⟨hs, hpr⟩] at hrest
        rcases hiss with hiss | hiss | hiss
        · exact widen (ih hls' hn.2 (f t l) L r (hiss.trans ht) hL' hgood hrest) fun _ h _ => h
        · exact widen (ih hls' hn.2 (f t l) L true (by rw [hiss, ht]; rfl) hL' hgood hrest) fun _ h _ => h
        · refine widen (ih hls' hn.2 (f t l) (L.filter fun m => m.tid != l.tid) r (by rw [hiss, ht]; rfl) (fun x hx => ?_) hgood hrest)
            fun m hm hn => by simpa using ⟨hm, hn⟩
          simpa using ⟨hL' x hx, hne x hx⟩
      · have hd : gated ins F t i l = .done t := by simp [gated, hgate, hpr]
        simp only [hd, State.settleLane, Bool.false_and, Bool.false_eq_true, if_false, hpr]
        rw [if_neg fun h => hpr h.2] at hrest
        exact widen (ih hls' hn.2 t L r ht hL' hg hrest) fun _ h _ => h
    · simp only [hs, decide_false, Bool.false_eq_true, if_false, false_and]
      rw [if_neg fun h => hs h.1] at hrest
      exact widen (ih hls' hn.2 t L r ht hL' hg hrest) fun _ h _ => h

/-- What an instruction run over its lanes does, from what each lane that executes does. -/
theorem passed_of_runLanes {s : State} {i : Issue} {ins : Instr} {F : State → Issue → Lane → LaneOut}
    {P : State → Lane → Prop} {f : State → Lane → State} (hi : s.issue = some i) (hn : (i.lanes.map (·.tid)).Nodup) (hg : Good i s)
    (hF : ∀ (t : State) (l : Lane), l ∈ i.lanes → l.start ≤ i.pos → l.pred = true → t.gate i l ins = none → Good i t → P t l →
      (t.settleLane i l (i.pos + wordsOf ins) (gated ins F t i l)).1 = f t l
        ∧ ((t.settleLane i l (i.pos + wordsOf ins) (gated ins F t i l)).2 && instrOrders ins) = false ∧ Leaves i l t (f t l))
    (ha : Along i ins P f i.lanes s) : Passed i.block (wordsOf ins) (s.inLanes i f) (s.runLanes ins F) := by
  obtain ⟨he, hgood, L', r, hL', -⟩ := laneLoop_inLanes i ins (i.pos + wordsOf ins) F P f hF i.lanes (fun _ h => h) hn s i.lanes
    i.reform hi (fun _ h => h) hg ha []
  rw [List.append_nil] at he
  rw [runLanes_eq s i ins F hi, he]
  change Passed i.block _ (s.inLanes i f) ((s.inLanes i f).afterInstr _)
  change Good i (s.inLanes i f) at hgood
  change (s.inLanes i f).issue = _ at hL'
  generalize s.inLanes i f = u at hgood hL'
  have hc := calm_afterInstr (p := fun tid => ∃ l ∈ L', l.tid = tid) u { i with lanes := L', reform := r } (wordsOf ins) hL'
    (fun l hl => ⟨l, hl, rfl⟩) hgood.1 hgood.2
  refine ⟨rfl, hc.within, fun k hk => ?_⟩
  obtain ⟨k', hk', hs, ht⟩ := hc.block k hk
  refine ⟨k', hk', hs, fun tid => ⟨(ht tid).1, fun h => (ht tid).2 ?_⟩⟩
  rintro ⟨l, hl, he⟩
  exact h _ hL' l hl he

/-- With no clause under way the lanes do nothing. -/
theorem laneLoop_none (s : State) (i : Issue) (rpos : Nat) (o : Bool) (F : State → Issue → Lane → LaneOut) (ls : List Lane)
    (h : s.issue = none) : s.laneLoop i rpos o F ls = s := by
  induction ls with
  | nil => rfl
  | cons l ls ih => simp [State.laneLoop, h, ih]

/-- An instruction that stops its clause at a lane, from what the lanes before it and that lane do. -/
theorem stops_runLanes {s : State} {i : Issue} {ins : Instr} {F : State → Issue → Lane → LaneOut}
    {P Q : State → Lane → Prop} {f g : State → Lane → State} (hi : s.issue = some i) (hn : (i.lanes.map (·.tid)).Nodup) (hg : Good i s)
    (hF : ∀ (t : State) (l : Lane), l ∈ i.lanes → l.start ≤ i.pos → l.pred = true → t.gate i l ins = none → Good i t → P t l →
      (t.settleLane i l (i.pos + wordsOf ins) (gated ins F t i l)).1 = f t l
        ∧ ((t.settleLane i l (i.pos + wordsOf ins) (gated ins F t i l)).2 && instrOrders ins) = false ∧ Leaves i l t (f t l))
    (hG : ∀ (t : State) (l : Lane), l.start ≤ i.pos → l.pred = true → t.gate i l ins = none → Good i t → Q t l →
      t.settleLane i l (i.pos + wordsOf ins) (gated ins F t i l) = (g t l, false) ∧ (g t l).issue = none)
    {ls rest : List Lane} {l : Lane} (hl : i.lanes = ls ++ l :: rest) (hs : l.start ≤ i.pos) (hp : l.pred = true)
    (ha : Along i ins P f ls s) (hgate : (s.upTo i f ls).gate i l ins = none) (hQ : Q (s.upTo i f ls) l) :
    s.runLanes ins F = g (s.upTo i f ls) l := by
  have hn' : (ls.map (·.tid)).Nodup ∧ ∀ m ∈ ls, m.tid ≠ l.tid := by
    rw [hl] at hn
    simp only [List.map_append, List.map_cons, List.nodup_append, List.mem_map, List.mem_cons, List.nodup_cons] at hn
    exact ⟨hn.1, fun m hm h => hn.2.2 m.tid ⟨m, hm, rfl⟩ l.tid (.inl rfl) h⟩
  have hmem : ∀ m ∈ ls, m ∈ i.lanes := fun m hm => by rw [hl]; simp [hm]
  obtain ⟨he, hgood, L', r', hL', hin⟩ := laneLoop_inLanes i ins (i.pos + wordsOf ins) F P f hF ls hmem hn'.1 s i.lanes
    i.reform hi hmem hg ha (l :: rest)
  rw [runLanes_eq s i ins F hi, hl, he]
  change State.afterInstr (State.laneLoop (s.upTo i f ls) i _ _ _ _) _ = _
  change Good i (s.upTo i f ls) at hgood
  change (s.upTo i f ls).issue = _ at hL'
  generalize s.upTo i f ls = u at *
  obtain ⟨h1, h2⟩ := hG u l hs hp hgate hgood hQ
  have hin : (L'.any fun m => m.tid == l.tid) = true := by
    simpa using ⟨l, hin l (by rw [hl]; simp) hn'.2, rfl⟩
  simp only [State.laneLoop, hL', Option.map_some, Option.getD_some, hin, hs, decide_true, Bool.and_self, if_true, h1,
    Bool.false_and, Bool.false_eq_true, if_false]
  rw [laneLoop_none _ _ _ _ _ _ h2]
  simp [State.afterInstr, h2]

theorem Issuing.good {s : State} {i : Issue} {k : Block} (h : Issuing s i k) : Good i s := ⟨h.cores, h.bundle⟩

/-- An instruction whose meaning is a run over its lanes does what each lane that executes does. -/
theorem does_of_runLanes {s : State} {i : Issue} {k : Block} {ins : Instr} {F : State → Issue → Lane → LaneOut}
    {P : State → Lane → Prop} {f : State → Lane → State} (h : Issuing s i k) (he : exec ins s = .next (s.runLanes ins F))
    (hF : ∀ (t : State) (l : Lane), l ∈ i.lanes → l.start ≤ i.pos → l.pred = true → t.gate i l ins = none → Good i t → P t l →
      (t.settleLane i l (i.pos + wordsOf ins) (gated ins F t i l)).1 = f t l
        ∧ ((t.settleLane i l (i.pos + wordsOf ins) (gated ins F t i l)).2 && instrOrders ins) = false ∧ Leaves i l t (f t l)) : Does s i ins P f :=
  fun ha => ⟨_, he, passed_of_runLanes h.clause h.lanes h.good hF ha⟩

/-- The same of a long-latency instruction. -/
theorem doesLong_of_runLongLanes {s : State} {i : Issue} {k : Block} {ins : Instr} {F : State → Issue → Lane → LaneOut}
    {P : State → Lane → Prop} {f : State → Lane → State} (h : Issuing s i k) (he : exec ins s = .next (s.runLongLanes ins F))
    (hF : ∀ (t : State) (l : Lane), l ∈ i.lanes → l.start ≤ i.pos → l.pred = true → t.gate i.counted l ins = none →
      Good i.counted t → P t l →
      (t.settleLane i.counted l (i.pos + wordsOf ins) (gated ins F t i.counted l)).1 = f t l
        ∧ ((t.settleLane i.counted l (i.pos + wordsOf ins) (gated ins F t i.counted l)).2 && instrOrders ins) = false
        ∧ Leaves i.counted l t (f t l)) :
    DoesLong s i ins P f := fun ha => by
  refine ⟨_, he, ?_⟩
  have hc : s.countLong = { s with issue := some i.counted } := by simp only [State.countLong, h.clause]; rfl
  simp only [State.runLongLanes, hc]
  exact passed_of_runLanes (s := { s with issue := some i.counted }) (i := i.counted) rfl h.lanes ⟨h.cores, h.bundle⟩ hF ha

theorem good_updThread {i : Issue} {t : State} (h : Good i t) (b tid : Nat) (f : Thread → Thread) : Good i (t.updThread b tid f) := by
  refine ⟨by simpa using h.1, fun u hu => h.2 u ?_⟩
  simpa [State.updThread, bundle?_updBlock] using hu

theorem good_of_cores {i : Issue} {t t' : State} (h : Good i t) (hc : t'.cores = t.cores) : Good i t' := by
  refine ⟨hc ▸ h.1, fun u hu => h.2 u ?_⟩
  simpa [State.bundle?, State.core, hc] using hu

theorem leaves_of_same {i : Issue} {l : Lane} {t t' : State} (h : Good i t) (hc : t'.cores = t.cores) (hi : t'.issue = t.issue) :
    Leaves i l t t' := ⟨good_of_cores h hc, .inl hi⟩

@[simp] theorem State.pend_cores (s : State) (i : Issue) (l : Lane) (rs ps fl r m h e) : (s.pend i l rs ps fl r m h e).cores = s.cores := by
  simp [State.pend, State.fresh]

@[simp] theorem State.pend_issue (s : State) (i : Issue) (l : Lane) (rs ps fl r m h e) : (s.pend i l rs ps fl r m h e).issue = s.issue := by
  simp [State.pend, State.fresh]

theorem gated_done {ins : Instr} {F : State → Issue → Lane → LaneOut} {t : State} {i : Issue} {l : Lane} (hc : instrCeiling ins ≠ 0)
    (hg : t.gate i l ins = none) (hp : l.pred = true) : gated ins F t i l = F t i l := by
  have : (instrCeiling ins == 0) = false := by simpa using hc
  simp [gated, hg, hp, this]

theorem updThread_of (t : State) (b tid : Nat) (f : Thread → Thread) :
    t.updThread b tid f = t.updThread b tid fun _ => f (t.thread b tid) := by
  simp only [State.updThread, State.thread, State.updBlock]
  cases t.block? b with
  | none => rfl
  | some k => simp [Block.updThread]

theorem floats_of_runFlt {s : State} {i : Issue} {k : Block} {ins : Instr} {long : Thread → Bool} {P : Thread → Prop}
    {F : State → Issue → Lane → Thread → Except Trap FltOut} {out : State → Thread → FltOut} (h : Issuing s i k)
    (hc : instrCeiling ins = 3) (he : exec ins s = .next (s.runFlt ins long F))
    (hF : ∀ (t : State) (j : Issue) (l : Lane) (th : Thread), (j = i ∨ j = i.counted) → P th → F t j l th = .ok (out t th)) :
    Floats s i ins long P out := by
  have lane : ∀ (j : Issue) (t : State) (l : Lane) (n : Nat), (j = i ∨ j = i.counted) → l.pred = true → t.gate j l ins = none →
      Good j t → P (t.thread j.block l.tid) →
      (t.settleLane j l n (gated ins (fltBody long F) t j l)).1 = fltLane j long out t l
        ∧ ((t.settleLane j l n (gated ins (fltBody long F) t j l)).2 && instrOrders ins) = false ∧ Leaves j l t (fltLane j long out t l) := by
    intro j t l n hj hp hg hgood hP
    rw [gated_done (by rw [hc]; decide) hg hp]
    simp only [fltBody, State.laneThread, hF t j l _ hj hP, fltLane, State.settleLane]
    by_cases hl : long (t.thread j.block l.tid) = true
    · simp only [hl, if_true, true_and, Bool.false_and]
      exact leaves_of_same hgood (by simp) (by simp)
    · simp only [hl, Bool.false_eq_true, if_false]
      exact ⟨by rw [updThread_of], rfl, leaves_of_same hgood (by simp) (by simp)⟩
  refine ⟨fun hl => ?_, fun hl => ?_⟩
  · refine does_of_runLanes h (F := fltBody long F) ?_ (fun t l _ _ hp hg hgood hP => lane i t l _ (.inl rfl) hp hg hgood hP)
    rw [he]
    have : (i.lanes.any fun l => l.pred && long (s.laneThread i l)) = false := by
      simp only [List.any_eq_false, Bool.and_eq_true, not_and, Bool.not_eq_true]
      exact hl
    simp only [State.runFlt, h.clause, this, Bool.false_eq_true, if_false]
  · refine doesLong_of_runLongLanes h (F := fltBody long F) ?_ (fun t l _ _ hp hg hgood hP => lane i.counted t l _ (.inr rfl) hp hg hgood hP)
    rw [he]
    have : (i.lanes.any fun l => l.pred && long (s.laneThread i l)) = true := by
      simp only [List.any_eq_true, Bool.and_eq_true]
      exact hl
    simp only [State.runFlt, h.clause, this, if_true, State.runLongLanes]

end Sys2Proof.Machine
end

