-- ==== Sys2Proof/Laws/PerInstr.lean ====
section
/-! SUPPORT. One lemma for every instruction: the fields of its encoding are parsed to it again. The round trip of whole
words rests on them. -/

-- one proof after another: the many threads of this file would each take memory
set_option Elab.async false

namespace Sys2Proof.Laws

/-! ## Codes and small fields -/

@[simp] theorem fmt_code (f : Fmt) : Fmt.ofCode f.code = some f := by cases f <;> rfl
@[simp] theorem policy_code (p : Policy) : Policy.ofCode p.code = some p := by cases p <;> rfl
@[simp] theorem scope_code (p : Scope) : Scope.ofCode p.code = some p := by cases p <;> rfl
@[simp] theorem aop_code (p : AOp) : AOp.ofCode p.code = some p := by cases p <;> rfl
@[simp] theorem icond_code (p : ICond) : ICond.ofCode p.code = some p := by cases p <;> rfl
@[simp] theorem fcond_code (p : FCond) : FCond.ofCode p.code = some p := by cases p <;> rfl
@[simp] theorem satMode_code (p : SatMode) : SatMode.ofCode p.code = some p := by cases p <;> rfl
@[simp] theorem intTy_code (p : IntTy) : IntTy.ofCode p.code = some p := by cases p <;> rfl
@[simp] theorem voteMode_code (p : VoteMode) : VoteMode.ofCode p.code = some p := by cases p <;> rfl
@[simp] theorem laneOp_code (p : LaneOp) : LaneOp.ofCode p.code = some p := by cases p <;> rfl
@[simp] theorem cctlOp_code (p : CctlOp) : CctlOp.ofCode p.code = some p := by cases p <;> rfl

@[simp] theorem rnd_code (r : Rnd) : Rnd.ofCode r.code = some r := by
  cases r with
  | inForce => rfl
  | forced m => revert m; decide

@[simp] theorem predOf_predField (p : PredNo) : predOf (predField p) = p := by revert p; decide

@[simp] theorem imm16_w0c (op : BitVec 6) (w : Width) (d : Reg) (i : Half) : (w0c op w d i).imm16 = i := by
  unfold w0c W0.imm16
  ext j hj
  simp only [BitVec.getElem_append, BitVec.getElem_extractLsb']
  split
  · simp [BitVec.getLsbD_eq_getElem hj]
  · next h =>
    have : 8 + (j - 8) = j := by omega
    simp [this, BitVec.getLsbD_eq_getElem hj]

@[simp] theorem x2_bit (b : Bool) : (x2Mod b)[3] = b := by cases b <;> rfl

@[simp] theorem p_mask (m v : BitVec 4) : (m ++ v).extractLsb' 4 4 = m := by revert m v; decide

@[simp] theorem bit3 (b : Bool) : (BitVec.ofBool b ++ 0#3).getLsbD 3 = b := by cases b <;> rfl

/-! ## The family -/

/-- The fields of an instruction's encoding, if it has one, are parsed to it. -/
def Parses.Statement (i : Instr) : Prop := ∀ e, encodeFields i = some e → parse e.cls e.w0 e.tail = some i

namespace Parses

theorem unitJoin (u : HwUnit) : Statement (.unitJoin u) := nofun

theorem unitJoinTimeout (u : HwUnit) : Statement (.unitJoinTimeout u) := nofun

theorem hlinkTrain (link : BitVec 1) (ok : Bool) : Statement (.hlinkTrain link ok) := nofun

theorem fportTrain (port : BitVec 5) (ok : Bool) (peer : PeerInfo) : Statement (.fportTrain port ok peer) := nofun

theorem powerCapEnforce (watts : Nat) : Statement (.powerCapEnforce watts) := nofun

theorem thermalThrottle (die : BitVec 4) : Statement (.thermalThrottle die) := nofun

theorem thermalGate (die : BitVec 4) : Statement (.thermalGate die) := nofun

theorem thermalRestore (die : BitVec 4) : Statement (.thermalRestore die) := nofun

theorem stackLost (n : BitVec 4) : Statement (.stackLost n) := nofun

theorem computeDieLost (d : BitVec 3) : Statement (.computeDieLost d) := nofun

theorem edgeDieLost (e : BitVec 1) : Statement (.edgeDieLost e) := nofun

theorem hlinkLost (link : BitVec 1) : Statement (.hlinkLost link) := nofun

theorem pcap (watts : Option (BitVec 16)) : Statement (.pcap watts) := nofun

theorem fwchunk (off : Word) (bytes : List Byte) : Statement (.fwchunk off bytes) := nofun

theorem attest (nonce : Option (BitVec 256)) : Statement (.attest nonce) := nofun

theorem i3cUnassignedCommand (code : Byte) : Statement (.i3cUnassignedCommand code) := nofun

theorem fabidWrite (v : Dword) : Statement (.fabidWrite v) := nofun

theorem routeEntryWrite (id : BitVec 10) (v : Word) : Statement (.routeEntryWrite id v) := nofun

theorem ldq (m : Msg) : Statement (.ldq m) := nofun

theorem lda (m : Msg) : Statement (.lda m) := nofun

theorem stq (m : Msg) : Statement (.stq m) := nofun

theorem sta (m : Msg) : Statement (.sta m) := nofun

theorem atq (m : Msg) : Statement (.atq m) := nofun

theorem ata (m : Msg) : Statement (.ata m) := nofun

theorem sig (m : Msg) : Statement (.sig m) := nofun

theorem mcs (m : Msg) : Statement (.mcs m) := nofun

theorem mca (m : Msg) : Statement (.mca m) := nofun

theorem cpw (m : Msg) : Statement (.cpw m) := nofun

theorem ivq (m : Msg) : Statement (.ivq m) := nofun

theorem ivo (m : Msg) : Statement (.ivo m) := nofun

theorem hpl (m : Msg) : Statement (.hpl m) := nofun

theorem hrs (m : Msg) : Statement (.hrs m) := nofun

theorem hbk (m : Msg) : Statement (.hbk m) := nofun

theorem nak (m : Msg) : Statement (.nak m) := nofun

theorem messageForward (m : Msg) : Statement (.messageForward m) := nofun

theorem flitReplay (port : BitVec 5) : Statement (.flitReplay port) := nofun

theorem flowStop (port : BitVec 5) (vc : BitVec 2) : Statement (.flowStop port vc) := nofun

theorem flowGo (port : BitVec 5) (vc : BitVec 2) : Statement (.flowGo port vc) := nofun

theorem crossDeviceFold (grid : Dword) (page : FoldAt) : Statement (.crossDeviceFold grid page) := nofun

theorem registerWrite (off : BitVec 24) (v : Dword) : Statement (.registerWrite off v) := nofun

theorem tenantEnWrite (t : BitVec 6) (v : Dword) : Statement (.tenantEnWrite t v) := nofun

theorem wideEntryLowWrite (t : BitVec 6) (off : BitVec 9) (v : Dword) : Statement (.wideEntryLowWrite t off v) := nofun

theorem wideEntryHighWrite (t : BitVec 6) (off : BitVec 9) (v : Dword) : Statement (.wideEntryHighWrite t off v) := nofun

theorem mpshareWrite (t : BitVec 6) (v : Dword) : Statement (.mpshareWrite t v) := nofun

theorem slshareWrite (t : BitVec 6) (v : Dword) : Statement (.slshareWrite t v) := nofun

theorem poolBaseWrite (size : Bool) (v : Dword) : Statement (.poolBaseWrite size v) := nofun

theorem imaskWrite (t : BitVec 6) (v : Dword) : Statement (.imaskWrite t v) := nofun

theorem hostApertureLoad (t : BitVec 6) (off : BitVec 53) (n : BitVec 7) : Statement (.hostApertureLoad t off n) := nofun

theorem hostApertureStore (t : BitVec 6) (off : BitVec 53) (bytes : List Byte) : Statement (.hostApertureStore t off bytes) := nofun

theorem hostLineInvalidate (addr : Dword) (bytes : List Byte) : Statement (.hostLineInvalidate addr bytes) := nofun

theorem tableWalk (t : BitVec 6) (va : Dword) (acc : Access) : Statement (.tableWalk t va acc) := nofun

theorem tlbinvAll (t : BitVec 6) : Statement (.tlbinvAll t) := nofun

theorem tlbinvSpan (t : BitVec 6) (span : BitVec 5) (vpage : BitVec 36) : Statement (.tlbinvSpan t span vpage) := nofun

theorem tlbinvComplete (t : BitVec 6) : Statement (.tlbinvComplete t) := nofun

theorem queueControlWrite (t : BitVec 6) (q : BitVec 4) (v : Dword) : Statement (.queueControlWrite t q v) := nofun

theorem notify (t : BitVec 6) (v : Dword) : Statement (.notify t v) := nofun

theorem launchRecordRead (t : BitVec 6) (q : BitVec 4) : Statement (.launchRecordRead t q) := nofun

theorem qtlWrite (t : BitVec 6) (q : BitVec 4) (k : BitVec 3) (v : Dword) : Statement (.qtlWrite t q k v) := nofun

theorem launchStart (t : BitVec 6) (q : BitVec 4) : Statement (.launchStart t q) := nofun

theorem launchComplete (grid : Nat) : Statement (.launchComplete grid) := nofun

theorem fqbaseWrite (t : BitVec 6) (v : Dword) : Statement (.fqbaseWrite t v) := nofun

theorem fqControlWrite (t : BitVec 6) (v : Dword) : Statement (.fqControlWrite t v) := nofun

theorem fqheadWrite (t : BitVec 6) (v : Dword) : Statement (.fqheadWrite t v) := nofun

theorem resume (t : BitVec 6) (seq : BitVec 62) : Statement (.resume t seq) := nofun

theorem kill (t : BitVec 6) (q : BitVec 4) : Statement (.kill t q) := nofun

theorem qsuspWrite (t : BitVec 6) (v : Dword) : Statement (.qsuspWrite t v) := nofun

theorem blockSave (block : Nat) : Statement (.blockSave block) := nofun

theorem blockRestore (block : Nat) : Statement (.blockRestore block) := nofun

theorem governorRound (core : Nat) : Statement (.governorRound core) := nofun

theorem turnBoundary (grid : Nat) : Statement (.turnBoundary grid) := nofun

theorem viewpoolDeadlock (t : BitVec 6) : Statement (.viewpoolDeadlock t) := nofun

theorem childComplete (block : Nat) : Statement (.childComplete block) := nofun

theorem joinCheck (j : JoinAt) : Statement (.joinCheck j) := nofun

theorem joinApply (j : JoinAt) : Statement (.joinApply j) := nofun

theorem vdropComplete (d : DropAt) : Statement (.vdropComplete d) := nofun

theorem taskComplete (grid : Nat) : Statement (.taskComplete grid) := nofun

theorem sluiceTimeout (block : Nat) (thread : Nat) : Statement (.sluiceTimeout block thread) := nofun

theorem specSlotTimeout (block : Nat) : Statement (.specSlotTimeout block) := nofun

theorem specCheck (block : Nat) : Statement (.specCheck block) := nofun

theorem specCommit (block : CommitAt) : Statement (.specCommit block) := nofun

theorem specRestore (block : Nat) : Statement (.specRestore block) := nofun

theorem clauseIssue (core : Nat) (bundle : Nat) : Statement (.clauseIssue core bundle) := nofun

theorem bundleDraw (core : Nat) (bin : Nat) : Statement (.bundleDraw core bin) := nofun

theorem boltDrain (core : Nat) (bin : Nat) : Statement (.boltDrain core bin) := nofun

theorem resultWriteback (pending : Nat) : Statement (.resultWriteback pending) := nofun

theorem matrixPassGrant (wheel : Nat) : Statement (.matrixPassGrant wheel) := nofun

theorem matrixEntryAged (wheel : Nat) (entry : Nat) : Statement (.matrixEntryAged wheel entry) := nofun

theorem matrixPassComplete (wheel : Nat) : Statement (.matrixPassComplete wheel) := nofun

theorem blockComplete (block : Nat) : Statement (.blockComplete block) := nofun

theorem lineEviction (core : Nat) (index : Nat) : Statement (.lineEviction core index) := nofun

theorem barrierTimeout (w : TimedWait) : Statement (.barrierTimeout w) := nofun

theorem rwaitTimeout (block : Nat) (tag : Nat) : Statement (.rwaitTimeout block tag) := nofun

theorem copyComplete (op : Nat) : Statement (.copyComplete op) := nofun

theorem engineAbandon (op : Nat) : Statement (.engineAbandon op) := nofun

theorem nbgemvComplete (op : Nat) : Statement (.nbgemvComplete op) := nofun

theorem iadd (w : Width) (d a b : Reg) : Statement (.iadd w d a b) := by intro e he; cases he; rfl

theorem iaddImm (w : Width) (d a : Reg) (i : BitVec 8) : Statement (.iaddImm w d a i) := by intro e he; cases he; rfl

theorem iaddc (w : Width) (d a b : Reg) (pco : PredNo) (pci : Option PredNo) : Statement (.iaddc w d a b pco pci) := by
  intro e he
  cases he
  cases pci with
  | none =>
    simp [parse, parseInt, w0, extCM]
    revert pco; decide
  | some p =>
    simp [parse, parseInt, w0, extCM]
    revert pco; decide

theorem isub (w : Width) (d a b : Reg) : Statement (.isub w d a b) := by intro e he; cases he; rfl

theorem isubImm (w : Width) (d a : Reg) (i : BitVec 8) : Statement (.isubImm w d a i) := by intro e he; cases he; rfl

theorem imul (w : Width) (d a b : Reg) : Statement (.imul w d a b) := by intro e he; cases he; rfl

theorem imulh (w : Width) (d a b : Reg) : Statement (.imulh w d a b) := by intro e he; cases he; rfl

theorem imad (w : Width) (d a b c : Reg) (m : SatMode) : Statement (.imad w d a b c m) := by
  intro e he
  cases he
  simp [parse, parseInt, w0, extCM]

theorem idiv (w : Width) (d a b : Reg) : Statement (.idiv w d a b) := by intro e he; cases he; rfl

theorem irem (w : Width) (d a b : Reg) : Statement (.irem w d a b) := by intro e he; cases he; rfl

theorem ineg (w : Width) (d a : Reg) : Statement (.ineg w d a) := by intro e he; cases he; rfl

theorem iabs (w : Width) (d a : Reg) : Statement (.iabs w d a) := by intro e he; cases he; rfl

theorem imin (w : Width) (d a b : Reg) : Statement (.imin w d a b) := by intro e he; cases he; rfl

theorem imax (w : Width) (d a b : Reg) : Statement (.imax w d a b) := by intro e he; cases he; rfl

theorem idp4 (d a b c : Reg) (sa sb sat : Bool) : Statement (.idp4 d a b c sa sb sat) := by
  intro e he
  cases he
  simp [parse, parseInt, w0, extCM]
  (revert sa sb sat; decide)

theorem shl (w : Width) (d a b : Reg) : Statement (.shl w d a b) := by intro e he; cases he; rfl

theorem shlImm (w : Width) (d a : Reg) (i : BitVec 8) : Statement (.shlImm w d a i) := by intro e he; cases he; rfl

theorem shr (w : Width) (d a b : Reg) : Statement (.shr w d a b) := by intro e he; cases he; rfl

theorem shrImm (w : Width) (d a : Reg) (i : BitVec 8) : Statement (.shrImm w d a i) := by intro e he; cases he; rfl

theorem sar (w : Width) (d a b : Reg) : Statement (.sar w d a b) := by intro e he; cases he; rfl

theorem sarImm (w : Width) (d a : Reg) (i : BitVec 8) : Statement (.sarImm w d a i) := by intro e he; cases he; rfl

theorem rol (w : Width) (d a b : Reg) : Statement (.rol w d a b) := by intro e he; cases he; rfl

theorem rolImm (w : Width) (d a : Reg) (i : BitVec 8) : Statement (.rolImm w d a i) := by intro e he; cases he; rfl

theorem andReg (w : Width) (d a b : Reg) : Statement (.andReg w d a b) := by intro e he; cases he; rfl

theorem orReg (w : Width) (d a b : Reg) : Statement (.orReg w d a b) := by intro e he; cases he; rfl

theorem xorReg (w : Width) (d a b : Reg) : Statement (.xorReg w d a b) := by intro e he; cases he; rfl

theorem notReg (w : Width) (d a : Reg) : Statement (.notReg w d a) := by intro e he; cases he; rfl

theorem andn (w : Width) (d a b : Reg) : Statement (.andn w d a b) := by intro e he; cases he; rfl

theorem andImm32 (w : Width) (d a : Reg) (i : Word) : Statement (.andImm32 w d a i) := by intro e he; cases he; rfl

theorem orImm32 (w : Width) (d a : Reg) (i : Word) : Statement (.orImm32 w d a i) := by intro e he; cases he; rfl

theorem xorImm32 (w : Width) (d a : Reg) (i : Word) : Statement (.xorImm32 w d a i) := by intro e he; cases he; rfl

theorem popc (w : Width) (d a : Reg) : Statement (.popc w d a) := by intro e he; cases he; rfl

theorem clz (w : Width) (d a : Reg) : Statement (.clz w d a) := by intro e he; cases he; rfl

theorem ctz (w : Width) (d a : Reg) : Statement (.ctz w d a) := by intro e he; cases he; rfl

theorem brev (w : Width) (d a : Reg) : Statement (.brev w d a) := by intro e he; cases he; rfl

theorem bfx (w : Width) (d a b : Reg) (signed : Bool) : Statement (.bfx w d a b signed) := by
  intro e he
  cases he
  simp [parse, parseInt, w0, extCM]
  (revert signed; decide)

theorem bfi (w : Width) (d a b c : Reg) : Statement (.bfi w d a b c) := by
  intro e he
  cases he
  simp [parse, parseInt, w0, extCM]

theorem prmb (d a b c : Reg) : Statement (.prmb d a b c) := by
  intro e he
  cases he
  simp [parse, parseInt, w0, extCM]

theorem isel (w : Width) (d a b : Reg) (pc : PredNo) : Statement (.isel w d a b pc) := by
  intro e he
  cases he
  simp [parse, parseInt, w0, extCM]

theorem icmp (w : Width) (pd : PredNo) (a b : Reg) (pc : PredNo) (cond : ICond) : Statement (.icmp w pd a b pc cond) := by
  intro e he
  cases he
  simp [parse, parseInt, w0, extCM]

theorem imov (w : Width) (d a : Reg) : Statement (.imov w d a) := by intro e he; cases he; rfl

theorem movi (w : Width) (d : Reg) (i : Half) : Statement (.movi w d i) := by
  intro e he
  cases he
  exact congrArg some (by rw [imm16_w0c]; rfl)

theorem movhi (d : Reg) (i : Half) : Statement (.movhi d i) := by
  intro e he
  cases he
  exact congrArg some (by rw [imm16_w0c]; rfl)

theorem moviImm32 (w : Width) (d : Reg) (i : Word) : Statement (.moviImm32 w d i) := by intro e he; cases he; rfl

theorem lea (d a b : Reg) (sh : BitVec 3) (u : Bool) : Statement (.lea d a b sh u) := by
  intro e he
  cases he
  simp [parse, parseInt, w0, extCM]
  (revert sh u; decide)

theorem pand (pd pa pb : PredNo) : Statement (.pand pd pa pb) := by
  intro e he
  cases he
  simp [parse, parseInt, w0]

theorem por (pd pa pb : PredNo) : Statement (.por pd pa pb) := by
  intro e he
  cases he
  simp [parse, parseInt, w0]

theorem pxor (pd pa pb : PredNo) : Statement (.pxor pd pa pb) := by
  intro e he
  cases he
  simp [parse, parseInt, w0]

theorem pnot (pd pa : PredNo) : Statement (.pnot pd pa) := by
  intro e he
  cases he
  simp [parse, parseInt, w0]

theorem pmov (pd pa : PredNo) : Statement (.pmov pd pa) := by
  intro e he
  cases he
  simp [parse, parseInt, w0]

theorem fadd (w : Width) (d a b : Reg) (rnd : Rnd) (fmt : Fmt) (x2 : Bool) : Statement (.fadd w d a b rnd fmt x2) := by
  intro e he
  cases he
  simp [parse, parseFlt, w0, extF]

theorem fsub (w : Width) (d a b : Reg) (rnd : Rnd) (fmt : Fmt) (x2 : Bool) : Statement (.fsub w d a b rnd fmt x2) := by
  intro e he
  cases he
  simp [parse, parseFlt, w0, extF]

theorem fmul (w : Width) (d a b : Reg) (rnd : Rnd) (fmt : Fmt) (x2 : Bool) : Statement (.fmul w d a b rnd fmt x2) := by
  intro e he
  cases he
  simp [parse, parseFlt, w0, extF]

theorem ffma (w : Width) (d a b c : Reg) (rnd : Rnd) (fmt : Fmt) (x2 : Bool) : Statement (.ffma w d a b c rnd fmt x2) := by
  intro e he
  cases he
  simp [parse, parseFlt, w0, extF]

theorem fdiv (w : Width) (d a b : Reg) (rnd : Rnd) (fmt : Fmt) (x2 : Bool) : Statement (.fdiv w d a b rnd fmt x2) := by
  intro e he
  cases he
  simp [parse, parseFlt, w0, extF]

theorem fsqrt (w : Width) (d a : Reg) (rnd : Rnd) (fmt : Fmt) (x2 : Bool) : Statement (.fsqrt w d a rnd fmt x2) := by
  intro e he
  cases he
  simp [parse, parseFlt, w0, extF]

theorem fmin (w : Width) (d a b : Reg) (fmt : Fmt) (x2 : Bool) : Statement (.fmin w d a b fmt x2) := by
  intro e he
  cases he
  simp [parse, parseFlt, w0, extF]

theorem fmax (w : Width) (d a b : Reg) (fmt : Fmt) (x2 : Bool) : Statement (.fmax w d a b fmt x2) := by
  intro e he
  cases he
  simp [parse, parseFlt, w0, extF]

theorem fminnum (w : Width) (d a b : Reg) (fmt : Fmt) (x2 : Bool) : Statement (.fminnum w d a b fmt x2) := by
  intro e he
  cases he
  simp [parse, parseFlt, w0, extF]

theorem fmaxnum (w : Width) (d a b : Reg) (fmt : Fmt) (x2 : Bool) : Statement (.fmaxnum w d a b fmt x2) := by
  intro e he
  cases he
  simp [parse, parseFlt, w0, extF]

theorem fcmp (w : Width) (pd : PredNo) (a b : Reg) (pc : PredNo) (fmt : Fmt) (cond : FCond) : Statement (.fcmp w pd a b pc fmt cond) := by
  intro e he
  cases he
  simp [parse, parseFlt, w0, extF]

theorem fclass (w : Width) (d a : Reg) (fmt : Fmt) : Statement (.fclass w d a fmt) := by
  intro e he
  cases he
  simp [parse, parseFlt, w0, extF]

theorem fabs (w : Width) (d a : Reg) (fmt : Fmt) (x2 : Bool) : Statement (.fabs w d a fmt x2) := by
  intro e he
  cases he
  simp [parse, parseFlt, w0, extF]

theorem fneg (w : Width) (d a : Reg) (fmt : Fmt) (x2 : Bool) : Statement (.fneg w d a fmt x2) := by
  intro e he
  cases he
  simp [parse, parseFlt, w0, extF]

theorem fcopysign (w : Width) (d a b : Reg) (fmt : Fmt) (x2 : Bool) : Statement (.fcopysign w d a b fmt x2) := by
  intro e he
  cases he
  simp [parse, parseFlt, w0, extF]

theorem frint (w : Width) (d a : Reg) (rnd : Rnd) (fmt : Fmt) (x2 : Bool) (nx : Bool) : Statement (.frint w d a rnd fmt x2 nx) := by
  intro e he
  cases he
  simp [parse, parseFlt, w0, extF]
  (revert x2 nx; decide)

theorem fscale (w : Width) (d a b : Reg) (rnd : Rnd) (fmt : Fmt) (x2 : Bool) : Statement (.fscale w d a b rnd fmt x2) := by
  intro e he
  cases he
  simp [parse, parseFlt, w0, extF]

theorem fgetexp (w : Width) (d a : Reg) (fmt : Fmt) (x2 : Bool) : Statement (.fgetexp w d a fmt x2) := by
  intro e he
  cases he
  simp [parse, parseFlt, w0, extF]

theorem fcvt (w : Width) (d a b : Reg) (rnd : Rnd) (dt st : Fmt) (xn : BitVec 4) : Statement (.fcvt w d a b rnd dt st xn) := by
  intro e he
  cases he
  simp [parse, parseFlt, w0, extF]
  cases st <;> rfl

theorem fcvti (w : Width) (d a : Reg) (rnd : Rnd) (st : Fmt) (it : IntTy) : Statement (.fcvti w d a rnd st it) := by
  intro e he
  cases he
  simp [parse, parseFlt, w0, extF]

theorem icvtf (w : Width) (d a : Reg) (rnd : Rnd) (dt : Fmt) (it : IntTy) : Statement (.icvtf w d a rnd dt it) := by
  intro e he
  cases he
  simp [parse, parseFlt, w0, extF]

theorem frcpa (w : Width) (d a : Reg) : Statement (.frcpa w d a) := by
  intro e he
  cases he
  simp [parse, parseFlt, w0, extF]

theorem frsqa (w : Width) (d a : Reg) : Statement (.frsqa w d a) := by
  intro e he
  cases he
  simp [parse, parseFlt, w0, extF]

theorem fexp2a (w : Width) (d a : Reg) : Statement (.fexp2a w d a) := by
  intro e he
  cases he
  simp [parse, parseFlt, w0, extF]

theorem flog2a (w : Width) (d a : Reg) : Statement (.flog2a w d a) := by
  intro e he
  cases he
  simp [parse, parseFlt, w0, extF]

theorem fsina (w : Width) (d a : Reg) : Statement (.fsina w d a) := by
  intro e he
  cases he
  simp [parse, parseFlt, w0, extF]

theorem fcosa (w : Width) (d a : Reg) : Statement (.fcosa w d a) := by
  intro e he
  cases he
  simp [parse, parseFlt, w0, extF]

theorem qmake (w : Width) (d a b : Reg) (rnd : Rnd) (fmt : Fmt) : Statement (.qmake w d a b rnd fmt) := by
  intro e he
  cases he
  simp [parse, parseFlt, w0, extF]

theorem qnum (w : Width) (d a : Reg) (fmt : Fmt) : Statement (.qnum w d a fmt) := by
  intro e he
  cases he
  simp [parse, parseFlt, w0, extF]

theorem qden (w : Width) (d a : Reg) (fmt : Fmt) : Statement (.qden w d a fmt) := by
  intro e he
  cases he
  simp [parse, parseFlt, w0, extF]

theorem qmed (w : Width) (d a b : Reg) (rnd : Rnd) (fmt : Fmt) : Statement (.qmed w d a b rnd fmt) := by
  intro e he
  cases he
  simp [parse, parseFlt, w0, extF]

theorem qcanon (w : Width) (d a : Reg) (fmt : Fmt) : Statement (.qcanon w d a fmt) := by
  intro e he
  cases he
  simp [parse, parseFlt, w0, extF]

theorem ld (w : Width) (d a : Reg) (off : BitVec 8) (pol : Policy) (fresh : Bool) (fmt : Fmt) (size : LdSize) (sx : Bool) : Statement (.ld w d a off pol fresh fmt size sx) := by
  intro e he
  cases he
  simp [parse, parseMem, w0]
  cases size <;> (revert fresh sx; decide)

theorem st (w : Width) (d a : Reg) (off : BitVec 8) (rnd : Rnd) (pol : Policy) (fresh : Bool) (fmt : Fmt) (size : LdSize) : Statement (.st w d a off rnd pol fresh fmt size) := by
  intro e he
  cases he
  simp [parse, parseMem, w0]
  cases size <;> (revert fresh; decide)

theorem lds (w : Width) (d a : Reg) (off : BitVec 8) : Statement (.lds w d a off) := by intro e he; cases he; rfl

theorem sts (w : Width) (d a : Reg) (off : BitVec 8) : Statement (.sts w d a off) := by intro e he; cases he; rfl

theorem ldc (w : Width) (d a : Reg) (off : BitVec 8) : Statement (.ldc w d a off) := by intro e he; cases he; rfl

theorem stc (w : Width) (d a : Reg) (off : BitVec 8) : Statement (.stc w d a off) := by intro e he; cases he; rfl

theorem ldm (w : Width) (d a : Reg) (off : BitVec 8) : Statement (.ldm w d a off) := by intro e he; cases he; rfl

theorem stm (w : Width) (d a : Reg) (off : BitVec 8) : Statement (.stm w d a off) := by intro e he; cases he; rfl

theorem atom (w : Width) (d a b c : Reg) (scope : Scope) (op : AOp) (fmt : Fmt) (nf : Bool) (ord : Ordering3) (uns : Bool) : Statement (.atom w d a b c scope op fmt nf ord uns) := by
  intro e he
  cases he
  simp [parse, parseMem, w0]
  cases ord <;> (revert nf uns; decide)

theorem atoms (w : Width) (d a b c : Reg) (scope : Scope) (op : AOp) (fmt : Fmt) (ord : Ordering3) (uns : Bool) : Statement (.atoms w d a b c scope op fmt ord uns) := by
  intro e he
  cases he
  simp [parse, parseMem, w0]
  cases ord <;> (revert uns; decide)

theorem red (w : Width) (a b : Reg) (scope : Scope) (op : AOp) (fmt : Fmt) (uns : Bool) : Statement (.red w a b scope op fmt uns) := by
  intro e he
  cases he
  simp [parse, parseMem, w0]
  (revert uns; decide)

theorem fence (kind : FenceKind) (scope : Scope) : Statement (.fence kind scope) := by
  intro e he
  cases he
  simp [parse, parseMem, w0]
  cases kind <;> cases scope <;> rfl

theorem discard (a : Reg) (n : BitVec 8) : Statement (.discard a n) := by intro e he; cases he; rfl

theorem pref (a : Reg) (off : BitVec 8) (pol : Policy) : Statement (.pref a off pol) := by
  intro e he
  cases he
  simp [parse, parseMem, w0]

theorem stmc (w : Width) (d a b : Reg) : Statement (.stmc w d a b) := by
  intro e he
  cases he
  simp [parse, parseMem, w0]

theorem bra (i : Half) : Statement (.bra i) := by
  intro e he
  cases he
  exact congrArg some (by rw [imm16_w0c])

theorem bri (a : Reg) : Statement (.bri a) := by intro e he; cases he; rfl

theorem call (d : Reg) (i : Half) : Statement (.call d i) := by
  intro e he
  cases he
  exact congrArg some (by rw [imm16_w0c]; rfl)

theorem calli (d a : Reg) : Statement (.calli d a) := by intro e he; cases he; rfl

theorem ret (a : Reg) : Statement (.ret a) := by intro e he; cases he; rfl

theorem bar (i : BitVec 8) : Statement (.bar i) := by intro e he; cases he; rfl

theorem cbar (i : BitVec 8) : Statement (.cbar i) := by intro e he; cases he; rfl

theorem fork (a : Reg) (i : Word) : Statement (.fork a i) := by intro e he; cases he; rfl

theorem invoke (d a b c : Reg) (n : BitVec 4) : Statement (.invoke d a b c n) := by
  intro e he
  cases he
  simp [parse, parseCtl, w0, extCM]

theorem invokeOn (d a b c : Reg) (n : BitVec 4) : Statement (.invokeOn d a b c n) := by
  intro e he
  cases he
  simp [parse, parseCtl, w0, extCM]

theorem await (d a : Reg) (pb : PredNo) (trap : Bool) : Statement (.await d a pb trap) := by
  intro e he
  cases he
  simp [parse, parseCtl, w0, extCM]
  (revert trap; decide)

theorem hpoll (d a : Reg) : Statement (.hpoll d a) := by intro e he; cases he; rfl

theorem hdrop (a : Reg) : Statement (.hdrop a) := by intro e he; cases he; rfl

theorem spec (a : Reg) : Statement (.spec a) := by intro e he; cases he; rfl

theorem bolt (d a : Reg) (i : Word) : Statement (.bolt d a i) := by intro e he; cases he; rfl

theorem cpy (d a : Reg) (st tb : Bool) (p : PBlock) : Statement (.cpy d a st tb p) := by
  intro e he
  cases he
  obtain ⟨m, _, _, _, _⟩ := p
  simp [parse, parseEng, w0]
  (revert st tb m; decide)

theorem cpyg (d a : Reg) (tb : Bool) (p : PBlock) : Statement (.cpyg d a tb p) := by
  intro e he
  cases he
  obtain ⟨m, _, _, _, _⟩ := p
  simp [parse, parseEng, w0]
  (revert tb m; decide)

theorem cpys (d a : Reg) (tb : Bool) (p : PBlock) : Statement (.cpys d a tb p) := by
  intro e he
  cases he
  obtain ⟨m, _, _, _, _⟩ := p
  simp [parse, parseEng, w0]
  (revert tb m; decide)

theorem cpyr (d a : Reg) (ss tb : Bool) (p : PBlock) : Statement (.cpyr d a ss tb p) := by
  intro e he
  cases he
  obtain ⟨m, _, _, _, _⟩ := p
  simp [parse, parseEng, w0]
  (revert ss tb m; decide)

theorem tbinit (a : Reg) (i : Word) : Statement (.tbinit a i) := by intro e he; cases he; rfl

theorem tbarrive (d a : Reg) : Statement (.tbarrive d a) := by intro e he; cases he; rfl

theorem tbexpect (a b : Reg) : Statement (.tbexpect a b) := by intro e he; cases he; rfl

theorem tbwait (pd : PredNo) (a b : Reg) : Statement (.tbwait pd a b) := by
  intro e he
  cases he
  simp [parse, parseEng, w0]

theorem tbtest (d a b : Reg) : Statement (.tbtest d a b) := by intro e he; cases he; rfl

theorem tlwait (a : Reg) (k : BitVec 3) : Statement (.tlwait a k) := by
  intro e he
  cases he
  simp [parse, parseEng, w0]

theorem tlread (d : Reg) (k : BitVec 3) : Statement (.tlread d k) := by
  intro e he
  cases he
  simp [parse, parseEng, w0]

theorem tladd (a : Reg) (k : BitVec 3) : Statement (.tladd a k) := by
  intro e he
  cases he
  simp [parse, parseEng, w0]

theorem mma (p : PBlock) : Statement (.mma p) := by
  intro e he
  cases he
  simp [parse, parseEng, w0]

theorem accrd (w : Width) (d a : Reg) (m : BitVec 2) (fmt : Fmt) : Statement (.accrd w d a m fmt) := by
  intro e he
  cases he
  simp [parse, parseEng, w0]
  (revert m; decide)

theorem accwr (w : Width) (d a : Reg) (m : BitVec 2) (fmt : Fmt) : Statement (.accwr w d a m fmt) := by
  intro e he
  cases he
  simp [parse, parseEng, w0]
  (revert m; decide)

theorem accz (m : BitVec 2) (pair : Bool) : Statement (.accz m pair) := by
  intro e he
  cases he
  simp [parse, parseEng, w0]
  (revert m pair; decide)

theorem nbgemv (d a : Reg) (tb : Bool) (p : PBlock) : Statement (.nbgemv d a tb p) := by
  intro e he
  cases he
  obtain ⟨m, _, _, _, _⟩ := p
  simp [parse, parseEng, w0]
  (revert tb m; decide)

theorem rng (w : Width) (d : Reg) (kind : RngKind) : Statement (.rng w d kind) := by
  intro e he
  cases he
  simp [parse, parseEng, w0]
  cases kind <;> rfl

theorem shfl (w : Width) (d a b : Reg) (po : PredNo) (g : BitVec 3) (mode : ShflMode) (wrap : Bool) : Statement (.shfl w d a b po g mode wrap) := by
  intro e he
  cases he
  simp [parse, parseLane, w0, extCM, laneC]
  cases mode <;> (revert po g wrap; decide)

theorem vote (d a : Reg) (mode : VoteMode) : Statement (.vote d a mode) := by
  intro e he
  cases he
  simp [parse, parseLane, w0, extCM]

theorem lred (w : Width) (d a : Reg) (rnd : Rnd) (fmt : Fmt) (op : LaneOp) (g : BitVec 3) : Statement (.lred w d a rnd fmt op g) := by
  intro e he
  cases he
  simp [parse, parseLane, w0, laneC]
  (revert g; decide)

theorem lscan (w : Width) (d a : Reg) (rnd : Rnd) (fmt : Fmt) (op : LaneOp) (g : BitVec 3) (ex : Bool) : Statement (.lscan w d a rnd fmt op g ex) := by
  intro e he
  cases he
  simp [parse, parseLane, w0, laneC]
  (revert g ex; decide)

theorem lmatch (w : Width) (d a : Reg) : Statement (.lmatch w d a) := by intro e he; cases he; rfl

theorem qswp (w : Width) (d a : Reg) (m : BitVec 2) (po : PredNo) : Statement (.qswp w d a m po) := by
  intro e he
  cases he
  simp [parse, parseLane, w0]
  (revert m po; decide)

theorem qbcast (w : Width) (d a : Reg) (k : BitVec 2) (po : PredNo) : Statement (.qbcast w d a k po) := by
  intro e he
  cases he
  simp [parse, parseLane, w0]
  (revert k po; decide)

theorem srd (w : Width) (d : Reg) (r : Half) : Statement (.srd w d r) := by
  intro e he
  cases he
  exact congrArg some (by rw [imm16_w0c]; rfl)

theorem swr (w : Width) (d : Reg) (r : Half) : Statement (.swr w d r) := by
  intro e he
  cases he
  exact congrArg some (by rw [imm16_w0c]; rfl)

theorem trap (i : Half) : Statement (.trap i) := by
  intro e he
  cases he
  exact congrArg some (by rw [imm16_w0c])

theorem bkpt (i : Half) : Statement (.bkpt i) := by
  intro e he
  cases he
  exact congrArg some (by rw [imm16_w0c])

theorem cctl (a : Reg) (off : BitVec 8) (op : CctlOp) : Statement (.cctl a off op) := by
  intro e he
  cases he
  simp [parse, parseSys, w0, extCM]

theorem clock (d : Reg) : Statement (.clock d) := by intro e he; cases he; rfl

theorem dynamicAddressAssignment (addr : BitVec 7) : Statement (.dynamicAddressAssignment addr) := nofun

theorem flitAcknowledge (port : BitVec 5) (n : Nat) : Statement (.flitAcknowledge port n) := nofun

theorem deviceReset : Statement .deviceReset := nofun

theorem fullServiceRequest : Statement .fullServiceRequest := nofun

theorem fullServiceSwitch : Statement .fullServiceSwitch := nofun

theorem thermtrip : Statement .thermtrip := nofun

theorem refclkOutOfTolerance : Statement .refclkOutOfTolerance := nofun

theorem telem : Statement .telem := nofun

theorem caps : Statement .caps := nofun

theorem fwcommit : Statement .fwcommit := nofun

theorem fwstatus : Statement .fwstatus := nofun

theorem dispatchStep : Statement .dispatchStep := nofun

theorem priorityPreempt : Statement .priorityPreempt := nofun

theorem exit : Statement .exit := by intro e he; cases he; rfl

theorem nop : Statement .nop := by intro e he; cases he; rfl

theorem yield : Statement .yield := by intro e he; cases he; rfl

theorem reform : Statement .reform := by intro e he; cases he; rfl

theorem rwait : Statement .rwait := by intro e he; cases he; rfl

theorem join : Statement .join := by intro e he; cases he; rfl

theorem vdrop : Statement .vdrop := by intro e he; cases he; rfl

theorem specend : Statement .specend := by intro e he; cases he; rfl

theorem eret : Statement .eret := by intro e he; cases he; rfl

theorem deviceResetAssert : Statement .deviceResetAssert := nofun

theorem refclkInTolerance : Statement .refclkInTolerance := nofun

theorem inBandInterruptAccept : Statement .inBandInterruptAccept := nofun

theorem hostStoreAcknowledge : Statement .hostStoreAcknowledge := nofun

end Parses

end Sys2Proof.Laws
end

