-- ==== Sys2Proof/Tests/Slice0.lean ====
section
/-! SUPPORT. Tests of the model against the spec's worked examples and encodings, and a witness for the hypotheses of each
statement. -/

open Sys2Proof Sys2Proof.Machine

namespace Sys2Proof.Tests

set_option Elab.async false

/-! ## Well-formedness: a refused term for each check -/

theorem test_wf_alignment : ∀ i ∈ [
    (.iadd 1 4 5 6 : Instr), .iadd 1 254 4 6, .iadd 2 4 8 252, .ineg 3 248 8, .imad 1 4 6 8 9 .wrap, .lea 3 4 5 0 false, .bri 5, .await 4 2 0 false,
    .accrd 2 6 4 0 .bytes, .clock 3, .ld 0 4 7 0 .dflt false .bytes .raw false, .fcvt 2 9 4 0 .inForce .fp32 .d8 0, .invoke 4 6 8 12 3, .invoke 4 6 8 12 0],
    i.wf = false := by decide

theorem test_wf_accepts : ∀ i ∈ [
    (.iadd 1 4 6 8 : Instr), .iadd 1 255 4 255, .iadd 2 4 8 255, .ineg 3 240 8, .imad 1 4 6 8 10 .wrap, .lea 4 4 5 0 false, .bri 6, .await 8 2 0 false,
    .accrd 2 8 4 0 .bytes, .clock 4, .ld 0 4 6 0 .dflt false .bytes .raw false, .fcvt 2 8 4 0 .inForce .d8 .fp32 0, .invoke 4 6 8 16 0,
    .invoke 4 6 8 16 3], i.wf = true := by decide

theorem test_wf_int_widths : ∀ i ∈ [
    (.iaddc 2 4 8 12 0 none : Instr), .icmp 2 0 4 8 7 .eq, .movi 2 4 0, .moviImm32 3 8 0], i.wf = false := by decide

theorem test_wf_float_types : ∀ i ∈ [
    (.fadd 0 4 5 6 .inForce .fp64 false : Instr), .fadd 0 4 5 6 .inForce .fp32 true, .fadd 0 4 5 6 .inForce .d8 false,
    .fadd 0 4 5 6 (.forced 5) .fp32 false, .fmin 0 4 5 6 .rq64 false, .fcmp 1 0 4 6 7 .fp32 .eq, .fcmp 0 0 4 6 7 .d8 .eq, .fclass 1 4 6 .d8,
    .fcopysign 0 4 5 6 .rq32 false, .fgetexp 0 4 5 .rq32 false, .frint 0 4 5 .inForce .rq32 false false, .fscale 0 4 5 6 (.forced 7) .fp32 false,
    .qmake 0 4 5 6 .inForce .fp32, .qnum 0 4 5 .rq64, .qmed 0 4 5 6 (.forced 6) .rq32], i.wf = false := by decide

theorem test_wf_conversions : ∀ i ∈ [
    (.fcvt 0 4 5 0 .inForce .int4g .fp32 0 : Instr), .fcvt 0 4 5 0 .inForce .fp32 .int8 0, .fcvt 3 8 16 0 .inForce .fp64 .fp32 0,
    .fcvt 0 4 5 0 .inForce .fp32 .int4g 0, .fcvt 0 4 5 0 (.forced 2) .d8 .fp32 0, .fcvt 0 4 5 0 (.forced 5) .fp16 .fp32 0,
    .fcvt 0 4 5 0 .inForce .fp16 .fp32 3, .fcvt 0 4 5 6 .inForce .fp16 .fp32 0, .fcvti 3 8 16 .inForce .fp64 .s32, .fcvti 0 4 5 .inForce .fp4x .s32,
    .icvtf 3 8 16 .inForce .fp32 .s64, .icvtf 0 4 5 (.forced 1) .d8 .s32], i.wf = false := by decide

theorem test_wf_memory : ∀ i ∈ [
    (.ld 1 4 6 0 .dflt false .bytes .byte false : Instr), .ld 0 4 6 0 .dflt false .int8 .raw false, .ld 0 4 6 0 .dflt false .fp32 .x false,
    .ld 0 4 6 0 .dflt false .bytes .raw true, .st 0 4 6 0 (.forced 1) .dflt false .bytes .raw, .st 0 4 6 0 (.forced 1) .dflt false .d8 .x,
    .st 0 4 6 0 (.forced 6) .dflt false .fp16 .x, .atom 1 4 6 8 0 .device .add .int32 false .none false, .atom 0 4 6 8 0 .device .min .fp32 false .none false,
    .atom 0 4 6 8 0 .device .add .int32 false .none true, .atom 0 4 6 8 9 .device .add .int32 false .none false,
    .atoms 0 4 6 8 0 .device .add .int32 .none false, .red 0 4 6 .device .xchg .int32 false, .red 0 4 6 .device .add .int8 false],
    i.wf = false := by decide

theorem test_wf_others : ∀ i ∈ [
    (.invoke 4 6 8 16 9 : Instr), .invokeOn 4 6 8 16 15, .accrd 0 4 5 0 .fp64, .rng 0 4 .f64, .shfl 0 4 5 6 7 0 .at false, .shfl 0 4 5 6 7 6 .at false,
    .vote 8 1 .every, .vote 4 8 .mask, .vote 4 1 .live, .lred 0 4 5 .inForce .int32 .fadd 5, .lred 0 4 5 (.forced 1) .int32 .add 5,
    .lred 0 4 5 .inForce .int64 .add 5, .lscan 0 4 5 .inForce .fp32 .fmin 7 false, .srd 1 4 0x010, .srd 0 4 0x007, .swr 0 4 0x000, .swr 1 4 0x018,
    .cctl 4 0 .iinv, .cctl 0 1 .iinv, .fportTrain 18 true ⟨1, 0, 1, 1⟩, .flitReplay 31, .thermalGate 10],
    i.wf = false := by decide

theorem test_wf_chunk : (Instr.fwchunk 0 (List.replicate 241 0)).wf = false ∧ (Instr.fwchunk 0 (List.replicate 240 0)).wf = true := by decide +kernel

/-! ## Decoding: words written out bit by bit from the encodings, and the worked examples of R242, R255 ff., R318, R334, R348 -/

/-- OP, W, D, A, B of form A (R237), each written in its own bits. -/
def formA (op : BitVec 6) (w : BitVec 2) (d a b : BitVec 8) : Word := op ++ w ++ d ++ a ++ b

/-- C, RND, POL, FR, SCOPE, AOP, FMT, MOD of the extension word (R238). -/
def extWord (c : BitVec 8) (rnd : BitVec 4) (pol fr : BitVec 2) (scope : BitVec 3) (aop : BitVec 5) (fmt mod : BitVec 4) : Word :=
  c ++ rnd ++ pol ++ fr ++ scope ++ aop ++ fmt ++ mod

theorem test_header_r242 : Header.ofWord 0x4FF80082#32 = ⟨false, true, 1, 15, 15, 1, 0, 2⟩
    ∧ (Header.ofWord 0x4FF80072#32).fault = some 1 ∧ (Header.ofWord 0x3FF80000#32).fault = some 1
    ∧ (Header.ofWord 0x3FE00011#32).fault = some 2 ∧ (Header.ofWord 0x3FF80018#32).fault = none := by decide

theorem test_decode_int : decode .int [0x00040506#32, 0xC407FFFE#32] = .ok (.iadd 0 4 5 6) 1
    ∧ decode .int [0xC407FFFE#32] = .ok (.movi 0 7 0xFFFE) 1
    ∧ decode .int [formA 0x03 2 8 12 16] = .ok (.isub 2 8 12 16) 1
    ∧ decode .int [formA 0x02 0 4 5 6, extWord 2 0 0 0 0 0 0 0b1011] = .ok (.iaddc 0 4 5 6 3 (some 2)) 2
    ∧ decode .int [formA 0x29 1 3 4 6, extWord 7 0 0 0 0 0 0 6] = .ok (.icmp 1 3 4 6 7 .ltu) 2
    ∧ decode .int [formA 0x1D 1 4 6 0, 0x80000001#32] = .ok (.andImm32 1 4 6 0x80000001) 2
    ∧ decode .int [formA 0x34 0 4 6 8, extWord 0 0 0 0 0 0 0 0b1011] = .ok (.lea 4 6 8 3 true) 2 := by decide

theorem test_decode_illegal : decode .int [formA 0x0F 0 0 0 0] = .illegal 3 0
    ∧ decode .int [0x01040507#32] = .illegal 5 0
    ∧ decode .int [formA 0x02 0 4 5 6] = .illegal 7 0
    ∧ decode .ctl [0x00000039#32, 0x18000000#32] = .illegal 6 0
    ∧ decode .flt [0x0C040506#32, 0x07F00070#32] = .illegal 4 1
    ∧ decode .mem [formA 0x08 0 8 4 6, extWord 0 0 0 0 6 0 6 0] = .illegal 4 1
    ∧ decode .mem [formA 0x08 0 8 4 6, extWord 0 0 0 0 3 11 3 0] = .illegal 4 1
    ∧ decode .mem [formA 0x00 0 8 4 0, extWord 0 0 3 0 0 0 0 0] = .illegal 4 1
    ∧ decode .mem [formA 0x00 0 8 4 0, extWord 0 0 0 2 0 0 0 0] = .illegal 4 1
    ∧ decode .mem [formA 0x00 0 8 4 0, extWord 0 0 0 0 0 0 14 3] = .illegal 4 1
    ∧ decode .sys [formA 0x07 0 0 0 0] = .illegal 3 0 := by decide

theorem test_decode_flt : decode .flt [0x0C040506#32, 0x07A00070#32] = .ok (.ffma 0 4 5 6 7 (.forced 2) .fp32 false) 2
    ∧ decode .flt [0x00060405#32, 0x00A00068#32] = .ok (.fadd 0 6 4 5 (.forced 2) .bf16 true) 2
    ∧ decode .flt [0x60090700#32, 0x07000090#32] = .ok (.fcvt 0 9 7 0 .inForce .d8 .fp32 0) 2
    ∧ decode .flt [0x200C0A0B#32, 0x00000070#32] = .ok (.fmin 0 12 10 11 .fp32 false) 2
    ∧ decode .flt [0x280D0A0B#32, 0x00000070#32] = .ok (.fminnum 0 13 10 11 .fp32 false) 2
    ∧ decode .flt [formA 0x2B 1 4 6 8, extWord 0 0b1100 0 0 0 0 13 0] = .ok (.qmed 1 4 6 8 (.forced 4) .rq64) 2 := by decide

theorem test_decode_mem : decode .mem [0x20080406#32, 0x00006060#32] = .ok (.atom 0 8 4 6 0 .device .add .bf16 false .none false) 2
    ∧ decode .mem [formA 0x00 1 8 4 0xFF, extWord 0 0 1 1 0 0 0 0] = .ok (.ld 1 8 4 0xFF .bypass true .bytes .raw false) 2
    ∧ decode .mem [formA 0x01 0 8 4 2, extWord 0 0b1001 0 0 0 0 5 3] = .ok (.st 0 8 4 2 (.forced 1) .dflt false .fp16 .x) 2
    ∧ decode .mem [formA 0x10 0 0 0 0b00011011] = .ok (.fence .ar .device) 1
    ∧ decode .mem [formA 0x18 3 8 4 6, extWord 0 0 0 0 0 0 0 0] = .ok (.stmc 3 8 4 6) 2 := by decide

theorem test_decode_ctl : decode .ctl [0x60140A0C#32, 0x00000003#32] = .ok (.invoke 20 10 12 0 3) 2
    ∧ decode .ctl [0x6416140E#32, 0x08000002#32] = .ok (.invokeOn 22 20 14 8 2) 2
    ∧ decode .ctl [0x68201603#32, 0x00000000#32] = .ok (.await 32 22 3 false) 2
    ∧ decode .ctl [0x00000039#32] = .ok (.bra 57) 1
    ∧ decode .ctl [formA 0x10 0 0 7 0, 0xFFFFFFF0#32] = .ok (.fork 7 0xFFFFFFF0) 2
    ∧ decode .ctl [formA 0x28 0 8 5 0, 0x00000010#32] = .ok (.bolt 8 5 16) 2 := by decide

theorem test_decode_eng : decode .eng [0x2800090A#32] = .ok (.tbexpect 9 10) 1
    ∧ decode .eng [0x00090C12#32, 0x14#32, 0x07000000#32, 0x00090013#32, 0x50#32]
      = .ok (.cpy 9 12 false true ⟨1, 0x14, 0x07000000, 0x00090013, 0x50⟩) 5
    ∧ decode .eng [0x240B0900#32] = .ok (.tbarrive 11 9) 1 ∧ decode .eng [0x2C0109FF#32] = .ok (.tbwait 1 9 255) 1
    ∧ decode .eng [formA 0x1B 0 0 0 0b110] = .ok (.accz 2 true) 1
    ∧ decode .eng [formA 0x28 1 4 0 2] = .ok (.rng 1 4 .f64) 1 := by decide

theorem test_decode_lane : decode .lane [0x00040506#32, 0x1A000002#32] = .ok (.shfl 0 4 5 6 2 3 .above false) 2
    ∧ decode .lane [formA 0x08 0 9 2 0, extWord 0 0 0 0 0 0 0 3] = .ok (.vote 9 2 .mask) 2
    ∧ decode .lane [formA 0x11 0 8 5 0, extWord 0b01011000 0 0 0 0 0 3 0] = .ok (.lscan 0 8 5 .inForce .int32 .add 3 true) 2
    ∧ decode .lane [formA 0x20 0 4 5 0b01110] = .ok (.qswp 0 4 5 2 3) 1 := by decide

theorem test_decode_sys : decode .sys [formA 0x00 1 4 0x00 0x18] = .ok (.srd 1 4 0x018) 1
    ∧ decode .sys [formA 0x01 0 4 0x00 0x10] = .ok (.swr 0 4 0x010) 1
    ∧ decode .sys [formA 0x02 0 0 0x12 0x34] = .ok (.trap 0x1234) 1 ∧ decode .sys [formA 0x04 0 0 0 0] = .ok .eret 1
    ∧ decode .sys [formA 0x05 0 0 4 0xFE, extWord 0 0 0 0 0 0 0 2] = .ok (.cctl 4 0xFE .wbi) 2
    ∧ decode .sys [formA 0x06 0 4 0 0] = .ok (.clock 4) 1 := by decide

/-- The word of the table's row, laid out as decodeTableWord takes it, with the operand words above it zero. -/
theorem test_table_words : decodeTableWord 32 0x10000000 = decodeTable 32 0x10000000 ∧ decodeTableWord 32 0xFC000000 = none := by decide
/-! ## A small machine -/

/-- A machine whose clause holds this one instruction, with registers of thread 0 set. -/
def machine (c : Cls) (ins : Instr) (regs : List (Nat × Word)) : State :=
  (State.reset.placeClause c (encode ins)).updThread 3 0 fun th => regs.foldl (fun th e => th.setReg e.1 e.2) th

/-- What the step leaves of a machine; the machine itself where it answers no next state. -/
def ran (s : State) : State :=
  match step s with
  | .next t => t
  | _ => s

/-- Registers of thread 0 after one step of an instruction, at most four of them from d on. -/
def gives (c : Cls) (ins : Instr) (regs : List (Nat × Word)) (d n : Nat) : List Word :=
  let t := ran (machine c ins regs)
  (List.range n).map fun j => (t.thread 3 0).reg (d + j)

/-! ## Worked examples of the spec -/

/-- The examples after R286. -/
theorem test_int_examples :
    gives .int (.idiv 0 4 5 6) [(5, 0x80000000), (6, 0xFFFFFFFF)] 4 1 = [0x80000000]
    ∧ gives .int (.irem 0 4 5 6) [(5, 7)] 4 1 = [7]
    ∧ gives .int (.idiv 0 4 5 6) [(5, 0xFFFFFFF9), (6, 2)] 4 1 = [0xFFFFFFFD]
    ∧ gives .int (.imulh 0 4 5 6) [(5, 0xFFFFFFFF), (6, 0xFFFFFFFF)] 4 1 = [0xFFFFFFFE]
    ∧ gives .int (.sarImm 0 4 5 40) [(5, 0x80000010)] 4 1 = [0xFFFFFFFF]
    ∧ gives .int (.rolImm 0 4 5 33) [(5, 0x80000001)] 4 1 = [0x00000003]
    ∧ gives .int (.bfx 0 4 5 6 true) [(5, 0x00000F00), (6, 0x00000608)] 4 1 = [0x0000000F]
    ∧ gives .int (.prmb 4 5 6 7) [(5, 0x44332211), (6, 0x88776655), (7, 0x00008C40)] 4 1 = [0x00005511] := by decide +kernel

/-- Hand calculations from R277 to R283 and R288. -/
theorem test_int_by_hand :
    gives .int (.iadd 1 4 6 8) [(6, 0xFFFFFFFF), (7, 0xFFFFFFFF), (8, 2)] 4 2 = [1, 0]
    ∧ gives .int (.isubImm 0 4 5 0xFF) [(5, 0xFFFFFFFF)] 4 1 = [0]
    ∧ gives .int (.imul 0 4 4 4) [(4, 0x00010001)] 4 1 = [0x00020001]
    ∧ gives .int (.imad 0 4 5 6 7 .sat) [(5, 0x7FFFFFFF), (6, 2), (7, 0)] 4 1 = [0x7FFFFFFF]
    ∧ gives .int (.imad 0 4 5 6 7 .usat) [(5, 0xFFFFFFFF), (6, 2), (7, 0)] 4 1 = [0xFFFFFFFF]
    ∧ gives .int (.iabs 0 4 5) [(5, 0x80000000)] 4 1 = [0x80000000]
    ∧ gives .int (.imin 0 4 5 6) [(5, 0x80000000), (6, 1)] 4 1 = [0x80000000]
    ∧ gives .int (.idp4 4 5 6 7 true false false) [(5, 0x000000FF), (6, 0x000000FF), (7, 1)] 4 1 = [0xFFFFFF02]
    ∧ gives .int (.shl 0 4 5 6) [(5, 1), (6, 32)] 4 1 = [0]
    ∧ gives .int (.andn 0 4 5 6) [(5, 0xF0F0F0F0), (6, 0xFF00FF00)] 4 1 = [0x00F000F0]
    ∧ gives .int (.xorImm32 1 4 6 0x80000000) [] 4 2 = [0x80000000, 0xFFFFFFFF]
    ∧ gives .int (.clz 0 4 5) [(5, 0x00010000)] 4 1 = [15] ∧ gives .int (.ctz 0 4 5) [] 4 1 = [32]
    ∧ gives .int (.brev 0 4 5) [(5, 0x00000003)] 4 1 = [0xC0000000]
    ∧ gives .int (.bfi 0 4 5 6 7) [(5, 0xFF), (6, 0x0804), (7, 0xAAAAAAAA)] 4 1 = [0xAAAAAFFA]
    ∧ gives .int (.movi 1 4 0xFFFE) [] 4 2 = [0xFFFFFFFE, 0xFFFFFFFF]
    ∧ gives .int (.movhi 4 0x1234) [(4, 0xAAAA5678)] 4 1 = [0x12345678]
    ∧ gives .int (.lea 4 6 8 3 false) [(6, 0x10), (8, 0xFFFFFFFF)] 4 2 = [8, 0]
    ∧ gives .int (.iadd 0 255 5 6) [(5, 1), (6, 1)] 255 1 = [0] := by decide +kernel

/-- Thread 0's exception flags after one step. -/
def flagsOf (c : Cls) (ins : Instr) (regs : List (Nat × Word)) : Word := ((ran (machine c ins regs)).thread 3 0).fpsr

/-- The mixed clause after R318. -/
theorem test_flt_clause :
    gives .flt (.fadd 0 6 4 5 (.forced 2) .bf16 true) [(4, 0x40493F80), (5, 0x3B800001)] 6 1 = [0x404A3F81]
    ∧ flagsOf .flt (.fadd 0 6 4 5 (.forced 2) .bf16 true) [(4, 0x40493F80), (5, 0x3B800001)] = 0x10
    ∧ gives .flt (.fcvt 0 9 7 0 .inForce .d8 .fp32 0) [(7, 0x40490FDB)] 9 1 = [0x68]
    ∧ gives .flt (.fmin 0 12 10 11 .fp32 false) [(10, 0x7F800001), (11, 0x3F800000)] 12 1 = [0x7FC00001]
    ∧ flagsOf .flt (.fmin 0 12 10 11 .fp32 false) [(10, 0x7F800001), (11, 0x3F800000)] = 1
    ∧ gives .flt (.fminnum 0 13 10 11 .fp32 false) [(10, 0x7F800001), (11, 0x3F800000)] 13 1 = [0x3F800000] := by decide +kernel

/-- The conversions after R201, and the scaled codes after R205. -/
theorem test_d8_and_codes :
    gives .flt (.fcvt 0 9 7 0 .inForce .d8 .fp32 0) [(7, 0x47EA6000)] 9 1 = [0x1C]
    ∧ gives .flt (.fcvt 0 9 7 0 .inForce .d8 .fp32 0) [(7, 0x4AEC82E0)] 9 1 = [0x0C]
    ∧ gives .flt (.fcvt 0 9 7 0 .inForce .d8 .fp32 0) [(7, 0xBF800000)] 9 1 = [0xE0]
    ∧ gives .flt (.fcvt 0 9 7 8 .inForce .bf16 .int4g 0) [(7, 13), (8, 0x00083DCD)] 9 1 = [0x3F00]
    ∧ gives .flt (.fcvt 0 9 7 8 .inForce .bf16 .int4g 0) [(7, 3), (8, 0x00083DCD)] 9 1 = [0xBF00]
    ∧ gives .flt (.fcvt 0 9 7 8 .inForce .bf16 .int4g 0) [(7, 8), (8, 0x00083DCD)] 9 1 = [0]
    ∧ gives .flt (.fcvt 0 9 7 8 .inForce .fp32 .fp4x 3) [(7, 15), (8, 0x00003E80)] 9 1 = [0xBFC00000] := by decide +kernel

/-- The approximations of R315, and rational codes of R318. -/
theorem test_approx_and_rational :
    approx .rcp 0x40000000 = (0x3F000000, 0) ∧ approx .exp2 0x3F000000 = (0x3FB504F3, 0) ∧ approx .log2 0x3F800000 = (0, 0)
    ∧ approx .sin 0x3F000000 = (0x3F800000, 0) ∧ approx .cos 0xBF800000 = (0xBF800000, 0)
    ∧ rq32.round 0 false 6 4 = (0x0B000002, 0) ∧ rq32.decode 0x0A000006 = (.fin false 1 3, false)
    ∧ qMediant (.fin false 1 3) (.fin false 1 2) = .fin false 2 5 ∧ rq32.round 0 false 2 5 = (0x0A000005, 0) := by decide +kernel

/-- The atomic steps after R334. -/
theorem test_atom_halves :
    atomStep .add .bf16 false 0x43800008 0x3F800008 0 = (0x43800010, fNX)
    ∧ atomStep .add .bf16 false 0x43800010 0x40000008 0 = (0x43810018, 0) := by decide +kernel

/-- The barrier of the example after R348: TBEXPECT 2, TBARRIVE, then the copy's two sectors. -/
theorem test_barrier_example :
    let v₀ := 1 * 2 ^ 4 + 1 * 2 ^ 57
    let v₁ := tbClose (tbSectors 2 false v₀)
    let v₂ := tbClose (tbArrived v₁)
    let v₃ := tbClose (tbSectors (2 ^ 32 - 2) false v₂)
    (tbPhase v₁, tbParr v₁, tbPsec v₁) = (0, 1, 2) ∧ (tbPhase v₂, tbParr v₂, tbPsec v₂) = (0, 0, 2)
    ∧ (tbPhase v₃, tbParr v₃, tbPsec v₃, tbErr v₃) = (1, 1, 0, false) := by decide +kernel

/-- The tolerance test after R133: ABS about 0.01, and the predictions that it starts from. -/
theorem test_tolerance :
    predictElem fp32 1 0x3FC00000 0x3F800000 = 0x40000000 ∧ predictElem fp32 1 0x40900000 0x40800000 = 0x40A00000
    ∧ withinElem fp32 0x3C23D70A 0 0x40000000 0x40008000 = true ∧ withinElem fp32 0x3C23D70A 0 0x40800000 0x40820000 = false
    ∧ withinElem fp32 0x3C23D70A 0 0x40A00000 0x7FC00000 = false := by decide +kernel

/-- The fold of e0 after R111: the order of the children fixes the result, 0 and not 2. -/
theorem test_fold_example :
    let step := fun (acc w : Nat) => (foldElem .fp32 1 acc w 0).1
    step (step (step (step 0 0x4B800000) 0x3F800000) 0x3F800000) 0xCB800000 = 0
    ∧ (foldElem .fp32 1 0x40400000 0x40A00000 0x40400000).1 = 0x40A00000 := by decide +kernel

/-- The box at the edge of a tensor after R348: row 9 of the tensor, columns 16 to 23. -/
theorem test_box_row :
    boxRow 0 19 9 32 16 9 8 32 16 (0x44650000 + 0x44654000 * 2 ^ 32 + 0x44658000 * 2 ^ 64 + 0x4465C000 * 2 ^ 96)
      = natToBytes 16 (0x44650000 + 0x44654000 * 2 ^ 32 + 0x44658000 * 2 ^ 64 + 0x4465C000 * 2 ^ 96) ++ List.replicate 16 0
    ∧ boxRow 0 19 9 32 16 10 8 32 16 0 = List.replicate 32 0 := by decide +kernel

/-- BRA and CALL two words on from the header at 64, EXIT, the first fault record (SEQ counts from 1), %tid, and a reserved bit of %fpcr. -/
theorem test_ctl_and_sys :
    ((ran (machine .ctl (.bra 2) [])).thread 3 0).pc = 72 ∧ ((ran (machine .ctl (.call 4 2) [])).thread 3 0).pair 4 = 72
    ∧ ((ran (machine .ctl .exit [])).thread 3 0).status = .exited
    ∧ ((ran (machine .sys (.trap 0x1234) [])).thread 3 0).status = .suspended 1
    ∧ ((ran (machine .sys (.srd 0 4 0) [])).thread 3 2).reg 4 = 2
    ∧ ((ran (machine .sys (.swr 0 4 0x010) [(4, 0x205)])).thread 3 0).fpcr = 0
    ∧ ((ran (machine .sys (.swr 0 4 0x010) [(4, 0x204)])).thread 3 0).fpcr = 0x204 := by decide +kernel

/-! ## Witnesses: a clause under way -/

/-- The clause under way of a machine. -/
def clause (s : State) : Issue :=
  s.issue.getD ⟨0, 0, 0, 0, 0, [], 0, [], 0, false⟩

/-- Block 3, on which the clauses of these machines run. -/
def block (s : State) : Block := (s.block? 3).getD (placedBlock 1 2 4 3 0)

/-- Thread 0 as a lane. -/
def lane0 : Lane := ⟨0, 0, true, 1⟩

/-- A machine whose clause holds one instruction, with thread 0 as its only lane, and changed as told. -/
def one (c : Cls) (ins : Instr) (regs : List (Nat × Word)) (f : State → State := id) : State :=
  let s := machine c ins regs
  f { s with issue := some { clause s with lanes := [lane0] } }

/-- Issuing, as a test. -/
def stands (s : State) : Bool :=
  s.issue == some (clause s) && s.block? (clause s).block == some (block s) && decide ((clause s).lanes.map (·.tid)).Nodup
  && (clause s).lanes.all (fun l => decide (l.tid < (block s).T))
  && (s.bundle? (clause s).core (clause s).bundle).all (fun u => u.block == (clause s).block) && Sparse.wf Core.reset s.cores

theorem issuing_of_stands {s : State} (h : stands s = true) : Issuing s (clause s) (block s) := by
  simp only [stands, Bool.and_eq_true, beq_iff_eq, decide_eq_true_eq, List.all_eq_true] at h
  obtain ⟨⟨⟨⟨⟨h1, h2⟩, h3⟩, h4⟩, h5⟩, h6⟩ := h
  refine ⟨h1, h2, h3, h4, fun u hu => ?_, h6⟩
  simpa [hu] using h5

/-- A clause of thread 0 alone is under way, and the instruction passes the tests in it: with P of thread 0, the
hypotheses of Does. -/
def Ready (s : State) (ins : Instr) : Prop :=
  Issuing s (clause s) (block s) ∧ (clause s).lanes = [lane0] ∧ s.gate (clause s) lane0 ins = none

theorem ready_of {s : State} {ins : Instr}
    (h : stands s = true ∧ (clause s).lanes = [lane0] ∧ s.gate (clause s) lane0 ins = none) : Ready s ins :=
  ⟨issuing_of_stands h.1, h.2⟩

theorem along_of_ready {s : State} {ins : Instr} (h : Ready s ins) (P : State → Lane → Prop) (f : State → Lane → State)
    (hp : P s lane0) : Along (clause s) ins P f (clause s).lanes s := by
  rw [h.2.1]
  exact ⟨fun _ => ⟨h.2.2, fun _ => hp⟩, trivial⟩

/-- The same for a long-latency instruction, which is counted first. -/
def ReadyLong (s : State) (ins : Instr) : Prop :=
  Issuing s (clause s) (block s) ∧ (clause s).lanes = [lane0]
  ∧ State.gate { s with issue := some (clause s).counted } (clause s).counted lane0 ins = none

theorem readyLong_of {s : State} {ins : Instr} (h : stands s = true ∧ (clause s).lanes = [lane0]
    ∧ State.gate { s with issue := some (clause s).counted } (clause s).counted lane0 ins = none) : ReadyLong s ins :=
  ⟨issuing_of_stands h.1, h.2⟩

theorem along_of_readyLong {s : State} {ins : Instr} (h : ReadyLong s ins) (P : State → Lane → Prop) (f : State → Lane → State)
    (hp : P { s with issue := some (clause s).counted } lane0) :
    Along (clause s).counted ins P f (clause s).lanes { s with issue := some (clause s).counted } := by
  rw [h.2.1]
  exact ⟨fun _ => ⟨h.2.2, fun _ => hp⟩, trivial⟩

/-! ## Witnesses: classes INT and FLT -/

/-- IntArithmeticShiftAndLogicResults and IntMoveCompareAndPredicateResults: at the widest groups, at a destination that is
a source, and at the discarding register. -/
theorem witness_int : ∀ ins ∈ [
    (.iadd 3 240 8 255 : Instr), .iaddImm 0 4 4 0x80, .isub 1 4 4 6, .isubImm 0 4 5 1, .iaddc 1 4 6 8 7 (some 2), .imul 2 4 8 12, .imulh 0 4 5 6,
    .imad 3 8 16 24 32 .wrap, .imad 0 4 5 6 7 .sat, .imad 0 4 5 6 7 .usat, .idiv 0 4 5 255, .irem 1 4 6 8, .ineg 0 255 5, .iabs 0 4 5, .imin 0 4 5 6,
    .imax 1 4 6 8, .idp4 4 5 6 7 true false true, .shl 0 4 5 6, .shr 1 4 6 8, .sar 2 4 8 12, .rol 0 4 5 6, .shlImm 0 4 5 31, .shrImm 0 4 5 32,
    .sarImm 1 4 6 64, .rolImm 0 4 5 255, .andReg 0 4 5 6, .orReg 0 4 5 6, .xorReg 0 4 5 6, .andn 0 4 5 6, .notReg 0 4 5, .andImm32 1 4 6 0x80000000,
    .orImm32 0 4 5 1, .xorImm32 0 4 5 1, .popc 0 4 5, .clz 0 4 5, .ctz 0 4 5, .brev 0 4 5, .bfx 0 4 5 6 true, .bfi 0 4 5 6 7, .prmb 4 5 6 7,
    .isel 1 4 6 8 0, .icmp 0 3 4 5 7 .ltu, .imov 3 8 16, .movi 1 4 0x8000, .movhi 4 0xFFFF, .moviImm32 1 4 0x80000000, .lea 4 6 8 7 true, .pand 7 0 1,
    .por 0 1 2, .pxor 0 1 7, .pnot 3 7, .pmov 3 7],
    let s := one .int ins [(4, 0xFFFFFFFF)]
    stands s = true ∧ ∀ l ∈ (clause s).lanes, l.start ≤ (clause s).pos → s.gate (clause s) l ins = none := by decide +kernel

/-- The same of a clause of four lanes, of which one is masked and one has not reached the word. -/
theorem witness_int_lanes :
    let ins : Instr := .iadd 0 4 5 6
    let s := machine .int ins [(5, 1)]
    let s := { s with issue := some { clause s with lanes := [⟨0, 0, true, 1⟩, ⟨1, 1, false, 1⟩, ⟨2, 2, true, 2⟩, ⟨3, 3, true, 1⟩] } }
    stands s = true ∧ ∀ l ∈ (clause s).lanes, l.start ≤ (clause s).pos → s.gate (clause s) l ins = none := by decide +kernel

/-- BytesBitsAndGroups: bounds at both ends, and the highest group. -/
theorem witness_bytes : (1 < 2 ^ 1 ∧ 0 < 1) ∧ (2 ^ 64 - 1 < 2 ^ 64 ∧ 63 < 64) ∧ (0xFFFFFFFF < 2 ^ 32 ∧ 3 < 4)
    ∧ Sparse.wf (0 : Word) (Thread.start.setReg 254 1).regs = true ∧ (247 : Reg).toNat + 2 ^ (3 : Width).toNat ≤ 255
    ∧ [1, 2, 3, 4].length = intCount 3 := by decide +kernel

/-- A machine under a mode of %fpcr and with the rational mode on or off. -/
def fltMachine (ins : Instr) (fpcr : Word) : State :=
  one .flt ins [(5, 0x3F800000), (6, 0x40000000)] fun s => s.updThread 3 0 fun th => { th with fpcr := fpcr }

/-- FltArithmeticResults, FltSelectionAndSignResults, FltConversionResults and FltApproximationAndRationalResults, where no lane
is long-latency. -/
theorem witness_flt : ∀ ins ∈ [
    (.fadd 3 8 16 24 .inForce .fp64 false : Instr), .fsub 0 4 5 6 (.forced 4) .fp16 true, .fmul 0 4 4 4 .inForce .fp32 false,
    .ffma 0 4 5 6 7 (.forced 2) .bf16 true, .fdiv 0 4 5 255 .inForce .fp32 false, .fsqrt 0 4 5 .inForce .fp32 false, .fmin 0 4 5 6 .fp32 false,
    .fmax 0 4 5 6 .fp16 true, .fminnum 1 4 6 8 .fp64 false, .fmaxnum 0 4 5 6 .fp32 false, .fcmp 0 0 4 5 7 .fp32 .ge, .fclass 0 4 5 .d8,
    .fabs 0 4 5 .fp32 false, .fneg 0 4 5 .bf16 false, .fcopysign 0 4 5 6 .fp32 false, .frint 0 4 5 .inForce .fp32 false true,
    .fscale 0 4 5 6 .inForce .fp32 false, .fgetexp 0 4 5 .fp32 false, .fcvt 2 8 4 0 .inForce .d8 .fp32 0, .fcvti 1 4 6 (.forced 1) .fp32 .u32,
    .icvtf 0 4 6 .inForce .fp32 .s64, .frcpa 0 4 5, .frsqa 0 4 5, .fexp2a 0 4 5, .flog2a 0 4 5, .fsina 0 4 5, .fcosa 3 8 16],
    let s := fltMachine ins 0x204
    stands s = true ∧ (clause s).lanes = [lane0] ∧ s.gate (clause s) lane0 ins = none
      ∧ ((s.thread 3 0).fmtIn .fp32).isRat = false := by decide +kernel

/-- The same where a lane is long-latency: a rational format, or rational mode. -/
theorem witness_flt_long : ∀ e ∈ [
    ((.fadd 1 4 6 8 .inForce .rq64 false : Instr), (0 : Word)), (.fsub 0 4 5 6 .inForce .fp32 false, 0x1400), (.fmul 0 4 5 6 .inForce .fp32 false, 0x400),
    (.ffma 0 4 5 6 7 .inForce .fp32 false, 0x400), (.fdiv 0 4 5 6 .inForce .rq32 false, 0), (.fsqrt 0 4 5 .inForce .rq32 false, 0),
    (.fmin 0 4 5 6 .fp32 false, 0x400), (.fmax 0 4 5 6 .rq32 false, 0), (.fminnum 0 4 5 6 .rq32 false, 0), (.fmaxnum 0 4 5 6 .rq32 false, 0),
    (.fcmp 0 0 4 5 7 .rq32 .lt, 0), (.fclass 1 4 6 .rq64, 0), (.fabs 0 4 5 .rq32 false, 0), (.fneg 0 4 5 .fp32 false, 0x400),
    (.fcvt 0 4 5 0 .inForce .rq32 .fp32 0, 0), (.fcvti 0 4 5 .inForce .rq32 .s32, 0), (.icvtf 0 4 5 .inForce .rq32 .s32, 0),
    (.qmake 0 4 5 6 .inForce .rq32, 0), (.qnum 0 4 5 .rq32, 0), (.qden 0 4 5 .rq32, 0), (.qmed 0 4 5 6 (.forced 1) .rq32, 0), (.qcanon 1 4 6 .rq64, 0)],
    let s := fltMachine e.1 e.2
    stands s = true ∧ (clause s).lanes = [lane0]
      ∧ State.gate { s with issue := some (clause s).counted } (clause s).counted lane0 e.1 = none := by decide +kernel

theorem witness_flt_rational : ((fltMachine (.fadd 0 4 5 6 .inForce .fp32 false) 0x400).thread 3 0).fmtIn .fp32 = .rq32
    ∧ (((fltMachine (.fadd 0 4 5 6 .inForce .fp32 false) 0x400).thread 3 0).fmtIn .fp32).isRat = true := by decide +kernel

/-- FltConversionResults: a scale word that R204 allows. -/
theorem witness_fcvt_scale :
    let ins : Instr := .fcvt 0 9 7 8 .inForce .bf16 .int4g 0
    let s := one .flt ins [(7, 13), (8, 0x00083DCD)]
    Ready s ins ∧ (scaleWord false ((s.thread 3 0).reg 8).toNat).isSome := ⟨ready_of (by decide +kernel), by decide +kernel⟩

/-- IeeeResultsRoundTheExactValueOnce, FltElementResults and PredictionAndTolerance: finite, zero, NaN and infinite operands of
each format, at the ends of each format. -/
theorem witness_ieee : fp32.decode 0x3FC00000 = .fin false (3 * 2 ^ 22) (2 ^ 23) ∧ fp32.decode 0x80000000 = .fin true 0 (2 ^ 149)
    ∧ fp16.decode 0x0001 = .fin false 1 (2 ^ 24) ∧ bf16.decode 0xBF80 = .fin true 128 128
    ∧ (match fp64.decode 0x7FEFFFFFFFFFFFFF with | .fin false n _ => decide (n ≠ 0) | _ => false) = true
    ∧ fp32.isNan 0x7F800001 = true ∧ fp32.isNan 0x3F800000 = false ∧ 0x7F800001 < 2 ^ fp32.width ∧ fpOf .fp32 = fp32
    ∧ fp32.decode 0x7F800000 = .inf false ∧ roundUnits 3 2 0 0 false = (2, false) ∧ (-8192 : Int) ≤ 8192
    ∧ toleranceOk 0x3C23D70A = true ∧ toleranceOk 0 = true ∧ fp32.decode (0 : Word).toNat = .fin false 0 (2 ^ 149)
    ∧ fp32.decode (0x3C23D70A : Word).toNat = .fin false 10737418 (2 ^ 30) := by decide +kernel

/-- RoundingChoosesTheNeighbour: a value between two neighbours, one that overflows, one below every value. -/
theorem witness_rounding : (0 < 1 ∧ 0 < 3) ∧ (fp16.round 1 false 100000 1).1 = fp16.maxBits ∧ (fp16.round 2 false 1 (2 ^ 40)).1 = 1
    ∧ (fp16.round 0 false 100000 1).1 = fp16.infBits ∧ (fp16.round 0 false 100000 1).2 &&& fOF = fOF
    ∧ (fp32.round 1 false 1 3).1 < fp32.maxBits := by decide +kernel

/-- RationalCodesReadBack: the ends of what fits, and malformed codes. -/
theorem witness_rational : (0 < 2 ^ 25 - 1 ∧ Nat.gcd (2 ^ 25 - 1) 1 = 1 ∧ bitlen (2 ^ 25 - 1) + bitlen 1 ≤ rq32.w)
    ∧ (Nat.gcd 1 (2 ^ 56 - 1) = 1 ∧ bitlen 1 + bitlen (2 ^ 56 - 1) ≤ rq64.w)
    ∧ (0x68000000 < 2 ^ rq32.size ∧ rq32.w ≤ 0x68000000 / 2 ^ rq32.w % 2 ^ (rq32.size - 1 - rq32.w))
    ∧ 0 / 2 ^ rq32.w % 2 ^ (rq32.size - 1 - rq32.w) = 0 := by decide +kernel

/-! ## Witnesses: class MEM -/

/-- A page of 128 KiB of this device at virtual address 0x20000, domain device. -/
def page : Leaf where
  base := 0x20000
  size := 0x20000
  kind := PageKind.local
  addr := 0x40000
  win := 0
  rd := true
  wr := true
  ex := true
  view := true
  fmt := .bytes
  geom := 0
  redop := 0
  policy := 0
  domain := 0

/-- Tenant 0 sees one page. -/
def sees (l : Leaf) (s : State) : State := { s with tlb := [⟨0, 0, l⟩, ⟨ownSite, 0, l⟩] }

/-- The grid of block 3, changed. -/
def withGrid (f : Grid → Grid) (s : State) : State := s.updGrid 1 f

/-- What a walk gives for the addresses of device 7. -/
def away : Leaf := remoteLeaf (7 * 2 ^ 43)

/-- A tenant that may reach device 7, and a way there. -/
def seesRemote (s : State) : State :=
  { (sees away s).updTenant 0 fun t => { t with domset := setBit t.domset 7 true } with
    fabric := { s.fabric with routes := [(7, ⟨true, 0⟩)], ports := [(0, { Port.none with trained := true })] } }

/-- Thread 0 has been told of a page of device 7, and of a status. -/
def knows (st : Nat) (s : State) : State := (seesRemote s).updThread 3 0 fun th => { th with pages := [(0x380000000040, away, st)] }

/-- x6:2 holds an address of the page. -/
def inPage : List (Nat × Word) := [(6, 0x20040)]

/-- x6:2 holds an address of device 7. -/
def inAway : List (Nat × Word) := [(6, 0x40), (7, 0x3800)]

/-- The machine with its long-latency instruction counted. -/
def counts (s : State) : State := { s with issue := some (clause s).counted }

/-- The clause stands, and the instruction passes the tests in it. -/
def enters (ins : Instr) (s : State) : Bool :=
  stands s && decide ((clause s).lanes = [lane0]) && decide (s.gate (clause s) lane0 ins = none)

/-- The same for a long-latency instruction, which is counted first. -/
def entersLong (ins : Instr) (s : State) : Bool :=
  stands s && decide ((clause s).lanes = [lane0]) && decide ((counts s).gate (clause s).counted lane0 ins = none)

/-- A request is asked of device 7, and it leaves. -/
def asks (s : State) (va : Nat) (want : Want) (ty access scope : Nat) (opw : Dword) (nf : Bool) : Bool :=
  match s.untested 3 0 va want with
  | some (dev, ra) => dev == 7 && (s.request (s.tenantOf 3) ty dev scope ra opw 0 [] (.test 3 0 access va nf)).2
  | none => false

/-- LoadResultsAndRegisters: a load of this device's memory, of a lost stack, and of another device's page that is known. -/
theorem witness_load : ∀ e ∈ [
    ((.ld 3 8 6 0 .dflt false .bytes .raw false : Instr), inPage, sees page, (3 : Width), LdSize.raw, (0 : BitVec 8)),
    (.ld 0 8 6 0xE1 .bypass true .bytes .half true, inPage, sees page, 0, .half, 0xE1),
    (.ld 2 8 6 1 .dflt false .bytes .x false, inPage, sees { page with fmt := .d8 }, 2, .x, 1),
    (.ld 0 8 6 0 .dflt false .bytes .raw false, inPage,
      fun s => sees page { s with pkg := { s.pkg with hbm := 0x0002, lost := [.stack 0] } }, 0, .raw, 0),
    (.ld 0 8 6 0 .dflt false .bytes .raw false, inAway, knows 0, 0, .raw, 0)],
    let s := one .mem e.1 e.2.1 e.2.2.1
    let t := counts s
    let a := t.accessOf (clause s).counted lane0 .rd e.2.2.2.1 6 e.2.2.2.2.2 .bytes e.2.2.2.2.1
    let by_ := fun (z : Nat) => elemAddr ((t.thread 3 0).pair 6).toNat e.2.2.2.1 e.2.2.2.2.2 z
    entersLong e.1 s = true ∧ a.1 % min a.2.1 32 = 0 ∧ t.untested 3 0 a.1 .rd = none
      ∧ t.untested 3 0 (by_ 1) .rd = none ∧ t.untested 3 0 (by_ 2) .rd = none
      ∧ (match t.laneXlate 3 0 a.1 .rd with | .ok _ => true | .error _ => false) = true
      ∧ (match t.loadLane 3 0 (clause s).at a.1 a.2.1 ⟨0, false⟩ (accessPage .bytes e.2.2.2.2.1 false 0 a.1) with
        | .trap _ => false
        | _ => true) = true := by decide +kernel

/-- The same: a page of another device that is asked about, for the access, for its format, and for the format that elements of
two bytes would give. -/
theorem witness_load_asks :
    (let ins : Instr := .ld 0 8 6 1 .dflt false .bytes .raw false
     let s := one .mem ins inAway seesRemote
     let a := (counts s).accessOf (clause s).counted lane0 .rd 0 6 1 .bytes .raw
     entersLong ins s = true ∧ a.1 % min a.2.1 32 = 0 ∧ asks (counts s) a.1 .rd 0x01 0 0 0 false = true)
    ∧ (let ins : Instr := .ld 0 8 6 1 .dflt false .bytes .x false
       let s := one .mem ins inAway seesRemote
       entersLong ins s = true ∧ asks (counts s) (elemAddr 0x380000000040 0 1 1) .rd 0x01 0 0 0 false = true)
    ∧ (let ins : Instr := .ld 0 8 6 0x7F .dflt false .bytes .x false
       let s := one .mem ins [(6, 0x1FF80), (7, 0x3800)] (knows 0)
       (counts s).untested 3 0 (elemAddr 0x38000001FF80 0 0x7F 1) .rd = none
         ∧ ((counts s).narrowAt (clause s).counted lane0 .rd (elemAddr 0x38000001FF80 0 0x7F 1)).any (fun f => f.bits == 8) = false
         ∧ entersLong ins s = true ∧ asks (counts s) (elemAddr 0x38000001FF80 0 0x7F 2) .rd 0x01 0 0 0 false = true) := by decide +kernel

/-- The block as the statements about the root view want it, at a level. -/
def rootBlock (dl : BitVec 2) (s : State) : Bool :=
  (s.block? 3).any (fun k => k.core == 0 && k.tenant == 0 && k.grid == 1 && k.vtag == 0 && k.specs == [] && k.fork == none)
    && (s.gridOf 3).any fun g => g.dl == dl

/-- StoreEffects: the page and the store as every clause but the third wants them. -/
def storeOk (ins : Instr) (regs : List (Nat × Word)) (f : State → State) (dl : BitVec 2) (w : Width) (rnd : Rnd) (fmt : Fmt)
    (size : LdSize) (p : State → (Nat × Nat × Fmt) → List Byte → Xl → Bool) : Bool :=
  let s := one .mem ins regs fun s => f (withGrid (fun g => { g with dl := dl }) s)
  let a := s.accessOf (clause s) lane0 .wr w 6 0 fmt size
  let bs := (storeBytes (s.thread 3 0) w 8 rnd size a.2.2 a.2.1).1
  enters ins s && a.1 % min a.2.1 32 == 0 && s.untested 3 0 ((s.thread 3 0).pair 6).toNat .wr == none && rootBlock dl s
    && !s.mcastMeets 0 a.1 bs.length
    && match s.laneXlate 3 0 a.1 .wr with
      | .ok x => (accessPage fmt size (rnd != .inForce) 1 a.1 x.leaf == none) && p s a bs x
      | .error _ => false

/-- StoreEffects: a full store at DL0, and a narrowed one; at DL1 and DL3 one to each kind of page; one that asks; and one to
a page that is known. -/
theorem witness_store :
    (∀ e ∈ [
      ((.st 3 8 6 0 .inForce .dflt false .bytes .raw : Instr), page, (3 : Width), Rnd.inForce, Fmt.bytes, LdSize.raw),
      (.st 0 8 6 0 (.forced 1) .stream false .fp16 .x, page, 0, .forced 1, .fp16, .x),
      (.st 0 8 6 0 .inForce .bypass true .bytes .half, page, 0, .inForce, .bytes, .half)],
      storeOk e.1 inPage (sees e.2.1) 0 e.2.2.1 e.2.2.2.1 e.2.2.2.2.1 e.2.2.2.2.2 (fun s _ bs x =>
        x.leaf.kind != .remote && (match x.home with | .remote .. => false | _ => true) && s.lostHome x.home bs.length == none) = true)
    ∧ (∀ e ∈ [(inPage, sees page, (1 : BitVec 2)), (inPage, sees page, 3), (inAway, knows 0, 2)],
      storeOk (.st 0 8 6 0 .inForce .dflt false .bytes .byte) e.1 e.2.1 e.2.2 0 .inForce .bytes .byte (fun s a _ _ =>
        s.untested 3 0 a.1 .wr == none && (match s.noteAccess 3 0 (clause s).at (a.1 / 64) true with | .ok _ => true | .error _ => false))
        = true)
    ∧ (let ins : Instr := .st 0 8 6 0 .inForce .dflt false .bytes .raw
       let s := one .mem ins inAway seesRemote
       let a := s.accessOf (clause s) lane0 .wr 0 6 0 .bytes .raw
       enters ins s = true ∧ a.1 % min a.2.1 32 = 0 ∧ asks s a.1 .wr 0x03 1 0 0 false = true)
    ∧ ∀ e ∈ [(inPage, sees page, (0 : BitVec 2)), (inAway, knows 0, 0), (inAway, knows 0, 1)],
      storeOk (.st 0 8 6 0 .inForce .dflt false .bytes .raw) e.1 e.2.1 e.2.2 0 .inForce .bytes .raw (fun s a bs _ =>
        s.untested 3 0 a.1 .wr == none
          && (match s.storeLane 3 0 (clause s).at a.1 bs ⟨0, false⟩ (accessPage .bytes .raw false 1 a.1) with
            | .done _ => true
            | _ => false)) = true := by decide +kernel

/-- CachedAccesses: a sector that ends at the access, one that the core holds and one that it does not. -/
theorem witness_cached :
    let s := State.reset
    let t := s.cachedStore ⟨3, 0, 0⟩ 0 0 (64 * 5 + 60) (.dev (64 * 9 + 60)) [1, 2, 3, 4] ⟨0, false⟩
    Sparse.wf Core.reset t.cores = true ∧ Memory.wf t.mem = true ∧ (64 * 5 + 60) % 64 = (64 * 9 + 60) % 64
      ∧ ([1, 2, 3, 4] : List Byte).length = 4 ∧ (64 * 5 + 60) % 64 + 4 ≤ 64
      ∧ ((t.core 0).sector? 0 5).map (fun x => (x.bytes.length, x.home)) = some (64, .dev (64 * 9))
      ∧ (s.core 0).sector? 0 5 = none := by decide +kernel

/-- A block alone in its cluster, whose scratchpad accesses are checked against nobody. -/
def aloneHere (s : State) : Bool :=
  (s.block? 3).any (fun k => decide ((s.cluster k.cluster).members.length ≤ 1))
    && (match s.noteMember 3 0 (clause s).at 3 0 4 true none with | .ok s' => s' == s | .error _ => false)

/-- ScratchpadAndOnChipResults: the first and the last bytes of the scratchpad of 4,096 bytes. -/
theorem witness_scratchpad :
    (∀ e ∈ [((.lds 3 8 6 0 : Instr), (0 : Word), (0 : BitVec 8), 32), (.lds 0 8 6 0xFF, 0x1000, 0xFF, 4)],
      let s := one .mem e.1 [(6, e.2.1)]
      ReadyLong s e.1 ∧ wrap ((((s.thread 3 0).reg 6).toNat : Int) + 4 * sext e.2.2.1.toNat 8) 32 % min e.2.2.2 16 = 0
        ∧ wrap ((((s.thread 3 0).reg 6).toNat : Int) + 4 * sext e.2.2.1.toNat 8) 32 + e.2.2.2 ≤ s.scratchSize 3 ∧ aloneHere s = true)
    ∧ (let ins : Instr := .sts 1 8 6 0
       let s := one .mem ins [(6, 0xFF8)]
       Ready s ins ∧ (0xFF8 : Nat) % min 8 16 = 0 ∧ 0xFF8 + 8 ≤ s.scratchSize 3 ∧ aloneHere s = true)
    ∧ ∀ op ∈ [AOp.add, .cas], let ins : Instr := .atoms 0 8 6 9 (if op = .cas then 10 else 0) .block op .int32 .none false
      let s := one .mem ins [(6, 0xFFC)]
      ReadyLong s ins ∧ (0xFFC : Nat) % 4 = 0 ∧ 0xFFC + 4 ≤ s.scratchSize 3 ∧ aloneHere s = true := by
  refine ⟨?_, ⟨ready_of (by decide +kernel), by decide +kernel⟩, ?_⟩
  · intro e he
    simp only [List.mem_cons, List.not_mem_nil, or_false] at he
    obtain rfl | rfl := he <;> exact ⟨readyLong_of (by decide +kernel), by decide +kernel⟩
  · intro op he
    simp only [List.mem_cons, List.not_mem_nil, or_false] at he
    obtain rfl | rfl := he <;> exact ⟨readyLong_of (by decide +kernel), by decide +kernel⟩

/-- The same for LDC and STC, on the block's own scratchpad as member 0 of its cluster. -/
theorem witness_cluster : ∀ ins ∈ [(.ldc 0 8 6 0 : Instr), .stc 0 8 6 0],
    let s := one .mem ins [(6, 0x10)]
    stands s = true ∧ (clause s).lanes = [lane0] ∧ s.gate (clause s) lane0 ins = none
      ∧ State.gate { s with issue := some (clause s).counted } (clause s).counted lane0 ins = none
      ∧ 0x10 % min 4 16 = 0 ∧ s.clusterAddr 3 0x10 4 = .ok (3, 0x10) ∧ aloneHere s = true := by decide +kernel

/-- The same for LDM and STM, on the registers of the block's allocation. -/
theorem witness_on_chip : ∀ ins ∈ [(.ldm 0 8 6 0 : Instr), .stm 0 8 6 0],
    let s := one .mem ins [(6, 0)]
    stands s = true ∧ (clause s).lanes = [lane0] ∧ s.gate (clause s) lane0 ins = none
      ∧ State.gate { s with issue := some (clause s).counted } (clause s).counted lane0 ins = none
      ∧ 0 % min 4 16 = 0 ∧ (s.ocmFind (s.tenantOf 3) 0 4).isSome = true := by decide +kernel

/-- MemoryReadsBackWrites and AtomicStepsAtMemory. -/
theorem witness_memory : Memory.wf (Memory.write [] 0 [0, 1, 0, 2]) = true ∧ Memory.wf [] = true ∧ State.reset.cores = []
    ∧ Memory.wf State.reset.mem = true ∧ (2 ^ 32 - 1 < 2 ^ 32 ∧ 0 < 2 ^ 32) ∧ 2 ^ 64 - 1 < 2 ^ 64 := by decide +kernel

/-- Thread 0 has a load outstanding to device 7. -/
def awaitsLoad (s : State) : State := { s with
  pending := [⟨9, 3, 0, 0, 0, [(20, 0)], [], 0, false, true, (20, 1, 0), none, 1, [], [], none⟩]
  fabric := { s.fabric with remotes := [⟨5, 0, 7, some 0, 0x80, .load 9 false false⟩] } }

/-- AtomResults: an ATOM.ADD at device scope, with what its check and its release give. -/
def atomOk (regs : List (Nat × Word)) (f : State → State) (dl : BitVec 2) (ord : Ordering3) (p : Nat → State × Option Wait → Xl → Bool) : Bool :=
  let ins : Instr := .atom 0 8 6 9 0 .device .add .int32 false ord false
  let s := one .mem ins regs fun s => f (withGrid (fun g => { g with dl := dl }) s)
  let t := counts s
  let va := ((t.thread 3 0).pair 6).toNat
  entersLong ins s && va % 4 == 0 && t.untested 3 0 va .wr == none
    && match t.checkWrite 3 0 (clause s).at va 4 true true 2 (atomPageFault .device .int32 va) with
      | .ok (s', x, _) =>
        let sc := if x.leaf.kind = .remote ∧ ord ≠ .none then max 4 Scope.device.code.toNat else Scope.device.code.toNat
        rootBlock dl s' && p ((t.thread 3 0).refused va)
          (if ord = .rel ∨ ord = .ar then s'.fenceRelease 3 0 (clause s).at sc else (s', none)) x
      | .error _ => false

/-- AtomResults: at DL0 and at DL1, on a page of another device that is known, refused there, asked about; and a release that
is not complete, for a result still to come from another device. -/
theorem witness_atom :
    (∀ ord ∈ [Ordering3.none, .ar], ∀ dl ∈ [(0 : BitVec 2), 1], atomOk inPage (sees page) dl ord (fun th r x =>
      th == 0 && r.2 == none && x.leaf.kind != .remote && (match x.home with | .remote .. => false | _ => true)
        && r.1.lostHome x.home 4 == none) = true)
    ∧ (∀ ord ∈ [Ordering3.none, .acq], atomOk inAway (knows 0) 0 ord (fun th r x =>
      th == 0 && r.2 == none && x.leaf.kind == .remote && (match x.home with | .remote .. => true | _ => false)) = true)
    ∧ (∀ ord ∈ [Ordering3.none, .rel], atomOk inAway (fun s => (knows 1 s).updThread 3 0 fun th => { th with released := true }) 0 ord (fun th r _ => th == 1 && r.2 == none) = true)
    ∧ (let ins : Instr := .atom 0 8 6 9 0 .device .add .int32 true .none false
       let s := one .mem ins inAway seesRemote
       entersLong ins s = true ∧ ((counts s).thread 3 0).pair 6 = 0x380000000040
         ∧ asks (counts s) 0x380000000040 .wr 0x05 2 3 (atomOpw .add .int32 true false true) true = true)
    ∧ ∀ dl ∈ [(0 : BitVec 2), 1], atomOk inPage (fun s => sees page (awaitsLoad s)) dl .rel (fun _ r _ =>
        r.2.any fun t => t.pauses (r.1.dl0 3) == (dl != 0)) = true := by
  decide +kernel

/-- RedFenceDiscardAndPrefetch, RED: buffered, held on a reduction page at DL2, and asking. -/
theorem witness_red :
    (∀ e ∈ [(inPage, sees page, (0 : BitVec 2)), (inPage, sees page, 1), (inAway, knows 0, 0)],
      let ins : Instr := .red 0 6 9 .device .add .int32 false
      let s := one .mem ins e.1 fun s => e.2.1 (withGrid (fun g => { g with dl := e.2.2 }) s)
      let va := ((s.thread 3 0).pair 6).toNat
      enters ins s = true ∧ va % 4 = 0 ∧ s.untested 3 0 va .wr = none ∧ rootBlock e.2.2 s = true
        ∧ (match s.checkWrite 3 0 (clause s).at va 4 true true 2 (redPageFault .device .add .int32 false va) with
          | .ok (s', x, _) => s'.lostHome x.home 4 == none
          | .error _ => false) = true)
    ∧ (let ins : Instr := .red 0 6 9 .device .add .fp32 false
       let s := one .mem ins inPage fun s => sees { page with fmt := .fp32, redop := 1 } (withGrid (fun g => { g with dl := 2 }) s)
       enters ins s = true ∧ rootBlock 2 s = true ∧ s.untested 3 0 0x20040 .wr = none
         ∧ (match s.laneXlate 3 0 0x20040 .wr with
           | .ok x => x.leaf.redop == 1 && redPageFault .device .add .fp32 false 0x20040 x.leaf == none && s.lostHome x.home 4 == none
           | .error _ => false) = true)
    ∧ (let ins : Instr := .red 0 6 9 .device .add .int32 false
       let s := one .mem ins inAway seesRemote
       enters ins s = true ∧ asks s 0x380000000040 .wr 0x05 2 3 (atomOpw .add .int32 true false true) false = true) := by decide +kernel

/-- The same, FENCE: each kind and both ends of the scopes, with nothing outstanding, and with a result to come from another
device. -/
theorem witness_fence :
    (∀ e ∈ [(FenceKind.acq, Scope.block), (.rel, .block), (.ar, .system), (.ar, .device)],
      let s := one .mem (.fence e.1 e.2) []
      enters (.fence e.1 e.2) s = true ∧ (s.thread 3 0).px = 0 ∧ (s.thread 3 0).released = false
        ∧ (if e.1 = .acq then s.loadsWait 3 0 else (s.fenceRelease 3 0 (clause s).at e.2.code.toNat).2) = none)
    ∧ (∀ kind ∈ [FenceKind.acq, .rel, .ar], ∀ dl ∈ [(0 : BitVec 2), 2],
      let s := one .mem (.fence kind .device) [] fun s => awaitsLoad (withGrid (fun g => { g with dl := dl }) s)
      let out := if kind = .acq then (s, s.loadsWait 3 0) else s.fenceRelease 3 0 (clause s).at 3
      enters (.fence kind .device) s = true ∧ (s.thread 3 0).px = 0
        ∧ out.2.any (fun t => t.pauses (out.1.dl0 3) == (dl != 0)) = true)
    ∧ (∀ dl ∈ [(0 : BitVec 2), 1], let s := one .mem (.fence .rel .system) [] (withGrid fun g => { g with dl := dl })
      (s.block? 3).any (fun k => k.vtag == 0) = true ∧ (s.thread 3 0).released = false ∧ s.dl0 3 = (dl == 0))
    ∧ (∀ e ∈ [([], true), ([⟨5, 0, 7, some 0, 0x80, RemoteFor.store 3 0 0⟩], false)],
      let s := one .mem (.fence .rel .system) [] fun s => { s with fabric := { s.fabric with remotes := e.1 } }
      let s₁ := s.sendHome 0 1
      s₁.tagsOpen (s₁.ackTags 0) = !e.2) := by decide +kernel

/-- The same, DISCARD of one sector, of the last two of a page, and on a page of another device; PREF. -/
theorem witness_discard :
    (∀ e ∈ [((0 : BitVec 8), (0x20040 : Nat), inPage, sees page), (1, 0x3FF80, [(6, 0x3FF80)], sees page), (0, 0x380000000040, inAway, knows 0)],
      let ins : Instr := .discard 6 e.1
      let s := one .mem ins e.2.2.1 e.2.2.2
      enters ins s = true ∧ ((s.thread 3 0).pair 6).toNat = e.2.1 ∧ e.2.1 % 64 = 0 ∧ (s.thread 3 0).released = false ∧ rootBlock 0 s = true
        ∧ ∀ v ∈ (List.range (e.1.toNat + 1)).map fun j => ea e.2.1 (64 * j : Nat), s.untested 3 0 v .wr = none
          ∧ (match s.laneXlate 3 0 v .wr with | .ok _ => true | .error _ => false) = true)
    ∧ let s := one .mem (.pref 6 0xFF .dflt) inPage (sees page)
      enters (.pref 6 0xFF .dflt) s = true ∧ rootBlock 0 s = true := by decide +kernel

/-- MulticastStores: at DL0 and at DL1; and a tree that delivers here alone. -/
theorem witness_mcast :
    (∀ dl ∈ [(0 : BitVec 2), 1], let ins : Instr := .stmc 3 8 6 9
      let s := one .mem ins (inPage ++ [(9, 255)]) fun s => sees { page with domain := 1 } (withGrid (fun g => { g with dl := dl }) s)
      enters ins s = true ∧ rootBlock dl s = true ∧ ((s.thread 3 0).reg 9).toNat = 255 ∧ 0x20040 % min 32 32 = 0
        ∧ (match s.xlate 0 0 0x20040 .wr with | .ok x => x.leaf.kind == .local && x.leaf.domain != 0 | .error _ => false) = true
        ∧ (match s.noteAccess 3 0 (clause s).at (0x20040 / 64) true with | .ok _ => true | .error _ => false) = true)
    ∧ (let s := (one .mem (.stmc 3 8 6 9) inPage fun s => sees { page with domain := 1 }
          { s with fabric := { s.fabric with trees := [(7, ⟨BitVec.ofNat 64 (3 * 2 ^ 18)⟩)] } }).updTenant 0 fun t => { t with en := true }
       let e := (Sparse.get Tree.none s.fabric.trees 7).bits.toNat
       let s₁ := (s.newTag.2.syncSector 0 0 0x20040).noteWritten 0 0 0x20040
       e.testBit 19 = true ∧ e.testBit 18 = true ∧ e / 2 ^ 20 % 2 ^ 6 = 0 ∧ e % 2 ^ 18 = 0
         ∧ (match s₁.pageHere 0 0x20040 4 .wr with | .ok x => s₁.lostHome x.home 32 == none | .error _ => false) = true
         ∧ s₁.fabric.trees = s.fabric.trees) := by decide +kernel
/-! ## Witnesses: class CTL -/

/-- TransferResults: forward, backward, through a pair that is also the link, and with the discarding link. -/
theorem witness_transfer :
    (∀ e ∈ [((.bra 0x7FFF : Instr), (0x7FFF : Half)), (.bra 0x8000, 0x8000), (.call 6 0xFFFF, 0xFFFF), (.call 255 1, 1)],
      let s := one .ctl e.1 []
      stands s = true ∧ (clause s).lanes = [lane0] ∧ s.gate (clause s) lane0 e.1 = none
        ∧ ((clause s).pc + BitVec.ofInt 64 (4 * sext e.2.toNat 16)).toNat % 4 = 0)
    ∧ ∀ ins ∈ [(.bri 6 : Instr), .calli 6 6, .ret 6], let s := one .ctl ins [(6, 0x100), (7, 0xFFFFFFFF)]
      stands s = true ∧ (clause s).lanes = [lane0] ∧ s.gate (clause s) lane0 ins = none
        ∧ ((s.thread (clause s).block 0).pair 6).toNat % 4 = 0 := by decide +kernel

/-- ThreadEndAndHints: an EXIT, the hints, and the end of thread 0 of a task. -/
theorem witness_end :
    (∀ ins ∈ [(.exit : Instr), .nop, .yield, .reform], let s := one .ctl ins []
      stands s = true ∧ (clause s).lanes = [lane0] ∧ s.gate (clause s) lane0 ins = none ∧ (block s).specs = [] ∧ (block s).fork = none)
    ∧ (let s := one .ctl .exit [] (withGrid fun g => { g with task := some ⟨0, 0, 0, 0, [], 0, 1, none, false, 0, [], none⟩ })
       (s.block? 3).isSome = true ∧ 0 < (block s).T ∧ (block s).specs = [] ∧ Sparse.wf Core.reset s.cores = true
         ∧ (block s).parent = none ∧ ((s.grid? (block s).grid).bind (·.task)).isSome = true)
    ∧ (let s := one .ctl .yield [] fun s => s.updThread 3 1 fun th => { th with pc := 0x80 }
       (block s).yieldKey 0 64 = some 0x80) := by decide +kernel

theorem freeVids_of_noViews {s : State} {n : Nat} (hv : s.views = []) (hn : n ≤ 4096) : s.freeVids n = some 1 := by
  simp [State.freeVids, State.vidsFree, State.vidUsed, hv, sortBy, insertBy, Sparse.has]
  omega

/-- A store of thread 0 to device 7 is not acknowledged. -/
def awaitsStore (s : State) : State := { s with fabric := { s.fabric with remotes := [⟨5, 0, 7, some 0, 0x80, .store 3 0 0⟩] } }

/-- BarriersForksAndJoins: the first and the last index, a split and an unsplit quad, a fork of 1, and the views that a fork of up to 4,096 finds free. -/
theorem witness_barriers :
    (∀ e ∈ [((.bar 0 : Instr), (0 : Nat)), (.bar 15, 15), (.cbar 15, 15)], let s := one .ctl e.1 []
      stands s = true ∧ (clause s).lanes = [lane0] ∧ s.gate (clause s) lane0 e.1 = none ∧ (s.thread 3 0).px = 0
        ∧ (s.kernelOf 3).any (fun n => decide (e.2 < n.bars)) = true)
    ∧ (let s := one .ctl .rwait []
       Ready s .rwait ∧ ((block s).quad 0).tag = 0)
    ∧ (let s := one .ctl .rwait [] fun s => s.updBlock 3 fun k => k.updQuad 0 fun q => { q with tag := 5 }
       Ready s .rwait ∧ ((block s).quad 0).tag ≠ 0 ∧ s.dl0 3 = true)
    ∧ (let ins : Instr := .fork 4 0x10
       let s := one .ctl ins [(4, 1)]
       Ready s ins ∧ ((s.thread 3 0).reg 4).toNat = 1 ∧ (block s).fork = none ∧ s.viewDepth (block s).vtag < 8 ∧ s.views = []
         ∧ (s.releaseAt 3 0 (clause s).at (s.parentScope 0)).2 = none)
    ∧ (let ins : Instr := .fork 4 0x10
       let s := one .ctl ins [(4, 1)] awaitsStore
       Ready s ins ∧ s.dl0 3 = true ∧ ((s.thread 3 0).reg 4).toNat = 1 ∧ (block s).fork = none ∧ s.viewDepth (block s).vtag < 8
         ∧ s.views = [] ∧ (s.releaseAt 3 0 (clause s).at (s.parentScope 0)).2.isSome = true)
    ∧ (let s := one .ctl (.cbar 0) [] awaitsStore
       Ready s (.cbar 0) ∧ s.dl0 3 = true ∧ (s.releaseAt 3 0 (clause s).at 2).2.isSome = true)
    ∧ (((State.reset.placeClause .ctl (encode .exit)).block? 3).isSome = true ∧ (0 : Nat) < 2)
    ∧ (∀ s : State, s.views = [] → ∀ n : Word, n.toNat ≤ 4096 → s.freeVids n.toNat = some 1) :=
  ⟨by decide +kernel, ⟨ready_of (by decide +kernel), by decide +kernel⟩, ⟨ready_of (by decide +kernel), by decide +kernel⟩,
    ⟨ready_of (by decide +kernel), by decide +kernel⟩, ⟨ready_of (by decide +kernel), by decide +kernel⟩,
    ⟨ready_of (by decide +kernel), by decide +kernel⟩, by decide +kernel, fun _ hv _ hn => freeVids_of_noViews hv hn⟩

/-- A machine in whose block thread 0 has a fork of three children open. -/
def forked (ins : Instr) : State :=
  one .ctl ins [] fun s => (s.block? 3).elim s fun k => s.openFork (clause s) lane0 k 3 1 0x100

theorem witness_join : ∀ ins ∈ [(.join : Instr), .vdrop], let s := forked ins
    stands s = true ∧ (clause s).lanes = [lane0] ∧ s.gate (clause s) lane0 ins = none
      ∧ (block s).fork.any (fun f => f.tid == lane0.tid && (s.dropFork 3 f false).issue == s.issue) = true := by decide +kernel

/-- A tenant with a share of handles. -/
def handles (s : State) : State := s.updTenant 0 fun t => { t with slshare := 4 }

/-- The invocation of these tests: a kernel at 0x20000 on any device, two arguments from x16 on. -/
def invokeIns : Instr := .invoke 4 6 8 16 2
def invokeRegs : List (Nat × Word) := [(6, 0x20000), (8, 2)]

/-- InvocationAndHandleResults: a slot granted, none granted, and DL1. -/
theorem witness_invoke :
    let call := fun s : State => s.callTrap (block s) ((s.thread 3 0).pair 6) (.target ((s.thread 3 0).reg 8))
    (let s := one .ctl invokeIns invokeRegs handles
     Ready s invokeIns ∧ call s = none ∧ s.dl0 3 = true ∧ s.slotGranted 3 0 = true ∧ (s.freeSlot 0).isSome = true)
    ∧ (let s := one .ctl invokeIns invokeRegs
       Ready s invokeIns ∧ call s = none ∧ s.dl0 3 = true ∧ s.slotGranted 3 0 = false)
    ∧ (let s := one .ctl invokeIns invokeRegs (withGrid fun g => { g with dl := 1 })
       Ready s invokeIns ∧ call s = none ∧ s.dl0 3 = false) :=
  ⟨⟨ready_of (by decide +kernel), by decide +kernel⟩, ⟨ready_of (by decide +kernel), by decide +kernel⟩,
    ⟨ready_of (by decide +kernel), by decide +kernel⟩⟩

/-- A machine whose tenant holds one handle, in x6:2, in this state. -/
def holding (c : Cls) (ins : Instr) (st : HState) (regs : List (Nat × Word) := []) : State :=
  let s := one c ins regs handles
  match s.freeSlot 0 with
  | none => s
  | some slot =>
    let t := (s.makeCall 3 0 slot 6 (.target 2) 0x20000 (List.replicate 8 0) 0)
    { (t.updSluice 0 slot fun e => { e with st := st, result := List.replicate 8 7 }) with issue := s.issue }

theorem witness_handles :
    (∀ e ∈ [((.await 8 6 0 false : Instr), HState.unplaced, HView.notReady), (.await 8 6 0 true, .ready, .ready (List.replicate 8 7)),
        (.hpoll 8 6, .ready, .ready (List.replicate 8 7)), (.hdrop 6, .unplaced, .notReady)],
      let s := holding .ctl e.1 e.2.1
      let h := (s.thread 3 0).pair 6
      stands s = true ∧ (clause s).lanes = [lane0] ∧ s.gate (clause s) lane0 e.1 = none ∧ s.awaitTrap (block s) h = none
        ∧ s.handleTrap 0 h = none ∧ s.dl0 3 = true ∧ s.handleView h = e.2.2 ∧ hHome h = s.fabric.devid)
    ∧ (let ins : Instr := .await 8 6 7 false
       let s := holding .ctl ins .broken
       stands s = true ∧ (clause s).lanes = [lane0] ∧ s.gate (clause s) lane0 ins = none ∧ s.awaitTrap (block s) ((s.thread 3 0).pair 6) = none
         ∧ (match s.handleView ((s.thread 3 0).pair 6) with | .broken _ => true | _ => false) = true)
    ∧ (let ins : Instr := .invokeOn 4 6 10 16 0
       let s := holding .ctl ins .ready [(10, 0x20000)]
       stands s = true ∧ (clause s).lanes = [lane0] ∧ s.gate (clause s) lane0 ins = none
         ∧ s.callTrap (block s) ((s.thread 3 0).pair 10) (.on ((s.thread 3 0).pair 6)) = none ∧ s.slotGranted 3 0 = true
         ∧ (s.freeSlot 0).isSome = true) := by decide +kernel

/-- The same: AWAIT and HPOLL of a handle that device 7 homes, with a route there and without one. -/
theorem witness_handle_away : ∀ ins ∈ [(.await 8 6 0 false : Instr), .hpoll 8 6], ∀ routed ∈ [true, false],
    let s := one .ctl ins [(6, 0x10000), (7, 0x01C00300)] fun s =>
      { seesRemote s with fabric := { (if routed then seesRemote s else s).fabric with devid := 1 } }
    let h := (s.thread 3 0).pair 6
    enters ins s = true ∧ h = mkHandle 7 3 1 0 ∧ s.awaitTrap (block s) h = none ∧ s.handleTrap 0 h = none
      ∧ hHome h ≠ s.fabric.devid ∧ (s.askHome h .await (.await 3 0)).isSome = routed
      ∧ ((s.threadEvent 3 0 0x03 (clause s).at).askHome h .poll (.poll 3 0 8)).isSome = routed := by decide +kernel

/-- SpeculationAndBolt. -/
theorem witness_spec :
    (∀ ins ∈ [(.spec 8 : Instr), .bolt 8 6 0x10], let s := one .ctl ins []
      stands s = true ∧ (clause s).lanes = [lane0] ∧ s.gate (clause s) lane0 ins = none ∧ (block s).specs = [] ∧ (block s).fork = none
        ∧ (s.gridOf 3).isSome = true)
    ∧ (let s := one .ctl .specend [] fun s => s.updBlock 3 fun k =>
         { k with specs := [⟨1, ⟨0x20000, 1, 1, .fp32, 0, false, 16, 0, 0, 0⟩, [], .none, ⟨[], [], [], [], [], 0⟩, [], false, []⟩] }
       stands s = true ∧ (clause s).lanes = [lane0] ∧ s.gate (clause s) lane0 .specend = none ∧ (block s).specs ≠ []) := by decide +kernel

/-! ## Witnesses: class ENG -/

/-- Answered without a trap. -/
def fine {α : Type} (x : Except Trap α) : Bool :=
  match x with
  | .ok _ => true
  | .error _ => false

/-- Parameter words without a substitution, and with the first taken from a register. -/
def words (a b c d : Word) : PBlock := ⟨0, a, b, c, d⟩

/-- The hypotheses of Does for a thread that posts: the clause, the barrier where one is named, and no frozen block. -/
def posts (ins : Instr) (regs : List (Nat × Word)) (d : Nat) (tb : Bool) : Bool :=
  let s := one .eng ins regs (sees page)
  stands s && (clause s).lanes == [lane0] && s.gate (clause s) lane0 ins == none && !(block s).frozen
    && (!tb || fine (s.tbAddr 3 ((s.thread 3 0).reg d).toNat))

/-- CopyPosting, CPY: a load of two rows of four FP32 columns with a barrier, and a store; the record is well formed, and the
box fits the scratchpad to its last byte. -/
theorem witness_cpy :
    let p := words 0x20040 0x07000000 0x00010007 0x20
    let rec_ := 0x20040 + 0x07000000 * 2 ^ 32 + 0x00010007 * 2 ^ 64 + 0x20 * 2 ^ 96
    let regs : List (Nat × Word) := [(4, 0), (5, 0), (6, 0x00010003), (7, 0xFE0), (9, 0xF0)]
    let s := one .eng (.cpy 9 4 false true p) regs
    let q := (s.thread 3 0).groupNat 4 4
    posts (.cpy 9 4 false true p) regs 9 true = true ∧ posts (.cpy 9 4 true false p) regs 9 false = true
      ∧ paramAt p (s.thread 3 0) 0 + paramAt p (s.thread 3 0) 1 * 2 ^ 32 + paramAt p (s.thread 3 0) 2 * 2 ^ 64
          + paramAt p (s.thread 3 0) 3 * 2 ^ 96 = rec_
      ∧ bitsAt rec_ 53 3 = 0 ∧ bitsAt rec_ 62 2 = 0 ∧ bitsAt rec_ 56 4 = 7 ∧ bitsAt rec_ 60 2 ≠ 3 ∧ bitsAt rec_ 0 53 % 16 = 0
      ∧ bitsAt rec_ 96 32 % 16 = 0 ∧ (bitsAt rec_ 64 16 + 1) * tensorBits 7 ≤ bitsAt rec_ 96 32 * 8 ∧ bitsAt q 96 32 % 16 = 0
      ∧ tensorBits 7 ≠ 4 ∧ (bitsAt q 80 16 + 1) * rowBytes (bitsAt q 64 16 + 1) (tensorBits 7) = 32
      ∧ fine (s.clusterAddr 3 (bitsAt q 96 32) 32) = true := by decide +kernel

/-- CPYG, CPYS and CPYR at the least lengths, the last with a word from a register and from the scratchpad and from memory. -/
theorem witness_copies :
    posts (.cpyg 9 4 true (words 0x20040 0 0x20080 0)) [(4, 64), (9, 0)] 9 true = true ∧ 64 % 64 = 0 ∧ 0x20040 % 64 = 0
      ∧ posts (.cpys 9 4 false ⟨1, 10, 0xFF0, 0, 0⟩) [(4, 16), (10, 0x10)] 9 false = true
      ∧ (let s := one .eng (.cpys 9 4 false ⟨1, 10, 0xFF0, 0, 0⟩) [(4, 16), (10, 0x10)]
         paramAt ⟨1, 10, 0xFF0, 0, 0⟩ (s.thread 3 0) 0 = 0x10 ∧ fine (s.clusterAddr 3 0x10 16) = true ∧ fine (s.clusterAddr 3 0xFF0 16) = true
           ∧ bitsAt 0xFF0 19 9 = 0)
      ∧ posts (.cpyr 9 4 true true (words 0xFFC 0 0 0)) [(4, 4), (9, 0xF0)] 9 true = true
      ∧ (let s := one .eng (.cpyr 9 4 true true (words 0xFFC 0 0 0)) [(4, 4), (9, 0xF0)]
         fine (s.clusterAddr 3 0xFFC 4) = true)
      ∧ posts (.cpyr 9 4 false false (words 0x20044 0 0x1FFFFFFC 0)) [(4, 4)] 9 false = true := by decide +kernel

/-- The release of a copy is complete at once, for a copy of this device's memory; it is not for one from another device while
a store to a device is unanswered. -/
theorem witness_copy_release :
    (∀ kind ∈ [EngKind.cpyg 0x20040 0x20080 64, .cpys 0x10 0xFF0 16, .cpyr true 0xFFC 0 4],
      let s := one .eng (.cpyg 9 4 true (words 0x20040 0 0x20080 0)) [(4, 64), (9, 0)] (sees page)
      (s.block? 3).isSome = true ∧ ((s.block? 3).bind fun k => s.grid? k.grid).isSome = true
        ∧ (s.releaseAt 3 0 (clause s).at (s.kindScope 3 kind)).2 = none)
    ∧ (let ins : Instr := .cpyg 9 4 false (words 0x40 0x3800 0x80 0x3800)
       let s := one .eng ins [(4, 64)] fun s => { seesRemote s with fabric := { (seesRemote s).fabric with remotes := [⟨5, 0, 7, some 0, 0x80, .store 3 0 64⟩] } }
       enters ins s = true ∧ (block s).frozen = false
         ∧ s.dl0 3 = true
         ∧ (s.releaseAt 3 0 (clause s).at (s.kindScope 3 (.cpyg 0x380000000040 0x380000000080 64))).2.isSome = true) := by decide +kernel

/-- NBGEMV: one row of 32 D8 weights, and one of 32 FP4X weights with a scale array and an XVAL register. -/
theorem witness_nbgemv :
    (let regs : List (Nat × Word) := [(4, 0x10), (5, 0x90000FF0), (6, 0), (7, 0)]
     let p := words 0x20040 0 0x0000001F 64
     let s := one .eng (.nbgemv 8 4 false p) regs
     let q := (s.thread 3 0).groupNat 4 4
     posts (.nbgemv 8 4 false p) regs 8 false = true ∧ fmtOfNat (bitsAt q 60 4) = some .d8 ∧ vectorFmt .d8 = some .d8 ∧ bitsAt q 19 9 = 0
       ∧ bitsAt q 51 9 = 0 ∧ bitsAt q 64 64 = 0 ∧ bitsAt q 28 4 = 0 ∧ divUp (32 * 8) 512 * 64 ≤ 64 ∧ bitsAt q 0 19 % 16 = 0
       ∧ bitsAt q 32 19 % 16 = 0 ∧ bitsAt q 0 19 + divUp (32 * 8) 8 ≤ s.scratchSize 3 ∧ bitsAt q 32 19 + 4 ≤ s.scratchSize 3)
    ∧ (let regs : List (Nat × Word) := [(4, 0xF0000010), (5, 0xA0000FF0), (6, 0x20084), (7, 0), (8, 0)]
       let p := words 0x20040 0 0x0000001F 64
       let s := one .eng (.nbgemv 8 4 true p) regs
       let q := (s.thread 3 0).groupNat 4 4
       posts (.nbgemv 8 4 true p) regs 8 true = true ∧ fmtOfNat (bitsAt q 60 4) = some .fp4x ∧ vectorFmt .fp4x = some .bf16
         ∧ bitsAt q 64 64 = 0x20084 ∧ bitsAt q 64 64 % 4 = 0 ∧ bitsAt q 28 4 = 15
         ∧ bitsAt q 0 19 + divUp (32 * 16) 8 ≤ s.scratchSize 3 ∧ bitsAt q 32 19 + 4 ≤ s.scratchSize 3) := by decide +kernel

/-- A second block of the cluster, number 9 on core 1, and a grid at DL1. -/
def neighbour (s : State) : State :=
  let s := withGrid (fun g => { g with dl := 1 }) s
  let s := { s with blocks := Sparse.put s.blocks 9 { block s with core := 1, member := 1 } }
  (s.updGrid 1 fun g => { g with kernel := { g.kernel with cluster := 2 } }).updCluster 2 fun c => { c with members := [3, 9] }

/-- TransactionBarrierResults: on the first and the last barrier of the block itself, and on one of another core at DL1. -/
theorem witness_tb :
    (∀ e ∈ [((.tbinit 4 0xFFFFF : Instr), (0 : Word)), (.tbarrive 8 4, 0xF0), (.tbexpect 4 5, 0x10), (.tbwait 0 4 6, 0xF0), (.tbtest 8 4 6, 0)],
      let s := one .eng e.1 [(4, e.2), (5, 1), (6, 1)]
      stands s = true ∧ (clause s).lanes = [lane0] ∧ s.gate (clause s) lane0 e.1 = none
        ∧ (match s.tbAddr 3 ((s.thread 3 0).reg 4).toNat with | .ok (o, off) => o == 3 && off == e.2.toNat | _ => false) = true
        ∧ s.buffered 3 3 e.2.toNat = false ∧ (s.releaseAt 3 0 (clause s).at 2).2 = none
        ∧ (s.releaseAt 3 0 (clause s).at 2).1.buffered 3 3 e.2.toNat = false ∧ tbPhase (s.tbGet 3 e.2.toNat) ≠ 1
        ∧ fine ((s.threadEvent 3 0 0x03 (clause s).at).tbAddr 3 ((s.thread 3 0).reg 4).toNat) = true)
    ∧ (let s := one .eng (.tbwait 0 4 6) [(4, 0)]
       stands s = true ∧ (clause s).lanes = [lane0] ∧ s.gate (clause s) lane0 (.tbwait 0 4 6) = none ∧ tbPhase (s.tbGet 3 0) = 0)
    ∧ (∀ ins ∈ [(.tbarrive 8 4 : Instr), .tbexpect 4 5, .tbwait 0 4 6], let s := one .eng ins [(4, 0x10000010), (5, 3)] neighbour
      stands s = true ∧ (clause s).lanes = [lane0] ∧ s.gate (clause s) lane0 ins = none
        ∧ (match s.tbAddr 3 0x10000010 with | .ok (o, off) => o == 9 && off == 16 | _ => false) = true
        ∧ s.buffered 3 9 16 = true ∧ (s.releaseAt 3 0 (clause s).at 2).2 = none
        ∧ (s.releaseAt 3 0 (clause s).at 2).1.buffered 3 9 16 = true)
    ∧ (let s := one .eng (.tbarrive 8 4) [(4, 0)] awaitsStore
       stands s = true ∧ (clause s).lanes = [lane0] ∧ s.gate (clause s) lane0 (.tbarrive 8 4) = none ∧ s.dl0 3 = true
         ∧ (s.releaseAt 3 0 (clause s).at 2).2.isSome = true ∧ fine (s.tbAddr 3 0) = true) := by decide +kernel

theorem witness_tb_words : 2 ^ 128 - 1 < 2 ^ 128 ∧ tbParr 0 = 0 ∧ tbPsec 0 = 0 ∧ tbParr (1 * 2 ^ 4) ≠ 0 := by decide +kernel

/-- An engine operation of block 3 that has written its destination. -/
def operation (kind : EngKind) (scope : Nat) (signed : Option (List Word)) (tb : Option Nat := none) : EngOp :=
  ⟨77, 3, 0, 0x10, 0, kind, 0, 1, tb, [], 0, true, false, scope, signed, 0⟩

/-- TimelineAndCompletionResults. -/
theorem witness_tl :
    (∀ e ∈ [((.tlwait 4 0 : Instr), (0 : Word)), (.tlwait 4 7, 1), (.tlread 8 3, 0), (.tladd 4 4, 1), (.tladd 4 7, 0xFFFFFFFF)],
      let s := one .eng e.1 [(4, e.2)]
      stands s = true ∧ (clause s).lanes = [lane0] ∧ s.gate (clause s) lane0 e.1 = none ∧ ((s.thread 3 0).pair 4).toNat = e.2.toNat
        ∧ (s.block? 3).isSome = true ∧ (block s).tl = [] ∧ (s.releaseAt 3 0 (clause s).at 3).2 = none
        ∧ (s.releaseAt 3 0 (clause s).at 3).1.dl0 3 = true)
    ∧ (let s := one .eng (.tladd 4 4) [(4, 1)] awaitsStore
       stands s = true ∧ (clause s).lanes = [lane0] ∧ s.gate (clause s) lane0 (.tladd 4 4) = none ∧ s.dl0 3 = true
         ∧ (s.releaseAt 3 0 (clause s).at 3).2.isSome = true)
    ∧ (let s := one .eng (.tladd 4 5) [(4, 1)] (withGrid fun g => { g with dl := 2 })
       stands s = true ∧ (clause s).lanes = [lane0] ∧ s.gate (clause s) lane0 (.tladd 4 5) = none
         ∧ (s.releaseAt 3 0 (clause s).at 3).2 = none ∧ (s.releaseAt 3 0 (clause s).at 3).1.dl0 3 = false)
    ∧ (∀ kind ∈ [EngKind.cpys 0x10 0x20 16, .nbgemv 0x20040 0 0 64 0x10 0x20 0 .d8 0], ∀ e ∈ [(some [5], (0 : BitVec 2), 3), (none, 0, 2),
          (none, 0, 5), (none, 1, 4)],
       let op := operation kind e.2.2 e.1
       let s := { withGrid (fun g => { g with dl := e.2.1 }) (one .eng (.tladd 4 5) []) with engines := [op] }
       s.engine? op.id = some op ∧ (s.block? op.block).isSome = true ∧ op.waits = 0 ∧ op.written = true
         ∧ (e.1 = none → s.engineTurns op = (e.2.1 != 0)))
    ∧ (∀ dl ∈ [(0 : BitVec 2), 1], let op := operation (.cpys 0x10 0x20 16) 2 none (some (9 * 2 ^ 20 + 16))
       let s := withGrid (fun g => { g with dl := dl }) (neighbour (one .eng (.tladd 4 5) []))
       (s.block? 9).isSome = true ∧ op.block ≠ 9 ∧ op.bytes < 2 ^ 32 ∧ s.engineTurns op = (dl != 0) ∧ 16 < 2 ^ 20
         ∧ ((s.block? 3).bind fun k => s.grid? k.grid).any (fun g => g.dl == dl) = true)
    ∧ (let k := { block (one .eng (.tladd 4 5) []) with tl := [(0, 3)], tlDone := [(0, 5), (0, 4)] }
       Sparse.wf 0 k.tl = true ∧ (k.tlc 0).toNat + k.tlDone.length + 1 < 2 ^ 64) := by decide +kernel

/-- Parameters of an MMA of 2 by 2 elements over 64 elements of D8, into tile 1. -/
def mmaWords : PBlock := words 0x00080000 0x00010040 0x00990101 0

/-- An entry of wheel 0, of block 3. -/
def entry (id : Nat) (p : MmaParams) : MatEntry := ⟨id, 3, 0, 64, 0, 0, p, 1, id, 0, 0, false, false, 0, []⟩

def mmaOf : MmaParams := ⟨0, 128, 64, 1, false, 2, 2, .d8, .d8, 0, 0, 0, 0⟩

/-- MatrixEntriesAndAccumulators: room in the table and none, free tiles and tiles of the tenant, with earlier entries on the
tile and without. -/
theorem witness_mma : ∀ n ∈ [0, 31, 32], ∀ dl ∈ [(0 : BitVec 2), 1], let ins : Instr := .mma mmaWords
    let s := one .eng ins [] fun s => (withGrid (fun g => { g with dl := dl }) s).updWheel 0 fun _ => (List.range n).map fun j => entry (100 + j) mmaOf
    stands s = true ∧ (clause s).lanes = [lane0] ∧ s.gate (clause s) lane0 ins = none
      ∧ mmaParse (paramAt mmaWords (s.thread 3 0) 0) (paramAt mmaWords (s.thread 3 0) 1) (paramAt mmaWords (s.thread 3 0) 2)
          (paramAt mmaWords (s.thread 3 0) 3) = some mmaOf
      ∧ mmaOf.reach ≤ s.scratchSize 3 ∧ (s.gridOf 3).isSome = true ∧ (s.takeTiles 0 (mmaOf.tiles 0)).isSome = true ∧ (s.wheel 0).length = n
      ∧ s.dl0 3 = (dl == 0) := by
  decide +kernel

theorem witness_acc :
    (∀ e ∈ [((.accrd 3 8 4 1 .bytes : Instr), [1], false), (.accwr 3 8 4 2 .fp64, [2, 3], true), (.accz 3 false, [3], true), (.accz 0 true, [0, 1], true)], ∀ dl ∈ [(0 : BitVec 2), 3],
      let s := one .eng e.1 [(4, 16376)] fun s => ((withGrid (fun g => { g with dl := dl }) s).updTile 1 fun t => { t with owner := some 0 }).updWheel 0 fun _ => [entry 100 { mmaOf with tile := 2 }]
      let taken := (s.takeTiles 0 e.2.1).map fun s' => if e.2.2 then s'.nameTiles 3 e.2.1 else s'
      stands s = true ∧ (clause s).lanes = [lane0] ∧ s.gate (clause s) lane0 e.1 = none ∧ (block s).core = 0 ∧ (block s).tenant = 0
        ∧ ((s.thread 3 0).reg 4).toNat + 8 ≤ 16384 ∧ s.dl0 3 = (dl == 0)
        ∧ taken.any (fun s' => (s'.entriesOn 0 e.2.1).isEmpty == !e.2.1.contains 2) = true)
    ∧ Sparse.wf Tile.free (one .eng (.accz 0 true) []).tiles = true := by decide +kernel

/-- RandomDraws, at a counter that wraps and at one that does not. -/
theorem witness_rng : ∀ n ∈ [0, 0xFFFFFFFFFFFFFFFD], let ins : Instr := .rng 2 4 .f64
    let c : Dword := BitVec.ofNat 64 n
    let s := one .eng ins [] fun s => s.updThread 3 0 fun th => { th with rngCtr := c }
    stands s = true ∧ (clause s).lanes = [lane0] ∧ s.gate (clause s) lane0 ins = none ∧ (s.thread 3 0).rngCtr = c
      ∧ s.block? 3 = some (block s) := by decide +kernel
/-! ## Witnesses: classes LANE and SYS -/

/-- LaneExchangeAndFoldResults: each instruction, with sources in the lanes and outside them. -/
theorem witness_lane : ∀ ins ∈ [
    (.shfl 0 4 5 6 0 5 .at false : Instr), .shfl 3 8 16 6 7 0 .below true, .shfl 1 4 6 8 0 3 .above false, .shfl 0 4 5 6 0 2 .flip true, .vote 0 7 .every,
    .vote 0 1 .some, .vote 7 0 .same, .vote 4 0 .mask, .vote 4 0 .live, .vote 255 0 .pos, .lred 0 4 5 .inForce .fp32 .fadd 5,
    .lred 1 4 6 (.forced 1) .int64 .minu 0, .lscan 0 4 5 .inForce .int32 .add 5 true, .lscan 0 4 5 .inForce .fp32 .fmin 1 false, .lmatch 1 4 6,
    .qswp 0 4 5 3 0, .qbcast 0 4 5 2 7],
    let s := one .lane ins []
    let t := { s with issue := some (clause s).counted }
    stands s = true ∧ (clause s).lanes = [lane0] ∧ State.gate t (clause s).counted lane0 ins = none
      ∧ ((clause s).lanes.map (·.lane)).Pairwise (· < ·) := by decide +kernel

/-- The same of a clause of several lanes, and the operands of a step at both widths. -/
theorem witness_lanes :
    let ins : Instr := .lscan 0 4 5 .inForce .int32 .add 5 false
    let s := machine .lane ins [(5, 1)]
    let s := { s with issue := some { clause s with lanes := [⟨0, 0, true, 1⟩, ⟨1, 1, false, 1⟩, ⟨2, 2, true, 2⟩, ⟨31, 3, true, 1⟩] } }
    stands s = true ∧ ((clause s).lanes.map (·.lane)).Pairwise (· < ·)
      ∧ (∀ l ∈ (clause s).lanes, State.gate { s with issue := some (clause s).counted } (clause s).counted l ins = none)
      ∧ 2 ^ 32 - 1 < 2 ^ 32 ∧ 2 ^ 64 - 1 < 2 ^ 64 := by decide +kernel

/-- SpecialRegisterResults: reads of each kind, at every width that has one, and writes to each register that can be written. -/
theorem witness_special : ∀ e ∈ [
    ((.srd 0 8 0x000 : Instr), (0 : Word)), (.srd 1 8 0x018, 0), (.srd 1 8 0x0A0, 0), (.clock 8, 0), (.swr 0 8 0x010, 0x00000404), (.swr 0 8 0x011, 0xFFFFFFFF),
    (.swr 0 8 0x020, 0), (.swr 0 8 0x021, 5), (.swr 0 8 0x03F, 1), (.swr 1 8 0x043, 0xFFFFFFFF), (.swr 1 8 0x047, 2), (.cctl 8 0 .iinv, 0),
    (.cctl 8 0x80 .wb, 0x20040), (.cctl 8 0 .wbi, 0)],
    let s := one .sys e.1 [(8, e.2)] (sees page)
    stands s = true ∧ (clause s).lanes = [lane0] ∧ s.gate (clause s) lane0 e.1 = none ∧ s.block? 3 = some (block s) ∧ (s.gridOf 3).isSome = true
      ∧ (s.kernelOf 3).any (fun n => onBit n.features 3) = true ∧ ((s.thread 3 0).groupNat 8 1) = e.2.toNat
      ∧ Sparse.wf Core.reset s.cores = true := by decide +kernel

/-- What %fpcr may take: the highest legal modes, with the rational mode on. -/
theorem witness_fpcr : bitsAt 0x2604 0 3 < 5 ∧ bitsAt 0x2604 11 3 < 5 ∧ bitsAt 0x2604 3 1 = 0 ∧ bitsAt 0x2604 14 18 = 0
    ∧ bitsAt 0x2604 10 1 = 1 := by decide +kernel

/-- A machine in whose handler thread 0 stands, saved at word 1 of a clause at 0x20000. -/
def inHandler (s : State) : State :=
  let s := sees { page with wr := false, ex := true } { s with mem := Memory.write [] 0x40000 (natToBytes 4 (placedHeader .int 1).toWord.toNat) }
  s.updThread 3 0 fun th => { th with hm := true, trec := [(0, 0x20004), (1, 0x100000000)] }

/-- A kernel with a handler. -/
def handled (s : State) : State := withGrid (fun g => { g with kernel := { g.kernel with handler := 0x80 } }) s

/-- TrapAndReturn. -/
theorem witness_trap :
    (∀ ins ∈ [(.trap 0xFFFF : Instr), .bkpt 0], let s := one .sys ins []
      stands s = true ∧ (clause s).lanes = [lane0] ∧ s.gate (clause s) lane0 ins = none ∧ (s.gridOf 3).any (fun g => g.task.isNone) = true)
    ∧ (let s := one .sys .eret [] inHandler
       let th := s.thread 3 0
       let hdr : Dword := th.trecAt 0 - BitVec.ofNat 64 (4 * bitsAt (th.trecAt 1).toNat 32 4)
       stands s = true ∧ (clause s).lanes = [lane0] ∧ s.gate (clause s) lane0 .eret = none ∧ th.hm = true ∧ hdr = 0x20000
         ∧ (match s.fetchWord 3 0x20000 [] with
           | .ok (_, _, w) => (Header.ofWord w).fault == none && decide (1 ≤ (Header.ofWord w).n.toNat)
           | .error _ => false) = true) := by decide +kernel

/-- The same: a task whose thread has no handler to go to. -/
theorem witness_trap_fails_task : ∀ ins ∈ [(.trap 0xFFFF : Instr), .bkpt 0],
    let s := one .sys ins [] (withGrid fun g => { g with launch := none, task := some ⟨0, 0, 0, 0, [], 0, 1, none, false, 0, [], none⟩ })
    enters ins s = true ∧ lane0.start ≤ (clause s).pos ∧ lane0.pred = true
      ∧ (s.grid? (block s).grid).any (fun g => g.task.isSome && g.kernel.handler == 0) = true := by decide +kernel

/-- A record that suspends, on which a trap of thread 0 at 0x40 merges. -/
def openTrap (s : State) : State :=
  let r := s.trapRecord 3 0 0x40 (Trap.of cTRAP 1)
  s.updTenant 0 fun t => { t with fq := { t.fq with opened := [⟨{ r with seq := 7 }, false, false, [(3, 1)]⟩] } }

/-- TrapsTaken: with a handler; without one; in the handler; a code that goes to none; on an open record and on none. -/
theorem witness_traps :
    (let s := handled (machine .int .exit [])
     (s.block? 3).isSome = true ∧ (s.gridOf 3).any (fun g => g.kernel.handler != 0) = true ∧ 0 < (block s).T
       ∧ (Trap.of cTRAP 255).toHandler = true ∧ (block s).T ≤ 2 ^ 11 ∧ cTRAP < 2 ^ 8 ∧ ((block s).thread 0).hm = false
       ∧ Sparse.wf 0 ((block s).thread 0).trec = true)
    ∧ (∀ open_ ∈ [false, true], let s := machine .int .exit []
       let s := if open_ then openTrap s else s
       (s.gridOf 3).any (fun g => g.kernel.handler == 0 && g.task.isNone) = true ∧ Sparse.wf Tenant.reset s.tenants = true
         ∧ ((s.tenant 0).fq.opened.find? fun o => mergeKey o (s.trapRecord 3 0 0x40 (Trap.of cTRAP 1)) false).isSome = open_)
    ∧ (Trap.of cXLATE 1).toHandler = false := by decide +kernel
/-! ## Witnesses: engine operations as they run -/

/-- A machine with one engine operation of block 3. -/
def runs (op : EngOp) (f : State → State := id) : State :=
  let s := machine .ctl .exit []
  f { s with engines := [op] }

/-- An operation of block 3 that has not begun to write. -/
def running (kind : EngKind) (tlk : Nat := 0) : EngOp := ⟨5, 3, 0, 64, 0, kind, tlk, 1, none, [], 0, false, false, 2, none, 0⟩

/-- No core holds a dirty sector or a buffered reduction. -/
def cleanCores (s : State) : Bool := s.cores.all fun e => e.2.reds == [] && e.2.cache.all fun x => x.dirty == 0

/-- It stands posted, at DL0, with nothing outstanding. -/
def posted (s : State) (op : EngOp) : Bool :=
  s.engine? op.id == some op && s.block? op.block == some (block s) && (s.grid? (block s).grid).any (fun g => g.dl == 0) && op.waits == 0
    && !op.written && op.signed.isNone && op.tb.isNone && op.got.isEmpty && decide (op.scope < 4) && op.vtag == 0
    && !s.gatedDie ((block s).core / 64) && cleanCores s && Sparse.wf Core.reset s.cores && Memory.wf s.mem && Memory.wf (block s).scratch

theorem clean_of {s : State} (h : cleanCores s = true) : ∀ c, (s.core c).reds = [] ∧ ∀ x ∈ (s.core c).cache, x.dirty = 0 := by
  have go : ∀ (l : Sparse Core) (c : Nat), l.all (fun e => e.2.reds == [] && e.2.cache.all fun x => x.dirty == 0) = true →
      (Sparse.get Core.reset l c).reds = [] ∧ ∀ x ∈ (Sparse.get Core.reset l c).cache, x.dirty = 0 := by
    intro l c
    induction l with
    | nil => intro _; exact ⟨rfl, fun _ h => nomatch h⟩
    | cons e l ih =>
      intro h
      simp only [List.all_cons, Bool.and_eq_true, beq_iff_eq, List.all_eq_true] at h
      simp only [Sparse.get]
      split
      · exact h.1
      · exact ih (by simpa only [List.all_eq_true, Bool.and_eq_true, beq_iff_eq] using h.2)
  exact fun c => go s.cores c h

/-- The page is held in the TLB of core 0, so every state with those entries translates its addresses alike. -/
theorem mapped_page {va n base : Nat} (w : Want) (h : 0x20000 ≤ base ∧ base ≤ va ∧ va + n ≤ 0x40000) :
    ∀ u : State, u.tlb = [⟨0, 0, page⟩, ⟨ownSite, 0, page⟩] → ∀ p ∈ sectorPieces va n,
      ∃ x, u.xlate 0 0 p.1 w = .ok x ∧ x.home = .dev (base + 0x20000 + (p.1 - base)) ∧ x.leaf = page := by
  intro u hu p hp
  have hp : va ≤ p.1 ∧ p.1 < va + n := by
    simp only [sectorPieces] at hp
    split at hp
    · simp at hp
    · simp only [List.mem_map, List.mem_range] at hp
      obtain ⟨i, hi, rfl⟩ := hp
      dsimp only
      omega
  refine ⟨⟨page, .dev (0x40000 + (p.1 - 0x20000))⟩, ?_, ?_, rfl⟩
  · have h1 : ¬ 2 ^ 53 ≤ p.1 := by omega
    have h2 : 0x20000 ≤ p.1 ∧ p.1 < 0x20000 + 0x20000 := by omega
    simp only [State.xlate, State.leaf, if_neg h1, hu]
    simp only [tlbSites, page, List.find?]
    simp [h2.1, show p.1 < 262144 by omega]
    cases w <;> simp [Leaf.permFault, homeOf]
  · simp only [HomeAt.dev.injEq]
    omega

/-- CopiesAndNearBankRun, CPYS: a copy within the scratchpad. -/
theorem witness_runs_scratchpad :
    let op := running (.cpys 0 0x10 16)
    let s := runs op
    posted s op = true ∧ (match s.clusterAddr 3 0 16, s.clusterAddr 3 0x10 16 with
       | .ok x, .ok y => x == (3, 0) && y == (3, 0x10)
       | _, _ => false) = true := by decide +kernel

/-- The same, CPYG: two sectors of device memory. -/
theorem witness_runs_memory :
    let op := running (.cpyg 0x20040 0x20200 (64 * 2))
    let s := runs op (sees page)
    (posted s op = true ∧ 0x20040 % 64 = 0 ∧ 0x20200 % 64 = 0 ∧ 0x40040 + 64 * 2 ≤ 0x40200 ∧ s.tlb = [⟨0, 0, page⟩, ⟨ownSite, 0, page⟩]
       ∧ (∀ p ∈ sectorPieces 0x20040 128, s.lostHome (.dev (0x40040 + (p.1 - 0x20040))) p.2.1 = none)
       ∧ ∀ p ∈ sectorPieces 0x20200 128, s.lostHome (.dev (0x40200 + (p.1 - 0x20200))) p.2.1 = none)
      ∧ (∀ u : State, u.tlb = s.tlb → ∀ p ∈ sectorPieces 0x20040 128, ∃ x, u.xlate 0 0 p.1 .rd = .ok x
          ∧ x.home = .dev (0x40040 + (p.1 - 0x20040)) ∧ x.leaf = page)
      ∧ (∀ u : State, u.tlb = s.tlb → ∀ p ∈ sectorPieces 0x20200 128, ∃ x, u.xlate 0 0 p.1 .wr = .ok x
          ∧ x.home = .dev (0x40200 + (p.1 - 0x20200)) ∧ x.leaf = page) :=
  ⟨by decide +kernel, fun u hu => mapped_page .rd (base := 0x20040) (by decide) u hu,
    fun u hu => mapped_page .wr (base := 0x20200) (by decide) u hu⟩

/-- The same, CPYR: from the scratchpad and from memory, to each space of the on-chip map. -/
theorem witness_runs_on_chip :
    (∀ e ∈ [(true, 0x10, 0, 0), (false, 0x20044, 0x40000, 1), (true, 0x10, 0xA0000, 2)],
      let op := running (.cpyr e.1 e.2.1 e.2.2.1 8)
      let s := runs op fun s => (sees page s).updTile 0 fun x => { x with owner := some 0 }
      posted s op = true ∧ s.tlb = [⟨0, 0, page⟩, ⟨ownSite, 0, page⟩]
        ∧ (s.ocmFind 0 e.2.2.1 8).any (fun x => match x with
          | .reg b off => e.2.2.2 == 0 && (s.block? b).any fun m => (s.kernelOf b).any fun n => (List.range 2).all fun j =>
              (regAt n m.T 0 (off / 4 + j)).any fun r => decide (r.1 < m.T ∧ r.2 < 255) && (s.lastPend b r.1 r.2).isNone
                && Sparse.wf 0 (m.thread r.1).regs
          | .scratch b _ => e.2.2.2 == 1 && (s.block? b).any fun m => Memory.wf m.scratch
          | .tile i _ => e.2.2.2 == 2 && Sparse.wf Tile.free s.tiles && Sparse.wf 0 (s.tile i).elems) = true
        ∧ fine (s.clusterAddr 3 0x10 8) = true
        ∧ ∀ p ∈ sectorPieces 0x20044 8, s.lostHome (.dev (0x40044 + (p.1 - 0x20044))) p.2.1 = none)
    ∧ ∀ u : State, u.tlb = [⟨0, 0, page⟩, ⟨ownSite, 0, page⟩] → ∀ p ∈ sectorPieces 0x20044 8, ∃ x, u.xlate 0 0 p.1 .rd = .ok x
        ∧ x.home = .dev (0x40044 + (p.1 - 0x20044)) ∧ x.leaf = page :=
  ⟨by decide +kernel, fun u hu => mapped_page .rd (base := 0x20044) (by decide) u hu⟩

/-- The same, CPY: a load and a store of two rows of four FP32 columns of an eight-column tensor, within it. -/
theorem witness_runs_boxes :
    (∀ st ∈ [false, true], let op := running (.cpy st 0x20040 .fp32 0 7 1 32 0 0 4 2 0x100)
      let s := runs op (sees page)
      posted s op = true ∧ s.tlb = [⟨0, 0, page⟩, ⟨ownSite, 0, page⟩] ∧ (boxPage .fp32 page).isNone = true ∧ (7 + 1) * 32 / 8 ≤ 32
        ∧ (match s.clusterAddr 3 0x100 16, s.clusterAddr 3 0x110 16 with
          | .ok x, .ok y => x == (3, 0x100) && y == (3, 0x110)
          | _, _ => false) = true
        ∧ (∀ j ∈ [(0 : Nat), 1], boxSegment 0 7 1 0 (0 + (j : Int)) 4 = some (j, 0, 3)
          ∧ segmentBytes 0x20040 32 32 j 0 3 = (0x20040 + 32 * j, 16, 0)
          ∧ ∀ p ∈ sectorPieces (0x20040 + 32 * j) 16, s.lostHome (.dev (0x40040 + (p.1 - 0x20040))) p.2.1 = none))
    ∧ ∀ w, ∀ j ≤ 1, ∀ u : State, u.tlb = [⟨0, 0, page⟩, ⟨ownSite, 0, page⟩] → ∀ p ∈ sectorPieces (0x20040 + 32 * j) 16,
        ∃ x, u.xlate 0 0 p.1 w = .ok x ∧ x.home = .dev (0x40040 + (p.1 - 0x20040)) ∧ x.leaf = page :=
  ⟨by decide +kernel, fun w j hj u hu => mapped_page w (base := 0x20040) (by omega) u hu⟩

/-- The same: a copy whose source is not mapped. -/
theorem witness_runs_unmapped :
    let op := running (.cpyg 0x60000 0x20080 128)
    let s := runs op (sees page)
    posted s op = true ∧ fine (match s.xlate 0 0 0x60000 .rd with | .ok _ => .ok () | .error _ => .error (Trap.of 0 0)) = false
      ∧ s.copyNeeds op 0 = [] ∧ Sparse.wf Tenant.reset s.tenants = true ∧ s.blocks.all (fun e => e.2.specs == []) = true := by decide +kernel

/-- The same: a near-bank sum of four weights. -/
theorem witness_runs_near_bank :
    let op := running (.nbgemv 0x20040 3 0 64 0x10 0xFF0 0 .d8 0) 2
    let s := runs op (sees page)
    posted s op = true ∧ (3 + 1) * Fmt.d8.bits ≤ 512 ∧ (match s.xlate 0 0 0x20040 .rd with
        | .ok x => x.home == .dev 0x40040 && weightPage .d8 x.leaf == none
        | .error _ => false) = true
      ∧ s.lostHome (.dev 0x40040) (divUp ((3 + 1) * Fmt.d8.bits) 8) = none
      ∧ 0 < (block s).T ∧ ((block s).thread 0).exited = false
      ∧ (rowElems .d8 (Memory.read s.mem 0x40040 4) [] (groupOf page.geom) 0 0 4).isSome = true := by decide +kernel

/-- The same of a box's elements. -/
theorem witness_box_elements : 0 < 4 ∧ 32 * 4 ≤ 8 * 16 ∧ 31 < 32 := by decide

/-- MatrixPasses: the entry granted next among a blocked and an older one, a pass that is not the last, one that is, a pass whose
scale words R204 does not allow, and one of integers. -/
theorem witness_passes :
    (let s := (machine .ctl .exit []).updWheel 0 fun _ => [entry 100 mmaOf, entry 101 mmaOf, { entry 102 { mmaOf with tile := 2 } with aged := true }]
     (s.matNext 0).map (·.id) = some 102 ∧ Sparse.wf [] s.wheels = true)
    ∧ { State.reset with pkg := { Package.reset with gated := 1 } }.gatedDie (15 / 16) = true
    ∧ (∀ k ∈ [65, 64], let e := { entry 100 { mmaOf with k := k } with granted := true }
     let s := (machine .ctl .exit []).updWheel 0 fun _ => [e]
     (s.wheel 0).find? (·.granted) = some e ∧ (s.matPass e).any (fun r => decide (r.1.length ≤ 128 * e.params.n)) = true
       ∧ (s.block? e.block).isSome = true ∧ (s.grid? (block s).grid).any (fun g => g.dl == 0) = true
       ∧ (if k = 65 then e.nextPass + 1 < divUp k (chunkOf .d8) else divUp k (chunkOf .d8) ≤ e.nextPass + 1)
       ∧ e.params.bfmt ≠ .fp64 ∧ e.params.n ≤ 128 ∧ 0 < e.params.n ∧ Sparse.wf Tile.free s.tiles = true ∧ e.tid < (block s).T
       ∧ ((block s).thread e.tid).exited = false ∧ Sparse.wf 0 (s.tile 1).elems = true)
    ∧ (let e := { entry 100 { mmaOf with afmt := .fp4x, bfmt := .fp4x, geom := 1, saoff := 512, sboff := 768 } with granted := true }
     let s := ((machine .ctl .exit []).updWheel 0 fun _ => [e]).updBlock 3 fun k =>
       { k with scratch := Memory.write [] 512 (List.replicate 64 0xFF) }
     s.engine? e.id = none ∧ e.granted = true ∧ s.blocks.all (fun e => e.2.specs == []) = true ∧ s.matPass e = none ∧ Sparse.wf [] s.wheels = true
       ∧ (s.wheels.findSome? (fun w => (w.2.find? fun x => x.id == e.id).map fun x => (w.1, x))) = some (0, e))
    ∧ (let e := entry 100 { mmaOf with afmt := .int8, bfmt := .int8 }
     e.params.bfmt = .int8 ∧ 0 < e.params.n) := by decide +kernel
/-! ## Witnesses: clauses, bundles, results, completions -/

/-- A machine whose one block stands at 64 with nothing under way, and whose code at 64 is one clause of this header. -/
def standing (h : Word) (f : State → State := id) : State :=
  let s := machine .int .exit []
  let bytes := (h :: encode (.iadd 0 4 5 6)).flatMap fun w => natToBytes 4 w.toNat
  f (sees { page with base := 0, wr := false, ex := true } { s with issue := none, mem := Memory.write [] 0x40040 bytes })

/-- The header of a clause of one INT word that waits on flag 0. -/
def waiting0 : Word := ({ placedHeader .int 1 with wait := 1 } : Header).toWord

/-- The same with the reform bit. -/
def reforming : Word := ({ placedHeader .int 1 with reform := true } : Header).toWord

/-- ClausesBundlesAndResults: a bundle that fell to a clause with the reform bit is filed again. -/
theorem witness_reform :
    let s := standing reforming fun s => s.updCore 0 fun c => { c with bundles := c.bundles.map fun u => { u with fell := true } }
    let s₁ := s.settleBundle 0 4 none
    let u : Bundle := (s₁.bundle? 0 4).getD ⟨0, 0, 0, [], true, true, none⟩
    let ls := (block s₁).activeLanes u 64
    s.mayIssue 0 4 = true ∧ s₁.bundle? 0 4 = some u ∧ u.fell = true ∧ u.paused = none ∧ s₁.held (block s₁) 3 u ls = false
      ∧ (match s₁.fetchClause 3 64 with
        | .ok (s₂, hdr, _) => hdr == reforming && (Header.ofWord hdr).reform && ls.all (fun l =>
            !((block s₁).thread l.2).keep && ((block s₁).thread l.2).clpos == 0 && (s₂.replyError 3 l.2 (Header.ofWord hdr).wait).isNone)
        | .error _ => false) = true := by decide +kernel

/-- The same: a bundle whose lanes are ready, and one whose thread 2 waits on a flag at DL1. -/
theorem witness_clause : ∀ late ∈ [false, true],
    let s := standing waiting0 fun s => if late then
        (withGrid (fun g => { g with dl := 1 }) (s.updCore 0 fun c => { c with rotation := [4] })).updThread 3 2 fun th => th.setFlag 0 false
      else s
    let s₁ := s.settleBundle 0 4 none
    let u : Bundle := (s₁.bundle? 0 4).getD ⟨0, 0, 0, [], true, true, none⟩
    let ls := (block s₁).activeLanes u 64
    s.mayIssue 0 4 = true ∧ s₁.bundle? 0 4 = some u ∧ (s.bundle? 0 4).any (fun u => u.paused.isNone) = true ∧ u.block = 3 ∧ s₁.block? 3 = some (block s₁) ∧ (block s₁).bundleKey u = some 64
      ∧ ls = [(0, 0), (1, 1), (2, 2), (3, 3)] ∧ s₁.held (block s₁) 3 u ls = false
      ∧ (match s₁.fetchClause 3 64 with
        | .ok (s₂, hdr, _) => hdr == waiting0 && ls.all (fun l => (s₂.replyError 3 l.2 (Header.ofWord hdr).wait).isNone) && !(Header.ofWord hdr).reform
            && s₂.dl0 3 == !late && s₂.unreadyPred 3 (Header.ofWord hdr) ls == [] && ls.all (fun l => ((block s₁).thread l.2).flag 0 || late)
        | .error _ => false) = true
      ∧ ((block s₁).thread 2).flag 0 = !late := by decide +kernel

/-- The same of a clause that stopped at its word 1 for want of a slot. -/
theorem witness_paused :
    let j : Issue := ⟨0, 4, 3, 64, waiting0, encode (.iadd 0 4 5 6), 1, [lane0], 0, false⟩
    let s := standing waiting0 fun s => (withGrid (fun g => { g with dl := 1 }) (s.updCore 0 fun c => { c with rotation := [4] })).updBundle 0 4
      fun u => { u with paused := some j }
    s.mayIssue 0 4 = true ∧ (s.bundle? 0 4).any (fun u => u.paused == some j) = true ∧ Sparse.wf Core.reset s.cores = true := by decide +kernel

/-- A block of 36 threads, of which one quad stands in bin 0, or eight do; the core issues nothing else. -/
def binned (n : Nat) : State :=
  let s := machine .int .exit []
  let s := { s with issue := none, cycle := 100 }
  let s := s.updBlock 3 fun k => { k with
    threads := List.replicate 36 { Thread.start with pc := 64 }, quads := (List.range n).map fun q => (q, ⟨.bin, 0, none⟩) }
  s.updCore 0 fun c => { c with bundles := [], bins := [⟨0, .pc 3 0 64, (List.range n).map fun q => ⟨3, q, 0, 64, 90⟩⟩] }

theorem witness_draw : ∀ n ∈ [1, 9], let s := binned n
    s.nextDraw 0 = some 0 ∧ s.issue = none ∧ ((s.core 0).bins.find? (fun n => n.no == 0)).any (fun b => (s.drawable b).length == n) = true
      ∧ Sparse.wf Core.reset s.cores = true := by decide +kernel

/-- A result of thread 0 for x4 and p0 under flag 1. -/
def result (ready : Bool) (e : Option ReplyErr) : PendOp := ⟨9, 3, 0, 0x40, 1, [(4, 7)], [(0, true)], 1, ready, false, (0, 0, 0), e, 1, [], [(6, 9)], none⟩

theorem witness_result :
    (let s := { machine .int .exit [] with pending := [result true none] }
     s.pending.find? (fun p => p.id == 9) = some (result true none) ∧ (s.block? 3).isSome = true ∧ 0 < (block s).T
       ∧ ((block s).thread 0).exited = false ∧ s.writeDue (result true none) = true)
    ∧ (let s := { withGrid (fun g => { g with dl := 1 }) (machine .int .exit []) with pending := [result true none] }
       s.pending.find? (fun p => p.id == 9) = some (result true none) ∧ s.writeDue (result true none) = false)
    ∧ (let s := { machine .int .exit [] with pending := [result false none] }
       s.pending.find? (fun p => p.id == 9) = some (result false none) ∧ (result false none).ready = false)
    ∧ (result true (some ⟨1, 2, 0, 0⟩)).error ≠ none := by decide +kernel

/-- DrainsCompletionsAndEviction: a BOLT bin of one record, 64 cycles old, with a free quad. -/
theorem witness_drain :
    let s := machine .int .exit []
    let s := { s with issue := none, cycle := 64 }
    let s := s.updBlock 3 fun k => { k with threads := List.replicate 5 Thread.idle ++ List.replicate 3 { Thread.start with pc := 64 } }
    let s := s.updCore 0 fun c => { c with bins := [⟨0, .bolt 3 0x80 5, []⟩], bolts := [⟨3, 4, 0x80, 5, List.replicate 8 1, 1, 0⟩] }
    (s.core 0).boltKey 0 = some (3, 0x80, 5) ∧ s.boltDue 0 (3, 0x80, 5) = true ∧ s.issue = none ∧ (s.block? 3).isSome = true
      ∧ s.dl0 3 = true ∧ s.freeQuads 3 (block s) = [0] := by decide +kernel

/-- The same of a block with every thread exited, and of a task's grid whose block has completed. -/
theorem witness_complete :
    (let s := machine .int .exit []
     let s := { s with issue := none }
     let s := s.updBlock 3 fun k => { k with threads := List.replicate 4 Thread.idle }
     s.block? 3 = some (block s) ∧ (s.grid? (block s).grid).any (fun g => !g.ended) = true ∧ s.blockDone 3 = true
       ∧ s.membersOf (block s) 3 = [3] ∧ Sparse.wf Core.reset s.cores = true ∧ (s.core 0).reds = []) := by decide +kernel

/-- A machine whose tenant holds a handle for a task, of which the grid 50 is the task, all its blocks complete. -/
def tasked (f : Grid → Grid := id) : State :=
  let s := holding .ctl (.hdrop 6) .unplaced
  let h := (s.thread 3 0).pair 6
  { s with grids := Sparse.put s.grids 50 (f { placedGrid 50 0 with
      launch := none, task := some ⟨h, 0, s.fabric.devid, 0, [], 0, 1, some (List.replicate 8 3), false, 0, [], none⟩
      nextBlock := 1, total := 1, finished := 1 }) }

theorem witness_task :
    let s := tasked
    let h := (s.thread 3 0).pair 6
    let e := s.sluice (hTenant h) (hSlot h)
    (s.grid? 50).any (fun g => s.taskDone 50 g && g.task.any fun x => !x.failed && x.handle == h && !g.ended
        && (s.endRelease 50 (s.taskScope g.tenant) g).2) = true
      ∧ hHome h = s.fabric.devid ∧ s.gone h = false ∧ e.st ≠ .ready ∧ e.st ≠ .broken ∧ e.ivos = [] ∧ e.dropped = false
      ∧ s.fabric.arrived = [] ∧ Sparse.wf Tenant.reset s.tenants = true ∧ Sparse.wf Sluice.reset (s.tenant (hTenant h)).sluice = true := by
  decide +kernel

/-- The same of a task whose release waits for a store to another device, and of one that has failed. -/
theorem witness_task_waits :
    (let s := tasked
     let s := { s with
       tenants := (s.updTenant 0 fun t => { t with domset := setBit t.domset 7 true }).tenants
       fabric := { s.fabric with devid := 1, remotes := [⟨5, 0, 7, some 0, 0x80, .store 3 0 64⟩] } }
     (s.grid? 50).any (fun g => s.taskDone 50 g && !g.ended && !(s.endRelease 50 (s.taskScope g.tenant) g).2) = true)
    ∧ (let s := tasked fun g => { g with task := g.task.map fun x => { x with failed := true } }
       (s.grid? 50).any (fun g => s.taskDone 50 g && g.ended && g.task.map (·.failed) == some true) = true ∧ s.fabric.arrived = []) := by
  decide +kernel

/-- The same of a clean and a dirty sector, and of a dirty one of another device. -/
theorem witness_eviction :
    (∀ d ∈ [0, 5], let s := machine .int .exit []
      let x : CacheSector := ⟨0, 0, 5, .dev 0x40040, List.replicate 64 1, BitVec.ofNat 64 d, BitVec.allOnes 64, none⟩
      let s := s.updCore 0 fun c => { c with cache := [x] }
      (s.core 0).cache[0]? = some x ∧ Sparse.wf Core.reset s.cores = true ∧ Memory.wf s.mem = true ∧ x.bytes.length = 64
        ∧ (x.dirty = 0 ↔ d = 0) ∧ s.lostHome (.dev 0x40040) 64 = none)
    ∧ (let s := seesRemote (machine .int .exit [])
       let x : CacheSector := ⟨0, 0, 0xE0000000001, .remote 7 0x40, List.replicate 64 1, 0x30, BitVec.allOnes 64, none⟩
       let s := s.updCore 0 fun c => { c with cache := [x] }
       (s.core 0).cache[0]? = some x ∧ Sparse.wf Core.reset s.cores = true ∧ Memory.wf s.mem = true ∧ x.dirty ≠ 0 ∧ x.runs = [(4, [1, 1])]
         ∧ ((s.dropProxy 0 (x.sector * 64 + 4) 2).request 0 0x03 7 0 0x44 (BitVec.ofNat 64 (2 * 2 ^ 16)) 0 (flitsOf [1, 1])
             (.store 0 0 0)).2 = true) := by decide +kernel
/-! ## Witnesses: the package and the host -/

/-- BringUpAndReset: a unit that joins and the last that is missing, one that is up, links and ports, a device in reset, a
switch. -/
theorem witness_bring_up :
    (let s := State.reset
     let u := HwUnit.die 7
     s.pkg.up u = false ∧ u ∉ s.pkg.failed ∧ u ∉ s.pkg.lost ∧ s.pkg.up (.die 0) = true ∧ s.pkg.service ≠ 2 ∧ s.pkg.fullMap = false)
    ∧ (let s := { State.reset with pkg := { State.reset.pkg with dies := 0x7F, hbm := 0xFFFF, edges := 3, hlinks := 0, fsRequest := true } }
       let u := HwUnit.die 7
       s.pkg.up u = false ∧ u ∉ s.pkg.failed ∧ u ∉ s.pkg.lost ∧ (s.pkg.mark u true).dies = BitVec.allOnes 8
         ∧ ∀ l ∈ [0, 1], onBit s.pkg.hlinks l = false ∧ 18 + l ∉ s.pkg.trainFail ∧ onBit s.pkg.edges l = true)
    ∧ (let s := { State.reset with fabric := { State.reset.fabric with devid := 1 } }
       let peer : PeerInfo := ⟨2, 1, 1, 585⟩
       (s.port 0).trained = false ∧ 0 ∉ s.pkg.trainFail ∧ onBit s.pkg.edges 0 = true ∧ s.fabric.devid ≠ peer.devid ∧ s.fabric.devid ≠ 0x3FF
         ∧ peer.devid ≠ 0x3FF ∧ peer.roundTripNs ≤ 585 ∧ ¬ (586 ≤ 585))
    ∧ (let s := { State.reset with pkg := { State.reset.pkg with inReset := true } }
       s.pkg.inReset = true)
    ∧ (let s := { State.reset with pkg := { State.reset.pkg with service := 1, fsRequest := true } }
       s.pkg.fsRequest = true ∧ s.pkg.service = 1 ∧ s.pkg.fullMap = false ∧ s.grids = [])
    ∧ (let s := { State.reset with pkg := { State.reset.pkg with service := 2 } }
       s.pkg.service = 2) := by decide +kernel

/-- PowerLossAndBoardManagement: the cap met, missed and unmet, a hot die, the loss of each unit, and the management port. -/
theorem witness_power :
    (let s := { State.reset with pkg := { State.reset.pkg with powerCap := 1500, fullMap := true } }
     1500 ≤ s.pkg.powerCap.toNat ∧ s.pkg.powerCap.toNat < 1501 ∧ (0 < 8 ∧ 700 < Sparse.get 1400 s.pkg.clockMHz 0))
    ∧ (let s := State.reset
       (∀ d, d < 8 → Sparse.get 700 s.pkg.clockMHz d ≤ 700) ∧ s.pkg.capUnmet = false ∧ (9 : BitVec 4).toNat < 10 ∧ onBit s.pkg.gated 9 = false)
    ∧ (let s := { State.reset with pkg := { State.reset.pkg with gated := 0x200, throttled := 0x200 } }
       onBit s.pkg.gated 9 = true ∧ onBit s.pkg.throttled 9 = true)
    ∧ (let s := machine .int .exit []
       onBit s.pkg.hbm 1 = true ∧ onBit s.pkg.dies 0 = true ∧ (s.blocks.map (·.1)).Nodup ∧ (s.block? 3).any (fun k => k.core / 64 == 0) = true
         ∧ onBit s.pkg.edges 0 = true ∧ onBit s.pkg.hlinks 0 = true ∧ s.fabric.hostUnacked = [] ∧ s.pending = [] ∧ HwUnit.edge 0 ∉ s.pkg.lost)
    ∧ (let s := { State.reset with fabric := { State.reset.fabric with ports := [(17, { Port.none with trained := true })] } }
       (s.port 17).trained = true ∧ (s.port 17).unacked = [] ∧ (s.port 17).waiting = [])
    ∧ (List.replicate 240 (0 : Byte)).length ≤ 240 ∧ 240 < (List.replicate 241 (0 : Byte)).length
    ∧ (1500 ≤ (4000 : BitVec 16).toNat ∧ (4000 : BitVec 16).toNat ≤ 4000) := by decide +kernel

/-- Queue 0 of tenant 0, enabled, with a ring of 16 records at 0x20000, of which the first is to be read. -/
def queued (f : Queue → Queue := id) (s : State := State.reset) : State :=
  (s.updTenant 0 fun x => { x with en := true }).updQueue 0 0 fun q => f { q with en := true, log2size := 4, qbase := 0x20000, qtail := 1 }

/-- HostRegisterWrites: ranges clear of the reserved region and not, a tenant that saves and one that does not, one that is busy
and one that is not, a queue enabled and disabled, idle and not. -/
theorem witness_registers :
    (let s := State.reset
     let clear := fun (a m : Nat) => ¬ (0 < m ∧ a < s.hbmBytes ∧ s.reservedBase < a + m)
     clear 0 (2 ^ 13) ∧ ¬ clear (s.reservedBase / 2 ^ 16 * 2 ^ 16) (2 ^ 20) ∧ ¬ clear (s.reservedBase) (2 ^ 13) ∧ clear (s.reservedBase - 2 ^ 13) (2 ^ 13) ∧ s.savingTenant 63 = false
       ∧ clear (bitsAt (2 ^ 20) 16 24 * 2 ^ 16) 0 ∧ s.tenantBusy 63 = false ∧ (s.queue 63 15).en = false ∧ s.queueIdle 63 15 = true
       ∧ bitsAt 12 0 4 ≤ 12)
    ∧ (let s := machine .int .exit []
       s.tenantBusy 0 = true ∧ s.queueIdle 0 0 = false)
    ∧ (255 < 256 ∧ 15 < 16 ∧ 1023 < 1024)
    ∧ ((9 : Dword).toNat % 8 ≠ 0 ∧ 0x1F8 % 8 = 0 ∧ (State.reset.tenant 63).en = false ∧ ((queued).tenant 0).en = true
       ∧ Sparse.wf Tenant.reset (queued).tenants = true) := by decide +kernel

/-- TenantsAperturesAndTranslation: a page that the host may reach, through an access of one byte and of a whole sector; TLBINV
while one is under way and while none is. -/
theorem witness_apertures :
    (let s := sees { page with domain := 2 } State.reset
     (∀ w ∈ [Want.rd, .wr], (match s.xlate ownSite 0 0x20040 w with
         | .ok x => x.leaf.kind == .local && x.leaf.domain == 2 && s.lostHome x.home 64 == none && s.lostHome x.home 1 == none
         | .error _ => false) = true)
       ∧ 0x20040 % 64 + 64 ≤ 64 ∧ s.cores = [] ∧ Sparse.wf Core.reset s.cores = true ∧ (s.tenant 0).tlbBusy = false ∧ Sparse.wf Tenant.reset s.tenants = true)
    ∧ (let s := State.reset.updTenant 0 fun x => { x with tlbBusy := true }
       (s.tenant 0).tlbBusy = true)
    ∧ (∀ s ∈ [State.reset, sees page State.reset], ∀ w ∈ [Want.rd, .wr], (match s.xlate ownSite 0 0x20040 w with
        | .ok x => x.leaf.kind != .local || x.leaf.domain != 2
        | .error _ => true) = true) := by decide +kernel

/-! ## Witnesses: queues and launches -/

/-- The words of a record: a kernel at 0x20080, a grid of one block. -/
def recordWords : List Dword := [0x20080, 0x0001000100000001, 0, 0x20000] ++ List.replicate 12 0

/-- A header of a kernel of one role of four threads. -/
def headerWords : List Word := [0x4B59544F, 0x00010001, 64, 0, 0x00010004, 0, 0, 0, 0x08004000] ++ List.replicate 7 0

/-- Memory with the record and the header. -/
def ring (s : State) : State := sees page { s with
  mem := Memory.write (Memory.write [] 0x40000 (recordWords.flatMap fun d => natToBytes 8 d.toNat)) 0x40080
    (headerWords.flatMap fun w => natToBytes 4 w.toNat) }

/-- QueueControlAndRecords. -/
theorem witness_queue :
    (let s := State.reset
     let n := 0x400
     4 ≤ bitsAt n 8 5 ∧ bitsAt n 8 5 ≤ 16 ∧ bitsAt n 6 2 ≠ 3 ∧ bitsAt n 0 1 = 0 ∧ bitAt (n + 1) 0 = true ∧ bitsAt (n + 1) 6 2 ≠ 1
       ∧ (s.queue 0 0).en = false ∧ s.queueIdle 0 0 = true ∧ Sparse.wf Tenant.reset s.tenants = true
       ∧ Sparse.wf Queue.reset (s.tenant 0).queues = true ∧ s.grids = [])
    ∧ (let s := queued
       let y := s.queue 0 0
       (s.queue 0 0).en = true ∧ (s.tenant 0).en = true ∧ ((2 : Word) - y.qhead).toNat ≤ 2 ^ y.log2size.toNat
         ∧ ((2 : Word) - y.qtail).toNat ≤ ((2 : Word) - y.qhead).toNat ∧ s.switching = false
         ∧ ¬ (((18 : Word) - y.qhead).toNat ≤ 2 ^ y.log2size.toNat))
    ∧ (State.reset.tenant 0).en = false
    ∧ (let s := machine .int .exit []
       (s.queue 0 0).en = false ∧ s.queueIdle 0 0 = false ∧ (s.queue 0 0).trace ≠ 1 ∧ Sparse.wf Tenant.reset s.tenants = true
         ∧ Sparse.wf Queue.reset (s.tenant 0).queues = true) := by decide +kernel

/-- A state whose queues see a page here and device 7, with a ring, a buffer or a header there. -/
def farRing (f : Queue → Queue) : State :=
  let s := seesRemote (ring (queued f))
  { s with tlb := ⟨ownSite, 0, page⟩ :: s.tlb }

/-- An address of device 7. -/
def farVa : Nat := 7 * 2 ^ 43 + 0x80

/-- What a read of the device's own gives: bytes, a fault, or that they are awaited. -/
def readIs {α : Type} (w : Nat) (r : Except (Nat × Err) α) : Bool :=
  match r with
  | .ok _ => w == 0
  | .error (_, e) => if e == notYet then w == 1 else w == 2

/-- What a write of the device's own gives: written here, sent, or a fault. -/
def writeIs (w : Nat) (r : Except (Nat × Err) (State × Bool)) : Bool :=
  match r with
  | .ok (_, far) => if far then w == 1 else w == 0
  | .error _ => w == 2

/-- The read of a record that is sound, of one that cannot be read, of one that is malformed; of one on another device, and of
one whose header lies there. -/
theorem witness_record :
    (∀ s ∈ [queued, ring (queued id)], (s.tenant 0).en = true ∧ (s.queue 0 0).en = true ∧ onBit (s.tenant 0).qsusp 0 = false ∧ s.switching = false
       ∧ s.e0Lost = false ∧ (s.queue 0 0).stop = false ∧ (s.queue 0 0).qhead ≠ (s.queue 0 0).qtail)
    ∧ readIs 2 (queued.readRoot 0 0x20000 128) = true
    ∧ (let s := farRing fun q => { q with qbase := BitVec.ofNat 53 farVa }
       s.switching = false ∧ s.e0Lost = false ∧ readIs 1 (s.readRoot 0 farVa 128) = true)
    ∧ (let s := farRing id
       (match s.validate 0 (recordWords.set 0 (BitVec.ofNat 64 farVa)) with | .error (6, some (_, e)) => e == notYet | _ => false) = true
         ∧ (match s.validate 0 (recordWords.set 0 0x100000) with | .error (6, some (_, e)) => e != notYet | _ => false) = true)
    ∧ (let s := ring queued
       (match s.readRoot 0 0x20000 128 with
         | .ok bs => ((List.range 16).map fun j => (BitVec.ofNat 64 (bytesToNat ((bs.drop (8 * j)).take 8)) : Dword)) == recordWords
         | .error _ => false) = true
         ∧ (match s.validate 0 recordWords with | .ok k => k.threads == 4 && k.addr == 0x20080 | .error _ => false) = true)
    ∧ recordBad (recordWords.set 14 1) = true ∧ (recordWords.set 14 1).length = 16 := by decide +kernel

/-- A record read and validated. -/
def record (seq : Nat) (words : List Dword) : Record := ⟨0x20000, seq, words, placedKernel⟩

/-- LaunchesAndFaultQueue: a record that can start, one that waits for a timeline, an end of a launch, the fault queue with
room, an open record, and a queue with one launch and with none. -/
theorem witness_launch :
    (let s := queued fun q => { q with waiting := [record 0 recordWords] }
     (s.startable 0 0).any (fun r => r.words == recordWords) = true ∧ (s.queue 0 0).trace ≠ 2 ∧ (s.queue 0 0).dl ≠ 1)
    -- a trace that is recorded, here and on another device
    ∧ (∀ e ∈ [(0, 0x20200), (1, farVa), (2, 0x100000)],
        let s := farRing fun q => { q with waiting := [record 0 recordWords], trace := 1, dl := 1, traceAddr := BitVec.ofNat 53 e.2 }
        (s.startable 0 0).isSome = true ∧ (s.queue 0 0).traceFailed = false ∧ readIs e.1 (s.traceRoom 0 0) = true
          ∧ readWaits (s.traceRoom 0 0) = (e.1 == 1))
    -- one that is replayed: it fits, it is malformed, it is awaited, it cannot be read
    ∧ (let s := fun (a : Nat) (ws : List Word) =>
         let s := farRing fun q => { q with waiting := [record 0 recordWords], trace := 2, dl := 1, traceAddr := BitVec.ofNat 53 a }
         { s with mem := Memory.write s.mem 0x40200 (ws.flatMap fun (w : Word) => natToBytes 4 w.toNat) }
       let header : List Word := [0x4459544F, 1, 0, 1, 1, 1] ++ List.replicate 10 0
       (∀ j ∈ [0, 5], let s := s 0x20200 (header ++ [BitVec.ofNat 32 j, 0])
          (match s.traceEntries 0 0 0 with
            | .ok (some es) => es == [(j, 0)] && s.traceFits 0 1 1 es == (j == 0)
            | _ => false) = true)
         ∧ (match (s 0x20200 []).traceEntries 0 0 0 with | .ok none => true | _ => false) = true
         ∧ readIs 1 ((s farVa []).traceEntries 0 0 0) = true ∧ readIs 2 ((s 0x100000 []).traceEntries 0 0 0) = true)
    ∧ (let s := queued fun q => { q with waiting := [record 0 ((recordWords.set 4 1).set 5 0x80)] }
       s.startable 0 0 = none)
    ∧ (let s := machine .int .exit []
       let s := { s with blocks := [], issue := none }
       (s.grid? 1).any (fun g => s.launchIdle 1 g && g.launch.isSome && (s.endRelease 1 5 g).2) = true)
    ∧ (let info : LaunchInfo := recordInfo 0x20000 recordWords
       let w := fun (a : Nat) => (farRing id).writeRoot 0 (a + 0x78) (natToBytes 8 0x100) (.status 0 0 info)
       writeIs 0 (w 0x20000) = true ∧ writeIs 1 (w farVa) = true ∧ writeIs 2 (w 0x100000) = true)
    ∧ (let s := (ring queued).updTenant 0 fun x => { x with fq := { x.fq with base := 0x20000, en := true, log2 := 4 } }
       let f := (s.tenant 0).fq
       f.en = true ∧ (f.tail - f.head).toNat < 2 ^ f.log2.toNat ∧ (∀ x ∈ s.fabric.remotes, ¬ (x.tenant = 0 ∧ x.what = .record))
         ∧ (let r := s.trapRecord 3 0 0x40 (Trap.of cTRAP 1)
            writeIs 0 (s.writeRoot 0 0x20000 r.bytes .record) = true ∧ writeIs 2 (queued.writeRoot 0 0x20000 r.bytes .record) = true
              ∧ writeIs 1 ((farRing id).writeRoot 0 farVa r.bytes .record) = true))
    -- records held: none, one that stays held, one that goes to another device, one that is written
    ∧ (∀ e ∈ [(0, 0x100000), (1, farVa), (2, 0x20000)],
        let s := (farRing id).updTenant 0 fun x => { x with fq := { x.fq with base := BitVec.ofNat 53 e.2, en := true, log2 := 4 } }
        let r := s.trapRecord 3 0 0x40 (Trap.of cTRAP 1)
        let s := s.updTenant 0 fun x => { x with fq := { x.fq with held := [(true, r)] } }
        (s.tenant 0).fq.held = [(true, r)] ∧ (match s.writeRecord 0 { r with count := s.recordCount 0 r } with
          | .kept => e.1 == 0
          | .sent _ => e.1 == 1
          | .written _ => e.1 == 2) = true)
    ∧ (State.reset.tenant 0).fq.held = []
    -- the interrupt of a record of a thread in a speculative view, with room in its outbox and without, and of another
    ∧ (∀ n ∈ [0, 256], let s := machine .int .exit []
       let w : SpecView := ⟨9, ⟨0x20000, 1, 1, .fp32, 0, false, 16, 0, 0, 0⟩, [], .none, ⟨[], [], [], [], [], 0⟩, List.replicate n (.interrupt 0), false, []⟩
       let s := s.setBlock 3 { block s with specs := [w] }
       (s.irqHolder (s.trapRecord 3 0 0x40 (Trap.of cTRAP 1))).any (fun e => e.1 == 3 && e.2.specs == [w]) = true
         ∧ (decide (w.outbox.length < 256)) = (n == 0))
    ∧ (let s := machine .int .exit []
       s.irqHolder (s.trapRecord 3 0 0x40 (Trap.of cTRAP 1)) = none)
    ∧ (let s := openTrap (machine .int .exit [])
       ((s.tenant 0).fq.opened.find? (fun o => o.record.seq == 7)).any (fun o => o.record.code != BitVec.ofNat 8 cVIEWPOOL) = true
         ∧ (s.blocks.map (·.1)).Nodup ∧ Sparse.wf Tenant.reset s.tenants = true)
    ∧ (let s := machine .int .exit []
       s.launchesOf 0 0 = s.grids ∧ s.grids.length = 1 ∧ (s.tenant 0).sluice = [] ∧ s.foreign = [] ∧ s.launchesOf 0 1 = []) := by
  decide +kernel
/-! ## Witnesses: views, speculation, timeouts -/

/-- A granule's slot of child j, whose first byte it has set. -/
def slot (j : Nat) (b : Byte) : Slot := ⟨0, j, 0x400, 0x40000, .bytes, 0, List.replicate 128 0, b :: List.replicate 127 0⟩

/-- MergeOfGranules: bytes that no child, one child and two children changed, of a page without and with a reduction, and what
ends a join at DL0 and at DL1. -/
theorem witness_merge :
    (List.replicate 128 (0 : Byte)).length = 128
    ∧ (∀ x ∈ [slot 1 5, slot 2 6], x.working.length = 128 ∧ x.twin.length = 128 ∧ x.redop = 0)
    ∧ ((mergeGranule 0x400 1 [slot 1 5, slot 2 6] (List.replicate 128 0)).conflicts.map (·.1)) = [0x20000]
    ∧ (let x := { slot 1 5 with redop := 1, fmt := .int32 }
       x.redop = 1 ∧ x.fmt = .int32)
    ∧ (let s := { State.reset with slots := [slot 1 5, slot 2 6], mem := Memory.write [] 0x40000 [1] }
       let r := s.runReport 0 [] 1 2
       r.outLow = some (0x20000, 0) ∧ r.outs = 1 ∧ r.confLow = some (0x20000, 0, 1) ∧ r.lost = none
         ∧ (joinReports r r).outLow = some (0x20000, 0) ∧ (mergeTrap 1 1 r).map (·.code) = some cOUTSIDE
         ∧ (mergeTrap 0 1 r).map (·.code) = some cCONFLICT ∧ mergeTrap 0 1 { r with confLow := none } = none
         ∧ (mergeTrap 0 1 { r with lost := some 8 }).map (·.cause) = some 8) := by decide +kernel

/-- A fork of three children of block 3, all dispatched and complete, whose thread waits at its JOIN; child 1 has one slot. -/
def joining (f : State → State := id) : State :=
  let s := forked .join
  let s := s.updBlock 3 fun k => { k with
    fork := k.fork.map fun f => { f with next := 3, done := 3, checked := true }
    threads := k.threads.map fun th => { th with status := .waiting .join } }
  f { s with issue := none, slots := [slot ((block s).fork.elim 0 fun f => f.vtag0 + 1) 5] }

/-- Two children have changed one byte, at this determinism level. -/
def clashes (dl : Nat) (s : State) : State :=
  let s := withGrid (fun g => { g with dl := BitVec.ofNat 2 dl }) s
  { s with slots := s.slots ++ s.slots.map fun x => { x with vtag := x.vtag + 1, working := 6 :: List.replicate 127 0 } }

/-- The views of the fork hold slots on device 7 too. -/
def elsewhere (s : State) : State :=
  { s with views := [((block s).fork.elim 0 fun f => f.vtag0 + 1, ⟨(block s).fork.elim 0 fun f => f.vtag0 + 1, 0, 0, 1, 3, 1, false, [7]⟩)] }

/-- A report of device 7. -/
def fromAway (lost : Option Nat) : FarReport := ⟨7, lost, 0, none, 0, none, 0, [], []⟩

/-- JoinsAndDrops: the completion of a child. -/
theorem witness_child_done :
    let s := joining
    let s := { s with blocks := Sparse.put s.blocks 20 { placedBlock 1 2 4 20 0 with
      parent := some 3, vtag := 1, quads := [], threads := List.replicate 4 Thread.idle } }
    (s.block? 20).any (fun k => k.parent == some 3 && k.state == .running) = true ∧ (s.grid? 1).any (fun g => !g.ended && g.effects.isEmpty && g.closing.isNone) = true
      ∧ s.childDone 20 = true ∧ (s.block? 3).any (fun k => k.fork.isSome) = true := by decide +kernel

/-- Every thread of the machine's grid has stopped, at DL1. -/
def halted (s : State) : State :=
  withGrid (fun g => { g with dl := 1 }) (s.updBlock 3 fun k => { k with
    threads := k.threads.zipIdx.map fun e => if e.2 = 0 then e.1 else { e.1 with status := .quota } })

/-- The same: a check that passes and a join that applies, one that conflicts at DL0 and at DL1's boundary, one that waits for
that boundary, views that hold slots on another device, which is asked, has answered, and has lost a slot. -/
theorem witness_joins :
    (let s := joining
     s.joinReady 3 = true ∧ (block s).fork.any (fun f => (s.joinFault (block s) { f with reports := [] }).isNone && f.checked
         && decide ((block s).vtag < f.vtag0) && s.farOf f.vtag0 f.n == []
         && (match s.mergeViews 0 [] f.vtag0 f.n with | [m] => m.slots.length == 1 && m.content.length == 128 | _ => false)) = true
       ∧ (block s).state = .running ∧ (block s).vtag = 0 ∧ (s.core (block s).core).cache = [] ∧ Memory.wf s.mem = true)
    ∧ (let s := withGrid (fun g => { g with dl := 1 }) (joining fun s => s.updThread 3 1 fun th => { th with status := .running })
       s.joinReady 3 = true ∧ (s.gridOf 3).any (fun g => g.dl == 1 && !s.turnStopped 1 g) = true)
    ∧ (∀ dl ∈ [0, 1], let s := joining (clashes dl)
       s.joinReady 3 = true ∧ (s.gridOf 3).any (fun g => if dl = 0 then g.dl == 0 else s.turnStopped 1 g) = true ∧ (block s).fork.any (fun f => (s.joinFault (block s) { f with reports := [] }).isSome && s.farOf f.vtag0 f.n == []) = true)
    ∧ (let s := elsewhere joining
       s.joinReady 3 = true ∧ (block s).fork.any (fun f => s.farOf f.vtag0 f.n == [7] && !f.asked) = true)
    ∧ (∀ lost ∈ [none, some 8], let s := elsewhere (joining fun s => s.updBlock 3 fun k => { k with fork := k.fork.map fun f => { f with asked := true } })
       s.joinReady 3 = true ∧ covers [fromAway lost] [7] = true ∧ covers [] [7] = false ∧ (block s).fork.any (fun f => f.asked
         && (s.joinFault (block s) { f with reports := [fromAway lost] }).isSome == lost.isSome) = true) := by decide +kernel

/-- An open view of block 3 over one FP32 element at 0x20000. -/
def view1 (v : Verdict) : SpecView :=
  ⟨1, ⟨0x20000, 1, 1, .fp32, 0, false, 16, 0, 0, 0⟩, [0, 0, 0, 0], v, ⟨List.replicate 4 { Thread.start with
    status := .waiting (.spec (List.replicate 8 0)), after := some (0x80, 2) }, [], [], [], [], 0⟩, [], false, []⟩

/-- Block 3 in that view. -/
def speculating (v : Verdict) (f : State → State := id) : State :=
  let s := machine .int .exit []
  let s := s.updBlock 3 fun k => { k with
    specs := [view1 v], vtag := 1, threads := k.threads.map fun th => { th with status := .waiting .specend, after := some (64, 2) } }
  let s := s.updTenant 0 fun t => { t with mpshare := 1 }
  f (sees page { s with issue := none, views := [(1, ⟨1, 0, 0, 1, 3, 0, true, []⟩)] })

/-- JoinsAndDrops: a run of another device, drops that have drained, and tasks of another device's views that end here or go on. -/
theorem witness_drops :
    (let r : FarFork := ⟨0, 7 * 2 ^ 16 + 1, 2, [7 * 2 ^ 16], true⟩
     ¬ (r.vtag0 ≤ r.parents.headD 0 ∧ r.parents.headD 0 < r.vtag0 + r.n))
    ∧ (let s := joining fun s => s.updBlock 3 fun k => { k with fork := k.fork.map fun f => { f with dropping := true } }
       (block s).fork.any (fun f => f.dropping && s.dropDrained 3 f [] && decide (0 < f.vtag0)) = true ∧ (block s).failed = none)
    ∧ (∀ busy ∈ [false, true],
       let s := speculating .none fun s => { s with fabric := { s.fabric with drops := [(7, 0, [1])] }, engines := if busy then [operation (.cpyg 0 0 0) 1 none] else [] }
       (7, 0, [1]) ∈ s.fabric.drops ∧ (s.blocks.all fun e => !s.viewWithin (fun v => [1].contains v) (nestFuel + 1) e.2.vtag || !s.busy e.1) = !busy
         ∧ s.farWithin (fun v => [1].contains v) = []) := by decide +kernel

/-- SpeculationSteps. -/
theorem witness_spec_steps :
    (let s := speculating .none
     (block s).specs = [view1 .none] ∧ (view1 .none).verdict = .none ∧ (view1 .none).outbox = [] ∧ s.specDone 3 (view1 .none).record = true ∧ (Sparse.find s.views 1).isSome = true ∧ (block s).fork = none
       ∧ s.grids.all (fun e => e.2.task.isNone) = true ∧ (s.gridOf 3).any (fun g => g.dl == 0 && s.slotRoom 0 (s.versionNeed ((view1 .none).record.key 0 g.gid) (view1 .none).record)) = true
         ∧ (block s).state = .running ∧ s.tileWaits 3 = false
         ∧ (∀ p ∈ (view1 .none).record.pieces, (match s.xlate (block s).core (block s).tenant p.1 .rd with
           | .ok x => (match x.home with | .remote .. => false | _ => true)
           | .error _ => true) = true))
    ∧ (let s := speculating .pass
       (block s).state = .running ∧ (block s).specendArrived = true ∧ s.busy 3 = false ∧ s.pending.all (fun p => p.block != 3) = true
         ∧ (Sparse.find s.views 1).any (fun p => p.parent == 0) = true ∧ mergeTrap 0 1 (s.runReport 0 (s.viewChain nestFuel 0) 1 1) = none
         ∧ s.farOf 1 1 = [] ∧ (view1 .pass).reports = [])
    ∧ (let s := speculating .fail
       (s.kernelOf 3).isSome = true ∧ s.dl0 3 = true ∧ (block s).state = .running ∧ (Sparse.find s.views 1).isSome = true ∧ (block s).failed = some (view1 .fail, []) ∧ s.squashDrained 3 (view1 .fail) [] = true
         ∧ Memory.wf (view1 .fail).checkpoint.scratch = true)
    ∧ (∀ due ∈ [1, 200], let s := machine .int .exit []
       let s := { s with cycle := 100 }
       let s := s.updBlock 3 fun k => { k with
         specSlot := some due, threads := k.threads.map fun th => { th with status := .waiting (.spec (List.replicate 8 0)) } }
       s.specSlotExpired 3 = decide (due = 1) ∧ (s.gridOf 3).any (fun g => g.dl == 0 && g.task.isNone) = true
         ∧ (s.core (block s).core).bundles.all (fun u => u.paused.isNone) = true) := by decide +kernel

/-- Timeouts: a machine at cycle 100, in which every wait of thread 0 of block 3 has this timer. -/
def timed (due : Nat) (f : Block → Block) : State :=
  let s := machine .int .exit []
  let s := { s with cycle := 100, issue := none }
  (s.updBlock 3 fun k => f { k with bars := [(0, ⟨[(0, 0)], due⟩)], specBar := ⟨[(0, 0)], due⟩, specendBar := ⟨[(0, 0)], due⟩, rwaits := [(5, due)] }).updCluster 2 fun c =>
    { c with cbars := [(0, ⟨[(0, 0)], due⟩)] }

def waits (w : Wait) (k : Block) : Block := { k with threads := { k.thread 0 with status := .waiting w } :: k.threads.drop 1 }

/-- The timer of each wait, never, just expired and not yet expired, at a wait that is not over. -/
theorem witness_timeouts : ∀ due ∈ [0, 100, 101],
    (let s := timed due (waits (.bar 0))
     let x := Sparse.get Barrier.empty (block s).bars 0
     x.arrived ≠ [] ∧ s.expired 3 x.due = decide (due = 100) ∧ (block s).barDone x = false ∧ Sparse.wf Barrier.empty (block s).bars = true
       ∧ Sparse.wf Tenant.reset s.tenants = true ∧ x.arrived.Nodup ∧ (∀ e ∈ x.arrived, e.1 = 0) ∧ 0 < (block s).T)
    ∧ (let s := timed due (waits .specend)
       ∀ x ∈ [(block s).specBar, (block s).specendBar], x.arrived = [(0, 0)] ∧ s.expired 3 x.due = decide (due = 100) ∧ (block s).barDone x = false)
    ∧ (let s := timed due (waits (.tbwait 3 0 0 0 due))
       s.expired 3 due = decide (due = 100) ∧ tbPhase (s.tbGet 3 0) = 0)
    ∧ (let s := timed due (waits (.cbar 0))
       let x := Sparse.get Barrier.empty (s.cluster 2).cbars 0
       (s.cluster 2).members = [3] ∧ x.arrived = [(0, 0)] ∧ s.expired 3 x.due = decide (due = 100)
         ∧ (s.clusterLive (s.cluster 2)).any (fun e => !x.arrived.contains e) = true)
    ∧ (let s := timed due fun k => (waits .rwait k).updQuad 0 fun q => { q with tag := 5 }
       (block s).rwaits.find? (fun e => e.1 == 5) = some (5, due) ∧ s.expired 3 due = decide (due = 100) ∧ (block s).tagMet 5 = false
         ∧ (block s).tagged 5 = [0])
    -- a lane that waits for a slot alone, and one behind another of its instruction
    ∧ (let s := timed due (waits (.slot due))
       ((block s).thread 0).status = .waiting (.slot due) ∧ 0 < (block s).T ∧ s.expired 3 due = decide (due = 100) ∧ s.slotBeside 3 0 false = [])
    ∧ (let s := timed due fun k => { k with threads := k.threads.zipIdx.map fun e =>
         if e.2 < 2 then { e.1 with status := .waiting (.slot due), slotSince := some (50, e.2, 0) } else e.1 }
       s.slotBeside 3 0 false = [] ∧ s.slotBeside 3 0 true = [1] ∧ s.slotBeside 3 1 false = [0])
    -- no clause stands still, and there is no diagnostic area
    ∧ (let s := timed due id
       s.cores.all (fun e => e.2.bundles.all fun u => u.paused.isNone) = true ∧ (s.tenant 0).diagBase = 0) := by decide +kernel

/-- Their levels: a launch at DL0, one above; a wait named by its block or by the first member of its cluster. -/
theorem witness_timeout_levels : ∀ dl ∈ [(0 : BitVec 2), 2],
    let s := withGrid (fun g => { g with dl := dl }) (timed 100 id)
    (s.gridOf 3).any (fun g => g.task.isNone && g.dl == dl) = true
      ∧ s.timedBlock (.bar 3 0) = 3 ∧ s.timedBlock (.cbar 2 0) = 3 ∧ s.timedBlock (.spec 3) = 3 ∧ s.timedBlock (.specend 3) = 3 ∧ s.timedBlock (.tbwait 3 0) = 3 := by
  decide +kernel
/-! ## Witnesses: scheduling -/

theorem choose_one (s : State) : s.choose 1 = 0 := by simp [State.choose, Nat.mod_one]

/-- A small kernel: four threads of eight registers. -/
def smallKernel : Kernel := { placedKernel with roles := [⟨0, 4, 8⟩], tbars := 0, scratch := 256 }

/-- A tenant of one core, whose grid has block 3 placed and, if told so, another to place; changed as told. -/
def scheduled (total : Nat) (f : State → State := id) : State :=
  let s := machine .int .exit []
  let s := s.updTenant 0 fun x => { x with en := true, diemask := 1, ncore := 1 }
  f (withGrid (fun g => { g with kernel := smallKernel, total := total }) { s with issue := none })

/-- DispatchAndPreemption: the next root block and the next child, each with one core to stand on. -/
theorem witness_dispatch :
    (let s := scheduled 2
     s.nextPlacement.any (fun c => c.place == .roots [1] && c.options == [[0]] && c.grid == 1) = true ∧ s.e0Lost = false
       ∧ (s.gridOf 3).any (fun g => g.task.isNone && (s.spot 0 (g.kernel.need false)).isSome) = true)
    ∧ (let s := scheduled 1 fun s => s.updBlock 3 fun k => { k with fork := some ⟨3, 0, 64, 0x100, 1, List.replicate 8 0, 0, 0, 0, false, [], false, false, 1, 1⟩ }
       s.nextPlacement.any (fun c => c.place == .child 3 && c.options == [[0]]) = true ∧ (block s).fork.isSome = true ∧ 3 ≤ s.nextUid
         ∧ (s.gridOf 3).any (fun g => (s.spot 0 (g.kernel.need true)).isSome) = true) := by decide +kernel

/-- The choice among one core list is that list. -/
theorem witness_choice (s : State) (d : Nat) : [[d]].getD (s.choose [[d]].length) [] = [d] := by
  rw [show [[d]].length = 1 from rfl, choose_one]
  rfl

/-- A grid of higher priority whose one block has waited 2^20 cycles for the only core, which a block of the victim fills. -/
def preempting (dl : Nat) : State :=
  let s := scheduled 1 fun s => (withGrid (fun g => { g with
    dl := BitVec.ofNat 2 dl, kernel := { smallKernel with threads := 2048, roles := [⟨0, 2048, 8⟩] } }) s).updTenant 0 fun x => { x with savesize := 1 }
  { s with cycle := 0x100000, grids := Sparse.put s.grids 60 { placedGrid 60 0 with kernel := smallKernel, prio := 3, nextBlock := 0, total := 1 } }

theorem witness_preempt : ∀ dl ∈ [0, 1], let s := preempting dl
    s.preemption.any (fun e => e.1 == 60 && e.2.2.1 == 1 && e.2.2.2.dl == BitVec.ofNat 2 dl && e.2.1.order == 60) = true
      ∧ (s.grid? 60).isSome = true ∧ (s.grid? 1).isSome = true := by decide +kernel

/-- A block that is saved, and the size of the save area. -/
def saving (size : Nat) : State := scheduled 1 fun s =>
  (s.updBlock 3 fun k => { k with state := .saving }).updTenant 0 fun x => { x with savesize := BitVec.ofNat 16 size, savebase := 16 }

/-- SavingAndRestoring: a block that has drained, with room in the save area and with none. -/
theorem witness_save : ∀ size ∈ [0, 1], let s := saving size
    s.saveReady 3 (block s) = true ∧ s.dirtyFar (block s).core (block s).tenant = false ∧ s.takeReplies 3 (block s) = s ∧
      (s.gridOf 3).any (fun g => g.dl == 0) = true ∧ Memory.wf s.mem = true ∧ s.saveFits 0 [3] = decide (size = 1)
      ∧ (size = 1 → s.imageBase 0 (4 * smallKernel.totalCharge + 256 + 16384) = some 0x100000) := by decide +kernel

/-- The same: a core that holds bytes of another device's memory that have yet to go out, and a thread that is to meet a lost
reply. -/
theorem witness_save_waits :
    (let s := (saving 1).updCore 0 fun c => { c with
       cache := [⟨0, 0, 0xE0000000001, .remote 7 0x40, List.replicate 64 1, 0x30, BitVec.allOnes 64, none⟩] }
     s.saveReady 3 (block s) = true ∧ s.dirtyFar (block s).core (block s).tenant = true)
    ∧ (let s := (machine .int .exit []).updBlock 3 fun k => { k with state := .saving, threads := k.threads.map fun th => { th with pc := 0x20000 } }
       let s := sees { page with wr := false, ex := true } { s with
         issue := none, mem := Memory.write [] 0x40000 (natToBytes 4 waiting0.toNat)
         pending := [{ result true (some ⟨cINTEG, 3, 0, 0x40⟩) with flag := 0 }] }
       s.saveReady 3 (block s) = true ∧ s.dirtyFar (block s).core (block s).tenant = false ∧ s.takeReplies 3 (block s) ≠ s) := by decide +kernel

/-- A saved block without a scratchpad, whose image holds its registers. -/
def saved : State := scheduled 1 fun s =>
  let s := withGrid (fun g => { g with kernel := { smallKernel with scratch := 0 } }) s
  let s := (s.updBlock 3 fun k => { k with state := .saved, quads := [(0, Quad.none)] }).updCore 0 fun c => { c with bundles := [] }
  s.updBlock 3 fun k => { k with image := some ⟨0x100000, 128, crc32c (s.readPhys 0x100000 128), [], [], [], 0, [], [], [], 0⟩ }

theorem witness_restore :
    saved.nextPlacement.any (fun c => c.place == .restore [3] && c.options == [[0]]) = true
      ∧ ((block saved).image.map saved.imageOk) = some true ∧ (saved.seat false 3 0).isSome = true
      ∧ (block saved).threads.all (fun th => th.status != .noSlot) = true := by decide +kernel

/-- GovernorTurnsAndPool: a round that is due, a turn that is ready to end, and a pool on which a child has stopped. -/
theorem witness_round :
    let s := withGrid (fun g => { g with dl := 1 }) { machine .int .exit [] with issue := none }
    s.roundDue 0 = true ∧ s.issue = none ∧ Sparse.wf Core.reset s.cores = true := by decide +kernel

theorem witness_turn :
    let s := withGrid (fun g => { g with dl := 1 }) { machine .int .exit [] with issue := none }
    let s := s.updBlock 3 fun k => { k with threads := List.replicate 4 { Thread.start with pc := 64, status := .quota } }
    (s.gridOf 3).any (fun g => s.turnReady 1 g && g.stalledFrom.isNone && !g.preempt && g.effects.isEmpty && g.accesses.isEmpty
        && g.pendingEvents.isEmpty) = true
      ∧ s.fabric.arrived = [] ∧ s.cores.all (fun e => e.2.reds == []) = true ∧ (s.blocks.map (·.1)) = [3]
      ∧ (block s).state = .running ∧ (block s).parent = none ∧ (block s).fork = none ∧ (block s).specs = [] ∧ (block s).bars = []
      ∧ (block s).specBar = Barrier.empty ∧ (block s).specSlot = none ∧ (block s).quads.all (fun e => e.2.tag == 0) = true
      ∧ (s.cluster (block s).cluster).cbars = [] ∧ (block s).settleTimelines = block s ∧ (block s).threads.all (fun th => th.status == .quota) = true := by
  decide +kernel

theorem witness_pool :
    let s := scheduled 1 fun s => s.updBlock 3 fun k => { k with fork := some ⟨1, 0, 64, 0x100, 1, List.replicate 8 0, 0, 1, 0, false, [], false, false, 1, 1⟩ }
    let s := { s with blocks := Sparse.put s.blocks 20 { placedBlock 1 2 4 20 0 with parent := some 3, vtag := 1, state := .noSlots 0, quads := [] } }
    s.poolDeadlock 0 = true ∧ (s.openForks 0).map (·.1) = [3] ∧ Sparse.wf Tenant.reset s.tenants = true := by decide +kernel

/-! ## Witnesses: the fabric -/

/-- Device 1, whose port 0 leads to device 7, with one page that other devices may reach. -/
def networked (stopped : BitVec 4) : State :=
  let s := sees { page with domain := 1 } (State.reset.updTenant 0 fun x => { x with en := true })
  { s with fabric := { s.fabric with devid := 1, ports := [(0, { Port.none with trained := true, stopped := stopped })], routes := [(7, ⟨true, 0⟩)] } }

/-- A message to device 1. -/
def message (ty : Nat) (opw : Dword) (inl : BitVec 256) (data : List Flit) : Msg := mkMsg ty 7 1 0 0 0x20040 5 opw inl data

/-- A message that has a failing link check. -/
def torn (m : Msg) : Msg := { m with side := m.side ^^^ (1 <<< 40) }

/-- A sound message. -/
def sound (ty : Nat) (m : Msg) : Bool := m.ty.toNat == ty && m.dst == 1 && linkOk m && !msgMalformed m && (msgInteg m).isNone

/-- FabricPortsAndMessages: messages to forward, at the last hop and before it, over a port that goes and one that stops, to a
device without a route. -/
theorem witness_forward : ∀ stopped ∈ [0, 15], let s := networked (BitVec.ofNat 4 stopped)
    let m := mkMsg 0x03 3 7 0 0 0x20040 5 0x400000 0 [sealFlit 0x1234]
    let r := Sparse.get Route.none s.fabric.routes 7
    m.dst ≠ s.fabric.devid ∧ m.ty ≠ 0x08 ∧ m.hops ≠ 15 ∧ r.valid = true ∧ (s.port 0).trained = true
      ∧ onBit (s.port 0).stopped m.vc.toNat = decide (stopped = 15) ∧ (Sparse.get Route.none s.fabric.routes 8).valid = false
      ∧ (∀ n ∈ [7, 8], let s := { s with fabric := { s.fabric with ports := [(0, { Port.none with trained := true, failures := n })] } }
         (s.port 0).trained = true ∧ (decide (8 ≤ (s.port 0).failures) = (n == 8)))
      ∧ linkOk m = true ∧ msgMalformed m = false ∧ (∀ f ∈ m.data, flitOk f = true) ∧ linkOk (torn m) = false
       ∧ (let last := sealMsg { m with hops := 15 }
          last.hops = 15 ∧ linkOk last = true ∧ msgMalformed last = false)
       ∧ (let bad := sealMsg { m with data := m.data.map fun f => { f with side := f.side ^^^ 1 } }
          bad.data.any (fun f => !flitOk f) = true ∧ msgMalformed bad = false)
       ∧ (let wrong := sealMsg { m with scope := 7 }
          linkOk wrong = true ∧ msgMalformed wrong = true) := by decide +kernel

/-- Requests whose checks hold, with their bytes within the page. -/
theorem witness_requests :
    let s := networked 0
    let flit := sealFlit 0x1234
    s.inTurns 0 = false
    ∧ (∀ m ∈ [message 0x01 0x40000 0 [], message 0x03 0x400000 0 [flit], message 0x05 0x300 5 [], message 0x0A 0x400000 0 [flit]],
        sound m.ty.toNat m = true ∧ ∀ w ∈ [Want.rd, .wr], (match s.remoteXlate m w with
          | .ok x => s.lostHome x.home 64 == none && x.leaf.fmt == .bytes
          | .error _ => false) = true)
    ∧ (∀ m ∈ [message 0x01 0x40000 0 [], message 0x03 0x400000 0 [flit], message 0x05 0x300 5 [], message 0x0A 0x400000 0 [flit],
          message 0x03 0 0 [], message 0x03 0x400000 3 [flit]],
        (msgViews m = if m.inl = 3 then [3] else []) ∧ bitAt m.opw.toNat 14 = false ∧ msgOnChip m = false)
    ∧ (∀ m ∈ [message 0x01 0 0 [], message 0x03 0 0 []], sound m.ty.toNat m = true ∧ bitsAt m.opw.toNat 16 16 = 0 ∧ msgTests m = true) := by decide +kernel

/-- The same: a CPW of four bytes. -/
def copyWrite : Msg := message 0x0A 0x40000 0 [sealFlit 0x1234]

theorem witness_cpw : (networked 0).cpwFault copyWrite = none := by decide +kernel

theorem witness_cpw_written : ((networked 0).writeSectors copyWrite ((flitBytes copyWrite.data).take 4) fun _ => true).isSome = true := by
  decide +kernel

/-- The same: a device with so large a share of the view pool, and a write of view 3. -/
def sharing (share : BitVec 16) : State := (networked 0).updTenant 0 fun x => { x with mpshare := share }

def viewWrite : Msg := message 0x03 0x400000 3 [sealFlit 0x1234]

theorem witness_captures :
    (match (sharing 1).remoteXlate viewWrite .wr with
      | .ok x => (sharing 1).lostHome x.home 64 == none && (((sharing 1).fillTlb ownSite 0 x.leaf).captureIn 0 [3] viewWrite.addr.toNat x).isSome
      | .error _ => false) = true
    ∧ (match (sharing 0).remoteXlate viewWrite .wr with
      | .ok x => (sharing 0).lostHome x.home 64 == none && !(((sharing 0).fillTlb ownSite 0 x.leaf).captureIn 0 [3] viewWrite.addr.toNat x).isSome
      | .error _ => false) = true := by decide +kernel

/-- The same: atomics, one of an operation and one of a format that there is none of, and the other messages. -/
theorem witness_messages :
    let s := networked 0
    let flit := sealFlit 0x1234
    atomOpOf 0xFF = none ∧ atomFmtOk 0xF = none
    ∧ (State.reset.tenant 0).en = false ∧ sound 0x05 (message 0x05 0xFF 0 []) = true ∧ sound 0x05 (message 0x05 0xF00 0 []) = true
    ∧ atomOpOf (bitsAt 0x300 0 8) = some .add ∧ (atomFmtOk (bitsAt 0x300 8 4)).isSome = true
    ∧ sound 0x07 (message 0x07 0 0 [flit]) = true ∧ sound 0x10 (message 0x10 0 0 [flit]) = true ∧ sound 0x11 (message 0x11 0 0 [flit]) = true
    ∧ sound 0x08 (message 0x08 0x400000 0 [flit]) = true
    ∧ (∀ ty ∈ [0x01, 0x03, 0x05, 0x0A, 0x07, 0x10, 0x11, 0x12, 0x13, 0x14],
        let m := sealMsg { message ty 0 0 [] with rsv1 := 1 }
        msgMalformed m = true ∧ linkOk m = true ∧ m.dst = s.fabric.devid ∧ linkOk (torn m) = false) := by decide +kernel

/-- The same requests while a grid of the tenant runs in turns. -/
theorem witness_in_turns :
    let s := withGrid (fun g => { g with dl := 1 }) (machine .int .exit [])
    s.inTurns 0 = true ∧ ∀ m ∈ [message 0x03 0x400000 0 [sealFlit 1], message 0x05 0x300 5 [], message 0x0A 0x400000 0 [sealFlit 1],
        message 0x08 0x400000 0 [sealFlit 1]],
      msgViews m = [] ∧ msgTests m = false ∧ sound m.ty.toNat m = true ∧ m.hops ≠ 15 := by decide +kernel

/-- Answers to a load, an atomic and a store of this device, an error, the answer of a tree, and handle messages of its own. -/
theorem witness_answers :
    let s := networked 0
    (∀ e ∈ [(RemoteFor.load 9 true true, 0x02), (.load 9 false false, 0x02), (.atomic 9 none, 0x06), (.atomic 9 (some 0), 0x06), (.store 3 0 0x40, 0x04),
        (.red [(3, 0)] 0x40, 0x06), (.load 9 true true, 0x1F)],
      let s := { s with fabric := { s.fabric with remotes := [⟨5, 0, 7, some 0, 0x20040, e.1⟩] } }
      let m := message e.2 0 0 (if e.2 = 0x02 then [sealFlit 1] else [])
      s.fabric.remotes.find? (fun r => r.tag == m.tag) = some ⟨5, 0, 7, some 0, 0x20040, e.1⟩ ∧ sound e.2 m = true
        ∧ m.src = 7 ∧ bitsAt m.opw.toNat 32 8 = 0 ∧ bitAt m.inl.toNat 64 = false ∧ bitAt m.inl.toNat 65 = false ∧ s.mcastTag m.tag = false ∧ msgError m ≠ (cVIEWPOOL, 0))
    -- the answers that a waiting thread meets: of a test, that it is sound and that the page refuses it, and of a slot
    ∧ (∀ e ∈ [(RemoteFor.test 3 0 1 0x40 false, 0x04, 0), (.capture 3 0 1 0x40, 0x04, 0), (.test 3 0 1 0x40 false, 0x1F, 0x10300000000)],
        let s := (machine .int .exit []).updThread 3 0 fun th => { th with status := .waiting (.remote 5) }
        let s := { s with fabric := { s.fabric with devid := 1, remotes := [⟨5, 0, 7, some 0, 0x20040, e.1⟩] } }
        let m := message e.2.1 e.2.2 0 []
        (s.thread 3 0).status = .waiting (.remote 5) ∧ sound e.2.1 m = true ∧ (e.2.1 = 0x1F → (msgError m).1 ≠ cINTEG ∧ bitsAt m.opw.toNat 40 8 ≠ 0))
    -- errors that a forwarding device sends, of a message that had no answer and of a handle message
    ∧ (sound 0x1F (message 0x1F 0x400000000 0x10000000000000000 []) = true
       ∧ bitAt (message 0x1F 0x400000000 0x10000000000000000 []).inl.toNat 64 = true
       ∧ bitAt (message 0x1F 0x400000000 0x10000000000000000 []).inl.toNat 65 = false)
    ∧ (sound 0x1F (message 0x1F 0x400000000 0x20000000000000000 []) = true
       ∧ bitAt (message 0x1F 0x400000000 0x20000000000000000 []).inl.toNat 65 = true)
    ∧ (∀ left ∈ [1, 2], let s := { s with fabric := { s.fabric with mcasts := [⟨5, 9, 0, some 3, left, 0, none, none⟩] } }
        s.fabric.mcasts.find? (fun x => BitVec.ofNat 32 x.id == (message 0x09 0 0 []).tag) = some ⟨5, 9, 0, some 3, left, 0, none, none⟩
          ∧ sound 0x09 (message 0x09 0 0 []) = true)
    ∧ (let h : Dword := (tasked.thread 3 0).pair 6
       let m := fun (ty : Nat) (op : Dword) (inl : BitVec 256) => mkMsg ty 7 tasked.fabric.devid 0 0 0 5 op inl []
       hHome h = tasked.fabric.devid ∧ tasked.gone h = false
         ∧ (∀ e ∈ [(0x12, h, 0), (0x12, h, 0x100), (0x12, h, 0x200), (0x13, h, 0), (0x14, 0, h.setWidth 256)],
             let x := m e.1 e.2.1 e.2.2
             linkOk x = true ∧ msgMalformed x = false ∧ (msgInteg x).isNone = true)
         ∧ (∀ e ∈ [(0x12, (2 : Dword), (0x400 : BitVec 256)), (0x12, 2, 0), (0x13, 2, 0), (0x14, 0, 2)],
             let x := mkMsg e.1 7 1 0 0 0 5 e.2.1 e.2.2 []
             linkOk x = true ∧ msgMalformed x = false ∧ (msgInteg x).isNone = true ∧ hHome 2 ≠ 1)
         ∧ (∀ kind ∈ [0, 1, 2], bitsAt (m 0x12 h (BitVec.ofNat 256 (kind * 0x100))).inl.toNat 8 3 = kind)
         ∧ hHome (BitVec.ofNat 64 (bitsAt (m 0x14 0 (h.setWidth 256)).inl.toNat 0 64)) = tasked.fabric.devid) := by decide +kernel

/-- A contribution held for the end of a grid, whose page is homed on this device or on device 7; blocks that have yet to end. -/
theorem witness_fold :
    (∀ e ∈ [(page, 0x20040, 0x20000, true), (away, 7 * 2 ^ 43 + 0x40, 7 * 2 ^ 43, false)], ∀ done ∈ [0, 1],
      let s := withGrid (fun g => { g with finished := done, heldRed := [⟨[0], 3, e.2.1, .add, .int32, 1, [0], (machine .int .exit []).trapRecord 3 0 0x40 (Trap.of cTRAP 1)⟩] })
        (sees e.1 (machine .int .exit []))
      (s.gridNamed 0).any (fun g => decide (g.2.total ≤ g.2.finished) == (done == 1)
          && (g.2.heldRed.filter fun r => decide (s.pageBase 0 r.va = e.2.2.1)) != []) = true
        ∧ (decide (s.homeDevice 0 e.2.2.1 = s.fabric.devid.toNat) = e.2.2.2))
    ∧ (let s := sees page (machine .int .exit [])
       (match s.xlate ownSite 0 0x20040 .wr with
        | .ok x => s.lostHome x.home 8 == none && s.lostHome x.home 4 == none
        | .error _ => false) = true ∧ Memory.wf s.hostMem = true) := by decide +kernel

/-! ## Witnesses: encodings and steps -/

/-- DecodeOfEncode and DecodeAcceptsOnlyEncodings: an instruction with words after it and a transfer with none; words of each
number that tests 1 to 3 refuse. -/
theorem witness_encode :
    (encodeFields (.iadd 0 4 5 6)).isSome = true ∧ (Instr.iadd 0 4 5 6).wf = true ∧ (Instr.iadd 0 4 5 6).isTransfer = false
    ∧ (encodeFields (.bra 57)).isSome = true ∧ (Instr.bra 57).wf = true ∧ (Instr.bra 57).isTransfer = true
    ∧ (match decode .int [0x00040506#32, 7] with | .ok i n => i == .iadd 0 4 5 6 && n == 1 | _ => false) = true
    ∧ opWords .int 63 = none ∧ opWords .lane ((0x00040506#32).extractLsb' 26 6) = some 2
    ∧ (opWords .ctl ((0x00000039#32).extractLsb' 26 6)).any (fun n => decide (n < 2)) = true
    ∧ opIsTransfer .ctl ((0x00000039#32).extractLsb' 26 6) = true := by decide +kernel

/-- StepRunsDecodedInstruction: an event from outside; a clause under way whose word decodes and one whose word does not; a
device in reset, and one that takes its own steps. -/
theorem witness_step :
    ({ State.reset with inputs := [.telem] }).inputs = [.telem]
    ∧ (let s := machine .int (.iadd 0 4 5 6) []
       s.inputs = [] ∧ s.issue = some (clause s) ∧ Cls.ofCode (clause s).header.cls = some .int ∧ (Instr.iadd 0 4 5 6).wf = true
         ∧ (match decode .int ((clause s).words.drop ((clause s).pos - 1)) with
           | .ok i n => i == .iadd 0 4 5 6 && n == 1
           | .illegal .. => false) = true)
    ∧ (match decode .int [0xFFFFFFFF] with | .illegal .. => true | .ok .. => false) = true
    ∧ (let s := { State.reset with pkg := { State.reset.pkg with inReset := true } }
       s.inputs = [] ∧ s.issue = none ∧ s.pkg.inReset = true)
    ∧ State.reset.inputs = [] ∧ State.reset.issue = none ∧ State.reset.pkg.inReset = false := by decide +kernel

/-- StepsKeepMemoryWellFormed: a machine whose memories hold something, in canonical form, steps. -/
theorem witness_memory_step :
    let s := { machine .int (.iadd 0 4 5 6) [] with mem := Memory.write [] 0 [1], hostMem := Memory.write [] 7 [2] }
    Memory.wf s.mem = true ∧ Memory.wf s.hostMem = true ∧ (s.blocks.all fun e => Memory.wf e.2.scratch && Memory.wf e.2.wasScratch && e.2.specs.isEmpty) = true
      ∧ (match step s with | .next _ => true | _ => false) = true := by decide +kernel

end Sys2Proof.Tests
end

section
/-! SUPPORT. The host's registers: which register an offset of the management block names, what a write to each leaves, and
what a read of it gives. -/

namespace Sys2Proof.Machine

/-! ## Writes: the register that an offset names (R5, R45, R53, R54) -/

theorem toNat_registerOffset {o : Nat} (h : o < 0x58000) : (BitVec.ofNat 24 o).toNat = o := by
  rw [BitVec.toNat_ofNat]
  omega

theorem registerWrite_tree {s u : State} {v : Dword} {j : Nat} (hj : j < 256) (hu : s.writeTree j v = u) :
    Becomes s (.registerWrite (BitVec.ofNat 24 (0x2000 + 4 * j)) v) u := by
  subst hu
  change execRegisterWrite _ v s = _
  simp only [execRegisterWrite, toNat_registerOffset (show 0x2000 + 4 * j < 0x58000 by omega)]
  rw [if_pos (by omega), show (0x2000 + 4 * j - 0x2000) / 4 = j by omega]

theorem registerWrite_control {s u : State} {v : Dword} {t o : Nat} (ht : t < 64) (ho : o < 0x200) (hu : s.writeControl t o v = u) :
    Becomes s (.registerWrite (BitVec.ofNat 24 (0x50000 + 0x200 * t + o)) v) u := by
  subst hu
  change execRegisterWrite _ v s = _
  simp only [execRegisterWrite, toNat_registerOffset (show 0x50000 + 0x200 * t + o < 0x58000 by omega)]
  rw [if_neg (by omega), if_neg (by omega), if_pos (by omega), show (0x50000 + 0x200 * t + o - 0x50000) / 0x200 = t by omega,
    show (0x50000 + 0x200 * t + o - 0x50000) % 0x200 = o by omega]

theorem registerWrite_page {s u : State} {v : Dword} {t o : Nat} (ht : t < 64) (ho : o < 0x1000) (hu : s.writePage t o v = u) :
    Becomes s (.registerWrite (BitVec.ofNat 24 (0x10000 + 0x1000 * t + o)) v) u := by
  subst hu
  change execRegisterWrite _ v s = _
  simp only [execRegisterWrite, toNat_registerOffset (show 0x10000 + 0x1000 * t + o < 0x58000 by omega)]
  rw [if_neg (by omega), if_neg (by omega), if_neg (by omega), if_pos (by omega),
    show (0x10000 + 0x1000 * t + o - 0x10000) / 0x1000 = t by omega, show (0x10000 + 0x1000 * t + o - 0x10000) % 0x1000 = o by omega]

theorem writePage_queue (s : State) (t : Nat) (v : Dword) {q o : Nat} (hq : q < 16) (ho : o < 0x40) :
    s.writePage t (0x200 + 0x40 * q + o) v = s.writeQueue t q o v := by
  simp only [State.writePage]
  rw [if_neg (by omega), if_neg (by omega), if_neg (by omega), if_neg (by omega), if_pos (by omega),
    show (0x200 + 0x40 * q + o - 0x200) / 0x40 = q by omega, show (0x200 + 0x40 * q + o - 0x200) % 0x40 = o by omega]

theorem registerWrite_queue {s u : State} {v : Dword} {t q o : Nat} (ht : t < 64) (hq : q < 16) (ho : o < 0x40)
    (hu : s.writeQueue t q o v = u) :
    Becomes s (.registerWrite (BitVec.ofNat 24 (0x10000 + 0x1000 * t + (0x200 + 0x40 * q + o))) v) u :=
  registerWrite_page ht (by omega) ((writePage_queue s t v hq ho).trans hu)

/-- A tree entry keeps its 26 bits (R45). -/
theorem writeTree_eq (s : State) (j : Nat) (v : Dword) : s.writeTree j v = { s with fabric := { s.fabric with
    trees := Sparse.set Tree.none s.fabric.trees j ⟨BitVec.ofNat 64 (v.toNat % 2 ^ 26)⟩ } } := by
  rw [State.writeTree, bitsAt, pow_zero, Nat.div_one]

/-- PDELAY and PEN (R81). -/
theorem registerWrite_pdelay (s : State) (v : Dword) : Becomes s (.registerWrite (BitVec.ofNat 24 0x0300) v)
    { s with pkg := { s.pkg with pdelay := BitVec.ofNat 32 v.toNat, pen := bitAt v.toNat 32 } } := rfl

/-! ## Control blocks (R53, R54, R80) -/

theorem State.inReserved_eq_true_iff (s : State) (a n : Nat) :
    s.inReserved a n = true ↔ 0 < n ∧ a < s.hbmBytes ∧ s.reservedBase < a + n := decide_eq_true_iff

section
variable (s : State) {t a n : Nat}

/-- A save area clear of the reserved region is written while the tenant saves nothing (R80). -/
theorem State.saveArea_open (hs : s.savingTenant t = false) (hc : ¬ (0 < n ∧ a < s.hbmBytes ∧ s.reservedBase < a + n)) :
    ¬ (s.savingTenant t || s.inReserved a n) = true := by
  rw [hs, Bool.false_or, s.inReserved_eq_true_iff]
  exact hc

/-- A write of a save area is ignored while the tenant saves, or where the area meets the reserved region (R26, R80). -/
theorem State.saveArea_shut (h : s.savingTenant t = true ∨ ¬ ¬ (0 < n ∧ a < s.hbmBytes ∧ s.reservedBase < a + n)) :
    (s.savingTenant t || s.inReserved a n) = true := by
  rw [Bool.or_eq_true, s.inReserved_eq_true_iff]
  exact h.imp id not_not.mp

end

theorem State.savingTenant_eq_true_iff (s : State) (t : Nat) :
    s.savingTenant t = true ↔ (s.tenant t).qsaved ≠ 0 ∨ ∃ e ∈ s.blocks, e.2.tenant = t ∧ e.2.state = .saving := by
  simp [State.savingTenant]

section
variable (s : State) (t : Nat) (v : Dword)

theorem writeControl_root : s.writeControl t 0x008 v =
    if s.inReserved (bitsAt v.toNat 13 27 * 2 ^ 13) (2 ^ 13) then s
    else s.updTenant t fun x => { x with rootv := bitAt v.toNat 0, root := BitVec.ofNat 27 (bitsAt v.toNat 13 27) } := rfl

theorem writeControl_savebase : s.writeControl t 0x020 v =
    if s.savingTenant t || s.inReserved (bitsAt v.toNat 16 24 * 2 ^ 16) ((s.tenant t).savesize.toNat * 2 ^ 20) then s
    else s.updTenant t fun x => { x with savebase := BitVec.ofNat 24 (bitsAt v.toNat 16 24) } := rfl

theorem writeControl_savesize : s.writeControl t 0x028 v =
    if s.savingTenant t || s.inReserved ((s.tenant t).savebase.toNat * 2 ^ 16) (bitsAt v.toNat 0 16 * 2 ^ 20) then s
    else s.updTenant t fun x => { x with savesize := BitVec.ofNat 16 v.toNat } := rfl

theorem writeControl_cores : s.writeControl t 0x030 v =
    if s.tenantBusy t then s
    else s.updTenant t fun x => { x with diemask := BitVec.ofNat 8 v.toNat, ncore := BitVec.ofNat 7 (bitsAt v.toNat 8 7) } := rfl

theorem writeControl_domset {j : Nat} (hj : j < 16) :
    s.writeControl t (0x180 + 8 * j) v = s.updTenant t fun x => { x with domset := domsetWith x.domset j v } := by
  simp only [State.writeControl]
  rw [if_neg (by omega), if_neg (by omega), if_neg (by omega), if_neg (by omega), if_pos (by omega),
    show (0x180 + 8 * j - 0x180) / 8 = j by omega]

end

/-- What a DOMSET write leaves: the dwords above the one written, that one, and those below. -/
theorem domsetWith_eq_ofNat (d : BitVec 1024) (j : Nat) (v : Dword) : domsetWith d j v = BitVec.ofNat 1024
    (2 ^ (64 * j) * (2 ^ 64 * (d.toNat / 2 ^ (64 * j) / 2 ^ 64) + v.toNat) + d.toNat % 2 ^ (64 * j)) := by
  rw [domsetWith, bitsAt]
  refine congrArg (BitVec.ofNat 1024) ?_
  generalize 2 ^ (64 * j) = p
  have hlow := Nat.div_add_mod d.toNat p
  have hmid := congrArg (p * ·) (Nat.div_add_mod (d.toNat / p) (2 ^ 64))
  simp only [Nat.mul_add, Nat.mul_comm _ p] at hmid ⊢
  omega

/-- A write of a DOMSET dword replaces its own 64 bits alone (R53). -/
theorem onBit_domsetWith (d : BitVec 1024) (j : Nat) (v : Dword) {i : Nat} (hi : i < 1024) :
    onBit (domsetWith d j v) i = if i / 64 = j then v.getLsbD (i % 64) else onBit d i := by
  have hlow : d.toNat % 2 ^ (64 * j) < 2 ^ (64 * j) := Nat.mod_lt _ (Nat.two_pow_pos _)
  simp only [domsetWith_eq_ofNat, onBit, ← BitVec.testBit_toNat, BitVec.toNat_ofNat, Nat.testBit_mod_two_pow, hi,
    decide_true, Bool.true_and, Nat.testBit_two_pow_mul_add _ hlow, Nat.testBit_two_pow_mul_add _ v.isLt, Nat.testBit_div_two_pow]
  rcases Nat.lt_or_ge i (64 * j) with hbelow | hfrom
  · rw [if_pos hbelow, if_neg (by omega), decide_eq_true hbelow, Bool.true_and]
  · rw [if_neg (by omega)]
    rcases Nat.lt_or_ge (i - 64 * j) 64 with hin | habove
    · rw [if_pos hin, if_pos (by omega), show i % 64 = i - 64 * j by omega]
    · rw [if_neg (by omega), if_neg (by omega), show i - 64 * j - 64 + 64 + 64 * j = i by omega]

/-! ## Tenant pages and queues (R57, R68, R73, R228) -/

section
variable (s : State) (t : Nat) (v : Dword)

theorem writePage_lostCount : s.writePage t 0x038 v =
    s.updTenant t fun x => { x with fq := { x.fq with lostCount := BitVec.ofNat 32 v.toNat } } := rfl

theorem writePage_ipend : s.writePage t 0x048 v =
    s.updTenant t fun x => { x with ipend := x.ipend &&& ~~~(BitVec.ofNat 4 v.toNat) } := rfl

theorem writePage_diagBase : s.writePage t 0x060 v =
    s.updTenant t fun x => { x with diagBase := BitVec.ofNat 43 (bitsAt v.toNat 10 43) } := rfl

theorem writePage_diagLog2 : s.writePage t 0x068 v =
    if 12 < bitsAt v.toNat 0 4 then s else s.updTenant t fun x => { x with diagLog2 := BitVec.ofNat 4 v.toNat } := rfl

end

theorem append_eq_ofNat {m n : Nat} (a : BitVec m) (b : BitVec n) : a ++ b = BitVec.ofNat (m + n) (a.toNat * 2 ^ n + b.toNat) := by
  have happ : (a ++ b).toNat = a.toNat * 2 ^ n + b.toNat := by
    rw [BitVec.toNat_append, ← Nat.shiftLeft_add_eq_or_of_lt b.isLt, Nat.shiftLeft_eq]
  rw [← happ, BitVec.ofNat_toNat, BitVec.setWidth_eq]

/-- A seed whose low dword is replaced (R68). -/
theorem seedLow_eq (d : BitVec 128) (v : Dword) :
    d.extractLsb' 64 64 ++ v = BitVec.ofNat 128 (d.toNat / 2 ^ 64 * 2 ^ 64 + v.toNat) := by
  have hhigh : d.toNat / 2 ^ 64 < 2 ^ 64 := by omega
  rw [append_eq_ofNat, BitVec.extractLsb'_toNat, Nat.shiftRight_eq_div_pow, Nat.mod_eq_of_lt hhigh]

/-- A seed whose high dword is replaced (R68). -/
theorem seedHigh_eq (d : BitVec 128) (v : Dword) :
    v ++ d.extractLsb' 0 64 = BitVec.ofNat 128 (v.toNat * 2 ^ 64 + d.toNat % 2 ^ 64) := by
  rw [append_eq_ofNat, BitVec.extractLsb'_toNat, Nat.shiftRight_zero]

/-- While a queue is enabled or not idle, its block ignores writes (R68). -/
theorem writeQueue_ignored {s : State} {t q : Nat} (h : (s.queue t q).en = true ∨ s.queueIdle t q = false) (o : Nat) (v : Dword) :
    s.writeQueue t q o v = s := by
  have hrun : ((s.queue t q).en || !s.queueIdle t q) = true := by simpa using h
  rw [State.writeQueue, if_pos hrun]

section
variable {s : State} {t q : Nat} (hen : (s.queue t q).en = false) (hidle : s.queueIdle t q = true) (v : Dword)
include hen hidle

theorem writeQueue_status : s.writeQueue t q 0x20 v =
    s.updQueue t q fun y => { y with ovr := y.ovr && !bitAt v.toNat 1, stop := y.stop && !bitAt v.toNat 2 } := by
  simp only [State.writeQueue, hen, hidle]
  rfl

theorem writeQueue_qbase : s.writeQueue t q 0x00 v =
    s.updQueue t q fun y => { y with qbase := BitVec.ofNat 53 (bitsAt v.toNat 7 46 * 128) } := by
  simp only [State.writeQueue, hen, hidle]
  rfl

theorem writeQueue_seedLow : s.writeQueue t q 0x28 v =
    s.updQueue t q fun y => { y with seed := BitVec.ofNat 128 (y.seed.toNat / 2 ^ 64 * 2 ^ 64 + v.toNat) } := by
  simp only [State.writeQueue, hen, hidle, ← seedLow_eq]
  rfl

theorem writeQueue_seedHigh : s.writeQueue t q 0x30 v =
    s.updQueue t q fun y => { y with seed := BitVec.ofNat 128 (v.toNat * 2 ^ 64 + y.seed.toNat % 2 ^ 64) } := by
  simp only [State.writeQueue, hen, hidle, ← seedHigh_eq]
  rfl

theorem writeQueue_traceAddr : s.writeQueue t q 0x38 v = s.updQueue t q fun y => { y with traceAddr := BitVec.ofNat 53 v.toNat } := by
  simp only [State.writeQueue, hen, hidle]
  rfl

end

/-! ## Reads (R5, R6, R33, R53, R66, R69, R73, R75) -/

theorem readRegister_misaligned (s : State) {o : Nat} (ho : 0x10000 ≤ o) (h8 : o % 8 ≠ 0) : s.readRegister o = 0 := by
  unfold State.readRegister
  iterate 9 rw [if_neg (by omega)]
  rfl

theorem readRegister_page (s : State) {t o : Nat} (ht : t < 64) (ho : o < 0x1000) (h8 : o % 8 = 0) :
    s.readRegister (0x10000 + 0x1000 * t + o) = BitVec.ofNat 64 (s.readPage t o) := by
  unfold State.readRegister
  iterate 7 rw [if_neg (by omega)]
  rw [if_pos (by omega), show (0x10000 + 0x1000 * t + o - 0x10000) / 0x1000 = t by omega,
    show (0x10000 + 0x1000 * t + o - 0x10000) % 0x1000 = o by omega]

theorem readRegister_control (s : State) {t o : Nat} (ht : t < 64) (ho : o < 0x200) (h8 : o % 8 = 0) :
    s.readRegister (0x50000 + 0x200 * t + o) = BitVec.ofNat 64 ((s.tenant t).readControl o) := by
  unfold State.readRegister
  iterate 8 rw [if_neg (by omega)]
  rw [if_pos (by omega), show (0x50000 + 0x200 * t + o - 0x50000) / 0x200 = t by omega,
    show (0x50000 + 0x200 * t + o - 0x50000) % 0x200 = o by omega]

theorem readRegister_caps (s : State) : s.readRegister 0x0010 = s.pkg.caps := by
  rw [State.readRegister, if_pos rfl, BitVec.ofNat_toNat, BitVec.setWidth_eq]

theorem entryPair_entry (entry : Nat → Nat) (j : Nat) :
    entryPair entry (4 * j) = entry j + if j % 2 = 0 then entry (j + 1) * 2 ^ 32 else 0 := by
  simp only [entryPair, show 4 * j / 4 = j by omega, show 4 * j % 8 = 0 ↔ j % 2 = 0 by omega]

/-- A route entry as its register holds it (R33). -/
def State.routeEntry (s : State) (j : Nat) : Nat :=
  let r := Sparse.get Route.none s.fabric.routes j
  r.port.toNat + if r.valid = true then 2 ^ 5 else 0

theorem readRegister_route (s : State) {j : Nat} (hj : j < 1024) :
    s.readRegister (0x1000 + 4 * j) =
      BitVec.ofNat 64 (s.routeEntry j + if j % 2 = 0 then s.routeEntry (j + 1) * 2 ^ 32 else 0) := by
  unfold State.readRegister
  iterate 5 rw [if_neg (by omega)]
  rw [if_pos (by omega), Nat.add_sub_cancel_left, entryPair_entry]
  rfl

theorem readPage_disabled {s : State} {t : Nat} (h : (s.tenant t).en = false) (o : Nat) : s.readPage t o = 0 := by
  simp [State.readPage, h]

/-- A tenant page gives 0 at what can only be written and at what is no register (R5). -/
theorem readPage_writeOnly (s : State) (t : Nat) {o : Nat} (h : o ∈ [0x000, 0x030, 0xA80]) : s.readPage t o = 0 := by
  simp only [List.mem_cons, List.not_mem_nil, or_false] at h
  rcases h with rfl | rfl | rfl <;> simp [State.readPage]

theorem readPage_ipend {s : State} {t : Nat} (h : (s.tenant t).en = true) : s.readPage t 0x048 = (s.tenant t).ipend.toNat := by
  simp [State.readPage, h]

theorem readPage_tlbBusy {s : State} {t : Nat} (h : (s.tenant t).en = true) :
    s.readPage t 0x008 = if (s.tenant t).tlbBusy then 2 ^ 63 else 0 := by
  simp [State.readPage, h]

theorem readControl_domset (x : Tenant) {j : Nat} (hj : j < 16) :
    BitVec.ofNat 64 (x.readControl (0x180 + 8 * j)) = x.domset.extractLsb' (64 * j) 64 := by
  unfold Tenant.readControl
  iterate 9 rw [if_neg (by omega)]
  rw [if_pos (by omega), show 8 * (0x180 + 8 * j - 0x180) = 64 * j by omega, bitsAt, ← Nat.shiftRight_eq_div_pow]
  exact BitVec.eq_of_toNat_eq (by simp)

/-- What waits in a staging copy is not read (R53). -/
theorem readControl_staged (x : Tenant) (l : Sparse Dword) (o : Nat) : { x with staged := l }.readControl o = x.readControl o := rfl

/-- Settles O40: each write is the equation of the register that its offset names, each read that of the block read. -/
theorem hostRegisterWrites : Obligations.HostRegisterWrites := by
  intro s v n reg
  refine ⟨fun j hj => registerWrite_tree hj (writeTree_eq s j v), registerWrite_pdelay s v, fun t ht => ?_,
    fun d j i _ hi => onBit_domsetWith d j v hi, fun r h8 => readRegister_misaligned s (by omega) (by omega), readRegister_caps s,
    fun j hj => readRegister_route s hj, fun t o ht ho h8 => ?_⟩
  · -- the writes of a tenant: its control block, its page, its queues
    intro x ctl page clear
    have hctl {o : Nat} (ho : o < 0x200) {u : State} (hu : s.writeControl t o v = u) := registerWrite_control ht ho hu
    have hpage {o : Nat} (ho : o < 0x1000) {u : State} (hu : s.writePage t o v = u) := registerWrite_page ht ho hu
    refine ⟨fun hc => ?_, fun hc => ?_, fun hs hc => ?_, fun hs hc => ?_, fun h => ?_, fun h => ?_, s.savingTenant_eq_true_iff t,
      fun hb => ?_, fun hb => ?_, fun j hj => ?_, ?_, ?_, ?_, fun hn => ?_, fun q hq => ⟨fun hen hidle => ?_, fun h o ho => ?_⟩⟩
    · exact hctl (by decide) ((writeControl_root s t v).trans (if_neg (mt (s.inReserved_eq_true_iff _ _).mp hc)))
    · exact hctl (by decide) ((writeControl_root s t v).trans (if_pos ((s.inReserved_eq_true_iff _ _).mpr (not_not.mp hc))))
    · exact hctl (by decide) ((writeControl_savebase s t v).trans (if_neg (s.saveArea_open hs hc)))
    · exact hctl (by decide) ((writeControl_savesize s t v).trans (if_neg (s.saveArea_open hs hc)))
    · exact hctl (by decide) ((writeControl_savebase s t v).trans (if_pos (s.saveArea_shut h)))
    · exact hctl (by decide) ((writeControl_savesize s t v).trans (if_pos (s.saveArea_shut h)))
    · exact hctl (by decide) ((writeControl_cores s t v).trans (if_neg (ne_true_of_eq_false hb)))
    · exact hctl (by decide) ((writeControl_cores s t v).trans (if_pos hb))
    · exact hctl (by omega) (writeControl_domset s t v hj)
    · exact hpage (by decide) (writePage_lostCount s t v)
    · exact hpage (by decide) (writePage_ipend s t v)
    · exact hpage (by decide) (writePage_diagBase s t v)
    · exact hpage (by decide) ((writePage_diagLog2 s t v).trans (if_neg (Nat.not_lt.mpr hn)))
    · have hqueue {o : Nat} (ho : o < 0x40) {u : State} (hu : s.writeQueue t q o v = u) := registerWrite_queue ht hq ho hu
      exact ⟨hqueue (by decide) (writeQueue_status hen hidle v), hqueue (by decide) (writeQueue_qbase hen hidle v),
        hqueue (by decide) (writeQueue_seedLow hen hidle v), hqueue (by decide) (writeQueue_seedHigh hen hidle v),
        hqueue (by decide) (writeQueue_traceAddr hen hidle v)⟩
    · have hlow : ∀ o ∈ [0x00, 0x20, 0x28, 0x30, 0x38], o < 0x40 := by decide
      exact registerWrite_queue ht hq (hlow o ho) (writeQueue_ignored h o v)
  · -- the reads of a tenant: of its page, and of its control block
    refine ⟨fun p hp hen => ?_, fun p hp => ?_, fun hen => ⟨?_, ?_⟩, fun j hj => ?_, fun e w hwf => ?_⟩
    · by_cases h8 : p % 8 = 0
      · rw [readRegister_page s ht hp h8, readPage_disabled hen]
        rfl
      · exact readRegister_misaligned s (by omega) (by omega)
    · have hplace : ∀ p ∈ [0x000, 0x030, 0xA80], p < 0x1000 ∧ p % 8 = 0 := by decide
      rw [readRegister_page s ht (hplace p hp).1 (hplace p hp).2, readPage_writeOnly s t hp]
      rfl
    · rw [readRegister_page s ht (by decide) (by decide), readPage_ipend hen, BitVec.ofNat_toNat]
    · rw [readRegister_page s ht (by decide) (by decide), readPage_tlbBusy hen]
      split
      · exact BitVec.ofNat_pow ..
      · rfl
    · rw [Nat.add_assoc (0x50000 + 0x200 * t), readRegister_control s ht (by omega) (by omega), readControl_domset _ hj]
    · rw [readRegister_control s ht ho h8, readRegister_control _ ht ho h8, State.tenant_updTenant s t _ hwf]
      exact congrArg _ (readControl_staged _ _ o).symm

end Sys2Proof.Machine
end

section
/-! SUPPORT. What one step runs: an input, the instruction of the clause, or a step of the device. -/

namespace Sys2Proof.Machine

/-! ## Which input and which instruction may go -/

/-- Where no join holds a granule, every step may be taken. -/
theorem State.allows_of_heldRuns_nil {s : State} (h : s.heldRuns = []) (run : Instr → State → Out) (ins : Instr) :
    s.allows run ins = true := by
  simp [State.allows, h]

theorem State.nextInput_nil {s : State} (h : s.inputs = []) (run : Instr → State → Out) : s.nextInput run = none := by
  simp [State.nextInput, h]

/-- The first input is taken where it may be and the host need not wait with it. -/
theorem State.nextInput_cons {s : State} {ev : Instr} {rest : List Instr} {run : Instr → State → Out} (hin : s.inputs = ev :: rest)
    (hrun : s.allows run ev = true) (hhost : s.hostWaits ev = false) : s.nextInput run = some (ev, rest) := by
  simp [State.nextInput, hin, hrun, hhost]

theorem Issue.decodeNext_of_cls {i : Issue} {c : Cls} (h : Cls.ofCode i.header.cls = some c) :
    i.decodeNext = decode c (i.words.drop (i.pos - 1)) := by
  simp [Issue.decodeNext, h]

/-! ## What a step is, by case -/

theorem step_of_nextInput {s : State} {ev : Instr} {rest : List Instr} (h : s.nextInput exec = some (ev, rest)) :
    step s = after (exec ev { s with inputs := rest }) := by
  rw [step, h]

theorem step_of_issue {s : State} {i : Issue} (hin : s.nextInput exec = none) (hi : s.issue = some i) :
    step s = after (stepIssue i s) := by
  rw [step, hin, hi]

theorem step_of_idle {s : State} (hin : s.nextInput exec = none) (hi : s.issue = none) : step s = after (stepOwn s) := by
  rw [step, hin, hi]

theorem stepIssue_ok {s : State} {i : Issue} {ins : Instr} {n : Nat} (h : i.decodeNext = .ok ins n)
    (hrun : s.allows exec ins = true) : stepIssue i s = exec ins s := by
  rw [stepIssue, h]
  exact if_pos hrun

theorem stepIssue_illegal {s : State} {i : Issue} {cause word : Nat} (h : i.decodeNext = .illegal cause word) :
    stepIssue i s = .next (s.trapWord i cause word) := by
  rw [stepIssue, h]

theorem stepOwn_inReset {s : State} (h : s.pkg.inReset = true) : stepOwn s = .next s := by
  rw [stepOwn, if_pos h]

theorem stepOwn_some {s : State} {ev : Instr} {due : List (Nat × Instr)} (hr : s.pkg.inReset = false)
    (h : s.pickEvent exec = some (ev, due)) : stepOwn s = exec ev { s.tick with due := due } := by
  simp only [stepOwn, hr, h, Bool.false_eq_true, if_false]

theorem stepOwn_none {s : State} (hr : s.pkg.inReset = false) (h : s.pickEvent exec = none) : stepOwn s = .next s := by
  simp only [stepOwn, hr, h, Bool.false_eq_true, if_false]

/-- Settles O57: each clause is the case of `step` that its hypotheses select. -/
theorem stepRunsDecodedInstruction : Obligations.StepRunsDecodedInstruction := by
  intro s
  refine ⟨fun _ _ => step_of_nextInput, fun ev rest hin hheld hhost => ?_, fun hin i c hi hc => ⟨?_, ?_⟩,
    fun hin hi => ⟨?_, ?_, ?_⟩, fun h => State.nextInput_nil h exec, fun t => ⟨rfl, rfl, rfl⟩⟩
  · exact step_of_nextInput (State.nextInput_cons hin (State.allows_of_heldRuns_nil hheld exec ev) hhost)
  · intro ins n _ hdec hmay
    have hrun : s.allows exec ins = true := hmay.elim (fun h => State.allows_of_heldRuns_nil h exec ins) id
    rw [step_of_issue hin hi, stepIssue_ok ((Issue.decodeNext_of_cls hc).trans hdec) hrun]
  · intro cause word hdec
    rw [step_of_issue hin hi, stepIssue_illegal ((Issue.decodeNext_of_cls hc).trans hdec), after]
  · intro hr
    rw [step_of_idle hin hi, stepOwn_inReset hr, after]
  · intro hr ev due hpick
    rw [step_of_idle hin hi, stepOwn_some hr hpick]
  · intro hr hpick
    rw [step_of_idle hin hi, stepOwn_none hr hpick, after]

end Sys2Proof.Machine
end

section
/-! SUPPORT. What the operations of global accesses leave alone: the clause being issued and the bundles of the cores. A
relation between states that they all keep, proved once for each of them, so that an instruction of class MEM that is run
over its lanes never leaves its clause but by a wait. -/

namespace Sys2Proof.Machine

/-! ## The relation -/

/-- The clause being issued and the bundles of every core stand as they were, and a canonical table of cores stays so. -/
structure Keeps (s t : State) : Prop where
  issue : t.issue = s.issue
  cores : Sparse.wf Core.reset s.cores = true →
    Sparse.wf Core.reset t.cores = true ∧ ∀ c, (t.core c).bundles = (s.core c).bundles

theorem Keeps.refl (s : State) : Keeps s s := ⟨rfl, fun h => ⟨h, fun _ => rfl⟩⟩

theorem Keeps.trans {s t u : State} (h : Keeps s t) (h' : Keeps t u) : Keeps s u := by
  refine ⟨h'.issue.trans h.issue, fun hw => ?_⟩
  obtain ⟨hwt, hbt⟩ := h.cores hw
  obtain ⟨hwu, hbu⟩ := h'.cores hwt
  exact ⟨hwu, fun c => (hbu c).trans (hbt c)⟩

/-- A change outside the cores and the clause. -/
theorem keeps_of_cores {s t : State} (hi : t.issue = s.issue) (hc : t.cores = s.cores) : Keeps s t := by
  refine ⟨hi, fun hw => ⟨hc ▸ hw, fun c => ?_⟩⟩
  rw [State.core, State.core, hc]

/-- A change of a core that is none of its bundles. -/
theorem keeps_updCore (s : State) (c : Nat) (f : Core → Core) (hf : ∀ k, (f k).bundles = k.bundles) : Keeps s (s.updCore c f) := by
  refine ⟨rfl, fun hw => ⟨State.wf_updCore s c f hw, fun x => ?_⟩⟩
  by_cases hx : x = c
  · rw [hx, State.core_updCore s c f hw, hf]
  · rw [State.core_updCore_ne s c x f hx]

theorem keeps_foldl {α : Type} (l : List α) (f : State → α → State) (h : ∀ s a, Keeps s (f s a)) (s : State) :
    Keeps s (l.foldl f s) := by
  induction l generalizing s with
  | nil => exact Keeps.refl s
  | cons a l ih => exact (h s a).trans (ih _)

theorem keeps_ite {p : Prop} [Decidable p] {s a b : State} (ha : Keeps s a) (hb : Keeps s b) : Keeps s (if p then a else b) := by
  split
  · exact ha
  · exact hb

theorem keeps_ite_fst {α : Type} {p : Prop} [Decidable p] {s : State} {a b : State × α} (ha : Keeps s a.1) (hb : Keeps s b.1) :
    Keeps s (if p then a else b).1 := by
  split
  · exact ha
  · exact hb

theorem Keeps.good {i : Issue} {s t : State} (h : Keeps s t) (hg : Good i s) : Good i t := by
  obtain ⟨hw, hb⟩ := h.cores hg.1
  refine ⟨hw, fun u hu => hg.2 u ?_⟩
  rwa [State.bundle?, ← hb]

/-- A lane that keeps the clause goes on in it. -/
theorem Keeps.leaves {i : Issue} {l : Lane} {s t : State} (h : Keeps s t) (hg : Good i s) : Leaves i l s t :=
  ⟨h.good hg, .inl h.issue⟩

theorem keeps_updTenant (s : State) (t : Nat) (f : Tenant → Tenant) : Keeps s (s.updTenant t f) := keeps_of_cores rfl rfl

theorem keeps_updGrid (s : State) (g : Nat) (f : Grid → Grid) : Keeps s (s.updGrid g f) :=
  keeps_of_cores (by simp) (by simp)

theorem keeps_updBlock (s : State) (b : Nat) (f : Block → Block) : Keeps s (s.updBlock b f) :=
  keeps_of_cores (by simp) (by simp)

theorem keeps_updThread (s : State) (b t : Nat) (f : Thread → Thread) : Keeps s (s.updThread b t f) := keeps_updBlock s b _

/-! ## Memory, signatures and messages -/

theorem keeps_giveSig (s : State) (sg : BitVec 512) (c : Nat) : Keeps s (s.giveSig sg c) := keeps_updCore s c _ fun _ => rfl

theorem keeps_writeHome (s : State) (h : HomeAt) (bs : List Byte) : Keeps s (s.writeHome h bs) := by
  cases h <;> exact keeps_of_cores rfl rfl

theorem keeps_fillHost (s : State) (h : HomeAt) (e : Bool) : Keeps s (s.fillHost h e) := by
  cases h with
  | host t win top off =>
    unfold State.fillHost
    dsimp only
    split
    · exact keeps_ite (keeps_of_cores rfl rfl) (Keeps.refl s)
    · exact keeps_of_cores rfl rfl
  | _ => exact Keeps.refl s

theorem keeps_raiseVector (s : State) (t v : Nat) : Keeps s (s.raiseVector t v) :=
  keeps_ite (keeps_updTenant s t _) (keeps_of_cores rfl rfl)

theorem keeps_toPort (s : State) (p : Nat) (m : Msg) : Keeps s (s.toPort p m) :=
  keeps_ite (keeps_of_cores rfl rfl) (keeps_of_cores rfl rfl)

theorem keeps_send {s t : State} {m : Msg} (h : s.send m = some t) : Keeps s t := by
  unfold State.send at h
  dsimp only at h
  split at h
  · exact Option.some.inj h ▸ keeps_toPort s _ m
  · simp at h

theorem keeps_newTag (s : State) : Keeps s s.newTag.2 := keeps_of_cores rfl rfl

theorem keeps_sendSig (s : State) (t : Nat) (sg : BitVec 512) (d : Nat) : Keeps s (s.sendSig t sg d) := by
  unfold State.sendSig
  dsimp only
  split
  · exact keeps_newTag s
  · next h => exact ((keeps_newTag s).trans (keeps_send h)).trans (keeps_of_cores rfl rfl)

theorem keeps_ownRequest {s u : State} {t ty d addr : Nat} {opw : Dword} {data : List Flit} {what : RemoteFor}
    (h : s.ownRequest t ty d addr opw data what = some u) : Keeps s u := by
  obtain ⟨v, hv, rfl⟩ := Option.map_eq_some_iff.mp h
  exact ((keeps_newTag s).trans (keeps_send hv)).trans (keeps_of_cores rfl rfl)

theorem keeps_signLines (s : State) (t va n : Nat) : Keeps s (s.signLines t va n) :=
  (keeps_foldl _ _ (fun s c => keeps_giveSig s _ c) s).trans (keeps_foldl _ _ (fun s d => keeps_sendSig s t _ d) _)

theorem keeps_writeRoot {s u : State} {t va : Nat} {bs : List Byte} {what : RemoteFor} {far : Bool}
    (h : s.writeRoot t va bs what = .ok (u, far)) : Keeps s u := by
  unfold State.writeRoot at h
  split at h
  · simp at h
  · split at h
    · simp at h
    · simp only [Except.ok.injEq, Prod.mk.injEq] at h
      rw [← h.1]
      refine keeps_foldl _ _ (fun s e => ?_) s
      split
      · cases hr : s.ownRequest t 0x03 _ _ _ _ what with
        | none => exact Keeps.refl s
        | some u => exact keeps_ownRequest hr
      · exact keeps_writeHome s _ _

/-! ## Fault records -/

theorem keeps_takeSeq (s : State) (t : Nat) : Keeps s (s.takeSeq t).2 := keeps_of_cores rfl rfl

theorem keeps_raiseRecord (s : State) (t : Nat) (r : FaultRec) : Keeps s (s.raiseRecord t r) := by
  unfold State.raiseRecord
  split
  · exact keeps_of_cores rfl rfl
  · exact keeps_raiseVector s t 1

theorem keeps_recordWritten (s : State) (t : Nat) (r : FaultRec) : Keeps s (s.recordWritten t r) :=
  ((keeps_signLines s t _ 64).trans (keeps_updTenant _ t _)).trans (keeps_raiseRecord _ t r)

/-- An attempt to write a record leaves a state only where the record is written or sent. -/
theorem keeps_writeRecord {s u : State} {t : Nat} {r : FaultRec} (h : s.writeRecord t r = .written u ∨ s.writeRecord t r = .sent u) :
    Keeps s u := by
  unfold State.writeRecord at h
  dsimp only at h
  split at h
  · simp at h
  · split at h
    · simp at h
    · next hw =>
      simp only [reduceCtorEq, false_or, Posting.sent.injEq] at h
      exact h ▸ keeps_writeRoot hw
    · next hw =>
      simp only [reduceCtorEq, or_false, Posting.written.injEq] at h
      exact h ▸ (keeps_writeRoot hw).trans (keeps_recordWritten _ t r)

theorem keeps_postRecord (s : State) (t : Nat) (b : Bool) (r : FaultRec) : Keeps s (s.postRecord t b r) := by
  have attempt : ∀ u, ((if (s.tenant t).fq.held.isEmpty then s.writeRecord t r else .kept) = .written u
      ∨ (if (s.tenant t).fq.held.isEmpty then s.writeRecord t r else .kept) = .sent u) → Keeps s u := by
    intro u hu
    split at hu
    · exact keeps_writeRecord hu
    · simp at hu
  unfold State.postRecord
  dsimp only
  split
  · next hw => exact attempt _ (.inl hw)
  · next hw => exact (attempt _ (.inr hw)).trans (keeps_updTenant _ t _)
  · exact keeps_ite (keeps_updTenant s t _) (keeps_ite (keeps_updTenant s t _) (keeps_updTenant s t _))

theorem keeps_postEvent (s : State) (t : Nat) (r : FaultRec) : Keeps s (s.postEvent t r) :=
  (keeps_takeSeq s t).trans (keeps_postRecord _ t false _)

theorem keeps_remoteRecord (s : State) (t : Nat) (what : RemoteFor) (va code cause : Nat) :
    Keeps s (s.remoteRecord t what va code cause) := keeps_postEvent s t _

theorem keeps_lostStore (s : State) (b tid : Nat) (pc : Dword) (c va : Nat) : Keeps s (s.lostStore b tid pc c va) := by
  unfold State.lostStore
  split
  · exact Keeps.refl s
  · exact keeps_postEvent s _ _

/-! ## Effects and events of a turn -/

theorem keeps_addEffect (s : State) (b tid : Nat) (pc : Dword) (e : EffKind) : Keeps s (s.addEffect b tid pc e) := by
  unfold State.addEffect
  split
  · exact Keeps.refl s
  · exact keeps_updGrid s _ _

theorem keeps_threadEvent (s : State) (b tid : Nat) (code : Byte) (pc : Dword) : Keeps s (s.threadEvent b tid code pc) := by
  unfold State.threadEvent
  split
  · exact Keeps.refl s
  · split
    · exact Keeps.refl s
    · exact keeps_ite (keeps_updGrid s _ _) (keeps_addEffect s b tid pc _)

theorem keeps_noteAccess {s u : State} {b tid : Nat} {pc : Dword} {sec : Nat} {st : Bool}
    (h : s.noteAccess b tid pc sec st = .ok u) : Keeps s u := by
  unfold State.noteAccess State.noteAccessAt at h
  split at h
  · split at h
    · exact Except.ok.inj h ▸ Keeps.refl s
    · split at h
      · simp at h
      · exact Except.ok.inj h ▸ (show Keeps s (s.setBlock b _) from keeps_of_cores rfl rfl).trans (keeps_updGrid _ _ _)
  · exact Except.ok.inj h ▸ Keeps.refl s

/-! ## Translation -/

theorem keeps_makeRoom (s : State) (site : Nat) : Keeps s (s.makeRoom site) :=
  keeps_ite (Keeps.refl s) (keeps_of_cores rfl rfl)

theorem keeps_fillSite (s : State) (site t : Nat) (l : Leaf) : Keeps s (s.fillSite site t l) := by
  refine keeps_ite (Keeps.refl s) (Keeps.trans (t := { s.makeRoom site with tlb := (s.makeRoom site).tlb ++ [⟨site, t, l⟩] })
    ((keeps_makeRoom s site).trans (keeps_of_cores rfl rfl)) (keeps_foldl _ _ (fun s p => ?_) _))
  exact keeps_ite (Keeps.refl s) ((keeps_makeRoom s site).trans (keeps_of_cores rfl rfl))

theorem keeps_fillTlb (s : State) (site t : Nat) (l : Leaf) : Keeps s (s.fillTlb site t l) :=
  keeps_foldl _ _ (fun s n => keeps_fillSite s n t l) s

/-! ## Requests and writes at the home -/

theorem keeps_request (s : State) (t ty d scope addr : Nat) (opw : Dword) (inl : BitVec 256) (data : List Flit) (what : RemoteFor) :
    Keeps s (s.request t ty d scope addr opw inl data what).1 := by
  unfold State.request
  dsimp only
  split
  · next h => exact ((keeps_newTag s).trans (keeps_send h)).trans (keeps_of_cores rfl rfl)
  · exact (keeps_newTag s).trans (keeps_remoteRecord _ t what _ _ _)

theorem keeps_dropProxy (s : State) (t va n : Nat) : Keeps s (s.dropProxy t va n) := keeps_of_cores rfl rfl

theorem keeps_noteWritten (s : State) (c t va : Nat) : Keeps s (s.noteWritten c t va) :=
  keeps_updCore s c _ fun k => by split <;> rfl

theorem keeps_storeHome (s : State) (who : Option Site) (t va : Nat) (h : HomeAt) (bs : List Byte) :
    Keeps s (s.storeHome who t va h bs) := by
  unfold State.storeHome
  split
  · exact keeps_postEvent s t _
  · exact keeps_postEvent s t _
  · refine Keeps.trans ?_ (keeps_writeHome _ h bs)
    split
    · exact keeps_of_cores rfl rfl
    · exact Keeps.refl s

theorem keeps_writeBack (s : State) (x : CacheSector) : Keeps s (s.writeBack x) := by
  refine keeps_ite (Keeps.refl s) ?_
  split
  · exact keeps_foldl _ _ (fun s r => (keeps_dropProxy s _ _ _).trans (keeps_request _ _ _ _ _ _ _ _ _ _)) s
  · exact keeps_storeHome s _ _ _ _ _

theorem keeps_flushCore (s : State) (c : Nat) : Keeps s (s.flushCore c) := by
  unfold State.flushCore
  exact (keeps_foldl _ _ keeps_writeBack s).trans (keeps_updCore _ c _ fun _ => rfl)

theorem keeps_syncSector (s : State) (c t va : Nat) : Keeps s (s.syncSector c t va) := by
  unfold State.syncSector
  split
  · exact Keeps.refl s
  · exact (keeps_writeBack s _).trans (keeps_updCore _ c _ fun _ => rfl)

/-! ## Buffered reductions -/

theorem keeps_raiseLive (s : State) (ths : List (Nat × Nat)) (fl : Flags) : Keeps s (s.raiseLive ths fl) :=
  keeps_foldl ths _ (fun s e => keeps_updThread s e.1 e.2 _) s

theorem keeps_foldRed (s : State) (c : Nat) (r : RedEntry) : Keeps s (s.foldRed c r) := by
  have h := (keeps_noteWritten s c r.tenant r.va).trans (keeps_dropProxy _ r.tenant r.va (atomBytes r.fmt))
  refine h.trans ?_
  unfold State.foldRed
  dsimp only
  split
  · exact keeps_request _ _ _ _ _ _ _ _ _ _
  · split
    · exact keeps_postEvent _ _ _
    · exact (keeps_storeHome _ _ _ _ _ _).trans (keeps_raiseLive _ _ _)

theorem keeps_flushReds (s : State) (c : Nat) (p : RedEntry → Bool) : Keeps s (s.flushReds c p) := by
  unfold State.flushReds
  refine (keeps_updCore s c _ ?_).trans (keeps_foldl _ _ (fun s r => keeps_foldRed s c r) _)
  exact fun _ => rfl

theorem keeps_flushAt (s : State) (h : HomeAt) (n : Nat) : Keeps s (s.flushAt h n) :=
  keeps_foldl _ _ (fun s c => keeps_flushReds s c _) s

theorem keeps_bufferRed (s : State) (c g t : Nat) (who : Site) (va : Nat) (h : HomeAt) (op : AOp) (fmt : Fmt) (uns : Bool)
    (v : Dword) (scope : Nat) : Keeps s (s.bufferRed c g t who va h op fmt uns v scope) := by
  unfold State.bufferRed
  dsimp only
  split
  · exact keeps_updCore s c _ fun _ => rfl
  · refine keeps_ite (keeps_updCore s c _ fun _ => rfl) ((keeps_updCore s c _ ?_).trans (keeps_updThread _ _ _ _))
    exact fun _ => rfl

theorem keeps_redsToTurn (s : State) (b tid : Nat) (pc : Dword) (k : Block) (p : RedEntry → Bool) :
    Keeps s (s.redsToTurn b tid pc k p) := by
  unfold State.redsToTurn
  refine (keeps_updCore s k.core _ ?_).trans (keeps_foldl _ _ (fun s r => keeps_addEffect s b tid pc _) _)
  exact fun _ => rfl

theorem keeps_closeReds (s : State) (b tid : Nat) (pc : Dword) (h : HomeAt) (n : Nat) : Keeps s (s.closeReds b tid pc h n) := by
  unfold State.closeReds
  split
  · exact Keeps.refl s
  · exact keeps_ite (keeps_flushReds s _ _) (keeps_redsToTurn s b tid pc _ _)

/-! ## Releases and acquires -/

theorem keeps_sendHome (s : State) (c g : Nat) : Keeps s (s.sendHome c g) := (keeps_flushCore s c).trans (keeps_flushReds _ c _)

theorem keeps_signNear (s : State) (c cl scope : Nat) : Keeps s (s.signNear c cl scope) := by
  unfold State.signNear
  dsimp only
  refine Keeps.trans ?_ (keeps_ite (keeps_updCore _ c _ fun _ => rfl) (Keeps.refl _))
  exact (keeps_flushCore s c).trans (keeps_foldl _ _ (fun s d => keeps_giveSig s _ d) _)

theorem keeps_signCores (s : State) (cs : List Nat) (t : Nat) : Keeps s (s.signCores cs t) := by
  unfold State.signCores
  refine Keeps.trans ?_ (keeps_foldl _ _ (fun s d => keeps_request s _ _ _ _ _ _ _ _ _) _)
  refine Keeps.trans ?_ (keeps_foldl _ _ (fun s c => keeps_giveSig s _ c) _)
  refine (keeps_foldl cs _ keeps_flushCore s).trans (keeps_foldl cs _ (fun s c => keeps_updCore s c _ ?_) _)
  exact fun _ => rfl

theorem keeps_stepRelease (s : State) (k : Block) (scope : Nat) (tags : List Word) (sent : Bool) :
    Keeps s (s.stepRelease k scope tags sent).1 := by
  unfold State.stepRelease
  dsimp only
  split
  · exact Keeps.refl s
  · split
    · exact Keeps.refl s
    · split
      · exact keeps_signNear s k.core k.cluster scope
      · dsimp only
        exact keeps_signCores s [k.core] k.tenant

theorem keeps_releaseAt (s : State) (b tid : Nat) (pc : Dword) (scope : Nat) : Keeps s (s.releaseAt b tid pc scope).1 := by
  unfold State.releaseAt
  split
  · exact Keeps.refl s
  · split
    · exact Keeps.refl s
    · split
      · exact (keeps_redsToTurn s b tid pc _ _).trans (keeps_addEffect _ b tid pc _)
      · exact (keeps_sendHome s _ _).trans (keeps_stepRelease _ _ _ _ _)

theorem fenceRelease_fst (s : State) (b tid : Nat) (pc : Dword) (scope : Nat) :
    (s.fenceRelease b tid pc scope).1 = (s.releaseAt b tid pc scope).1 := by
  unfold State.fenceRelease
  split <;> next h => rw [h]

theorem keeps_fenceRelease (s : State) (b tid : Nat) (pc : Dword) (scope : Nat) : Keeps s (s.fenceRelease b tid pc scope).1 :=
  fenceRelease_fst s b tid pc scope ▸ keeps_releaseAt s b tid pc scope

theorem keeps_acquireCore (s : State) (c : Nat) : Keeps s (s.acquireCore c) := by
  unfold State.acquireCore
  refine Keeps.trans (keeps_of_cores ?_ ?_) (keeps_updCore _ c _ fun _ => rfl)
  · rfl
  · rfl

theorem keeps_acquire (s : State) (b scope : Nat) : Keeps s (s.acquire b scope) := by
  unfold State.acquire
  split
  · exact keeps_ite (Keeps.refl s) (keeps_acquireCore s _)
  · exact Keeps.refl s

/-! ## Views -/

theorem keeps_markFar (s : State) (v d : Nat) : Keeps s (s.markFar v d) := by
  unfold State.markFar
  split
  · exact Keeps.refl s
  · exact keeps_ite (Keeps.refl s) (keeps_of_cores rfl rfl)

theorem keeps_capture {s u : State} {t v va : Nat} {x : Xl} (h : s.capture t v va x = some u) : Keeps s u := by
  unfold State.capture State.captureIn at h
  split at h
  · exact Option.some.inj h ▸ Keeps.refl s
  · split at h
    · exact Option.some.inj h ▸ Keeps.refl s
    · split at h
      · exact Option.some.inj h ▸ keeps_of_cores rfl rfl
      · simp at h

/-! ## Multicasts -/

theorem keeps_meetMcast (s : State) (t va n : Nat) : Keeps s (s.meetMcast t va n) := by
  unfold State.meetMcast
  dsimp only
  refine Keeps.trans (keeps_foldl _ _ (fun s c => keeps_foldl _ _ (fun s x => ?_) s) s) (keeps_foldl _ _ (fun s e => ?_) _)
  · split
    · exact keeps_ite (keeps_threadEvent s _ _ _ _) (Keeps.refl s)
    · exact Keeps.refl s
  · refine keeps_ite (Keeps.refl s) (keeps_foldl _ _ (fun s f => ?_) s)
    split
    · exact keeps_ite (keeps_threadEvent s _ _ _ _) (Keeps.refl s)
    · exact Keeps.refl s

theorem keeps_deliverMcs (s : State) (who : Option Site) (t va : Nat) (bs : List Byte) : Keeps s (s.deliverMcs who t va bs).1 := by
  unfold State.deliverMcs
  split
  · exact Keeps.refl s
  · split
    · exact Keeps.refl s
    · exact ((keeps_ite (keeps_meetMcast s t va _) (Keeps.refl s)).trans (keeps_fillTlb _ ownSite t _)).trans
        (keeps_storeHome _ who t va _ bs)

theorem keeps_applyMcs (s : State) (tree t va : Nat) (m : Msg) (bs : List Byte) (parent : Option (BitVec 10))
    (issuer : Option (Nat × Nat × Dword × Nat)) (later : Bool) : Keeps s (s.applyMcs tree t va m bs parent issuer later).1 := by
  unfold State.applyMcs
  dsimp only
  refine keeps_ite_fst (Keeps.refl s) ?_
  have here : Keeps s (if bitAt (Sparse.get Tree.none s.fabric.trees tree).bits.toNat 18 && !later then
      s.deliverMcs (issuer.map fun x => ⟨x.1, x.2.1, x.2.2.1⟩) t va bs else (s, 0)).1 :=
    keeps_ite_fst (keeps_deliverMcs s _ t va bs) (Keeps.refl s)
  refine here.trans ((keeps_newTag _).trans ?_)
  refine keeps_ite_fst (keeps_foldl _ _ (fun s p => keeps_toPort s p _) _) ?_
  exact (keeps_foldl _ _ (fun s p => keeps_toPort s p _) _).trans (keeps_of_cores rfl rfl)

theorem keeps_finishStmc (s : State) (t : Nat) (who : Site) (va st : Nat) (lost : Option Nat) :
    Keeps s (s.finishStmc t who va st lost) := keeps_ite (Keeps.refl s) (keeps_postEvent s t _)

theorem keeps_multicast (s : State) (b tid : Nat) (pc : Dword) (core t tree va : Nat) (bs : List Byte) :
    Keeps s (s.multicast b tid pc core t tree va bs) := by
  unfold State.multicast
  dsimp only
  have h := ((keeps_newTag s).trans (keeps_syncSector s.newTag.2 core t va)).trans (keeps_noteWritten _ core t va)
  have h := h.trans (keeps_applyMcs _ tree t va (mkMsg 0x08 s.newTag.2.fabric.devid (BitVec.ofNat 10 tree) t 4 va s.newTag.1
    (BitVec.ofNat 64 (bs.length * 2 ^ 16)) 0 (flitsOf bs)) bs none (some (b, tid, pc, va)) false)
  exact h.trans (keeps_ite (keeps_finishStmc _ t _ va _ _) (keeps_of_cores rfl rfl))

/-! ## Instructions run over their lanes -/

/-- A lane that is parked leaves the clause, and nothing that keeps it has changed otherwise. -/
theorem leaves_park {i j : Issue} {l : Lane} {s t : State} (h : Keeps s t) (hg : Good j s) (rpos : Nat) (st : TStatus) :
    Leaves j l s (t.park i l.tid rpos st) := by
  refine ⟨?_, .inr (.inr ?_)⟩
  · exact good_of_cores (t := t.stand i l.tid rpos st) (good_updThread (h.good hg) _ _ _) rfl
  · simp only [State.park, State.dropLane, State.stand, State.updThread_issue, h.issue]

theorem issue_pauseAt (s : State) (i : Issue) (l : Lane) (rpos : Nat) (st : TStatus) : (s.pauseAt i l rpos st).issue = none := by
  unfold State.pauseAt
  split
  · next h => exact h
  · rfl

section
variable {s : State} {i : Issue} {k : Block} {ins : Instr} {F : State → Issue → Lane → LaneOut}
  {P Q : State → Lane → Prop} {f g : State → Lane → State}

/-- What a lane that is done leaves, where its effect keeps the clause. -/
theorem settled_done {n : Nat} {t : State} {l : Lane} (hc : instrCeiling ins ≠ 0) (hp : l.pred = true) (hg : t.gate i l ins = none)
    (hgood : Good i t) (hd : F t i l = .done (f t l)) (hk : Keeps t (f t l)) :
    (t.settleLane i l n (gated ins F t i l)).1 = f t l
      ∧ ((t.settleLane i l n (gated ins F t i l)).2 && instrOrders ins) = false ∧ Leaves i l t (f t l) := by
  rw [gated_done hc hg hp, hd]
  exact ⟨rfl, rfl, hk.leaves hgood⟩

/-- An instruction does what each of its lanes does that is done. -/
theorem does_of_done (h : Issuing s i k) (he : exec ins s = .next (s.runLanes ins F)) (hc : instrCeiling ins ≠ 0)
    (hF : ∀ t l, P t l → F t i l = .done (f t l) ∧ Keeps t (f t l)) : Does s i ins P f :=
  does_of_runLanes h he fun t l _ _ hp hg hgood hP => settled_done hc hp hg hgood (hF t l hP).1 (hF t l hP).2

/-- An instruction at which each lane waits by itself. -/
theorem does_of_parked (h : Issuing s i k) (he : exec ins s = .next (s.runLanes ins F)) (hc : instrCeiling ins ≠ 0)
    (hF : ∀ t l, P t l → ∃ u w, F t i l = .wait u w ∧ w.pauses (u.dl0 i.block) = false ∧ Keeps t u
      ∧ f t l = u.park i l.tid (i.pos + wordsOf ins) (.waiting w)) : Does s i ins P f := by
  refine does_of_runLanes h he fun t l _ _ hp hg hgood hP => ?_
  obtain ⟨u, w, hw, hpause, hk, hf⟩ := hF t l hP
  rw [gated_done hc hg hp, hw, hf]
  simp only [State.settleLane, hpause, Bool.false_eq_true, if_false, Bool.false_and, true_and]
  exact leaves_park hk hgood _ _

/-- An instruction that stops its clause at a lane that waits, after lanes that are done. -/
theorem stops_of_paused (h : Issuing s i k) (he : exec ins s = .next (s.runLanes ins F)) (hc : instrCeiling ins ≠ 0)
    (hF : ∀ t l, P t l → F t i l = .done (f t l) ∧ Keeps t (f t l))
    (hG : ∀ t l, Q t l → ∃ u w, F t i l = .wait u w ∧ w.pauses (u.dl0 i.block) = true
      ∧ g t l = u.pauseAt i l (i.pos + wordsOf ins) (.waiting w)) : Stops s i ins P f Q g := by
  intro ls l rest hl hs hp ha hgate hQ
  rw [he]
  refine congrArg _ (stops_runLanes h.clause h.lanes h.good
    (fun t l _ _ hp hg hgood hP => settled_done hc hp hg hgood (hF t l hP).1 (hF t l hP).2) (fun t l _ hp hg _ hQ => ?_)
    hl hs hp ha hgate hQ)
  obtain ⟨u, w, hw, hpause, hgl⟩ := hG t l hQ
  rw [gated_done hc hg hp, hw, hgl]
  simp only [State.settleLane, hpause, if_true]
  exact ⟨trivial, issue_pauseAt u i l _ _⟩

end

end Sys2Proof.Machine
end

section
/-! SUPPORT. STMC (R334): what one lane does, and a multicast that its device delivers alone (R46). -/

namespace Sys2Proof.Machine

/-- A block that holds no view and is not frozen, whose STMC passes its checks: it is held above DL0, and sent at DL0. -/
theorem stmcLane_of_passes {s s' : State} {i : Issue} {l : Lane} {w : Width} {d a b : Reg} {k : Block} {g : Grid} {x : Xl}
    (htree : ((s.thread i.block l.tid).reg b.toNat).toNat < 2 ^ 8)
    (halign : addrOf (s.thread i.block l.tid) a % min (4 * 2 ^ w.toNat) 32 = 0)
    (hk : s.block? i.block = some k) (hg : s.gridOf i.block = some g) (hfork : k.fork = none) (hview : k.vtag = 0)
    (hx : s.xlate k.core k.tenant (addrOf (s.thread i.block l.tid) a) .wr = .ok x) (hkind : x.leaf.kind = .local)
    (hdomain : x.leaf.domain ≠ 0)
    (hnote : s.noteAccess i.block l.tid i.at (addrOf (s.thread i.block l.tid) a / 64) true = .ok s') :
    let va := addrOf (s.thread i.block l.tid) a
    let tree := ((s.thread i.block l.tid).reg b.toNat).toNat
    let bs := natToBytes (4 * 2 ^ w.toNat) ((s.thread i.block l.tid).groupNat d.toNat (2 ^ w.toNat))
    let s₁ := (s'.fillTlb k.core k.tenant x.leaf).closeReds i.block l.tid i.at x.home (4 * 2 ^ w.toNat)
    stmcLane w d a b s i l = .done (if g.dl ≠ 0 then
        s₁.addEffect i.block l.tid i.at (.mcast tree va bs (s₁.deliversHere k.tenant tree))
      else (if s₁.dirtyMeets k.tenant va (4 * 2 ^ w.toNat) then s₁.threadEvent i.block l.tid 0x0A i.at else s₁).multicast
        i.block l.tid i.at k.core k.tenant tree va bs) := by
  have hfrozen : k.frozen = false := by simp [Block.frozen, hfork]
  unfold stmcLane
  simp only [State.laneThread, Nat.not_le.mpr htree, halign, hk, hg, hfrozen, hview, hx, hkind, hdomain, hnote, if_false, bne_self_eq_false,
    Bool.false_eq_true, Bool.false_or, decide_false]
  by_cases hdl : g.dl = 0
  · rw [if_neg (by simp [hdl]), if_neg (by simp [hdl])]
    rfl
  · rw [if_pos (by simpa using hdl), if_pos hdl]

/-- The delivery of a multicast of this device's own thread on a page that admits it is its store at the home. -/
theorem deliverMcs_own {s : State} {who : Site} {t va : Nat} {bs : List Byte} {x : Xl} (hx : s.pageHere t va 4 .wr = .ok x)
    (hlost : s.lostHome x.home bs.length = none) :
    s.deliverMcs (some who) t va bs = ((s.fillTlb ownSite t x.leaf).storeHome (some who) t va x.home bs, 0) := by
  simp [State.deliverMcs, hx, hlost]

/-- A tree that delivers here and names no port: the delivery, under a tag that nobody answers to. -/
theorem applyMcs_alone {s u : State} {tree t va : Nat} {m : Msg} {bs : List Byte} {who : Nat × Nat × Dword × Nat}
    (hvalid : (Sparse.get Tree.none s.fabric.trees tree).bits.toNat.testBit 19 = true)
    (hhere : (Sparse.get Tree.none s.fabric.trees tree).bits.toNat.testBit 18 = true)
    (htenant : (Sparse.get Tree.none s.fabric.trees tree).bits.toNat / 2 ^ 20 % 2 ^ 6 = t)
    (hports : (Sparse.get Tree.none s.fabric.trees tree).bits.toNat % 2 ^ 18 = 0)
    (hu : s.deliverMcs (some ⟨who.1, who.2.1, who.2.2.1⟩) t va bs = (u, 0)) :
    s.applyMcs tree t va m bs none (some who) false = (u.newTag.2, 0, none, none, true) := by
  unfold State.applyMcs
  generalize (Sparse.get Tree.none s.fabric.trees tree).bits.toNat = e at *
  have hnone : (List.range 18).filter (fun p => bitAt e p) = [] := by
    refine List.filter_eq_nil_iff.mpr fun p hp => ?_
    have hbit := Nat.testBit_mod_two_pow e 18 p
    rw [hports, Nat.zero_testBit] at hbit
    simpa [bitAt, List.mem_range.mp hp] using hbit.symm
  have hvalid' : bitAt e 19 = true := hvalid
  have hhere' : bitAt e 18 = true := hhere
  have htenant' : bitsAt e 20 6 = t := htenant
  simp [hvalid', hhere', htenant', hu, hnone]

/-- Settles O20: both halves are the lane's equation, and that of a tree without ports. -/
theorem multicastStores : Obligations.MulticastStores := by
  refine ⟨fun s i k h w d a b => ?_, ?_⟩
  · dsimp only
    refine ⟨does_of_done h rfl (by simp [instrCeiling]) ?_, does_of_done h rfl (by simp [instrCeiling]) ?_⟩
    all_goals rintro t l ⟨x, s', htree, halign, ⟨k', g, hk, ht, hc, hfork, hview, hg, hdl⟩, hx, hkind, hdomain, hnote⟩
    all_goals
      have hdone := stmcLane_of_passes (d := d) htree halign hk hg hfork hview (by rw [hc, ht]; exact hx) hkind hdomain hnote
      have hkeeps := ((keeps_noteAccess hnote).trans (keeps_fillTlb s' k.core k.tenant x.leaf)).trans
        (keeps_closeReds _ i.block l.tid i.at x.home (4 * 2 ^ w.toNat))
      simp only [hx, hnote]
      dsimp only at hdone
      rw [hc, ht] at hdone
    · have hdl' : g.dl = 0 := BitVec.eq_of_toNat_eq hdl
      rw [if_neg (not_not.mpr hdl')] at hdone
      exact ⟨hdone, hkeeps.trans ((keeps_ite (keeps_threadEvent _ _ _ _ _) (Keeps.refl _)).trans (keeps_multicast _ _ _ _ _ _ _ _ _))⟩
    · have hdl' : g.dl ≠ 0 := fun h0 => by simp [h0] at hdl
      rw [if_pos hdl'] at hdone
      exact ⟨hdone, hkeeps.trans (keeps_addEffect _ _ _ _ _)⟩
  · intro s b tid core t tree va pc bs x e s₁ hvalid hhere htenant hports hx hlost htrees
    have hu := applyMcs_alone (s := s₁) (m := mkMsg 0x08 s.newTag.2.fabric.devid (BitVec.ofNat 10 tree) t 4 va s.newTag.1
      (BitVec.ofNat 64 (bs.length * 2 ^ 16)) 0 (flitsOf bs)) (who := (b, tid, pc, va)) (by rw [htrees]; exact hvalid)
      (by rw [htrees]; exact hhere) (by rw [htrees]; exact htenant) (by rw [htrees]; exact hports) (deliverMcs_own hx hlost)
    unfold State.multicast
    simp only [s₁] at hu ⊢
    rw [hu]
    simp [State.finishStmc]

end Sys2Proof.Machine
end


section
/-! SUPPORT. RED, FENCE, DISCARD and PREF (R330 to R333): what they leave alone, and what one lane of each does. -/

namespace Sys2Proof.Machine

/-! ## The checks of a write, and what is asked of other devices -/

theorem keeps_checkWrite {s u : State} {b tid : Nat} {pc : Dword} {va n : Nat} {atomic store : Bool} {access : Nat}
    {page : Leaf → Option Trap} {x : Xl} {path : StorePath}
    (h : s.checkWrite b tid pc va n atomic store access page = .ok (u, x, path)) : Keeps s u := by
  unfold State.checkWrite at h
  split at h
  · simp at h
  · split at h
    · simp at h
    · split at h
      · simp at h
      · split at h
        · simp at h
        · split at h
          · simp at h
          · split at h
            · simp at h
            · split at h
              · simp at h
              · next hnote =>
                have hu : _ = u := congrArg Prod.fst (Except.ok.inj h)
                exact hu ▸ (keeps_noteAccess hnote).trans (keeps_fillTlb _ _ _ _)

/-- What a write has passed whose checks hold: its block is not frozen, and its address translates. -/
theorem xlate_of_checkWrite {s u : State} {b tid : Nat} {pc : Dword} {va n : Nat} {atomic store : Bool} {access : Nat}
    {page : Leaf → Option Trap} {x : Xl} {path : StorePath}
    (h : s.checkWrite b tid pc va n atomic store access page = .ok (u, x, path)) :
    s.frozenAt b = false ∧ s.laneXlate b tid va .wr = .ok x := by
  unfold State.checkWrite at h
  split at h
  · simp at h
  · next k hk =>
    split at h
    · simp at h
    · next hf =>
      split at h
      · simp at h
      · next y hy =>
        have hx : x = y := by
          split at h
          · simp at h
          · split at h
            · simp at h
            · split at h
              · simp at h
              · split at h
                · simp at h
                · exact (congrArg (·.2.1) (Except.ok.inj h)).symm
        simp [State.frozenAt, hk, hf, hx, hy]

theorem walkLost_of_xlate {s : State} {b tid va : Nat} {want : Want} {x : Xl} (h : s.laneXlate b tid va want = .ok x) :
    s.walkLost b tid va want = none := by
  unfold State.walkLost
  rw [h]
  split <;> rfl

/-- A lane that has nothing to ask of another device. -/
theorem askFirst_untested {s : State} {b tid va access scope : Nat} {want : Want} {opw : Option Dword} {nf : Bool}
    {f : State → LaneOut} (h : s.untested b tid va want = none) : s.askFirst b tid va want access scope opw nf f = f s := by
  simp [State.askFirst, State.askPage, h]

/-- A lane whose block may write, and whose request about a page of another device leaves, waits for the answer. -/
theorem askFirst_asks {s : State} {b tid va access scope dev ra : Nat} {opw : Dword} {nf : Bool} {f : State → LaneOut}
    (hf : s.frozenAt b = false) (hu : s.untested b tid va .wr = some (dev, ra))
    (hr : (s.request (s.tenantOf b) 0x05 dev scope ra opw 0 [] (.test b tid access va nf)).2 = true) :
    s.askFirst b tid va .wr access scope (some opw) nf f
      = .wait (s.request (s.tenantOf b) 0x05 dev scope ra opw 0 [] (.test b tid access va nf)).1
          (.remote (s.request (s.tenantOf b) 0x05 dev scope ra opw 0 [] (.test b tid access va nf)).1.fabric.tagCtr) := by
  have hk : ∃ k, s.block? b = some k := by
    cases hk : s.block? b with
    | none => simp [State.untested, State.laneXlate, hk] at hu
    | some k => exact ⟨k, rfl⟩
  obtain ⟨k, hk⟩ := hk
  have ht : s.tenantOf b = k.tenant := by simp [State.tenantOf, hk]
  rw [ht] at hr ⊢
  have hpage : s.askPage b tid va .wr access scope (some opw) nf
      = ((s.request k.tenant 0x05 dev scope ra opw 0 [] (.test b tid access va nf)).1,
        some (s.request k.tenant 0x05 dev scope ra opw 0 [] (.test b tid access va nf)).1.fabric.tagCtr) := by
    unfold State.askPage
    rw [hu, hk]
    exact if_pos hr
  simp [State.askFirst, hf, hpage]

theorem laneXlate_of_untested {s : State} {b tid va : Nat} {want : Want} {p : Nat × Nat} (h : s.untested b tid va want = some p) :
    ∃ x, s.laneXlate b tid va want = .ok x := by
  unfold State.untested at h
  split at h
  · simp at h
  · split at h
    · next x hx => exact ⟨x, hx⟩
    · simp at h

/-- A lane that has asked first and is done all the same had nothing to ask. -/
theorem askFirst_done {s u : State} {b tid va access scope : Nat} {want : Want} {opw : Option Dword} {nf : Bool}
    {f : State → LaneOut} (h : s.askFirst b tid va want access scope opw nf f = .done u) : f s = .done u := by
  unfold State.askFirst at h
  split at h
  · exact h
  · split at h
    · simp at h
    · exact h

/-- In the root view no slot is asked for. -/
theorem askSlot_root {s : State} {b tid va access : Nat} {k : Block} {h : HomeAt} (hv : k.vtag = 0) :
    s.askSlot b tid va access k h = (s, none) := by
  cases h <;> simp [State.askSlot, hv]

theorem eq_of_askSlot {s u : State} {b tid va access : Nat} {k : Block} {h : HomeAt}
    (hs : s.askSlot b tid va access k h = (u, none)) : u = s := by
  unfold State.askSlot at hs
  split at hs
  · split at hs
    · exact (congrArg Prod.fst hs).symm
    · dsimp only at hs
      split at hs
      · simp at hs
      · exact (congrArg Prod.fst hs).symm
  · exact (congrArg Prod.fst hs).symm

theorem capture_root (s : State) (t va : Nat) (x : Xl) : s.capture t 0 va x = some s := rfl

/-! ## RED -/

theorem keeps_writeSlot (s : State) (t v va : Nat) (bs : List Byte) : Keeps s (s.writeSlot t v va bs) := keeps_of_cores rfl rfl

theorem keeps_sendAtomic (s : State) (c t v va d a scope : Nat) (opw : Dword) (x y : Nat) (what : RemoteFor) :
    Keeps s (s.sendAtomic c t v va d a scope opw x y what).1 := by
  unfold State.sendAtomic
  refine Keeps.trans ?_ (keeps_request _ _ _ _ _ _ _ _ _ _)
  refine keeps_ite (keeps_markFar s v d) (Keeps.trans ?_ (keeps_dropProxy _ t va 8))
  split
  · exact Keeps.refl s
  · exact keeps_noteWritten s c t va

theorem keeps_atomicAt (s : State) (who : Site) (c t v va : Nat) (h : HomeAt) (op : AOp) (fmt : Fmt) (uns : Bool) (x y : Nat) :
    Keeps s (s.atomicAt who c t v va h op fmt uns x y).1 := by
  unfold State.atomicAt
  dsimp only
  have home : Keeps s (if v = 0 then ((s.syncSector c t va).flushAt h (atomBytes fmt)).fillHost h true else s) :=
    keeps_ite (((keeps_syncSector s c t va).trans (keeps_flushAt _ h _)).trans (keeps_fillHost _ h true)) (Keeps.refl s)
  refine home.trans (keeps_ite (Keeps.refl _) (keeps_ite ?_ (keeps_writeSlot _ t v va _)))
  exact (keeps_noteWritten _ c t va).trans (keeps_storeHome _ _ t va h _)

theorem keeps_raiseIn (s : State) (b tid : Nat) (fl : Flags) : Keeps s (s.raiseIn b tid fl) :=
  keeps_ite (Keeps.refl s) (keeps_updThread s b tid _)

theorem keeps_holdRed (s : State) (k : Block) (b tid va : Nat) (op : AOp) (fmt : Fmt) (v : Dword) :
    Keeps s (s.holdRed k b tid va op fmt v) := by
  unfold State.holdRed
  split
  · exact Keeps.refl s
  · split
    · exact keeps_of_cores rfl rfl
    · exact (show Keeps s (s.setGrid k.grid _) from keeps_of_cores rfl rfl).trans (keeps_updThread _ b tid _)

theorem keeps_redAt (s : State) (i : Issue) (l : Lane) (k : Block) (g : Grid) (x : Xl) (va scope : Nat) (op : AOp) (fmt : Fmt)
    (uns : Bool) (v : Dword) : Keeps s (s.redAt i l k g x va scope op fmt uns v) := by
  unfold State.redAt
  split
  · exact keeps_lostStore s _ _ _ _ _
  · split
    · refine keeps_ite (keeps_addEffect s _ _ _ _) ?_
      split
      · exact keeps_sendAtomic _ _ _ _ _ _ _ _ _ _ _ _
      · exact (keeps_atomicAt _ _ _ _ _ _ _ _ _ _ _ _).trans (keeps_raiseIn _ _ _ _)
    · refine keeps_ite (keeps_holdRed s _ _ _ _ _ _ _) ?_
      exact ((keeps_syncSector s _ _ va).trans (keeps_dropProxy _ _ va _)).trans (keeps_bufferRed _ _ _ _ _ _ _ _ _ _ _ _)

theorem keeps_checkRed {s u : State} {i : Issue} {l : Lane} {k : Block} {g : Grid} {va : Nat} {scope : Scope} {op : AOp}
    {fmt : Fmt} {uns : Bool} {x : Xl} (h : s.checkRed i l k g va scope op fmt uns = .ok (u, x)) : Keeps s u := by
  have write : ∀ {page}, (s.checkWrite i.block l.tid i.at va (atomBytes fmt) true true 2 page).map (fun r => (r.1, r.2.1))
      = .ok (u, x) → Keeps s u := by
    intro page hm
    cases hc : s.checkWrite i.block l.tid i.at va (atomBytes fmt) true true 2 page with
    | error t => rw [hc] at hm; cases hm
    | ok r =>
      rw [hc] at hm
      have hu : r.1 = u := congrArg Prod.fst (Except.ok.inj hm)
      exact hu ▸ keeps_checkWrite (path := r.2.2) (x := r.2.1) hc
  unfold State.checkRed at h
  cases hx : s.laneXlate i.block l.tid va .wr with
  | error e =>
    simp only [hx, Bool.false_and, Bool.false_eq_true, if_false] at h
    exact write h
  | ok y =>
    simp only [hx] at h
    split at h
    · split at h
      · cases h
      · split at h
        · cases h
        · have hu : _ = u := congrArg Prod.fst (Except.ok.inj h)
          exact hu ▸ keeps_fillTlb s _ _ _
    · exact write h

/-- A RED that is done keeps the clause. -/
theorem keeps_redLane {w : Width} {a b : Reg} {scope : Scope} {op : AOp} {fmt : Fmt} {uns : Bool} {s u : State} {i : Issue}
    {l : Lane} (h : redLane w a b scope op fmt uns s i l = .done u) : Keeps s u := by
  unfold redLane at h
  dsimp only at h
  split at h
  · simp at h
  · split at h
    · exact LaneOut.done.inj h ▸ keeps_lostStore s _ _ _ _ _
    · have h := askFirst_done h
      split at h
      · split at h
        · simp at h
        · next hcheck =>
          have hk := keeps_checkRed hcheck
          split at h
          · simp at h
          · next hslot =>
            rw [eq_of_askSlot hslot] at h
            split at h
            · simp at h
            · next hcap =>
              refine LaneOut.done.inj h ▸ (hk.trans ?_).trans (keeps_redAt _ _ _ _ _ _ _ _ _ _ _ _)
              split at hcap
              · exact Option.some.inj hcap ▸ Keeps.refl _
              · exact keeps_capture hcap
      · exact LaneOut.done.inj h ▸ Keeps.refl s
end Sys2Proof.Machine
end

section
/-! SUPPORT. What a RED does (R330): a lane of the root view. -/

namespace Sys2Proof.Machine

/-- A translation that is cached loses no unit and moves no window. -/
theorem fillTlb_pkg_tenants (s : State) (site t : Nat) (l : Leaf) :
    (s.fillTlb site t l).pkg = s.pkg ∧ (s.fillTlb site t l).tenants = s.tenants := by
  have room : ∀ (s : State) n, (s.makeRoom n).pkg = s.pkg ∧ (s.makeRoom n).tenants = s.tenants := by
    intro s n
    unfold State.makeRoom
    dsimp only
    split <;> exact ⟨rfl, rfl⟩
  have fold : ∀ {α : Type} (xs : List α) (f : State → α → State),
      (∀ s a, (f s a).pkg = s.pkg ∧ (f s a).tenants = s.tenants) → ∀ s, (xs.foldl f s).pkg = s.pkg ∧ (xs.foldl f s).tenants = s.tenants := by
    intro α xs f h
    induction xs with
    | nil => exact fun s => ⟨rfl, rfl⟩
    | cons a xs ih => exact fun s => ⟨(ih _).1.trans (h s a).1, (ih _).2.trans (h s a).2⟩
  refine fold _ _ (fun s n => ?_) s
  unfold State.fillSite
  split
  · exact ⟨rfl, rfl⟩
  · obtain ⟨hp, ht⟩ := fold (s.pathFrom n t (if l.kind == .remote then l.base else l.base % 2 ^ 53) ((s.tenant t).root.toNat * 2 ^ 13)
      [44, 35, 26, 17]).reverse (fun s p => if s.tlbPtrs.contains p then s else
        { s.makeRoom n with tlbPtrs := p :: (s.makeRoom n).tlbPtrs })
      (fun s p => by
        split
        · exact ⟨rfl, rfl⟩
        · exact room s n)
      { s.makeRoom n with tlb := (s.makeRoom n).tlb ++ [⟨n, t, l⟩] }
    exact ⟨hp.trans (room s n).1, ht.trans (room s n).2⟩

/-- Whether a home is lost depends on the package and on the windows of the tenants. -/
theorem lostHome_congr {s u : State} (hp : u.pkg = s.pkg) (ht : u.tenants = s.tenants) (h : HomeAt) (n : Nat) :
    u.lostHome h n = s.lostHome h n := by
  cases h with
  | dev pa =>
    simp only [State.lostHome, State.lostIn, State.lostAt, State.stackOf, State.homeDie, hp]
    rfl
  | host t win top off =>
    simp only [State.lostHome, State.homeDie, State.hostAddr, State.tenant, hp, ht]
    rfl
  | remote d a => rfl
  | view v => rfl

theorem lostHome_fillTlb (s : State) (site t : Nat) (l : Leaf) (h : HomeAt) (n : Nat) :
    (s.fillTlb site t l).lostHome h n = s.lostHome h n :=
  lostHome_congr (fillTlb_pkg_tenants s site t l).1 (fillTlb_pkg_tenants s site t l).2 h n

theorem atomBytes_eq (fmt : Fmt) : atomBytes fmt = if fmt = .int64 ∨ fmt = .fp64 then 8 else 4 := by
  cases fmt <;> rfl

/-- Below DL2 a RED is checked as any write is. -/
theorem checkRed_low {s : State} {i : Issue} {l : Lane} {k : Block} {g : Grid} {va : Nat} {scope : Scope} {op : AOp} {fmt : Fmt}
    {uns : Bool} (hdl : g.dl.toNat ≤ 1) : s.checkRed i l k g va scope op fmt uns
      = (s.checkWrite i.block l.tid i.at va (atomBytes fmt) true true 2 (redPageFault scope op fmt uns va)).map fun r => (r.1, r.2.1) := by
  have hd : ¬ 2 ≤ g.dl.toNat := by omega
  simp [State.checkRed, hd]

/-- On a reduction page at DL2 and above a RED of the root view is checked by its page alone. -/
theorem checkRed_held {s : State} {i : Issue} {l : Lane} {k : Block} {g : Grid} {va : Nat} {scope : Scope} {op : AOp} {fmt : Fmt}
    {uns : Bool} {x : Xl} (hx : s.laneXlate i.block l.tid va .wr = .ok x) (hred : x.leaf.redop ≠ 0) (hdl : 2 ≤ g.dl.toNat)
    (hv : k.vtag = 0) (hf : k.frozen = false) (hpage : redPageFault scope op fmt uns va x.leaf = none) :
    s.checkRed i l k g va scope op fmt uns = .ok (s.fillTlb k.core k.tenant x.leaf, x) := by
  simp [State.checkRed, hx, hred, hdl, hv, hf, hpage]

/-- A lane of RED of the root view whose checks hold makes its reduction. -/
theorem redLane_of_checked {w : Width} {a b : Reg} {scope : Scope} {op : AOp} {fmt : Fmt} {uns : Bool} {s s' : State} {i : Issue}
    {l : Lane} {k : Block} {g : Grid} {x x₀ : Xl}
    (halign : addrOf (s.thread i.block l.tid) a % atomBytes fmt = 0)
    (hun : s.untested i.block l.tid (addrOf (s.thread i.block l.tid) a) .wr = none)
    (hx : s.laneXlate i.block l.tid (addrOf (s.thread i.block l.tid) a) .wr = .ok x₀)
    (hk : s.block? i.block = some k) (hg : s.gridOf i.block = some g) (hv : k.vtag = 0)
    (hcheck : s.checkRed i l k g (addrOf (s.thread i.block l.tid) a) scope op fmt uns = .ok (s', x)) :
    redLane w a b scope op fmt uns s i l = .done (s'.redAt i l k g x (addrOf (s.thread i.block l.tid) a) scope.code.toNat op fmt uns
      (BitVec.ofNat 64 ((s.thread i.block l.tid).groupNat b.toNat (2 ^ w.toNat)))) := by
  have hcap : (if x.leaf.kind == .remote then some s' else s'.capture k.tenant k.vtag (addrOf (s.thread i.block l.tid) a) x) = some s' := by
    rw [hv, capture_root, ite_self]
  unfold redLane
  simp only [State.laneThread, halign, walkLost_of_xlate hx, askFirst_untested hun, hk, hg, hcheck, askSlot_root hv, hcap, bne_self_eq_false,
    Bool.false_eq_true, if_false, Option.isSome_none]

/-- A RED of the root view that is not held to the end of its grid enters its core's buffer. -/
theorem redAt_buffered {s : State} {i : Issue} {l : Lane} {k : Block} {g : Grid} {x : Xl} {va scope : Nat} {op : AOp} {fmt : Fmt}
    {uns : Bool} {v : Dword} (hlost : s.lostHome x.home (atomBytes fmt) = none) (hv : k.vtag = 0) (hdl : g.dl.toNat ≤ 1) :
    s.redAt i l k g x va scope op fmt uns v = ((s.syncSector k.core k.tenant va).dropProxy k.tenant va (atomBytes fmt)).bufferRed
      k.core k.grid k.tenant ⟨i.block, l.tid, i.at⟩ va x.home op fmt uns v scope := by
  have hd : ¬ 2 ≤ g.dl.toNat := by omega
  simp [State.redAt, hlost, hv, hd]

/-- On a reduction page at DL2 and above a RED of the root view is held to the end of its grid. -/
theorem redAt_held {s : State} {i : Issue} {l : Lane} {k : Block} {g : Grid} {x : Xl} {va scope : Nat} {op : AOp} {fmt : Fmt}
    {uns : Bool} {v : Dword} (hlost : s.lostHome x.home (atomBytes fmt) = none) (hv : k.vtag = 0) (hred : x.leaf.redop ≠ 0)
    (hdl : 2 ≤ g.dl.toNat) : s.redAt i l k g x va scope op fmt uns v = s.holdRed k i.block l.tid va op fmt v := by
  simp [State.redAt, hlost, hv, hred, hdl]

/-- What is held of a RED depends on its block's grid and path alone. -/
theorem holdRed_congr {s : State} {k k' : Block} {b tid va : Nat} {op : AOp} {fmt : Fmt} {v : Dword} (hg : k'.grid = k.grid)
    (hp : k'.path = k.path) : s.holdRed k' b tid va op fmt v = s.holdRed k b tid va op fmt v := by
  simp only [State.holdRed, hg, hp]

/-- A lane of RED whose page is another device's asks that device first. -/
theorem redLane_asks {w : Width} {a b : Reg} {scope : Scope} {op : AOp} {fmt : Fmt} {uns : Bool} {s : State} {i : Issue}
    {l : Lane} {dev ra : Nat} (halign : addrOf (s.thread i.block l.tid) a % atomBytes fmt = 0) (hf : s.frozenAt i.block = false)
    (hu : s.untested i.block l.tid (addrOf (s.thread i.block l.tid) a) .wr = some (dev, ra))
    (hr : (s.request (s.tenantOf i.block) 0x05 dev scope.code.toNat ra (atomOpw op fmt true uns true) 0 []
      (.test i.block l.tid 2 (addrOf (s.thread i.block l.tid) a) false)).2 = true) :
    let u := (s.request (s.tenantOf i.block) 0x05 dev scope.code.toNat ra (atomOpw op fmt true uns true) 0 []
      (.test i.block l.tid 2 (addrOf (s.thread i.block l.tid) a) false)).1
    redLane w a b scope op fmt uns s i l = .wait u (.remote u.fabric.tagCtr) := by
  obtain ⟨x, hx⟩ := laneXlate_of_untested hu
  unfold redLane
  simp only [State.laneThread, halign, walkLost_of_xlate hx, askFirst_asks hf hu hr, bne_self_eq_false, Bool.false_eq_true, if_false,
    Option.isSome_none]

end Sys2Proof.Machine
end

section
/-! SUPPORT. FENCE (R331): what one lane waits for, and what its release does. -/

namespace Sys2Proof.Machine

/-- The machine after the release that a FENCE of a kind makes, and what the fence then waits for. -/
def State.fenceOut (s : State) (b tid : Nat) (pc : Dword) (kind : FenceKind) (scope : Nat) : State × Option Wait :=
  if kind = .acq then (s, s.loadsWait b tid) else s.fenceRelease b tid pc scope

theorem keeps_fenceOut (s : State) (b tid : Nat) (pc : Dword) (kind : FenceKind) (scope : Nat) :
    Keeps s (s.fenceOut b tid pc kind scope).1 := keeps_ite_fst (Keeps.refl s) (keeps_fenceRelease s b tid pc scope)

theorem fpxTrap_eq_none {th : Thread} (h : th.px = 0 ∨ th.hm = true) : fpxTrap th = none := by
  rcases h with h | h <;> simp [fpxTrap, h]

/-- A FENCE of a thread that a held exception does not trap. -/
theorem fenceLane_eq {kind : FenceKind} {scope : Scope} {s : State} {i : Issue} {l : Lane}
    (h : (s.thread i.block l.tid).px = 0 ∨ (s.thread i.block l.tid).hm = true) :
    fenceLane kind scope s i l = match s.fenceOut i.block l.tid i.at kind scope.code.toNat with
      | (s, some w) => .wait s w
      | (s, none) => .done (if kind = .rel then s else s.acquire i.block scope.code.toNat) := by
  unfold fenceLane State.fenceOut
  rw [State.laneThread, fpxTrap_eq_none h]
  simp only [beq_iff_eq] <;> rfl

theorem fenceLane_done {kind : FenceKind} {scope : Scope} {s : State} {i : Issue} {l : Lane}
    (h : (s.thread i.block l.tid).px = 0 ∨ (s.thread i.block l.tid).hm = true)
    (ho : (s.fenceOut i.block l.tid i.at kind scope.code.toNat).2 = none) :
    let u := (s.fenceOut i.block l.tid i.at kind scope.code.toNat).1
    fenceLane kind scope s i l = .done (if kind = .rel then u else u.acquire i.block scope.code.toNat)
      ∧ Keeps s (if kind = .rel then u else u.acquire i.block scope.code.toNat) := by
  have hk := keeps_fenceOut s i.block l.tid i.at kind scope.code.toNat
  rw [fenceLane_eq h]
  generalize s.fenceOut i.block l.tid i.at kind scope.code.toNat = out at ho hk ⊢
  obtain ⟨u, w⟩ := out
  cases ho
  exact ⟨rfl, keeps_ite hk (hk.trans (keeps_acquire u _ _))⟩

theorem fenceLane_waits {kind : FenceKind} {scope : Scope} {s : State} {i : Issue} {l : Lane} {w : Wait}
    (h : (s.thread i.block l.tid).px = 0 ∨ (s.thread i.block l.tid).hm = true)
    (ho : (s.fenceOut i.block l.tid i.at kind scope.code.toNat).2 = some w) :
    fenceLane kind scope s i l = .wait (s.fenceOut i.block l.tid i.at kind scope.code.toNat).1 w := by
  rw [fenceLane_eq h]
  generalize s.fenceOut i.block l.tid i.at kind scope.code.toNat = out at ho ⊢
  obtain ⟨u, v⟩ := out
  cases ho
  rfl

theorem loadsWait_eq_none (s : State) (b tid : Nat) : s.loadsWait b tid = none ↔ s.loadTags b tid = [] := by
  simp [State.loadsWait]

theorem fenceRelease_none {s u : State} {b tid : Nat} {pc : Dword} {scope : Nat} (h : s.releaseAt b tid pc scope = (u, none)) :
    s.fenceRelease b tid pc scope = (u, u.loadsWait b tid) := by
  rw [State.fenceRelease, h]

theorem fenceRelease_some {s u : State} {b tid : Nat} {pc : Dword} {scope : Nat} {w : Wait}
    (h : s.releaseAt b tid pc scope = (u, some w)) : s.fenceRelease b tid pc scope = (u, some w) := by
  rw [State.fenceRelease, h]

theorem fenceOut_release {s : State} {b tid : Nat} {pc : Dword} {kind : FenceKind} {scope : Nat} (h : kind ≠ .acq) :
    s.fenceOut b tid pc kind scope = s.fenceRelease b tid pc scope := if_neg h

/-- A thread whose release is made, or at thread or block scope, has nothing to release. -/
theorem releaseAt_nothing {s : State} {b tid : Nat} {pc : Dword} {scope : Nat}
    (h : (s.thread b tid).released = true ∨ scope < 2) : s.releaseAt b tid pc scope = (s, none) := by
  unfold State.releaseAt
  cases hk : s.block? b with
  | none => rfl
  | some k =>
    have hth : s.thread b tid = k.thread tid := by simp [State.thread, hk]
    rw [hth] at h
    dsimp only
    rw [if_pos]
    rcases h with h | h <;> simp [h]

/-- A release of the root view at DL0. -/
theorem releaseAt_dl0 {s : State} {b tid : Nat} {pc : Dword} {scope : Nat} {k : Block} (hk : s.block? b = some k)
    (hr : (s.thread b tid).released = false) (hs : 2 ≤ scope) (hv : k.vtag = 0) (hd : s.dl0 b = true) :
    s.releaseAt b tid pc scope = (s.sendHome k.core k.grid).stepRelease k scope ((s.sendHome k.core k.grid).ackTags k.tenant) false := by
  have hth : s.thread b tid = k.thread tid := by simp [State.thread, hk]
  rw [hth] at hr
  simp [State.releaseAt, hk, hr, hv, hd, Nat.not_lt.mpr hs]

/-- A release of the root view at DL1 and above. -/
theorem releaseAt_held {s : State} {b tid : Nat} {pc : Dword} {scope : Nat} {k : Block} (hk : s.block? b = some k)
    (hr : (s.thread b tid).released = false) (hs : 2 ≤ scope) (hv : k.vtag = 0) (hd : s.dl0 b = false) :
    s.releaseAt b tid pc scope = ((s.redsToTurn b tid pc k fun _ => true).addEffect b tid pc (.release scope), none) := by
  have hth : s.thread b tid = k.thread tid := by simp [State.thread, hk]
  rw [hth] at hr
  simp [State.releaseAt, hk, hr, hv, hd, Nat.not_lt.mpr hs]

theorem stepRelease_open {s : State} {k : Block} {scope : Nat} {tags : List Word} (h : s.tagsOpen tags = true) :
    s.stepRelease k scope tags false = (s, some (.acks scope tags false)) := by
  simp [State.stepRelease, h]

theorem stepRelease_near {s : State} {k : Block} {scope : Nat} {tags : List Word} (h : s.tagsOpen tags = false) (hs : scope < 4) :
    s.stepRelease k scope tags false = (s.signNear k.core k.cluster scope, none) := by
  simp [State.stepRelease, h, hs]

theorem stepRelease_far {s : State} {k : Block} {scope : Nat} {tags : List Word} (h : s.tagsOpen tags = false) (hs : 4 ≤ scope) :
    (s.stepRelease k scope tags false).1 = s.signCores [k.core] k.tenant
    ∧ ((s.signCores [k.core] k.tenant).signTags k.tenant ≠ [] → (s.stepRelease k scope tags false).2
        = some (.acks scope ((s.signCores [k.core] k.tenant).signTags k.tenant) true)) := by
  simp only [State.stepRelease, h, Nat.not_lt.mpr hs, Bool.false_eq_true, if_false, true_and]
  intro hne
  rw [if_neg (by simp [hne])]

/-- A fence that has nothing to release waits for its thread's loads alone. -/
theorem fenceOut_nothing {s : State} {b tid : Nat} {pc : Dword} {kind : FenceKind} {scope : Nat}
    (h : kind = .acq ∨ (s.thread b tid).released = true ∨ scope < 2) :
    (s.fenceOut b tid pc kind scope).1 = s ∧ ((s.fenceOut b tid pc kind scope).2 = none ↔ s.loadTags b tid = []) := by
  have hout : s.fenceOut b tid pc kind scope = (s, s.loadsWait b tid) := by
    by_cases hk : kind = .acq
    · exact if_pos hk
    · rw [fenceOut_release hk, fenceRelease_none (releaseAt_nothing (h.resolve_left hk))]
  rw [hout]
  exact ⟨rfl, loadsWait_eq_none s b tid⟩

/-- A fence that releases at DL0: what is sent, what is waited for, and which signature is given (R178). -/
theorem fenceOut_dl0 {s : State} {b tid : Nat} {pc : Dword} {kind : FenceKind} {scope : Nat} {k : Block} (hkind : kind ≠ .acq)
    (hk : s.block? b = some k) (hr : (s.thread b tid).released = false) (hs : 2 ≤ scope) (hv : k.vtag = 0) (hd : s.dl0 b = true) :
    let out := s.fenceOut b tid pc kind scope
    let s₁ := s.sendHome k.core k.grid
    (s₁.tagsOpen (s₁.ackTags k.tenant) = true → out = (s₁, some (.acks scope (s₁.ackTags k.tenant) false)))
    ∧ (s₁.tagsOpen (s₁.ackTags k.tenant) = false → scope < 4 →
        out.1 = s₁.signNear k.core k.cluster scope ∧ (out.2 = none ↔ out.1.loadTags b tid = []))
    ∧ (s₁.tagsOpen (s₁.ackTags k.tenant) = false → 4 ≤ scope →
        out.1 = s₁.signCores [k.core] k.tenant
        ∧ (out.1.signTags k.tenant ≠ [] → out.2 = some (.acks scope (out.1.signTags k.tenant) true))) := by
  have hrel := releaseAt_dl0 (pc := pc) hk hr hs hv hd
  dsimp only
  rw [fenceOut_release hkind]
  generalize s.sendHome k.core k.grid = s₁ at hrel ⊢
  refine ⟨fun ho => ?_, fun hc h4 => ?_, fun hc h4 => ?_⟩
  · rw [stepRelease_open ho] at hrel
    exact fenceRelease_some hrel
  · rw [stepRelease_near hc h4] at hrel
    rw [fenceRelease_none hrel]
    exact ⟨rfl, loadsWait_eq_none _ b tid⟩
  · obtain ⟨hfst, hsnd⟩ := stepRelease_far (k := k) hc h4
    have hout : (s.fenceRelease b tid pc scope).1 = s₁.signCores [k.core] k.tenant := by
      rw [fenceRelease_fst, hrel, hfst]
    refine ⟨hout, fun hne => ?_⟩
    rw [hout] at hne ⊢
    have hwait : s.releaseAt b tid pc scope = (s₁.signCores [k.core] k.tenant,
        some (.acks scope ((s₁.signCores [k.core] k.tenant).signTags k.tenant) true)) := by
      rw [hrel, ← hsnd hne, ← hfst]
    rw [fenceRelease_some hwait]

theorem fenceOut_held {s : State} {b tid : Nat} {pc : Dword} {kind : FenceKind} {scope : Nat} {k : Block} (hkind : kind ≠ .acq)
    (hk : s.block? b = some k) (hr : (s.thread b tid).released = false) (hs : 2 ≤ scope) (hv : k.vtag = 0) (hd : s.dl0 b = false) :
    (s.fenceOut b tid pc kind scope).1 = (s.redsToTurn b tid pc k fun _ => true).addEffect b tid pc (.release scope) := by
  rw [fenceOut_release hkind, fenceRelease_fst, releaseAt_held hk hr hs hv hd]

end Sys2Proof.Machine
end

section
/-! SUPPORT. DISCARD and PREF (R332, R333): what one lane does. -/

namespace Sys2Proof.Machine

theorem keeps_tick (s : State) : Keeps s s.tick := keeps_of_cores rfl rfl

theorem keeps_dropCopies (s : State) (t va : Nat) : Keeps s (s.dropCopies t va) :=
  keeps_foldl _ _ (fun s c => keeps_updCore s c (fun k => k.dropSector t (va / 64)) fun _ => rfl) s

theorem keeps_discardSector (s : State) (who : Site) (t va : Nat) (h : HomeAt) (free : Bool) :
    Keeps s (s.discardSector who t va h free) := by
  unfold State.discardSector
  refine (keeps_ite (keeps_foldl _ _ (fun s bs => ?_) s) (Keeps.refl s)).trans (keeps_dropCopies _ t va)
  exact (keeps_ite (keeps_storeHome s _ t va h bs) (Keeps.refl s)).trans (keeps_tick _)

theorem keeps_discardFar (s : State) (t va : Nat) : Keeps s (s.discardFar t va) := by
  unfold State.discardFar
  refine (keeps_foldl _ _ (fun s c => ?_) s).trans (keeps_dropCopies _ t va)
  split
  · exact keeps_ite (Keeps.refl s) ((keeps_ite (keeps_writeBack s _) (Keeps.refl s)).trans (keeps_tick _))
  · exact Keeps.refl s

theorem keeps_discardOne (s : State) (b tid : Nat) (pc : Dword) (core va : Nat) (h : HomeAt) (free : Bool) :
    Keeps s (s.discardOne b tid pc core va h free) := by
  unfold State.discardOne
  split
  · exact keeps_lostStore s _ _ _ _ _
  · exact (keeps_discardSector s _ _ va h free).trans (keeps_noteWritten _ core _ va)

/-- One sector of a DISCARD at DL0 in the root view of a tenant's block. -/
def State.discardRoot (s : State) (i : Issue) (l : Lane) (t v : Nat) : State :=
  match s.laneXlate i.block l.tid v .wr with
  | .error _ => s
  | .ok x =>
    let s₁ := (if s.missOn t v then s.threadEvent i.block l.tid 0x02 i.at else s).dropProxy t v 64
    if x.leaf.kind = .remote then s₁.discardFar t v else s₁.discardOne i.block l.tid i.at i.core v x.home true

theorem keeps_discardRoot (s : State) (i : Issue) (l : Lane) (t v : Nat) : Keeps s (s.discardRoot i l t v) := by
  unfold State.discardRoot
  split
  · exact Keeps.refl s
  · have event : Keeps s (if s.missOn t v then s.threadEvent i.block l.tid 0x02 i.at else s) :=
      keeps_ite (keeps_threadEvent s _ _ _ _) (Keeps.refl s)
    refine (event.trans (keeps_dropProxy _ t v 64)).trans ?_
    exact keeps_ite (keeps_discardFar _ t v) (keeps_discardOne _ _ _ _ _ _ _ _)

/-- Of addresses about which nothing is to be asked, nothing is asked. -/
theorem askEach_none {ask : State → Nat → State × Option Word} {s : State} {vs : List Nat} (h : ∀ v ∈ vs, ask s v = (s, none)) :
    askEach ask s vs = (s, none) := by
  induction vs with
  | nil => rfl
  | cons v vs ih =>
    obtain ⟨hv, hvs⟩ := List.forall_mem_cons.mp h
    rw [askEach, hv]
    exact ih hvs

theorem askPage_untested {s : State} {b tid va access scope : Nat} {want : Want} {opw : Option Dword} {nf : Bool}
    (h : s.untested b tid va want = none) : s.askPage b tid va want access scope opw nf = (s, none) := by
  simp [State.askPage, h]

/-- In the root view sectors whose addresses translate may be discarded. -/
theorem discardFault_root {s : State} {i : Issue} {l : Lane} {k : Block} {vs : List Nat} (hv : k.vtag = 0)
    (h : ∀ v ∈ vs, ∃ x, s.laneXlate i.block l.tid v .wr = .ok x) : s.discardFault i l k vs = none := by
  refine List.findSome?_eq_none_iff.mpr fun v hmem => ?_
  obtain ⟨x, hx⟩ := h v hmem
  simp [hx, State.storePath, hv]

/-- At DL0 accesses are not recorded. -/
theorem noteAccess_dl0 {s : State} {b tid : Nat} {pc : Dword} {sec : Nat} {store : Bool} {k : Block} {g : Grid}
    (hk : s.block? b = some k) (hg : s.gridOf b = some g) (hd : g.dl = 0) : s.noteAccess b tid pc sec store = .ok s := by
  simp [State.noteAccess, State.noteAccessAt, hk, hg, hd]

/-- A fold that never stops early. -/
theorem foldl_unstopped {α β : Type} {f : α × Bool → β → α × Bool} {g : α → β → α} (h : ∀ a b, f (a, false) b = (g a b, false))
    (l : List β) (a : α) : l.foldl f (a, false) = (l.foldl g a, false) := by
  induction l generalizing a with
  | nil => rfl
  | cons b l ih => rw [List.foldl_cons, h, ih, List.foldl_cons]

/-- A sector's discard at DL0 in the root view takes no slot. -/
theorem discardAt_root {s : State} {i : Issue} {l : Lane} {k : Block} {g : Grid} {v : Nat} {x : Xl} (hv : k.vtag = 0) (hd : g.dl = 0)
    (hx : s.laneXlate i.block l.tid v .wr = .ok x) : s.discardAt i l k g v x = some (s.discardRoot i l k.tenant v) := by
  simp [State.discardAt, State.discardRoot, hv, hd, hx]

/-- The addresses of the sectors that a DISCARD names. -/
def discardSectors (va : Nat) (n : BitVec 8) : List Nat := (List.range (n.toNat + 1)).map fun j => ea va (64 * j : Nat)

/-- A DISCARD at DL0 in the root view that passes its checks discards its sectors one after the other. -/
theorem discardLane_root {a : Reg} {n : BitVec 8} {s : State} {i : Issue} {l : Lane} {k : Block} {g : Grid}
    (halign : addrOf (s.thread i.block l.tid) a % 64 = 0) (hk : s.block? i.block = some k) (hg : s.gridOf i.block = some g)
    (hv : k.vtag = 0) (hd : g.dl = 0) (hf : k.fork = none)
    (hsecs : ∀ v ∈ discardSectors (addrOf (s.thread i.block l.tid) a) n,
      s.untested i.block l.tid v .wr = none ∧ ∃ x, s.laneXlate i.block l.tid v .wr = .ok x) :
    discardLane a n s i l = .done ((discardSectors (addrOf (s.thread i.block l.tid) a) n).foldl
      (fun s v => s.discardRoot i l k.tenant v) s) := by
  have hfrozen : k.frozen = false := by simp [Block.frozen, hf]
  unfold discardSectors at hsecs ⊢
  unfold discardLane
  rw [State.laneThread]
  dsimp only
  generalize ((List.range (n.toNat + 1)).map fun j => ea (addrOf (s.thread i.block l.tid) a) (64 * j : Nat)) = secs at hsecs ⊢
  have hxl := fun v hmem => (hsecs v hmem).2
  refine (if_neg (by simp [halign])).trans ((if_neg ?_).trans ?_)
  · rw [List.any_eq_true]
    rintro ⟨v, hmem, hv⟩
    obtain ⟨x, hx⟩ := hxl v hmem
    simp [hx] at hv
  · rw [askEach_none (vs := secs) fun v hmem => askPage_untested (hsecs v hmem).1]
    simp only [hk, hg, discardFault_root hv hxl, hfrozen, Bool.false_eq_true, if_false]
    rw [askEach_none fun v _ => askSlot_root hv]
    dsimp only
    rw [List.foldl_fixed' fun v => noteAccess_dl0 hk hg hd]
    dsimp only
    rw [foldl_unstopped (g := fun s v => s.discardRoot i l k.tenant v)]
    · rfl
    · intro u v
      cases hx : u.laneXlate i.block l.tid v .wr with
      | error e => simp [hx, State.discardRoot]
      | ok x => simp [discardAt_root hv hd hx]

/-! ## PREF -/

theorem keeps_cachedLoad (s : State) (core t va : Nat) (h : HomeAt) (n : Nat) (q : Qual) :
    Keeps s (s.cachedLoad core t va h n q).1 := by
  unfold State.cachedLoad
  dsimp only
  split
  · next x hx => exact keeps_ite_fst (Keeps.refl s) (keeps_updCore s core (fun c => c.putSector (s.refreshed x)) fun _ => rfl)
  · exact keeps_ite (keeps_updCore s core (fun c => c.putSector _) fun _ => rfl) (Keeps.refl s)

/-- The line that a PREF names. -/
def prefLine (va : Nat) (off : BitVec 8) : Nat := ea va (64 * sext off.toNat 8) / 64 * 64

/-- What a PREF of a block at DL0 does. -/
def State.prefetch (s : State) (k : Block) (pol : Policy) (va : Nat) : State :=
  match s.xlate k.core k.tenant va .rd with
  | .error _ => s
  | .ok x =>
    if pol ≠ .dflt ∨ x.leaf.policy ≠ 0 ∨ k.vtag ≠ 0 ∨ x.leaf.kind = .remote ∨ (s.lostHome x.home 64).isSome
      ∨ ∃ r ∈ (s.core k.core).reds, r.home.overlaps 8 x.home 64 = true then s
    else (s.cachedLoad k.core k.tenant va x.home 64 ⟨0, false⟩).1

theorem keeps_prefetch (s : State) (k : Block) (pol : Policy) (va : Nat) : Keeps s (s.prefetch k pol va) := by
  unfold State.prefetch
  split
  · exact Keeps.refl s
  · exact keeps_ite (Keeps.refl s) (keeps_cachedLoad s _ _ _ _ _ _)

/-- What a PREF brings depends on its block's core, tenant and view alone. -/
theorem prefetch_congr {s : State} {k k' : Block} {pol : Policy} {va : Nat} (hc : k'.core = k.core) (ht : k'.tenant = k.tenant)
    (hv : k'.vtag = k.vtag) : s.prefetch k' pol va = s.prefetch k pol va := by
  simp only [State.prefetch, hc, ht, hv]

theorem prefLane_dl0 {a : Reg} {off : BitVec 8} {pol : Policy} {s : State} {i : Issue} {l : Lane} {k : Block} {g : Grid}
    (hk : s.block? i.block = some k) (hg : s.gridOf i.block = some g) (hd : g.dl = 0) :
    prefLane a off pol s i l = .done (s.prefetch k pol (prefLine (addrOf (s.thread i.block l.tid) a) off)) := by
  unfold prefLane State.prefetch prefLine
  simp only [hk, hg, hd, State.laneThread]
  cases s.xlate k.core k.tenant (ea (addrOf (s.thread i.block l.tid) a) (64 * sext off.toNat 8) / 64 * 64) .rd with
  | error e => rfl
  | ok x =>
    dsimp only
    simp only [bne_self_eq_false, Bool.or_false, Bool.or_eq_true, bne_iff_ne, beq_iff_eq, List.any_eq_true, or_assoc]
    split <;> rfl

end Sys2Proof.Machine
end

section
/-! RED, FENCE, DISCARD and PREF (R330 to R333). -/

namespace Sys2Proof.Machine

theorem wordsOf_red (w : Width) (a b : Reg) (scope : Scope) (op : AOp) (fmt : Fmt) (uns : Bool) :
    wordsOf (.red w a b scope op fmt uns) = 2 := rfl

theorem wordsOf_fence (kind : FenceKind) (scope : Scope) : wordsOf (.fence kind scope) = 1 := rfl

/-- Settles O19: each clause is the equation of one lane, which keeps the clause that it runs in. -/
theorem redFenceDiscardAndPrefetch : Obligations.RedFenceDiscardAndPrefetch := by
  refine ⟨fun s i k h w a b scope op fmt uns => ?red, fun s i k h a scope kind m off pol => ⟨?fence, ?discard, ?pref⟩⟩
  case red =>
    dsimp only
    rw [← atomBytes_eq]
    refine ⟨does_of_done h rfl (by simp [instrCeiling]) ?_, does_of_done h rfl (by simp [instrCeiling]) ?_,
      stops_of_paused h rfl (by simp [instrCeiling]) ?_ ?_⟩
    · rintro t l ⟨halign, hun, ⟨k', g, hk, hv, hc, hgrid, -, ht, -, hg, hdl⟩, s', x, path, hcheck, hlost⟩
      have hred : t.checkRed i l k' g (addrOf (t.thread i.block l.tid) a) scope op fmt uns = .ok (s', x) := by
        rw [checkRed_low hdl, addrOf, hcheck]
        rfl
      have hdone := redLane_of_checked (w := w) (b := b) halign hun (xlate_of_checkWrite hcheck).2 hk hg hv hred
      rw [redAt_buffered hlost hv hdl, hc, hgrid, ht] at hdone
      rw [hcheck]
      exact ⟨hdone, keeps_redLane hdone⟩
    · rintro t l ⟨halign, hun, ⟨k', g, hk, hv, hc, hgrid, hpath, ht, hfork, hg, hdl⟩, x, hx, hop, hpage, hlost⟩
      have hred := checkRed_held hx hop hdl hv (by simp [Block.frozen, hfork]) hpage
      have hdone := redLane_of_checked (w := w) (b := b) halign hun hx hk hg hv hred
      rw [redAt_held (by rw [lostHome_fillTlb]; exact hlost) hv hop hdl, holdRed_congr hgrid hpath, hc, ht] at hdone
      rw [hx]
      exact ⟨hdone, keeps_redLane hdone⟩
    · rintro t l ⟨s', hdone⟩
      rw [hdone]
      exact ⟨rfl, keeps_redLane hdone⟩
    · rintro t l ⟨halign, hf, dev, ra, hu, hr⟩
      refine ⟨_, _, redLane_asks halign hf hu hr, rfl, ?_⟩
      rw [hu]
      rfl
  case fence =>
    refine ⟨does_of_done h rfl (by simp [instrCeiling]) fun t l ⟨hq, hout⟩ => fenceLane_done hq hout,
      does_of_parked h rfl (by simp [instrCeiling]) ?_,
      stops_of_paused h rfl (by simp [instrCeiling]) (fun t l ⟨hq, hout⟩ => fenceLane_done hq hout) ?_,
      fun t l hn => fenceOut_nothing hn, fun t l k' hkind hk hr hs hv hd => fenceOut_dl0 hkind hk hr hs hv hd,
      fun t l k' hkind hk hr hs hv hd => fenceOut_held hkind hk hr hs hv hd⟩
    · rintro t l ⟨hq, w, hw, hp⟩
      refine ⟨_, w, fenceLane_waits hq hw, hp, keeps_fenceOut t _ _ _ _ _, ?_⟩
      rw [hw]
      rfl
    · rintro t l ⟨hq, w, hw, hp⟩
      refine ⟨_, w, fenceLane_waits hq hw, hp, ?_⟩
      rw [hw]
      rfl
  case discard =>
    refine does_of_done h rfl (by simp [instrCeiling]) ?_
    rintro t l ⟨halign, ⟨k', g, hk, hg, hv, hd, hf, ht⟩, hsecs⟩
    rw [discardLane_root halign hk hg hv hd hf hsecs, ht]
    exact ⟨rfl, keeps_foldl _ _ (fun s v => keeps_discardRoot s i l k.tenant v) t⟩
  case pref =>
    refine does_of_done h rfl (by simp [instrCeiling]) ?_
    rintro t l ⟨k', g, hk, hc, ht, hv, hg, hd⟩
    rw [prefLane_dl0 hk hg hd, prefetch_congr hc ht hv]
    exact ⟨rfl, keeps_prefetch t k pol _⟩

end Sys2Proof.Machine
end

section
/-! An ATOM whose request has left, in a machine that lists its block twice (R327, R136). -/

namespace Sys2Proof.Machine

/-- ATOM.ADD of x9 at x6:2 at device scope, with an acquire. -/
def acquiringAtom : Instr := .atom 0 8 6 9 0 .device .add .int32 false .acq false

/-- The page of device 7. -/
def farPage : Leaf := remoteLeaf (7 * 2 ^ 43)

/-- A placed clause of that ATOM in block 3 whose only lane is thread 0, its address on device 7. -/
def placedAtom : State :=
  let s := (State.reset.placeClause .mem (encode acquiringAtom)).updThread 3 0 fun th => (th.setReg 6 0x40).setReg 7 0x3800
  { s with issue := s.issue.map fun i => { i with lanes := [⟨0, 0, true, 1⟩] } }

/-- The same where tenant 0 reaches device 7, has a fault queue, and thread 0 has been told of the page. -/
def reachingAtom : State :=
  let s := (placedAtom.updThread 3 0 fun th => { th with pages := [(0x380000000040, farPage, 0)] }).updTenant 0 fun t =>
    { t with domset := setBit t.domset 7 true, fq := { t.fq with en := true, base := 0x20000 } }
  { s with
    tlb := [⟨0, 0, farPage⟩, ⟨ownSite, 0, farPage⟩, ⟨ownSite, 0, { farPage with base := 0x20000, size := 0x20000, kind := .local, addr := 0x40000 }⟩]
    fabric := { s.fabric with routes := [(7, ⟨true, 0⟩)], ports := [(0, { Port.none with trained := true })] } }

/-- A speculative view. -/
def someView : SpecView := ⟨5, ⟨0, 0, 0, .bytes, 0, false, 0, 0, 0, 0⟩, [], .none, ⟨[], [], [], [], [], 0⟩, [], false, []⟩

/-- The block table lists block 3 again, in a view and in a grid at DL1; the core's copy of the sector of the ATOM is dirty,
and its home is a host page that is mapped no more. -/
def listedTwice : State :=
  let s := reachingAtom
  let s := { s with
    blocks := s.blocks ++ s.blocks.map fun (e : Nat × Block) => (e.1, { e.2 with grid := 9, specs := [someView] })
    grids := s.grids ++ s.grids.map fun (e : Nat × Grid) => (9, { e.2 with dl := 1 }) }
  s.updCore 0 fun c => { c with
      cache := [⟨0, 0, 0x380000000040 / 64, .host 0 5 0 0, List.replicate 64 0, 1, 1, some ⟨3, 0, 4⟩⟩] }

/-- The clause under way in it. -/
def twiceIssue : Issue := listedTwice.issue.getD ⟨0, 0, 0, 0, 0, [], 0, [], 0, false⟩

/-- Block 3, as it is found first. -/
def twiceBlock : Block := (listedTwice.block? 3).getD (placedBlock 1 2 4 3 0)

theorem listedTwice_issuing : Issuing listedTwice twiceIssue twiceBlock where
  clause := by decide +kernel
  block := by decide +kernel
  lanes := by decide +kernel
  within := by decide +kernel
  bundle := fun u hu => by
    have h : (listedTwice.bundle? twiceIssue.core twiceIssue.bundle).all (fun u => u.block == twiceIssue.block) = true := by decide +kernel
    simpa [hu] using h
  cores := by decide +kernel

/-- What the checks of a write give satisfies a test. -/
def checkedAs (e : Except Trap (State × Xl × StorePath)) (p : State → Xl → Bool) : Bool := match e with
  | .ok (s, x, _) => p s x
  | .error _ => false

theorem exists_of_checkedAs {e : Except Trap (State × Xl × StorePath)} {p : State → Xl → Bool} (h : checkedAs e p = true) :
    ∃ s x path, e = .ok (s, x, path) ∧ p s x = true := by
  cases e with
  | error t => cases h
  | ok r => exact ⟨r.1, r.2.1, r.2.2, rfl, h⟩

/-- A page of another device is found, and the block stands at DL0 in the root view. -/
def farAtDl0 (k : Block) (s : State) (x : Xl) : Bool :=
  x.leaf.kind == .remote && (match x.home with | .remote .. => true | _ => false)
  && (s.block? 3).any (fun k' => k'.core == k.core && k'.tenant == k.tenant && k'.vtag == 0) && (s.gridOf 3).any (fun g => g.dl == 0)

theorem of_farAtDl0 {k : Block} {s : State} {x : Xl} (h : farAtDl0 k s x = true) :
    x.leaf.kind = .remote ∧ (∃ dev ra, x.home = .remote dev ra)
    ∧ ∃ k' g, s.block? 3 = some k' ∧ k'.core = k.core ∧ k'.tenant = k.tenant ∧ s.gridOf 3 = some g ∧ k'.vtag = 0 ∧ g.dl.toNat = 0 := by
  simp only [farAtDl0, Bool.and_eq_true, Option.any_eq_true, beq_iff_eq] at h
  obtain ⟨⟨⟨hkind, hhome⟩, k', hk, ⟨hcore, htenant⟩, hview⟩, g, hg, hdl⟩ := h
  refine ⟨hkind, ?_, k', g, hk, hcore, htenant, hg, hview, by simp [hdl]⟩
  cases hx : x.home with
  | remote dev ra => exact ⟨dev, ra, rfl⟩
  | dev pa => simp [hx] at hhome
  | host t w top off => simp [hx] at hhome
  | view v => simp [hx] at hhome

/-- Whether thread 0 of block 3 has been left in its clause by a step. -/
def keptAfter (o : Out) : Bool := match o with
  | .next t => (t.thread 3 0).keep
  | _ => true

/-- The machine in which that ATOM has been counted, as its lane finds it. -/
def twiceCounted : State := { listedTwice with issue := some twiceIssue.counted }

/-- Refutes O18: its third clause has the thread of an acquiring ATOM wait by itself at DL0, and the model decides that by the
block as it stands once the request has left. Where the block table lists the block twice, a record written on the way (of the
dirty sector that can no longer go home) finds the second entry, in a view and at DL1, and puts it in the first one's place:
the whole clause is then paused. -/
theorem not_atomResults : ¬ Obligations.AtomResults := by
  intro h
  obtain ⟨-, -, hfar, -⟩ := h listedTwice twiceIssue twiceBlock listedTwice_issuing 0 8 6 9 0 .device .add .int32 false .acq false
  have hlanes : twiceIssue.lanes = [⟨0, 0, true, 1⟩] := by decide +kernel
  have hblock : twiceIssue.block = 3 := by decide +kernel
  obtain ⟨t, ht, hpassed⟩ := hfar (by
    rw [hlanes]
    refine ⟨fun _ => ⟨?_, fun _ => ⟨?_, ?_⟩⟩, trivial⟩
    · decide +kernel
    · decide +kernel
    · have hcheck : checkedAs (twiceCounted.checkWrite twiceIssue.block 0 twiceIssue.at (addrOf (twiceCounted.thread twiceIssue.block 0) 6)
          4 true true 2 (atomPageFault .device .int32 (addrOf (twiceCounted.thread twiceIssue.block 0) 6))) (farAtDl0 twiceBlock) = true := by decide +kernel
      obtain ⟨s', x, path, hok, hp⟩ := exists_of_checkedAs hcheck
      obtain ⟨hkind, ⟨dev, ra, hhome⟩, hstands⟩ := of_farAtDl0 hp
      refine ⟨s', x, dev, ra, ⟨?_, ?_, ⟨path, ?_⟩, ?_, ?_⟩, hkind, hhome⟩
      · decide +kernel
      · decide +kernel
      · exact hok
      · rw [hblock]
        exact hstands
      · rfl)
  have hmodel : keptAfter (exec acquiringAtom listedTwice) = false := by decide +kernel
  have hclaim : keptAfter (.next t) = true := by
    rw [hpassed.ends]
    decide +kernel
  have hexec : exec acquiringAtom listedTwice = .next t := ht
  rw [hexec, hclaim] at hmodel
  exact Bool.noConfusion hmodel

end Sys2Proof.Machine
end

section
/-! SUPPORT. Ports, routes, forwarding, replay and flow control (R32 to R34, R37, R41, R42). -/

namespace Sys2Proof.Machine

/-! ## Links -/

/-- The machine after the flits of a message have passed the link checks of the port that they came by. -/
def State.linked (s : State) (m : Msg) : State := match m.via with
  | some p => s.flitPassed p.toNat
  | none => s

theorem atLink_ok {s : State} {m : Msg} {take : State → State} (h : linkOk m = true) : s.atLink m take = take (s.linked m) := by
  unfold State.atLink State.linked
  cases m.via <;> exact if_pos h

theorem atLink_failed {s : State} {m : Msg} {take : State → State} (h : linkOk m = false) :
    s.atLink m take = match m.via with | some p => s.flitFailed p.toNat | none => s := by
  unfold State.atLink
  cases m.via <;> exact if_neg (by simp [h])

theorem flitPassed_devid (s : State) (p : Nat) : (s.flitPassed p).fabric.devid = s.fabric.devid := by
  unfold State.flitPassed
  split <;> rfl

theorem linked_devid (s : State) (m : Msg) : (s.linked m).fabric.devid = s.fabric.devid := by
  unfold State.linked
  split
  · exact flitPassed_devid s _
  · rfl

/-! ## FABID and the route table -/

theorem extractLsb'_zero {w : Nat} (v : BitVec w) (n : Nat) : v.extractLsb' 0 n = BitVec.ofNat n v.toNat :=
  BitVec.eq_of_toNat_eq (by simp)

theorem exec_fabidWrite (s : State) (v : Dword) : exec (.fabidWrite v) s
    = .next (if ∃ e ∈ s.fabric.ports, e.2.trained = true then s
        else { s with fabric := { s.fabric with devid := BitVec.ofNat 10 v.toNat } }) := by
  change execFabidWrite v s = _
  rw [execFabidWrite, extractLsb'_zero]
  simp only [List.any_eq_true]

theorem exec_routeEntryWrite (s : State) (d : BitVec 10) (v : Word) : exec (.routeEntryWrite d v) s
    = .next (if 17 < v.toNat % 2 ^ 5 then s
        else { s with fabric := { s.fabric with
          routes := Sparse.set Route.none s.fabric.routes d.toNat ⟨v.getLsbD 5, BitVec.ofNat 5 v.toNat⟩ } }) := by
  change execRouteEntryWrite d v s = _
  rw [execRouteEntryWrite, extractLsb'_zero]
  simp only [bitsAt, pow_zero, Nat.div_one]
  rfl

/-! ## Forwarding -/

theorem beq_eq_decide_toNat {w : Nat} (a b : BitVec w) : (a == b) = decide (a.toNat = b.toNat) := by
  rw [Bool.eq_iff_iff, beq_iff_eq, decide_eq_true_iff, BitVec.toNat_eq]

/-- The types of replies. -/
theorem msgReplies_iff (m : Msg) : msgReplies m = true ↔ m.ty.toNat ∈ [0x02, 0x04, 0x06, 0x09, 0x1F] := List.contains_iff_mem

/-- A message for another device, once its link checks have passed. -/
def State.forward (s : State) (m : Msg) : State :=
  if msgMalformed m then if msgReplies m then (s.reject m 4 0 0).nakTo m.dst m 4 0 0 else s.reject m 4 0 0
  else if m.hops == 15 then s.dropForward m 4
  else if m.data.any fun f => !flitOk f then s.dropForward m 2
  else (s.send { sealMsg { m with hops := m.hops + 1 } with via := m.via }).getD (s.dropForward m 3)

theorem exec_messageForward {s : State} {m : Msg} (hdst : m.dst ≠ s.fabric.devid) (hty : m.ty ≠ 0x08) (hlink : linkOk m = true) :
    exec (.messageForward m) s = .next ((s.linked m).forward m) := by
  have hother : ¬ (m.dst == s.fabric.devid || m.ty == 0x08) = true := by
    rw [beq_eq_false_iff_ne.mpr hdst, beq_eq_false_iff_ne.mpr hty]
    exact Bool.false_ne_true
  refine congrArg Host.Outcome.next ((if_neg hother).trans ((atLink_ok hlink).trans ?_))
  unfold State.forward
  cases (s.linked m).send { sealMsg { m with hops := m.hops + 1 } with via := m.via } <;> rfl

theorem forward_malformed {s : State} {m : Msg} (h : msgMalformed m = true) : s.forward m
    = if m.ty.toNat ∈ [0x02, 0x04, 0x06, 0x09, 0x1F] then (s.reject m 4 0 0).nakTo m.dst m 4 0 0 else s.reject m 4 0 0 := by
  simp only [State.forward, h, if_true, msgReplies_iff]

theorem forward_hops {s : State} {m : Msg} (h : msgMalformed m = false) (hh : m.hops = 15) : s.forward m = s.dropForward m 4 := by
  simp [State.forward, h, hh]

theorem forward_sector {s : State} {m : Msg} (h : msgMalformed m = false) (hh : m.hops ≠ 15) (hd : ∃ f ∈ m.data, flitOk f = false) :
    s.forward m = s.dropForward m 2 := by
  have hany : (m.data.any fun f => !flitOk f) = true := by simpa [List.any_eq_true] using hd
  simp only [State.forward, h, beq_eq_false_iff_ne.mpr hh, hany, Bool.false_eq_true, if_false, if_true]

/-- A whole message with hops left goes out by its route, or is dropped for want of one. -/
theorem forward_whole {s : State} {m : Msg} (h : msgMalformed m = false ∧ ∀ f ∈ m.data, flitOk f = true) (hh : m.hops ≠ 15) :
    s.forward m = (s.send { sealMsg { m with hops := m.hops + 1 } with via := m.via }).getD (s.dropForward m 3) := by
  have hany : (m.data.any fun f => !flitOk f) = false := by
    rw [List.any_eq_false]
    exact fun f hf => by simp [h.2 f hf]
  simp only [State.forward, h.1, beq_eq_false_iff_ne.mpr hh, hany, Bool.false_eq_true, if_false]

theorem send_routed {s : State} {m : Msg} (hr : (Sparse.get Route.none s.fabric.routes m.dst.toNat).valid = true)
    (hp : (Sparse.get Port.none s.fabric.ports (Sparse.get Route.none s.fabric.routes m.dst.toNat).port.toNat).trained = true) :
    s.send m = some (s.toPort (Sparse.get Route.none s.fabric.routes m.dst.toNat).port.toNat m) := by
  simp [State.send, hr, hp]

theorem send_unrouted {s : State} {m : Msg} (h : (Sparse.get Route.none s.fabric.routes m.dst.toNat).valid = false
      ∨ (Sparse.get Port.none s.fabric.ports (Sparse.get Route.none s.fabric.routes m.dst.toNat).port.toNat).trained = false) :
    s.send m = none := by
  rcases h with h | h <;> simp [State.send, h]

theorem toPort_open {s : State} {p : Nat} {m : Msg} (h : onBit (Sparse.get Port.none s.fabric.ports p).stopped m.vc.toNat = false) :
    s.toPort p m = { s with fabric := { s.fabric with
      sent := s.fabric.sent ++ [m]
      ports := Sparse.set Port.none s.fabric.ports p { Sparse.get Port.none s.fabric.ports p with
        unacked := (Sparse.get Port.none s.fabric.ports p).unacked ++ [(m, 1 + m.data.length)] } } } := by
  simp [State.toPort, h]

theorem toPort_stopped {s : State} {p : Nat} {m : Msg} (h : onBit (Sparse.get Port.none s.fabric.ports p).stopped m.vc.toNat = true) :
    s.toPort p m = { s with fabric := { s.fabric with
      ports := Sparse.set Port.none s.fabric.ports p { Sparse.get Port.none s.fabric.ports p with
        waiting := (Sparse.get Port.none s.fabric.ports p).waiting ++ [m] } } } := by
  simp [State.toPort, h]

/-- Whom a message that goes no further is told to: the source of a request, whoever waits for a reply, of a rejection nobody. -/
theorem dropForward_cases (s : State) (m : Msg) (c : Nat) :
    (m.ty.toNat ∉ [0x02, 0x04, 0x06, 0x09, 0x1F] → s.dropForward m c = s.reject m 4 cINTEG c)
    ∧ (m.ty.toNat ∈ [0x02, 0x04, 0x06, 0x09] → s.dropForward m c = s.nakTo m.dst m 4 cINTEG c)
    ∧ (m.ty.toNat = 0x1F → s.dropForward m c = s) := by
  have hnak : (m.ty == 0x1F) = decide (m.ty.toNat = 0x1F) := beq_eq_decide_toNat m.ty 0x1F
  rw [State.dropForward, hnak]
  refine ⟨fun h => ?_, fun h => ?_, fun h => ?_⟩
  · have hne : m.ty.toNat ≠ 0x1F := fun hx => h (by simp [hx])
    rw [if_neg (by simp [hne]), if_neg ((msgReplies_iff m).not.mpr h)]
  · have hne : m.ty.toNat ≠ 0x1F := fun hx => by simp [hx] at h
    have hrep := (msgReplies_iff m).mpr (by simp only [List.mem_cons] at h ⊢; tauto)
    rw [if_neg (by simp [hne]), if_pos hrep]
  · rw [if_pos (by simp [h])]

/-! ## Replay and flow control -/

theorem updPort_trained {s : State} {p : Nat} (f : Port → Port) : s.updPort p f = { s with fabric := { s.fabric with
    ports := Sparse.set Port.none s.fabric.ports p (f (Sparse.get Port.none s.fabric.ports p)) } } := rfl

theorem flitFailed_trained {s : State} {p : Nat} (h : (Sparse.get Port.none s.fabric.ports p).trained = true) :
    s.flitFailed p = if 8 ≤ (Sparse.get Port.none s.fabric.ports p).failures then s.losePort p else s.updPort p fun x =>
      { x with failures := x.failures + 1, asks := x.asks + 1 } := by
  unfold State.flitFailed
  exact if_neg (by simp [State.port, h])

/-- What waited on a channel that goes again is sent, in order. -/
theorem exec_flowGo {s : State} {p : BitVec 5} {vc : BitVec 2} (h : (Sparse.get Port.none s.fabric.ports p.toNat).trained = true) :
    let x := Sparse.get Port.none s.fabric.ports p.toNat
    exec (.flowGo p vc) s = .next ((x.waiting.filter fun m => decide (m.vc = vc)).foldl (fun y m => y.toPort p.toNat m)
      (s.updPort p.toNat fun x => { x with
        stopped := setBit x.stopped vc.toNat false, waiting := x.waiting.filter fun m => decide (m.vc ≠ vc) })) := by
  have hother : (fun m : Msg => decide (m.vc ≠ vc)) = fun m => m.vc != vc := by
    funext m
    rw [Bool.eq_iff_iff, bne_iff_ne, decide_eq_true_iff]
  dsimp only
  rw [hother]
  exact congrArg Host.Outcome.next (if_neg (by simp [State.port, h]))

theorem dropFlits_zero (l : List (Msg × Nat)) : dropFlits 0 l = l.dropWhile fun e => e.2 = 0 := by
  induction l with
  | nil => rfl
  | cons e l ih =>
    obtain ⟨m, k⟩ := e
    rw [dropFlits, List.dropWhile_cons]
    rcases Nat.eq_zero_or_pos k with rfl | hk
    · simpa using ih
    · simp [hk, hk.ne']

end Sys2Proof.Machine
end

section
/-! SUPPORT. Folds at a grid's end, and writes of the host to its own memory (R50, R52, R330). -/

namespace Sys2Proof.Machine

/-! ## Folds -/

/-- A value held for this device's memory, whose page is found: one step at its home, its flags to the threads that made it. -/
theorem foldHeld_found {s : State} {t : Nat} {r : HeldRed} {x : Xl} (hx : s.xlate ownSite t r.va .wr = .ok x)
    (hlost : s.lostHome x.home (atomBytes r.fmt) = none) :
    let s₁ := s.flushAt x.home (atomBytes r.fmt)
    let step := atomStep r.op r.fmt false (bytesToNat (s₁.readHome x.home (atomBytes r.fmt))) r.value.toNat 0
    s.foldHeld t r = (s₁.storeHome (r.threads.head?.map fun tid => ⟨r.block, tid, r.record.pc⟩) t r.va x.home
      (natToBytes (atomBytes r.fmt) step.1)).raiseLive (r.threads.map fun tid => (r.block, tid)) step.2 := by
  simp only [State.foldHeld, hx, hlost]

theorem exec_fold_unnamed {s : State} {gid : Dword} {at_ : FoldAt} (h : s.gridNamed gid = none) :
    exec (.crossDeviceFold gid at_) s = .next (if s.homeDevice (gid.toNat / 2 ^ 58) at_.page.toNat = s.fabric.devid.toNat then
      (sortBy heldBefore (at_.others.map (Contribution.held gid))).foldl (fun s r => s.foldHeld (gid.toNat / 2 ^ 58) r) s else s) := by
  change execCrossDeviceFold gid at_ s = _
  simp only [execCrossDeviceFold, h]

theorem exec_fold_early {s : State} {gid : Dword} {at_ : FoldAt} {n : Nat} {g : Grid} (h : s.gridNamed gid = some (n, g))
    (hd : g.finished < g.total) : exec (.crossDeviceFold gid at_) s
      = .next (if s.homeDevice (gid.toNat / 2 ^ 58) at_.page.toNat = s.fabric.devid.toNat then
        s.setGrid n { g with heldRed := g.heldRed ++ at_.others.map (Contribution.held gid), folds := g.folds ++ [at_.page.toNat] } else s) := by
  have hdone : g.blocksDone = false := decide_eq_false (by omega)
  change execCrossDeviceFold gid at_ s = _
  simp only [execCrossDeviceFold, h, hdone]
  rfl

theorem exec_fold_done {s : State} {gid : Dword} {at_ : FoldAt} {n : Nat} {g : Grid} (h : s.gridNamed gid = some (n, g))
    (hd : g.total ≤ g.finished) :
    let t := gid.toNat / 2 ^ 58
    let mine := fun (r : HeldRed) => decide (s.pageBase t r.va = at_.page.toNat)
    let own := g.heldRed.filter mine
    let s₁ := s.setGrid n { g with heldRed := g.heldRed.filter fun r => !mine r }
    exec (.crossDeviceFold gid at_) s = .next (if s.homeDevice t at_.page.toNat = s.fabric.devid.toNat then
        (sortBy heldBefore (own ++ at_.others.map (Contribution.held gid))).foldl (fun s r => s.foldHeld t r) s₁
      else if own = [] then s else s₁.note (s.homeDevice t at_.page.toNat) (.contribute gid (own.map HeldRed.contribution))) := by
  have hdone : g.blocksDone = true := decide_eq_true hd
  change execCrossDeviceFold gid at_ s = _
  simp only [execCrossDeviceFold, h, hdone, Bool.not_true, Bool.false_eq_true, if_false, List.isEmpty_iff]
  rfl

/-! ## Host memory -/

theorem find_filter_key {α : Type} (l : Sparse α) (p : Nat → Bool) (j : Nat) :
    Sparse.find (l.filter fun e => p e.1) j = if p j then Sparse.find l j else none := by
  induction l with
  | nil => simp [Sparse.find]
  | cons e l ih =>
    obtain ⟨k, v⟩ := e
    rw [List.filter_cons]
    by_cases hk : k = j
    · subst hk
      by_cases hp : p k = true <;> simp [hp, Sparse.find, ih]
    · by_cases hp : p k = true <;> simp [hp, Sparse.find, ih, hk]

/-- Signatures given to cores change the cores alone. -/
theorem foldl_giveSig_frame (f : State → Nat → BitVec 512) (cs : List Nat) (s : State) :
    { cs.foldl (fun s c => if f s c == 0 then s else s.giveSig (f s c) c) s with cores := s.cores } = s := by
  induction cs generalizing s with
  | nil => rfl
  | cons c cs ih =>
    rw [List.foldl_cons]
    have hstep : { (if f s c == 0 then s else s.giveSig (f s c) c) with cores := s.cores } = s := by split <;> rfl
    generalize (if f s c == 0 then s else s.giveSig (f s c) c) = u at hstep ⊢
    exact (congrArg (fun x : State => { x with cores := s.cores }) (ih u)).trans hstep

/-- What a write of the host to its memory leaves of it: the bytes of the sector that the address names. -/
theorem byte_hostWrite {mem : Memory} (hw : Memory.wf mem = true) (a : Nat) (bs : List Byte) (x : Nat) :
    Memory.byte (Memory.write mem a (bs.take (64 - a % 64))) x
      = if a ≤ x ∧ x < a + bs.length ∧ x / 64 = a / 64 then bs.getD (x - a) 0 else Memory.byte mem x := by
  have hlen : (bs.take (64 - a % 64)).length = min (64 - a % 64) bs.length := List.length_take
  split
  · next h =>
    obtain ⟨hle, hlt, hsec⟩ := h
    have hin : x - a < (bs.take (64 - a % 64)).length := by omega
    have hbyte := Memory.byte_write_inside mem a (x - a) _ hw hin
    rw [Nat.add_sub_cancel' hle] at hbyte
    rw [hbyte]
    simp only [List.getD_eq_getElem?_getD, List.getElem?_take]
    rw [if_pos (by omega)]
  · next h => exact Memory.byte_write_outside mem a x _ (by omega)

theorem exec_hostLineInvalidate (s : State) (a : Dword) (bs : List Byte) (hw : Memory.wf s.hostMem = true) :
    ∃ t, exec (.hostLineInvalidate a bs) s = .next t
      ∧ (∀ x, Memory.byte t.hostMem x = if a.toNat ≤ x ∧ x < a.toNat + bs.length ∧ x / 64 = a.toNat / 64 then bs.getD (x - a.toNat) 0
          else Memory.byte s.hostMem x)
      ∧ (∀ j, Sparse.find t.hostLines j = if j % 2 ^ 58 = a.toNat / 64 then none else Sparse.find s.hostLines j)
      ∧ { t with hostMem := s.hostMem, hostLines := s.hostLines, cores := s.cores } = s := by
  let u := { s.writeHost a.toNat (bs.take (64 - a.toNat % 64)) with
    hostLines := s.hostLines.filter fun e => e.1 % 2 ^ 58 != a.toNat / 64 }
  have hframe := foldl_giveSig_frame (fun s c => (s.core c).cache.foldl (fun sg x => match x.home with
    | .host t win _ off => if s.hostAddr t win off / 256 == a.toNat / 256 then sigAdd sg x.tenant (x.sector * 64) else sg
    | _ => sg) 0) u.activeCores u
  refine ⟨_, rfl, fun x => ?_, fun j => ?_, ?_⟩
  · exact (congrArg (fun t : State => Memory.byte t.hostMem x) hframe).trans (byte_hostWrite hw a.toNat bs x)
  · refine (congrArg (fun t : State => Sparse.find t.hostLines j) hframe).trans 
      ((find_filter_key s.hostLines (fun k => k % 2 ^ 58 != a.toNat / 64) j).trans ?_)
    simp
  · exact congrArg (fun t : State => { t with hostMem := s.hostMem, hostLines := s.hostLines, cores := s.cores }) hframe

end Sys2Proof.Machine
end

section
/-! SUPPORT. Messages received, and the requests of other devices (R37 to R40, R42 to R44, R88). -/

namespace Sys2Proof.Machine

/-! ## What is received -/

/-- A message of a type for this device, all of whose checks hold. -/
structure Sound (o : State) (m : Msg) (ty : Nat) : Prop where
  type : m.ty.toNat = ty
  dst : m.dst = (o.linked m).fabric.devid
  link : linkOk m = true
  formed : msgMalformed m = false
  integ : msgInteg m = none

section
variable {o s : State} {m : Msg} {ty : Nat} {lost : State → Nat → State} {take : State → State}

theorem receive_here (hty : m.ty.toNat = ty) (hdst : ty = 0x08 ∨ m.dst = o.fabric.devid) : o.receive ty m lost take
    = o.atLink m fun s => if msgMalformed m then s.malformed m else match msgInteg m with | some c => lost s c | none => take s := by
  refine if_neg ?_
  rcases hdst with h | h <;> simp [hty, h]

/-- A message whose checks hold is taken. -/
theorem receive_whole (hty : m.ty.toNat = ty) (hdst : ty = 0x08 ∨ m.dst = o.fabric.devid) (hlink : linkOk m = true)
    (hf : msgMalformed m = false) (hi : msgInteg m = none) : o.receive ty m lost take = take (o.linked m) := by
  rw [receive_here hty hdst, atLink_ok hlink, if_neg (by simp [hf]), hi]

theorem receive_sound (h : Sound o m ty) : o.receive ty m lost take = take (o.linked m) :=
  receive_whole h.type (.inr (h.dst.trans (linked_devid o m))) h.link h.formed h.integ

/-- What a step does that takes a message whose checks hold. -/
theorem received {u : State} (h : Sound o m ty) (ht : take (o.linked m) = u) :
    (Host.Outcome.next (o.receive ty m lost take) : Out) = .next u := congrArg _ ((receive_sound h).trans ht)

theorem receive_failed (hty : m.ty.toNat = ty) (hdst : m.dst = o.fabric.devid) (hlink : linkOk m = false) :
    o.receive ty m lost take = match m.via with | some p => o.flitFailed p.toNat | none => o :=
  (receive_here hty (.inr hdst)).trans (atLink_failed hlink)

theorem receive_other (hty : m.ty.toNat ≠ ty) : o.receive ty m lost take = o := if_pos (by simp [hty])

theorem receive_malformed (hty : m.ty.toNat = ty) (hdst : ty = 0x08 ∨ m.dst = o.fabric.devid) (hlink : linkOk m = true)
    (hf : msgMalformed m = true) : o.receive ty m lost take = (o.linked m).malformed m := by
  rw [receive_here hty hdst, atLink_ok hlink, if_pos hf]

/-- A malformed message that is no reply is rejected. -/
theorem malformed_request (hmcs : m.ty.toNat ≠ 0x08) (hreply : msgReplies m = false) : s.malformed m = s.reject m 4 0 0 := by
  have hne : (m.ty == 0x08) = false := (beq_eq_decide_toNat m.ty 0x08).trans (decide_eq_false hmcs)
  simp only [State.malformed, hne, hreply, Bool.false_eq_true, if_false]

theorem malformed_mcs (hmcs : m.ty.toNat = 0x08) : s.malformed m
    = s.tell (mkMsg 0x09 s.fabric.devid m.src m.tenant.toNat 0 0 m.tag (BitVec.ofNat 64 (4 * 2 ^ 32)) 0 []) := by
  have heq : (m.ty == 0x08) = true := (beq_eq_decide_toNat m.ty 0x08).trans (decide_eq_true hmcs)
  simp only [State.malformed, heq, if_true]

end

/-- The steps that take a message, but NAK, with the type that each takes. -/
def messageSteps (m : Msg) : List (Instr × Nat) :=
  [(.ldq m, 0x01), (.lda m, 0x02), (.stq m, 0x03), (.sta m, 0x04), (.atq m, 0x05), (.ata m, 0x06), (.sig m, 0x07), (.mcs m, 0x08),
    (.mca m, 0x09), (.cpw m, 0x0A), (.ivq m, 0x10), (.ivo m, 0x11), (.hpl m, 0x12), (.hrs m, 0x13), (.hbk m, 0x14)]

theorem exec_messageSteps (o : State) (m : Msg) : ∀ e ∈ messageSteps m,
    ∃ lost take, exec e.1 o = .next (o.receive e.2 m lost take) := by
  simp only [messageSteps, List.forall_mem_cons]
  exact ⟨⟨_, _, rfl⟩, ⟨_, _, rfl⟩, ⟨_, _, rfl⟩, ⟨_, _, rfl⟩, ⟨_, _, rfl⟩, ⟨_, _, rfl⟩, ⟨_, _, rfl⟩, ⟨_, _, rfl⟩, ⟨_, _, rfl⟩, ⟨_, _, rfl⟩,
    ⟨_, _, rfl⟩, ⟨_, _, rfl⟩, ⟨_, _, rfl⟩, ⟨_, _, rfl⟩, ⟨_, _, rfl⟩, fun _ h => absurd h List.not_mem_nil⟩

/-- NAK takes its own type as any message step does, and those that are unknown. -/
theorem exec_nak {o : State} {m : Msg} (h : (msgVc m.ty.toNat).isSome = true) : exec (.nak m) o
    = .next (o.receive 0x1F m (fun s c => s.endTag m c) fun s => s.takeNak m) := by
  refine congrArg Host.Outcome.next (if_neg ?_)
  rw [Option.isSome_iff_ne_none] at h
  simp [h]

theorem exec_nak_sound {o u : State} {m : Msg} (h : Sound o m 0x1F) (hu : (o.linked m).takeNak m = u) : exec (.nak m) o = .next u :=
  (exec_nak (by rw [h.type]; rfl)).trans (received h hu)

/-! ## Requests at their home -/

theorem takeRequest_now {s : State} {m : Msg} (h : s.inTurns m.tenant.toNat = false) : s.takeRequest m = s.performRequest m := by
  simp [State.takeRequest, State.awaitsTurn, h]

theorem takeRequest_test {s : State} {m : Msg} (h : msgTests m = true) : s.takeRequest m = s.performRequest m := by
  simp [State.takeRequest, State.awaitsTurn, h]

/-- What changes memory waits for the boundary. -/
theorem takeRequest_kept {s : State} {m : Msg} (h : s.inTurns m.tenant.toNat = true) (hroot : msgViews m = []) (ht : msgTests m = false)
    (hb : m.ty ≠ 0x01 ∨ ∃ x ∈ s.fabric.arrived, x.tenant = m.tenant ∧ x.src = m.src ∧ msgsMeet x m = true) :
    s.takeRequest m = { s with fabric := { s.fabric with arrived := s.fabric.arrived ++ [m] } } := by
  refine if_pos ?_
  have hbehind : (m.ty != 0x01 || s.fabric.arrived.any fun x => x.tenant == m.tenant && x.src == m.src && msgsMeet x m) = true := by
    rw [Bool.or_eq_true, List.any_eq_true, bne_iff_ne]
    refine hb.imp_right fun ⟨x, hmem, ht, hs, hm⟩ => ⟨x, hmem, ?_⟩
    simp [ht, hs, hm]
  simp only [State.awaitsTurn, h, hroot, ht, hbehind]
  rfl

/-- A load behind nothing does not wait for the boundary. -/
theorem takeRequest_load {s : State} {m : Msg} (hty : m.ty = 0x01)
    (hb : ∀ x ∈ s.fabric.arrived, ¬ (x.tenant = m.tenant ∧ x.src = m.src ∧ msgsMeet x m = true)) :
    s.takeRequest m = s.performRequest m := by
  refine if_neg ?_
  have hfree : (s.fabric.arrived.any fun x => x.tenant == m.tenant && x.src == m.src && msgsMeet x m) = false := by
    rw [List.any_eq_false]
    intro x hmem hx
    simp only [Bool.and_eq_true, beq_iff_eq] at hx
    exact hb x hmem ⟨hx.1.1, hx.1.2, hx.2⟩
  simp [State.awaitsTurn, hty, hfree]

theorem performRequest_some {s u : State} {m : Msg} (h : s.tryRequest m = some u) : s.performRequest m = u := by
  simp only [State.performRequest, h]

theorem performRequest_none {s : State} {m : Msg} (h : s.tryRequest m = none) : s.performRequest m
    = ({ s with fabric := { s.fabric with slotWait := s.fabric.slotWait ++ [(s.cycle, m)] } } : State).reject m 0 cVIEWPOOL 0 := by
  simp only [State.performRequest, h]

theorem tryRequest_ldq {s : State} {m : Msg} (h : m.ty.toNat = 0x01) : s.tryRequest m = some (s.performLdq m) := by
  simp only [State.tryRequest, h]

theorem tryRequest_stq {s : State} {m : Msg} (h : m.ty.toNat = 0x03) : s.tryRequest m = s.performStq m := by
  simp only [State.tryRequest, h]

theorem tryRequest_atq {s : State} {m : Msg} (h : m.ty.toNat = 0x05) : s.tryRequest m = s.performAtq m := by
  simp only [State.tryRequest, h]

theorem tryRequest_cpw {s : State} {m : Msg} (h : m.ty.toNat = 0x0A) : s.tryRequest m = s.performCpw m := by
  simp only [State.tryRequest, h]

section
variable {s : State} {m : Msg} {x : Xl}

/-! ### Loads -/

theorem performLdq_root (hx : s.remoteXlate m .rd = .ok x) (hroot : msgViews m = []) (hn : 0 < msgCount m)
    (hlost : s.lostHome x.home (msgCount m) = none) :
    let s₁ := ((s.fillTlb ownSite m.tenant.toNat x.leaf).fillHost x.home false).flushAt x.home (msgCount m)
    s.performLdq m = s₁.sendLda m x.leaf (s₁.readHome x.home (msgCount m)) := by
  simp only [State.performLdq, hx, hlost, hroot, if_neg hn.ne', List.isEmpty_nil, if_true]

theorem performLdq_test (hx : s.remoteXlate m .rd = .ok x) (hn : msgCount m = 0) : s.performLdq m = s.sendLda m x.leaf [] := by
  simp only [State.performLdq, hx, hn, if_true]

theorem sendLda_nothing (l : Leaf) (hn : msgCount m = 0) : s.sendLda m l []
    = s.tell (mkMsg 0x02 s.fabric.devid m.src m.tenant.toNat 0 0 m.tag (BitVec.ofNat 64 (leafBits l)) 0 []) := by
  rw [State.sendLda, hn, Nat.zero_mul, Nat.add_zero]
  rfl

/-! ### Stores -/

/-- Only a store of no bytes of the root view tests its page. -/
theorem msgTests_store (hty : m.ty.toNat = 0x03) : msgTests m = (msgCount m == 0 && (msgViews m).isEmpty) := by
  simp only [msgTests, hty]

theorem performStq_test (hty : m.ty.toNat = 0x03) (hx : s.remoteXlate m .wr = .ok x) (hroot : msgViews m = []) (hn : msgCount m = 0) :
    s.performStq m = some (s.sendSta m (leafBits x.leaf)) := by
  have ht : msgTests m = true := by rw [msgTests_store hty, hroot, hn]; rfl
  simp only [State.performStq, hx, ht, if_true]

/-- A store that is no test writes for its view, or for the root view, and is acknowledged. -/
theorem performStq_writes (hty : m.ty.toNat = 0x03) (hx : s.remoteXlate m .wr = .ok x) (ht : 0 < msgCount m ∨ msgViews m ≠ [])
    (hlost : s.lostHome x.home (max 1 (msgCount m)) = none) : s.performStq m
      = ((s.fillTlb ownSite m.tenant.toNat x.leaf).writeFor m m.addr.toNat x ((flitBytes m.data).take (msgCount m))).map fun s =>
          s.sendSta m (leafBits x.leaf) := by
  have htest : msgTests m = false := by
    rw [msgTests_store hty, Bool.and_eq_false_iff]
    exact ht.imp (fun h => beq_false_of_ne h.ne') (fun h => by simpa using h)
  simp only [State.performStq, hx, htest, hlost, Bool.false_eq_true, if_false]

theorem writeFor_root {va : Nat} {bs : List Byte} (hroot : msgViews m = []) :
    s.writeFor m va x bs = some (s.storeHome none m.tenant.toNat va x.home bs) := by
  simp only [State.writeFor, hroot]

theorem writeFor_view {va v : Nat} {l : List Nat} {bs : List Byte} (hv : msgViews m = v :: l) :
    s.writeFor m va x bs = (s.captureIn m.tenant.toNat (v :: l) va x).map fun s => s.writeSlot m.tenant.toNat v va bs := by
  simp only [State.writeFor, hv]

/-! ### Atomics -/

/-- A dword of the inline operand as a number. -/
theorem toNat_inlDword (m : Msg) (j : Nat) : (inlDword m j).toNat = bitsAt m.inl.toNat (64 * j) 64 := by
  rw [inlDword, BitVec.toNat_ofNat, bitsAt, Nat.mod_mod]

theorem msgTests_atomic (hty : m.ty.toNat = 0x05) : msgTests m = bitAt m.opw.toNat 14 := by
  simp only [msgTests, hty]

section
variable {op : AOp} {fmt : Fmt} (hop : atomOpOf (bitsAt m.opw.toNat 0 8) = some op) (hfmt : atomFmtOk (bitsAt m.opw.toNat 8 4) = some fmt)
include hop hfmt

theorem performAtq_disabled (hen : (s.tenant m.tenant.toNat).en = false) : s.performAtq m = some (s.sendAta m 0 3 0 0) := by
  have hx : s.remoteXlate m .wr = .error (3, 0, 0) := by simp [State.remoteXlate, State.pageHere, hen]
  simp only [State.performAtq, hop, hfmt, hx, if_true]

theorem performAtq_test (hty : m.ty.toNat = 0x05) (ht : bitAt m.opw.toNat 14 = true) (hx : s.remoteXlate m .wr = .ok x) :
    s.performAtq m = some (s.sendAta m (leafBits x.leaf) 0 0 0) := by
  simp only [State.performAtq, hop, hfmt, hx, msgTests_atomic hty, ht, if_true]

theorem performAtq_steps (hty : m.ty.toNat = 0x05) (ht : bitAt m.opw.toNat 14 = false) (hx : s.remoteXlate m .wr = .ok x)
    (hpage : x.leaf.fmt = .bytes ∨ x.leaf.fmt = fmt) (hlost : s.lostHome x.home (atomBytes fmt) = none) :
    s.performAtq m = s.atomicFor m x op fmt := by
  have hok : (x.leaf.fmt != .bytes && x.leaf.fmt != fmt) = false := by
    rcases hpage with h | h <;> simp [h]
  simp only [State.performAtq, hop, hfmt, hx, msgTests_atomic hty, ht, hok, hlost, Bool.false_eq_true, if_false]

end

theorem performAtq_badOp (hop : atomOpOf (bitsAt m.opw.toNat 0 8) = none) : s.performAtq m = some (s.sendAta m 0 1 0 0) := by
  simp only [State.performAtq, hop]

theorem performAtq_badFmt (hop : atomOpOf (bitsAt m.opw.toNat 0 8) ≠ none) (hfmt : atomFmtOk (bitsAt m.opw.toNat 8 4) = none) :
    s.performAtq m = some (s.sendAta m 0 2 0 0) := by
  obtain ⟨op, hop⟩ := Option.ne_none_iff_exists'.mp hop
  simp only [State.performAtq, hop, hfmt]

theorem sendAta_done (attrs old : Nat) (fl : Flags) : s.sendAta m attrs 0 old fl
    = s.tell (mkMsg 0x06 s.fabric.devid m.src m.tenant.toNat 0 0 m.tag (BitVec.ofNat 64 (attrs + fl.toNat * 2 ^ 56))
        (BitVec.ofNat 256 old) []) := by
  rw [State.sendAta, Nat.zero_mul, Nat.add_zero]

/-- The step of an atomic of the root view at its home: a compare-and-swap that fails stores nothing. -/
theorem atomicFor_root {op : AOp} {fmt : Fmt} (hroot : msgViews m = []) :
    let s₁ := ((s.fillTlb ownSite m.tenant.toNat x.leaf).flushAt x.home (atomBytes fmt)).fillHost x.home true
    let old := bytesToNat (s₁.readHome x.home (atomBytes fmt))
    let c := (inlDword m 1).toNat
    let r := atomStep op fmt (bitAt m.opw.toNat 13) old (inlDword m 0).toNat c
    let u := if op = .cas ∧ old ≠ c % 2 ^ (8 * atomBytes fmt) then s₁
      else s₁.storeHome none m.tenant.toNat m.addr.toNat x.home (natToBytes (atomBytes fmt) r.1)
    s.atomicFor m x op fmt = some (u.tell (mkMsg 0x06 u.fabric.devid m.src m.tenant.toNat 0 0 m.tag
      (BitVec.ofNat 64 (leafBits x.leaf + r.2.toNat * 2 ^ 56)) (BitVec.ofNat 256 old) [])) := by
  unfold State.atomicFor
  have h0 : bitsAt m.inl.toNat 0 64 = (inlDword m 0).toNat := (toNat_inlDword m 0).symm
  have h1 : bitsAt m.inl.toNat 64 64 = (inlDword m 1).toNat := (toNat_inlDword m 1).symm
  simp only [hroot, h0, h1, List.isEmpty_nil, if_true, Bool.and_true, State.chainRead, Bool.and_eq_true, beq_iff_eq, bne_iff_ne]
  generalize ((s.fillTlb ownSite m.tenant.toNat x.leaf).flushAt x.home (atomBytes fmt)).fillHost x.home true = s₁
  by_cases hfail : op = .cas ∧ bytesToNat (s₁.readHome x.home (atomBytes fmt)) ≠ (inlDword m 1).toNat % 2 ^ (8 * atomBytes fmt)
  · rw [if_pos hfail, if_pos hfail, Option.map_some, sendAta_done]
  · rw [if_neg hfail, if_neg hfail, if_neg hfail, writeFor_root hroot, Option.map_some, sendAta_done]

theorem sendAta_status (attrs status : Nat) : s.sendAta m attrs status 0 0
    = s.tell (mkMsg 0x06 s.fabric.devid m.src m.tenant.toNat 0 0 m.tag (BitVec.ofNat 64 (attrs + status * 2 ^ 32))
        (BitVec.ofNat 256 0) []) := by
  rw [State.sendAta, show (0 : Flags).toNat = 0 from rfl, Nat.zero_mul, Nat.add_zero]

theorem sendAta_refused (status : Nat) : s.sendAta m 0 status 0 0
    = s.tell (mkMsg 0x06 s.fabric.devid m.src m.tenant.toNat 0 0 m.tag (BitVec.ofNat 64 (status * 2 ^ 32)) (BitVec.ofNat 256 0) []) := by
  rw [sendAta_status, Nat.zero_add]

theorem sendAta_attrs (attrs : Nat) : s.sendAta m attrs 0 0 0
    = s.tell (mkMsg 0x06 s.fabric.devid m.src m.tenant.toNat 0 0 m.tag (BitVec.ofNat 64 attrs) (BitVec.ofNat 256 0) []) := by
  rw [sendAta_status, Nat.zero_mul, Nat.add_zero]

/-! ### Copy writes -/

theorem performCpw_writes {s₁ : State} (hchip : msgOnChip m = false) (hf : s.cpwFault m = none)
    (hw : s.writeSectors m ((flitBytes m.data).take (msgCount m)) (fun _ => true) = some s₁) :
    s.performCpw m = some (s₁.sendSta m 0) := by
  simp only [State.performCpw, hchip, hf, hw, Bool.false_eq_true, if_false, Option.map_some]

end

end Sys2Proof.Machine
end

section
/-! SUPPORT. Answers to this device's requests (R38 to R40, R44, R170, R328). -/

namespace Sys2Proof.Machine

section
variable {s : State} {m : Msg} {r : Remote} {b tid p access w : Nat}

/-- An answer that comes from the device that was asked, or a rejection. -/
theorem answerTag_found {a : Answer} (hr : s.remote? m.tag = some r) (hsrc : m.src = r.dst) (hcopy : ∀ id, r.what ≠ .copy id) :
    s.answerTag m a = (s.closeRemote r.tag).answerPlain r a.plain := by
  have ha : msgAnswers m r = true := by simp [msgAnswers, hsrc]
  have hplain : (match r.what with | .copy _ => a | _ => a.plain) = a.plain := by
    split
    · next id h => exact absurd h (hcopy id)
    · rfl
  simp only [State.answerTag, hr, ha, if_true]
  exact congrArg _ hplain

/-! ## What each kind of request becomes -/

/-- The attributes in a reply are those of its low 16 bits. -/
theorem msgLeaf_policy (m : Msg) : (msgLeaf m).policy = bitsAt m.opw.toNat 10 2 := by
  simp only [msgLeaf, leafFrom, bitsAt]
  omega

/-- The copies that a proxy slice keeps of what a load has brought. -/
theorem answerPlain_load {keep near : Bool} {l : Leaf} {bs : List Byte} (h : r.what = .load p keep near) :
    let s₂ := if keep = true ∧ l.policy ≠ 1 then { s with proxy := (s.proxy.filter fun y =>
        !decide (y.tenant = r.tenant ∧ y.va < r.va + bs.length ∧ r.va < y.va + y.bytes.length)) ++ [⟨r.tenant, r.va, bs⟩] } else s
    let s₃ := match (if near = true ∧ l.policy = 0 then s₂.coreOf p else none) with
      | some c => s₂.keepRemote c r.tenant r.va (.remote r.dst.toNat r.addr) bs
      | none => s₂
    s.answerPlain r (.data l bs) = { s₃ with pending := s₃.pending.map fun y =>
      if y.id = p then { y with regs := (loadHow y.how (overlayStores bs r.va y.cover)).1
                                fpflags := (loadHow y.how (overlayStores bs r.va y.cover)).2, ready := true } else y } := by
  have hmeets : (fun y : ProxyPiece => !(y.tenant == r.tenant && decide (y.va < r.va + bs.length ∧ r.va < y.va + y.bytes.length)))
      = fun y => !decide (y.tenant = r.tenant ∧ y.va < r.va + bs.length ∧ r.va < y.va + y.bytes.length) := by
    funext y
    rw [Bool.decide_and (y.tenant = r.tenant)]
    rfl
  simp only [State.answerPlain, h, State.answerLoad, State.updPending, hmeets, Bool.and_eq_true, bne_iff_ne, beq_iff_eq] <;> rfl

theorem updPending_eq (s : State) (id : Nat) (f : PendOp → PendOp) :
    s.updPending id f = { s with pending := s.pending.map fun y => if y.id = id then f y else y } := by
  simp only [State.updPending, beq_iff_eq]

/-- A compare-and-swap of another device's memory that has stored counts as a write of its core (R173, R326). -/
def State.casStored (s : State) (r : Remote) (p : Nat) (cas : Option Dword) (v : Nat) : State :=
  match s.pending.find? (fun x => x.id == p), cas with
  | some x, some c => if c.toNat = v then (match s.block? x.block with
      | some k => if k.vtag = 0 then (s.noteWritten k.core r.tenant r.va).noteStored x.block x.tid x.pc r.va else s
      | none => s) else s
  | _, _ => s

/-- The block whose request this is has found its slot. -/
def State.unlackFor (s : State) (what : RemoteFor) : State := match s.whose what with
  | some e => s.unlack e.1
  | none => s

/-- An atomic that has been performed: its result becomes ready. -/
theorem answerAtomic_eq (s : State) (r : Remote) (p : Nat) (cas : Option Dword) (v : Nat) (fl : Flags) :
    s.answerAtomic r p cas v fl = ((s.casStored r p cas v).unlackFor r.what).updPending p fun y => { y with
      regs := regWrites y.how.1 (natToWords y.how.2.1 (if y.how.2.2 = 1 then 0 else v)), fpflags := fl, ready := true } := by
  have hunlack : ∀ u : State, (match u.whose r.what with | some (b, _) => u.unlack b | none => u) = u.unlackFor r.what := by
    intro u
    unfold State.unlackFor
    cases u.whose r.what <;> rfl
  have hstored : (match s.pending.find? (fun x => x.id == p), cas with
      | some x, some c =>
        if c.toNat != v then s
        else match s.block? x.block with
          | some k => if k.vtag == 0 then (s.noteWritten k.core r.tenant r.va).noteStored x.block x.tid x.pc r.va else s
          | none => s
      | _, _ => s) = s.casStored r p cas v := by
    unfold State.casStored
    cases s.pending.find? (fun x => x.id == p) with
    | none => rfl
    | some x =>
      cases cas with
      | none => rfl
      | some c =>
        by_cases hc : c.toNat = v
        · cases hk : s.block? x.block <;> simp [hc]
        · simp [hc]
  rw [← hstored, ← hunlack]
  simp only [State.answerAtomic, atomAnswer, beq_iff_eq] <;> rfl

theorem answerPlain_atomic {cas : Option Dword} {l : Leaf} {v : Nat} {fl : Flags} (h : r.what = .atomic p cas) :
    s.answerPlain r (.value l v fl) = s.answerAtomic r p cas v fl := by
  simp only [State.answerPlain, h]

theorem answerPlain_store {pc : Dword} {l : Leaf} (h : r.what = .store b tid pc) : s.answerPlain r (.ack l) = s.unlack b := by
  simp only [State.answerPlain, h, State.answerStore]

theorem answerPlain_red {ths : List (Nat × Nat)} {pc : Dword} {l : Leaf} {v : Nat} {fl : Flags} (h : r.what = .red ths pc) :
    s.answerPlain r (.value l v fl) = (ths.foldl (fun s e => s.unlack e.1) s).raiseLive ths fl := by
  simp only [State.answerPlain, h, State.answerRed]

theorem waitsFor_of_status {tag : Word} (h : (s.thread b tid).status = .waiting (.remote tag)) : s.waitsFor b tid tag = true := by
  simp [State.waitsFor, h]

/-- The test of a page that its target answers: the thread is told its attributes, and runs on. -/
theorem answerPlain_test {nf : Bool} {l : Leaf} (h : r.what = .test b tid access w nf)
    (hw : (s.thread b tid).status = .waiting (.remote r.tag)) : s.answerPlain r (.ack l)
      = (s.tellPage b tid w { remoteLeaf w with
          fmt := l.fmt, redop := l.redop, view := l.view, domain := l.domain, policy := l.policy, geom := l.geom } 0).wake b tid := by
  simp only [State.answerPlain, h, State.answerTest, waitsFor_of_status hw, Bool.not_true, Bool.false_eq_true, if_false, State.toldPage]

/-- The test of a page that its target refuses. -/
theorem answerPlain_testRefused {nf : Bool} {c k : Nat} (h : r.what = .test b tid access w nf)
    (hw : (s.thread b tid).status = .waiting (.remote r.tag)) (hc : c ≠ cINTEG) :
    s.answerPlain r (.error 0 c k) = s.trapWaiting b tid (Trap.ofXlate (c, k) access w) := by
  simp [State.answerPlain, h, State.answerTest, waitsFor_of_status hw, hc]

theorem answerPlain_capture {l : Leaf} (h : r.what = .capture b tid access w)
    (hw : (s.thread b tid).status = .waiting (.remote r.tag)) : s.answerPlain r (.ack l) = s.giveSlot b tid w := by
  simp only [State.answerPlain, h, State.answerCapture, waitsFor_of_status hw, Bool.not_true, Bool.false_eq_true, if_false]

theorem answerPlain_loadLost {keep near : Bool} {st c k : Nat} (h : r.what = .load p keep near) : s.answerPlain r (.error st c k)
    = (s.remoteRecord r.tenant r.what r.va cINTEG (if c = cINTEG then k else 6)).replyLost p
        ⟨cINTEG, if c = cINTEG then k else 6, 0, r.va⟩ := by
  simp only [State.answerPlain, h, State.answerError]

/-! ## Rejections -/

theorem takeNak_reply (h : bitAt m.inl.toNat 65 = true) : s.takeNak m = s := by
  simp only [State.takeNak, h, if_true]

/-- A handle message that was rejected is lost. -/
theorem takeNak_handle (h : bitAt m.inl.toNat 65 = false) (h' : bitAt m.inl.toNat 64 = true) : s.takeNak m
    = ((s.postEvent m.tenant.toNat (FaultRec.integ (if (msgError m).1 = cINTEG then (msgError m).2 else 6))).answerAsked m.tag
        (BitVec.ofNat 64 (bitsAt m.inl.toNat 0 64)) lostHandle).breakHandle chainFuel (BitVec.ofNat 64 (bitsAt m.inl.toNat 0 64))
        (BitVec.ofNat 8 cINTEG) 0 0 := by
  simp only [State.takeNak, h, h', Bool.false_eq_true, if_false, if_true]

/-- A request that was rejected. -/
theorem takeNak_request (h : bitAt m.inl.toNat 65 = false) (h' : bitAt m.inl.toNat 64 = false) (hm : s.mcastTag m.tag = false)
    (he : msgError m ≠ (cVIEWPOOL, 0)) : s.takeNak m
    = s.answerTag m (.error (if bitsAt m.opw.toNat 40 8 = 0 then msgStatus m else 0) (msgError m).1 (msgError m).2) := by
  simp only [State.takeNak, h, h', hm, he, Bool.false_eq_true, if_false]

/-! ## Multicasts -/

section
variable {x : Mcast}

theorem takeMca_open {tag : Word} {st : Nat} (hx : s.fabric.mcasts.find? (fun x => BitVec.ofNat 32 x.id == tag) = some x)
    (hl : 1 < x.left) : s.takeMca tag st none = { s with fabric := { s.fabric with mcasts := s.fabric.mcasts.map fun y =>
      if y.id = x.id then { y with left := y.left - 1, status := max x.status st, lost := x.lost } else y } } := by
  have hwhy : (if x.lost.isSome then x.lost else none) = x.lost := by cases x.lost <;> rfl
  simp only [State.takeMca, hx, if_neg (Nat.not_le.mpr hl), hwhy, beq_iff_eq]

theorem takeMca_parent {tag : Word} {st : Nat} {q : BitVec 10}
    (hx : s.fabric.mcasts.find? (fun x => BitVec.ofNat 32 x.id == tag) = some x)
    (hl : x.left ≤ 1) (hi : x.issuer = none) (hp : x.parent = some q) :
    let s₁ := { s with fabric := { s.fabric with mcasts := s.fabric.mcasts.filter fun y => y.id != x.id } }
    s.takeMca tag st none
      = s₁.tell (mkMsg 0x09 s₁.fabric.devid q x.tenant 0 0 x.tag (BitVec.ofNat 64 (max x.status st * 2 ^ 32)) 0 []) := by
  simp only [State.takeMca, hx, if_pos hl, hi, hp]

theorem takeMca_issuer {tag : Word} {st : Nat} {e : Nat × Nat × Dword × Nat}
    (hx : s.fabric.mcasts.find? (fun x => BitVec.ofNat 32 x.id == tag) = some x)
    (hl : x.left ≤ 1) (hi : x.issuer = some e) :
    let s₁ := { s with fabric := { s.fabric with mcasts := s.fabric.mcasts.filter fun y => y.id != x.id } }
    s.takeMca tag st none
      = (s₁.closeRemote x.tag).finishStmc x.tenant ⟨e.1, e.2.1, e.2.2.1⟩ e.2.2.2 (max x.status st) x.lost := by
  have hwhy : (if x.lost.isSome then x.lost else none) = x.lost := by cases x.lost <;> rfl
  simp only [State.takeMca, hx, if_pos hl, hi, hwhy]

end

end

end Sys2Proof.Machine
end

section
/-! SUPPORT. Messages about handles, and the steps that reject a malformed message (R37, R48, R49). -/

namespace Sys2Proof.Machine

/-! ## HPL -/

theorem testBit_bitsAt (n lo k i : Nat) (h : i < k) : bitAt n (lo + i) = (bitsAt n lo k).testBit i := by
  simp [bitsAt, bitAt, Nat.testBit_mod_two_pow, Nat.testBit_div_two_pow, h, Nat.add_comm]

/-- What an HPL asks for stands in three bits of its inline operand. -/
theorem hpl_bits (m : Msg) {v : Nat} (h : bitsAt m.inl.toNat 8 3 = v) :
    bitAt m.inl.toNat 8 = v.testBit 0 ∧ bitAt m.inl.toNat 9 = v.testBit 1 ∧ bitAt m.inl.toNat 10 = v.testBit 2 := by
  subst h
  exact ⟨testBit_bitsAt _ 8 3 0 (by omega), testBit_bitsAt _ 8 3 1 (by omega), testBit_bitsAt _ 8 3 2 (by omega)⟩

/-- What an HPL does whose checks hold. -/
def State.takeHpl (s : State) (m : Msg) : State :=
  if bitAt m.inl.toNat 10 then s.answerAsked m.tag m.opw .notReady
  else if hHome m.opw != s.fabric.devid then s
  else if bitAt m.inl.toNat 8 then s.answerAsk m
  else if bitAt m.inl.toNat 9 then s.dropHandle m.opw
  else if s.gone m.opw then s
  else (s.updSluice (hTenant m.opw) (hSlot m.opw) fun e => { e with
    st := if e.st == .unplaced then .placed else e.st, place := some (m.src, bitsAt m.inl.toNat 0 3) }).releaseIvos m.opw

theorem exec_hpl (o : State) (m : Msg) :
    exec (.hpl m) o = .next (o.receive 0x12 m (State.loseHandle m) fun s => s.takeHpl m) := rfl

section
variable {s : State} {m : Msg} (hhome : hHome m.opw = s.fabric.devid) (h10 : bitAt m.inl.toNat 10 = false)
include hhome h10

theorem takeHpl_asked (h8 : bitAt m.inl.toNat 8 = true) : s.takeHpl m = s.answerAsk m := by
  simp [State.takeHpl, hhome, h10, h8]

theorem takeHpl_dropped (h8 : bitAt m.inl.toNat 8 = false) (h9 : bitAt m.inl.toNat 9 = true) : s.takeHpl m = s.dropHandle m.opw := by
  simp [State.takeHpl, hhome, h10, h8, h9]

theorem takeHpl_placed (h8 : bitAt m.inl.toNat 8 = false) (h9 : bitAt m.inl.toNat 9 = false) (hgone : s.gone m.opw = false) :
    s.takeHpl m = (s.updSluice (hTenant m.opw) (hSlot m.opw) fun e => { e with
      st := if e.st = .unplaced then .placed else e.st, place := some (m.src, bitsAt m.inl.toNat 0 3) }).releaseIvos m.opw := by
  simp [State.takeHpl, hhome, h10, h8, h9, hgone]

end

/-! ## Steps that reject -/

/-- The types of messages that are no replies and no multicasts. -/
theorem rejecting_steps (m : Msg) : ∀ e ∈ [(Instr.ldq m, 0x01), (.stq m, 0x03), (.atq m, 0x05), (.sig m, 0x07), (.cpw m, 0x0A),
    (.ivq m, 0x10), (.ivo m, 0x11), (.hpl m, 0x12), (.hrs m, 0x13), (.hbk m, 0x14)],
    e ∈ messageSteps m ∧ e.2 ≠ 0x08 ∧ e.2 ∉ [0x02, 0x04, 0x06, 0x09, 0x1F] := by
  simp [messageSteps]

end Sys2Proof.Machine
end

section
/-! Ports, routes and the messages of the fabric (R32 to R50, R88, R173, R175). -/

namespace Sys2Proof.Machine

/-- Settles O39: of the ports, routes and folds each clause is an equation of its step; of a message, the step takes it where its
checks hold, and what taking it does is the equation of its type. -/
theorem fabricPortsAndMessages : Obligations.FabricPortsAndMessages := by
  refine ⟨fun s => ⟨exec_fabidWrite s, exec_routeEntryWrite s, ?forward, ?flow, ?flits, ?fold, ?held, ?host, rfl⟩, ?_⟩
  case forward =>
    intro m hdst hty hlink u r p m' whole
    have hexec : exec (.messageForward m) s = .next (u.forward m) := exec_messageForward hdst hty hlink
    refine ⟨fun h => ?_, fun h hh => ?_, fun h hh hd => ?_, fun h hh hr hp ho => ?_, fun h hh hr hp ho => ?_, fun h hh hr => ?_,
      dropForward_cases s m⟩
    all_goals refine hexec.trans (congrArg Host.Outcome.next ?_)
    · exact forward_malformed h
    · exact forward_hops h hh
    · exact forward_sector h hh hd
    · exact (forward_whole h hh).trans ((congrArg (·.getD (u.dropForward m 3)) (send_routed (m := m') hr hp)).trans (toPort_open (m := m') ho))
    · exact (forward_whole h hh).trans ((congrArg (·.getD (u.dropForward m 3)) (send_routed (m := m') hr hp)).trans (toPort_stopped (m := m') ho))
    · exact (forward_whole h hh).trans (congrArg (·.getD (u.dropForward m 3)) (send_unrouted (m := m') hr))
  case flow =>
    intro p vc n htrained x failed
    have hopen : ¬ (!(s.port p.toNat).trained) = true := by simp [State.port, htrained]
    exact ⟨congrArg Host.Outcome.next (flitFailed_trained htrained), flitFailed_trained htrained, rfl,
      congrArg Host.Outcome.next (if_neg hopen), congrArg Host.Outcome.next (if_neg hopen), exec_flowGo htrained⟩
  case flits => exact fun n l => ⟨dropFlits_zero l, fun m k => rfl⟩
  case fold =>
    intro gid page others t home here mine theirs fold ev
    exact ⟨fun h => exec_fold_unnamed h, fun n g h => ⟨fun hd => exec_fold_early h hd, fun hd => exec_fold_done h hd⟩⟩
  case held =>
    intro t r x n hfmt hx hlost
    have h := foldHeld_found hx (by rw [atomBytes_eq]; exact hlost)
    rw [atomBytes_eq] at h
    exact h
  case host => exact fun a bs hw => exec_hostLineInvalidate s a bs hw
  intro o m s t n bytes sound now root answer inl
  have hs : s = o.linked m := rfl
  have hsound : ∀ {ty}, sound ty → Sound o m ty := fun ⟨hty, hdst, hlink, hf, hi⟩ => ⟨hty, hdst, hlink, hf, hi⟩
  have hdevid : s.fabric.devid = o.fabric.devid := linked_devid o m
  clear_value s
  -- what a step does whose message is sound
  have taken : ∀ {ty : Nat} {lost : State → Nat → State} {take : State → State} {u : State}, sound ty → take s = u →
      (Host.Outcome.next (o.receive ty m lost take) : Out) = .next u := fun h ht => received (hsound h) (hs ▸ ht)
  -- and that of a request which is performed at once
  have performed : ∀ {ty : Nat} {lost : State → Nat → State} {u : State}, sound ty →
      (s.inTurns t = false ∨ msgTests m = true) → s.tryRequest m = some u →
      (Host.Outcome.next (o.receive ty m lost fun s => s.takeRequest m) : Out) = .next u := fun h hnow hu =>
    taken h ((hnow.elim takeRequest_now takeRequest_test).trans (performRequest_some hu))
  refine ⟨?link, ?ldq, ?stq, ?atq, ?cpw, ?ldqTest, ?stqTest, ?atqTest, ?atqStatus, ?view, ?turns, ?answers, ?nakReply, ?nakHandle, ?sig,
    ?mcs, ?mcsMalformed, ?mca, ?tasks, ?placed, ?asked, ?dropped, ?notReady, ?elsewhere, ?result, ?broken, ?ready, ?breaks, ?malformed⟩
  case link =>
    intro e he
    rcases List.mem_append.mp (show e ∈ messageSteps m ++ [(.nak m, 0x1F)] from he) with he | he
    · obtain ⟨lost, take, hexec⟩ := exec_messageSteps o m e he
      exact ⟨fun hty hdst hlink => hexec.trans (congrArg _ (receive_failed hty hdst hlink)),
        fun hty _ => hexec.trans (congrArg _ (receive_other hty))⟩
    · obtain rfl := List.mem_singleton.mp he
      exact ⟨fun hty hdst hlink => (exec_nak (by rw [hty]; rfl)).trans (congrArg _ (receive_failed hty hdst hlink)),
        fun hty hknown => (exec_nak (hknown rfl)).trans (congrArg _ (receive_other hty))⟩
  case ldq =>
    intro x hnow hroot hn hx hlost hsnd
    exact performed hsnd (.inl hnow) ((tryRequest_ldq hsnd.1).trans (congrArg some (performLdq_root hx hroot hn hlost)))
  case stq =>
    intro x hnow hroot hn hx hlost hsnd
    refine performed hsnd (.inl hnow) ((tryRequest_stq hsnd.1).trans ?_)
    rw [performStq_writes hsnd.1 hx (.inl hn) (by rw [Nat.max_eq_right (show 1 ≤ msgCount m from hn)]; exact hlost), writeFor_root hroot]
    rfl
  case atq =>
    intro x op fmt hnow hroot hx hsnd ht hop hfmt hpage k hlost s₁ old r
    refine performed hsnd (.inl hnow) ((tryRequest_atq hsnd.1).trans ?_)
    have hk : atomBytes fmt = k := atomBytes_eq fmt
    have hstep := atomicFor_root (s := s) (x := x) (op := op) (fmt := fmt) hroot
    rw [hk] at hstep
    exact (performAtq_steps hop hfmt hsnd.1 ht hx hpage (hk ▸ hlost)).trans hstep
  case cpw =>
    intro s₁ hnow hsnd hchip hfault hw
    exact performed hsnd (.inl hnow) ((tryRequest_cpw hsnd.1).trans (performCpw_writes hchip hfault hw))
  case ldqTest =>
    intro x hnow hn hx hsnd
    exact performed hsnd (.inl hnow) ((tryRequest_ldq hsnd.1).trans (congrArg some ((performLdq_test hx hn).trans (sendLda_nothing _ hn))))
  case stqTest =>
    intro x hnow hroot hn hx hsnd
    exact performed hsnd (.inl hnow) ((tryRequest_stq hsnd.1).trans (performStq_test hsnd.1 hx hroot hn))
  case atqTest =>
    intro x hsnd ht hop hfmt hx
    obtain ⟨op, hop⟩ := Option.ne_none_iff_exists'.mp hop
    obtain ⟨fmt, hfmt⟩ := Option.ne_none_iff_exists'.mp hfmt
    exact performed hsnd (.inr ((msgTests_atomic hsnd.1).trans ht)) ((tryRequest_atq hsnd.1).trans
      ((performAtq_test hop hfmt hsnd.1 ht hx).trans (congrArg some (sendAta_attrs _))))
  case atqStatus =>
    intro hnow hsnd
    refine ⟨fun hop => ?_, fun hop hfmt => ?_, fun hop hfmt hen => ?_⟩
    all_goals refine performed hsnd (.inl hnow) ((tryRequest_atq hsnd.1).trans ?_)
    · exact (performAtq_badOp hop).trans (congrArg some (sendAta_refused 1))
    · exact (performAtq_badFmt hop hfmt).trans (congrArg some (sendAta_refused 2))
    · obtain ⟨op, hop⟩ := Option.ne_none_iff_exists'.mp hop
      obtain ⟨fmt, hfmt⟩ := Option.ne_none_iff_exists'.mp hfmt
      exact (performAtq_disabled hop hfmt hen).trans (congrArg some (sendAta_refused 3))
  case view =>
    intro x v l hnow hv hx hlost hsnd
    have hne : msgViews m ≠ [] := by simp [hv]
    have hstq := (tryRequest_stq hsnd.1).trans (performStq_writes hsnd.1 hx (.inr hne) hlost)
    rw [writeFor_view hv] at hstq
    refine ⟨fun s₁ hcap => ?_, fun hcap => ?_⟩
    · refine performed hsnd (.inl hnow) (hstq.trans ?_)
      rw [hcap]
      rfl
    · rw [hcap] at hstq
      exact taken hsnd ((takeRequest_now hnow).trans (performRequest_none hstq))
  case turns =>
    intro hturns hroot htests kept
    refine ⟨?_, fun hb hsnd => ?_, fun hb hsnd => ?_⟩
    · have hkept : m.ty.toNat ≠ 0x01 → s.takeRequest m = kept := fun hty =>
        takeRequest_kept hturns hroot htests (.inl fun h => hty (by rw [h]; rfl))
      simp only [List.forall_mem_cons, List.not_mem_nil, false_implies, implies_true, and_true]
      exact ⟨fun hsnd => taken hsnd (hkept (by rw [hsnd.1]; decide)), fun hsnd => taken hsnd (hkept (by rw [hsnd.1]; decide)),
        fun hsnd => taken hsnd (hkept (by rw [hsnd.1]; decide))⟩
    · exact taken hsnd (takeRequest_kept hturns hroot htests (.inr hb))
    · exact taken hsnd ((takeRequest_load (BitVec.eq_of_toNat_eq hsnd.1) hb).trans (performRequest_some (tryRequest_ldq hsnd.1)))
  case answers =>
    intro r hr hsrc s₁ va got ready
    have answered : ∀ {a : Answer}, (∀ id, r.what ≠ .copy id) → s.answerTag m a = s₁.answerPlain r a.plain :=
      fun hcopy => answerTag_found hr hsrc hcopy
    refine ⟨?load, ?atomic, ?store, ?red, ?test, ?capture, ?refused⟩
    case load =>
      intro p keep near hwhat hsnd policy s₂ s₃
      refine taken hsnd ((answered (by simp [hwhat])).trans ?_)
      have hload := answerPlain_load (s := s₁) (l := msgLeaf m) (bs := got) hwhat
      rw [msgLeaf_policy] at hload
      exact hload
    case atomic =>
      intro p cas hwhat hsnd hst s₂ s₃
      refine taken hsnd ?_
      rw [show msgStatus m = 0 from hst, if_pos rfl, answered (by simp [hwhat]), show bitsAt m.inl.toNat 0 64 = (inl 0).toNat from
        (toNat_inlDword m 0).symm]
      exact (answerPlain_atomic hwhat).trans ((answerAtomic_eq s₁ r p cas _ _).trans (updPending_eq _ p _))
    case store =>
      intro b tid pc hwhat hsnd
      exact taken hsnd ((answered (by simp [hwhat])).trans (answerPlain_store hwhat))
    case red =>
      intro ths pc hwhat hsnd hst
      refine taken hsnd ?_
      rw [show msgStatus m = 0 from hst, if_pos rfl, answered (by simp [hwhat])]
      exact answerPlain_red hwhat
    case test =>
      intro b tid access w nf hwhat hsnd hw l
      exact taken hsnd ((answered (by simp [hwhat])).trans (answerPlain_test hwhat hw))
    case capture =>
      intro b tid access w hwhat hsnd hw
      exact taken hsnd ((answered (by simp [hwhat])).trans (answerPlain_capture hwhat hw))
    case refused =>
      intro hsnd h65 h64 hmcast hpool e cause
      have htake := takeNak_request h65 h64 hmcast hpool
      refine ⟨fun p keep near hwhat => ?_, fun b tid access w nf hwhat hw hc hcode => ?_⟩
      · exact exec_nak_sound (hsound hsnd) (hs ▸ htake.trans ((answered (by simp [hwhat])).trans (answerPlain_loadLost hwhat)))
      · rw [if_neg hcode] at htake
        exact exec_nak_sound (hsound hsnd) (hs ▸ htake.trans ((answered (by simp [hwhat])).trans (answerPlain_testRefused hwhat hw hc)))
  case nakReply => exact fun hsnd h => exec_nak_sound (hsound hsnd) (hs ▸ takeNak_reply h)
  case nakHandle => exact fun hsnd h h' => exec_nak_sound (hsound hsnd) (hs ▸ takeNak_handle h h')
  case sig =>
    intro hsnd f rest hdata
    refine taken hsnd ?_
    rw [hdata]
    rfl
  case mcs =>
    intro hty hlink hf hi r s₁
    have htake : ∀ {u : State}, (if m.hops == 15 then s.sendMca m.src m.tenant.toNat m.tag 4 else s.takeMcs m) = u →
        exec (.mcs m) o = .next u := fun h => congrArg _ ((receive_whole hty (.inl rfl) hlink hf hi).trans (hs ▸ h))
    exact ⟨fun h => htake (if_pos (beq_iff_eq.mpr h)), fun h => htake ((if_neg (beq_iff_eq.not.mpr h)).trans rfl)⟩
  case mcsMalformed =>
    intro hty hlink hf
    refine congrArg _ ((receive_malformed hty (.inl rfl) hlink hf).trans ?_)
    rw [← hs]
    exact malformed_mcs hty
  case mca =>
    intro x hsnd hx st s₁
    exact ⟨fun hl => taken hsnd (takeMca_open hx hl), fun p hl hi hp => taken hsnd (takeMca_parent hx hl hi hp),
      fun e hl hi => taken hsnd (takeMca_issuer hx hl hi)⟩
  case tasks =>
    intro f rest hdata v
    refine ⟨fun hsnd => taken hsnd ?_, fun hsnd => taken hsnd ?_⟩
    all_goals
      rw [hdata]
      rfl
  case placed =>
    intro hhome hgone hbits hsnd
    obtain ⟨h8, h9, h10⟩ := hpl_bits m hbits
    exact taken hsnd (takeHpl_placed hhome h10 h8 h9 hgone)
  case asked =>
    intro hhome hbits hsnd
    obtain ⟨h8, h9, h10⟩ := hpl_bits m hbits
    exact taken hsnd (takeHpl_asked hhome h10 h8)
  case dropped =>
    intro hhome hbits hsnd
    obtain ⟨h8, h9, h10⟩ := hpl_bits m hbits
    exact taken hsnd (takeHpl_dropped hhome h10 h8 h9)
  case notReady => exact fun h hsnd => taken hsnd (if_pos h)
  case elsewhere => exact fun hhome h hsnd => taken hsnd ((if_neg (by simp [h])).trans (if_pos (bne_iff_ne.mpr hhome)))
  case result =>
    intro hhome hsnd result x
    refine taken hsnd ((if_neg (beq_iff_eq.not.mpr hhome)).trans ?_)
    simp only [beq_iff_eq]
    rfl
  case broken =>
    intro hhome hsnd code hops reason v
    refine taken hsnd ((if_neg (beq_iff_eq.not.mpr hhome)).trans ?_)
    simp only [beq_iff_eq]
    rfl
  case ready => exact fun hhome hsnd => taken hsnd (if_pos (beq_iff_eq.mpr hhome))
  case breaks => exact fun hhome hsnd => taken hsnd (if_pos (beq_iff_eq.mpr hhome))
  case malformed =>
    intro hf hlink hdst e he hty
    obtain ⟨hstep, hmcs, hreply⟩ := rejecting_steps m e he
    obtain ⟨lost, take, hexec⟩ := exec_messageSteps o m e hstep
    refine hexec.trans (congrArg _ ((receive_malformed hty (.inr (hdst.trans hdevid)) hlink hf).trans ?_))
    rw [← hs]
    exact malformed_request (hty ▸ hmcs) (Bool.eq_false_iff.mpr fun h => hreply (hty ▸ (msgReplies_iff m).mp h))

end Sys2Proof.Machine
end

section
/-! A trap whose record is written at once, in a machine that lists its block twice (R73, R74, R136, R225). -/

namespace Sys2Proof.Machine

/-- A TRAP placed in block 3, where tenant 0 has a fault queue with room whose ring lies on a page of this device. -/
def placedTrap : State :=
  let s := (State.reset.placeClause .sys (encode (.trap 0))).updTenant 0 fun t => { t with fq := { t.fq with en := true, base := 0x20000 } }
  { s with tlb := [⟨ownSite, 0, { farPage with base := 0x20000, size := 0x20000, kind := .local, addr := 0x40000 }⟩] }

/-- The block table lists block 3 again, in a speculative view. -/
def trapListedTwice : State :=
  { placedTrap with blocks := placedTrap.blocks ++ placedTrap.blocks.map fun (e : Nat × Block) => (e.1, { e.2 with specs := [someView] }) }

/-- Block 3, as it is found first, and its grid. -/
def trappingBlock : Block := (trapListedTwice.block? 3).getD (placedBlock 1 2 4 3 0)
def trappingGrid : Grid := (trapListedTwice.gridOf 3).getD (placedGrid 1 0)

/-- Refutes O36: its second part has a thread that takes a trap without a handler stand suspended on its record. Where the
block table lists the block twice, the interrupt of the record, which is written at once, goes into the outbox of the second
entry, which is in a speculative view and has not suspended the thread, and that entry is put in the first one's place. -/
theorem not_trapsTaken : ¬ Obligations.TrapsTaken := by
  intro h
  have hblock : trapListedTwice.block? 3 = some trappingBlock := by decide +kernel
  obtain ⟨-, -, hnew, -⟩ := h.2 trapListedTwice 3 0 trappingBlock trappingGrid 0x40 0x40 1 2 (Trap.of cTRAP 0) hblock
    (by decide +kernel) (by decide +kernel) (.inr (.inl (by decide +kernel))) (by decide +kernel) (by decide +kernel)
  obtain ⟨⟨k, hk, -, hthread⟩, -⟩ := hnew (by decide +kernel)
  have hclaim : ((trapListedTwice.takeTrap 3 0 0x40 1 0x40 2 (Trap.of cTRAP 0)).thread 3 0).status ≠ .running := by
    simp only [State.thread, hk, hthread]
    exact TStatus.noConfusion
  exact hclaim (by decide +kernel)

end Sys2Proof.Machine
end

section
/-! SUPPORT. What the device's own writes and messages change: the fabric and the memories, and nothing that runs (R33, R57, R71,
R73, R173). -/

namespace Sys2Proof.Machine

/-- Nothing but the fabric and the memories has changed. -/
structure WritesOut (s u : State) : Prop where
  frame : { u with fabric := s.fabric, mem := s.mem, hostMem := s.hostMem, hostLines := s.hostLines } = s

section
variable {s t u : State}

theorem WritesOut.refl (s : State) : WritesOut s s := ⟨rfl⟩

theorem WritesOut.trans (h : WritesOut s t) (h' : WritesOut t u) : WritesOut s u :=
  ⟨(congrArg (fun x : State => { x with fabric := s.fabric, mem := s.mem, hostMem := s.hostMem, hostLines := s.hostLines }) h'.frame).trans h.frame⟩

theorem WritesOut.cores (h : WritesOut s u) : u.cores = s.cores := (congrArg State.cores h.frame :)

theorem WritesOut.tenants (h : WritesOut s u) : u.tenants = s.tenants := (congrArg State.tenants h.frame :)

theorem WritesOut.grids (h : WritesOut s u) : u.grids = s.grids := (congrArg State.grids h.frame :)

theorem WritesOut.blocks (h : WritesOut s u) : u.blocks = s.blocks := (congrArg State.blocks h.frame :)

theorem writesOut_foldl {α : Type} (l : List α) (f : State → α → State) (h : ∀ s a, WritesOut s (f s a)) (s : State) :
    WritesOut s (l.foldl f s) := by
  induction l generalizing s with
  | nil => exact WritesOut.refl s
  | cons a l ih => exact (h s a).trans (ih _)

theorem writesOut_send {m : Msg} (h : s.send m = some u) : WritesOut s u := by
  unfold State.send State.toPort at h
  dsimp only at h
  split at h
  · rw [← Option.some.inj h]
    split <;> exact ⟨rfl⟩
  · cases h

theorem writesOut_newTag (s : State) : WritesOut s s.newTag.2 := ⟨rfl⟩

theorem writesOut_sendSig (s : State) (t : Nat) (sg : BitVec 512) (d : Nat) : WritesOut s (s.sendSig t sg d) := by
  unfold State.sendSig
  dsimp only
  split
  · exact writesOut_newTag s
  · next v hv =>
    have hsent : WritesOut s v := (writesOut_newTag s).trans (writesOut_send hv)
    exact ⟨hsent.frame⟩

theorem writesOut_ownRequest {t ty d addr : Nat} {opw : Dword} {data : List Flit} {what : RemoteFor}
    (h : s.ownRequest t ty d addr opw data what = some u) : WritesOut s u := by
  obtain ⟨v, hv, rfl⟩ := Option.map_eq_some_iff.mp h
  have hsent : WritesOut s v := (writesOut_newTag s).trans (writesOut_send hv)
  exact ⟨hsent.frame⟩

theorem writesOut_writeHome (s : State) (h : HomeAt) (bs : List Byte) : WritesOut s (s.writeHome h bs) := by
  cases h <;> exact ⟨rfl⟩

theorem writesOut_writeRoot {t va : Nat} {bs : List Byte} {what : RemoteFor} {far : Bool}
    (h : s.writeRoot t va bs what = .ok (u, far)) : WritesOut s u := by
  unfold State.writeRoot at h
  split at h
  · cases h
  · split at h
    · cases h
    · obtain ⟨rfl, -⟩ := Prod.mk.inj (Except.ok.inj h)
      refine writesOut_foldl _ _ (fun s e => ?_) s
      split
      · cases hr : s.ownRequest t 0x03 _ _ _ _ what with
        | none => exact WritesOut.refl s
        | some u => exact writesOut_ownRequest hr
      · exact writesOut_writeHome s _ _

end

/-- A vector that is raised is pending, or is written to host memory. -/
theorem raiseVector_frame (s : State) (t v : Nat) :
    { s.raiseVector t v with tenants := s.tenants, hostMem := s.hostMem, hostLines := s.hostLines } = s := by
  unfold State.raiseVector
  dsimp only
  split <;> rfl

/-- Signatures given to cores change the cores alone. -/
theorem giveSigs_frame (sg : BitVec 512) (cs : List Nat) (s : State) :
    { cs.foldl (fun s c => s.giveSig sg c) s with cores := s.cores } = s := by
  induction cs generalizing s with
  | nil => rfl
  | cons c cs ih => exact congrArg (fun x : State => { x with cores := s.cores }) (ih (s.giveSig sg c))

/-- The signatures of a write of the device's own go to the cores and into the fabric. -/
theorem signLines_frame (s : State) (t va n : Nat) : ∃ u, { u with cores := s.cores } = s ∧ WritesOut u (s.signLines t va n) :=
  ⟨_, giveSigs_frame (rangeSig t va n) s.activeCores s, writesOut_foldl _ _ (fun s d => writesOut_sendSig s t _ d) _⟩

end Sys2Proof.Machine
end

section
/-! SUPPORT. Tenants, wide entries, shares, the pool and interrupt masks, and the host's accesses through an aperture (R53, R56 to
R59). -/

namespace Sys2Proof.Machine

/-! ## Wide entries (R53, R57, R58) -/

theorem toNat_wideOffset {o : Nat} (h : o < 0x180) : (BitVec.ofNat 9 o).toNat = o := by
  rw [BitVec.toNat_ofNat]
  omega

theorem exec_wideEntryLowWrite (s : State) (t : BitVec 6) (v : Dword) {o : Nat} (ho : 0x040 ≤ o ∧ o < 0x180 ∧ o % 16 = 0) :
    exec (.wideEntryLowWrite t (BitVec.ofNat 9 o) v) s
      = .next (s.updTenant t.toNat fun x => { x with staged := Sparse.set 0 x.staged o v }) := by
  change execWideEntryLowWrite t _ v s = _
  simp only [execWideEntryLowWrite, toNat_wideOffset ho.2.1]
  rw [if_pos ho]

/-- The high dword of an entry of four interrupt vectors and sixteen windows, with the low one that its place holds staged. -/
theorem exec_wideEntryHighWrite (s : State) (t : BitVec 6) (v : Dword) {j : Nat} (hj : j < 20) :
    exec (.wideEntryHighWrite t (BitVec.ofNat 9 (0x048 + 16 * j)) v) s = .next (s.updTenant t.toNat fun x =>
      let low := Sparse.get 0 x.staged (0x040 + 16 * j)
      if j < 4 then { x with ivec := Sparse.set Ivec.none x.ivec j ⟨low, BitVec.ofNat 32 v.toNat⟩ }
      else
        let w : Window := ⟨BitVec.ofNat 52 (low.toNat / 2 ^ 12), BitVec.ofNat 36 v.toNat, bitAt v.toNat 36, bitAt v.toNat 37, bitAt v.toNat 38⟩
        { x with win := Sparse.set Window.none x.win (j - 4) w }) := by
  change execWideEntryHighWrite t _ v s = _
  simp only [execWideEntryHighWrite, toNat_wideOffset (show 0x048 + 16 * j < 0x180 by omega)]
  rw [if_pos (by omega), show 0x048 + 16 * j - 8 = 0x040 + 16 * j by omega, show (0x048 + 16 * j - 0x040) / 16 = j by omega,
    show (0x048 + 16 * j - 0x080) / 16 = j - 4 by omega]
  simp only [show 0x048 + 16 * j < 0x080 ↔ j < 4 by omega, BitVec.extractLsb', Nat.shiftRight_eq_div_pow]
  rfl

/-! ## Shares and the pool (R56) -/

theorem bitsAt_zero (n k : Nat) : bitsAt n 0 k = n % 2 ^ k := by rw [bitsAt, pow_zero, Nat.div_one]

theorem shareSum_eq (s : State) (t : Nat) (f : Tenant → Nat) (w : Nat) : s.shareSum t f w =
    s.tenants.foldl (fun a e => if e.1 ≠ t ∧ e.2.en = true then a + f e.2 else a) (if (s.tenant t).en = true then w else 0) := by
  simp only [State.shareSum, Bool.and_eq_true, bne_iff_ne]

/-- A number cut to its low bits twice is cut once. -/
theorem ofNat_mod_two_pow (n k : Nat) : BitVec.ofNat k (n % 2 ^ k) = BitVec.ofNat k n :=
  BitVec.eq_of_toNat_eq (by simp)

theorem poolFits_iff (s : State) (b z : Nat) : s.poolFits b z = true ↔
    (b + z) * 2 ^ 30 ≤ s.hbmBytes ∧ ¬ (0 < z ∧ b * 2 ^ 30 < s.hbmBytes ∧ s.reservedBase < (b + z) * 2 ^ 30) := by
  have hpos : 0 < z * 2 ^ 30 ↔ 0 < z := by omega
  simp only [State.poolFits, State.inReserved, Bool.and_eq_true, Bool.not_eq_true', decide_eq_true_eq, decide_eq_false_iff_not, hpos, Nat.add_mul]

theorem exec_mpshareWrite (s : State) (t : BitVec 6) (v : Dword) : exec (.mpshareWrite t v) s = .next (
    if s.pkg.mpsize.toNat * 1024 < s.shareSum t.toNat (fun y => y.mpshare.toNat) (v.toNat % 2 ^ 16) then s
    else (s.updTenant t.toNat fun x => { x with mpshare := BitVec.ofNat 16 v.toNat }).resumeChildren t.toNat none) := by
  change execMpshareWrite t v s = _
  simp only [execMpshareWrite, bitsAt_zero, ofNat_mod_two_pow]

theorem exec_slshareWrite (s : State) (t : BitVec 6) (v : Dword) : exec (.slshareWrite t v) s = .next (
    if 16384 < v.toNat % 2 ^ 15 ∨ 16384 < s.shareSum t.toNat (fun y => y.slshare.toNat) (v.toNat % 2 ^ 15) then s
    else s.updTenant t.toNat fun x => { x with slshare := BitVec.ofNat 15 v.toNat }) := by
  change execSlshareWrite t v s = _
  simp only [execSlshareWrite, bitsAt_zero, ofNat_mod_two_pow]

theorem exec_poolSizeWrite (s : State) (v : Dword) : exec (.poolBaseWrite true v) s = .next (
    if s.views = [] ∧ s.poolFits s.pkg.mpbase.toNat (v.toNat % 2 ^ 10) = true then
      { s with pkg := { s.pkg with mpsize := BitVec.ofNat 10 v.toNat } } else s) := by
  change execPoolBaseWrite true v s = _
  simp only [execPoolBaseWrite, bitsAt_zero, ofNat_mod_two_pow]
  by_cases hv : s.views = [] <;> simp [hv]

theorem exec_poolBaseWrite (s : State) (v : Dword) : exec (.poolBaseWrite false v) s = .next (
    if s.views = [] ∧ s.poolFits (bitsAt v.toNat 30 10) s.pkg.mpsize.toNat = true then
      { s with pkg := { s.pkg with mpbase := BitVec.ofNat 10 (bitsAt v.toNat 30 10) } } else s) := by
  change execPoolBaseWrite false v s = _
  simp only [execPoolBaseWrite]
  by_cases hv : s.views = [] <;> simp [hv]

/-! ## Interrupts (R57) -/

theorem onBit_ofNat {w : Nat} (n : Nat) {i : Nat} (hi : i < w) : onBit (BitVec.ofNat w n) i = bitAt n i := by
  simp only [onBit, bitAt, BitVec.getLsbD_ofNat, hi, decide_true, Bool.true_and]

theorem raiseVector_eq (s : State) (t w : Nat) : s.raiseVector t w =
    (let e := Sparse.get Ivec.none (s.tenant t).ivec w
     if onBit (s.tenant t).imask w = true ∨ e.addr = 0 then s.updTenant t fun x => { x with ipend := setBit x.ipend w true }
     else s.putHost e.addr.toNat (natToBytes 4 e.data.toNat)) := by
  simp only [State.raiseVector, Bool.or_eq_true, beq_iff_eq]

theorem exec_imaskWrite (s : State) (t : BitVec 6) (v : Dword) : exec (.imaskWrite t v) s = .next ([0, 1, 2, 3].foldl (fun y i =>
      if onBit (s.tenant t.toNat).imask i = true ∧ bitAt v.toNat i = false ∧ onBit (s.tenant t.toNat).ipend i = true then y.raiseVector t.toNat i else y)
      (s.updTenant t.toNat fun x => { x with imask := BitVec.ofNat 4 v.toNat })) := by
  refine congrArg Host.Outcome.next (List.foldl_ext _ _ _ fun y i hi => ?_)
  have hi4 : i < 4 := by
    have hall : ∀ i ∈ [0, 1, 2, 3], i < 4 := by decide
    exact hall i hi
  simp only [onBit_ofNat v.toNat hi4, Bool.and_eq_true, Bool.not_eq_true', and_assoc]

/-! ## Apertures (R59, R176) -/

/-- An access that stays in its sector is one piece. -/
theorem sectorPieces_one {va n : Nat} (h : va % 64 + n ≤ 64) (hn : 0 < n) : sectorPieces va n = [(va, n, 0)] := by
  have hlast : (va + n - 1) / 64 = va / 64 := by omega
  have hlo : max va (va / 64 * 64) = va := by omega
  have hhi : min (va + n) ((va / 64 + 1) * 64) - va = n := by omega
  rw [sectorPieces, hlast, if_neg (by omega), Nat.sub_self]
  simp only [Nat.zero_add, List.range_one, List.map_cons, List.map_nil, Nat.add_zero, hlo, hhi, Nat.sub_self]

/-- The first piece of an access begins where it does. -/
theorem sectorPieces_head {va n : Nat} (hn : 0 < n) : ∃ m rest, sectorPieces va n = (va, m, 0) :: rest := by
  have hlo : max va (va / 64 * 64) = va := by omega
  rw [sectorPieces, if_neg (by omega), List.range_succ_eq_map]
  simp only [List.map_cons, Nat.add_zero, hlo, Nat.sub_self]
  exact ⟨_, _, rfl⟩

section
variable {s : State} {t va n : Nat} {w : Want}

theorem aperture_found {x : Xl} (h : va % 64 + n ≤ 64) (hn : 0 < n) (hx : s.xlate ownSite t va w = .ok x) (hk : x.leaf.kind = .local)
    (hd : x.leaf.domain = 2) (hl : s.lostHome x.home n = none) : s.aperture t va n w = some [(0, n, x)] := by
  simp [State.aperture, sectorPieces_one h hn, State.aperturePiece, hx, hk, hd, hl]

theorem aperturePiece_none (h : ∀ x, s.xlate ownSite t va w ≠ .ok x ∨ x.leaf.kind ≠ .local ∨ x.leaf.domain ≠ 2) (m : Nat) :
    s.aperturePiece t va m w = none := by
  unfold State.aperturePiece
  split
  · rfl
  · next x hx =>
    refine if_neg fun hc => ?_
    simp only [Bool.and_eq_true, beq_iff_eq] at hc
    rcases h x with hne | hk | hd
    · exact hne hx
    · exact hk hc.1.1
    · exact hd hc.1.2

/-- An access whose first byte the host may not reach finds nothing. -/
theorem aperture_none (hn : 0 < n) (h : ∀ x, s.xlate ownSite t va w ≠ .ok x ∨ x.leaf.kind ≠ .local ∨ x.leaf.domain ≠ 2) :
    s.aperture t va n w = none := by
  obtain ⟨m, rest, hp⟩ := sectorPieces_head (va := va) hn
  rw [State.aperture, hp, List.foldr_cons, aperturePiece_none h]

end

section
variable {s : State} {t : BitVec 6} {off : BitVec 53} {x : Xl}

theorem exec_hostApertureLoad {m : BitVec 7} (h : s.aperture t.toNat off.toNat m.toNat .rd = some [(0, m.toNat, x)]) :
    let s₁ := (s.fillTlb ownSite t.toNat x.leaf).flushAt x.home m.toNat
    exec (.hostApertureLoad t off m) s = .next { s₁ with hostReplies := s₁.hostReplies ++ [.data (s₁.readHome x.home m.toNat)] } := by
  change execHostApertureLoad t off m s = _
  simp only [execHostApertureLoad, h, List.foldl_cons, List.foldl_nil, List.flatMap_cons, List.flatMap_nil, List.append_nil]
  rfl

theorem exec_hostApertureStore {bs : List Byte} (h : s.aperture t.toNat off.toNat bs.length .wr = some [(0, bs.length, x)]) :
    let s₁ := ((s.fillTlb ownSite t.toNat x.leaf).writeHome x.home bs).releaseLines t.toNat off.toNat bs.length
    exec (.hostApertureStore t off bs) s = .next { s₁ with hostReplies := s₁.hostReplies ++ [.done] } := by
  change execHostApertureStore t off bs s = _
  simp only [execHostApertureStore, h, List.foldl_cons, List.foldl_nil, List.drop_zero, List.take_length]
  rfl

theorem exec_hostApertureLoad_refused {m : BitVec 7} (h : s.aperture t.toNat off.toNat m.toNat .rd = none) :
    exec (.hostApertureLoad t off m) s = .next { s with hostReplies := s.hostReplies ++ [.error] } := by
  change execHostApertureLoad t off m s = _
  simp only [execHostApertureLoad, h]
  rfl

theorem exec_hostApertureStore_refused {bs : List Byte} (h : s.aperture t.toNat off.toNat bs.length .wr = none) :
    exec (.hostApertureStore t off bs) s = .next { s with hostReplies := s.hostReplies ++ [.error] } := by
  change execHostApertureStore t off bs s = _
  simp only [execHostApertureStore, h]
  rfl

end

/-! ## TLBINV (R66) -/

section
variable {s : State} {t : Nat}

theorem invalidate_busy (h : (s.tenant t).tlbBusy = true) (lo size : Nat) : s.invalidate t lo size = s := if_pos h

/-- TLBINV while none is under way. -/
theorem invalidate_idle (h : (s.tenant t).tlbBusy = false) (hw : Sparse.wf Tenant.reset s.tenants = true) (lo size : Nat) :
    let u := s.invalidate t lo size
    u.tenant t = { s.tenant t with tlbBusy := true, tlbSpan := (lo, size) }
    ∧ (∀ e, e ∈ u.tlb ↔ e ∈ s.tlb ∧ (e.tenant ≠ t ∨ e.leaf.base + e.leaf.size ≤ lo ∨ lo + size ≤ e.leaf.base))
    ∧ (∀ p, p ∈ u.tlbPtrs ↔ p ∈ s.tlbPtrs ∧ (p.tenant ≠ t ∨ p.base + p.size ≤ lo ∨ lo + size ≤ p.base))
    ∧ { u with tlb := s.tlb, tlbPtrs := s.tlbPtrs, tenants := s.tenants } = s := by
  intro u
  have hu : u = _ := if_neg (ne_true_of_eq_false h)
  refine ⟨?_, fun e => ?_, fun p => ?_, ?_⟩
  · rw [hu]
    exact State.tenant_updTenant _ t _ hw
  · rw [hu]
    simp [List.mem_filter]
  · rw [hu]
    simp [List.mem_filter]
  · rw [hu]
    rfl

end

theorem exec_tlbinvSpan (s : State) (t : BitVec 6) (span : BitVec 5) (vp : BitVec 36) : exec (.tlbinvSpan t span vp) s = .next (
    if span.toNat < 19 then
      s.invalidate t.toNat (vp.toNat * 2 ^ 17 / 2 ^ (span.toNat + 17) * 2 ^ (span.toNat + 17)) (2 ^ (span.toNat + 17))
    else s.invalidate t.toNat 0 (2 ^ 53)) := by
  change execTlbinvSpan t span vp s = _
  rw [execTlbinvSpan]
  by_cases h : span.toNat < 19
  · rw [if_pos h, if_neg (by omega)]
  · rw [if_neg h, if_pos (by omega)]

end Sys2Proof.Machine
end

section
/-! SUPPORT. What the device's own writes, its messages and its folds leave alone: the caches of the cores. -/

namespace Sys2Proof.Machine

/-! ## The relation -/

/-- A canonical table of cores stays so, and no cache of a core has changed. -/
def KeepsCaches (s t : State) : Prop :=
  Sparse.wf Core.reset s.cores = true → Sparse.wf Core.reset t.cores = true ∧ ∀ c, (t.core c).cache = (s.core c).cache

theorem KeepsCaches.refl (s : State) : KeepsCaches s s := fun hw => ⟨hw, fun _ => rfl⟩

theorem KeepsCaches.trans {s t u : State} (h : KeepsCaches s t) (h' : KeepsCaches t u) : KeepsCaches s u := by
  intro hw
  obtain ⟨hwt, ht⟩ := h hw
  obtain ⟨hwu, hu⟩ := h' hwt
  exact ⟨hwu, fun c => (hu c).trans (ht c)⟩

/-- A change outside the cores. -/
theorem keepsCaches_of_cores {s t : State} (hc : t.cores = s.cores) : KeepsCaches s t := by
  refine fun hw => ⟨hc ▸ hw, fun c => ?_⟩
  rw [State.core, State.core, hc]

/-- A change of a core that is none of its cache. -/
theorem keepsCaches_updCore (s : State) (c : Nat) (f : Core → Core) (hf : ∀ k, (f k).cache = k.cache) : KeepsCaches s (s.updCore c f) := by
  refine fun hw => ⟨State.wf_updCore s c f hw, fun x => ?_⟩
  by_cases hx : x = c
  · rw [hx, State.core_updCore s c f hw, hf]
  · rw [State.core_updCore_ne s c x f hx]

theorem keepsCaches_foldl {α : Type} (l : List α) (f : State → α → State) (h : ∀ s a, KeepsCaches s (f s a)) (s : State) :
    KeepsCaches s (l.foldl f s) := by
  induction l generalizing s with
  | nil => exact KeepsCaches.refl s
  | cons a l ih => exact (h s a).trans (ih _)

/-! ## Messages and fault records -/

theorem raiseRecord_cores (s : State) (t : Nat) (r : FaultRec) : (s.raiseRecord t r).cores = s.cores := by
  unfold State.raiseRecord
  split
  · rfl
  · exact (congrArg State.cores (raiseVector_frame s t 1) :)

theorem keepsCaches_giveSig (s : State) (sg : BitVec 512) (c : Nat) : KeepsCaches s (s.giveSig sg c) :=
  keepsCaches_updCore s c _ fun _ => rfl

theorem keepsCaches_signLines (s : State) (t va n : Nat) : KeepsCaches s (s.signLines t va n) :=
  (keepsCaches_foldl _ _ (fun s c => keepsCaches_giveSig s _ c) s).trans
    (keepsCaches_foldl _ _ (fun s d => keepsCaches_of_cores (writesOut_sendSig s t _ d).cores) _)

theorem keepsCaches_updTenant (s : State) (t : Nat) (f : Tenant → Tenant) : KeepsCaches s (s.updTenant t f) := keepsCaches_of_cores rfl

theorem keepsCaches_recordWritten (s : State) (t : Nat) (r : FaultRec) : KeepsCaches s (s.recordWritten t r) :=
  ((keepsCaches_signLines s t _ 64).trans (keepsCaches_updTenant _ t _)).trans (keepsCaches_of_cores (raiseRecord_cores _ t r))

/-- An attempt to write a record leaves a state only where the record is written or sent. -/
theorem keepsCaches_writeRecord {s u : State} {t : Nat} {r : FaultRec} (h : s.writeRecord t r = .written u ∨ s.writeRecord t r = .sent u) :
    KeepsCaches s u := by
  unfold State.writeRecord at h
  dsimp only at h
  split at h
  · simp at h
  · split at h
    · simp at h
    · next hw =>
      simp only [reduceCtorEq, false_or, Posting.sent.injEq] at h
      exact h ▸ keepsCaches_of_cores (writesOut_writeRoot hw).cores
    · next hw =>
      simp only [reduceCtorEq, or_false, Posting.written.injEq] at h
      exact h ▸ (keepsCaches_of_cores (writesOut_writeRoot hw).cores).trans (keepsCaches_recordWritten _ t r)

theorem keepsCaches_postRecord (s : State) (t : Nat) (b : Bool) (r : FaultRec) : KeepsCaches s (s.postRecord t b r) := by
  have attempt : ∀ u, ((if (s.tenant t).fq.held.isEmpty then s.writeRecord t r else .kept) = .written u
      ∨ (if (s.tenant t).fq.held.isEmpty then s.writeRecord t r else .kept) = .sent u) → KeepsCaches s u := by
    intro u hu
    split at hu
    · exact keepsCaches_writeRecord hu
    · simp at hu
  unfold State.postRecord
  dsimp only
  split
  · next hw => exact attempt _ (.inl hw)
  · next hw => exact (attempt _ (.inr hw)).trans (keepsCaches_updTenant _ t _)
  · refine keepsCaches_of_cores ?_
    split
    · rfl
    · split <;> rfl

theorem keepsCaches_postEvent (s : State) (t : Nat) (r : FaultRec) : KeepsCaches s (s.postEvent t r) :=
  keepsCaches_postRecord (s.takeSeq t).2 t false _

/-! ## Requests, and writes and folds at the home -/

theorem keepsCaches_request (s : State) (t ty d scope addr : Nat) (opw : Dword) (inl : BitVec 256) (data : List Flit) (what : RemoteFor) :
    KeepsCaches s (s.request t ty d scope addr opw inl data what).1 := by
  unfold State.request
  dsimp only
  split
  · next u h =>
    have hsent : u.cores = s.newTag.2.cores := (writesOut_send h).cores
    exact keepsCaches_of_cores hsent
  · exact keepsCaches_postEvent s.newTag.2 t _

theorem keepsCaches_dropProxy (s : State) (t va n : Nat) : KeepsCaches s (s.dropProxy t va n) := keepsCaches_of_cores rfl

theorem keepsCaches_storeHome (s : State) (who : Option Site) (t va : Nat) (h : HomeAt) (bs : List Byte) :
    KeepsCaches s (s.storeHome who t va h bs) := by
  unfold State.storeHome
  split
  · exact keepsCaches_postEvent s t _
  · exact keepsCaches_postEvent s t _
  · refine KeepsCaches.trans (keepsCaches_of_cores ?_) (keepsCaches_of_cores (writesOut_writeHome _ h bs).cores)
    split <;> rfl

theorem keepsCaches_writeBack (s : State) (x : CacheSector) : KeepsCaches s (s.writeBack x) := by
  unfold State.writeBack
  split
  · exact KeepsCaches.refl s
  · split
    · exact keepsCaches_foldl _ _ (fun s r => (keepsCaches_dropProxy s _ _ _).trans (keepsCaches_request _ _ _ _ _ _ _ _ _ _)) s
    · exact keepsCaches_storeHome s _ _ _ _ _

theorem keepsCaches_raiseLive (s : State) (ths : List (Nat × Nat)) (fl : Flags) : KeepsCaches s (s.raiseLive ths fl) :=
  keepsCaches_foldl ths _ (fun s e => keepsCaches_of_cores (State.updThread_cores s e.1 e.2 _)) s

theorem keepsCaches_foldRed (s : State) (c : Nat) (r : RedEntry) : KeepsCaches s (s.foldRed c r) := by
  have hnote : KeepsCaches s (s.noteWritten c r.tenant r.va) := keepsCaches_updCore s c _ fun k => by split <;> rfl
  refine (hnote.trans (keepsCaches_dropProxy _ r.tenant r.va (atomBytes r.fmt))).trans ?_
  unfold State.foldRed
  dsimp only
  split
  · exact keepsCaches_request _ _ _ _ _ _ _ _ _ _
  · split
    · exact keepsCaches_postEvent _ _ _
    · exact (keepsCaches_storeHome _ _ _ _ _ _).trans (keepsCaches_raiseLive _ _ _)

theorem keepsCaches_flushReds (s : State) (c : Nat) (p : RedEntry → Bool) : KeepsCaches s (s.flushReds c p) :=
  (keepsCaches_updCore s c (fun k => { k with reds := k.reds.filter fun r => !p r }) fun _ => rfl).trans
    (keepsCaches_foldl _ _ (fun s r => keepsCaches_foldRed s c r) _)

/-! ## The end of a TLBINV (R66) -/

theorem Sparse.get_of_not_mem {α : Type} (d : α) (l : Sparse α) (n : Nat) (h : n ∉ l.map (·.1)) : Sparse.get d l n = d := by
  induction l with
  | nil => rfl
  | cons e l ih =>
    simp only [List.map_cons, List.mem_cons, not_or] at h
    rw [Sparse.get, if_neg (Ne.symm h.1), ih h.2]

/-- A sector that a TLBINV of a tenant's span sends home. -/
def CacheSector.invalidated (t lo size : Nat) (x : CacheSector) : Bool :=
  x.tenant == t && decide (lo ≤ x.sector * 64 ∧ x.sector * 64 < lo + size)

/-- The dirty sectors of one core that a test names, sent home and clean from then on. -/
def State.cleanHits (hit : CacheSector → Bool) (s : State) (e : Nat × Core) : State :=
  ((e.2.cache.filter hit).foldl (fun s x => s.writeBack x) s).updCore e.1 fun k =>
    { k with cache := k.cache.map fun x => if hit x then { x with dirty := 0 } else x }

/-- No sector of a core's cache that a test names is dirty. -/
def State.hitsClean (hit : CacheSector → Bool) (s : State) (c : Nat) : Prop := ∀ x ∈ (s.core c).cache, hit x = true → x.dirty = 0

theorem KeepsCaches.hitsClean {s t : State} {hit : CacheSector → Bool} {c : Nat} (h : KeepsCaches s t)
    (hw : Sparse.wf Core.reset s.cores = true) (hc : s.hitsClean hit c) : t.hitsClean hit c := by
  rw [State.hitsClean, (h hw).2 c]
  exact hc

section
variable {hit : CacheSector → Bool}

/-- One core made clean: it is, and each that was clean still is. -/
theorem hitsClean_cleanHits {s : State} (e : Nat × Core) (hw : Sparse.wf Core.reset s.cores = true) :
    Sparse.wf Core.reset (s.cleanHits hit e).cores = true
    ∧ ∀ c, c = e.1 ∨ s.hitsClean hit c → (s.cleanHits hit e).hitsClean hit c := by
  have hback := keepsCaches_foldl (e.2.cache.filter hit) _ keepsCaches_writeBack s
  have hwb := (hback hw).1
  refine ⟨State.wf_updCore _ _ _ hwb, fun c hc => ?_⟩
  by_cases he : c = e.1
  · subst he
    intro x hx hhit
    rw [State.cleanHits, State.core_updCore _ _ _ hwb] at hx
    obtain ⟨y, -, rfl⟩ := List.mem_map.mp hx
    by_cases hy : hit y = true
    · rw [if_pos hy]
    · rw [if_neg hy] at hhit
      exact absurd hhit hy
  · rw [State.hitsClean, State.cleanHits, State.core_updCore_ne _ _ _ _ he]
    exact hback.hitsClean hw (hc.resolve_left he)

theorem hitsClean_foldl (l : List (Nat × Core)) {s : State} (hw : Sparse.wf Core.reset s.cores = true) :
    Sparse.wf Core.reset (l.foldl (State.cleanHits hit) s).cores = true
    ∧ ∀ c, c ∈ l.map (·.1) ∨ s.hitsClean hit c → (l.foldl (State.cleanHits hit) s).hitsClean hit c := by
  induction l generalizing s with
  | nil => exact ⟨hw, fun c hc => hc.resolve_left List.not_mem_nil⟩
  | cons e l ih =>
    obtain ⟨hwe, he⟩ := hitsClean_cleanHits e hw
    obtain ⟨hwl, hl⟩ := ih hwe
    refine ⟨hwl, fun c hc => hl c ?_⟩
    rw [List.map_cons, List.mem_cons] at hc
    rcases hc with (hce | hcl) | hcs
    · exact .inr (he c (.inl hce))
    · exact .inl hcl
    · exact .inr (he c (.inr hcs))

/-- Once every core of the table has been made clean, every core is. -/
theorem hitsClean_all {s : State} (hw : Sparse.wf Core.reset s.cores = true) :
    Sparse.wf Core.reset (s.cores.foldl (State.cleanHits hit) s).cores = true
    ∧ ∀ c, (s.cores.foldl (State.cleanHits hit) s).hitsClean hit c := by
  obtain ⟨hwl, hl⟩ := hitsClean_foldl s.cores hw
  refine ⟨hwl, fun c => hl c ?_⟩
  by_cases hc : c ∈ s.cores.map (·.1)
  · exact .inl hc
  · refine .inr fun x hx => ?_
    rw [State.core, Sparse.get_of_not_mem _ _ _ hc] at hx
    exact absurd hx List.not_mem_nil

end

/-- TLBINV_COMPLETE in its parts: the dirty sectors, the buffered reductions, and BUSY. -/
theorem exec_tlbinvComplete (s : State) (t : BitVec 6) :
    let lo := (s.tenant t.toNat).tlbSpan.1
    let size := (s.tenant t.toNat).tlbSpan.2
    let s₁ := s.cores.foldl (State.cleanHits (CacheSector.invalidated t.toNat lo size)) s
    let s₂ := s₁.activeCores.foldl (fun s c => s.flushReds c fun r =>
      s.atDl0 r.grid && r.tenant == t.toNat && decide (lo ≤ r.va ∧ r.va < lo + size)) s₁
    exec (.tlbinvComplete t) s
      = .next (if s₂.translatedOpen t.toNat lo size = true then s₂ else s₂.updTenant t.toNat fun x => { x with tlbBusy := false }) := rfl

/-- What it leaves of the caches: nothing dirty in the span. -/
theorem tlbinvComplete_clean (s : State) (t : BitVec 6) (hw : Sparse.wf Core.reset s.cores = true) :
    Reaches s (.tlbinvComplete t) fun u =>
      ∀ c, u.hitsClean (CacheSector.invalidated t.toNat (s.tenant t.toNat).tlbSpan.1 (s.tenant t.toNat).tlbSpan.2) c := by
  obtain ⟨hw₁, hclean⟩ := hitsClean_all (hit := CacheSector.invalidated t.toNat (s.tenant t.toNat).tlbSpan.1 (s.tenant t.toNat).tlbSpan.2) hw
  refine ⟨_, exec_tlbinvComplete s t, fun c => ?_⟩
  refine KeepsCaches.hitsClean ?_ hw₁ (hclean c)
  split
  · exact keepsCaches_foldl _ _ (fun s c => keepsCaches_flushReds s c _) _
  · exact (keepsCaches_foldl _ _ (fun s c => keepsCaches_flushReds s c _) _).trans (keepsCaches_updTenant _ _ _)

end Sys2Proof.Machine
end

section
/-! Tenants, apertures, walks and TLBINV (R53, R56 to R60, R64, R66). -/

namespace Sys2Proof.Machine

/-- Settles O41: each host action is the equation of its step, and the end of a TLBINV leaves no dirty sector in its span. -/
theorem tenantsAperturesAndTranslation : Obligations.TenantsAperturesAndTranslation := by
  intro s t v n x upd
  refine ⟨rfl, fun j hj => ⟨?_, ?_⟩, ⟨?_, ?_⟩, ⟨?_, ?_⟩, exec_imaskWrite s t v, fun w => raiseVector_eq s t.toNat w, ?_, ?_, ?_, ?_, ?_, ?_, ?_⟩
  case refine_1 => exact exec_wideEntryLowWrite s t v (by omega)
  case refine_2 => exact exec_wideEntryHighWrite s t v hj
  case refine_3 =>
    refine (exec_mpshareWrite s t v).trans ?_
    rw [shareSum_eq]
  case refine_4 =>
    refine (exec_slshareWrite s t v).trans ?_
    rw [shareSum_eq]
  case refine_5 =>
    refine (exec_poolSizeWrite s v).trans ?_
    simp only [poolFits_iff]
    rfl
  case refine_6 =>
    refine (exec_poolBaseWrite s v).trans ?_
    simp only [poolFits_iff]
    rfl
  case refine_7 =>
    intro off m xl hsec hm hx hk hd hl s₁
    exact exec_hostApertureLoad (aperture_found hsec hm hx hk hd hl)
  case refine_8 =>
    intro off bs xl hsec hbs hx hk hd hl s₁
    exact exec_hostApertureStore (aperture_found hsec (List.length_pos_iff.mpr hbs) hx hk hd hl)
  case refine_9 =>
    intro off m bs refused
    refine ⟨fun hm h => exec_hostApertureLoad_refused (aperture_none ?_ h), fun hbs h => exec_hostApertureStore_refused
      (aperture_none (List.length_pos_iff.mpr hbs) h)⟩
    exact Nat.pos_of_ne_zero fun h0 => hm (BitVec.eq_of_toNat_eq h0)
  case refine_10 =>
    intro va acc want
    cases acc <;> rfl
  case refine_11 =>
    refine fun hbusy => ⟨congrArg _ (invalidate_busy hbusy _ _), fun span vp => (exec_tlbinvSpan s t span vp).trans ?_⟩
    rw [invalidate_busy hbusy, invalidate_busy hbusy, ite_self]
  case refine_12 =>
    intro hidle inv hw
    refine ⟨⟨_, rfl, invalidate_idle hidle hw _ _⟩, fun span vp => ⟨_, exec_tlbinvSpan s t span vp, ?_⟩⟩
    by_cases hspan : span.toNat < 19
    · rw [if_pos hspan, if_pos hspan]
      exact invalidate_idle hidle hw _ _
    · rw [if_neg hspan, if_neg hspan]
      exact invalidate_idle hidle hw _ _
  case refine_13 =>
    intro lo size
    refine ⟨fun hc => ?_, fun hw => ?_⟩
    · refine (exec_tlbinvComplete s t).trans ?_
      simp only [State.activeCores, hc, List.foldl_nil, List.map_nil]
      rfl
    · obtain ⟨u, hu, hclean⟩ := tlbinvComplete_clean s t hw
      refine ⟨u, hu, fun c e he ht hlo hhi => hclean c e he ?_⟩
      simp only [CacheSector.invalidated, ht, beq_self_eq_true, Bool.true_and]
      exact decide_eq_true ⟨hlo, hhi⟩
end Sys2Proof.Machine
end

section
/-! SUPPORT. Queues: control words, NOTIFY, and the reading of launch records (R68 to R71, R82, R93). -/

namespace Sys2Proof.Machine

/-! ## A queue after an update -/

section
variable {s : State} {t : Nat} (hw : Sparse.wf Tenant.reset s.tenants = true) (q : Nat) (f : Queue → Queue)
include hw

theorem State.tenant_updQueue : (s.updQueue t q f).tenant t = (s.tenant t).setQueue q (f ((s.tenant t).queue q)) :=
  State.tenant_updTenant s t _ hw

theorem State.wf_updQueue_tenants : Sparse.wf Tenant.reset (s.updQueue t q f).tenants = true := Sparse.wf_set _ _ _ _ hw

variable (hq : Sparse.wf Queue.reset (s.tenant t).queues = true)
include hq

theorem State.queue_updQueue : (s.updQueue t q f).queue t q = f (s.queue t q) := by
  rw [State.queue, State.tenant_updQueue hw]
  exact Sparse.get_set_self _ _ _ _ hq

theorem State.wf_updQueue_queues : Sparse.wf Queue.reset ((s.updQueue t q f).tenant t).queues = true := by
  rw [State.tenant_updQueue hw]
  exact Sparse.wf_set _ _ _ _ hq

end

/-! ## Control words (R68, R72) -/

theorem bytesToDwords_eq (bs : List Byte) (n : Nat) :
    bytesToDwords bs n = (List.range n).map fun j => bytesToNat ((bs.drop (8 * j)).take 8) := by
  induction n generalizing bs with
  | zero => rfl
  | succ n ih =>
    rw [bytesToDwords, ih, List.range_succ_eq_map, List.map_cons, List.map_map, Nat.mul_zero, List.drop_zero]
    simp only [Function.comp_def, List.drop_drop, Nat.mul_succ, Nat.add_comm]

/-- The sixteen dwords of a record, as they lie in its bytes (R70). -/
theorem recordWords_eq (bs : List Byte) : (bytesToDwords bs 16).map (BitVec.ofNat 64)
    = (List.range 16).map fun j => (BitVec.ofNat 64 (bytesToNat ((bs.drop (8 * j)).take 8)) : Dword) := by
  rw [bytesToDwords_eq, List.map_map]
  rfl

theorem disableQueue_eq (s : State) (t q : Nat) : s.disableQueue t q =
    (let z := s.queue t q
     let va := z.qbase.toNat + 128 * (z.qhead.toNat % 2 ^ z.log2size.toNat)
     let ws : List Dword := match s.readRoot t va 128 with
       | .ok bs => (List.range 16).map fun j => BitVec.ofNat 64 (bytesToNat ((bs.drop (8 * j)).take 8))
       | .error _ => []
     (s.forgetRecord t va ws).updQueue t q fun z => { z with waiting := [], qhead := z.qtail, en := false }) := by
  unfold State.disableQueue
  simp only [recordWords_eq]
  rfl

/-- The fields that a control word of an idle queue sets. -/
def State.setControl (s : State) (t q n : Nat) : State := s.updQueue t q fun z => { z with
  prio := BitVec.ofNat 3 (bitsAt n 1 3), dl := BitVec.ofNat 2 (bitsAt n 4 2), trace := BitVec.ofNat 2 (bitsAt n 6 2)
  log2size := BitVec.ofNat 5 (bitsAt n 8 5), quota := BitVec.ofNat 32 (bitsAt n 32 32) }

/-- A queue enabled: its numbers start, and the launches that it follows are those that are in flight. -/
def State.enableQueue (s : State) (t q : Nat) : State := s.updQueue t q fun z => { z with
  en := true, launchSeq := 0, taskSeq := 0, prior := z.lastStarted, epoch := s.nextUid }

/-- Whether a control word has a LOG2SIZE or a TRACE that R68 does not admit. -/
def controlBad (n : Nat) : Bool := decide (bitsAt n 8 5 < 4 ∨ 16 < bitsAt n 8 5) || bitsAt n 6 2 == 3

theorem controlBad_eq_false_iff (n : Nat) : controlBad n = false ↔ 4 ≤ bitsAt n 8 5 ∧ bitsAt n 8 5 ≤ 16 ∧ bitsAt n 6 2 ≠ 3 := by
  simp only [controlBad, Bool.or_eq_false_iff, decide_eq_false_iff_not, beq_eq_false_iff_ne]
  omega

theorem controlBad_eq_true_iff (n : Nat) : controlBad n = true ↔ ¬ (4 ≤ bitsAt n 8 5 ∧ bitsAt n 8 5 ≤ 16 ∧ bitsAt n 6 2 ≠ 3) := by
  rw [← controlBad_eq_false_iff, Bool.not_eq_false]

section
variable {s : State} {t : BitVec 6} {q : BitVec 4} {v : Dword}

theorem exec_queueControlWrite : exec (.queueControlWrite t q v) s = .next (
    let x := s.queue t.toNat q.toNat
    let s₁ := if !controlBad v.toNat && !x.en && s.queueIdle t.toNat q.toNat then s.setControl t.toNat q.toNat v.toNat else s
    let s₂ := s₁.enableQueue t.toNat q.toNat
    if !onBit v 0 then s₁.disableQueue t.toNat q.toNat
    else if controlBad v.toNat || x.en then s₁
    else if (s₂.queue t.toNat q.toNat).trace == 1 then s₂.traceStart t.toNat q.toNat else s₂) := rfl

/-- A word that is malformed, or that meets an enabled queue, can only clear EN. -/
theorem queueControl_refused (h : controlBad v.toNat = true ∨ (s.queue t.toNat q.toNat).en = true) :
    exec (.queueControlWrite t q v) s = .next (if bitAt v.toNat 0 then s else s.disableQueue t.toNat q.toNat) := by
  have hset : (!controlBad v.toNat && !(s.queue t.toNat q.toNat).en) = false := by
    rcases h with h | h <;> simp [h]
  have hen : (controlBad v.toNat || (s.queue t.toNat q.toNat).en) = true := by simpa using h
  simp only [exec_queueControlWrite, hset, hen, Bool.false_and, Bool.false_eq_true, if_false, if_true]
  cases hb : onBit v 0 <;> simp [show bitAt v.toNat 0 = onBit v 0 from rfl, hb]

section
variable (hok : controlBad v.toNat = false) (hen : (s.queue t.toNat q.toNat).en = false)
include hok hen

/-- A word that clears EN of a disabled queue; its fields are taken where the queue is idle. -/
theorem queueControl_clears (hb : bitAt v.toNat 0 = false) : exec (.queueControlWrite t q v) s = .next
    ((if s.queueIdle t.toNat q.toNat then s.setControl t.toNat q.toNat v.toNat else s).disableQueue t.toNat q.toNat) := by
  have hbit : onBit v 0 = false := hb
  simp only [exec_queueControlWrite, hok, hen, hbit, Bool.not_false, Bool.true_and, if_true]

/-- A word that enables a queue, without the recording of a trace. -/
theorem queueControl_enables {s₁ : State} (hb : bitAt v.toNat 0 = true)
    (h₁ : (if s.queueIdle t.toNat q.toNat then s.setControl t.toNat q.toNat v.toNat else s) = s₁) (htrace : (s₁.queue t.toNat q.toNat).trace ≠ 1)
    (hw : Sparse.wf Tenant.reset s₁.tenants = true) (hq : Sparse.wf Queue.reset (s₁.tenant t.toNat).queues = true) :
    exec (.queueControlWrite t q v) s = .next (s₁.enableQueue t.toNat q.toNat) := by
  have hbit : onBit v 0 = true := hb
  have hrec : (((s₁.enableQueue t.toNat q.toNat).queue t.toNat q.toNat).trace == 1) = false := by
    rw [State.enableQueue, State.queue_updQueue hw _ _ hq]
    exact beq_eq_false_iff_ne.mpr htrace
  simp only [exec_queueControlWrite, hok, hen, hbit, Bool.not_false, Bool.not_true, Bool.true_and, Bool.or_false, Bool.false_eq_true, if_false,
    h₁, hrec]

end

/-! ## NOTIFY (R69) -/

theorem accepts_iff (x : Queue) (tail : Word) : x.accepts tail = true ↔ x.en = true ∧ (tail - x.qhead).toNat ≤ 2 ^ x.log2size.toNat
    ∧ (tail - x.qtail).toNat ≤ (tail - x.qhead).toNat := by
  simp only [Queue.accepts, Bool.and_eq_true, decide_eq_true_eq, and_assoc]

theorem exec_notify : exec (.notify t v) s = .next (
    let u := bitsAt v.toNat 32 4
    let tail := BitVec.ofNat 32 v.toNat
    if !(s.tenant t.toNat).en then s
    else if (s.queue t.toNat u).accepts tail && !s.switching then s.updQueue t.toNat u fun x => { x with qtail := tail }
    else (s.updQueue t.toNat u fun x => { x with ovr := true }).raiseVector t.toNat 3) := rfl

/-! ## Launch records (R69 to R71, R179) -/

theorem recordDue_of (ht : (s.tenant t.toNat).en = true) (hen : (s.queue t.toNat q.toNat).en = true)
    (hsusp : onBit (s.tenant t.toNat).qsusp q.toNat = false) (hsw : s.switching = false) (he0 : s.e0Lost = false)
    (hstop : (s.queue t.toNat q.toNat).stop = false) (hnew : (s.queue t.toNat q.toNat).qhead ≠ (s.queue t.toNat q.toNat).qtail) :
    s.recordDue t.toNat q.toNat = true := by
  simp [State.recordDue, State.queueRuns, ht, hen, hsusp, hsw, he0, hstop, hnew]

theorem validating_eq_true_iff (r : Except (Nat × Option (Nat × Err)) Kernel) : validating r = true ↔ ∃ st a, r = .error (st, some (a, notYet)) := by
  unfold validating
  split
  · simp
  · next h => simpa using fun st a hr => h st a notYet hr

section
variable (hdue : s.recordDue t.toNat q.toNat = true)
include hdue

/-- A ring that cannot be read stops the queue. -/
theorem recordRead_fails {a : Nat} {e : Err} (h : s.readRoot t.toNat (s.queue t.toNat q.toNat).slot 128 = .error (a, e)) (he : e ≠ notYet) :
    exec (.launchRecordRead t q) s = .next (((((s.forgetRoot t.toNat (s.queue t.toNat q.toNat).slot 128).updQueue t.toNat q.toNat
      fun z => { z with stop := true }).queueFault t.toNat q.toNat e a 0).raiseVector t.toNat 3)) := by
  change execLaunchRecordRead t q s = _
  simp only [execLaunchRecordRead, hdue, h, beq_eq_false_iff_ne.mpr he]
  rfl

/-- What lies on another device is asked for. -/
theorem recordRead_asks {a : Nat} (h : s.readRoot t.toNat (s.queue t.toNat q.toNat).slot 128 = .error (a, notYet)) :
    exec (.launchRecordRead t q) s = .next (s.askRoot t.toNat (s.queue t.toNat q.toNat).slot 128) := by
  change execLaunchRecordRead t q s = _
  simp only [execLaunchRecordRead, hdue, h, beq_self_eq_true]
  rfl

/-- A record that has been read: what its validation needs is asked for, or it is validated as it stands after the acquire. -/
theorem recordRead_read {bs : List Byte} (h : s.readRoot t.toNat (s.queue t.toNat q.toNat).slot 128 = .ok bs) :
    let x := s.queue t.toNat q.toNat
    let ws : List Dword := (List.range 16).map fun j => BitVec.ofNat 64 (bytesToNat ((bs.drop (8 * j)).take 8))
    let s₁ := (s.activeCores.foldl (fun y c => y.acquireCore c) s).updQueue t.toNat q.toNat fun z => { z with
      qhead := z.qhead + 1, launchSeq := z.launchSeq + 1 }
    let s₂ := s₁.forgetRecord t.toNat x.slot ws
    let gid := gridId t.toNat q.toNat false 0 x.launchSeq
    exec (.launchRecordRead t q) s = .next (
      if validating (s.validate t.toNat ws) then s.askRecord t.toNat ws
      else match s₁.validate t.toNat ws with
        | .error (st, f) => (match f with
            | some (a, e) => s₂.queueFault t.toNat q.toNat e a gid
            | none => s₂).refuseLaunch t.toNat q.toNat gid (recordInfo x.slot ws) st
        | .ok k => s₂.updQueue t.toNat q.toNat fun z => { z with waiting := z.waiting ++ [⟨x.slot, x.launchSeq, ws, k⟩] }) := by
  change execLaunchRecordRead t q s = _
  simp only [execLaunchRecordRead, hdue, h, recordWords_eq]
  rfl

end

end

theorem gridId_launch (t q seq : Nat) : gridId t q false 0 seq = BitVec.ofNat 64 (t * 2 ^ 58 + q * 2 ^ 54 + seq % 2 ^ 43) := by
  simp [gridId]

theorem askRecord_eq (s : State) (t : Nat) (ws : List Dword) : s.askRecord t ws
    = (s.askRoot t (ws.getD 0 0).toNat 64).askRoot t (ws.getD 3 0).toNat (bitsAt (ws.getD 2 0).toNat 32 32) := by
  have h32 : (BitVec.ofNat 32 (bitsAt (ws.getD 2 0).toNat 32 32)).toNat = bitsAt (ws.getD 2 0).toNat 32 32 :=
    Nat.mod_eq_of_lt (Nat.mod_lt _ (Nat.two_pow_pos 32))
  simp only [State.askRecord, recordInfo, h32]

theorem validate_bad (s : State) (t : Nat) {ws : List Dword} (h : recordBad ws = true) : s.validate t ws = .error (1, none) := if_pos h

/-! ## The suspension of queues (R82, R93) -/

theorem onBit_setBit_true {w : Nat} (v : BitVec w) (i : Nat) {j : Nat} (hj : j < w) :
    onBit (setBit v i true) j = (onBit v j || decide (i = j)) := by
  simp only [onBit, setBit, if_true, BitVec.getLsbD_or, BitVec.getLsbD_ofNat, Nat.testBit_two_pow, hj, decide_true, Bool.true_and]

/-- QSAVED of one queue, as `State.settleQsaved` settles it where the device has no grid. -/
def State.saveQueue (t : Nat) (s : State) (q : Nat) : State :=
  if onBit (s.tenant t).qsusp q then s.updTenant t fun x => { x with qsaved := setBit x.qsaved q true } else s

theorem settleQsaved_of_grids_nil {s : State} (h : s.grids = []) (t : Nat) : s.settleQsaved t = (List.range 16).foldl (State.saveQueue t) s := by
  have key : ∀ (l : List Nat) (s : State), s.grids = [] → l.foldl (fun s q =>
      if onBit (s.tenant t).qsusp q && s.grids.all (fun e => !e.2.ofQueue t q || (e.2.preempt && s.gridSaved e.1)) then
        s.updTenant t fun x => { x with qsaved := setBit x.qsaved q true }
      else s) s = l.foldl (State.saveQueue t) s := by
    intro l
    induction l with
    | nil => exact fun _ _ => rfl
    | cons q l ih =>
      intro s hs
      have hstep : (State.saveQueue t s q).grids = [] := by
        unfold State.saveQueue
        split <;> exact hs
      rw [List.foldl_cons, List.foldl_cons, ← ih _ hstep]
      simp only [hs, List.all_nil, Bool.and_true]
      rfl
  exact key _ s h

/-- Queues settled one after another: of those listed, the suspended ones are saved. -/
theorem saveQueue_foldl (t : Nat) (l : List Nat) {s : State} (hw : Sparse.wf Tenant.reset s.tenants = true) :
    let u := l.foldl (State.saveQueue t) s
    (u.tenant t).qsusp = (s.tenant t).qsusp
    ∧ ∀ i, i < 16 → onBit (u.tenant t).qsaved i = (onBit (s.tenant t).qsaved i || (onBit (s.tenant t).qsusp i && decide (i ∈ l))) := by
  induction l generalizing s with
  | nil => exact ⟨rfl, fun i _ => by simp⟩
  | cons q l ih =>
    have hstep : Sparse.wf Tenant.reset (s.saveQueue t q).tenants = true ∧ ((s.saveQueue t q).tenant t).qsusp = (s.tenant t).qsusp
        ∧ ∀ i, i < 16 → onBit ((s.saveQueue t q).tenant t).qsaved i
          = (onBit (s.tenant t).qsaved i || (onBit (s.tenant t).qsusp i && decide (q = i))) := by
      unfold State.saveQueue
      split
      · next hq =>
        rw [State.tenant_updTenant s t _ hw]
        refine ⟨Sparse.wf_set _ _ _ _ hw, rfl, fun i hi => (onBit_setBit_true _ q hi).trans ?_⟩
        by_cases hqi : q = i
        · subst hqi
          simp [hq]
        · simp [hqi]
      · next hq =>
        refine ⟨hw, rfl, fun i _ => ?_⟩
        by_cases hqi : q = i
        · subst hqi
          simp [hq]
        · simp [hqi]
    obtain ⟨hwq, hsusp, hsaved⟩ := hstep
    obtain ⟨hl, hbits⟩ := ih hwq
    refine ⟨hl.trans hsusp, fun i hi => ?_⟩
    rw [List.foldl_cons, hbits i hi, hsaved i hi, hsusp, Bool.or_assoc, ← Bool.and_or_distrib_left]
    simp [eq_comm]

/-- QSUSP where the device has no grid: what is suspended is saved at once. -/
theorem qsuspWrite_of_grids_nil {s : State} (h : s.grids = []) (hw : Sparse.wf Tenant.reset s.tenants = true) (t : BitVec 6) (v : Dword) :
    Reaches s (.qsuspWrite t v) fun u => (u.tenant t.toNat).qsusp = v.setWidth 16 ∧ (u.tenant t.toNat).qsaved = v.setWidth 16 := by
  let s₁ := s.updTenant t.toNat fun x => { x with qsusp := v.setWidth 16, qsaved := x.qsaved &&& v.setWidth 16 }
  have ht : s₁.tenant t.toNat = { s.tenant t.toNat with qsusp := v.setWidth 16, qsaved := (s.tenant t.toNat).qsaved &&& v.setWidth 16 } :=
    State.tenant_updTenant s t.toNat _ hw
  have hnone : exec (.qsuspWrite t v) s = .next (s₁.settleQsaved t.toNat) := by
    refine congrArg (fun u : State => Host.Outcome.next (u.settleQsaved t.toNat)) (List.foldl_fixed' (fun q => ?_) _)
    simp [h]
  obtain ⟨hsusp, hbits⟩ := saveQueue_foldl t.toNat (List.range 16) (s := s₁) (Sparse.wf_set _ _ _ _ hw)
  refine ⟨_, hnone, ?_⟩
  rw [settleQsaved_of_grids_nil (s := s₁) h]
  refine ⟨hsusp.trans (by rw [ht]), BitVec.eq_of_getLsbD_eq fun i hi => (hbits i hi).trans ?_⟩
  rw [ht]
  simp only [onBit, BitVec.getLsbD_and, List.mem_range, hi, decide_true, Bool.and_true]
  cases (s.tenant t.toNat).qsaved.getLsbD i <;> simp

end Sys2Proof.Machine
end

section
/-! Control words, NOTIFY, launch records and the suspension of queues (R68 to R71, R82, R89, R93). -/

namespace Sys2Proof.Machine

/-- Settles O42: a control word, a NOTIFY and the reading of a record are each taken apart by the tests that the step makes. -/
theorem queueControlAndRecords : Obligations.QueueControlAndRecords := by
  intro s t q v n x upd words
  refine ⟨?control, ?notify, fun k => rfl, ?record, fun ws _ hbad => validate_bad s t.toNat hbad, fun hg hw => qsuspWrite_of_grids_nil hg hw t v⟩
  case control =>
    intro ok off set
    have hoff : ∀ y : State, y.disableQueue t.toNat q.toNat = off y := fun y => disableQueue_eq y t.toNat q.toNat
    have hbad : ∀ h : ok, controlBad n = false := (controlBad_eq_false_iff n).mpr
    have hrefused : controlBad n = true ∨ x.en = true → Becomes s (.queueControlWrite t q v) (if bitAt n 0 then s else off s) :=
      fun h => (queueControl_refused h).trans (by rw [hoff])
    refine ⟨fun h => hrefused (.inl ((controlBad_eq_true_iff n).mpr h)), fun _ hen => hrefused (.inr hen), fun h hen hbusy hb => ?_,
      fun h hen hbusy hb htrace hw hq => ?_, fun h hen hidle hb => ?_, fun h hen hidle hb htrace hw hq => ?_⟩
    · refine (queueControl_clears (hbad h) hen hb).trans ?_
      rw [hbusy, hoff]
      rfl
    · exact queueControl_enables (s₁ := s) (hbad h) hen hb (by rw [hbusy]; rfl) htrace hw hq
    · refine (queueControl_clears (hbad h) hen hb).trans ?_
      rw [hidle, hoff]
      rfl
    · refine queueControl_enables (s₁ := s.setControl t.toNat q.toNat n) (hbad h) hen hb (by rw [hidle]; rfl) ?_
        (State.wf_updQueue_tenants hw _ _) (State.wf_updQueue_queues hw _ _ hq)
      rw [State.setControl, State.queue_updQueue hw _ _ hq]
      exact fun h1 => htrace ((Nat.mod_eq_of_lt (Nat.mod_lt _ (by decide))).symm.trans (congrArg BitVec.toNat h1))
  case notify =>
    intro u y tail good
    have hgood : (y.accepts tail && !s.switching) = true ↔ good := by
      rw [Bool.and_eq_true, accepts_iff, Bool.not_eq_true', and_assoc, and_assoc]
    refine ⟨fun hen => exec_notify.trans ?_, fun hen h => exec_notify.trans ?_, fun hen h => exec_notify.trans ?_⟩
    · simp only [hen]
      rfl
    · have hacc := hgood.mpr h
      simp only [hen]
      exact congrArg _ (if_pos hacc)
    · have hrej := mt hgood.mp h
      simp only [hen]
      exact congrArg _ (if_neg hrej)
  case record =>
    intro hten hqen hsusp hsw he0 hstop hnew va
    have hdue := recordDue_of hten hqen hsusp hsw he0 hstop hnew
    refine ⟨fun a e h he => recordRead_fails hdue h he, fun a h => recordRead_asks hdue h, fun bs h => ?_⟩
    have hread := recordRead_read hdue h
    intro ws
    refine ⟨fun st a hval => hread.trans ?_, fun hval => ?_⟩
    · rw [if_pos ((validating_eq_true_iff _).mpr ⟨st, a, hval⟩), askRecord_eq]
    · have hgo : ¬ validating (s.validate t.toNat ws) = true := fun hv => by
        obtain ⟨st, a, he⟩ := (validating_eq_true_iff _).mp hv
        exact hval st a he
      refine ⟨fun k hk => hread.trans ?_, fun st hst => hread.trans ?_, fun st a e hst => hread.trans ?_⟩
      · rw [if_neg hgo, hk]
        rfl
      · rw [if_neg hgo, hst, gridId_launch]
        rfl
      · rw [if_neg hgo, hst, gridId_launch]
        rfl

end Sys2Proof.Machine
end

section
/-! SUPPORT. The start and the end of a launch (R71, R89, R90, R179). -/

namespace Sys2Proof.Machine

/-! ## Which launch may start (R71) -/

theorem waitsHold_iff (s : State) (t : Nat) (ws : List Dword) : s.waitsHold t ws = true
    ↔ ∀ w ∈ recordWaits ws, w.2.2.toNat ≤ (Sparse.get 0 (s.queue t w.1).qtl w.2.1).toNat :=
  List.all_eq_true.trans (forall₂_congr fun _ _ => decide_eq_true_iff)

theorem prevComplete_iff (s : State) (t q : Nat) (r : Record) : s.prevComplete t q r = true
    ↔ s.reporting t q = false ∧ ((r.seq = 0 ∧ s.grid? (s.queue t q).prior = none)
      ∨ (r.seq ≠ 0 ∧ ∀ e ∈ s.launchesOf t q, e.1 ≤ (s.queue t q).epoch ∨ e.2.seq + 1 ≠ r.seq)) := by
  unfold State.prevComplete
  by_cases hrep : s.reporting t q = true
  · simp [hrep]
  · by_cases hseq : r.seq = 0 <;> simp [hrep, hseq]

theorem startable_iff (s : State) (t q : Nat) (r : Record) : s.startable t q = some r
    ↔ ∃ rest, (s.queue t q).waiting = r :: rest ∧ s.queueRuns t q = true
      ∧ (∀ w ∈ recordWaits r.words, w.2.2.toNat ≤ (Sparse.get 0 (s.queue t w.1).qtl w.2.1).toNat)
      ∧ ((recordConc r.words = true ∧ (s.queue t q).dl = 0) ∨ s.reporting t q = false ∧ ((r.seq = 0 ∧ s.grid? (s.queue t q).prior = none)
        ∨ (r.seq ≠ 0 ∧ ∀ e ∈ s.launchesOf t q, e.1 ≤ (s.queue t q).epoch ∨ e.2.seq + 1 ≠ r.seq))) := by
  rw [← prevComplete_iff, ← waitsHold_iff]
  unfold State.startable
  dsimp only
  cases hw : (s.queue t q).waiting with
  | nil => simp
  | cons r' rest =>
    dsimp only
    simp only [Option.ite_none_right_eq_some, Bool.and_eq_true, Bool.or_eq_true, beq_iff_eq, Option.some.injEq, List.cons.injEq]
    constructor
    · rintro ⟨⟨⟨hruns, hwaits⟩, horder⟩, rfl⟩
      exact ⟨rest, ⟨rfl, rfl⟩, hruns, hwaits, horder⟩
    · rintro ⟨_, ⟨rfl, -⟩, hruns, hwaits, horder⟩
      exact ⟨⟨⟨hruns, hwaits⟩, horder⟩, rfl⟩

/-! ## The grid of a launch (R71, R90) -/

/-- The start of a launch, as the last part of LAUNCH_START: its acquire, its grid, and NOTRACE where it records nothing. -/
def State.beginLaunch (t q : Nat) (x : Queue) (r : Record) (s : State) (trace : Option (List (Nat × Nat))) : State :=
  let s := if recordAcq r.words then s.activeCores.foldl (fun s c => s.acquireCore c) s else s
  let (id, s) := s.fresh
  let s := (s.setGrid id (launchGrid t q x r id s.placeTime trace)).updQueue t q fun x => { x with lastStarted := id }
  if x.dl == 1 && x.trace != 2 then s.gridEvent id 0x07 0 else s

section
variable {s : State} {t : BitVec 6} {q : BitVec 4} {r : Record}

theorem exec_launchStart (h : s.startable t.toNat q.toNat = some r) : exec (.launchStart t q) s = .next (
    let x := s.queue t.toNat q.toNat
    let found := s.traceEntries t.toNat q.toNat r.seq
    let s₁ := s.updQueue t.toNat q.toNat fun z => { z with waiting := z.waiting.drop 1 }
    let s₂ := (s₁.forgetRoot t.toNat x.traceAddr.toNat 0x40).forgetRoot t.toNat (x.traceAddr.toNat + 0x40)
      (match s₁.readRoot t.toNat x.traceAddr.toNat 0x40 with | .ok h => 8 * bytesToNat ((h.drop 12).take 4) | .error _ => 0)
    let i := recordInfo r.va r.words
    let gid := gridId t.toNat q.toNat false 0 r.seq
    if x.trace == 2 && readWaits found then s.askTrace t.toNat q.toNat
    else if x.trace == 1 && !x.traceFailed && readWaits (s.traceRoom t.toNat q.toNat) then s.askRoot t.toNat (x.traceAddr.toNat + 8) 4
    else if x.trace != 2 then s₁.beginLaunch t.toNat q.toNat x r none
    else match found with
      | .error (a, e) => (s₂.queueFault t.toNat q.toNat e a gid).refuseLaunch t.toNat q.toNat gid i 5
      | .ok none => s₂.refuseLaunch t.toNat q.toNat gid i 5
      | .ok (some es) => if s₂.traceFits t.toNat (i.gx * i.gy * i.gz) r.kernel.cluster es then s₂.beginLaunch t.toNat q.toNat x r (some es)
          else s₂.refuseLaunch t.toNat q.toNat gid i 5) := by
  change execLaunchStart t q s = _
  simp only [execLaunchStart, h]
  rfl

end

/-- An acquire by some cores starts and ends no grid, and numbers nothing. -/
theorem acquireCores_frame (cs : List Nat) (s : State) :
    { cs.foldl (fun s c => s.acquireCore c) s with fabric := s.fabric, cores := s.cores } = s := by
  induction cs generalizing s with
  | nil => rfl
  | cons c cs ih => exact congrArg (fun x : State => { x with fabric := s.fabric, cores := s.cores }) (ih (s.acquireCore c))

theorem gridEvent_of_grid {s : State} {n : Nat} {g : Grid} (h : s.grid? n = some g) (hd : g.dl ≠ 0) (code : Byte) (pc : Dword) :
    s.gridEvent n code pc = s.setGrid n { g with pendingEvents := g.pendingEvents ++ [(code, pc)] } := by
  have hturns : (g.dl == 0) = false := beq_eq_false_iff_ne.mpr hd
  simp only [State.gridEvent, State.updGrid, h, hturns, Bool.false_eq_true, if_false]

/-- The events that a launch begins with: NOTRACE at DL1 without replay. -/
def startEvents (x : Queue) : List (Byte × Dword) := if x.dl = 1 ∧ x.trace ≠ 2 then [(0x07, 0)] else []

/-- What the start of a launch changes once its acquire is made: it numbers the grid, lists it, and the queue remembers it. -/
theorem beginLaunch_eq (s : State) (t q : Nat) (x : Queue) (r : Record) (trace : Option (List (Nat × Nat))) :
    let s₁ := if recordAcq r.words then s.activeCores.foldl (fun s c => s.acquireCore c) s else s
    let id := s₁.nextUid + 1
    let g := { launchGrid t q x r id s₁.placeTime trace with pendingEvents := startEvents x }
    ∃ grids, Sparse.find grids id = some g ∧ (∀ n, n ≠ id → Sparse.find grids n = s₁.grid? n)
      ∧ s.beginLaunch t q x r trace = { s₁.updQueue t q (fun x => { x with lastStarted := id }) with grids := grids, nextUid := id } := by
  intro s₁ id g
  let g₀ := launchGrid t q x r id s₁.placeTime trace
  let u := (State.setGrid { s₁ with nextUid := id } id g₀).updQueue t q fun x => { x with lastStarted := id }
  have hbegin : s.beginLaunch t q x r trace = if x.dl == 1 && x.trace != 2 then u.gridEvent id 0x07 0 else u := rfl
  have hevent : (x.dl == 1 && x.trace != 2) = true ↔ x.dl = 1 ∧ x.trace ≠ 2 := by simp only [Bool.and_eq_true, beq_iff_eq, bne_iff_ne]
  by_cases hev : x.dl = 1 ∧ x.trace ≠ 2
  · have hg : g = { g₀ with pendingEvents := [(0x07, 0)] } := by simp only [g, startEvents, if_pos hev]; rfl
    have hu : u.grid? id = some g₀ := Sparse.find_put_self _ _ _
    have hdl0 : g₀.dl ≠ 0 := by rw [show g₀.dl = x.dl from rfl, hev.1]; decide
    refine ⟨Sparse.put (Sparse.put s₁.grids id g₀) id g, Sparse.find_put_self _ _ _, fun n hn => ?_, ?_⟩
    · exact (Sparse.find_put_ne _ _ _ _ hn).trans (Sparse.find_put_ne _ _ _ _ hn)
    · rw [hbegin, if_pos (hevent.mpr hev), gridEvent_of_grid hu hdl0, hg]
      rfl
  · have hg : g = g₀ := by simp only [g, startEvents, if_neg hev]; rfl
    refine ⟨Sparse.put s₁.grids id g, Sparse.find_put_self _ _ _, fun n hn => Sparse.find_put_ne _ _ _ _ hn, ?_⟩
    rw [hbegin, if_neg (mt hevent.mp hev), hg]
    rfl

/-- A launch started: the grid of its record, and nothing else but the acquire and the queue's memory of it. -/
theorem beginLaunch_starts {s y : State} (hn : y.nextUid = s.nextUid) (hg : y.grids = s.grids) (t q : Nat) (x : Queue) (r : Record)
    (trace : Option (List (Nat × Nat))) :
    let id := s.nextUid + 1
    let y' := if recordAcq r.words then y.activeCores.foldl (fun z c => z.acquireCore c) y else y
    let u := y.beginLaunch t q x r trace
    { u with grids := y'.grids, nextUid := s.nextUid } = y'.updQueue t q (fun z => { z with lastStarted := id })
    ∧ u.nextUid = id ∧ (∀ n, n ≠ id → u.grid? n = s.grid? n)
    ∧ u.grid? id = some { launchGrid t q x r id y'.placeTime trace with pendingEvents := startEvents x } := by
  intro id y' u
  have hy : y'.nextUid = s.nextUid ∧ y'.grids = s.grids := by
    rw [← hn, ← hg]
    by_cases hacq : recordAcq r.words = true
    · rw [show y' = y.activeCores.foldl (fun z c => z.acquireCore c) y from if_pos hacq]
      exact ⟨(congrArg State.nextUid (acquireCores_frame y.activeCores y) :), (congrArg State.grids (acquireCores_frame y.activeCores y) :)⟩
    · rw [show y' = y from if_neg hacq]
      exact ⟨rfl, rfl⟩
  obtain ⟨hnext, hgrids⟩ := hy
  obtain ⟨grids, hself, hne, hu⟩ := beginLaunch_eq y t q x r trace
  have hid : y'.nextUid + 1 = id := congrArg (· + 1) hnext
  change Sparse.find grids (y'.nextUid + 1) = some { launchGrid t q x r (y'.nextUid + 1) y'.placeTime trace with pendingEvents := startEvents x } at hself
  change ∀ n, n ≠ y'.nextUid + 1 → Sparse.find grids n = y'.grid? n at hne
  change u = { y'.updQueue t q (fun x => { x with lastStarted := y'.nextUid + 1 }) with grids := grids, nextUid := y'.nextUid + 1 } at hu
  rw [hid] at hself hne hu
  rw [hu]
  refine ⟨?_, rfl, fun n h => (hne n h).trans (congrArg (Sparse.find · n) hgrids), hself⟩
  rw [← hnext]
  rfl

/-! ## The end of a launch (R71, R179) -/

/-- A release at system scope is complete once Noern-H has acknowledged the tenant's stores. -/
theorem endRelease_hostOpen {s u : State} {n : Nat} {g : Grid} (h : s.endRelease n 5 g = (u, true)) : u.hostOpen g.tenant = false := by
  have sign : ∀ (v w : State) (c : Bool), (if (c || (decide (5 ≤ 5) && v.hostOpen g.tenant)) = true then (w, false) else (v, true)) = (u, true) →
      u.hostOpen g.tenant = false := by
    intro v w c hv
    split at hv
    · simp at hv
    · next hopen =>
      obtain ⟨rfl, -⟩ := Prod.mk.inj hv
      simp only [Bool.or_eq_true, not_or, decide_true, Bool.true_and, Bool.not_eq_true, Nat.le_refl] at hopen
      exact hopen.2
  unfold State.endRelease at h
  dsimp only at h
  split at h
  · split at h
    · rw [if_neg (show ¬ 5 < 4 by decide)] at h
      exact sign _ _ _ h
    · simp at h
  · split at h
    · simp at h
    · rw [if_neg (show ¬ 5 < 4 by decide)] at h
      exact sign _ _ _ h
  · obtain ⟨rfl, hopen⟩ := Prod.mk.inj h
    simp only [Bool.not_eq_true', Bool.or_eq_false_iff, Nat.le_refl, decide_true, Bool.true_and] at hopen
    exact hopen.2

theorem exec_launchComplete {s : State} {n : Nat} {g : Grid} {r : LaunchInfo} (hg : s.grid? n = some g) (hr : g.launch = some r)
    (hidle : s.launchIdle n g = true) : exec (.launchComplete n) s = .next (
    let x := s.endRelease n 5 g
    let s₁ := if g.traced then x.1 else x.1.traceLaunch g.tenant g.queue g.gid
    if !x.2 then x.1 else ((((s₁.reportLaunch g.tenant g.queue g.gid r (if g.killed then 4 else 0) g.dcsum).forgetGrid n g).freeArrived
      g.tenant).settleQsaved g.tenant)) := by
  change execLaunchComplete n s = _
  simp only [execLaunchComplete, hg, hr, hidle]
  rfl

/-! ## STATUS and DONE (R71) -/

theorem signalLaunch_eq (s : State) (t q : Nat) (r : LaunchInfo) : s.signalLaunch t q r =
    (let z := if r.sigv = true then s.updQueue t q fun z =>
        let old := Sparse.get 0 z.qtl r.sigctr
        { z with qtl := Sparse.set 0 z.qtl r.sigctr (if old.toNat < r.sigval.toNat then r.sigval else old) } else s
     if r.irq = true then z.raiseVector t 0 else z) := rfl

section
variable {s u : State} {t q : Nat} {gid dc : Dword} {r : LaunchInfo} {st : Nat}

theorem reportLaunch_written (h : (s.updQueue t q fun z => { z with dcsum := dc }).writeRoot t (r.recVa + 0x78) (natToBytes 8 (st + 2 ^ 8))
    (.status q gid r) = .ok (u, false)) : s.reportLaunch t q gid r st dc = u.statusWritten t q gid r none := by
  simp only [State.reportLaunch, h]

theorem reportLaunch_sent (h : (s.updQueue t q fun z => { z with dcsum := dc }).writeRoot t (r.recVa + 0x78) (natToBytes 8 (st + 2 ^ 8))
    (.status q gid r) = .ok (u, true)) : s.reportLaunch t q gid r st dc = u := by
  simp only [State.reportLaunch, h]

theorem reportLaunch_failed {va : Nat} {e : Err} (h : (s.updQueue t q fun z => { z with dcsum := dc }).writeRoot t (r.recVa + 0x78)
    (natToBytes 8 (st + 2 ^ 8)) (.status q gid r) = .error (va, e)) :
    s.reportLaunch t q gid r st dc = (s.updQueue t q fun z => { z with dcsum := dc }).statusWritten t q gid r (some e) := by
  simp only [State.reportLaunch, h]

end

end Sys2Proof.Machine
end

section
/-! SUPPORT. The fault queue's records, and RESUME (R73 to R75, R225). -/

namespace Sys2Proof.Machine

/-! ## Attempts to write a record (R73) -/

theorem exec_fqControlWrite (s : State) (t : BitVec 6) (v : Dword) : exec (.fqControlWrite t v) s = .next (
    let fq := fun (f : FaultQueue → FaultQueue) => (s.updTenant t.toNat fun x => { x with fq := f x.fq }).retryRecords t.toNat
    let n := bitsAt v.toNat 1 5
    if 4 ≤ n ∧ n ≤ 16 then fq fun f => { f with en := bitAt v.toNat 0, log2 := BitVec.ofNat 5 n }
    else if bitAt v.toNat 0 then s.retryRecords t.toNat else fq fun f => { f with en := false }) := by
  change execFqControlWrite t v s = _
  rw [execFqControlWrite]
  dsimp only
  by_cases hn : 4 ≤ bitsAt v.toNat 1 5 ∧ bitsAt v.toNat 1 5 ≤ 16
  · rw [if_pos hn, if_neg (by omega)]
    rfl
  · rw [if_neg hn, if_pos (by omega)]
    cases hb : bitAt v.toNat 0 <;> simp [show onBit v 0 = bitAt v.toNat 0 from rfl, hb]

/-- A record may be written: the ring is enabled and has room, and no answer to an earlier record is awaited. -/
def State.ringOpen (s : State) (t : Nat) : Prop :=
  let f := (s.tenant t).fq
  f.en = true ∧ (f.tail - f.head).toNat < 2 ^ f.log2.toNat ∧ ∀ x ∈ s.fabric.remotes, ¬ (x.tenant = t ∧ x.what = .record)

theorem ringOpen_iff (s : State) (t : Nat) :
    (!(s.tenant t).fq.room || s.fabric.remotes.any fun x => x.tenant == t && x.what == .record) = false ↔ s.ringOpen t := by
  simp [State.ringOpen, FaultQueue.room, and_assoc]

section
variable {s u : State} {t : Nat} {r : FaultRec}

theorem writeRecord_shut (h : ¬ s.ringOpen t) : s.writeRecord t r = .kept := by
  rw [← ringOpen_iff, Bool.not_eq_false] at h
  exact if_pos h

section
variable (h : s.ringOpen t)
include h

theorem writeRecord_failed {e : Nat × Err} (hw : s.writeRoot t (s.tenant t).fq.slot r.bytes .record = .error e) : s.writeRecord t r = .kept := by
  simp only [State.writeRecord, (ringOpen_iff s t).mpr h, hw]
  rfl

theorem writeRecord_sent (hw : s.writeRoot t (s.tenant t).fq.slot r.bytes .record = .ok (u, true)) : s.writeRecord t r = .sent u := by
  simp only [State.writeRecord, (ringOpen_iff s t).mpr h, hw]
  rfl

/-- A record written here: the lines of its place are released, the tail moves on, and its vector is raised. -/
theorem writeRecord_written (hw : s.writeRoot t (s.tenant t).fq.slot r.bytes .record = .ok (u, false)) :
    s.writeRecord t r = .written (((u.signLines t (s.tenant t).fq.slot 64).updTenant t fun x =>
      { x with fq := { x.fq with tail := x.fq.tail + 1, opened := x.fq.opened.map fun o =>
        if o.record.seq = r.seq then { o with written := true } else o } }).raiseRecord t r) := by
  have hslot : u.tenant t = s.tenant t := congrArg (Sparse.get Tenant.reset · t) (writesOut_writeRoot hw).tenants
  simp only [State.writeRecord, (ringOpen_iff s t).mpr h, hw, State.recordWritten, hslot, beq_iff_eq]
  rfl

end

/-! ## The interrupt of a record (R73, R74, R136) -/

theorem raiseRecord_raised (h : s.irqHolder r = none) : s.raiseRecord t r = s.raiseVector t 1 := by
  simp only [State.raiseRecord, h, Option.bind_none]

theorem raiseRecord_held {b : Nat} {k : Block} {w : SpecView} {rest : List SpecView} (h : s.irqHolder r = some (b, k)) (hk : k.specs = w :: rest) :
    s.raiseRecord t r =
      if w.outbox.length < 256 then s.setBlock b { k with specs := { w with outbox := w.outbox ++ [.interrupt r.thread.toNat] } :: rest }
      else s.raiseVector t 1 := by
  simp only [State.raiseRecord, h, Option.bind_some, Block.holdOut, hk]
  by_cases hroom : w.outbox.length < 256
  · rw [if_pos hroom, if_pos hroom]
    rfl
  · rw [if_neg hroom, if_neg hroom]
    rfl

/-! ## The records that are held (R73) -/

theorem retryHeld_nil (h : (s.tenant t).fq.held = []) (n : Nat) : s.retryHeld t n = s := by
  cases n with
  | zero => rfl
  | succ n => simp only [State.retryHeld, h]

section
variable {b : Bool} {rest : List (Bool × FaultRec)} (h : (s.tenant t).fq.held = (b, r) :: rest) (n : Nat)
include h

theorem retryHeld_kept (hw : s.writeRecord t { r with count := s.recordCount t r } = .kept) : s.retryHeld t (n + 1) = s := by
  simp only [State.retryHeld, h, hw]

theorem retryHeld_sent (hw : s.writeRecord t { r with count := s.recordCount t r } = .sent u) : s.retryHeld t (n + 1) = u := by
  simp only [State.retryHeld, h, hw]

theorem retryHeld_written (hw : s.writeRecord t { r with count := s.recordCount t r } = .written u) :
    s.retryHeld t (n + 1) = (u.updTenant t fun x => { x with fq := { x.fq with held := rest } }).retryHeld t n := by
  simp only [State.retryHeld, h, hw]

end

end

/-! ## RESUME (R75, R86, R225)

What waking threads leaves of a machine: quads move between bins and bundles, and a thread that runs may stop at its quota. -/

theorem Thread.maybeStopped_refl (g : Option Grid) (a : Thread) : Thread.maybeStopped g a a := .inl rfl

theorem Thread.maybeStopped_trans {g : Option Grid} {a b c : Thread} (h : Thread.maybeStopped g a b) (h' : Thread.maybeStopped g b c) :
    Thread.maybeStopped g a c := by
  rcases h with rfl | hstop
  · exact h'
  · have hquota : b.status = .quota := by
      obtain ⟨_, -, -, -, -, -, rfl⟩ := hstop
      rfl
    rcases h' with rfl | ⟨_, -, -, hrun, -⟩
    · exact .inr hstop
    · rw [hquota] at hrun
      cases hrun

/-- Memory, tenants and grids are the same, and each block stands with its threads, but for those that stop at their quota. -/
structure Wakes (s u : State) : Prop where
  mem : u.mem = s.mem
  tenants : u.tenants = s.tenants
  grids : u.grids = s.grids
  blocks : ∀ b k, s.block? b = some k → ∃ k', u.block? b = some k' ∧ k'.grid = k.grid
    ∧ ∀ tid, Thread.maybeStopped (s.gridOf b) (k.thread tid) (k'.thread tid)

theorem gridOf_some {s : State} {b : Nat} {k : Block} (h : s.block? b = some k) : s.gridOf b = s.grid? k.grid := by
  rw [State.gridOf, h, Option.bind_some]

theorem Wakes.refl (s : State) : Wakes s s := ⟨rfl, rfl, rfl, fun _ k hk => ⟨k, hk, rfl, fun _ => Thread.maybeStopped_refl _ _⟩⟩

theorem Wakes.trans {s t u : State} (h : Wakes s t) (h' : Wakes t u) : Wakes s u := by
  refine ⟨h'.mem.trans h.mem, h'.tenants.trans h.tenants, h'.grids.trans h.grids, fun b k hk => ?_⟩
  obtain ⟨k₁, hk₁, hg₁, hth₁⟩ := h.blocks b k hk
  obtain ⟨k₂, hk₂, hg₂, hth₂⟩ := h'.blocks b k₁ hk₁
  have hgrid : t.gridOf b = s.gridOf b := by
    rw [gridOf_some hk, gridOf_some hk₁, hg₁, State.grid?, State.grid?, h.grids]
  exact ⟨k₂, hk₂, hg₂.trans hg₁, fun tid => Thread.maybeStopped_trans (hth₁ tid) (hgrid ▸ hth₂ tid)⟩

theorem wakes_foldl {α : Type} (l : List α) (f : State → α → State) (h : ∀ s a, Wakes s (f s a)) (s : State) : Wakes s (l.foldl f s) := by
  induction l generalizing s with
  | nil => exact Wakes.refl s
  | cons a l ih => exact (h s a).trans (ih _)

theorem wakes_updCore (s : State) (c : Nat) (f : Core → Core) : Wakes s (s.updCore c f) :=
  ⟨rfl, rfl, rfl, fun _ k hk => ⟨k, hk, rfl, fun _ => Thread.maybeStopped_refl _ _⟩⟩

/-- A change of a block that keeps its grid, and its threads but for those that stop. -/
theorem wakes_updBlock (s : State) (b : Nat) (f : Block → Block) (hf : ∀ k, (f k).grid = k.grid)
    (hth : ∀ k, s.block? b = some k → ∀ tid, Thread.maybeStopped (s.gridOf b) (k.thread tid) ((f k).thread tid)) : Wakes s (s.updBlock b f) := by
  refine ⟨by simp, by simp, by simp, fun x k hk => ?_⟩
  by_cases hx : x = b
  · subst hx
    exact ⟨f k, State.block?_updBlock s x f k hk, hf k, hth k hk⟩
  · exact ⟨k, (State.block?_updBlock_ne s b x f hx).trans hk, rfl, fun _ => Thread.maybeStopped_refl _ _⟩

/-- A change of a block's quads. -/
theorem wakes_updBlock_quads (s : State) (b : Nat) (f : Block → Block) (hf : ∀ k, (f k).grid = k.grid ∧ (f k).threads = k.threads) :
    Wakes s (s.updBlock b f) := by
  refine wakes_updBlock s b f (fun k => (hf k).1) fun k _ tid => ?_
  rw [Block.thread, Block.thread, (hf k).2]
  exact Thread.maybeStopped_refl _ _

theorem foldl_updQuad {α : Type} (l : List α) (q : α → Nat) (f : α → Quad → Quad) (k : Block) :
    (l.foldl (fun k e => k.updQuad (q e) (f e)) k).grid = k.grid ∧ (l.foldl (fun k e => k.updQuad (q e) (f e)) k).threads = k.threads := by
  induction l generalizing k with
  | nil => exact ⟨rfl, rfl⟩
  | cons e l ih => exact ih (k.updQuad (q e) (f e))

theorem wakes_fileQuad (s : State) (b q : Nat) : Wakes s (s.fileQuad b q) := by
  unfold State.fileQuad
  split
  · split
    · exact Wakes.refl s
    · split
      · exact Wakes.refl s
      · exact (wakes_updCore s _ _).trans (wakes_updBlock_quads _ _ _ fun _ => ⟨rfl, rfl⟩)
  · exact Wakes.refl s

theorem wakes_sweepBundle (s : State) (c id : Nat) : Wakes s (s.sweepBundle c id) := by
  unfold State.sweepBundle
  split
  · dsimp only
    split
    · exact (wakes_updBlock_quads _ _ _ fun k => foldl_updQuad _ (fun (e : Nat × Nat) => e.2) (fun _ d => { d with place := .gone }) k).trans
        (wakes_updCore _ _ _)
    · exact (wakes_updBlock_quads _ _ _ fun k => foldl_updQuad _ (fun (e : Nat × Nat) => e.2) (fun _ d => { d with place := .gone }) k).trans
        (wakes_updCore _ _ _)
  · exact wakes_updCore _ _ _
  · exact Wakes.refl s

theorem wakes_settleBundle (s : State) (c id : Nat) (fall : Option Dword) : Wakes s (s.settleBundle c id fall) := by
  unfold State.settleBundle
  dsimp only
  split
  · split
    · exact wakes_sweepBundle s c id
    · split
      · exact wakes_sweepBundle s c id
      · exact (((wakes_sweepBundle s c id).trans (wakes_updCore _ _ _)).trans
          (wakes_updBlock_quads _ _ _ fun k => foldl_updQuad _ (fun (q : Nat) => q) (fun _ d => { d with place := .gone }) k)).trans
          (wakes_foldl _ _ (fun s q => wakes_fileQuad s _ q) _)
  · exact wakes_sweepBundle s c id

theorem wakes_wakeQuad (s : State) (b tid : Nat) : Wakes s (s.wakeQuad b tid) := by
  unfold State.wakeQuad
  split
  · exact Wakes.refl s
  · split
    · exact wakes_fileQuad s b _
    · exact Wakes.refl s
    · split
      · exact Wakes.refl s
      · exact wakes_settleBundle s _ _ none

theorem wakes_stopAtQuota (s : State) (b : Nat) : Wakes s (s.stopAtQuota b) := by
  unfold State.stopAtQuota
  split
  · exact Wakes.refl s
  · next g hg =>
    split
    · exact Wakes.refl s
    · next hdl =>
      refine wakes_updBlock s b _ (fun _ => rfl) fun k _ tid => ?_
      simp only [Block.thread, List.getD_eq_getElem?_getD, List.getElem?_map, List.getElem?_zipIdx]
      cases k.threads[tid]? with
      | none => exact Thread.maybeStopped_refl _ _
      | some th =>
        simp only [Option.map_some, Option.getD_some]
        split
        · next hstop =>
          simp only [Bool.and_eq_true, beq_iff_eq, decide_eq_true_eq] at hstop
          obtain ⟨⟨⟨hrun, hpos⟩, hquota⟩, -⟩ := hstop
          exact .inr ⟨g, hg, by simpa using hdl, hrun, hpos, hquota, rfl⟩
        · exact Thread.maybeStopped_refl _ _

/-- The threads of a record that is resolved go on. -/
theorem wakes_woken (s : State) (ths : List (Nat × Nat)) : Wakes s (ths.foldl (fun s e => match s.block? e.1 with
    | some k => if k.state == .saved || k.state == .lost then s else (s.stopAtQuota e.1).wakeQuad e.1 e.2
    | none => s) s) := by
  refine wakes_foldl _ _ (fun s e => ?_) s
  split
  · split
    · exact Wakes.refl s
    · exact (wakes_stopAtQuota s e.1).trans (wakes_wakeQuad _ e.1 e.2)
  · exact Wakes.refl s

/-- A thread made running, if a record suspends it. -/
def Thread.resumed (seq : Nat) (th : Thread) : Thread := if th.status == .suspended seq then { th with status := .running } else th

theorem Thread.resumed_eq (seq : Nat) (th : Thread) :
    th.resumed seq = if th.status = .suspended seq then { th with status := .running } else th := by
  simp only [Thread.resumed, beq_iff_eq]

theorem Thread.resumed_resumed (seq : Nat) (th : Thread) : (th.resumed seq).resumed seq = th.resumed seq := by
  rw [Thread.resumed_eq seq th]
  split
  · rfl
  · next h => rw [Thread.resumed_eq, if_neg h]

theorem Block.thread_resume (k : Block) (t seq x : Nat) :
    (k.updThread t (Thread.resumed seq)).thread x = if x = t then (k.thread x).resumed seq else k.thread x := by
  rw [Block.thread_updThread]
  by_cases hx : x = t
  · subst hx
    by_cases hT : x < k.T
    · simp [hT]
    · have hidle : k.thread x = Thread.idle := List.getD_eq_default _ _ (Nat.not_lt.mp hT)
      rw [if_neg (fun h => hT h.2), if_pos rfl, hidle]
      rfl
  · simp [hx]

/-- Threads resumed one after another: each that is listed. -/
theorem foldl_resumed (seq : Nat) (l : List (Nat × Nat)) (s : State) :
    let u := l.foldl (fun s e => s.updThread e.1 e.2 (Thread.resumed seq)) s
    u.mem = s.mem ∧ u.tenants = s.tenants ∧ u.grids = s.grids
    ∧ ∀ b k, s.block? b = some k → ∃ k', u.block? b = some k' ∧ k'.grid = k.grid
      ∧ ∀ tid, k'.thread tid = if (b, tid) ∈ l then (k.thread tid).resumed seq else k.thread tid := by
  induction l generalizing s with
  | nil => exact ⟨rfl, rfl, rfl, fun b k hk => ⟨k, hk, rfl, fun tid => (if_neg List.not_mem_nil).symm⟩⟩
  | cons e l ih =>
    obtain ⟨hm, ht, hg, hb⟩ := ih (s.updThread e.1 e.2 (Thread.resumed seq))
    refine ⟨hm.trans (by simp), ht.trans (by simp), hg.trans (by simp), fun b k hk => ?_⟩
    have hstep : ∃ k₁, (s.updThread e.1 e.2 (Thread.resumed seq)).block? b = some k₁ ∧ k₁.grid = k.grid
        ∧ ∀ tid, k₁.thread tid = if (b, tid) = e then (k.thread tid).resumed seq else k.thread tid := by
      by_cases hbe : b = e.1
      · subst hbe
        refine ⟨k.updThread e.2 (Thread.resumed seq), State.block?_updBlock s e.1 _ k hk, rfl, fun tid => ?_⟩
        simp only [Block.thread_resume, Prod.ext_iff, true_and]
      · refine ⟨k, (State.block?_updBlock_ne s e.1 b _ hbe).trans hk, rfl, fun tid => ?_⟩
        rw [if_neg fun h => hbe (congrArg Prod.fst h)]
    obtain ⟨k₁, hk₁, hgrid, hth₁⟩ := hstep
    obtain ⟨k', hk', hgrid', hth'⟩ := hb b k₁ hk₁
    refine ⟨k', hk', hgrid'.trans hgrid, fun tid => ?_⟩
    rw [hth', hth₁]
    by_cases he : (b, tid) = e
    · rw [if_pos he, Thread.resumed_resumed, ite_self, if_pos (he ▸ List.mem_cons_self)]
    · simp only [he, if_false, List.mem_cons, false_or]

/-- RESUME of a record that is no lack of slots: it is resolved, exactly its threads go on, and what runs may stop at its quota. -/
theorem resume_resolves {s : State} {t : BitVec 6} {seq : BitVec 62} {o : OpenRec}
    (ho : (s.tenant t.toNat).fq.opened.find? (fun o => o.record.seq == seq.toNat) = some o) (hcode : o.record.code ≠ BitVec.ofNat 8 cVIEWPOOL)
    (hw : Sparse.wf Tenant.reset s.tenants = true) : Reaches s (.resume t seq) fun u =>
      (u.tenant t.toNat).fq.opened = (s.tenant t.toNat).fq.opened.filter (fun p => decide (p.record.seq ≠ seq.toNat)) ∧ u.mem = s.mem
      ∧ ∀ b k, s.block? b = some k → ∃ k', u.block? b = some k' ∧ ∀ tid, Thread.maybeStopped (s.gridOf b)
          (if (b, tid) ∈ o.threads ∧ (k.thread tid).status = .suspended seq.toNat then { k.thread tid with status := .running }
            else k.thread tid) (k'.thread tid) := by
  let s₁ := s.updTenant t.toNat fun x => { x with fq := { x.fq with
    opened := x.fq.opened.filter (fun p => p.record.seq != seq.toNat), held := x.fq.held } }
  let s₂ := o.threads.foldl (fun s e => s.updThread e.1 e.2 (Thread.resumed seq.toNat)) s₁
  let s₃ := o.threads.foldl (fun s e => match s.block? e.1 with
    | some k => if k.state == .saved || k.state == .lost then s else (s.stopAtQuota e.1).wakeQuad e.1 e.2
    | none => s) s₂
  have hexec : exec (.resume t seq) s = .next s₃ := by
    have hpool : (o.record.code == BitVec.ofNat 8 cVIEWPOOL) = false := beq_eq_false_iff_ne.mpr hcode
    change execResume t seq s = _
    simp only [execResume, State.resumeRecord, ho, hpool]
    rfl
  obtain ⟨hm₂, ht₂, hg₂, hb₂⟩ := foldl_resumed seq.toNat o.threads s₁
  have hwake : Wakes s₂ s₃ := wakes_woken s₂ o.threads
  refine ⟨s₃, hexec, ?_, hwake.mem.trans hm₂, fun b k hk => ?_⟩
  · have htenant : s₃.tenant t.toNat = s₁.tenant t.toNat := congrArg (Sparse.get Tenant.reset · t.toNat) (hwake.tenants.trans ht₂)
    rw [htenant, State.tenant_updTenant s t.toNat _ hw]
    exact List.filter_congr fun p _ => by simp [bne, Bool.beq_eq_decide_eq]
  · obtain ⟨k₂, hk₂, hgrid, hth₂⟩ := hb₂ b k hk
    obtain ⟨k', hk', -, hth'⟩ := hwake.blocks b k₂ hk₂
    refine ⟨k', hk', fun tid => ?_⟩
    have hgridOf : s₂.gridOf b = s.gridOf b := by
      rw [gridOf_some hk₂, gridOf_some hk, hgrid, State.grid?, State.grid?, hg₂]
      rfl
    have hthread : k₂.thread tid = if (b, tid) ∈ o.threads ∧ (k.thread tid).status = .suspended seq.toNat then
        { k.thread tid with status := .running } else k.thread tid := by
      rw [hth₂, Thread.resumed_eq, ite_and]
    exact hthread ▸ hgridOf ▸ hth' tid

end Sys2Proof.Machine
end

section
/-! SUPPORT. KILL (R75, R115, R124). What stopping blocks and breaking handles leaves alone: no grid changes, and no thread that has
exited comes back. -/

namespace Sys2Proof.Machine

/-! ## The relation -/

/-- Every thread of a block has exited. -/
def Block.allExited (k : Block) : Prop := ∀ th ∈ k.threads, th.status = .exited

/-- The grids are the same, each block there is was there, of the same grid, and a block whose threads had exited is still so. -/
structure Halts (s u : State) : Prop where
  grids : u.grids = s.grids
  blocks : ∀ b k', u.block? b = some k' → ∃ k, s.block? b = some k ∧ k'.grid = k.grid ∧ (k.allExited → k'.allExited)

theorem Halts.trans {s t u : State} (h : Halts s t) (h' : Halts t u) : Halts s u := by
  refine ⟨h'.grids.trans h.grids, fun b k₂ hk₂ => ?_⟩
  obtain ⟨k₁, hk₁, hg₁, he₁⟩ := h'.blocks b k₂ hk₂
  obtain ⟨k, hk, hg, he⟩ := h.blocks b k₁ hk₁
  exact ⟨k, hk, hg₁.trans hg, fun hx => he₁ (he hx)⟩

/-- A change outside the grids and the blocks. -/
theorem halts_of_blocks {s u : State} (hg : u.grids = s.grids) (hb : u.blocks = s.blocks) : Halts s u :=
  ⟨hg, fun b k hk => ⟨k, by rwa [State.block?, ← hb], rfl, id⟩⟩

theorem Halts.refl (s : State) : Halts s s := halts_of_blocks rfl rfl

theorem halts_foldl {α : Type} (l : List α) (f : State → α → State) (h : ∀ s a, Halts s (f s a)) (s : State) : Halts s (l.foldl f s) := by
  induction l generalizing s with
  | nil => exact Halts.refl s
  | cons a l ih => exact (h s a).trans (ih _)

theorem halts_setBlock {s : State} {b : Nat} {k k' : Block} (hk : s.block? b = some k) (hg : k'.grid = k.grid)
    (he : k.allExited → k'.allExited) : Halts s (s.setBlock b k') := by
  refine ⟨rfl, fun x kx hx => ?_⟩
  by_cases hxb : x = b
  · subst hxb
    rw [State.block?_setBlock, Option.some.injEq] at hx
    exact ⟨k, hk, hx ▸ hg, hx ▸ he⟩
  · exact ⟨kx, by rwa [State.block?_setBlock_ne _ _ _ _ hxb] at hx, rfl, id⟩

theorem halts_updBlock (s : State) (b : Nat) (f : Block → Block) (hf : ∀ k, (f k).grid = k.grid ∧ (k.allExited → (f k).allExited)) :
    Halts s (s.updBlock b f) := by
  unfold State.updBlock
  split
  · next k hk => exact halts_setBlock hk (hf k).1 (hf k).2
  · exact Halts.refl s

theorem Halts.allExited {s u : State} {b : Nat} (h : Halts s u) (hs : ∀ k, s.block? b = some k → k.allExited) :
    ∀ k, u.block? b = some k → k.allExited := by
  intro k' hk'
  obtain ⟨k, hk, -, he⟩ := h.blocks b k' hk'
  exact he (hs k hk)

/-! ## Blocks that are stopped -/

theorem halts_unfileBlock (s : State) (b : Nat) : Halts s (s.unfileBlock b) := by
  unfold State.unfileBlock
  split
  · exact Halts.refl s
  · next k hk => exact (halts_of_blocks rfl rfl : Halts s (s.updCore k.core _)).trans (halts_setBlock hk rfl id)

/-- The threads of a block exited, as a stop leaves them. -/
def Block.stopped (k : Block) : Block := { k with
  threads := k.threads.map fun t => { t with status := .exited }
  fork := k.fork.map fun f => { f with next := f.n }
  specs := k.specs, state := if k.state == .saved then .saved else .running, lackSince := none, granted := none, lackUse := none }

theorem allExited_stopped (k : Block) : k.stopped.allExited := by
  intro th hth
  obtain ⟨_, -, rfl⟩ := List.mem_map.mp hth
  rfl

/-- What a stop of one block does to it, before its children stop. -/
def State.stopOne (s : State) (b tenant : Nat) : State :=
  let u := (s.unfileBlock b).updBlock b Block.stopped
  State.dropFromRecords { u with
    pending := u.pending.filter (fun p => p.block != b)
    issue := match u.issue with
      | some i => if i.block == b then some { i with lanes := [] } else some i
      | none => none } tenant (fun b' _ => b' == b)

theorem stopBlock_succ (s : State) (fuel b : Nat) : s.stopBlock (fuel + 1) b = match s.block? b with
    | none => s
    | some k => (s.stopOne b k.tenant).blocks.foldl (fun u e => if e.2.parent == some b then u.stopBlock fuel e.1 else u) (s.stopOne b k.tenant) := rfl

theorem halts_stopOne (s : State) (b tenant : Nat) : Halts s (s.stopOne b tenant)
    ∧ ∀ k, (s.stopOne b tenant).block? b = some k → k.allExited := by
  have hupd : Halts (s.unfileBlock b) ((s.unfileBlock b).updBlock b Block.stopped) :=
    halts_updBlock _ _ _ fun k => ⟨rfl, fun _ => allExited_stopped k⟩
  have hrest : Halts ((s.unfileBlock b).updBlock b Block.stopped) (s.stopOne b tenant) := halts_of_blocks rfl rfl
  refine ⟨((halts_unfileBlock s b).trans hupd).trans hrest, hrest.allExited fun k hk => ?_⟩
  unfold State.updBlock at hk
  split at hk
  · rw [State.block?_setBlock, Option.some.injEq] at hk
    exact hk ▸ allExited_stopped _
  · next h => rw [h] at hk; cases hk

theorem halts_stopBlock (fuel : Nat) (s : State) (b : Nat) : Halts s (s.stopBlock fuel b) := by
  induction fuel generalizing s b with
  | zero => exact Halts.refl s
  | succ fuel ih =>
    rw [stopBlock_succ]
    split
    · exact Halts.refl s
    · next k _ =>
      refine (halts_stopOne s b k.tenant).1.trans (halts_foldl _ _ (fun u e => ?_) _)
      split
      · exact ih u e.1
      · exact Halts.refl u

theorem allExited_stopBlock (fuel : Nat) (s : State) (b : Nat) : ∀ k, (s.stopBlock (fuel + 1) b).block? b = some k → k.allExited := by
  rw [stopBlock_succ]
  split
  · next h => intro k hk; rw [h] at hk; cases hk
  · next k _ =>
    refine Halts.allExited (halts_foldl _ _ (fun u e => ?_) _) (halts_stopOne s b k.tenant).2
    split
    · exact halts_stopBlock fuel u e.1
    · exact Halts.refl u

theorem Sparse.mem_of_find {α : Type} {l : Sparse α} {n : Nat} {v : α} (h : Sparse.find l n = some v) : (n, v) ∈ l := by
  induction l with
  | nil => cases h
  | cons e l ih =>
    rw [Sparse.find] at h
    split at h
    · next hk => exact List.mem_cons.mpr (.inl (by rw [← hk, ← Option.some.inj h]))
    · exact List.mem_cons_of_mem _ (ih h)

/-- Every block of a grid that is stopped has exited. -/
theorem stopGrid_exits (s : State) (n : Nat) : Halts s (s.stopGrid n)
    ∧ ∀ b k, (s.stopGrid n).block? b = some k → k.grid = n → k.allExited := by
  have one : ∀ (u : State) (e : Nat × Block), Halts u (if e.2.grid == n then u.stopBlock nestFuel e.1 else u) := by
    intro u e
    split
    · exact halts_stopBlock nestFuel u e.1
    · exact Halts.refl u
  have each : ∀ (l : List (Nat × Block)) (u : State) (b : Nat) (k : Block), (b, k) ∈ l → k.grid = n →
      ∀ k', (l.foldl (fun u e => if e.2.grid == n then u.stopBlock nestFuel e.1 else u) u).block? b = some k' → k'.allExited := by
    intro l
    induction l with
    | nil => exact fun _ _ _ h => absurd h List.not_mem_nil
    | cons e l ih =>
      intro u b k hmem hgrid
      rcases List.mem_cons.mp hmem with rfl | hl
      · have hstop : (if k.grid == n then u.stopBlock nestFuel b else u) = u.stopBlock nestFuel b := if_pos (beq_iff_eq.mpr hgrid)
        refine Halts.allExited (halts_foldl l _ one _) ?_
        dsimp only
        rw [hstop]
        exact allExited_stopBlock 9 u b
      · exact ih _ b k hl hgrid
  have hstops : Halts s (s.stopGrid n) := halts_foldl _ _ one s
  refine ⟨hstops, fun b k' hk' hgrid => ?_⟩
  obtain ⟨k, hk, hg, -⟩ := hstops.blocks b k' hk'
  exact each s.blocks s b k (Sparse.mem_of_find hk) (hg ▸ hgrid) k' hk'

/-! ## Records that name no thread -/

theorem raiseRecord_unnamed {r : FaultRec} (h : r.pc = 0) (s : State) (t : Nat) : s.raiseRecord t r = s.raiseVector t 1 := by
  refine raiseRecord_raised ?_
  simp [State.irqHolder, h]

theorem halts_raiseVector (s : State) (t v : Nat) : Halts s (s.raiseVector t v) :=
  halts_of_blocks (congrArg State.grids (raiseVector_frame s t v) :) (congrArg State.blocks (raiseVector_frame s t v) :)

theorem halts_signLines (s : State) (t va n : Nat) : Halts s (s.signLines t va n) := by
  obtain ⟨u, hu, hw⟩ := signLines_frame s t va n
  exact halts_of_blocks (hw.grids.trans (congrArg State.grids hu :)) (hw.blocks.trans (congrArg State.blocks hu :))

theorem halts_writesOut {s u : State} (h : WritesOut s u) : Halts s u := halts_of_blocks h.grids h.blocks

theorem halts_updTenant (s : State) (t : Nat) (f : Tenant → Tenant) : Halts s (s.updTenant t f) := halts_of_blocks rfl rfl

section
variable {r : FaultRec} (hpc : r.pc = 0)
include hpc

theorem halts_recordWritten (s : State) (t : Nat) : Halts s (s.recordWritten t r) := by
  unfold State.recordWritten
  rw [raiseRecord_unnamed hpc]
  exact ((halts_signLines s t _ 64).trans (halts_updTenant _ t _)).trans (halts_raiseVector _ t 1)

theorem halts_writeRecord {s u : State} {t : Nat} (h : s.writeRecord t r = .written u ∨ s.writeRecord t r = .sent u) : Halts s u := by
  unfold State.writeRecord at h
  dsimp only at h
  split at h
  · simp at h
  · split at h
    · simp at h
    · next hw =>
      simp only [reduceCtorEq, false_or, Posting.sent.injEq] at h
      exact h ▸ halts_writesOut (writesOut_writeRoot hw)
    · next hw =>
      simp only [reduceCtorEq, or_false, Posting.written.injEq] at h
      exact h ▸ (halts_writesOut (writesOut_writeRoot hw)).trans (halts_recordWritten hpc _ t)

theorem halts_postRecord (s : State) (t : Nat) (b : Bool) : Halts s (s.postRecord t b r) := by
  have attempt : ∀ u, ((if (s.tenant t).fq.held.isEmpty then s.writeRecord t r else .kept) = .written u
      ∨ (if (s.tenant t).fq.held.isEmpty then s.writeRecord t r else .kept) = .sent u) → Halts s u := by
    intro u hu
    split at hu
    · exact halts_writeRecord hpc hu
    · simp at hu
  unfold State.postRecord
  dsimp only
  split
  · next hw => exact attempt _ (.inl hw)
  · next hw => exact (attempt _ (.inr hw)).trans (halts_updTenant _ t _)
  · split
    · exact halts_updTenant s t _
    · split <;> exact halts_updTenant s t _

end

/-! ## Handles that break -/

theorem halts_tell (s : State) (m : Msg) : Halts s (s.tell m) := by
  unfold State.tell
  split
  · next h => exact halts_writesOut (writesOut_send h)
  · exact (halts_updTenant s _ _).trans (halts_postRecord rfl _ _ false)

theorem settleTimelines_if (c : Bool) (k : Block) : (if c then k.settleTimelines else k).grid = k.grid
    ∧ (k.allExited → (if c then k.settleTimelines else k).allExited) := by
  cases c <;> exact ⟨rfl, fun h => h⟩

theorem halts_tlComplete (s : State) (b k num : Nat) : Halts s (s.tlComplete b k num) :=
  halts_updBlock s b _ fun x => settleTimelines_if _ { x with tlDone := x.tlDone ++ [(k, num)] }

theorem halts_unless {s u : State} (c : Bool) (h : Halts s u) : Halts s (if c then s else u) := by
  cases c
  · exact h
  · exact Halts.refl s

theorem halts_reclaim (s : State) (t slot : Nat) : Halts s (s.reclaim t slot) := by
  unfold State.reclaim
  exact halts_of_blocks rfl rfl

theorem halts_updForeign (s : State) (h : Dword) (f : Sluice → Sluice) : Halts s (s.updForeign h f) := halts_of_blocks rfl rfl

theorem halts_breakHandle (fuel : Nat) (s : State) (h : Dword) (code hops : Byte) (reason : BitVec 2) :
    Halts s (s.breakHandle fuel h code hops reason) := by
  induction fuel generalizing s h code hops with
  | zero => exact Halts.refl s
  | succ fuel ih =>
    have chain : ∀ (ivos : List Ivo) (u : State), Halts u (ivos.foldl (fun u v => u.breakHandle fuel v.handle code (hopUp hops) reason) u) :=
      fun ivos => halts_foldl ivos _ fun u v => ih u v.handle code (hopUp hops)
    unfold State.breakHandle
    dsimp only
    split
    · split
      · exact Halts.refl s
      · refine Halts.trans ?_ (halts_reclaim _ _ _)
        refine Halts.trans ?_ (chain _ _)
        refine Halts.trans ?_ (halts_unless _ (halts_tlComplete _ _ _ _))
        exact (halts_updTenant s _ _).trans (halts_foldl _ _ (fun u d => halts_tell u _) _)
    · split
      · exact halts_tell s _
      · refine Halts.trans ?_ (chain _ _)
        exact (halts_tell s _).trans (halts_updForeign _ _ _)

theorem halts_breakHandlesOf (s : State) (t : Nat) (p : Nat → Sluice → Bool) (code : Byte) (reason : BitVec 2) :
    Halts s (s.breakHandlesOf t p code reason) := by
  refine halts_foldl _ _ (fun u e => ?_) s
  split
  · exact halts_breakHandle _ u _ code 0 reason
  · exact Halts.refl u

/-! ## The launch that ends -/

/-- A grid that KILL has ended: no block of it starts any more, and it has no effect left. -/
def Grid.killedNow (g : Grid) : Grid :=
  { g with killed := true, total := g.nextBlock, effects := [], closing := none, heldRed := [], trace := none }

/-- KILL of a launch that is the device's only grid: the grid is marked, its blocks stop, and its handles
break. -/
theorem killLaunch_only {s : State} {n : Nat} {g : Grid} (hgrids : s.grids = [(n, g)]) :
    s.killLaunch n = ((((s.setGrid n g.killedNow).stopGrid n).resolvePoolOf g.tenant
        (((s.setGrid n g.killedNow).stopGrid n).launchGrids n |>.map fun e => e.2.gid)).breakHandlesOf g.tenant
        (fun _ e => e.owner == n) (BitVec.ofNat 8 cTRAP) 1) := by
  have hg : s.grid? n = some g := by simp [State.grid?, hgrids, Sparse.find]
  have hput : (s.setGrid n g.killedNow).grids = [(n, g.killedNow)] := by simp [State.setGrid, hgrids, Sparse.put]
  have hstop : ((s.setGrid n g.killedNow).stopGrid n).grids = [(n, g.killedNow)] := (stopGrid_exits _ n).1.grids.trans hput
  have htasks : ∀ u : State, u.grids = [(n, g.killedNow)] → ((u.launchGrids n).filter fun e => e.1 != n) = [] := by
    intro u hu
    simp only [State.launchGrids, hu, List.filter_filter]
    simp
  unfold State.killLaunch
  rw [hg]
  dsimp only
  rw [← Grid.killedNow, htasks _ (by exact hstop)]
  rfl

/-- What KILL leaves of a launch that is the device's only grid. -/
theorem killLaunch_ends {s : State} {n : Nat} {g : Grid} (hgrids : s.grids = [(n, g)]) :
    (s.killLaunch n).grid? n = some g.killedNow ∧ ∀ b k, (s.killLaunch n).block? b = some k → k.grid = n → k.allExited := by
  obtain ⟨hstop, hexit⟩ := stopGrid_exits (s.setGrid n g.killedNow) n
  have hrest : Halts ((s.setGrid n g.killedNow).stopGrid n) (s.killLaunch n) := by
    rw [killLaunch_only hgrids]
    exact (halts_updTenant _ _ _).trans (halts_breakHandlesOf _ _ _ _ _)
  refine ⟨?_, fun b k' hk' hgrid => ?_⟩
  · rw [State.grid?, hrest.grids, hstop.grids]
    exact State.grid?_setGrid s n _
  · obtain ⟨k, hk, hkg, he⟩ := hrest.blocks b k' hk'
    exact he (hexit b k hk (hkg ▸ hgrid))

theorem Block.allExited.thread {k : Block} (h : k.allExited) {tid : Nat} (ht : tid < k.T) : (k.thread tid).status = .exited := by
  rw [Block.thread, List.getD_eq_getElem _ _ ht]
  exact h _ (List.getElem_mem ht)

theorem exec_kill (s : State) (t : BitVec 6) (q : BitVec 4) :
    exec (.kill t q) s = .next ((s.launchesOf t.toNat q.toNat).foldl (fun s e => s.killLaunch e.1) s) := rfl

end Sys2Proof.Machine
end

section
/-! Launches, the fault queue, RESUME and KILL (R68, R71, R73 to R75, R89, R90, R179, R225). -/

namespace Sys2Proof.Machine

/-- A step that begins a launch leaves the grid of its record. -/
theorem reaches_beginLaunch {s y : State} {t : BitVec 6} {q : BitVec 4} {r : Record} {trace : Option (List (Nat × Nat))}
    (h : exec (.launchStart t q) s = .next (y.beginLaunch t.toNat q.toNat (s.queue t.toNat q.toNat) r trace))
    (hn : y.nextUid = s.nextUid) (hg : y.grids = s.grids) :
    let x := s.queue t.toNat q.toNat
    let id := s.nextUid + 1
    Reaches s (.launchStart t q) fun u =>
      let y' := if recordAcq r.words then y.activeCores.foldl (fun z c => z.acquireCore c) y else y
      { u with grids := y'.grids, nextUid := s.nextUid } = y'.updQueue t.toNat q.toNat (fun z => { z with lastStarted := id })
      ∧ u.nextUid = id ∧ (∀ n, n ≠ id → u.grid? n = s.grid? n)
      ∧ ∃ g, u.grid? id = some g ∧ g.tenant = t.toNat ∧ g.queue = q.toNat ∧ g.seq = r.seq ∧ g.dl = x.dl ∧ g.prio = x.prio
        ∧ g.quota = (if x.quota = 0 then 4096 else x.quota.toNat) ∧ g.kernel = r.kernel ∧ g.task = none
        ∧ g.total = (recordInfo r.va r.words).gx * (recordInfo r.va r.words).gy * (recordInfo r.va r.words).gz
        ∧ g.nextBlock = 0 ∧ g.finished = 0 ∧ g.trace = trace ∧ g.gid = gridId t.toNat q.toNat false 0 r.seq
        ∧ g.pendingEvents = (if x.dl = 1 ∧ x.trace ≠ 2 then [(0x07, 0)] else []) := by
  intro x id
  obtain ⟨hrest, hid, hothers, hgrid⟩ := beginLaunch_starts hn hg t.toNat q.toNat x r trace
  refine ⟨_, h, hrest, hid, hothers, _, hgrid, rfl, rfl, rfl, rfl, rfl, ?quota, rfl, rfl, rfl, rfl, rfl, rfl, rfl, rfl⟩
  case quota => simp only [launchGrid, beq_iff_eq]

/-! ## The ways a LAUNCH_START goes (R71, R89, R90) -/

section
variable {s : State} {t : BitVec 6} {q : BitVec 4} {r : Record} (h : s.startable t.toNat q.toNat = some r)
include h

/-- The trace is recorded: how much its buffer holds is asked for first. -/
theorem launchStart_asksRoom (htrace : (s.queue t.toNat q.toNat).trace = 1) (hfail : (s.queue t.toNat q.toNat).traceFailed = false)
    (hread : readWaits (s.traceRoom t.toNat q.toNat) = true) :
    exec (.launchStart t q) s = .next (s.askRoot t.toNat ((s.queue t.toNat q.toNat).traceAddr.toNat + 8) 4) := by
  simp [exec_launchStart h, htrace, hfail, hread]

/-- Without replay the launch begins. -/
theorem launchStart_begins (htrace : (s.queue t.toNat q.toNat).trace ≠ 2) (hroom : (s.queue t.toNat q.toNat).trace = 1 →
    (s.queue t.toNat q.toNat).traceFailed = true ∨ readWaits (s.traceRoom t.toNat q.toNat) = false) :
    exec (.launchStart t q) s = .next ((s.updQueue t.toNat q.toNat fun z => { z with waiting := z.waiting.drop 1 }).beginLaunch
      t.toNat q.toNat (s.queue t.toNat q.toNat) r none) := by
  have hask : ((s.queue t.toNat q.toNat).trace == 1 && !(s.queue t.toNat q.toNat).traceFailed && readWaits (s.traceRoom t.toNat q.toNat)) = false := by
    rw [← Bool.not_eq_true]
    simp only [Bool.and_eq_true, beq_iff_eq, Bool.not_eq_true']
    rintro ⟨⟨h1, hf⟩, hr⟩
    rcases hroom h1 with hf' | hr'
    · rw [hf] at hf'; cases hf'
    · rw [hr] at hr'; cases hr'
  simp only [exec_launchStart h, hask, beq_eq_false_iff_ne.mpr htrace, bne_iff_ne.mpr htrace]
  rfl

section
variable (htrace : (s.queue t.toNat q.toNat).trace = 2)
include htrace

/-- Under replay the entries of the launch are read first. -/
theorem launchStart_asksTrace (hread : readWaits (s.traceEntries t.toNat q.toNat r.seq) = true) :
    exec (.launchStart t q) s = .next (s.askTrace t.toNat q.toNat) := by
  simp [exec_launchStart h, htrace, hread]

/-- Under replay, once its entries are read: the launch begins with them, or is refused. -/
theorem launchStart_replays (hread : readWaits (s.traceEntries t.toNat q.toNat r.seq) = false) :
    let x := s.queue t.toNat q.toNat
    let s₁ := s.updQueue t.toNat q.toNat fun z => { z with waiting := z.waiting.drop 1 }
    let s₂ := (s₁.forgetRoot t.toNat x.traceAddr.toNat 0x40).forgetRoot t.toNat (x.traceAddr.toNat + 0x40)
      (match s₁.readRoot t.toNat x.traceAddr.toNat 0x40 with | .ok h => 8 * bytesToNat ((h.drop 12).take 4) | .error _ => 0)
    let i := recordInfo r.va r.words
    let gid : Dword := BitVec.ofNat 64 (t.toNat * 2 ^ 58 + q.toNat * 2 ^ 54 + r.seq % 2 ^ 43)
    exec (.launchStart t q) s = .next (match s.traceEntries t.toNat q.toNat r.seq with
      | .error (a, e) => (s₂.queueFault t.toNat q.toNat e a gid).refuseLaunch t.toNat q.toNat gid i 5
      | .ok none => s₂.refuseLaunch t.toNat q.toNat gid i 5
      | .ok (some es) => if s₂.traceFits t.toNat (i.gx * i.gy * i.gz) r.kernel.cluster es then s₂.beginLaunch t.toNat q.toNat x r (some es)
          else s₂.refuseLaunch t.toNat q.toNat gid i 5) := by
  simp only [exec_launchStart h, htrace, hread, gridId_launch]
  rfl

end

end

/-- Settles O43: the clauses on a launch's start go through `exec_launchStart`, those on the fault queue through one attempt to write a
record, and RESUME and KILL through what waking and halting threads leave alone. -/
theorem launchesAndFaultQueue : Obligations.LaunchesAndFaultQueue := by
  intro s t q v fq x
  refine ⟨?start, fun r => startable_iff s t.toNat q.toNat r, ?complete, ?report, rfl, exec_fqControlWrite s t v, rfl, ?record,
    fun n hheld => retryHeld_nil hheld n, ?held, fun o seq ho hcode _ hw => resume_resolves ho hcode hw, ?idle, ?kill⟩
  case start =>
    intro r hr s₁ id dims gid starts
    have hgid : gridId t.toNat q.toNat false 0 r.seq = gid := gridId_launch _ _ _
    have begins : ∀ (y : State) (trace : Option (List (Nat × Nat))), y.nextUid = s.nextUid → y.grids = s.grids →
        exec (.launchStart t q) s = .next (y.beginLaunch t.toNat q.toNat x r trace) → starts y trace := by
      intro y trace hn hg h
      have hreach := reaches_beginLaunch h hn hg
      rw [hgid] at hreach
      exact hreach
    refine ⟨launchStart_asksRoom hr, fun htr hroom => begins s₁ none rfl rfl (launchStart_begins hr htr hroom), fun htr => ?_⟩
    intro found s₂ refused
    have replay : readWaits found = false → exec (.launchStart t q) s = .next (match found with
        | .error (a, e) => refused (s₂.queueFault t.toNat q.toNat e a gid)
        | .ok none => refused s₂
        | .ok (some es) => if s₂.traceFits t.toNat dims r.kernel.cluster es then s₂.beginLaunch t.toNat q.toNat x r (some es) else refused s₂) :=
      launchStart_replays hr htr
    refine ⟨launchStart_asksTrace hr htr, fun a e hf he => ?_, fun hf => ?_, fun es hf => ?_⟩
    · rw [hf] at replay
      exact replay (beq_eq_false_iff_ne.mpr he)
    · rw [hf] at replay
      exact replay rfl
    · rw [hf] at replay
      have hstep := replay rfl
      dsimp only at hstep
      split
      · next hfits => exact begins s₂ (some es) rfl rfl (hstep.trans (congrArg _ (if_pos hfits)))
      · next hfits => exact hstep.trans (congrArg _ (if_neg hfits))
  case complete =>
    intro n g r hg hr hidle x s₁
    refine ⟨fun hx => endRelease_hostOpen (Prod.ext rfl hx), (exec_launchComplete hg hr hidle).trans ?_⟩
    cases hx : (s.endRelease n 5 g).2 <;> simp [x, s₁, hx]
  case report =>
    intro a gid dc r st u at_ signal written
    refine ⟨fun s₁ hw => (reportLaunch_written hw).trans rfl, fun va e hw => (reportLaunch_failed hw).trans rfl,
      fun s₁ hw => reportLaunch_sent hw, rfl, fun e => rfl⟩
  case record =>
    rintro r f rfl at_ may written
    refine ⟨writeRecord_shut, fun hmay => ⟨fun e hw => writeRecord_failed hmay hw, fun s₁ hw => writeRecord_sent hmay hw,
      fun s₁ hw => writeRecord_written hmay hw⟩, raiseRecord_raised, fun b k w rest hh hk => raiseRecord_held hh hk⟩
  case held =>
    intro n h r rest hheld r'
    exact ⟨retryHeld_kept hheld n, fun u => retryHeld_sent hheld n, fun u => retryHeld_written hheld n⟩
  case idle =>
    intro hnone
    rw [Becomes, exec_kill, hnone]
    rfl
  case kill =>
    intro n g hlaunch hgrids _ _ _
    obtain ⟨hgrid, hexit⟩ := killLaunch_ends hgrids
    refine ⟨s.killLaunch n, ?_, ⟨_, hgrid, rfl, rfl, rfl, rfl⟩, fun b k hk hkg tid ht => (hexit b k hk hkg).thread ht⟩
    rw [exec_kill, hlaunch]
    rfl

end Sys2Proof.Machine
end

section
/-! An ENG instruction that makes its release, in a machine that lists its block twice (R173, R344, R348). -/

namespace Sys2Proof.Machine

/-- A machine with one placed ENG instruction, whose only lane is thread 0 of block 3: tenant 0 has a fault queue whose ring lies on
a page of this device and a store that device 7 has not acknowledged, and the core's cache holds a dirty sector of a host page
that is mapped no more. -/
def placedRelease (ins : Instr) : State :=
  let s := (State.reset.placeClause .eng (encode ins)).updTenant 0 fun t => { t with fq := { t.fq with en := true, base := 0x20000 } }
  let s := s.updCore 0 fun c => { c with cache := [⟨0, 0, 0, .host 0 5 0 0, List.replicate 64 0, 1, 1, some ⟨3, 0, 4⟩⟩] }
  { s with
    issue := s.issue.map fun i => { i with lanes := [⟨0, 0, true, 1⟩] }
    tlb := [⟨ownSite, 0, { farPage with base := 0x20000, size := 0x20000, kind := .local, addr := 0x40000 }⟩]
    fabric := { s.fabric with remotes := [⟨1, 0, 7, none, 0, .store 3 0 0⟩] } }

/-- The same where the block table lists block 3 again, in a view and in a grid at DL1. -/
def releaseListedTwice (ins : Instr) : State :=
  let s := placedRelease ins
  { s with
    blocks := s.blocks ++ s.blocks.map fun (e : Nat × Block) => (e.1, { e.2 with grid := 9, specs := [someView] })
    grids := s.grids ++ s.grids.map fun (e : Nat × Grid) => (9, { e.2 with dl := 1 }) }

/-- The clause under way, and block 3 as it is found first. -/
def releaseIssue (ins : Instr) : Issue := (releaseListedTwice ins).issue.getD ⟨0, 0, 0, 0, 0, [], 0, [], 0, false⟩
def releaseBlock (ins : Instr) : Block := ((releaseListedTwice ins).block? 3).getD (placedBlock 1 2 4 3 0)

/-- TBARRIVE of x2 on the barrier at x6, and TLADD of x2 on tl5. -/
def releasingInstrs : List Instr := [.tbarrive 2 6, .tladd 2 5]

theorem releaseListedTwice_issuing {ins : Instr} (h : ins ∈ releasingInstrs) :
    Issuing (releaseListedTwice ins) (releaseIssue ins) (releaseBlock ins) where
  clause := by revert ins; decide +kernel
  block := by revert ins; decide +kernel
  lanes := by revert ins; decide +kernel
  within := by revert ins; decide +kernel
  bundle := fun u hu => by
    have hall : ∀ ins ∈ releasingInstrs, ((releaseListedTwice ins).bundle? (releaseIssue ins).core (releaseIssue ins).bundle).all
        (fun u => u.block == (releaseIssue ins).block) = true := by decide +kernel
    simpa [hu] using hall ins h
  cores := by revert ins; decide +kernel

/-- What a release at a scope leaves, parked with the wait that it asks for. -/
def parkedRelease (s : State) (i : Issue) (l : Lane) (scope : Nat) : State :=
  match (s.releaseAt i.block l.tid i.at scope).2 with
  | some w => (s.releaseAt i.block l.tid i.at scope).1.park i l.tid (i.pos + 1) (.waiting w)
  | none => s

/-- The release of that instruction does not complete, and the model pauses the clause at it: the record of the dirty sector, which
can no longer go home, finds the second entry of the block table, in a view and at DL1, and puts it in the first one's place. -/
theorem not_does_parkedRelease {ins : Instr} (h : ins ∈ releasingInstrs) {scope : Nat} (hs : scope ∈ [2, 3]) {P : State → Lane → Prop}
    (hP : P (releaseListedTwice ins) ⟨0, 0, true, 1⟩) :
    ¬ Does (releaseListedTwice ins) (releaseIssue ins) ins P fun s l => parkedRelease s (releaseIssue ins) l scope := by
  intro hdoes
  have hlanes : ∀ ins ∈ releasingInstrs, (releaseIssue ins).lanes = [⟨0, 0, true, 1⟩] := by decide +kernel
  have hgate : ∀ ins ∈ releasingInstrs, (releaseListedTwice ins).gate (releaseIssue ins) ⟨0, 0, true, 1⟩ ins = none := by decide +kernel
  obtain ⟨t, hexec, hpassed⟩ := hdoes (by
    rw [hlanes ins h]
    exact ⟨fun _ => ⟨hgate ins h, fun _ => hP⟩, trivial⟩)
  have hmodel : ∀ ins ∈ releasingInstrs, keptAfter (exec ins (releaseListedTwice ins)) = false := by decide +kernel
  have hclaim : ∀ ins ∈ releasingInstrs, ∀ scope ∈ [2, 3], keptAfter (.next (((releaseListedTwice ins).inLanes (releaseIssue ins)
      fun s l => parkedRelease s (releaseIssue ins) l scope).afterInstr (wordsOf ins))) = true := by decide +kernel
  have hkept := hmodel ins h
  rw [hexec, hpassed.ends, hclaim ins h scope hs] at hkept
  exact Bool.noConfusion hkept

/-- Refutes O27: its fourth clause on TBARRIVE has the thread wait by itself for its release at DL0, and the model decides that by the
block as it stands once the dirty sectors have left. -/
theorem not_transactionBarrierResults : ¬ Obligations.TransactionBarrierResults := by
  intro h
  have hmem : Instr.tbarrive 2 6 ∈ releasingInstrs := by decide
  obtain ⟨-, -, -, hwait, -⟩ := h.2 _ _ _ (releaseListedTwice_issuing hmem) 2 6 0 0 0
  refine not_does_parkedRelease hmem (scope := 2) (by decide) ⟨?_, ?_, 3, 0, ?_⟩ hwait
  · decide +kernel
  · decide +kernel
  · rfl

/-- Refutes O28: its clause on a TLADD whose release is not complete has the thread wait by itself at DL0, as TBARRIVE's does. -/
theorem not_timelineAndCompletionResults : ¬ Obligations.TimelineAndCompletionResults := by
  intro h
  have hmem : Instr.tladd 2 5 ∈ releasingInstrs := by decide
  obtain ⟨-, -, -, -, -, hwait⟩ := h.1 _ _ _ (releaseListedTwice_issuing hmem) 0 2 5
  refine not_does_parkedRelease hmem (scope := 3) (by decide) ⟨?_, ?_⟩ (hwait (by decide))
  · decide +kernel
  · decide +kernel

end Sys2Proof.Machine
end
section
/-! A pre-emption that takes a cluster two grids share (R81, R93). -/

namespace Sys2Proof.Machine

/-- A kernel whose block takes a whole core, and nothing else. -/
def corefulKernel : Kernel := { placedKernel with threads := 2048, bars := 0, tbars := 0, scratch := 0, roles := [⟨0, 2048, 0⟩] }

/-- A grid of that kernel at DL0: its priority, its place in the order, and how many of its one block it has placed. -/
def corefulGrid (prio : BitVec 3) (order placed : Nat) : Grid :=
  { placedGrid order 0 with kernel := corefulKernel, prio := prio, nextBlock := placed }

/-- A block on a core, of a grid and a cluster, that runs or is to be saved. -/
def corefulBlock (grid cl core : Nat) (x : BState) : Block :=
  { placedBlock grid cl 0 0 0 with core := core, state := x, threads := [], quads := [], wasRegs := [] }

/-- A tenant of two cores. Core 0 holds block 1 of grid 11, which is to be saved, and block 2 of grid 12, and both are in cluster 5;
core 1 holds block 3 of grid 11. Grid 10, of a higher priority, waits for a core. -/
def sharedCluster : State :=
  let s := State.reset.updTenant 0 fun x => { x with savesize := 1, diemask := 1, ncore := 2 }
  { s.updCluster 5 (fun _ => ⟨[1, 2], []⟩) with
    pkg := { s.pkg with pen := true, pdelay := 0 }
    grids := [(10, corefulGrid 2 1 0), (11, corefulGrid 0 2 1), (12, corefulGrid 1 3 1)]
    blocks := [(1, corefulBlock 11 5 0 .saving), (2, corefulBlock 12 5 0 .running), (3, corefulBlock 11 6 1 .running)] }


/-- The pre-emption that the dispatcher makes there: grid 10 takes cores of grid 11. -/
theorem sharedCluster_preemption :
    sharedCluster.preemption = some (10, corefulGrid 2 1 0, 11, corefulGrid 0 2 1) := by decide +kernel

/-- The machine once the wait of grid 10 has begun anew. -/
def sharedClusterServed : State := sharedCluster.updGrid 10 fun g => { g with waitingSince := sharedCluster.placeTime }

/-- Core 0 is free once the cluster of block 1 has left it, so that core 1 is not asked for. -/
theorem sharedClusterServed_victimBlocks :
    sharedClusterServed.victimBlocks 10 (corefulGrid 2 1 0) 11 (corefulGrid 0 2 1) = [1, 2] := by decide +kernel

/-- What PRIORITY_PREEMPT leaves there. -/
def sharedClusterAfter : State := (sharedClusterServed.markSaving 1).markSaving 2

theorem sharedCluster_preempts : exec .priorityPreempt sharedCluster = .next sharedClusterAfter := by
  have hmarks : exec .priorityPreempt sharedCluster = .next
      ((sharedClusterServed.victimBlocks 10 (corefulGrid 2 1 0) 11 (corefulGrid 0 2 1)).foldl (fun s b => s.markSaving b)
        sharedClusterServed) := by
    change execPriorityPreempt sharedCluster = _
    rw [execPriorityPreempt, sharedCluster_preemption]
    rfl
  rw [hmarks, sharedClusterServed_victimBlocks]
  rfl

/-- Refutes O44: of a victim at DL0 the model takes the blocks of a core with all of their clusters. Here block 1 of the victim is
to be saved already, and its cluster holds a block of another grid, whose going makes the room: no block of the victim begins to be
saved, where the last clause has one begin. -/
theorem not_dispatchAndPreemption : ¬ Obligations.DispatchAndPreemption := by
  intro h
  obtain ⟨-, -, -, -, hpreempt⟩ := h
  obtain ⟨-, -, -, -, -, -, -, -, -, -, -, hdl0⟩ := hpreempt _ _ _ _ _ sharedCluster_preemption
  obtain ⟨t, hexec, -, b, k, hb, hgrid, hstate, hsaving⟩ := hdl0 (by decide) (by decide)
  rw [sharedCluster_preempts] at hexec
  cases hexec
  have hnone : ∀ e ∈ sharedCluster.blocks, e.2.grid = 11 → e.2.state ≠ .saving →
      sharedClusterAfter.block? e.1 ≠ some { e.2 with state := .saving } := by decide +kernel
  exact hnone _ (Sparse.mem_of_find hb) hgrid hstate hsaving

end Sys2Proof.Machine
end
section
/-! A block that drains, in a machine that lists it twice (R94, R231). -/

namespace Sys2Proof.Machine

/-- Block 3 of the machine of a release, drained and to be saved: its threads have stopped at their quota. -/
def drainedBlock : Block :=
  { releaseBlock (.tbarrive 2 6) with state := .saving, threads := List.replicate 4 { Thread.start with pc := 64, status := .quota } }

/-- The machine of that release between clauses, with a save area of 1 MiB, whose block table lists block 3 again, in a view and with
other timelines. -/
def drainedListedTwice : State :=
  let s := (placedRelease (.tbarrive 2 6)).updTenant 0 fun x => { x with savesize := 1, savebase := 16 }
  { s with issue := none, fabric := Fabric.reset, blocks := [(3, drainedBlock), (3, { drainedBlock with tl := [(0, 1)], specs := [someView] })] }

theorem drainedListedTwice_takeReplies : drainedListedTwice.takeReplies 3 drainedBlock = drainedListedTwice := by rfl

/-- The place that the model finds for the image. -/
theorem drainedListedTwice_imageBase : drainedListedTwice.imageBase drainedBlock.tenant (4 * placedKernel.totalCharge
    + roundUp placedKernel.scratch 256 + 16384 + 65536 * drainedBlock.tiles.length) = some 0x100000 := by decide +kernel

/-- The timelines of block 3 after a step. -/
def timelinesAfter (o : Out) : Option (Sparse Dword) :=
  match o with
  | .next t => (t.block? 3).map fun k => k.tl
  | _ => none

/-- What BLOCK_SAVE saves has the timelines of the second entry: the record of the dirty sector, which can no longer go home, has put
it in the first one's place. -/
theorem drainedListedTwice_timelines : timelinesAfter (exec (.blockSave 3) drainedListedTwice) = some [(0, 1)] := by decide +kernel

/-- Refutes O45: the block table lists block 3 twice, and its BLOCK_SAVE leaves the timelines of the other entry, where the clause on
a drained block that the area holds has its own stay. -/
theorem not_savingAndRestoring : ¬ Obligations.SavingAndRestoring := by
  intro h
  obtain ⟨-, -, hsave⟩ := h.1 drainedListedTwice 3 drainedBlock (placedGrid 1 0) (by decide +kernel) (by decide +kernel)
    (by decide +kernel) (by decide +kernel) (by decide +kernel)
  obtain ⟨hfits, -⟩ := hsave (by decide +kernel) drainedListedTwice_takeReplies
  obtain ⟨t, hexec, -, -, k, i, hk, -, -, -, -, -, htl, -⟩ := hfits 0x100000 (by decide +kernel) drainedListedTwice_imageBase
  have hafter := drainedListedTwice_timelines
  rw [hexec] at hafter
  simp only [timelinesAfter, hk, htl, Option.map_some] at hafter
  revert hafter
  decide +kernel

end Sys2Proof.Machine
end
section
/-! The boundary of a turn in which another grid of the tenant has a store under way (R39, R87). -/

namespace Sys2Proof.Machine

/-- The block of a quiet turn: its four threads have stopped at their quota. -/
def restingBlock : Block := { placedBlock 1 2 4 3 0 with threads := List.replicate 4 { Thread.start with pc := 64, status := .quota } }

/-- The grid of a quiet turn, at DL1. -/
def quietGrid : Grid := { placedGrid 1 0 with dl := 1 }

/-- A machine with that grid alone, in which a store of a block of tenant 0 that is gone has not been acknowledged by device 7. -/
def quietTurn : State :=
  { State.reset with
    grids := [(1, quietGrid)], blocks := [(3, restingBlock)]
    fabric := { Fabric.reset with remotes := [⟨1, 0, 7, none, 0, .store 4 0 0⟩] } }

/-- The turn of a grid after a step. -/
def turnAfter (n : Nat) (o : Out) : Option Nat :=
  match o with
  | .next t => (t.grid? n).map fun g => g.turn
  | _ => none

/-- The boundary waits for the acknowledgement. -/
theorem quietTurn_waits : turnAfter 1 (exec (.turnBoundary 1) quietTurn) = some quietGrid.turn := by decide +kernel

/-- Refutes O46: a boundary waits until the stores of its tenant are acknowledged, those of other grids among them, which nothing in its
third clause excludes; the turn has not advanced then. -/
theorem not_governorTurnsAndPool : ¬ Obligations.GovernorTurnsAndPool := by
  intro h
  obtain ⟨-, -, hboundary, -⟩ := h
  have honly : ∀ b k, quietTurn.block? b = some k → k = restingBlock := fun b k hb => by
    have hall : ∀ e ∈ quietTurn.blocks, e.2 = restingBlock := by decide +kernel
    exact hall _ (Sparse.mem_of_find hb)
  obtain ⟨t, hexec, ⟨g, hg, hturn, -⟩, -⟩ := hboundary quietTurn 1 quietGrid (by decide +kernel) (by decide +kernel) rfl rfl rfl rfl rfl rfl
    (fun _ => rfl) (by decide) (fun b k hb _ => by
      rw [honly b k hb]
      decide +kernel)
  have hafter := quietTurn_waits
  rw [hexec] at hafter
  simp only [turnAfter, hg, Option.map_some, Option.some.injEq] at hafter
  omega

end Sys2Proof.Machine
end
section
/-! SUPPORT. What a record, a request and a write at its home leave alone: every grid, every core but for the signature that it is to
meet, and, where no block is in a view, every block (R73, R74, R172). -/

namespace Sys2Proof.Machine

/-! ## The relation -/

/-- The same core but for its pending signature. -/
def Core.signed (a b : Core) : Prop := { b with pendingSig := a.pendingSig } = a

theorem Core.signed_refl (a : Core) : Core.signed a a := rfl

theorem Core.signed_trans {a b c : Core} (h : Core.signed a b) (h' : Core.signed b c) : Core.signed a c :=
  (congrArg (fun x : Core => { x with pendingSig := a.pendingSig }) h' :).trans h

theorem Core.signed.cache {a b : Core} (h : Core.signed a b) : b.cache = a.cache := (congrArg Core.cache h :)

/-- No block is in a speculative view. -/
def State.unviewed (s : State) : Prop := ∀ e ∈ s.blocks, e.2.specs = []

/-- No grid has changed, no core but in its pending signature, and no block where none was in a view. -/
structure Signs (s u : State) : Prop where
  grids : u.grids = s.grids
  blocks : s.unviewed → u.blocks = s.blocks
  cores : Sparse.wf Core.reset s.cores = true → Sparse.wf Core.reset u.cores = true ∧ ∀ c, Core.signed (s.core c) (u.core c)

theorem signs_of_cores {s u : State} (hg : u.grids = s.grids) (hb : u.blocks = s.blocks) (hc : u.cores = s.cores) : Signs s u where
  grids := hg
  blocks _ := hb
  cores hw := by
    refine ⟨hc ▸ hw, fun c => ?_⟩
    rw [State.core, State.core, hc]
    exact Core.signed_refl _

theorem Signs.refl (s : State) : Signs s s := signs_of_cores rfl rfl rfl

theorem Signs.unviewed {s u : State} (h : Signs s u) (hs : s.unviewed) : u.unviewed := by
  unfold State.unviewed
  rwa [h.blocks hs]

theorem Signs.trans {s t u : State} (h : Signs s t) (h' : Signs t u) : Signs s u where
  grids := h'.grids.trans h.grids
  blocks hs := (h'.blocks (h.unviewed hs)).trans (h.blocks hs)
  cores hw := by
    obtain ⟨hwt, ht⟩ := h.cores hw
    obtain ⟨hwu, hu⟩ := h'.cores hwt
    exact ⟨hwu, fun c => Core.signed_trans (ht c) (hu c)⟩

theorem signs_foldl {α : Type} (l : List α) (f : State → α → State) (h : ∀ s a, Signs s (f s a)) (s : State) :
    Signs s (l.foldl f s) := by
  induction l generalizing s with
  | nil => exact Signs.refl s
  | cons a l ih => exact (h s a).trans (ih _)

theorem WritesOut.signs {s u : State} (h : WritesOut s u) : Signs s u := signs_of_cores h.grids h.blocks h.cores

theorem signs_updTenant (s : State) (t : Nat) (f : Tenant → Tenant) : Signs s (s.updTenant t f) := signs_of_cores rfl rfl rfl

/-! ## Records -/

theorem signs_giveSig (s : State) (sg : BitVec 512) (c : Nat) : Signs s (s.giveSig sg c) where
  grids := rfl
  blocks _ := rfl
  cores hw := by
    refine ⟨State.wf_updCore s c _ hw, fun x => ?_⟩
    unfold State.giveSig
    by_cases hx : x = c
    · rw [hx, State.core_updCore s c _ hw]
      rfl
    · rw [State.core_updCore_ne s c x _ hx]
      exact Core.signed_refl _

theorem signs_signLines (s : State) (t va n : Nat) : Signs s (s.signLines t va n) :=
  (signs_foldl _ _ (fun s c => signs_giveSig s _ c) s).trans (signs_foldl _ _ (fun s d => (writesOut_sendSig s t _ d).signs) _)

/-- A block that holds the interrupt of a record is in a view. -/
theorem irqHolder_unviewed {s : State} (hs : s.unviewed) (r : FaultRec) : s.irqHolder r = none := by
  unfold State.irqHolder
  split
  · rfl
  · refine List.find?_eq_none.mpr fun e he => ?_
    simp [hs e he]

theorem signs_raiseRecord (s : State) (t : Nat) (r : FaultRec) : Signs s (s.raiseRecord t r) := by
  have hframe := raiseVector_frame s t 1
  refine ⟨?_, fun hs => ?_, fun hw => ?_⟩
  · unfold State.raiseRecord
    split
    · rfl
    · exact (congrArg State.grids hframe :)
  · rw [raiseRecord_raised (irqHolder_unviewed hs r)]
    exact (congrArg State.blocks hframe :)
  · exact (signs_of_cores (s := s) (u := { s with cores := (s.raiseRecord t r).cores }) rfl rfl (raiseRecord_cores s t r)).cores hw

theorem signs_recordWritten (s : State) (t : Nat) (r : FaultRec) : Signs s (s.recordWritten t r) :=
  ((signs_signLines s t _ 64).trans (signs_updTenant _ t _)).trans (signs_raiseRecord _ t r)

theorem signs_writeRecord {s u : State} {t : Nat} {r : FaultRec} (h : s.writeRecord t r = .written u ∨ s.writeRecord t r = .sent u) :
    Signs s u := by
  unfold State.writeRecord at h
  dsimp only at h
  split at h
  · simp at h
  · split at h
    · simp at h
    · next hw =>
      simp only [reduceCtorEq, false_or, Posting.sent.injEq] at h
      exact h ▸ (writesOut_writeRoot hw).signs
    · next hw =>
      simp only [reduceCtorEq, or_false, Posting.written.injEq] at h
      exact h ▸ (writesOut_writeRoot hw).signs.trans (signs_recordWritten _ t r)

theorem signs_postRecord (s : State) (t : Nat) (b : Bool) (r : FaultRec) : Signs s (s.postRecord t b r) := by
  have attempt : ∀ u, ((if (s.tenant t).fq.held.isEmpty then s.writeRecord t r else .kept) = .written u
      ∨ (if (s.tenant t).fq.held.isEmpty then s.writeRecord t r else .kept) = .sent u) → Signs s u := by
    intro u hu
    split at hu
    · exact signs_writeRecord hu
    · simp at hu
  unfold State.postRecord
  dsimp only
  split
  · next hw => exact attempt _ (.inl hw)
  · next hw => exact (attempt _ (.inr hw)).trans (signs_updTenant _ t _)
  · split
    · exact signs_updTenant s t _
    · split <;> exact signs_updTenant s t _

theorem signs_postEvent (s : State) (t : Nat) (r : FaultRec) : Signs s (s.postEvent t r) :=
  (signs_updTenant s t _).trans (signs_postRecord _ t false _)

/-! ## Requests and writes at the home -/

theorem signs_request (s : State) (t ty d scope addr : Nat) (opw : Dword) (inl : BitVec 256) (data : List Flit) (what : RemoteFor) :
    Signs s (s.request t ty d scope addr opw inl data what).1 := by
  unfold State.request
  dsimp only
  split
  · next u h =>
    have hsent : Signs s u := (writesOut_newTag s).signs.trans (writesOut_send h).signs
    exact hsent.trans (signs_of_cores rfl rfl rfl)
  · exact (writesOut_newTag s).signs.trans (signs_postEvent _ t _)

theorem signs_storeHome (s : State) (who : Option Site) (t va : Nat) (h : HomeAt) (bs : List Byte) :
    Signs s (s.storeHome who t va h bs) := by
  unfold State.storeHome
  split
  · exact signs_postEvent s t _
  · exact signs_postEvent s t _
  · refine Signs.trans (signs_of_cores ?_ ?_ ?_) (writesOut_writeHome _ h bs).signs <;> split <;> rfl

theorem signs_writeBack (s : State) (x : CacheSector) : Signs s (s.writeBack x) := by
  unfold State.writeBack
  split
  · exact Signs.refl s
  · split
    · have hdrop : ∀ (s : State) va n, Signs s (s.dropProxy x.tenant va n) := fun _ _ _ => signs_of_cores rfl rfl rfl
      exact signs_foldl _ _ (fun s r => (hdrop s _ _).trans (signs_request _ _ _ _ _ _ _ _ _ _)) s
    · exact signs_storeHome s _ _ _ _ _

end Sys2Proof.Machine
end
section
/-! SUPPORT. CCTL (R361): the sectors of a core's cache by name, and the cleaning of a line. -/

namespace Sys2Proof.Machine

/-! ## Sectors by name -/

/-- Whether an entry of a cache is the root view's copy of a sector. -/
def CacheSector.named (t sec : Nat) (x : CacheSector) : Bool := x.tenant == t && x.vtag == 0 && x.sector == sec

theorem CacheSector.named_iff {t sec : Nat} {x : CacheSector} : x.named t sec = true ↔ x.tenant = t ∧ x.vtag = 0 ∧ x.sector = sec := by
  simp [CacheSector.named, and_assoc]

theorem CacheSector.named_ne {t sec sec' : Nat} {x : CacheSector} (h : x.named t sec = true) (hne : sec ≠ sec') : x.named t sec' = false := by
  rw [← Bool.not_eq_true, CacheSector.named_iff]
  rintro ⟨-, -, h'⟩
  exact hne ((CacheSector.named_iff.mp h).2.2.symm.trans h')

theorem Core.sector?_eq (c : Core) (t sec : Nat) : c.sector? t sec = c.cache.find? (CacheSector.named t sec) := rfl

theorem Core.sector?_named {c : Core} {t sec : Nat} {x : CacheSector} (h : c.sector? t sec = some x) : x.named t sec = true :=
  List.find?_some h

theorem Core.sector?_dropSector_self (c : Core) (t sec : Nat) : (c.dropSector t sec).sector? t sec = none := by
  refine List.find?_eq_none.mpr fun x hx => ?_
  have hkept : (!x.named t sec) = true := (List.mem_filter.mp hx).2
  change ¬ x.named t sec = true
  simpa using hkept

theorem Core.sector?_dropSector_ne (c : Core) {t sec sec' : Nat} (h : sec' ≠ sec) : (c.dropSector t sec).sector? t sec' = c.sector? t sec' := by
  rw [Core.sector?_eq, Core.sector?_eq]
  change (c.cache.filter fun x => !x.named t sec).find? _ = _
  rw [List.find?_filter]
  congr 1
  funext x
  by_cases hx : x.named t sec' = true
  · simp [hx, CacheSector.named_ne hx h]
  · simp [hx]

section
variable {c : Core} {t sec : Nat} {x : CacheSector} (hx : x.named t sec = true)
include hx

theorem Core.putSector_named : c.putSector x = { c.dropSector t sec with cache := (c.dropSector t sec).cache ++ [x] } := by
  obtain ⟨ht, -, hsec⟩ := CacheSector.named_iff.mp hx
  rw [← ht, ← hsec]
  rfl

theorem Core.sector?_putSector_self : (c.putSector x).sector? t sec = some x := by
  rw [Core.putSector_named hx, Core.sector?_eq]
  have hdrop : (c.dropSector t sec).cache.find? (CacheSector.named t sec) = none := Core.sector?_dropSector_self c t sec
  simp [List.find?_append, hdrop, hx]

theorem Core.sector?_putSector_ne {sec' : Nat} (h : sec' ≠ sec) : (c.putSector x).sector? t sec' = c.sector? t sec' := by
  rw [Core.putSector_named hx, ← Core.sector?_dropSector_ne c h, Core.sector?_eq, Core.sector?_eq]
  simp [List.find?_append, CacheSector.named_ne hx h.symm]

end

/-! ## One sector cleaned -/

/-- A sector of a core's cache written back, and dropped where `inv` says so. -/
def State.cleanSector (core t : Nat) (inv : Bool) (s : State) (sec : Nat) : State :=
  match (s.core core).sector? t sec with
  | none => s
  | some x => (s.writeBack x).updCore core fun c => if inv then c.dropSector t sec else c.putSector { x with dirty := 0 }

/-- What cleaning leaves of a sector. -/
def cleaned (inv : Bool) (x : Option CacheSector) : Option CacheSector := if inv then none else x.map fun x => { x with dirty := 0 }

/-- What cleaning some sectors of a core's cache leaves: them, clean or gone; every other sector of that core, every other core but
for its pending signature, and every grid and block alone. -/
structure Cleans (core t : Nat) (inv : Bool) (secs : List Nat) (s u : State) : Prop where
  wf : Sparse.wf Core.reset u.cores = true
  unviewed : u.unviewed
  inside : ∀ sec ∈ secs, (u.core core).sector? t sec = cleaned inv ((s.core core).sector? t sec)
  outside : ∀ sec, sec ∉ secs → (u.core core).sector? t sec = (s.core core).sector? t sec
  others : ∀ c, c ≠ core → Core.signed (s.core c) (u.core c)
  blocks : u.blocks = s.blocks
  grids : u.grids = s.grids

theorem sector?_updClean (k : Core) {t sec : Nat} {x : CacheSector} (hx : x.named t sec = true) (inv : Bool) :
    let k' := if inv then k.dropSector t sec else k.putSector { x with dirty := 0 }
    k'.sector? t sec = cleaned inv (some x) ∧ ∀ sec', sec' ≠ sec → k'.sector? t sec' = k.sector? t sec' := by
  have hclean : ({ x with dirty := 0 } : CacheSector).named t sec = true := hx
  cases inv with
  | true => exact ⟨Core.sector?_dropSector_self k t sec, fun sec' h => Core.sector?_dropSector_ne k h⟩
  | false => exact ⟨Core.sector?_putSector_self hclean, fun sec' h => Core.sector?_putSector_ne hclean h⟩

theorem cleans_cleanSector {s : State} (hw : Sparse.wf Core.reset s.cores = true) (hs : s.unviewed) (core t : Nat) (inv : Bool) (sec : Nat) :
    Cleans core t inv [sec] s (s.cleanSector core t inv sec) := by
  unfold State.cleanSector
  split
  · next hnone =>
    refine ⟨hw, hs, fun sec' h => ?_, fun _ _ => rfl, fun _ _ => Core.signed_refl _, rfl, rfl⟩
    rw [List.mem_singleton.mp h, hnone]
    cases inv <;> rfl
  · next x hx =>
    have hback := signs_writeBack s x
    obtain ⟨hwb, hcores⟩ := hback.cores hw
    obtain ⟨hself, hne⟩ := sector?_updClean ((s.writeBack x).core core) (Core.sector?_named hx) inv
    have hsame : ∀ sec', ((s.writeBack x).core core).sector? t sec' = (s.core core).sector? t sec' := fun sec' => by
      rw [Core.sector?_eq, Core.sector?_eq, (hcores core).cache]
    refine ⟨State.wf_updCore _ _ _ hwb, hback.unviewed hs, fun sec' h => ?_, fun sec' h => ?_, fun c hc => ?_, hback.blocks hs, hback.grids⟩
    · rw [State.core_updCore _ _ _ hwb, List.mem_singleton.mp h, hself, hx]
    · rw [State.core_updCore _ _ _ hwb, hne sec' fun he => h (List.mem_singleton.mpr he), hsame]
    · rw [State.core_updCore_ne _ _ _ _ hc]
      exact hcores c

theorem cleans_foldl (core t : Nat) (inv : Bool) (secs : List Nat) (hn : secs.Nodup) {s : State} (hw : Sparse.wf Core.reset s.cores = true)
    (hs : s.unviewed) : Cleans core t inv secs s (secs.foldl (State.cleanSector core t inv) s) := by
  induction secs generalizing s with
  | nil =>
    exact ⟨hw, hs, fun _ h => absurd h List.not_mem_nil, fun _ _ => rfl, fun _ _ => Core.signed_refl _, rfl, rfl⟩
  | cons sec secs ih =>
    obtain ⟨hnot, hn⟩ := List.nodup_cons.mp hn
    have hone := cleans_cleanSector hw hs core t inv sec
    have hrest := ih hn hone.wf hone.unviewed
    refine ⟨hrest.wf, hrest.unviewed, fun sec' h => ?_, fun sec' h => ?_, fun c hc => Core.signed_trans (hone.others c hc) (hrest.others c hc),
      hrest.blocks.trans hone.blocks, hrest.grids.trans hone.grids⟩
    · rcases List.mem_cons.mp h with rfl | hmem
      · exact (hrest.outside _ hnot).trans (hone.inside _ (List.mem_singleton.mpr rfl))
      · have hne : sec' ∉ [sec] := fun he => hnot (List.mem_singleton.mp he ▸ hmem)
        exact (hrest.inside _ hmem).trans (congrArg _ (hone.outside _ hne))
    · obtain ⟨hne, hmem⟩ := not_or.mp (List.mem_cons.not.mp h)
      exact (hrest.outside _ hmem).trans (hone.outside _ fun he => hne (List.mem_singleton.mp he))

/-! ## A line cleaned -/

/-- The four sectors of the line of an address. -/
def lineSectors (va : Nat) : List Nat := (List.range 4).map fun j => va / 256 * 4 + j

theorem mem_lineSectors {va sec : Nat} : sec ∈ lineSectors va ↔ sec / 4 = va / 256 := by
  simp only [lineSectors, List.mem_map, List.mem_range]
  constructor
  · rintro ⟨j, hj, rfl⟩
    omega
  · exact fun h => ⟨sec % 4, by omega, by omega⟩

theorem nodup_lineSectors (va : Nat) : (lineSectors va).Nodup :=
  List.Nodup.map (fun _ _ h => Nat.add_left_cancel h) List.nodup_range

theorem cleanLine_eq (s : State) (core t va : Nat) (inv : Bool) :
    s.cleanLine core t va inv = (lineSectors va).foldl (State.cleanSector core t inv) s := by
  rw [lineSectors, List.foldl_map]
  rfl

theorem cleans_cleanLine {s : State} (hw : Sparse.wf Core.reset s.cores = true) (hs : s.unviewed) (core t va : Nat) (inv : Bool) :
    Cleans core t inv (lineSectors va) s (s.cleanLine core t va inv) :=
  cleanLine_eq s core t va inv ▸ cleans_foldl core t inv (lineSectors va) (nodup_lineSectors va) hw hs

/-- A lane of CCTL.WB or .WBI cleans the line where its address is mapped, in the root view. -/
theorem cctlLane_line {a : Reg} {off : BitVec 8} {op : CctlOp} {s : State} {i : Issue} {l : Lane} {k : Block} (hop : op ≠ .iinv)
    (hk : s.block? i.block = some k) : cctlLane a off op s i l =
      (let va := ea ((s.thread i.block l.tid).pair a.toNat).toNat (256 * sext off.toNat 8)
      match s.xlate k.core k.tenant va .rd with
      | .ok _ => .done (if k.vtag ≠ 0 then s else s.cleanLine k.core k.tenant va (op == .wbi))
      | .error _ => .done s) := by
  cases op with
  | iinv => exact absurd rfl hop
  | wb | wbi =>
    simp only [cctlLane, hk, addrOf, State.laneThread, bne_iff_ne]
    split <;> next hx => simp only [hx]

/-- What a lane of CCTL keeps while it cleans a line. -/
theorem keeps_cleanLine (s : State) (core t va : Nat) (inv : Bool) : Keeps s (s.cleanLine core t va inv) := by
  rw [cleanLine_eq]
  refine keeps_foldl _ _ (fun s sec => ?_) s
  unfold State.cleanSector
  split
  · exact Keeps.refl s
  · exact (keeps_writeBack s _).trans (keeps_updCore _ core _ fun k => by cases inv <;> rfl)

end Sys2Proof.Machine
end
section
/-! SUPPORT. Special registers (R357, R358): what reading each gives, and what writing each does in a lane. -/

namespace Sys2Proof.Machine

/-! ## Reading -/

section
variable {s : State} {b tid : Nat} {k : Block} {g : Grid} (hb : s.block? b = some k) (hg : s.gridOf b = some g)

/-- %clock is what CLOCK gives, of a block there is and of one there is not. -/
theorem readSpecial_clock (s : State) (b tid : Nat) : s.readSpecial b tid 0x018 = s.clockOf b tid := by
  unfold State.readSpecial
  split
  · rfl
  · next h =>
    unfold State.clockOf
    split
    · next k g hk hg => exact absurd hg (h k g hk)
    · rfl

include hb hg

/-- A special register by its number. -/
theorem readSpecial_number {n : Nat} (hn : n < 2 ^ 16) : s.readSpecial b tid (BitVec.ofNat 16 n) =
    (let th := k.thread tid
    if n = 0x000 then BitVec.ofNat 64 tid
    else if n = 0x001 then BitVec.ofNat 64 (tid / 4)
    else if n = 0x002 then k.bid.setWidth 64
    else if n = 0x003 then BitVec.ofNat 64 k.member
    else if n = 0x004 then k.child.setWidth 64
    else if n = 0x005 then BitVec.ofNat 64 (s.depthOf k)
    else if n = 0x006 then g.dl.setWidth 64
    else if n = 0x008 then k.obase
    else if n = 0x010 then th.fpcr.setWidth 64
    else if n = 0x011 then th.fpsr.setWidth 64
    else if n = 0x018 then s.clockOf b tid
    else if n = 0x019 then th.retired
    else if n = 0x020 then k.bto.setWidth 64
    else if n = 0x021 then k.sto.setWidth 64
    else if 0x030 ≤ n ∧ n ≤ 0x03F then (Sparse.get 0 k.xval (n - 0x030)).setWidth 64
    else if 0x040 ≤ n ∧ n ≤ 0x047 then th.trecAt (n - 0x040)
    else if 0x080 ≤ n ∧ n ≤ 0x0A0 then (if g.dl == 0 then g.dcause else g.published).dword (n - 0x080)
    else 0) := by
  have hnat : (BitVec.ofNat 16 n).toNat = n := by rw [BitVec.toNat_ofNat, Nat.mod_eq_of_lt hn]
  simp only [State.readSpecial, hb, hg, hnat]

theorem readSpecial_xval {n : Nat} (hn : n < 16) :
    s.readSpecial b tid (BitVec.ofNat 16 (0x030 + n)) = (Sparse.get 0 k.xval n).setWidth 64 := by
  rw [readSpecial_number hb hg (by omega)]
  interval_cases n <;> rfl

theorem readSpecial_trec {n : Nat} (hn : n < 8) : s.readSpecial b tid (BitVec.ofNat 16 (0x040 + n)) = Sparse.get 0 (k.thread tid).trec n := by
  rw [readSpecial_number hb hg (by omega)]
  interval_cases n <;> rfl

theorem readSpecial_dcause {n : Nat} (hn : n < 33) :
    s.readSpecial b tid (BitVec.ofNat 16 (0x080 + n)) = (if g.dl = 0 then g.dcause else g.published).dword n := by
  rw [readSpecial_number hb hg (by omega)]
  interval_cases n <;> simp

theorem clockOf_eq : s.clockOf b tid
    = if g.dl = 0 then BitVec.ofNat 64 (s.cycle - k.started - k.gatedCycles) else (k.thread tid).retired := by
  simp [State.clockOf, hb, hg]

end

/-! ## The dwords of %dcause (R92) -/

theorem DCause.dword_ovfl (x : DCause) : x.dword 32 = x.ovfl.setWidth 64 := rfl

theorem append_byte_count (code : Byte) (count : Word) :
    (count ++ 0#24 ++ code : Dword) = BitVec.ofNat 64 (code.toNat + count.toNat * 2 ^ 32) := by
  have hcode := code.isLt
  have hcount := count.isLt
  refine BitVec.eq_of_toNat_eq ?_
  rw [BitVec.toNat_append, BitVec.toNat_append, BitVec.toNat_ofNat, ← Nat.shiftLeft_add_eq_or_of_lt hcode,
    ← Nat.shiftLeft_add_eq_or_of_lt (by simp), Nat.shiftLeft_eq, Nat.shiftLeft_eq, BitVec.toNat_ofNat]
  omega

theorem DCause.dword_entry (x : DCause) {n : Nat} (hn : n < 16) :
    x.dword (2 * n + 1) = (x.entries[n]?.map (·.pc)).getD 0
    ∧ x.dword (2 * n) = (x.entries[n]?.map fun e => BitVec.ofNat 64 (e.code.toNat + e.count.toNat * 2 ^ 32)).getD 0 := by
  have hodd : (2 * n + 1) / 2 = n ∧ (2 * n + 1) % 2 = 1 := by omega
  have heven : 2 * n / 2 = n ∧ 2 * n % 2 = 0 := by omega
  unfold DCause.dword
  rw [if_neg (by omega), if_neg (by omega), hodd.1, hodd.2, heven.1, heven.2]
  cases x.entries[n]? with
  | none => exact ⟨rfl, rfl⟩
  | some e => exact ⟨rfl, append_byte_count e.code e.count⟩

/-! ## Writing, in one lane -/

/-- The bits of a number below 32 in its word. -/
theorem bitsAt_word (v lo n : Nat) (h : lo + n ≤ 32) : bitsAt (BitVec.ofNat 32 v).toNat lo n = bitsAt v lo n := by
  refine Nat.eq_of_testBit_eq fun j => ?_
  simp only [bitsAt, BitVec.toNat_ofNat, Nat.testBit_mod_two_pow, Nat.testBit_div_two_pow]
  by_cases hj : j < n
  · have : j + lo < 32 := by omega
    simp [hj, this]
  · simp [hj]

theorem bitAt_iff (v i : Nat) : bitAt v i = true ↔ bitsAt v i 1 = 1 := by
  rw [bitAt, bitsAt, Nat.testBit_eq_decide_div_mod_eq, decide_eq_true_iff, pow_one]

/-- A legal value of %fpcr (R193). -/
theorem fpcrBad_eq_false {v : Nat} (hrm : bitsAt v 0 3 < 5) (hqrm : bitsAt v 11 3 < 5) (h3 : bitsAt v 3 1 = 0) (hhigh : bitsAt v 14 18 = 0) :
    fpcrBad (BitVec.ofNat 32 v) = false := by
  have hbit : bitAt v 3 = false := by
    rw [← Bool.not_eq_true, bitAt_iff, h3]
    exact Nat.zero_ne_one
  unfold fpcrBad
  rw [bitsAt_word v 0 3 (by decide), bitsAt_word v 11 3 (by decide), bitsAt_word v 14 18 (by decide), onBit_ofNat v (by decide), hbit, hhigh]
  simp [hrm, hqrm]

section
variable (w : Width) (d : Reg) (s : State) (i : Issue) (l : Lane)

theorem swrLane_fpcr {v : Nat} (hv : (s.thread i.block l.tid).groupNat d.toNat (2 ^ w.toNat) = v) (hbad : fpcrBad (BitVec.ofNat 32 v) = false)
    (hq : bitsAt v 10 1 = 1 → ∃ n, s.kernelOf i.block = some n ∧ onBit n.features 3 = true) :
    swrLane w d 0x010 s i l = .done (s.updThread i.block l.tid fun th => { th with fpcr := BitVec.ofNat 32 v }) := by
  have hword : (BitVec.ofNat 64 v).setWidth 32 = BitVec.ofNat 32 v := BitVec.setWidth_ofNat_of_le (by decide) v
  have hbit : onBit (BitVec.ofNat 32 v) 10 = bitAt v 10 := onBit_ofNat v (by decide)
  have hfpcr : (0x010 : Half).toNat = 0x010 := rfl
  simp only [swrLane, State.laneThread, hv, hword, hfpcr, hbit, hbad, if_true]
  cases hb : bitAt v 10 with
  | false => rfl
  | true =>
    obtain ⟨n, hn, hf⟩ := hq ((bitAt_iff v 10).mp hb)
    rw [if_neg (by simp [hn, hf])]
    rfl

theorem swrLane_xval {n : Nat} (hn : n < 16) : swrLane w d (BitVec.ofNat 16 (0x030 + n)) s i l = .done (s.updBlock i.block fun b =>
    { b with xval := Sparse.set 0 b.xval n (BitVec.ofNat 16 ((s.thread i.block l.tid).groupNat d.toNat (2 ^ w.toNat))) }) := by
  have hhalf : ∀ v, (BitVec.ofNat 64 v).setWidth 16 = BitVec.ofNat 16 v := fun v => BitVec.setWidth_ofNat_of_le (by decide) v
  simp only [← hhalf]
  interval_cases n <;> rfl

theorem swrLane_trec {n : Nat} (hn : n < 8) : swrLane w d (BitVec.ofNat 16 (0x040 + n)) s i l = .done (s.updThread i.block l.tid fun th =>
    { th with trec := Sparse.set 0 th.trec n (BitVec.ofNat 64 ((s.thread i.block l.tid).groupNat d.toNat (2 ^ w.toNat)) &&&
      (if n = 1 then 0x0000000F0F07FFFF else if n = 3 then 0x000007FFFFFFFFFF else BitVec.allOnes 64)) }) := by
  interval_cases n <;> rfl

end

end Sys2Proof.Machine
end
section
/-! SRD, CLOCK, SWR and CCTL (R357, R358, R361, R362). -/

namespace Sys2Proof.Machine

/-- Settles O34: every special register by its number, every write by its lane, and CCTL sector by sector; what cleaning a line leaves
alone is what records, requests and writes at the home do. -/
theorem specialRegisterResults : Obligations.SpecialRegisterResults := by
  refine ⟨⟨?reads, ?values⟩, ?writes, ?cleans⟩
  case reads =>
    exact fun s i k h w d r => ⟨does_of_done h rfl (by simp [instrCeiling]) fun t l _ => ⟨rfl, keeps_updThread t _ _ _⟩,
      does_of_done h rfl (by simp [instrCeiling]) fun t l _ => ⟨by rw [readSpecial_clock], keeps_updThread t _ _ _⟩⟩
  case values =>
    intro s b tid k g hb hg th rd
    have number : ∀ {n : Nat}, n < 2 ^ 16 → _ := fun hn => readSpecial_number (tid := tid) hb hg hn
    exact ⟨number (n := 0x000) (by decide), number (n := 0x001) (by decide), number (n := 0x002) (by decide), number (n := 0x003) (by decide),
      number (n := 0x004) (by decide), number (n := 0x005) (by decide), number (n := 0x008) (by decide), number (n := 0x006) (by decide),
      number (n := 0x010) (by decide), number (n := 0x011) (by decide), (readSpecial_clock s b tid).trans (clockOf_eq hb hg),
      number (n := 0x019) (by decide), number (n := 0x020) (by decide), number (n := 0x021) (by decide),
      fun n hn => readSpecial_xval hb hg hn, fun n hn => readSpecial_trec hb hg hn, fun n hn => readSpecial_dcause hb hg hn,
      fun x n => ⟨x.dword_ovfl, fun hn => x.dword_entry hn⟩⟩
  case writes =>
    intro s i k h w d a off v word swr line
    have lanes : ∀ {r : Half} {P f}, (∀ t l, P t l → swrLane w d r t i l = .done (f t l) ∧ Keeps t (f t l)) → swr r P f :=
      fun hF => does_of_done h rfl (by simp [instrCeiling]) hF
    have hword : ∀ v, (BitVec.ofNat 64 v).setWidth 32 = BitVec.ofNat 32 v := fun v => BitVec.setWidth_ofNat_of_le (by decide) v
    refine ⟨lanes fun t l hP => ?_, lanes fun t l _ => ⟨?_, keeps_updThread t _ _ _⟩, lanes fun t l _ => ⟨?_, keeps_updBlock t _ _⟩,
      lanes fun t l _ => ⟨?_, keeps_updBlock t _ _⟩, fun n hn => lanes fun t l _ => ⟨swrLane_xval w d t i l hn, keeps_updBlock t _ _⟩,
      fun n hn => lanes fun t l _ => ⟨swrLane_trec w d t i l hn, keeps_updThread t _ _ _⟩, ?fetched, ?lines⟩
    · obtain ⟨hrm, hqrm, h3, hhigh, hq⟩ := hP
      exact ⟨swrLane_fpcr w d t i l rfl (fpcrBad_eq_false hrm hqrm h3 hhigh) hq, keeps_updThread t _ _ _⟩
    · simp only [word, v, ← hword]
      rfl
    · simp only [word, v, ← hword]
      rfl
    · simp only [word, v, ← hword]
      rfl
    case fetched =>
      refine does_of_done h (F := cctlLane a off .iinv) rfl (by simp [instrCeiling]) fun t l hP => ⟨?_, keeps_updCore t _ _ fun _ => rfl⟩
      obtain ⟨k', hk', hcore⟩ := hP
      simp only [cctlLane, hk', hcore]
    case lines =>
      intro op hop
      have hop' : op ≠ .iinv := by
        rintro rfl
        simp at hop
      refine does_of_done h (F := cctlLane a off op) rfl (by simp [instrCeiling]) fun t l hP => ?_
      obtain ⟨k', hk', hcore, htenant, hview⟩ := hP
      rw [cctlLane_line hop' hk', hcore, htenant, hview]
      dsimp only [line]
      generalize t.xlate k.core k.tenant _ .rd = r
      cases r with
      | ok x => exact ⟨rfl, keeps_ite (Keeps.refl t) (keeps_cleanLine t _ _ _ _)⟩
      | error e => exact ⟨rfl, Keeps.refl t⟩
  case cleans =>
    intro s core t va inv hw hs s'
    have hline := cleans_cleanLine hw hs core t va inv
    refine ⟨fun j hj => ?_, fun sec hsec => hline.outside sec fun h => hsec (mem_lineSectors.mp h), hline.others, hline.blocks, hline.grids⟩
    exact hline.inside _ (mem_lineSectors.mpr (by omega))

end Sys2Proof.Machine
end
section
/-! SUPPORT. Traps (R124, R221 to R225): what one leaves of the clause and of the grids, and the grids at the end of an instruction. -/

namespace Sys2Proof.Machine

/-! ## A thread after an update of it -/

theorem gridOf_updThread (s : State) (b tid : Nat) (f : Thread → Thread) : (s.updThread b tid f).gridOf b = s.gridOf b := by
  cases hk : s.block? b with
  | none => simp [State.updThread, State.updBlock, hk]
  | some k =>
    have hk' : (s.updThread b tid f).block? b = some (k.updThread tid f) := State.block?_updBlock s b _ k hk
    simp [State.gridOf, hk, hk', State.grid?, Block.updThread, Block.setThread]

theorem thread_updThread_self {s : State} {b tid : Nat} (f : Thread → Thread) (h : s.thread b tid ≠ Thread.idle) :
    (s.updThread b tid f).thread b tid = f (s.thread b tid) := by
  cases hk : s.block? b with
  | none => exact absurd (by simp [State.thread, hk]) h
  | some k =>
    have hk' : (s.updThread b tid f).block? b = some (k.updThread tid f) := State.block?_updBlock s b _ k hk
    have hT : tid < k.T := by
      refine Nat.lt_of_not_le fun hT => h ?_
      rw [State.thread, hk]
      exact List.getD_eq_default _ _ hT
    simp [State.thread, hk, hk', Block.thread_updThread, hT]

/-- An update that leaves HM alone, of a thread that there is or is not. -/
theorem hm_updThread (s : State) (b tid : Nat) (f : Thread → Thread) (hf : ∀ th, (f th).hm = th.hm) :
    ((s.updThread b tid f).thread b tid).hm = (s.thread b tid).hm := by
  by_cases h : s.thread b tid = Thread.idle
  · cases hk : s.block? b with
    | none => simp [State.updThread, State.updBlock, hk]
    | some k =>
      have hk' : (s.updThread b tid f).block? b = some (k.updThread tid f) := State.block?_updBlock s b _ k hk
      rw [State.thread, State.thread, hk, hk']
      dsimp only
      rw [Block.thread_updThread]
      split
      · exact hf _
      · rfl
  · rw [thread_updThread_self f h, hf]

/-! ## What a trap leaves of the clause -/

theorem keeps_suspend (s : State) (b tid : Nat) (r : FaultRec) (byPage : Bool) : Keeps s (s.suspend b tid r byPage) := by
  unfold State.suspend
  split
  · exact Keeps.refl s
  · dsimp only
    split
    · exact (keeps_updTenant s _ _).trans (keeps_updThread _ _ _ _)
    · exact (((keeps_takeSeq s _).trans (keeps_updTenant _ _ _)).trans (keeps_updThread _ _ _ _)).trans (keeps_postRecord _ _ _ _)

/-- A trap that fails no task leaves the clause under way and the bundles alone. -/
theorem keeps_takeTrap {s : State} {b tid : Nat} {t : Trap} (h : ∀ g, s.gridOf b = some g →
    g.task = none ∨ t.toHandler = true ∧ g.kernel.handler ≠ 0 ∧ (s.thread b tid).hm = false) (hdr : Dword) (pos : Nat) (rhdr : Dword) (rpos : Nat) :
    Keeps s (s.takeTrap b tid hdr pos rhdr rpos t) := by
  unfold State.takeTrap
  split
  · next k g hk hg =>
    dsimp only
    split
    · exact keeps_updThread s b tid _
    · next hno =>
      have htask : g.task = none := by
        refine (h g hg).resolve_right fun hhandler => hno ?_
        obtain ⟨hto, hne, hhm⟩ := hhandler
        simp only [State.thread, hk] at hhm
        rw [hto, bne_iff_ne.mpr hne, hhm]
        rfl
      rw [if_neg (by simp [htask])]
      exact (keeps_updThread s b tid _).trans (keeps_suspend _ b tid _ _)
  · exact Keeps.refl s

theorem leaves_dropLane {i : Issue} {l : Lane} {s t : State} (h : Keeps s t) (hg : Good i s) : Leaves i l s (t.dropLane l.tid) :=
  ⟨good_of_cores (h.good hg) rfl, .inr (.inr (by simp only [State.dropLane, h.issue]))⟩

theorem keeps_settleFlag (s : State) (b tid f : Nat) : Keeps s (s.settleFlag b tid f) :=
  keeps_ite (Keeps.refl s) (keeps_updThread s b tid _)

theorem keeps_releaseOwed (s : State) (b tid : Nat) : Keeps s (s.releaseOwed b tid) :=
  keeps_ite (Keeps.refl s) ((keeps_updThread s b tid _).trans (keeps_foldl _ _ (fun s f => keeps_settleFlag s b tid f) _))

/-! ## What a trap that fails a task leaves of the grids -/

/-- The grid of a task that has failed. -/
def Grid.failed (g : Grid) (x : TaskInfo) : Grid := { g with task := some { x with failed := true } }

theorem failTask_grids {s : State} {n : Nat} {g : Grid} {x : TaskInfo} (hg : s.grid? n = some g) (hx : g.task = some x) (code : Byte)
    (reason : BitVec 2) : (s.failTask n code reason).grid? n = some (g.failed x) := by
  have hfail : s.failTask n code reason = ((s.setGrid n (g.failed x)).stopGrid n).breakHandle chainFuel x.handle code 0 reason := by
    simp only [State.failTask, hg, hx]
    rfl
  rw [hfail, State.grid?, (halts_breakHandle _ _ _ _ _ _).grids, (stopGrid_exits _ n).1.grids]
  exact State.grid?_setGrid s n _

/-- A trap with no handler to go to, of a task's thread. -/
theorem takeTrap_fails {s : State} {b tid : Nat} {k : Block} {g : Grid} {x : TaskInfo} {t : Trap} (hk : s.block? b = some k)
    (hg : s.grid? k.grid = some g) (hx : g.task = some x) (hno : g.kernel.handler = 0 ∨ (s.thread b tid).hm = true) (hxl : t.xl = false)
    (hdr : Dword) (pos : Nat) (rhdr : Dword) (rpos : Nat) : (s.takeTrap b tid hdr pos rhdr rpos t).grid? k.grid = some (g.failed x) := by
  have hgrid : s.gridOf b = some g := by rw [gridOf_some hk, hg]
  have hnot : (t.toHandler && g.kernel.handler != 0 && !(k.thread tid).hm) = false := by
    rw [State.thread, hk] at hno
    rcases hno with h | h <;> simp [h]
  simp only [State.takeTrap, hk, hgrid, hnot, hx, hxl, Option.isSome_some, Bool.not_false, Bool.and_self, if_true, Bool.false_eq_true, if_false]
  rw [State.grid?, (signs_postEvent _ _ _).grids]
  exact failTask_grids (by rw [State.grid?, State.updThread_grids]; exact hg) hx _ _

/-! ## The grids at the end of an instruction -/

theorem foldl_grids {α : Type} (l : List α) (f : State → α → State) (h : ∀ s a, (f s a).grids = s.grids) (s : State) :
    (l.foldl f s).grids = s.grids := by
  induction l generalizing s with
  | nil => rfl
  | cons a l ih => exact (ih _).trans (h s a)

theorem reformBundle_grids (s : State) (c id : Nat) : (s.reformBundle c id).grids = s.grids := by
  unfold State.reformBundle
  split
  · rfl
  · exact (foldl_grids _ _ (fun s q => (wakes_fileQuad s _ q).grids) _).trans (State.updBlock_grids _ _ _)

theorem releaseOwed_grids (s : State) (b tid : Nat) : (s.releaseOwed b tid).grids = s.grids := by
  unfold State.releaseOwed
  dsimp only
  split
  · rfl
  · refine (foldl_grids _ _ (fun s f => ?_) _).trans (State.updThread_grids s b tid _)
    unfold State.settleFlag
    split
    · rfl
    · exact State.updThread_grids s b tid _

theorem endLane_grids (i : Issue) (s : State) (l : Lane) : (State.endLane i s l).grids = s.grids := by
  unfold State.endLane
  dsimp only
  split
  · exact State.updThread_grids s _ _ _
  · exact (releaseOwed_grids _ _ _).trans (State.updThread_grids s _ _ _)

theorem finishClause_grids (s : State) : s.finishClause.grids = s.grids := by
  unfold State.finishClause
  split
  · rfl
  · next i _ =>
    have hlanes := foldl_grids i.lanes _ (endLane_grids i) s
    have hquota := (wakes_stopAtQuota { i.lanes.foldl (State.endLane i) s with issue := none } i.block).grids
    dsimp only
    split
    · exact (reformBundle_grids _ _ _).trans (hquota.trans hlanes)
    · exact (wakes_settleBundle _ _ _ _).grids.trans (hquota.trans hlanes)

theorem afterInstr_grids (s : State) (n : Nat) : (s.afterInstr n).grids = s.grids := by
  unfold State.afterInstr
  split
  · rfl
  · next i _ =>
    have hlanes : ∀ f : Thread → Thread, (i.lanes.foldl (fun s l => if l.start ≤ i.pos then s.updThread i.block l.tid f else s) s).grids = s.grids :=
      fun f => foldl_grids _ _ (fun s l => by split; exacts [State.updThread_grids s _ _ _, rfl]) s
    dsimp only
    split
    · exact (finishClause_grids _).trans (hlanes _)
    · exact hlanes _

/-- The loop over the only lane of a clause. -/
theorem laneLoop_only {s : State} {i : Issue} {l : Lane} {F : State → Issue → Lane → LaneOut} (hi : s.issue = some i) (hl : i.lanes = [l])
    (hs : l.start ≤ i.pos) (rpos : Nat) : s.laneLoop i rpos false F i.lanes = (s.settleLane i l rpos (F s i l)).1 := by
  simp [State.laneLoop, hi, hl, hs]

end Sys2Proof.Machine
end

section
/-! TRAP, BKPT and ERET (R359, R360, R224, R235). -/

namespace Sys2Proof.Machine

/-! ## TRAP and BKPT -/

/-- The trap of TRAP or BKPT. -/
def explicitTrap (code : Nat) (imm : Half) : Trap := { Trap.of code (imm.toNat % 256) with aux0 := imm.toNat }

/-- The thread of a lane at a TRAP or BKPT, which counts as retired. -/
def State.retireAt (i : Issue) (s : State) (l : Lane) : State :=
  s.updThread i.block l.tid fun th => { th with retired := th.retired + 1, turnRetired := th.turnRetired + 1 }

theorem hm_retireAt (i : Issue) (s : State) (l : Lane) : ((s.retireAt i l).thread i.block l.tid).hm = (s.thread i.block l.tid).hm :=
  hm_updThread s i.block l.tid _ fun _ => rfl

/-- What TRAP or BKPT does in a lane. -/
def State.raiseAt (i : Issue) (code : Nat) (imm : Half) (s : State) (l : Lane) : State :=
  let past := i.header.n.toNat < i.pos + 1
  ((s.retireAt i l).takeTrap i.block l.tid i.pc i.pos (if past then i.next else i.pc) (if past then 0 else i.pos + 1)
    (explicitTrap code imm)).dropLane l.tid

theorem settleLane_raises {code : Nat} (hcode : code = cTRAP ∨ code = cBKPT) (s : State) (i : Issue) (l : Lane) (imm : Half) :
    s.settleLane i l (i.pos + 1) (.trap (explicitTrap code imm)) = (s.raiseAt i code imm l, true) := by
  have hpast : (explicitTrap code imm).code == cTRAP || (explicitTrap code imm).code == cBKPT := by
    rcases hcode with rfl | rfl <;> rfl
  have hnext : i.pos + 1 ≠ i.pos := by omega
  simp only [State.settleLane, hpast, if_true, if_neg hnext]
  rfl

section
variable {s : State} {i : Issue} {k : Block} {ins : Instr} {code : Nat} {imm : Half} (h : Issuing s i k)
  (hexec : ∀ s, exec ins s = .next (s.runLanes ins fun _ _ _ => .trap (explicitTrap code imm)))
  (hwords : wordsOf ins = 1) (hceil : instrCeiling ins ≠ 0) (hordered : instrOrders ins = false) (hcode : code = cTRAP ∨ code = cBKPT)
include h hexec hwords hceil hordered hcode

theorem does_raises : Does s i ins (fun s l => ∃ g, s.gridOf i.block = some g
    ∧ (g.task = none ∨ g.kernel.handler ≠ 0 ∧ (s.thread i.block l.tid).hm = false)) (State.raiseAt i code imm) := by
  refine does_of_runLanes h (hexec s) fun t l _ _ hp hgate hgood hP => ?_
  rw [gated_done hceil hgate hp, hwords, settleLane_raises hcode, hordered]
  refine ⟨rfl, rfl, leaves_dropLane ((keeps_updThread t _ _ _).trans (keeps_takeTrap (s := t.retireAt i l) (fun g hg => ?_) _ _ _ _)) hgood⟩
  obtain ⟨g', hg', hgoes⟩ := hP
  rw [State.retireAt, gridOf_updThread, hg'] at hg
  rw [hm_retireAt, ← Option.some.inj hg]
  exact hgoes.imp id fun hhandler => ⟨by rcases hcode with rfl | rfl <;> rfl, hhandler⟩

/-- TRAP or BKPT of a task's only lane with no handler to go to. -/
theorem raises_fails {g : Grid} {l : Lane} (hg : s.grid? k.grid = some g) (htask : g.task.isSome = true)
    (hno : g.kernel.handler = 0 ∨ (s.thread i.block l.tid).hm = true) (hl : i.lanes = [l]) (hs : l.start ≤ i.pos) (hp : l.pred = true)
    (hgate : s.gate i l ins = none) :
    Reaches s ins fun t => ∃ g', t.grid? k.grid = some g' ∧ g'.task.map (·.failed) = some true := by
  obtain ⟨x, hx⟩ := Option.isSome_iff_exists.mp htask
  refine ⟨_, hexec s, g.failed x, ?_, rfl⟩
  have hblock : (s.retireAt i l).block? i.block = some (k.updThread l.tid _) := State.block?_updBlock s i.block _ k h.block
  have hgrid : (s.retireAt i l).grid? k.grid = some g := by rw [State.grid?, State.retireAt, State.updThread_grids]; exact hg
  have hfails := takeTrap_fails (t := explicitTrap code imm) hblock hgrid hx
    (hno.imp id (hm_retireAt i s l).trans) rfl
  rw [runLanes_eq s i ins _ h.clause, State.grid?, afterInstr_grids, hordered, laneLoop_only h.clause hl hs, gated_done hceil hgate hp, hwords,
    settleLane_raises hcode]
  exact hfails _ _ _ _

end

/-! ## ERET -/

/-- The place that the record of a handler names lies within a legal clause. -/
theorem eretOk_of {s t : State} {b : Nat} {th : Thread} {got : Fetched} {w : Word} :
    let pos := bitsAt (th.trecAt 1).toNat 32 4
    let hdr := th.trecAt 0 - BitVec.ofNat 64 (4 * pos)
    hdr.toNat % 4 = 0 → s.fetchWord b hdr.toNat [] = .ok (t, got, w) → (Header.ofWord w).fault = none → pos ≤ (Header.ofWord w).n.toNat →
      s.eretOk b th = true := by
  intro pos hdr halign hword hfault hwithin
  simp only [State.eretOk, Bool.and_eq_true, beq_iff_eq]
  refine ⟨halign, ?_⟩
  simp only [pos, hdr] at hword hwithin
  simp only [hword, hfault, Option.isNone_none, Bool.true_and]
  exact decide_eq_true hwithin

/-- What ERET does in a lane. -/
def State.eretAt (i : Issue) (s : State) (l : Lane) : State :=
  let pos := fun (th : Thread) => bitsAt (th.trecAt 1).toNat 32 4
  let t := s.updThread i.block l.tid fun th =>
    { th with hm := false, pc := th.trecAt 0 - BitVec.ofNat 64 (4 * pos th), clpos := pos th, keep := false
              retired := th.retired + 1, turnRetired := th.turnRetired + 1 }
  (if pos (s.thread i.block l.tid) = 0 then t.releaseOwed i.block l.tid else t).dropLane l.tid

/-- What ERET does to a lane in a handler whose record names a place within a legal clause. -/
theorem eretLane_out {s : State} {i : Issue} {l : Lane} (hhm : (s.thread i.block l.tid).hm = true)
    (hok : s.eretOk i.block (s.thread i.block l.tid) = true) (rpos : Nat) :
    s.settleLane i l rpos (eretLane s i l) = (s.eretAt i l, false) := by
  have hidle : s.thread i.block l.tid ≠ Thread.idle := fun h => by rw [h] at hhm; cases hhm
  have hclpos : ∀ f : Thread → Thread, ((s.updThread i.block l.tid f).thread i.block l.tid).clpos = (f (s.thread i.block l.tid)).clpos :=
    fun f => congrArg Thread.clpos (thread_updThread_self f hidle)
  simp only [eretLane, State.laneThread, hhm, hok, Bool.not_true, Bool.or_self, Bool.false_eq_true, if_false, hclpos]
  rfl

theorem does_eret {s : State} {i : Issue} {k : Block} {P : State → Lane → Prop} (h : Issuing s i k)
    (hP : ∀ t l, P t l → (t.thread i.block l.tid).hm = true ∧ t.eretOk i.block (t.thread i.block l.tid) = true) :
    Does s i .eret P (State.eretAt i) := by
  refine does_of_runLanes h (F := eretLane) rfl fun t l _ _ hp hgate hgood hPt => ?_
  obtain ⟨hhm, hok⟩ := hP t l hPt
  rw [gated_done (by decide) hgate hp, eretLane_out hhm hok]
  exact ⟨rfl, rfl, leaves_dropLane ((keeps_updThread t _ _ _).trans (keeps_ite (keeps_releaseOwed _ _ _) (Keeps.refl _))) hgood⟩

/-- Settles O35: in each lane TRAP and BKPT raise their trap where they stand, which leaves the clause alone unless it fails a task, and
then it leaves the grid with its task failed; ERET leaves the handler in its lane. -/
theorem trapAndReturn : Obligations.TrapAndReturn := by
  intro s i k h imm past raised P pos hdr
  refine ⟨does_raises h (fun _ => rfl) rfl (by simp [instrCeiling]) rfl (.inl rfl),
    does_raises h (fun _ => rfl) rfl (by simp [instrCeiling]) rfl (.inr rfl), fun g l hg htask hno hl hs hp ins hins hgate => ?_, does_eret h fun t l hP => ?_⟩
  · rcases List.mem_cons.mp hins with rfl | hins
    · exact raises_fails h (fun _ => rfl) rfl (by simp [instrCeiling]) rfl (.inl rfl) hg htask hno hl hs hp hgate
    · rw [List.mem_singleton.mp hins] at hgate ⊢
      exact raises_fails h (fun _ => rfl) rfl (by simp [instrCeiling]) rfl (.inr rfl) hg htask hno hl hs hp hgate
  · obtain ⟨hhm, halign, u, got, w, hword, hfault, hwithin⟩ := hP
    exact ⟨hhm, eretOk_of halign hword hfault hwithin⟩

end Sys2Proof.Machine
end
section
/-! SUPPORT. The filing of quads and the settling of bundles (R141 to R145): they change the cores and the places of quads alone. -/

namespace Sys2Proof.Machine

/-! ## The relation -/

/-- The same block but for its quads. -/
def Block.placed (k k' : Block) : Prop := k' = { k with quads := k'.quads }

theorem Block.placed_refl (k : Block) : Block.placed k k := rfl

theorem Block.placed_trans {a b c : Block} (h : Block.placed a b) (h' : Block.placed b c) : Block.placed a c := by
  unfold Block.placed at *
  rw [h', h]

theorem Block.placed.thread {k k' : Block} (h : Block.placed k k') (tid : Nat) : k'.thread tid = k.thread tid := by
  rw [show k' = _ from h]
  rfl

/-- Nothing has changed but the cores, the places of quads, and the numbers given out. -/
structure Files (s u : State) : Prop where
  frame : { u with blocks := s.blocks, cores := s.cores, nextUid := s.nextUid } = s
  blocks : ∀ b k, s.block? b = some k → ∃ k', u.block? b = some k' ∧ Block.placed k k'

section
variable {s t u : State}

theorem Files.refl (s : State) : Files s s := ⟨rfl, fun _ k hk => ⟨k, hk, Block.placed_refl k⟩⟩

theorem Files.trans (h : Files s t) (h' : Files t u) : Files s u := by
  refine ⟨?_, fun b k hk => ?_⟩
  · exact (congrArg (fun x : State => { x with blocks := s.blocks, cores := s.cores, nextUid := s.nextUid }) h'.frame :).trans h.frame
  · obtain ⟨k₁, hk₁, hp₁⟩ := h.blocks b k hk
    obtain ⟨k₂, hk₂, hp₂⟩ := h'.blocks b k₁ hk₁
    exact ⟨k₂, hk₂, Block.placed_trans hp₁ hp₂⟩

theorem Files.issue (h : Files s u) : u.issue = s.issue := (congrArg State.issue h.frame :)

theorem Files.mem (h : Files s u) : u.mem = s.mem := (congrArg State.mem h.frame :)

end

theorem files_foldl {α : Type} (l : List α) (f : State → α → State) (h : ∀ s a, Files s (f s a)) (s : State) : Files s (l.foldl f s) := by
  induction l generalizing s with
  | nil => exact Files.refl s
  | cons a l ih => exact (h s a).trans (ih _)

theorem files_updCore (s : State) (c : Nat) (f : Core → Core) : Files s (s.updCore c f) :=
  ⟨rfl, fun _ k hk => ⟨k, hk, Block.placed_refl k⟩⟩

theorem files_fresh (s : State) : Files s s.fresh.2 := ⟨rfl, fun _ k hk => ⟨k, hk, Block.placed_refl k⟩⟩

theorem files_updBlock (s : State) (b : Nat) (f : Block → Block) (hf : ∀ k, Block.placed k (f k)) : Files s (s.updBlock b f) := by
  refine ⟨?_, fun x k hk => ?_⟩
  · unfold State.updBlock
    split <;> rfl
  · by_cases hx : x = b
    · subst hx
      exact ⟨f k, State.block?_updBlock s x f k hk, hf k⟩
    · exact ⟨k, (State.block?_updBlock_ne s b x f hx).trans hk, Block.placed_refl k⟩

theorem placed_updQuads {α : Type} (l : List α) (q : α → Nat) (f : α → Quad → Quad) (k : Block) :
    Block.placed k (l.foldl (fun k e => k.updQuad (q e) (f e)) k) := by
  induction l generalizing k with
  | nil => exact Block.placed_refl k
  | cons e l ih => exact Block.placed_trans (b := k.updQuad (q e) (f e)) rfl (ih _)

/-! ## What files and settles -/

theorem files_fileQuad (s : State) (b q : Nat) : Files s (s.fileQuad b q) := by
  unfold State.fileQuad
  split
  · split
    · exact Files.refl s
    · split
      · exact Files.refl s
      · exact (files_updCore s _ _).trans (files_updBlock _ _ _ fun _ => rfl)
  · exact Files.refl s

theorem files_fileQuads (s : State) (b : Nat) (qs : List Nat) : Files s (s.fileQuads b qs) := files_foldl _ _ (fun s q => files_fileQuad s b q) s

theorem files_dropBundle (s : State) (c id : Nat) : Files s (s.dropBundle c id) := files_updCore s c _

theorem files_updBundle (s : State) (c id : Nat) (f : Bundle → Bundle) : Files s (s.updBundle c id f) := files_updCore s c _

theorem files_reformBundle (s : State) (c id : Nat) : Files s (s.reformBundle c id) := by
  unfold State.reformBundle
  split
  · exact Files.refl s
  · exact ((files_dropBundle s c id).trans (files_updBlock _ _ _ fun k =>
      placed_updQuads _ (fun (e : Nat × Nat) => e.2) (fun _ d => { d with place := .gone }) k)).trans (files_fileQuads _ _ _)

theorem files_sweepBundle (s : State) (c id : Nat) : Files s (s.sweepBundle c id) := by
  unfold State.sweepBundle
  split
  · have hout : ∀ (b : Nat) (l : List (Nat × Nat)),
        Files s (s.updBlock b fun k => l.foldl (fun k e => k.updQuad e.2 fun d => { d with place := .gone }) k) :=
      fun b l => files_updBlock s b _ fun k => placed_updQuads l (fun (e : Nat × Nat) => e.2) (fun _ d => { d with place := .gone }) k
    dsimp only
    split
    · exact (hout _ _).trans (files_dropBundle _ c id)
    · exact (hout _ _).trans (files_updBundle _ c id _)
  · exact files_dropBundle s c id
  · exact Files.refl s

theorem files_settleBundle (s : State) (c id : Nat) (fall : Option Dword) : Files s (s.settleBundle c id fall) := by
  unfold State.settleBundle
  dsimp only
  split
  · split
    · exact files_sweepBundle s c id
    · split
      · exact files_sweepBundle s c id
      · exact (((files_sweepBundle s c id).trans (files_updBundle _ c id _)).trans (files_updBlock _ _ _ fun k =>
          placed_updQuads _ (fun (q : Nat) => q) (fun _ d => { d with place := .gone }) k)).trans (files_fileQuads _ _ _)
  · exact files_sweepBundle s c id

theorem files_formBundle (s : State) (c b role : Nat) (qs : List Nat) : Files s (s.formBundle c b role qs) :=
  ((files_fresh s).trans (files_updCore _ c _)).trans (files_updBlock _ b _ fun k =>
    placed_updQuads qs (fun q => q) (fun _ d => { d with place := .bundle s.fresh.1 }) k)

end Sys2Proof.Machine
end
section
/-! SUPPORT. What an instruction leaves when it has passed its lanes (R85, R156, R235): lane by lane, and the end of a clause. -/

namespace Sys2Proof.Machine

/-! ## Lanes that each act on their own thread -/

/-- One thread of a block has changed as R says, and nothing else of the block. -/
structure Block.acted (tid : Nat) (R : Thread → Thread → Prop) (k k' : Block) : Prop where
  threads : k' = { k with threads := k'.threads }
  count : k'.T = k.T
  thread : R (k.thread tid) (k'.thread tid)
  others : ∀ x, x ≠ tid → k'.thread x = k.thread x

theorem Block.acted_updThread {tid : Nat} {R : Thread → Thread → Prop} {k : Block} {f : Thread → Thread} (hT : tid < k.T)
    (h : R (k.thread tid) (f (k.thread tid))) : k.acted tid R (k.updThread tid f) where
  threads := rfl
  count := by simp [Block.updThread]
  thread := by
    rw [Block.thread_updThread, if_pos ⟨rfl, hT⟩]
    exact h
  others x hx := by rw [Block.thread_updThread, if_neg fun h => hx h.1]

theorem Block.acted_refl {tid : Nat} {R : Thread → Thread → Prop} {k : Block} (h : R (k.thread tid) (k.thread tid)) : k.acted tid R k :=
  ⟨rfl, rfl, h, fun _ _ => rfl⟩

theorem Block.acted.trans {tid : Nat} {R R' Q : Thread → Thread → Prop} {a b c : Block} (h : a.acted tid R b) (h' : b.acted tid R' c)
    (hQ : ∀ x y z, R x y → R' y z → Q x z) : a.acted tid Q c where
  threads := by rw [h'.threads, h.threads]
  count := h'.count.trans h.count
  thread := hQ _ _ _ h.thread h'.thread
  others x hx := (h'.others x hx).trans (h.others x hx)

/-- Lanes that have acted one after another, each on its own thread. -/
structure Block.actedOn (ls : List Lane) (R : Lane → Thread → Thread → Prop) (k k' : Block) : Prop where
  threads : k' = { k with threads := k'.threads }
  count : k'.T = k.T
  lanes : ∀ l ∈ ls, R l (k.thread l.tid) (k'.thread l.tid)
  others : ∀ x, (∀ l ∈ ls, l.tid ≠ x) → k'.thread x = k.thread x

theorem Midway.foldl_lanes {s : State} {i : Issue} {step : State → Lane → State} {R : Lane → Thread → Thread → Prop}
    (hstep : ∀ (t : State) (k : Block) (l : Lane), Midway s i k t → l.tid < k.T →
      ∃ k', Midway s i k' (step t l) ∧ k.acted l.tid (R l) k')
    (ls : List Lane) (hn : (ls.map (·.tid)).Nodup) (k : Block) (hT : ∀ l ∈ ls, l.tid < k.T) (t : State) (hm : Midway s i k t) :
    ∃ k', Midway s i k' (ls.foldl step t) ∧ k.actedOn ls R k' := by
  induction ls generalizing k t with
  | nil => exact ⟨k, hm, rfl, rfl, fun _ h => absurd h List.not_mem_nil, fun _ _ => rfl⟩
  | cons l ls ih =>
    obtain ⟨hnot, hn⟩ := List.nodup_cons.mp hn
    have hne : ∀ x ∈ ls, x.tid ≠ l.tid := fun x hx h => hnot (List.mem_map.mpr ⟨x, hx, h⟩)
    obtain ⟨k₁, hm₁, hone⟩ := hstep t k l hm (hT l List.mem_cons_self)
    obtain ⟨k₂, hm₂, hrest⟩ := ih hn k₁ (fun x hx => hone.count ▸ hT x (List.mem_cons_of_mem _ hx)) (step t l) hm₁
    refine ⟨k₂, hm₂, by rw [hrest.threads, hone.threads], hrest.count.trans hone.count, fun x hx => ?_, fun x hx => ?_⟩
    · rcases List.mem_cons.mp hx with rfl | hx
      · rw [hrest.others _ hne]
        exact hone.thread
      · rw [← hone.others _ (hne x hx)]
        exact hrest.lanes x hx
    · rw [hrest.others x fun m hm => hx m (List.mem_cons_of_mem _ hm), hone.others x (hx l List.mem_cons_self).symm]

/-! ## The lanes pass the instruction -/

/-- The lanes that have reached the word pass it. -/
def State.passLanes (i : Issue) (s : State) : State :=
  i.lanes.foldl (fun s l => if l.start ≤ i.pos then s.updThread i.block l.tid (Thread.passed · true) else s) s

theorem midway_passLanes {s : State} {i : Issue} {k : Block} (h : Issuing s i k) :
    ∃ k', Midway s i k' (s.passLanes i) ∧ k.actedOn i.lanes (fun l a b => b = a.passed (decide (l.start ≤ i.pos))) k' := by
  refine Midway.foldl_lanes (fun t k l hm hT => ?_) i.lanes h.lanes k h.within s ⟨rfl, fun _ _ => rfl, h.block⟩
  by_cases hs : l.start ≤ i.pos
  · rw [if_pos hs]
    exact ⟨_, hm.updThread l.tid _, Block.acted_updThread hT (by rw [decide_eq_true hs])⟩
  · rw [if_neg hs]
    exact ⟨k, hm, Block.acted_refl (by simp [hs, Thread.passed])⟩

/-! ## What a clause owed -/

theorem Thread.flag_setFlag (th : Thread) (f g : Nat) : (th.setFlag f true).flag g = (th.flag g || decide (g = f)) := by
  unfold Thread.setFlag Thread.flag
  by_cases hf : f ≥ 12
  · rw [if_pos hf]
    by_cases hg : g = f
    · simp [hg, hf]
    · simp [hg]
  · rw [if_neg hf]
    by_cases hg12 : g ≥ 12
    · simp [hg12]
    · rw [if_neg hg12, if_neg hg12, onBit_setBit_true _ _ (by omega)]
      simp [eq_comm]

/-- Whether a result still to be written reports to a flag of a thread. -/
def State.reports (s : State) (b tid f : Nat) : Bool := s.pending.any fun p => p.block == b && p.tid == tid && p.flag == f

theorem Midway.thread {s : State} {i : Issue} {k : Block} {t : State} (h : Midway s i k t) (tid : Nat) : t.thread i.block tid = k.thread tid := by
  simp only [State.thread, h.block]

theorem Midway.reports {s : State} {i : Issue} {k : Block} {t : State} (h : Midway s i k t) (tid f : Nat) :
    t.reports i.block tid f = s.reports i.block tid f := by
  rw [State.reports, h.state]
  rfl

/-- Flags that are settled in a thread that a clause owes nothing. -/
theorem midway_settleFlags {s : State} {i : Issue} (tid : Nat) (fs : List Nat) (k : Block) (t : State) (hm : Midway s i k t) (hT : tid < k.T)
    (howed : (k.thread tid).owed = []) : ∃ k', Midway s i k' (fs.foldl (fun s f => s.settleFlag i.block tid f) t)
      ∧ k.acted tid (fun a b => b = { a with flags := b.flags }
        ∧ ∀ f, b.flag f = (a.flag f || (fs.contains f && !s.reports i.block tid f))) k' := by
  induction fs generalizing k t with
  | nil => exact ⟨k, hm, Block.acted_refl ⟨rfl, fun f => by simp⟩⟩
  | cons f fs ih =>
    have hone : ∃ k₁, Midway s i k₁ (t.settleFlag i.block tid f) ∧ k.acted tid (fun a b => b = { a with flags := b.flags }
        ∧ ∀ g, b.flag g = (a.flag g || (decide (g = f) && !s.reports i.block tid g))) k₁ := by
      unfold State.settleFlag
      rw [hm.thread, howed, List.contains_nil, Bool.or_false]
      change ∃ k₁, Midway s i k₁ (if t.reports i.block tid f = true then t else _) ∧ _
      rw [hm.reports]
      split
      · next hrep =>
        refine ⟨k, hm, Block.acted_refl ⟨rfl, fun g => ?_⟩⟩
        by_cases hg : g = f
        · simp [hg, hrep]
        · simp [hg]
      · next hrep =>
        refine ⟨_, hm.updThread tid _, Block.acted_updThread hT ⟨by unfold Thread.setFlag; split <;> rfl, fun g => ?_⟩⟩
        rw [Thread.flag_setFlag]
        by_cases hg : g = f
        · simp [hg, hrep]
        · simp [hg]
    obtain ⟨k₁, hm₁, h₁⟩ := hone
    obtain ⟨k₂, hm₂, h₂⟩ := ih k₁ _ hm₁ (h₁.count ▸ hT) (by rw [h₁.thread.1]; exact howed)
    refine ⟨k₂, hm₂, h₁.trans h₂ fun x y z hxy hyz => ⟨by rw [hyz.1, hxy.1], fun g => ?_⟩⟩
    rw [hyz.2, hxy.2, List.contains_cons, Bool.or_assoc, ← Bool.and_or_distrib_right]
    rfl

/-- What a clause owed a thread is owed no longer. -/
theorem midway_releaseOwed {s : State} {i : Issue} (tid : Nat) (k : Block) (t : State) (hm : Midway s i k t) (hT : tid < k.T) :
    ∃ k', Midway s i k' (t.releaseOwed i.block tid) ∧ k.acted tid (fun a b => b = { a with owed := [], flags := b.flags }
      ∧ ∀ f, b.flag f = (a.flag f || (a.owed.contains f && !s.reports i.block tid f))) k' := by
  unfold State.releaseOwed
  dsimp only
  rw [hm.thread]
  split
  · next hempty =>
    have howed : (k.thread tid).owed = [] := List.isEmpty_iff.mp hempty
    exact ⟨k, hm, Block.acted_refl ⟨by rw [← howed], fun f => by simp [howed]⟩⟩
  · have hcleared : k.acted tid (fun a b => b = { a with owed := [] }) (k.updThread tid fun th => { th with owed := [] }) :=
      Block.acted_updThread hT rfl
    obtain ⟨k', hm', hset⟩ := midway_settleFlags tid (k.thread tid).owed _ _ (hm.updThread tid fun th => { th with owed := [] })
      (hcleared.count ▸ hT) (by rw [hcleared.thread])
    refine ⟨k', hm', ?_⟩
    have hk : k.acted tid (fun a b => b = { a with owed := [] } ∧ a = k.thread tid) _ :=
      ⟨hcleared.threads, hcleared.count, ⟨hcleared.thread, rfl⟩, hcleared.others⟩
    refine hk.trans hset fun x y z hxy hyz => ⟨by rw [hyz.1, hxy.1], fun f => ?_⟩
    rw [hyz.2, hxy.1, hxy.2]
    rfl

/-! ## The lanes end their clause -/

theorem midway_endLanes {s : State} {i : Issue} {k : Block} {t : State} (hn : (i.lanes.map (·.tid)).Nodup) (hT : ∀ l ∈ i.lanes, l.tid < k.T)
    (hm : Midway s i k t) : ∃ k', Midway s i k' (i.lanes.foldl (State.endLane i) t) ∧ k.actedOn i.lanes (fun l => s.Ended i l.tid) k' := by
  refine Midway.foldl_lanes (fun t k l hm hT => ?_) i.lanes hn k hT t hm
  have hmoved : k.acted l.tid (fun a b => b = { a with pc := i.next, clpos := 0, keep := false })
      (k.updThread l.tid fun th => { th with pc := i.next, clpos := 0, keep := false }) := Block.acted_updThread hT rfl
  have hm₁ := hm.updThread l.tid fun th => { th with pc := i.next, clpos := 0, keep := false }
  have hhm : ((t.updThread i.block l.tid fun th => { th with pc := i.next, clpos := 0, keep := false }).thread i.block l.tid).hm
      = (k.thread l.tid).hm := by
    rw [hm₁.thread, hmoved.thread]
  unfold State.endLane
  dsimp only
  rw [hhm]
  split
  · next hin =>
    refine ⟨_, hm₁, hmoved.threads, hmoved.count, ?_, hmoved.others⟩
    rw [hmoved.thread]
    exact ⟨rfl, (if_pos hin).symm, fun f => by rw [hin]; simp [Thread.flag]⟩
  · next hout =>
    obtain ⟨k', hm', hrel⟩ := midway_releaseOwed l.tid _ _ hm₁ (hmoved.count ▸ hT)
    refine ⟨k', hm', hrel.threads.trans (by rw [hmoved.threads]), hrel.count.trans hmoved.count, ?_,
      fun x hx => (hrel.others x hx).trans (hmoved.others x hx)⟩
    obtain ⟨hplace, hflags⟩ := hrel.thread
    rw [hmoved.thread] at hplace hflags
    have hmode : (k.thread l.tid).hm = false := Bool.not_eq_true _ ▸ hout
    refine ⟨?_, ?_, fun f => ?_⟩
    · rw [hplace]
    · rw [hplace, hmode]
      rfl
    · rw [hflags, hmode]
      simp only [Thread.flag, Bool.not_false, Bool.true_and, State.reports]

/-! ## The end of a clause -/

/-- What follows the lanes at the end of a clause: those at their quota stop, and the bundle is filed anew or settles. -/
def State.closeClause (s : State) (i : Issue) : State :=
  let s := ({ s with issue := none }).stopAtQuota i.block
  let s := s.updBundle i.core i.bundle fun u => { u with fell := true, hold := i.header.seta == 15 && decide (0 < i.longs) }
  let s := if i.reform then s.reformBundle i.core i.bundle else s.settleBundle i.core i.bundle (some i.next)
  s.updCore i.core fun c => { c with rotation := c.rotation.filter (· != i.bundle) }

theorem finishClause_eq {s : State} {i : Issue} (h : s.issue = some i) :
    s.finishClause = (i.lanes.foldl (State.endLane i) s).closeClause i := by
  simp only [State.finishClause, h]
  rfl

/-- Threads of a block that have stopped at their quota. -/
theorem stopAtQuota_block {s : State} {b : Nat} {k : Block} (hk : s.block? b = some k) :
    ∃ k', (s.stopAtQuota b).block? b = some k' ∧ Block.same k k' ∧ ∀ tid, Thread.maybeStopped (s.gridOf b) (k.thread tid) (k'.thread tid) := by
  obtain ⟨k', hk', -, hth⟩ := (wakes_stopAtQuota s b).blocks b k hk
  refine ⟨k', hk', ?_, hth⟩
  unfold State.stopAtQuota at hk'
  split at hk'
  · rw [hk, Option.some.injEq] at hk'
    exact hk' ▸ Block.same_refl k
  · split at hk'
    · rw [hk, Option.some.injEq] at hk'
      exact hk' ▸ Block.same_refl k
    · rw [State.block?_updBlock s b _ k hk, Option.some.injEq] at hk'
      exact hk' ▸ ⟨rfl, by simp [Block.T]⟩

theorem stopAtQuota_issue (s : State) (b : Nat) : (s.stopAtQuota b).issue = s.issue := by
  unfold State.stopAtQuota
  split
  · rfl
  · split
    · rfl
    · exact State.updBlock_issue s b _

theorem closeClause_block {s : State} {i : Issue} {k : Block} (hk : s.block? i.block = some k) :
    (s.closeClause i).issue = none ∧ ∃ k', (s.closeClause i).block? i.block = some k' ∧ Block.same k k'
      ∧ ∀ tid, Thread.maybeStopped (s.gridOf i.block) (k.thread tid) (k'.thread tid) := by
  obtain ⟨k₁, hk₁, hsame, hth⟩ := stopAtQuota_block (s := { s with issue := none }) hk
  have hfiles : Files (({ s with issue := none } : State).stopAtQuota i.block) (s.closeClause i) := by
    unfold State.closeClause
    dsimp only
    refine Files.trans ?_ (files_updCore _ i.core _)
    refine Files.trans (files_updBundle _ i.core i.bundle fun u => { u with fell := true, hold := i.header.seta == 15 && decide (0 < i.longs) }) ?_
    split
    · exact files_reformBundle _ _ _
    · exact files_settleBundle _ _ _ _
  obtain ⟨k₂, hk₂, hplaced⟩ := hfiles.blocks _ _ hk₁
  refine ⟨hfiles.issue.trans (stopAtQuota_issue _ _), k₂, hk₂, Block.same_trans hsame ⟨?_, ?_⟩, fun tid => ?_⟩
  · rw [show k₂ = _ from hplaced]
  · rw [show k₂ = _ from hplaced]
    rfl
  · rw [hplaced.thread]
    exact hth tid

/-! ## The whole -/

theorem actedOn_same {ls : List Lane} {R : Lane → Thread → Thread → Prop} {k k' : Block} (h : k.actedOn ls R k') : Block.same k k' :=
  ⟨by rw [h.threads], h.count⟩

theorem Midway.gridOf {s : State} {i : Issue} {k k' : Block} {t : State} (h : Midway s i k' t) (hk : s.block? i.block = some k)
    (hg : k'.grid = k.grid) : t.gridOf i.block = s.gridOf i.block := by
  rw [gridOf_some h.block, gridOf_some hk, hg, h.state]
  rfl

/-- What an instruction of n words leaves once it has passed its lanes (R85, R235). -/
theorem advanced_afterInstr {s : State} {i : Issue} {k : Block} (h : Issuing s i k) (n : Nat) : Advanced s i k n (s.afterInstr n) := by
  obtain ⟨k₁, hm₁, hpass⟩ := midway_passLanes h
  have hgo : s.afterInstr n = (let u := { s.passLanes i with issue := some { i with pos := i.pos + n } }
      if i.pos + n > i.header.n.toNat then u.finishClause else u) := by
    simp only [State.afterInstr, h.clause]
    rfl
  have hreach : ∀ tid < k.T, k₁.thread tid = (k.thread tid).passed (i.reaches tid) := fun tid hT => by
    by_cases hlane : ∃ l ∈ i.lanes, l.tid = tid
    · obtain ⟨l, hl, rfl⟩ := hlane
      have hreaches : i.reaches l.tid = decide (l.start ≤ i.pos) := by
        refine Bool.eq_iff_iff.mpr ?_
        simp only [Issue.reaches, List.any_eq_true, Bool.and_eq_true, beq_iff_eq, decide_eq_true_eq]
        refine ⟨fun ⟨m, hm, htid, hstart⟩ => ?_, fun hstart => ⟨l, hl, rfl, hstart⟩⟩
        rwa [← List.inj_on_of_nodup_map h.lanes hm hl htid]
      rw [hreaches]
      exact hpass.lanes l hl
    · have hnone : ∀ l ∈ i.lanes, l.tid ≠ tid := fun l hl he => hlane ⟨l, hl, he⟩
      have hreaches : i.reaches tid = false := by
        simp only [Issue.reaches, List.any_eq_false, Bool.and_eq_true, beq_iff_eq, not_and]
        exact fun l hl he => absurd he (hnone l hl)
      rw [hpass.others tid hnone, hreaches]
      rfl
  refine ⟨fun hon => ?_, fun hend => ?_⟩
  · rw [hgo]
    dsimp only
    rw [if_neg (by omega)]
    refine ⟨?_, k₁, hm₁.block, hpass.threads, hpass.count, hreach⟩
    conv_lhs => rw [hm₁.state]
  · rw [hgo]
    dsimp only
    rw [if_pos hend, finishClause_eq rfl]
    have hm₂ : Midway { s with issue := some { i with pos := i.pos + n } } { i with pos := i.pos + n } k₁
        { s.passLanes i with issue := some { i with pos := i.pos + n } } :=
      ⟨congrArg (fun x : State => { x with issue := some { i with pos := i.pos + n } }) hm₁.state, hm₁.others, hm₁.block⟩
    obtain ⟨k₂, hm₃, hended⟩ := midway_endLanes (i := { i with pos := i.pos + n }) h.lanes (fun l hl => hpass.count ▸ h.within l hl) hm₂
    obtain ⟨hissue, k₃, hk₃, hsame, hstops⟩ := closeClause_block (i := { i with pos := i.pos + n }) hm₃.block
    have hgrid := hm₃.gridOf (k := k) h.block (by rw [hended.threads, hpass.threads])
    rw [hgrid] at hstops
    refine ⟨hissue, k₃, hk₃, Block.same_trans (Block.same_trans (actedOn_same hpass) (actedOn_same hended)) hsame, fun tid hT hnone => ?_,
      fun l hl => ⟨k₂.thread l.tid, ?_, hstops l.tid⟩⟩
    · have hstood : k₂.thread tid = k.thread tid := (hended.others tid hnone).trans (hpass.others tid hnone)
      exact hstood ▸ hstops tid
    · have hlane := hended.lanes l hl
      rw [hpass.lanes l hl] at hlane
      exact ⟨hlane.place, hlane.owed, hlane.flags⟩

end Sys2Proof.Machine
end
section
/-! SUPPORT. The issue of a bundle's next clause (R142, R156, R157, R235): what it fetches, waits for, and begins with. -/

namespace Sys2Proof.Machine

/-! ## The fetch of a clause changes no block -/

theorem fetchSector_blocks (s : State) (k : Block) (sec : Nat) (home : HomeAt) : (s.fetchSector k sec home).1.blocks = s.blocks := by
  unfold State.fetchSector
  dsimp only
  split
  · rfl
  · split
    · split <;> rfl
    · rfl

theorem foldl_blocks {α : Type} (l : List α) (f : State → α → State) (h : ∀ s a, (f s a).blocks = s.blocks) (s : State) :
    (l.foldl f s).blocks = s.blocks := by
  induction l generalizing s with
  | nil => rfl
  | cons a l ih => rw [List.foldl_cons, ih, h]

theorem makeRoom_blocks (s : State) (site : Nat) : (s.makeRoom site).blocks = s.blocks := by
  unfold State.makeRoom
  dsimp only
  split <;> rfl

theorem fillSite_blocks (s : State) (site t : Nat) (l : Leaf) : (s.fillSite site t l).blocks = s.blocks := by
  unfold State.fillSite
  split
  · rfl
  · refine (foldl_blocks _ _ (fun s p => ?_) _).trans (makeRoom_blocks s site)
    split
    · rfl
    · exact makeRoom_blocks s site

theorem fillTlb_blocks (s : State) (site t : Nat) (l : Leaf) : (s.fillTlb site t l).blocks = s.blocks :=
  foldl_blocks _ _ (fun s n => fillSite_blocks s n t l) s

theorem fetchWord_blocks {s t : State} {b va : Nat} {got got' : Fetched} {w : Word} (h : s.fetchWord b va got = .ok (t, got', w)) :
    t.blocks = s.blocks := by
  unfold State.fetchWord at h
  split at h
  · cases h
  · split at h
    · cases h
    · split at h
      · cases h
      · split at h
        · cases h
        · dsimp only at h
          split at h
          · cases h
            rfl
          · cases h
            exact (fetchSector_blocks _ _ _ _).trans (fillTlb_blocks _ _ _ _)

theorem fetchWords_blocks {b n : Nat} {s t : State} {va : Nat} {got : Fetched} {ws : List Word} (h : s.fetchWords b va got n = .ok (t, ws)) :
    t.blocks = s.blocks := by
  induction n generalizing s va got ws with
  | zero =>
    cases h
    rfl
  | succ n ih =>
    unfold State.fetchWords at h
    split at h
    · cases h
    · next hw =>
      split at h
      · cases h
      · next hws =>
        cases h
        exact (ih hws).trans (fetchWord_blocks hw)

theorem fetchClause_blocks {s t : State} {b : Nat} {pc : Dword} {hdr : Word} {ws : List Word} (h : s.fetchClause b pc = .ok (t, hdr, ws)) :
    t.blocks = s.blocks := by
  unfold State.fetchClause at h
  dsimp only at h
  split at h
  · cases h
  · next hw =>
    split at h
    · cases h
    · split at h
      · cases h
      · next hws =>
        cases h
        exact (fetchWords_blocks hws).trans (fetchWord_blocks hw)

/-! ## Flags and marks -/

theorem Thread.flagsReady_iff {th : Thread} {wait : BitVec 12} :
    th.flagsReady wait = true ↔ th.keep = true ∨ ∀ f, f < 12 → onBit wait f = true → th.flag f = true := by
  simp [Thread.flagsReady, imp_iff_not_or]

/-- A thread's marks as a clause begins with a wait mask: those that it covers go, unless the thread goes on within its clause. -/
def Thread.waited (wait : BitVec 12) (th : Thread) : Thread :=
  if th.keep then th else { th with marks := th.marks.filter fun m => !waitCovers wait m.flag }

theorem Thread.waited_waited (wait : BitVec 12) (th : Thread) : (th.waited wait).waited wait = th.waited wait := by
  cases h : th.keep with
  | false => simp [Thread.waited, h, List.filter_filter]
  | true => simp [Thread.waited, h]

/-- The marks of a clause's lanes as it begins. -/
def State.waitedFor (s : State) (b : Nat) (wait : BitVec 12) (ls : List Lane) : State :=
  (ls.map fun l => (l.lane, l.tid)).foldl (fun s l => s.updThread b l.2 (Thread.waited wait)) s

/-- An update of a thread changes nothing but the blocks. -/
theorem updThread_frame (s : State) (b tid : Nat) (f : Thread → Thread) : { s.updThread b tid f with blocks := s.blocks } = s := by
  unfold State.updThread State.updBlock
  split <;> rfl

theorem waitedFor_block {s : State} {b : Nat} {k : Block} (hk : s.block? b = some k) (wait : BitVec 12) (ls : List Lane) :
    { s.waitedFor b wait ls with blocks := s.blocks } = s
    ∧ ∃ k', (s.waitedFor b wait ls).block? b = some k' ∧ ∀ l ∈ ls, l.tid < k.T → k'.thread l.tid = (k.thread l.tid).waited wait := by
  suffices h : ∀ (s : State) (k : Block), s.block? b = some k →
      { s.waitedFor b wait ls with blocks := s.blocks } = s
      ∧ ∃ k', (s.waitedFor b wait ls).block? b = some k' ∧ ∀ x, k'.thread x
          = if (∃ l ∈ ls, l.tid = x) ∧ x < k.T then (k.thread x).waited wait else k.thread x by
    obtain ⟨hframe, k', hk', hth⟩ := h s k hk
    exact ⟨hframe, k', hk', fun l hl hT => by rw [hth, if_pos ⟨⟨l, hl, rfl⟩, hT⟩]⟩
  induction ls with
  | nil => exact fun s k hk => ⟨rfl, k, hk, fun x => by simp⟩
  | cons l ls ih =>
    intro s k hk
    obtain ⟨hframe, k', hk', hth⟩ := ih (s.updThread b l.tid (Thread.waited wait)) (k.updThread l.tid (Thread.waited wait))
      (State.block?_updBlock s b _ k hk)
    have hT : (k.updThread l.tid (Thread.waited wait)).T = k.T := by simp [Block.updThread]
    refine ⟨(congrArg (fun x : State => { x with blocks := s.blocks }) hframe :).trans (updThread_frame s b _ _), k', hk', fun x => ?_⟩
    rw [hth, hT, Block.thread_updThread]
    by_cases hx : x = l.tid
    · subst hx
      by_cases hlt : l.tid < k.T
      · simp [hlt, Thread.waited_waited]
      · simp [hlt]
    · simp [hx, Ne.symm hx]

/-! ## The beginning of a clause -/

/-- Nothing has changed but blocks and cores, and of a block's threads no mark. -/
structure Begins (b : Nat) (s u : State) : Prop where
  frame : { u with blocks := s.blocks, cores := s.cores } = s
  marks : ∀ tid, (u.thread b tid).marks = (s.thread b tid).marks

section
variable {b : Nat} {s t u : State}

theorem Begins.refl (b : Nat) (s : State) : Begins b s s := ⟨rfl, fun _ => rfl⟩

theorem Begins.trans (h : Begins b s t) (h' : Begins b t u) : Begins b s u :=
  ⟨(congrArg (fun x : State => { x with blocks := s.blocks, cores := s.cores }) h'.frame :).trans h.frame, fun tid => (h'.marks tid).trans (h.marks tid)⟩

theorem begins_foldl {α : Type} (l : List α) (f : State → α → State) (h : ∀ s a, Begins b s (f s a)) (s : State) : Begins b s (l.foldl f s) := by
  induction l generalizing s with
  | nil => exact Begins.refl b s
  | cons a l ih => exact (h s a).trans (ih _)

theorem begins_updBlock (s : State) (b : Nat) (f : Block → Block) (hf : ∀ k tid, ((f k).thread tid).marks = (k.thread tid).marks) :
    Begins b s (s.updBlock b f) := by
  cases hk : s.block? b with
  | none => simpa only [State.updBlock, hk] using Begins.refl b s
  | some k =>
    refine ⟨by simp only [State.updBlock, hk, State.setBlock], fun tid => ?_⟩
    simp only [State.thread, State.block?_updBlock s b f k hk, hk]
    exact hf k tid

theorem begins_updThread (s : State) (b tid : Nat) (f : Thread → Thread) (hf : ∀ th, (f th).marks = th.marks) : Begins b s (s.updThread b tid f) :=
  begins_updBlock s b _ fun k x => by
    rw [Block.thread_updThread]
    split
    · next hx => rw [hf, hx.1]
    · rfl

end

theorem begins_updCore (b : Nat) (s : State) (c : Nat) (f : Core → Core) : Begins b s (s.updCore c f) := ⟨rfl, fun _ => rfl⟩

theorem begins_settleFlag (s : State) (b tid f : Nat) : Begins b s (s.settleFlag b tid f) := by
  unfold State.settleFlag
  split
  · exact Begins.refl b s
  · exact begins_updThread s b tid _ fun th => Thread.setFlag_marks th f true

theorem foldl_setFlag_marks (fs : List Nat) (th : Thread) : (fs.foldl (fun th f => th.setFlag f false) th).marks = th.marks := by
  induction fs generalizing th with
  | nil => rfl
  | cons f fs ih => rw [List.foldl_cons, ih, Thread.setFlag_marks]

theorem begins_clearFlags (s : State) (b tid : Nat) (h : Header) (fs : List Nat) : Begins b s (s.clearFlags b tid h fs) := by
  unfold State.clearFlags
  dsimp only
  refine Begins.trans (begins_updThread s b tid _ fun th => ?_) (begins_foldl _ _ (fun s f => ?_) _)
  · exact foldl_setFlag_marks fs _
  · split
    · exact Begins.refl b s
    · exact begins_settleFlag s b tid f

/-- The lanes that a bundle offers a clause. -/
def Block.lanesFor (k : Block) (h : Header) (lanes : List (Nat × Nat)) : List Lane := lanes.map fun l =>
  ⟨l.1, l.2, (k.thread l.2).clausePred h, max 1 (k.thread l.2).clpos⟩

/-- A clause that begins: the lanes, the word and the count with which it starts, and else blocks and cores alone. -/
theorem beginClause_begins (s : State) (core : Nat) (u : Bundle) (b : Nat) (k : Block) (pc : Dword) (hdr : Word) (ws : List Word)
    (lanes : List (Nat × Nat)) {x : List Lane × Nat × Nat}
    (hx : clauseStart ((Cls.ofCode (Header.ofWord hdr).cls).getD .int) ws (k.lanesFor (Header.ofWord hdr) lanes) = x) :
    ∃ v, Begins b (s.waitedFor b (Header.ofWord hdr).wait x.1) v ∧ s.beginClause core u b k pc hdr ws lanes = { v with
      issue := some { core := core, bundle := u.id, block := b, pc := pc, hdr := hdr, words := ws, pos := x.2.1, longs := x.2.2
                      reform := false, lanes := x.1 } } := by
  obtain ⟨ls, pos, longs⟩ := x
  unfold State.beginClause
  simp only [Block.lanesFor] at hx
  simp only [hx]
  refine ⟨_, ?_, rfl⟩
  refine Begins.trans ?_ (begins_updCore b _ core _)
  refine Begins.trans ?_ (begins_updBlock _ b _ fun k tid => ?_)
  · refine begins_foldl _ _ (fun s l => ?_) _
    split
    · exact begins_clearFlags s b l.tid _ _
    · exact Begins.refl b s
  · exact congrArg Thread.marks ((placed_updQuads (ls.map fun l => (l.lane, l.tid)) (fun (l : Nat × Nat) => l.2 / 4)
      (fun _ d => { d with yielded := none }) k).thread tid)

/-- Lanes that all stand at the clause's first word begin it together. -/
theorem clauseStart_whole {c : Cls} {ws : List Word} {ls : List Lane} (hne : ls ≠ []) (h : ∀ l ∈ ls, l.start = 1) : clauseStart c ws ls = (ls, 1, 0) := by
  have hall : ls.filter (fun l => l.start == 1 || (clauseWalk c ws 15 1).any fun e => e.1 == l.start) = ls :=
    List.filter_eq_self.mpr fun l hl => by simp [h l hl]
  unfold clauseStart
  dsimp only
  rw [hall]
  cases ls with
  | nil => exact absurd rfl hne
  | cons l ls => rfl

end Sys2Proof.Machine
end
section
/-! SUPPORT. CLAUSE_ISSUE (R142, R149, R156, R157, R235): a clause begins, waits, or asks for its bundle to be filed again. -/

namespace Sys2Proof.Machine

/-! ## What a fetched clause does -/

section
variable {s t : State} {core b : Nat} {u : Bundle} {k : Block} {pc : Dword} {hdr : Word} {ws : List Word}

/-- A clause that is fetched and meets no lost reply: its bundle is filed again, or it begins, or its lanes wait. -/
theorem issueBundle_fetched (hheld : s.held k b u (k.activeLanes u pc) = false) (hfetch : s.fetchClause b pc = .ok (t, hdr, ws))
    (herr : ∀ l ∈ k.activeLanes u pc, (k.thread l.2).keep = true ∨ t.replyError b l.2 (Header.ofWord hdr).wait = none) :
    (((Header.ofWord hdr).reform && u.fell && (k.activeLanes u pc).all fun l => (k.thread l.2).begins) = true →
      s.issueBundle core u b k pc = t.reformBundle core u.id)
    ∧ (((Header.ofWord hdr).reform && u.fell && (k.activeLanes u pc).all fun l => (k.thread l.2).begins) = false →
      ((∀ l ∈ k.activeLanes u pc, (k.thread l.2).flagsReady (Header.ofWord hdr).wait = true) →
        t.unreadyPred b (Header.ofWord hdr) (k.activeLanes u pc) = [] →
        s.issueBundle core u b k pc = t.beginClause core u b k pc hdr ws (k.activeLanes u pc))
      ∧ ((∃ l ∈ k.activeLanes u pc, ¬ (k.thread l.2).flagsReady (Header.ofWord hdr).wait = true) → t.dl0 b = false →
        s.issueBundle core u b k pc = t)) := by
  have herrs : ((k.activeLanes u pc).filterMap fun l => if (k.thread l.2).keep then none
      else (t.replyError b l.2 (Header.ofWord hdr).wait).map fun e => (l, e)) = [] := by
    refine List.filterMap_eq_nil_iff.mpr fun l hl => ?_
    rcases herr l hl with hkeep | hnone
    · rw [if_pos hkeep]
    · rw [hnone, Option.map_none, ite_self]
  have hgo : s.issueBundle core u b k pc =
      if (Header.ofWord hdr).reform && u.fell && (k.activeLanes u pc).all (fun l => (k.thread l.2).begins) then t.reformBundle core u.id
      else if ((k.activeLanes u pc).filter fun l => !(k.thread l.2).flagsReady (Header.ofWord hdr).wait).isEmpty then
        if (t.unreadyPred b (Header.ofWord hdr) (k.activeLanes u pc)).isEmpty then t.beginClause core u b k pc hdr ws (k.activeLanes u pc)
        else t.trapHeader core b u.id pc (t.unreadyPred b (Header.ofWord hdr) (k.activeLanes u pc)) (Trap.of cOPERAND 4)
      else
        let late := (k.activeLanes u pc).filter fun l => !(k.thread l.2).flagsReady (Header.ofWord hdr).wait
        if t.dl0 b && decide ((dedup (late.map fun l => l.2 / 4)).length < u.slots.length)
            && late.any (fun l => t.waitsRemote b l.2 (Header.ofWord hdr).wait) then t.splitBundle b u pc (dedup (late.map fun l => l.2 / 4))
        else t := by
    unfold State.issueBundle
    simp only [hheld, hfetch, herrs, List.isEmpty_nil, Bool.not_true, Bool.false_eq_true, if_false]
  rw [hgo]
  refine ⟨fun hagain => by rw [if_pos hagain], fun hnot => ⟨fun hready hpred => ?_, fun hlate hdl => ?_⟩⟩
  · have hnone : ((k.activeLanes u pc).filter fun l => !(k.thread l.2).flagsReady (Header.ofWord hdr).wait) = [] :=
      List.filter_eq_nil_iff.mpr fun l hl => by simp [hready l hl]
    simp [hnot, hnone, hpred]
  · have hsome : ((k.activeLanes u pc).filter fun l => !(k.thread l.2).flagsReady (Header.ofWord hdr).wait).isEmpty = false := by
      obtain ⟨l, hl, hnr⟩ := hlate
      exact List.isEmpty_eq_false_iff_exists_mem.mpr ⟨l, List.mem_filter.mpr ⟨hl, by simpa using hnr⟩⟩
    simp [hnot, hsome, hdl]

end

/-- The bundle of an id has that id. -/
theorem bundle?_id {s : State} {core id : Nat} {u : Bundle} (h : s.bundle? core id = some u) : u.id = id := by
  simpa using List.find?_some h

/-- CLAUSE_ISSUE of a bundle that does not stand still within a clause. -/
theorem exec_clauseIssue {s : State} {core id : Nat} {u : Bundle} {k : Block} {pc : Dword} (hmay : s.mayIssue core id = true)
    (hgoes : ∀ u, s.bundle? core id = some u → u.paused = none) (hu : (s.settleBundle core id none).bundle? core id = some u)
    (hk : (s.settleBundle core id none).block? u.block = some k) (hpc : k.bundleKey u = some pc) :
    exec (.clauseIssue core id) s = .next ((s.settleBundle core id none).issueBundle core u u.block k pc) := by
  have hstill : (s.bundle? core id).bind (·.paused) = none := by
    cases h : s.bundle? core id with
    | none => rfl
    | some v => exact hgoes v h
  change execClauseIssue core id s = _
  simp only [execClauseIssue, hmay, Bool.not_true, Bool.false_eq_true, if_false, hstill, hu, hk, hpc]

theorem activeLanes_within {k : Block} {u : Bundle} {pc : Dword} {l : Nat × Nat} (h : l ∈ k.activeLanes u pc) : l.2 < k.T := by
  simp only [Block.activeLanes, List.mem_flatMap, List.mem_filterMap, Block.quadThreads] at h
  obtain ⟨e, -, tid, ⟨j, -, hj⟩, hl⟩ := h
  split at hj
  · cases hj
    split at hl
    · cases hl
      assumption
    · cases hl
  · cases hj

/-- Every lane that a clause starts with is one that its bundle offered. -/
theorem clauseStart_lanes {c : Cls} {ws : List Word} {ls : List Lane} {l : Lane} (h : l ∈ (clauseStart c ws ls).1) : l ∈ ls := by
  unfold clauseStart at h
  dsimp only at h
  split at h
  · next hw => exact (List.mem_filter.mp (hw ▸ h)).1
  · cases h
  · exact (List.mem_filter.mp h).1

/-- A clause begun: the issue unit's state, and the marks of its lanes. -/
theorem beginClause_begun {s : State} {core b : Nat} {u : Bundle} {k : Block} {pc : Dword} {hdr : Word} {ws : List Word} (hk : s.block? b = some k)
    {x : List Lane × Nat × Nat}
    (hx : clauseStart ((Cls.ofCode (Header.ofWord hdr).cls).getD .int) ws (k.lanesFor (Header.ofWord hdr) (k.activeLanes u pc)) = x) :
    let t := s.beginClause core u b k pc hdr ws (k.activeLanes u pc)
    t.issue = some { core := core, bundle := u.id, block := b, pc := pc, hdr := hdr, words := ws, pos := x.2.1, longs := x.2.2
                     reform := false, lanes := x.1 }
    ∧ t.mem = s.mem ∧ t.pending = s.pending
    ∧ ∀ l ∈ x.1, (t.thread b l.tid).marks = ((k.thread l.tid).waited (Header.ofWord hdr).wait).marks := by
  obtain ⟨v, hv, ht⟩ := beginClause_begins s core u b k pc hdr ws (k.activeLanes u pc) hx
  obtain ⟨hframe, k', hk', hth⟩ := waitedFor_block hk (Header.ofWord hdr).wait x.1
  dsimp only
  rw [ht]
  refine ⟨rfl, (congrArg State.mem hv.frame :).trans (congrArg State.mem hframe :),
    (congrArg State.pending hv.frame :).trans (congrArg State.pending hframe :), fun l hl => ?_⟩
  have hT : l.tid < k.T := by
    obtain ⟨m, hm, rfl⟩ := List.mem_map.mp (clauseStart_lanes (hx ▸ hl) : l ∈ k.lanesFor _ _)
    exact activeLanes_within hm
  refine (hv.marks l.tid).trans ?_
  rw [← hth l hl hT]
  simp only [State.thread, hk']

/-- A bundle that stands still within its clause goes on with it. -/
theorem clauseIssue_resumes {s : State} {core id : Nat} {u : Bundle} {j : Issue} (hmay : s.mayIssue core id = true)
    (hu : s.bundle? core id = some u) (hj : u.paused = some j) (hw : Sparse.wf Core.reset s.cores = true) :
    Reaches s (.clauseIssue core id) fun t => t = { s with cores := t.cores, issue := some j } ∧ ∀ c, Core.same (s.core c) (t.core c) := by
  refine ⟨{ s.updBundle core id fun u => { u with paused := none } with issue := some j }, ?_, rfl, fun c => ?_⟩
  · change execClauseIssue core id s = _
    simp only [execClauseIssue, hmay, hu, Option.bind_some, hj, Bool.not_true, Bool.false_eq_true, if_false]
  · change Core.same (s.core c) ((s.updBundle core id fun u => { u with paused := none }).core c)
    unfold State.updBundle
    by_cases hc : c = core
    · subst hc
      rw [State.core_updCore _ _ _ hw]
      rfl
    · rw [State.core_updCore_ne _ _ _ _ hc]
      rfl

end Sys2Proof.Machine
end
section
/-! SUPPORT. BUNDLE_DRAW (R142, R146): the oldest bin, the bin that is drawn from, and the bundle that its quads form. -/

namespace Sys2Proof.Machine

/-! ## The head of a sorted list -/

theorem sortBy_append_singleton {α : Type} (lt : α → α → Bool) (l : List α) (a : α) : sortBy lt (l ++ [a]) = insertBy lt a (sortBy lt l) := by
  simp [sortBy]

theorem insertBy_ne_nil {α : Type} (lt : α → α → Bool) (a : α) (l : List α) : insertBy lt a l ≠ [] := by
  cases l with
  | nil => exact List.cons_ne_nil _ _
  | cons b l =>
    unfold insertBy
    split <;> exact List.cons_ne_nil _ _

theorem sortBy_eq_nil {α : Type} {lt : α → α → Bool} {l : List α} (h : sortBy lt l = []) : l = [] := by
  induction l using List.reverseRecOn with
  | nil => rfl
  | append_singleton l a _ =>
    rw [sortBy_append_singleton] at h
    exact absurd h (insertBy_ne_nil lt a _)

/-- The head of a list sorted by a number is an element of it, and none has a smaller number. -/
theorem sortBy_head {α : Type} (f : α → Nat) (l : List α) : ∀ a, (sortBy (fun a b => decide (f a < f b)) l).head? = some a →
    a ∈ l ∧ ∀ x ∈ l, f a ≤ f x := by
  induction l using List.reverseRecOn with
  | nil => exact fun a h => nomatch h
  | append_singleton l b ih =>
    intro a h
    rw [sortBy_append_singleton] at h
    cases hs : sortBy (fun a b => decide (f a < f b)) l with
    | nil =>
      rw [hs, insertBy, List.head?_cons, Option.some.injEq] at h
      subst h
      simp [sortBy_eq_nil hs]
    | cons c rest =>
      obtain ⟨hc, hmin⟩ := ih c (by rw [hs]; rfl)
      rw [hs, insertBy] at h
      by_cases hbc : f b < f c
      · rw [if_pos (decide_eq_true hbc), List.head?_cons, Option.some.injEq] at h
        subst h
        refine ⟨by simp, fun x hx => ?_⟩
        rcases List.mem_append.mp hx with hx | hx
        · exact Nat.le_trans (Nat.le_of_lt hbc) (hmin x hx)
        · exact Nat.le_of_eq (congrArg f (List.mem_singleton.mp hx).symm)
      · rw [if_neg (by simpa using hbc), List.head?_cons, Option.some.injEq] at h
        subst h
        refine ⟨List.mem_append_left _ hc, fun x hx => ?_⟩
        rcases List.mem_append.mp hx with hx | hx
        · exact hmin x hx
        · exact (List.mem_singleton.mp hx) ▸ Nat.not_lt.mp hbc

/-! ## The oldest bin -/

/-- The number of the oldest of dated bins. -/
def oldestBin (l : List (Nat × Bin)) : Option Nat := ((sortBy (fun (a b : Nat × Bin) => decide (a.1 < b.1)) l).head?).map (·.2.no)

theorem oldestBin_some {l : List (Nat × Bin)} {bin : Nat} (h : oldestBin l = some bin) : ∃ e ∈ l, e.2.no = bin ∧ ∀ x ∈ l, e.1 ≤ x.1 := by
  obtain ⟨e, he, hno⟩ := Option.map_eq_some_iff.mp h
  obtain ⟨hmem, hmin⟩ := sortBy_head (fun e : Nat × Bin => e.1) l e he
  exact ⟨e, hmem, hno, hmin⟩

theorem oldestBin_none {l : List (Nat × Bin)} (h : oldestBin l = none) : l = [] :=
  sortBy_eq_nil (List.head?_eq_none_iff.mp (Option.map_eq_none_iff.mp h))

/-- The bins of a core that may be drawn from, with the time of the oldest entry of each. -/
def State.datedBins (s : State) (core : Nat) : List (Nat × Bin) := (s.core core).bins.filterMap fun n => (s.binSince n).map fun since => (since, n)

theorem mem_datedBins {s : State} {core since : Nat} {n : Bin} : (since, n) ∈ s.datedBins core ↔ n ∈ (s.core core).bins ∧ s.binSince n = some since := by
  simp only [State.datedBins, List.mem_filterMap, Option.map_eq_some_iff, Prod.mk.injEq]
  constructor
  · rintro ⟨m, hm, x, hx, rfl, rfl⟩
    exact ⟨hm, hx⟩
  · rintro ⟨hn, hs⟩
    exact ⟨n, hn, since, hs, rfl, rfl⟩

theorem drawable_ne_nil {s : State} {n : Bin} {since : Nat} (h : s.binSince n = some since) : s.drawable n ≠ [] := by
  intro hnil
  rw [State.binSince, hnil] at h
  cases h

theorem binFull_since {s : State} {n : Bin} (h : s.binFull n = true) : ∃ since, s.binSince n = some since := by
  obtain ⟨e, he, -⟩ := List.any_eq_true.mp h
  unfold State.binSince State.drawable
  cases hw : s.waitingIn n with
  | nil => exact absurd (hw ▸ he) List.not_mem_nil
  | cons x xs => exact ⟨x.since, rfl⟩

/-- The bin that is drawn from next: a full one before others, then one that has waited, the oldest each time (R146). -/
theorem nextDraw_some {s : State} {core bin : Nat} (h : s.nextDraw core = some bin) :
    ∃ n ∈ (s.core core).bins, ∃ since, n.no = bin ∧ s.drawable n ≠ [] ∧ s.binSince n = some since
      ∧ (∀ m ∈ (s.core core).bins, (s.binFull n = true → s.binFull m = true) → ∀ x, s.binSince m = some x → since ≤ x)
      ∧ (s.binFull n = true ∨ (∀ m ∈ (s.core core).bins, ¬ s.binFull m = true)
          ∧ (since + 64 ≤ s.dieTime (core / 64) ∨ s.someIssues core = false)) := by
  unfold State.nextDraw at h
  dsimp only at h
  split at h
  · next hold =>
    obtain ⟨⟨since, n⟩, he, hno, hmin⟩ := oldestBin_some (l := (s.datedBins core).filter fun e => s.binFull e.2) hold
    obtain ⟨hmem, hfull⟩ := List.mem_filter.mp he
    obtain ⟨hn, hsince⟩ := mem_datedBins.mp hmem
    cases h
    exact ⟨n, hn, since, hno, drawable_ne_nil hsince, hsince, fun m hm hmf x hx =>
      hmin (x, m) (List.mem_filter.mpr ⟨mem_datedBins.mpr ⟨hm, hx⟩, hmf hfull⟩), Or.inl hfull⟩
  · next hfulls =>
    have hnot : ∀ m ∈ (s.core core).bins, ¬ s.binFull m = true := fun m hm hf => by
      obtain ⟨since, hs⟩ := binFull_since hf
      have hnil := oldestBin_none (l := (s.datedBins core).filter fun e => s.binFull e.2) hfulls
      exact absurd (hnil ▸ List.mem_filter.mpr ⟨mem_datedBins.mpr ⟨hm, hs⟩, hf⟩ : (since, m) ∈ []) List.not_mem_nil
    split at h
    · next hold =>
      obtain ⟨⟨since, n⟩, he, hno, hmin⟩ :=
        oldestBin_some (l := (s.datedBins core).filter fun e => decide (e.1 + 64 ≤ s.dieTime (core / 64))) hold
      obtain ⟨hmem, haged⟩ := List.mem_filter.mp he
      have haged : since + 64 ≤ s.dieTime (core / 64) := of_decide_eq_true haged
      obtain ⟨hn, hsince⟩ := mem_datedBins.mp hmem
      cases h
      refine ⟨n, hn, since, hno, drawable_ne_nil hsince, hsince, fun m hm _ x hx => ?_, Or.inr ⟨hnot, Or.inl haged⟩⟩
      by_cases hx64 : x + 64 ≤ s.dieTime (core / 64)
      · exact hmin (x, m) (List.mem_filter.mpr ⟨mem_datedBins.mpr ⟨hm, hx⟩, decide_eq_true hx64⟩)
      · omega
    · split at h
      · cases h
      · next hissues =>
        obtain ⟨⟨since, n⟩, hmem, hno, hmin⟩ := oldestBin_some (l := s.datedBins core) h
        obtain ⟨hn, hsince⟩ := mem_datedBins.mp hmem
        exact ⟨n, hn, since, hno, drawable_ne_nil hsince, hsince, fun m hm _ x hx => hmin (x, m) (mem_datedBins.mpr ⟨hm, hx⟩),
          Or.inr ⟨hnot, Or.inr (Bool.not_eq_true _ ▸ hissues)⟩⟩

/-- A bin is full when it holds eight quads of one key. -/
theorem binFull_iff {s : State} {n : Bin} : s.binFull n = true ↔ ∃ e ∈ s.waitingIn n,
    8 ≤ ((s.waitingIn n).filter fun x => x.block = e.block ∧ x.role = e.role ∧ x.pc = e.pc).length := by
  have hkey : ∀ e : BinEntry, (fun x : BinEntry => decide (x.block = e.block ∧ x.role = e.role ∧ x.pc = e.pc)) = e.sameKey := fun e => by
    funext x
    rw [Bool.eq_iff_iff]
    simp only [BinEntry.sameKey, decide_eq_true_eq, Bool.and_eq_true, beq_iff_eq, and_assoc]
    exact and_congr eq_comm (and_congr eq_comm eq_comm)
  simp only [State.binFull, List.any_eq_true, decide_eq_true_eq, hkey]

/-! ## The bundle drawn -/

/-- A bundle formed of quads: it holds them in slots 0, 1, …, and no bin does. -/
theorem formBundle_formed {s : State} (hw : Sparse.wf Core.reset s.cores = true) (core b role : Nat) (qs : List Nat) :
    (∃ u ∈ ((s.formBundle core b role qs).core core).bundles, u.id = s.nextUid + 1 ∧ u.block = b ∧ u.role = role ∧ u.fell = false
      ∧ u.slots = (List.range qs.length).zip qs)
    ∧ ∀ m ∈ ((s.formBundle core b role qs).core core).bins, ∀ x ∈ m.entries, x.block = b → x.quad ∉ qs := by
  have hslots : qs.zipIdx.map (fun e => (e.2, e.1)) = (List.range qs.length).zip qs := by
    refine List.ext_getElem (by simp) fun j _ _ => ?_
    simp
  unfold State.formBundle
  dsimp only
  simp only [State.core, State.updBlock_cores]
  rw [← State.core, State.core_updCore s.fresh.2 core _ hw]
  refine ⟨⟨_, List.mem_append_right _ List.mem_cons_self, rfl, rfl, rfl, rfl, hslots⟩, fun m hm x hx hb hq => ?_⟩
  obtain ⟨n, -, rfl⟩ := List.mem_map.mp (List.mem_filter.mp hm).1
  have := (List.mem_filter.mp hx).2
  simp [hb, hq] at this

theorem exec_bundleDraw {s : State} {core bin : Nat} {n : Bin} {e : BinEntry} {es : List BinEntry} (hdraw : s.nextDraw core = some bin)
    (hi : s.issue = none) (hn : (s.core core).bins.find? (fun n => n.no == bin) = some n) (hes : (s.drawable n).take 8 = e :: es) :
    exec (.bundleDraw core bin) s = .next (s.formBundle core e.block e.role ((e :: es).map (·.quad))) := by
  change execBundleDraw core bin s = _
  simp [execBundleDraw, hdraw, hi, hn, hes]

end Sys2Proof.Machine
end
section
/-! SUPPORT. RESULT_WRITEBACK (R156, R157, R164): the registers, predicates and flags that a result writes, and its completion flag. -/

namespace Sys2Proof.Machine

/-! ## A thread after its result -/

theorem foldl_setReg_eq (l : List (Nat × Word)) (th : Thread) :
    l.foldl (fun x e => x.setReg e.1 e.2) th = { th with regs := (l.foldl (fun x e => x.setReg e.1 e.2) th).regs } := by
  induction l generalizing th with
  | nil => rfl
  | cons e l ih =>
    rw [List.foldl_cons, ih]
    unfold Thread.setReg
    split <;> rfl

theorem foldl_setPred_eq (l : List (Nat × Bool)) (th : Thread) :
    l.foldl (fun x e => x.setPred e.1 e.2) th = { th with preds := (l.foldl (fun x e => x.setPred e.1 e.2) th).preds } := by
  induction l generalizing th with
  | nil => rfl
  | cons e l ih =>
    rw [List.foldl_cons, ih]
    unfold Thread.setPred
    split <;> rfl

/-- Writes of predicates read nothing but the predicates. -/
theorem foldl_setPred_preds (l : List (Nat × Bool)) {a b : Thread} (h : a.preds = b.preds) :
    (l.foldl (fun x e => x.setPred e.1 e.2) a).preds = (l.foldl (fun x e => x.setPred e.1 e.2) b).preds := by
  induction l generalizing a b with
  | nil => exact h
  | cons e l ih =>
    refine ih ?_
    unfold Thread.setPred
    dsimp only
    split
    · exact h
    · exact congrArg (setBit · e.1 e.2) h

theorem Thread.writeResult_eq (th : Thread) (p : PendOp) : th.writeResult p = { th with
    regs := ((p.regs ++ p.ocm).foldl (fun x e => x.setReg e.1 e.2) th).regs
    preds := (p.preds.foldl (fun x e => x.setPred e.1 e.2) th).preds
    fpsr := (th.raise p.fpflags).fpsr } := by
  unfold Thread.writeResult Thread.writeOcm
  dsimp only
  rw [← List.foldl_append, foldl_setPred_eq, foldl_setReg_eq]
  rw [foldl_setPred_preds p.preds (a := { th with regs := ((p.regs ++ p.ocm).foldl (fun x e => x.setReg e.1 e.2) th).regs }) (b := th) rfl]
  rfl

/-! ## The block after its result -/

/-- The marks of a thread once those of a result have gone. -/
def State.unmark (s : State) (p : PendOp) (now : Bool) (th : Thread) : Thread := { th with marks := th.marks.filter fun m =>
  !(m.flag == p.flag && (now || m.flag == 15) && !s.stillPending p.block p.tid m
    && (if m.isPred then p.preds.any fun e => e.1 == m.no else p.regs.any fun e => e.1 == m.no)) }

/-- The thread of a result once the result is written: all but its completion flag and its marks. -/
structure Thread.Written (p : PendOp) (th th' : Thread) : Prop where
  regs : th'.regs = ((p.regs ++ p.ocm).foldl (fun x e => x.setReg e.1 e.2) th).regs
  preds : th'.preds = (p.preds.foldl (fun x e => x.setPred e.1 e.2) th).preds
  fpsr : th'.fpsr = (th.raise p.fpflags).fpsr
  pc : th'.pc = th.pc

theorem Thread.Written.reg {p : PendOp} {th th' : Thread} (h : Thread.Written p th th') (r : Nat) :
    th'.reg r = ((p.regs ++ p.ocm).foldl (fun x e => x.setReg e.1 e.2) th).reg r := by
  simp only [Thread.reg, h.regs]

theorem Thread.Written.pred {p : PendOp} {th th' : Thread} (h : Thread.Written p th th') (r : Nat) :
    th'.pred r = (p.preds.foldl (fun x e => x.setPred e.1 e.2) th).pred r := by
  simp only [Thread.pred, h.preds]

/-- The machine without a result that has been written. -/
def State.withoutPending (s : State) (id : Nat) : State := { s with pending := s.pending.filter fun q => q.id != id }

/-- A thread after its result, where it still runs. -/
def Thread.received (p : PendOp) (th : Thread) : Thread := if th.exited then th else th.writeResult p

/-- The machine once the registers and predicates of a result are written. -/
def State.received (s : State) (id : Nat) (p : PendOp) : State := (s.withoutPending id).updThread p.block p.tid (Thread.received p)

theorem exec_resultWriteback {s : State} {id : Nat} {p : PendOp} (hp : s.pending.find? (fun p => p.id == id) = some p) (hready : p.ready = true)
    (herr : p.error = none) (hdue : s.writeDue p = true) : exec (.resultWriteback id) s = .next
      (((s.received id p).dropMarks p ((s.received id p).dl0 p.block)).settleFlag p.block p.tid p.flag) := by
  change execResultWriteback id s = _
  simp only [execResultWriteback, hp, hready, herr, hdue, Option.isSome_none, Bool.not_true, Bool.or_false, Bool.false_eq_true, if_false]
  rfl

/-- A completion flag that follows its result: set, unless something that reports to it is still to come. -/
theorem settleFlag_block {s : State} {b tid : Nat} {k : Block} (hk : s.block? b = some k) (hT : tid < k.T) (f : Nat) :
    { s.settleFlag b tid f with blocks := s.blocks } = s ∧ (∀ x, x ≠ b → (s.settleFlag b tid f).block? x = s.block? x)
    ∧ ∃ k', (s.settleFlag b tid f).block? b = some k'
      ∧ k.acted tid (fun th th' => th' = { th with flags := th'.flags }
        ∧ ∀ g, th'.flag g = if g = f ∧ g ∉ th.owed ∧ (∀ q ∈ s.pending, ¬ (q.block = b ∧ q.tid = tid ∧ q.flag = g)) then true else th.flag g) k' := by
  have hreports : (s.pending.any fun p => p.block == b && p.tid == tid && p.flag == f) = true
      ↔ ¬ ∀ q ∈ s.pending, ¬ (q.block = b ∧ q.tid = tid ∧ q.flag = f) := by
    simp [List.any_eq_true, and_assoc]
  have howed : (s.thread b tid).owed.contains f = true ↔ f ∈ (k.thread tid).owed := by
    simp [State.thread, hk]
  unfold State.settleFlag
  split
  · next hwait =>
    rw [Bool.or_eq_true, hreports, howed] at hwait
    refine ⟨rfl, fun _ _ => rfl, k, hk, Block.acted_refl ⟨rfl, fun g => ?_⟩⟩
    rw [if_neg]
    rintro ⟨rfl, hg, hq⟩
    exact hwait.elim (fun h => h hq) hg
  · next hfree =>
    rw [Bool.or_eq_true, hreports, howed, not_or, not_not] at hfree
    refine ⟨?_, fun x hx => State.block?_updBlock_ne s b x _ hx, _, State.block?_updBlock s b _ k hk, Block.acted_updThread hT ⟨?_, fun g => ?_⟩⟩
    · exact updThread_frame s b tid _
    · unfold Thread.setFlag
      split <;> rfl
    · rw [Thread.flag_setFlag]
      by_cases hg : g = f
      · subst hg
        rw [if_pos ⟨rfl, hfree.2, hfree.1⟩, decide_eq_true rfl, Bool.or_true]
      · simp [hg]

/-- The writing of a result. -/
theorem resultWriteback_written {s : State} {id : Nat} {p : PendOp} {k : Block} (hp : s.pending.find? (fun p => p.id == id) = some p)
    (hready : p.ready = true) (herr : p.error = none) (hdue : s.writeDue p = true) (hk : s.block? p.block = some k) (hT : p.tid < k.T)
    (hlives : (k.thread p.tid).exited = false) :
    Reaches s (.resultWriteback id) fun t => ∃ k', t.block? p.block = some k' ∧ t.pending = s.pending.filter (fun q => q.id != id)
      ∧ t.mem = s.mem ∧ (∀ b, b ≠ p.block → t.block? b = s.block? b) ∧ (∀ tid, tid ≠ p.tid → k'.thread tid = k.thread tid)
      ∧ Thread.Written p (k.thread p.tid) (k'.thread p.tid)
      ∧ ∀ f, (k'.thread p.tid).flag f = if f = p.flag ∧ f ∉ (k.thread p.tid).owed
          ∧ ∀ q ∈ t.pending, ¬ (q.block = p.block ∧ q.tid = p.tid ∧ q.flag = f) then true else (k.thread p.tid).flag f := by
  let s₁ := s.withoutPending id
  let s₂ := s.received id p
  let now := s₂.dl0 p.block
  let s₃ := s₂.dropMarks p now
  have hk₂ : s₂.block? p.block = some (k.updThread p.tid (Thread.received p)) := State.block?_updBlock s₁ p.block _ k hk
  have hk₃ : s₃.block? p.block = some ((k.updThread p.tid (Thread.received p)).updThread p.tid (s₂.unmark p now)) := State.block?_updBlock s₂ p.block _ _ hk₂
  have hwrite : k.acted p.tid (fun th th' => th' = th.writeResult p ∧ th = k.thread p.tid) (k.updThread p.tid (Thread.received p)) :=
    Block.acted_updThread hT ⟨if_neg (by simp [hlives]), rfl⟩
  have hdrop : (k.updThread p.tid (Thread.received p)).acted p.tid (fun th th' => th' = s₂.unmark p now th) _ :=
    Block.acted_updThread (hwrite.count ▸ hT) rfl
  obtain ⟨hframe, hothers, k', hk', hset⟩ := settleFlag_block (s := s₃) hk₃ (hdrop.count ▸ hwrite.count ▸ hT) p.flag
  have hframe₁ : { s₃.settleFlag p.block p.tid p.flag with blocks := s₁.blocks } = s₁ :=
    ((congrArg (fun x : State => { x with blocks := s₁.blocks }) hframe :).trans
      (congrArg (fun x : State => { x with blocks := s₁.blocks }) (updThread_frame s₂ p.block p.tid _) :)).trans (updThread_frame s₁ p.block p.tid _)
  have hpending : (s₃.settleFlag p.block p.tid p.flag).pending = s₃.pending := (congrArg State.pending hframe :)
  obtain ⟨hth, hflag⟩ := hset.thread
  rw [hdrop.thread, hwrite.thread.1] at hth hflag
  refine ⟨_, exec_resultWriteback hp hready herr hdue, k', hk', (congrArg State.pending hframe₁ :), (congrArg State.mem hframe₁ :), fun b hb => ?_, fun tid htid => ?_, ?_, fun f => ?_⟩
  · exact (hothers b hb).trans ((State.block?_updBlock_ne s₂ p.block b _ hb).trans (State.block?_updBlock_ne s₁ p.block b _ hb))
  · exact (hset.others tid htid).trans ((hdrop.others tid htid).trans (hwrite.others tid htid))
  · rw [hth, Thread.writeResult_eq]
    exact ⟨rfl, rfl, rfl, rfl⟩
  · rw [hflag, hpending, Thread.writeResult_eq]
    rfl

end Sys2Proof.Machine
end
section
/-! SUPPORT and the proof of O47: clauses, bundles and results (R85, R141, R142, R146, R149, R156, R157, R235). -/

namespace Sys2Proof.Machine

/-- A result that has not come, that carries an error or whose time has not come is not written. -/
theorem resultWriteback_waits {s : State} {id : Nat} {p : PendOp} (hp : s.pending.find? (fun p => p.id == id) = some p)
    (h : p.ready = false ∨ p.error ≠ none ∨ s.writeDue p = false) : Becomes s (.resultWriteback id) s := by
  have hstay : (!p.ready || p.error.isSome || !s.writeDue p) = true := by
    rcases h with h | h | h
    · simp [h]
    · simp [Option.isSome_iff_ne_none.mpr h]
    · simp [h]
  change execResultWriteback id s = _
  simp only [execResultWriteback, hp, hstay, if_true]

/-- The marks of a lane that begins its clause. -/
theorem Thread.waited_marks {th : Thread} (h : th.keep = false) (wait : BitVec 12) :
    (th.waited wait).marks = th.marks.filter fun m => !(m.flag == 15 || (decide (m.flag < 12) && onBit wait m.flag)) := by
  rw [Thread.waited, h]
  rfl

/-- Lanes that have not gone beyond their clause's first word start with it. -/
theorem lanesFor_whole {k : Block} {h : Header} {ls : List (Nat × Nat)} {c : Cls} {ws : List Word} (hne : ls ≠ [])
    (hfirst : ∀ l ∈ ls, (k.thread l.2).clpos ≤ 1) : clauseStart c ws (k.lanesFor h ls) = (k.lanesFor h ls, 1, 0) := by
  refine clauseStart_whole (fun hnil => hne (List.map_eq_nil_iff.mp hnil)) fun l hl => ?_
  obtain ⟨m, hm, rfl⟩ := List.mem_map.mp hl
  exact Nat.max_eq_left (hfirst m hm)

/-- A bundle is filed again at a clause with the reform bit that it fell to and that all its lanes begin. -/
theorem reforms_iff {h : Header} {u : Bundle} {k : Block} {ls : List (Nat × Nat)} :
    (h.reform && u.fell && ls.all fun l => (k.thread l.2).begins) = true
      ↔ h.reform = true ∧ u.fell = true ∧ ∀ l ∈ ls, (k.thread l.2).keep = false ∧ (k.thread l.2).clpos = 0 := by
  simp [Thread.begins, and_assoc]

/-- Settles O47: an instruction moves its lanes one by one and then ends the clause for each; a clause's outcome is read off the
issue unit's case distinction; the oldest bin is the head of a sorted list; a result is three updates of one thread. -/
theorem clausesBundlesAndResults : Obligations.ClausesBundlesAndResults := by
  unfold Obligations.ClausesBundlesAndResults
  refine ⟨fun s i k n h => advanced_afterInstr h n, ?_, fun s core id u j hmay hu hj hw => clauseIssue_resumes hmay hu hj hw, ?_, ?_, ?_,
    fun s id p hp h => resultWriteback_waits hp h⟩
  · intro s core id hmay s₁ u k pc hu hk hpc ls hheld s₂ hdr ws hfetch h ready all x hgoes herr again
    have hk₂ : s₂.block? u.block = some k := by
      rw [State.block?, fetchClause_blocks hfetch]
      exact hk
    obtain ⟨hagain, hnot⟩ := issueBundle_fetched (core := core) hheld hfetch herr
    have hexec := exec_clauseIssue hmay hgoes hu hk hpc
    refine ⟨fun ha => ?_, fun ha => ?_⟩
    · rw [Becomes, hexec, hagain (reforms_iff.mpr ha)]
    · obtain ⟨hbegins, hwaits⟩ := hnot (Bool.not_eq_true _ ▸ fun hr => ha (reforms_iff.mp hr))
      refine ⟨fun hready hpred => ?_, fun ⟨l, hl, hlate⟩ hdl => ?_⟩
      · obtain ⟨hissue, hmem, hpending, hmarks⟩ := beginClause_begun (core := core) (u := u) (pc := pc) (hdr := hdr) (ws := ws) hk₂ (x := x) rfl
        rw [bundle?_id hu] at hissue
        refine ⟨_, hexec.trans (congrArg _ (hbegins (fun l hl => Thread.flagsReady_iff.mpr (hready l hl)) hpred)), hissue, hmem, hpending,
          fun hne hfirst => lanesFor_whole hne hfirst, fun l hl hkeep => ?_⟩
        rw [hmarks l hl, Thread.waited_marks hkeep]
      · rw [Becomes, hexec, hwaits ⟨l, hl, fun hr => hlate (Thread.flagsReady_iff.mp hr)⟩ hdl]
  · intro s core bin hdraw full
    have hfull : ∀ n, full n ↔ s.binFull n = true := fun n => binFull_iff.symm
    obtain ⟨n, hn, since, hno, hdrawable, hsince, hmin, hwhy⟩ := nextDraw_some hdraw
    exact ⟨n, hn, since, hno, hdrawable, hsince, fun m hm hmf => hmin m hm fun hf => (hfull m).mp (hmf ((hfull n).mpr hf)),
      hwhy.imp (hfull n).mpr fun ⟨hnone, hdue⟩ => ⟨fun m hm hf => hnone m hm ((hfull m).mp hf), hdue⟩⟩
  · intro s core bin n e es hdraw hi hn hes hw qs
    obtain ⟨hbundle, hbins⟩ := formBundle_formed hw core e.block e.role qs
    have hfiles := files_formBundle s core e.block e.role qs
    exact ⟨_, exec_bundleDraw hdraw hi hn hes, hbundle, hbins, hfiles.mem, hfiles.blocks⟩
  · intro s id p k hp hready herr hdue hk hT hlives th
    obtain ⟨t, hexec, k', hk', hpending, hmem, hothers, hthreads, hwritten, hflag⟩ := resultWriteback_written hp hready herr hdue hk hT hlives
    exact ⟨t, hexec, k', hk', hpending, hmem, hothers, hthreads, hwritten.reg, hwritten.pred,
      hwritten.fpsr, hwritten.pc, hflag⟩

end Sys2Proof.Machine
end

section
/-! A CBAR that makes its release, in a machine that lists its block twice (R173, R261). -/

namespace Sys2Proof.Machine

/-- The machine of a release that does not complete, whose block table lists block 3 twice, with a CBAR as its placed clause. -/
def cbarListedTwice : State :=
  { releaseListedTwice (.cbar 0) with
    issue := (State.reset.placeClause .ctl (encode (.cbar 0))).issue.map fun i => { i with lanes := [⟨0, 0, true, 1⟩] } }

/-- The clause under way in it, and block 3 as it is found first. -/
def cbarIssue : Issue := cbarListedTwice.issue.getD ⟨0, 0, 0, 0, 0, [], 0, [], 0, false⟩
def cbarBlock : Block := (cbarListedTwice.block? 3).getD (placedBlock 1 2 4 3 0)

theorem cbarListedTwice_issuing : Issuing cbarListedTwice cbarIssue cbarBlock where
  clause := by decide +kernel
  block := by decide +kernel
  lanes := by decide +kernel
  within := by decide +kernel
  bundle := fun u hu => by
    have hall : (cbarListedTwice.bundle? cbarIssue.core cbarIssue.bundle).all (fun u => u.block == cbarIssue.block) = true := by
      decide +kernel
    simpa [hu] using hall
  cores := by decide +kernel

/-- The model pauses the clause at that CBAR: the record of the dirty sector, which can no longer go home, has put the second entry of
the block table, in a view and at DL1, in the first one's place. -/
theorem exec_cbarListedTwice_pauses : keptAfter (exec (.cbar 0) cbarListedTwice) = false := by decide +kernel

/-- A thread that waits by itself for that release would stand within its clause. -/
theorem parkedRelease_cbarListedTwice_keeps :
    keptAfter (.next ((cbarListedTwice.inLanes cbarIssue fun s l => parkedRelease s cbarIssue l 2).afterInstr (wordsOf (.cbar 0)))) = true := by
  decide +kernel

/-- What the clause on a CBAR at DL0 asks of its lane: a declared barrier, no pending trap, the block of the clause, and a release
that does not complete. -/
theorem cbarListedTwice_waits :
    (∃ n, cbarListedTwice.kernelOf cbarIssue.block = some n ∧ (0#8).toNat < n.bars)
    ∧ (cbarListedTwice.thread cbarIssue.block 0).px = 0 ∧ cbarListedTwice.dl0 cbarIssue.block = true
    ∧ (cbarListedTwice.releaseAt cbarIssue.block 0 cbarIssue.at 2).2.isSome = true := by
  refine ⟨⟨placedKernel, ?_, ?_⟩, ?_, ?_, ?_⟩ <;> decide +kernel

/-- Refutes O23: its clause on a CBAR whose release is not complete at DL0 has the thread wait by itself, and the model decides that by
the block as it stands once the dirty sectors have left. -/
theorem not_barriersForksAndJoins : ¬ Obligations.BarriersForksAndJoins := by
  intro h
  obtain ⟨hbarriers, -⟩ := h
  obtain ⟨-, hcbar, -⟩ := hbarriers cbarListedTwice cbarIssue cbarBlock cbarListedTwice_issuing 0
  obtain ⟨-, hwait⟩ := hcbar
  obtain ⟨hdeclared, hpx, hdl0, hopen⟩ := cbarListedTwice_waits
  have hlanes : cbarIssue.lanes = [⟨0, 0, true, 1⟩] := by decide +kernel
  have hgate : cbarListedTwice.gate cbarIssue ⟨0, 0, true, 1⟩ (.cbar 0) = none := by decide +kernel
  obtain ⟨t, hexec, hpassed⟩ := hwait (by
    rw [hlanes]
    exact ⟨fun _ => ⟨hgate, fun _ => ⟨⟨hdeclared, .inl hpx, cbarBlock, cbarListedTwice_issuing.block, rfl, rfl⟩, hdl0, hopen⟩⟩, trivial⟩)
  have hpauses := exec_cbarListedTwice_pauses
  rw [hexec, hpassed.ends] at hpauses
  exact Bool.noConfusion (hpauses.symm.trans parkedRelease_cbarListedTwice_keeps)

end Sys2Proof.Machine
end

section
/-! A join that is applied, in a machine that lists its block twice (R74, R113, R136). -/

namespace Sys2Proof.Machine

/-- A fork of one child, complete and checked, that thread 0 opened. -/
def checkedFork : Fork where
  n := 1
  tid := 0
  pc := 64
  entry := 64
  vtag0 := 1
  args := []
  key := 0
  next := 1
  done := 1
  asked := false
  reports := []
  checked := true
  dropping := false
  order := 0
  turn := 0

/-- A block whose thread 0 waits at the JOIN of that fork. -/
def joiningBlock : Block :=
  { placedBlock 1 2 4 3 0 with fork := some checkedFork, threads := List.replicate 4 { Thread.start with pc := 64, status := .waiting .join } }

/-- The machine of a release between clauses, in which the child has written a byte of the granule that holds the dirty sector, and
whose block table lists block 3 again, in a view. -/
def joinListedTwice : State :=
  { placedRelease .join with
    issue := none, fabric := Fabric.reset
    slots := [⟨0, 1, 0, 0, .bytes, 0, List.replicate 128 0, 5 :: List.replicate 127 0⟩]
    blocks := [(3, joiningBlock), (3, { joiningBlock with vtag := someView.vtag, specs := [someView] })] }

/-- The view of a block after a step. -/
def viewAfter (b : Nat) (o : Out) : Option Nat :=
  match o with
  | .next t => (t.block? b).map fun k => k.vtag
  | _ => none

/-- The apply leaves block 3 in the view of the second entry: the record of the dirty sector, which can no longer go home, has put it
in the first one's place. -/
theorem joinListedTwice_view : viewAfter 3 (exec (.joinApply (.own 3 [])) joinListedTwice) = some someView.vtag := by decide +kernel

/-- Refutes O50: the block table lists block 3 twice, and the apply of its join, which has been checked, leaves it in the view of the
other entry, where the clause on the apply has it stay in its own. -/
theorem not_joinsAndDrops : ¬ Obligations.JoinsAndDrops := by
  intro h
  obtain ⟨-, hjoins, -⟩ := h
  obtain ⟨-, -, hopen⟩ := hjoins joinListedTwice 3 joiningBlock (placedGrid 1 0) checkedFork (by decide +kernel) (by decide +kernel) rfl
    (by decide +kernel)
  obtain ⟨-, happly⟩ := hopen (.inl rfl)
  obtain ⟨t, hexec, ⟨k, hk, -, hview, -⟩, -⟩ := happly (by decide +kernel) (by decide +kernel) rfl (by decide) rfl
  have hafter := joinListedTwice_view
  rw [hexec] at hafter
  simp only [viewAfter, hk, hview, Option.map_some] at hafter
  revert hafter
  decide

end Sys2Proof.Machine
end

section
/-! SUPPORT. The exact values behind a prediction and the tolerance test (R132, R133): finite patterns as rational numbers, their
sums, and the fractions that the test compares. -/

namespace Sys2Proof.Machine

/-- The rational number that a sign and a fraction stand for. -/
def ratOf (neg : Bool) (n d : Nat) : ℚ := (signed neg n : ℚ) / d

theorem signed_not (neg : Bool) (n : Nat) : signed (!neg) n = -signed neg n := by cases neg <;> simp [signed]

theorem signed_decide_natAbs (x : Int) : signed (decide (x < 0)) x.natAbs = x := by
  by_cases h : x < 0
  · simp only [signed, h, decide_true, if_true]; omega
  · simp only [signed, h, decide_false, Bool.false_eq_true, if_false]; omega

theorem ratOf_not (neg : Bool) (n d : Nat) : ratOf (!neg) n d = -ratOf neg n d := by
  rw [ratOf, ratOf, signed_not]; push_cast; ring

theorem ratOf_mul_left (neg : Bool) (n d : Nat) : ratOf neg (2 * n) d = 2 * ratOf neg n d := by
  cases neg <;> simp [ratOf, signed] <;> ring

theorem ratOf_mul_right (neg : Bool) (n d : Nat) : ratOf neg n (2 * d) = ratOf neg n d / 2 := by
  rw [ratOf, ratOf]; push_cast; ring

theorem abs_ratOf (neg : Bool) (n d : Nat) : |ratOf neg n d| = (n : ℚ) / d := by
  cases neg <;> simp [ratOf, signed, abs_div]

/-! ## Patterns -/

theorem pow2_snd_pos (e : Int) : 0 < (pow2 e).2 := by
  unfold pow2
  split
  · exact Nat.one_pos
  · positivity

theorem bitsAt_mod (b lo n r : Nat) : bitsAt (b % 2 ^ (lo + n + r)) lo n = bitsAt b lo n := by
  rw [bitsAt, bitsAt, Nat.add_assoc, pow_add, Nat.mod_mul_right_div_self, Nat.mod_mod_of_dvd _ (pow_dvd_pow 2 (Nat.le_add_right n r))]

theorem FpFmt.bitsAt_width (f : FpFmt) (b : Nat) :
    bitsAt (b % 2 ^ f.width) f.fb f.eb = bitsAt b f.fb f.eb ∧ bitsAt (b % 2 ^ f.width) 0 f.fb = bitsAt b 0 f.fb :=
  ⟨by rw [show f.width = f.fb + f.eb + 1 by unfold FpFmt.width; omega, bitsAt_mod],
   by rw [show f.width = 0 + f.fb + (f.eb + 1) by unfold FpFmt.width; omega, bitsAt_mod]⟩

theorem FpFmt.decode_fin {f : FpFmt} {b n d : Nat} {neg : Bool} (h : f.decode b = .fin neg n d) : f.isNan b = false ∧ 0 < d := by
  obtain ⟨he, -⟩ := f.bitsAt_width b
  simp only [FpFmt.decode, he] at h
  split at h
  · split at h <;> exact absurd h (by simp)
  · next hexp =>
    simp only [FV.fin.injEq] at h
    exact ⟨by simp [FpFmt.isNan, hexp], h.2.2 ▸ pow2_snd_pos _⟩

theorem FpFmt.nanOf_numbers {f : FpFmt} {ops : List Nat} (h : ∀ b ∈ ops, f.isNan b = false) : f.nanOf ops = none := by
  rw [FpFmt.nanOf, List.find?_eq_none.mpr fun b hb => by simp [h b hb]]

/-! ## Sums -/

theorem sumFin_value (m : Nat) (an bn : Bool) (a b : Nat) {ad bd : Nat} (ha : 0 < ad) (hb : 0 < bd) :
    ∃ sg n d, sumFin m an a ad bn b bd = .fin sg n d ∧ 0 < d ∧ ratOf sg n d = ratOf an a ad + ratOf bn b bd := by
  have ha' : (ad : ℚ) ≠ 0 := by positivity
  have hb' : (bd : ℚ) ≠ 0 := by positivity
  have hscale : ∀ (sg : Bool) (n k : Nat), signed sg (n * k) = signed sg n * k := by intro sg n k; cases sg <;> simp [signed]
  have hsum : ratOf an a ad + ratOf bn b bd = ((signed an (a * bd) + signed bn (b * ad) : Int) : ℚ) / ((ad * bd : Nat) : ℚ) := by
    rw [ratOf, ratOf, hscale, hscale]; push_cast; field_simp
  rw [sumFin, hsum]
  generalize signed an (a * bd) + signed bn (b * ad) = x
  by_cases hx : x = 0
  · subst hx
    simp only [if_true]
    split
    · exact ⟨an, 0, 1, rfl, Nat.one_pos, by cases an <;> simp [ratOf, signed]⟩
    · exact ⟨m == 3, 0, 1, rfl, Nat.one_pos, by cases m == 3 <;> simp [ratOf, signed]⟩
  · exact ⟨_, _, _, if_neg hx, Nat.mul_pos ha hb, by rw [ratOf, signed_decide_natAbs]⟩

theorem addQ_value (a b : Int × Nat) (ha : 0 < a.2) (hb : 0 < b.2) :
    0 < (addQ a b).2 ∧ ((addQ a b).1 : ℚ) / ((addQ a b).2 : ℚ) = (a.1 : ℚ) / a.2 + (b.1 : ℚ) / b.2 := by
  obtain ⟨x, p⟩ := a
  obtain ⟨y, q⟩ := b
  simp only [addQ] at *
  have hl : 0 < Nat.lcm p q := Nat.lcm_pos ha hb
  obtain ⟨c, hc⟩ := Nat.dvd_lcm_left p q
  obtain ⟨e, he⟩ := Nat.dvd_lcm_right p q
  refine ⟨hl, ?_⟩
  have hc' : Nat.lcm p q / p = c := by rw [hc, Nat.mul_div_cancel_left _ ha]
  have he' : Nat.lcm p q / q = e := by rw [he, Nat.mul_div_cancel_left _ hb]
  have hp0 : (p : ℚ) ≠ 0 := by positivity
  have hq0 : (q : ℚ) ≠ 0 := by positivity
  have hl0 : (Nat.lcm p q : ℚ) ≠ 0 := by positivity
  have hcq : (Nat.lcm p q : ℚ) = p * c := by exact_mod_cast hc
  have heq : (Nat.lcm p q : ℚ) = q * e := by exact_mod_cast he
  rw [hc', he', div_add_div _ _ hp0 hq0, div_eq_div_iff hl0 (mul_ne_zero hp0 hq0)]
  push_cast
  calc ((x : ℚ) * c + y * e) * (p * q) = x * q * (p * c) + y * p * (q * e) := by ring
    _ = (x * q + p * y) * (Nat.lcm p q : ℚ) := by rw [← hcq, ← heq]; ring

/-- The comparison of two fractions across their denominators. -/
theorem natAbs_mul_le_iff {x y : Int} {p q : Nat} (hp : 0 < p) (hq : 0 < q) :
    x.natAbs * q ≤ y.natAbs * p ↔ |(x : ℚ) / p| ≤ |(y : ℚ) / q| := by
  have hp' : (0 : ℚ) < p := by exact_mod_cast hp
  have hq' : (0 : ℚ) < q := by exact_mod_cast hq
  rw [abs_div, abs_div, abs_of_pos hp', abs_of_pos hq', div_le_div_iff₀ hp' hq', ← Int.cast_abs, ← Int.cast_abs, Int.abs_eq_natAbs,
    Int.abs_eq_natAbs]
  exact_mod_cast Iff.rfl

/-! ## Prediction and tolerance -/

section

variable {f : FpFmt} {a b : Nat} {sa sb : Bool} {n₁ d₁ n₂ d₂ : Nat} (ha : f.decode a = .fin sa n₁ d₁) (hb : f.decode b = .fin sb n₂ d₂)
include ha

theorem predictElem_last : predictElem f 0 a b = a := by
  rw [predictElem, if_pos rfl, quietened, FpFmt.nanOf_numbers (by simp [(FpFmt.decode_fin ha).1])]

theorem predictElem_nan_right {p : Nat} (hp : p ≠ 0) {c : Nat} (hc : f.isNan c = true) : predictElem f p a c = f.quiet c := by
  simp [predictElem, hp, FpFmt.nanOf, (FpFmt.decode_fin ha).1, hc]

omit ha in
theorem predictElem_nan_left {p : Nat} (hp : p ≠ 0) {c : Nat} (hc : f.isNan c = true) (b : Nat) : predictElem f p c b = f.quiet c := by
  simp [predictElem, hp, FpFmt.nanOf, hc]

include hb

theorem nanOf_finite : f.nanOf [a, b] = none :=
  FpFmt.nanOf_numbers (by simp [(FpFmt.decode_fin ha).1, (FpFmt.decode_fin hb).1])

theorem predictElem_lin : ∃ sg n d, 0 < d ∧ predictElem f 1 a b = (f.round 0 sg n d).1
    ∧ ratOf sg n d = 2 * ratOf sa n₁ d₁ - ratOf sb n₂ d₂ := by
  obtain ⟨sg, n, d, hsum, hd, hval⟩ := sumFin_value 0 sa (!sb) (2 * n₁) n₂ (FpFmt.decode_fin ha).2 (FpFmt.decode_fin hb).2
  refine ⟨sg, n, d, hd, ?_, by rw [hval, ratOf_not, ratOf_mul_left]; ring⟩
  simp [predictElem, nanOf_finite ha hb, ha, hb, hsum, FpFmt.ofFV]

theorem predictElem_damp : ∃ sg n d, 0 < d ∧ predictElem f 2 a b = (f.round 0 sg n d).1
    ∧ ratOf sg n d = ratOf sa n₁ d₁ + (ratOf sa n₁ d₁ - ratOf sb n₂ d₂) / 2 := by
  obtain ⟨sc, p, q, hdiff, hq, hdval⟩ := sumFin_value 0 sa (!sb) n₁ n₂ (FpFmt.decode_fin ha).2 (FpFmt.decode_fin hb).2
  obtain ⟨sg, n, d, hsum, hd, hval⟩ := sumFin_value 0 sa sc n₁ p (FpFmt.decode_fin ha).2 (Nat.mul_pos Nat.two_pos hq)
  refine ⟨sg, n, d, hd, ?_, by rw [hval, ratOf_mul_right, hdval, ratOf_not]; ring⟩
  simp [predictElem, nanOf_finite ha hb, ha, hb, hdiff, hsum, FpFmt.ofFV]

theorem withinElem_iff {abs rel : Word} {s₁ s₂ : Bool} {p q u v : Nat} (habs : fp32.decode abs.toNat = .fin s₁ p q)
    (hrel : fp32.decode rel.toNat = .fin s₂ u v) : withinElem f abs rel a b = true
      ↔ a = b ∨ |ratOf sa n₁ d₁ - ratOf sb n₂ d₂| ≤ (p : ℚ) / q + (u : ℚ) / v * |ratOf sb n₂ d₂| := by
  have hd₁ := (FpFmt.decode_fin ha).2
  have hd₂ := (FpFmt.decode_fin hb).2
  obtain ⟨hdp, hdv⟩ := addQ_value (signed sa n₁, d₁) (signed (!sb) n₂, d₂) hd₁ hd₂
  obtain ⟨hbp, hbv⟩ := addQ_value ((p : Int), q) ((u * n₂ : Nat), v * d₂) (FpFmt.decode_fin habs).2
    (Nat.mul_pos (FpFmt.decode_fin hrel).2 hd₂)
  have hdiff : ratOf sa n₁ d₁ - ratOf sb n₂ d₂ = ratOf sa n₁ d₁ + ratOf (!sb) n₂ d₂ := by rw [ratOf_not, sub_eq_add_neg]
  have hbound : (p : ℚ) / q + (u : ℚ) / v * |ratOf sb n₂ d₂| = (p : ℚ) / q + ((u * n₂ : Nat) : ℚ) / (v * d₂ : Nat) := by
    rw [abs_ratOf]; push_cast; rw [div_mul_div_comm]
  simp only [withinElem, ha, hb, habs, hrel, Bool.or_eq_true, beq_iff_eq, decide_eq_true_eq, natAbs_mul_le_iff hdp hbp]
  rw [hdv, hbv, hdiff, hbound, abs_of_nonneg (a := ((((p : Int), q).1 : Int) : ℚ) / _ + _) (by positivity)]
  simp [ratOf]

end

theorem withinElem_infinite {f : FpFmt} {a c n d : Nat} {sg : Bool} (ha : f.decode a = .fin sg n d)
    (hc : ∀ sg n d, f.decode c ≠ .fin sg n d) (abs rel : Word) :
    withinElem f abs rel a c = false ∧ withinElem f abs rel c a = false ∧ withinElem f abs rel c c = true := by
  have hne : a ≠ c := fun h => hc sg n d (h ▸ ha)
  have hcase : (∃ x, f.decode c = .nan x) ∨ ∃ x, f.decode c = .inf x := by
    cases hv : f.decode c with
    | nan x => exact .inl ⟨x, rfl⟩
    | inf x => exact .inr ⟨x, rfl⟩
    | fin sg n d => exact absurd hv (hc sg n d)
  obtain ⟨x, hx⟩ | ⟨x, hx⟩ := hcase <;> simp [withinElem, ha, hx, hne, hne.symm]

/-- Settles O51: each prediction is the rounding of an exact sum, and the test compares two exact fractions. -/
theorem predictionAndTolerance : Obligations.PredictionAndTolerance := by
  intro f _ a b sa sb n₁ d₁ n₂ d₂ ha hb val x y
  refine ⟨predictElem_last ha, predictElem_lin ha hb, predictElem_damp ha hb,
    fun c hc => ⟨predictElem_nan_right ha (by decide) hc, predictElem_nan_left (by decide) hc b⟩,
    fun abs rel s₁ s₂ p q u v habs hrel _ _ => withinElem_iff ha hb habs hrel, fun abs rel c hc => ?_⟩
  exact ⟨(withinElem_infinite ha hc abs rel).1, (withinElem_infinite hb hc abs rel).2⟩

end Sys2Proof.Machine
end

section
/-! The end of a thread, in a machine that lists its block twice (R74, R136, R257). -/

namespace Sys2Proof.Machine

/-- The views of a block after the end of a thread of it. -/
def viewsAfterEnd (s : State) (b tid : Nat) : Option (List Nat) := ((s.endThread b tid).block? b).map fun k => k.specs.map (·.vtag)

/-- Thread 0 of block 3 ends where the block table lists the block again, in a view: the record of the dirty sector, which can no
longer go home, finds the second entry and puts it in the first one's place. -/
theorem releaseListedTwice_views : viewsAfterEnd (releaseListedTwice .exit) 3 0 = some [someView.vtag] := by decide +kernel

/-- Refutes O22: its first clause has the rest of the block stand, of which no view is open, and the block that the table then lists
stands in the view of the other entry. -/
theorem not_threadEndAndHints : ¬ Obligations.ThreadEndAndHints := by
  intro h
  obtain ⟨hend, -⟩ := h
  obtain ⟨k', hk', -, -, -, -, -, -, -, -, -, hrest, -⟩ := hend (releaseListedTwice .exit) 3 0 (releaseBlock .exit) (by decide +kernel)
    (by decide +kernel) (by decide +kernel) (by decide +kernel)
  have hviews := releaseListedTwice_views
  have hspecs : k'.specs = (releaseBlock .exit).specs := (congrArg Block.specs hrest :)
  simp only [viewsAfterEnd, hk', hspecs, Option.map_some] at hviews
  revert hviews
  decide +kernel

end Sys2Proof.Machine
end

section
/-! A SPEC whose time for a Fantail slot is over, in a machine that lists its block twice (R74, R129, R131, R136). -/

namespace Sys2Proof.Machine

/-- The machine of the trap listed twice, between clauses, in which every thread of block 3 waits at a SPEC whose slot was due
at cycle 1; the second entry stands in a view. -/
def specListedTwice : State :=
  { trapListedTwice with
    issue := none
    cycle := 1
    blocks := trapListedTwice.blocks.map fun (e : Nat × Block) => (e.1, { e.2 with
      specSlot := some 1
      threads := List.replicate 4 { Thread.start with pc := 64, status := .waiting (.spec []) } }) }

/-- Block 3, as it is found first, and its grid. -/
def speculatingBlock : Block := (specListedTwice.block? 3).getD (placedBlock 1 2 4 3 0)
def speculatingGrid : Grid := (specListedTwice.gridOf 3).getD (placedGrid 1 0)

/-- The views of a block after a step. -/
def viewsAfterStep (b : Nat) (o : Out) : Option (List Nat) :=
  match o with
  | .next t => (t.block? b).map fun k => k.specs.map (·.vtag)
  | _ => none

/-- The record of the first trap of the timeout is written at once, and its interrupt goes into the outbox of the second entry, which
is put in the first one's place. -/
theorem specListedTwice_views : viewsAfterStep 3 (exec (.specSlotTimeout 3) specListedTwice) = some [someView.vtag] := by decide +kernel

/-- Refutes O52: its clause on the timeout leaves the views of the block as they were, and none was open. -/
theorem not_speculationSteps : ¬ Obligations.SpeculationSteps := by
  intro h
  obtain ⟨-, -, -, htimeout⟩ := h
  obtain ⟨-, hexpired⟩ := htimeout specListedTwice 3 speculatingBlock speculatingGrid (by decide +kernel) (by decide +kernel)
    (by decide +kernel)
  obtain ⟨t, hexec, k', hk', -, -, hspecs, -⟩ := hexpired (by decide +kernel) (by decide +kernel) (by decide +kernel)
  have hviews := specListedTwice_views
  rw [hexec] at hviews
  simp only [viewsAfterStep, hk', hspecs, Option.map_some] at hviews
  revert hviews
  decide +kernel

end Sys2Proof.Machine
end

section
/-! SUPPORT. SPEC, SPECEND, BOLT and the end of a thread (R147, R257, R271 to R273): what one lane of each does, and what it leaves
alone. -/

namespace Sys2Proof.Machine

theorem ofNat_wrap (x : Int) (w : Nat) : BitVec.ofNat w (wrap x w) = BitVec.ofInt w x := by
  apply BitVec.eq_of_toNat_eq
  rw [BitVec.toNat_ofNat, BitVec.toNat_ofInt, wrap]
  exact Nat.mod_eq_of_lt ((Int.toNat_lt (Int.emod_nonneg _ (by positivity))).mpr (Int.emod_lt_of_pos _ (by positivity)))

theorem relTarget_eq (h : Dword) (off : Int) : relTarget h off = h + BitVec.ofInt 64 (4 * off) := by
  rw [relTarget, ea, ofNat_wrap, BitVec.ofInt_add, BitVec.ofInt_natCast, BitVec.ofNat_toNat, BitVec.setWidth_eq]

/-! ## What the end of a thread leaves alone -/

theorem keeps_takeResult (s : State) (b tid : Nat) : Keeps s (s.takeResult b tid) := by
  unfold State.takeResult
  split
  · exact Keeps.refl s
  · exact keeps_ite (Keeps.refl s) (keeps_updGrid s _ _)

theorem keeps_endThread (s : State) (b tid : Nat) : Keeps s (s.endThread b tid) := by
  unfold State.endThread
  split
  · exact Keeps.refl s
  · next k _ =>
    refine Keeps.trans (Keeps.trans ?_ (keeps_flushCore _ k.core)) (keeps_updThread _ b tid _)
    exact (keeps_takeResult s b tid).trans (keeps_of_cores rfl rfl)

theorem Core.boltBin_bundles (c : Core) (b : Nat) (entry : Dword) (key : Word) : (c.boltBin b entry key).bundles = c.bundles := by
  unfold Core.boltBin
  split
  · rfl
  · dsimp only
    split <;> rfl

/-- A thread that is no holder of the block's open fork ends freely where the block is in no speculative view. -/
theorem Block.exitTrap_eq_none {k : Block} {tid : Nat} (hspecs : k.specs = []) (hfork : ∀ f, k.fork = some f → f.tid ≠ tid) :
    k.exitTrap tid = none := by
  have hnot : (k.fork.map fun f => f.tid == tid).getD false = false := by
    cases hf : k.fork with
    | none => rfl
    | some f => simpa using hfork f hf
  rw [Block.exitTrap, hnot, if_neg Bool.false_ne_true, hspecs]
  rfl

/-! ## Instructions run over their lanes -/

/-- An instruction whose lanes leave their clause as they execute it. -/
theorem does_of_out {s : State} {i : Issue} {k : Block} {ins : Instr} {F : State → Issue → Lane → LaneOut} {P : State → Lane → Prop}
    {f : State → Lane → State} (h : Issuing s i k) (he : exec ins s = .next (s.runLanes ins F)) (hc : instrCeiling ins ≠ 0)
    (hF : ∀ t l, P t l → F t i l = .out (f t l) ∧ Keeps t (f t l)) : Does s i ins P fun s l => (f s l).dropLane l.tid := by
  refine does_of_runLanes h he fun t l _ _ hp hg hgood hP => ?_
  obtain ⟨hout, hk⟩ := hF t l hP
  rw [gated_done hc hg hp, hout]
  exact ⟨rfl, rfl, leaves_dropLane hk hgood⟩

/-- BOLT on a lane that may end: its record is filed, and the thread ends. -/
theorem boltLane_ends {d a : Reg} {imm : Word} {s : State} {i : Issue} {l : Lane} {k : Block} {g : Grid} (hk : s.block? i.block = some k)
    (hg : s.gridOf i.block = some g) (hspecs : k.specs = []) (hfork : ∀ f, k.fork = some f → f.tid ≠ l.tid) :
    boltLane d a imm s i l = .out ((s.updCore k.core fun c =>
      { c.boltBin i.block (i.pc + BitVec.ofInt 64 (4 * sext imm.toNat 32)) ((k.thread l.tid).reg a.toNat) with
        bolts := c.bolts ++ [⟨i.block, l.tid, i.pc + BitVec.ofInt 64 (4 * sext imm.toNat 32), (k.thread l.tid).reg a.toNat,
          (k.thread l.tid).group d.toNat 8, (k.thread l.tid).retired + 1, s.binTime g.dl k.core⟩] }).endThread i.block l.tid) := by
  simp only [boltLane, hk, hg, Block.exitTrap_eq_none hspecs hfork, relTarget_eq]

/-- Settles O25: SPEC and SPECEND park their lanes after an arrival, and BOLT's lanes end. -/
theorem speculationAndBolt : Obligations.SpeculationAndBolt := by
  intro s i k h d a imm
  refine ⟨?spec, ?specend, ?bolt⟩
  case spec =>
    exact does_of_parked h rfl (by simp [instrCeiling]) fun t l _ => ⟨t.arriveSpec i.block l.tid, _, rfl, rfl, keeps_updBlock t i.block _, rfl⟩
  case specend =>
    refine does_of_parked h rfl (by simp [instrCeiling]) fun t l hP => ?_
    obtain ⟨k', hk, hspecs⟩ := hP
    have hopen : k'.specs.isEmpty = false := List.isEmpty_eq_false_iff.mpr hspecs
    exact ⟨t.arriveSpecend i.block l.tid, .specend, by simp [hk, hopen], rfl, keeps_updBlock t i.block _, rfl⟩
  case bolt =>
    refine does_of_out h rfl (by simp [instrCeiling]) fun t l hP => ?_
    obtain ⟨k', g, hk, hcore, hg, hspecs, hfork⟩ := hP
    have hlane := boltLane_ends (d := d) (a := a) (imm := imm) hk hg hspecs hfork
    have hth : t.thread i.block l.tid = k'.thread l.tid := by simp only [State.thread, hk]
    rw [hcore] at hlane
    simp only [hth, hg]
    refine ⟨hlane, Keeps.trans ?_ (keeps_endThread _ _ _)⟩
    exact keeps_updCore _ _ _ fun c => c.boltBin_bundles _ _ _

end Sys2Proof.Machine
end

section
/-! SUPPORT. What the operations of handles and invocations leave alone (R48, R49, R120 to R126): the clause being issued and the
bundles of the cores. -/

namespace Sys2Proof.Machine

theorem keeps_foldl_fst {α β : Type} (l : List α) (f : State × β → α → State × β) (h : ∀ p a, Keeps p.1 (f p a).1) (p : State × β) :
    Keeps p.1 (l.foldl f p).1 := by
  induction l generalizing p with
  | nil => exact Keeps.refl p.1
  | cons a l ih => exact (h p a).trans (ih (f p a))

/-! ## Handles that break -/

theorem keeps_tell (s : State) (m : Msg) : Keeps s (s.tell m) := by
  unfold State.tell
  split
  · next h => exact keeps_send h
  · exact keeps_postEvent s _ _

theorem keeps_tlComplete (s : State) (b k num : Nat) : Keeps s (s.tlComplete b k num) := keeps_updBlock s b _

theorem keeps_updForeign (s : State) (h : Dword) (f : Sluice → Sluice) : Keeps s (s.updForeign h f) := keeps_of_cores rfl rfl

theorem keeps_reclaim (s : State) (t slot : Nat) : Keeps s (s.reclaim t slot) := by
  unfold State.reclaim
  exact keeps_updTenant s t _

theorem keeps_breakHandle (fuel : Nat) (s : State) (h : Dword) (code hops : Byte) (reason : BitVec 2) :
    Keeps s (s.breakHandle fuel h code hops reason) := by
  induction fuel generalizing s h code hops with
  | zero => exact Keeps.refl s
  | succ fuel ih =>
    have chain : ∀ (ivos : List Ivo) (u : State), Keeps u (ivos.foldl (fun u v => u.breakHandle fuel v.handle code (hopUp hops) reason) u) :=
      fun ivos => keeps_foldl ivos _ fun u v => ih u v.handle code (hopUp hops)
    unfold State.breakHandle
    dsimp only
    split
    · refine keeps_ite (Keeps.refl s) (Keeps.trans (Keeps.trans ?_ (chain _ _)) (keeps_reclaim _ _ _))
      refine Keeps.trans ?_ (keeps_ite (Keeps.refl _) (keeps_tlComplete _ _ _ _))
      exact (keeps_updTenant s _ _).trans (keeps_foldl _ _ (fun u d => keeps_tell u _) _)
    · split
      · exact keeps_tell s _
      · exact ((keeps_tell s _).trans (keeps_updForeign _ _ _)).trans (chain _ _)

theorem keeps_sayHandle (s : State) (m : Msg) (h : Dword) : Keeps s (s.sayHandle m h) := by
  unfold State.sayHandle
  split
  · next hsend => exact keeps_send hsend
  · exact (keeps_tell s m).trans (keeps_breakHandle _ _ h _ 0 0)

/-! ## Invocations on their way -/

theorem keeps_tellViews (s : State) (t v d : Nat) : Keeps s (s.tellViews t v d) :=
  keeps_ite (Keeps.refl s) ((keeps_markFar s v d).trans (keeps_of_cores rfl rfl))

theorem keeps_takeTerms (s : State) (h rngD : Dword) : Keeps s (s.takeTerms h rngD).2 := by
  unfold State.takeTerms
  dsimp only
  exact keeps_updTenant s _ _

theorem keeps_askRoot (s : State) (t va n : Nat) : Keeps s (s.askRoot t va n) := by
  refine keeps_foldl _ _ (fun u p => keeps_ite (Keeps.refl u) ?_) s
  split
  · next h => exact keeps_ownRequest h
  · exact keeps_of_cores rfl rfl

theorem keeps_createTask (s : State) (h kernel : Dword) (args extra : List Word) (on : Option Dword) (die : Option Nat) (w : Terms) :
    Keeps s (s.createTask h kernel args extra on die w) := by
  have fails : ∀ (u : State) (code : Nat), Keeps u (u.breakHandle chainFuel h (BitVec.ofNat 8 code) 0 0) :=
    fun u code => keeps_breakHandle _ u h _ 0 0
  have forgets : Keeps s (s.forgetRoot (hTenant h) kernel.toNat 64) := keeps_of_cores rfl rfl
  unfold State.createTask
  dsimp only
  refine keeps_ite (Keeps.refl s) (keeps_ite (fails s _) (keeps_ite ?asks ?reads))
  case asks => exact (keeps_askRoot s _ _ _).trans (keeps_of_cores rfl rfl)
  case reads =>
    split
    · exact (forgets.trans (keeps_postEvent _ _ _)).trans (fails _ _)
    · split
      · exact forgets.trans (fails _ _)
      · exact keeps_ite (forgets.trans (fails _ _)) (forgets.trans (keeps_of_cores rfl rfl))

theorem keeps_forwardIvo (s : State) (h : Dword) (v : Ivo) (place : BitVec 10 × Nat) (result : Option (List Word)) :
    Keeps s (s.forwardIvo h v place result).1 := by
  unfold State.forwardIvo
  split
  · exact Keeps.refl s
  · split
    · split
      · dsimp only
        exact keeps_createTask s _ _ _ _ _ _ _
      · exact Keeps.refl s
    · exact (keeps_tellViews s _ _ _).trans (keeps_sayHandle _ _ _)

theorem keeps_releaseIvos (s : State) (h : Dword) : Keeps s (s.releaseIvos h) := by
  unfold State.releaseIvos
  split
  · exact Keeps.refl s
  · next e _ =>
    split
    · exact Keeps.refl s
    · next p _ =>
      refine (keeps_foldl_fst e.ivos _ (fun acc v => ?_) (s, [])).trans
        (keeps_ite ((keeps_updTenant _ _ _).trans (keeps_reclaim _ _ _)) (keeps_updForeign _ _ _))
      exact keeps_forwardIvo acc.1 h v p _

theorem keeps_addIvo (s : State) (h : Dword) (v : Ivo) : Keeps s (s.addIvo h v) := by
  unfold State.addIvo
  split
  · exact keeps_breakHandle _ s _ _ _ _
  · exact keeps_ite (keeps_breakHandle _ s _ _ _ _) (keeps_ite (keeps_breakHandle _ s _ _ _ _)
      (Keeps.trans (keeps_ite (keeps_updTenant s _ _) (keeps_updForeign s h _)) (keeps_releaseIvos _ h)))

theorem keeps_sendInvoke (s : State) (h : Dword) (target : Word) (kernel : Dword) (args : List Word) (rngD : Dword) :
    Keeps s (s.sendInvoke h target kernel args rngD) := by
  refine (keeps_takeTerms s h rngD).trans (keeps_ite (keeps_createTask _ _ _ _ _ _ _ _) ?_)
  exact (keeps_tellViews _ _ _ _).trans (keeps_sayHandle _ _ _)

theorem keeps_sendInvokeOn (s : State) (h' h kernel : Dword) (args : List Word) (rngD : Dword) :
    Keeps s (s.sendInvokeOn h' h kernel args rngD) := by
  refine (keeps_takeTerms s h' rngD).trans (keeps_ite (keeps_addIvo _ _ _) ?_)
  exact (keeps_tellViews _ _ _ _).trans (keeps_sayHandle _ _ _)

theorem keeps_allocHandle (s : State) (b slot : Nat) (held : Bool) (on_ : Option Dword) : Keeps s (s.allocHandle b slot held on_).2 := by
  unfold State.allocHandle
  split
  · dsimp only
    refine Keeps.trans (t := (s.tlPosted b 3).2) ?_ (keeps_updTenant _ _ _)
    unfold State.tlPosted
    split
    · exact Keeps.refl s
    · exact keeps_of_cores rfl rfl
  · exact Keeps.refl s

theorem keeps_makeCall (s : State) (b tid slot : Nat) (d : Reg) (c : Call) (kernel : Dword) (args : List Word) (rngD : Dword) :
    Keeps s (s.makeCall b tid slot d c kernel args rngD) := by
  unfold State.makeCall
  split
  · exact Keeps.refl s
  · dsimp only
    have made := fun held on_ f => (keeps_allocHandle s b slot held on_).trans (keeps_updThread _ b tid f)
    split
    · exact (made _ _ _).trans (keeps_updBlock _ b _)
    · split
      · exact (made _ _ _).trans (keeps_sendInvoke _ _ _ _ _ _)
      · exact (made _ _ _).trans (keeps_sendInvokeOn _ _ _ _ _ _)

/-! ## Handles as threads ask about them -/

theorem keeps_homeless (s : State) (b tid : Nat) (pc h : Dword) : Keeps s (s.homeless b tid pc h).1 := keeps_postEvent s _ _

theorem keeps_askHome {s u : State} {h : Dword} {k : Asking} {what : RemoteFor} {tag : Word} (hask : s.askHome h k what = some (u, tag)) :
    Keeps s u := by
  obtain ⟨v, hv, heq⟩ := Option.map_eq_some_iff.mp hask
  cases heq
  exact ((keeps_newTag s).trans (keeps_send hv)).trans (keeps_of_cores rfl rfl)

/-- The question that a thread asks is entered among those outstanding. -/
theorem askHome_remotes {s u : State} {h : Dword} {k : Asking} {what : RemoteFor} {tag : Word} (hask : s.askHome h k what = some (u, tag)) :
    ∃ r ∈ u.fabric.remotes, r.tag = tag ∧ r.what = what ∧ r.dst = hHome h := by
  obtain ⟨v, -, heq⟩ := Option.map_eq_some_iff.mp hask
  cases heq
  exact ⟨_, List.mem_append_right _ (List.mem_singleton_self _), rfl, rfl, rfl⟩

theorem keeps_dropHandle (s : State) (h : Dword) : Keeps s (s.dropHandle h) :=
  keeps_ite (keeps_ite (Keeps.refl s) ((keeps_updTenant s _ _).trans (keeps_reclaim _ _ _))) (keeps_tell s _)

end Sys2Proof.Machine
end

section
/-! SUPPORT. One lane of INVOKE, INVOKE.ON, AWAIT, HPOLL and HDROP (R265 to R270). -/

namespace Sys2Proof.Machine

/-! ## Invocations -/

theorem Thread.getElem?_group (th : Thread) {r n j : Nat} (hr : r ≠ 255) (hj : j < n) : (th.group r n)[j]? = some (th.reg (r + j)) := by
  simp [Thread.group, hr, hj]

theorem argWords_length (th : Thread) (c : Reg) (n : Nat) : (argWords th c n).length = 8 := by
  simp [argWords]

theorem argWords_getElem? (th : Thread) {c : Reg} (n : Nat) {j : Nat} (hj : j < 8) (hc : c.toNat ≤ 247) :
    (argWords th c n)[j]? = some (if j < n then th.reg (c.toNat + j) else 0) := by
  have hlen : ((th.group c.toNat 8).take n).length = min n 8 := by simp [Thread.group]
  rw [argWords, List.getElem?_take_of_lt hj]
  split
  · next hn =>
    rw [List.getElem?_append_left (by rw [hlen]; omega), List.getElem?_take_of_lt hn, th.getElem?_group (by omega) hj]
  · rw [List.getElem?_append_right (by rw [hlen]; omega), hlen, List.getElem?_replicate, if_pos (by omega)]

section

variable {s : State} {i : Issue} {l : Lane} {k : Block} {d a b c : Reg} {call : Thread → Call} {n : Nat} {on_ : Bool}
  (hk : s.block? i.block = some k) (hlegal : s.callTrap k ((k.thread l.tid).pair (if on_ then b else a).toNat) (call (k.thread l.tid)) = none)
include hk hlegal

/-- An invocation at DL0 with a slot granted is made. -/
theorem callLane_made (hdl : s.dl0 i.block = true) (hgranted : s.slotGranted i.block l.tid = true) {slot : Nat}
    (hslot : s.freeSlot k.tenant = some slot) : callLane d a b call c n on_ s i l
      = .done (s.makeCall i.block l.tid slot d (call (k.thread l.tid)) ((k.thread l.tid).pair (if on_ then b else a).toNat)
          (argWords (k.thread l.tid) c n) (k.rngD l.tid)) := by
  simp only [callLane, hk, hlegal, hdl, hgranted, hslot, Bool.not_true, Bool.false_eq_true, if_false, if_true]

/-- One without a slot waits for it from its first attempt on. -/
theorem callLane_waits (hdl : s.dl0 i.block = true) (hgranted : s.slotGranted i.block l.tid = false) :
    callLane d a b call c n on_ s i l
      = .wait (s.updThread i.block l.tid fun th => { th with
          slotSince := some ((k.thread l.tid).slotSince.getD (s.cycle, l.lane, s.deadline i.block k.sto)) })
        (.slot ((k.thread l.tid).slotSince.getD (s.cycle, l.lane, s.deadline i.block k.sto)).2.2) := by
  simp only [callLane, hk, hlegal, hdl, hgranted, Bool.not_true, Bool.false_eq_true, if_false]

/-- One above DL0 is held for the turn boundary. -/
theorem callLane_held (hdl : s.dl0 i.block = false) : callLane d a b call c n on_ s i l
      = .wait (s.addEffect i.block l.tid i.at ((call (k.thread l.tid)).effect d ((k.thread l.tid).pair (if on_ then b else a).toNat)
          (argWords (k.thread l.tid) c n) (k.rngD l.tid))) .boundary := by
  simp only [callLane, hk, hlegal, hdl, Bool.not_false, if_true]

end

/-! ## AWAIT -/

section

variable {s : State} {i : Issue} {l : Lane} {k : Block} {d a : Reg} {pb : PredNo} {trap : Bool} (hk : s.block? i.block = some k)
  (hlegal : s.awaitTrap k ((k.thread l.tid).pair a.toNat) = none)
include hk hlegal

theorem awaitLane_waits (hhome : hHome ((k.thread l.tid).pair a.toNat) = s.fabric.devid)
    (hview : s.dl0 i.block = false ∨ s.handleView ((k.thread l.tid).pair a.toNat) = .notReady) :
    awaitLane d a pb trap s i l = .wait s (.awaitH ((k.thread l.tid).pair a.toNat) d pb trap []) := by
  simp only [awaitLane, hk, hlegal, hhome, bne_self_eq_false, Bool.false_eq_true, if_false]
  obtain hdl | hview := hview
  · rw [hdl]; rfl
  · rw [hview]
    split <;> rfl

theorem awaitLane_ready (hhome : hHome ((k.thread l.tid).pair a.toNat) = s.fabric.devid) (hdl : s.dl0 i.block = true) {r : List Word}
    (hview : s.handleView ((k.thread l.tid).pair a.toNat) = .ready r) : awaitLane d a pb trap s i l
      = .done (((s.learn i.block (match s.entryOf ((k.thread l.tid).pair a.toNat) with | some e => e.knows | none => [])).acquire
          i.block 4).updThread i.block l.tid fun th => (th.setGroup d.toNat r).setPred pb.toNat false) := by
  simp only [awaitLane, hk, hlegal, hhome, hdl, hview, bne_self_eq_false, Bool.false_eq_true, if_false, Bool.not_true] <;> rfl

theorem awaitLane_broken (hhome : hHome ((k.thread l.tid).pair a.toNat) = s.fabric.devid) (hdl : s.dl0 i.block = true) {st : Word}
    (hview : s.handleView ((k.thread l.tid).pair a.toNat) = .broken st) : awaitLane d a pb false s i l
      = .done (s.updThread i.block l.tid fun th => (th.setGroup d.toNat (st :: List.replicate 7 0)).setPred pb.toNat true) := by
  simp only [awaitLane, hk, hlegal, hhome, hdl, hview, bne_self_eq_false, Bool.false_eq_true, if_false, Bool.not_true, brokenOctet]

theorem awaitLane_asks (hhome : hHome ((k.thread l.tid).pair a.toNat) ≠ s.fabric.devid) {u : State} {tag : Word}
    (hask : s.askHome ((k.thread l.tid).pair a.toNat) .await (.await i.block l.tid) = some (u, tag)) :
    awaitLane d a pb trap s i l = .wait u (.awaitH ((k.thread l.tid).pair a.toNat) d pb trap []) := by
  simp only [awaitLane, hk, hlegal, bne_iff_ne.mpr hhome, if_true, hask, HView.words]

theorem awaitLane_homeless (hhome : hHome ((k.thread l.tid).pair a.toNat) ≠ s.fabric.devid)
    (hask : s.askHome ((k.thread l.tid).pair a.toNat) .await (.await i.block l.tid) = none) :
    awaitLane d a pb trap s i l = .wait (s.homeless i.block l.tid i.at ((k.thread l.tid).pair a.toNat)).1
      (.awaitH ((k.thread l.tid).pair a.toNat) d pb trap [statusWord (BitVec.ofNat 8 cINTEG) 0 0]) := by
  simp only [awaitLane, hk, hlegal, bne_iff_ne.mpr hhome, if_true, hask]
  rfl

end

/-! ## HPOLL -/

/-- HPOLL on one lane. -/
def hpollLane (d a : Reg) (s : State) (i : Issue) (l : Lane) : LaneOut :=
  match s.block? i.block with
  | none => .done s
  | some k =>
    let h := (k.thread l.tid).pair a.toNat
    match s.awaitTrap k h with
    | some t => .trap t
    | none =>
      if hHome h == s.fabric.devid then
        .done (s.updThread i.block l.tid fun th => th.setReg d.toNat (s.handleView h).polled)
      else match s.askHome h .poll (.poll i.block l.tid d.toNat) with
        | some (s, tag) => .wait s (.remote tag)
        | none =>
          let (s, v) := s.homeless i.block l.tid i.at h
          .done (s.updThread i.block l.tid fun th => th.setReg d.toNat v.polled)

theorem exec_hpoll (d a : Reg) (s : State) : exec (.hpoll d a) s = .next (s.runLanes (.hpoll d a) (hpollLane d a)) := rfl

/-- The event of an instruction changes its grid alone. -/
theorem threadEvent_frame (s : State) (b tid : Nat) (code : Byte) (pc : Dword) :
    s.threadEvent b tid code pc = { s with grids := (s.threadEvent b tid code pc).grids } := by
  have upd : ∀ (n : Nat) (f : Grid → Grid), s.updGrid n f = { s with grids := (s.updGrid n f).grids } := by
    intro n f
    unfold State.updGrid
    split <;> rfl
  unfold State.threadEvent
  split
  · rfl
  · next k hk =>
    split
    · rfl
    · split
      · exact upd _ _
      · simp only [State.addEffect, hk]
        exact upd _ _

theorem threadEvent_block? (s : State) (b tid : Nat) (code : Byte) (pc : Dword) (x : Nat) :
    (s.threadEvent b tid code pc).block? x = s.block? x := by
  rw [threadEvent_frame]
  rfl

theorem threadEvent_fabric (s : State) (b tid : Nat) (code : Byte) (pc : Dword) : (s.threadEvent b tid code pc).fabric = s.fabric := by
  rw [threadEvent_frame]

/-- What a thread may name does not depend on the grids. -/
theorem awaitTrap_of_grids {s u : State} (h : u = { s with grids := u.grids }) (k : Block) (x : Dword) : u.awaitTrap k x = s.awaitTrap k x := by
  have within : ∀ (fuel : Nat) (p : Nat → Bool) (v : Nat), u.viewWithin p fuel v = s.viewWithin p fuel v := by
    intro fuel p
    induction fuel with
    | zero => intro v; rfl
    | succ fuel ih =>
      intro v
      have hviews : u.views = s.views := (congrArg State.views h :)
      simp only [State.viewWithin, hviews, ih]
  have hheld : u.heldByView k x = s.heldByView k x := by
    unfold State.heldByView
    rw [within, h]
    rfl
  have hhandle : u.handleTrap k.tenant x = s.handleTrap k.tenant x := by rw [h]; rfl
  rw [State.awaitTrap, State.awaitTrap, hhandle, hheld]

section

variable {s : State} {i : Issue} {l : Lane} {k : Block} {d a : Reg} (hk : s.block? i.block = some k)
  (hlegal : s.awaitTrap k ((k.thread l.tid).pair a.toNat) = none)
include hk hlegal

theorem hpollLane_here (hhome : hHome ((k.thread l.tid).pair a.toNat) = s.fabric.devid) : hpollLane d a s i l
      = .done (s.updThread i.block l.tid fun th => th.setReg d.toNat (s.handleView ((k.thread l.tid).pair a.toNat)).polled) := by
  simp only [hpollLane, hk, hlegal, hhome, beq_self_eq_true, if_true]

theorem hpollLane_asks (hhome : hHome ((k.thread l.tid).pair a.toNat) ≠ s.fabric.devid) {u : State} {tag : Word}
    (hask : s.askHome ((k.thread l.tid).pair a.toNat) .poll (.poll i.block l.tid d.toNat) = some (u, tag)) :
    hpollLane d a s i l = .wait u (.remote tag) := by
  simp only [hpollLane, hk, hlegal, beq_eq_false_iff_ne.mpr hhome, Bool.false_eq_true, if_false, hask]

theorem hpollLane_homeless (hhome : hHome ((k.thread l.tid).pair a.toNat) ≠ s.fabric.devid)
    (hask : s.askHome ((k.thread l.tid).pair a.toNat) .poll (.poll i.block l.tid d.toNat) = none) : hpollLane d a s i l
      = .done ((s.homeless i.block l.tid i.at ((k.thread l.tid).pair a.toNat)).1.updThread i.block l.tid fun th =>
          th.setReg d.toNat (0x80000000 ||| statusWord (BitVec.ofNat 8 cINTEG) 0 0)) := by
  simp only [hpollLane, hk, hlegal, beq_eq_false_iff_ne.mpr hhome, Bool.false_eq_true, if_false, hask]
  rfl

end

/-! ## HDROP -/

/-- HDROP on one lane. -/
def hdropLane (a : Reg) (s : State) (i : Issue) (l : Lane) : LaneOut :=
  match s.block? i.block with
  | none => .done s
  | some k =>
    let h := (k.thread l.tid).pair a.toNat
    match s.handleTrap k.tenant h with
    | some t => .trap t
    | none =>
      let s' := s.dropHandle h
      .done (if s.freeSlots k.tenant < s'.freeSlots k.tenant then
        s'.updGrid k.grid fun g => { g with ownFreed := g.ownFreed + 1 } else s')

theorem exec_hdrop (a : Reg) (s : State) : exec (.hdrop a) s = .next (s.runLanes (.hdrop a) (hdropLane a)) := rfl

theorem hdropLane_drops {s : State} {i : Issue} {l : Lane} {k : Block} {a : Reg} (hk : s.block? i.block = some k)
    (hlegal : s.handleTrap k.tenant ((k.thread l.tid).pair a.toNat) = none) : hdropLane a s i l
      = .done (if s.freeSlots k.tenant < (s.dropHandle ((k.thread l.tid).pair a.toNat)).freeSlots k.tenant then
          (s.dropHandle ((k.thread l.tid).pair a.toNat)).updGrid k.grid fun g => { g with ownFreed := g.ownFreed + 1 }
        else s.dropHandle ((k.thread l.tid).pair a.toNat)) := by
  simp only [hdropLane, hk, hlegal]

/-! ## Instructions above whose ceiling an event is recorded -/

/-- A lane of an instruction of ceiling 0 that passes the tests records its event first (R91). -/
theorem gated_event {ins : Instr} {F : State → Issue → Lane → LaneOut} {t : State} {i : Issue} {l : Lane} (hc : instrCeiling ins = 0)
    (hg : t.gate i l ins = none) (hp : l.pred = true) : gated ins F t i l = F (t.threadEvent i.block l.tid 0x03 i.at) i l := by
  simp only [gated, hg, hp, hc, beq_self_eq_true, Bool.and_self, if_true]
  rfl

section
variable {s : State} {i : Issue} {k : Block} {ins : Instr} {F : State → Issue → Lane → LaneOut}
  {P Q : State → Lane → Prop} {f g : State → Lane → State}

theorem settled_event {n : Nat} {t : State} {l : Lane} (hc : instrCeiling ins = 0) (hp : l.pred = true) (hg : t.gate i l ins = none)
    (hgood : Good i t) (hd : F (t.threadEvent i.block l.tid 0x03 i.at) i l = .done (f t l))
    (hk : Keeps (t.threadEvent i.block l.tid 0x03 i.at) (f t l)) :
    (t.settleLane i l n (gated ins F t i l)).1 = f t l
      ∧ ((t.settleLane i l n (gated ins F t i l)).2 && instrOrders ins) = false ∧ Leaves i l t (f t l) := by
  rw [gated_event hc hg hp, hd]
  exact ⟨rfl, rfl, ((keeps_threadEvent t i.block l.tid 0x03 i.at).trans hk).leaves hgood⟩

theorem does_of_event (h : Issuing s i k) (he : exec ins s = .next (s.runLanes ins F)) (hc : instrCeiling ins = 0)
    (hF : ∀ t l, P t l → F (t.threadEvent i.block l.tid 0x03 i.at) i l = .done (f t l)
      ∧ Keeps (t.threadEvent i.block l.tid 0x03 i.at) (f t l)) : Does s i ins P f :=
  does_of_runLanes h he fun t l _ _ hp hg hgood hP => settled_event hc hp hg hgood (hF t l hP).1 (hF t l hP).2

theorem stops_of_event (h : Issuing s i k) (he : exec ins s = .next (s.runLanes ins F)) (hc : instrCeiling ins = 0)
    (hF : ∀ t l, P t l → F (t.threadEvent i.block l.tid 0x03 i.at) i l = .done (f t l)
      ∧ Keeps (t.threadEvent i.block l.tid 0x03 i.at) (f t l))
    (hG : ∀ t l, Q t l → ∃ u w, F (t.threadEvent i.block l.tid 0x03 i.at) i l = .wait u w ∧ w.pauses (u.dl0 i.block) = true
      ∧ g t l = u.pauseAt i l (i.pos + wordsOf ins) (.waiting w)) : Stops s i ins P f Q g := by
  intro ls l rest hl hs hp ha hgate hQ
  rw [he]
  refine congrArg _ (stops_runLanes h.clause h.lanes h.good
    (fun t l _ _ hp hg hgood hP => settled_event hc hp hg hgood (hF t l hP).1 (hF t l hP).2) (fun t l _ hp hg _ hQ => ?_)
    hl hs hp ha hgate hQ)
  obtain ⟨u, w, hw, hpause, hgl⟩ := hG t l hQ
  rw [gated_event hc hg hp, hw, hgl]
  simp only [State.settleLane, hpause, if_true]
  exact ⟨trivial, issue_pauseAt u i l _ _⟩

end

/-! ## The statement -/

theorem State.thread_of_block {s : State} {b : Nat} {k : Block} (h : s.block? b = some k) (tid : Nat) : s.thread b tid = k.thread tid := by
  rw [State.thread, h]

/-- Settles O24: each clause is the equation of one lane, which keeps the clause that it runs in. -/
theorem invocationAndHandleResults : Obligations.InvocationAndHandleResults := by
  refine ⟨fun s i k h d a b c n => ?calls, fun s i k h d a pb trap => ?handles⟩
  case calls =>
    intro th D form
    have call : ∀ (ins : Instr) (cl : Thread → Call) (on_ : Bool), wordsOf ins = 2 → instrCeiling ins ≠ 0 →
        (∀ s, exec ins s = .next (s.runLanes ins (callLane d a b cl c n.toNat on_))) →
        form ins cl (fun th => th.pair (if on_ then b else a).toNat) := by
      intro ins cl on_ hwords hc he
      refine ⟨does_of_done h (he s) hc ?made, does_of_parked h (he s) hc ?waits, does_of_parked h (he s) hc ?held⟩
      case made =>
        rintro t l ⟨⟨k', hk, htenant, hsto, hlegal⟩, hdl, hgranted, slot, hslot⟩
        simp only [th, D, State.thread_of_block hk, hk, hslot] at hlegal ⊢
        exact ⟨callLane_made hk hlegal hdl hgranted (htenant ▸ hslot), keeps_makeCall _ _ _ _ _ _ _ _ _⟩
      case waits =>
        rintro t l ⟨⟨k', hk, htenant, hsto, hlegal⟩, hdl, hgranted⟩
        simp only [th, State.thread_of_block hk, ← hsto] at hlegal ⊢
        exact ⟨_, _, callLane_waits hk hlegal hdl hgranted, rfl, keeps_updThread _ _ _ _, by rw [hwords]⟩
      case held =>
        rintro t l ⟨⟨k', hk, htenant, hsto, hlegal⟩, hdl⟩
        simp only [th, D, State.thread_of_block hk, hk] at hlegal ⊢
        exact ⟨_, _, callLane_held hk hlegal hdl, rfl, keeps_addEffect _ _ _ _ _, by rw [hwords]⟩
    exact ⟨call (.invoke d a b c n) _ false rfl (by simp [instrCeiling]) fun _ => rfl,
      call (.invokeOn d a b c n) _ true rfl (by simp [instrCeiling]) fun _ => rfl,
      fun th => ⟨argWords_length th c n.toNat, fun j hj hc => argWords_getElem? th n.toNat hj hc⟩⟩
  case handles =>
    intro x legal ins here ask wait
    have hc : instrCeiling ins ≠ 0 := by simp [ins, instrCeiling]
    have hlater : ∀ {t : State} {l : Lane} {k' : Block}, t.block? i.block = some k' →
        (t.threadEvent i.block l.tid 0x03 i.at).block? i.block = some k' := fun hk => (threadEvent_block? _ _ _ _ _ _).trans hk
    have hnamed : ∀ {t : State} {l : Lane} {k' : Block} {y : Dword}, t.awaitTrap k' y = none →
        (t.threadEvent i.block l.tid 0x03 i.at).awaitTrap k' y = none := fun hy =>
      (awaitTrap_of_grids (threadEvent_frame _ _ _ _ _) _ _).trans hy
    refine ⟨does_of_parked h rfl hc ?waits, does_of_done h rfl hc ?ready, fun htrap => does_of_done h rfl hc ?broken,
      does_of_parked h rfl hc ?asks, does_of_parked h rfl hc ?homeless, does_of_event h (exec_hpoll d a s) rfl ?polled,
      ⟨does_of_event h (exec_hpoll d a s) rfl ?lost, stops_of_event h (exec_hpoll d a s) rfl ?lost ?pauses⟩,
      fun s h k what t tag hask => askHome_remotes hask, does_of_done h (exec_hdrop a s) (by simp [instrCeiling]) ?drops⟩
    case waits =>
      rintro t l ⟨⟨k', hk, -, -, hlegal⟩, hhome, hview⟩
      simp only [x, here, wait, State.thread_of_block hk] at hlegal hhome hview ⊢
      exact ⟨_, _, awaitLane_waits hk hlegal hhome hview, rfl, Keeps.refl t, rfl⟩
    case ready =>
      rintro t l ⟨⟨k', hk, -, -, hlegal⟩, hhome, hdl, r, hview⟩
      simp only [x, here, State.thread_of_block hk] at hlegal hhome hview ⊢
      simp only [hview]
      exact ⟨awaitLane_ready hk hlegal hhome hdl hview,
        ((keeps_updBlock t _ _).trans (keeps_acquire _ _ _)).trans (keeps_updThread _ _ _ _)⟩
    case broken =>
      rintro t l ⟨⟨k', hk, -, -, hlegal⟩, hhome, hdl, st, hview⟩
      simp only [x, here, State.thread_of_block hk] at hlegal hhome hview ⊢
      simp only [hview, htrap]
      exact ⟨awaitLane_broken hk hlegal hhome hdl hview, keeps_updThread _ _ _ _⟩
    case asks =>
      rintro t l ⟨⟨k', hk, -, -, hlegal⟩, hhome, hask⟩
      obtain ⟨⟨u, tag⟩, hask⟩ := Option.isSome_iff_exists.mp hask
      simp only [x, here, ask, wait, State.thread_of_block hk] at hlegal hhome hask ⊢
      simp only [hask]
      exact ⟨_, _, awaitLane_asks hk hlegal hhome hask, rfl, keeps_askHome hask, rfl⟩
    case homeless =>
      rintro t l ⟨⟨k', hk, -, -, hlegal⟩, hhome, hask⟩
      simp only [x, here, ask, wait, State.thread_of_block hk] at hlegal hhome hask ⊢
      exact ⟨_, _, awaitLane_homeless hk hlegal hhome hask, rfl, keeps_homeless _ _ _ _ _, rfl⟩
    case polled =>
      rintro t l ⟨⟨k', hk, -, -, hlegal⟩, hhome⟩
      simp only [x, here, State.thread_of_block hk] at hlegal hhome ⊢
      exact ⟨hpollLane_here (hlater hk) (hnamed hlegal) (by rwa [threadEvent_fabric]), keeps_updThread _ _ _ _⟩
    case lost =>
      rintro t l ⟨⟨k', hk, -, -, hlegal⟩, hhome, hask⟩
      simp only [x, here, State.thread_of_block hk] at hlegal hhome hask ⊢
      exact ⟨hpollLane_homeless (hlater hk) (hnamed hlegal) (by rwa [threadEvent_fabric]) hask,
        (keeps_homeless _ _ _ _ _).trans (keeps_updThread _ _ _ _)⟩
    case pauses =>
      rintro t l ⟨⟨k', hk, -, -, hlegal⟩, hhome, hask⟩
      obtain ⟨⟨u, tag⟩, hask⟩ := Option.isSome_iff_exists.mp hask
      simp only [x, here, State.thread_of_block hk] at hlegal hhome hask ⊢
      simp only [hask]
      exact ⟨u, _, hpollLane_asks (hlater hk) (hnamed hlegal) (by rwa [threadEvent_fabric]) hask, rfl, rfl⟩
    case drops =>
      rintro t l ⟨k', hk, htenant, hgrid, hlegal⟩
      simp only [x, State.thread_of_block hk, ← htenant, ← hgrid] at hlegal ⊢
      exact ⟨hdropLane_drops hk hlegal, keeps_ite ((keeps_dropHandle _ _).trans (keeps_updGrid _ _ _)) (keeps_dropHandle _ _)⟩

end Sys2Proof.Machine
end
section
/-! SUPPORT. The drain of a BOLT bin (R148): records go only to threads that have exited, and everything else of the block stands. -/

namespace Sys2Proof.Machine

/-! ## Live threads stand -/

/-- Between two machines, block b keeps its threads in number and each that has not exited as it is; other blocks and the memory stand. -/
structure LivesOn (b : Nat) (s u : State) : Prop where
  mem : u.mem = s.mem
  others : ∀ x, x ≠ b → u.block? x = s.block? x
  block : ∀ k, s.block? b = some k → ∃ k', u.block? b = some k' ∧ k'.T = k.T ∧ ∀ tid, (k.thread tid).exited = false → k'.thread tid = k.thread tid

section
variable {s t u : State} {b : Nat}

theorem LivesOn.refl (b : Nat) (s : State) : LivesOn b s s := ⟨rfl, fun _ _ => rfl, fun k hk => ⟨k, hk, rfl, fun _ _ => rfl⟩⟩

theorem LivesOn.trans (h : LivesOn b s t) (h' : LivesOn b t u) : LivesOn b s u := by
  refine ⟨h'.mem.trans h.mem, fun x hx => (h'.others x hx).trans (h.others x hx), fun k hk => ?_⟩
  obtain ⟨k₁, hk₁, hT₁, hl₁⟩ := h.block k hk
  obtain ⟨k₂, hk₂, hT₂, hl₂⟩ := h'.block k₁ hk₁
  exact ⟨k₂, hk₂, hT₂.trans hT₁, fun tid ht => (hl₂ tid (by rw [hl₁ tid ht]; exact ht)).trans (hl₁ tid ht)⟩

end

theorem livesOn_updCore (b : Nat) (s : State) (c : Nat) (f : Core → Core) : LivesOn b s (s.updCore c f) :=
  ⟨rfl, fun _ _ => rfl, fun k hk => ⟨k, hk, rfl, fun _ _ => rfl⟩⟩

theorem livesOn_updBlock (s : State) (b : Nat) (f : Block → Block) (hT : ∀ k, (f k).T = k.T)
    (hf : ∀ k, s.block? b = some k → ∀ tid, (k.thread tid).exited = false → (f k).thread tid = k.thread tid) : LivesOn b s (s.updBlock b f) := by
  refine ⟨?_, fun x hx => State.block?_updBlock_ne s b x f hx, fun k hk => ⟨f k, State.block?_updBlock s b f k hk, hT k, hf k hk⟩⟩
  unfold State.updBlock
  split <;> rfl

/-- What holds of each step of a fold holds of the fold. -/
theorem livesOn_foldl {α : Type} {b : Nat} (l : List α) (f : State → α → State) (h : ∀ s a, LivesOn b s (f s a)) (s : State) :
    LivesOn b s (l.foldl f s) := by
  induction l generalizing s with
  | nil => exact LivesOn.refl b s
  | cons a l ih => exact (h s a).trans (ih _)

theorem livesOn_fileQuad (b q : Nat) (s : State) : LivesOn b s (s.fileQuad b q) := by
  unfold State.fileQuad
  split
  · split
    · exact LivesOn.refl b s
    · split
      · exact LivesOn.refl b s
      · exact (livesOn_updCore b s _ _).trans (livesOn_updBlock _ b _ (fun _ => rfl) fun _ _ _ _ => rfl)
  · exact LivesOn.refl b s

theorem livesOn_fileQuads (b : Nat) (qs : List Nat) (s : State) : LivesOn b s (s.fileQuads b qs) :=
  livesOn_foldl _ _ (fun s q => livesOn_fileQuad b q s) s

/-! ## The threads of a quad -/

theorem Block.length_quadThreads (k : Block) (q : Nat) : (k.quadThreads q).length ≤ 4 :=
  (List.length_filterMap_le _ _).trans (by simp)

theorem Block.lt_of_mem_quadThreads {k : Block} {q tid : Nat} (h : tid ∈ k.quadThreads q) : tid < k.T := by
  simp only [Block.quadThreads, List.mem_filterMap, List.mem_range, Option.ite_none_right_eq_some, Option.some.injEq] at h
  obtain ⟨i, -, hi, rfl⟩ := h
  exact hi

theorem Block.nodup_quadThreads (k : Block) (q : Nat) : (k.quadThreads q).Nodup := by
  refine List.Nodup.filterMap (fun i j t hi hj => ?_) List.nodup_range
  simp only [Option.mem_def, Option.ite_none_right_eq_some, Option.some.injEq] at hi hj
  omega

/-- The quads into which a bin is drained have only threads that have exited. -/
theorem State.exited_of_mem_freeQuads {s : State} {b : Nat} {k : Block} {q : Nat} (h : q ∈ s.freeQuads b k) {tid : Nat}
    (ht : tid ∈ k.quadThreads q) : (k.thread tid).exited = true := by
  have hq : k.quadExited q = true := by
    simp only [State.freeQuads] at h
    split at h
    · exact (List.mem_filter.mp h).2
    · exact (List.mem_filter.mp (List.mem_filter.mp h).1).2
  exact List.all_eq_true.mp hq tid ht

/-! ## Records put into a quad -/

/-- As many records as a list has threads are all that a zip with it takes. -/
theorem zip_take_length {α β : Type} (l : List α) (m : List β) : l.zip (m.take l.length) = l.zip m := by
  rw [List.zip_eq_zip_take_min (l₁ := l) (l₂ := m), List.zip_eq_zip_take_min (l₂ := m.take l.length)]
  simp [List.take_take]

theorem nodup_map_fst_zip {α β : Type} {l : List α} (h : l.Nodup) (m : List β) : ((l.zip m).map (·.1)).Nodup := by
  rw [List.zip_eq_zip_take_min]
  have hl : (l.take (min l.length m.length)).length ≤ (m.take (min l.length m.length)).length := by simp
  rw [show (fun p : α × β => p.1) = Prod.fst from rfl, List.map_fst_zip hl]
  exact h.sublist (List.take_sublist _ l)

/-- Each of the threads named gets its record, the others stand. -/
def Block.relaunched (k : Block) (l : List (Nat × BoltRec)) : Block := l.foldl (fun k e => k.updThread e.1 fun th => th.relaunched e.2) k

theorem Block.T_relaunched (l : List (Nat × BoltRec)) (k : Block) : (k.relaunched l).T = k.T := by
  induction l generalizing k with
  | nil => rfl
  | cons e l ih => exact (ih _).trans (Block.T_setThread k e.1 _)

theorem Block.thread_relaunched_ne (l : List (Nat × BoltRec)) (k : Block) {tid : Nat} (h : tid ∉ l.map (·.1)) :
    (k.relaunched l).thread tid = k.thread tid := by
  induction l generalizing k with
  | nil => rfl
  | cons e l ih =>
    simp only [List.map_cons, List.mem_cons, not_or] at h
    exact (ih _ h.2).trans (Block.thread_setThread_ne k e.1 tid _ h.1)

theorem Block.thread_relaunched (l : List (Nat × BoltRec)) (k : Block) (hn : (l.map (·.1)).Nodup) (hT : ∀ e ∈ l, e.1 < k.T) {p : Nat × BoltRec}
    (h : p ∈ l) : (k.relaunched l).thread p.1 = (k.thread p.1).relaunched p.2 := by
  induction l generalizing k with
  | nil => simp at h
  | cons e l ih =>
    obtain ⟨he, hn⟩ := List.nodup_cons.mp hn
    rcases List.mem_cons.mp h with rfl | h
    · exact (Block.thread_relaunched_ne l _ he).trans (Block.thread_setThread k p.1 _ (hT p List.mem_cons_self))
    · have hne : p.1 ≠ e.1 := fun hp => he (List.mem_map.mpr ⟨p, h, hp⟩)
      refine (ih _ hn (fun x hx => ?_) h).trans (congrArg (Thread.relaunched · p.2) (Block.thread_setThread_ne k e.1 p.1 _ hne))
      simpa [Block.updThread] using hT x (List.mem_cons_of_mem e hx)

theorem Thread.status_relaunched (old : Thread) (r : BoltRec) : (old.relaunched r).status = .running :=
  Thread.setGroup_status _ 0 r.payload

/-- What a filled quad becomes. -/
theorem block?_fillQuad {s : State} {b : Nat} {k : Block} (h : s.block? b = some k) (q : Nat) (rs : List BoltRec) :
    ∃ k', (s.fillQuad b q rs).block? b = some k' ∧ k'.thread = (k.relaunched ((k.quadThreads q).zip rs)).thread :=
  ⟨_, State.block?_updBlock s b _ k h, rfl⟩

theorem livesOn_fillQuad {s : State} {b : Nat} {k : Block} {q : Nat} (h : s.block? b = some k) 
    (hq : ∀ tid ∈ k.quadThreads q, (k.thread tid).exited = true) (rs : List BoltRec) : LivesOn b s (s.fillQuad b q rs) := by
  refine livesOn_updBlock s b _ (fun k => Block.T_relaunched _ k) fun k' hk' tid ht => ?_
  obtain rfl : k = k' := Option.some.inj (h.symm.trans hk')
  refine Block.thread_relaunched_ne _ k fun hmem => ?_
  obtain ⟨e, he, rfl⟩ := List.mem_map.mp hmem
  exact absurd (hq e.1 (List.of_mem_zip he).1) (by simp [ht])

/-! ## The drain -/

/-- A record put into the quad q, with what is left of the records. -/
def State.drainOne (s : State) (core : Nat) (b q : Nat) (taken : List BoltRec) : State :=
  (s.updCore core fun c => { c with bolts := taken.foldl (fun l r => l.erase r) c.bolts }).fillQuad b q taken

theorem drainInto_succ {s : State} {core : Nat} {x : Nat × Dword × Word} {k : Block} {q : Nat} {qs : List Nat} (fuel : Nat) (done : List Nat)
    (hk : s.block? x.1 = some k) (hq : s.freeQuads x.1 k = q :: qs) (hrs : (s.core core).boltsOf x ≠ []) :
    s.drainInto core x (fuel + 1) done
      = (s.drainOne core x.1 q (((s.core core).boltsOf x).take (k.quadThreads q).length)).drainInto core x fuel (done ++ [q]) := by
  obtain ⟨r, rs, hr⟩ := List.exists_cons_of_ne_nil hrs
  rw [State.drainInto]
  simp only [hk, hq, hr]
  rfl

theorem livesOn_drainOne {s : State} {b : Nat} {k : Block} {q : Nat} {qs : List Nat} (core : Nat) (hk : s.block? b = some k)
    (hq : s.freeQuads b k = q :: qs) (taken : List BoltRec) : LivesOn b s (s.drainOne core b q taken) := by
  have hexited : ∀ tid ∈ k.quadThreads q, (k.thread tid).exited = true :=
    fun tid => State.exited_of_mem_freeQuads (by rw [hq]; exact List.mem_cons_self)
  have hcore := livesOn_updCore b s core fun c => { c with bolts := taken.foldl (fun l r => l.erase r) c.bolts }
  have hk' : (s.updCore core fun c => { c with bolts := taken.foldl (fun l r => l.erase r) c.bolts }).block? b = some k := hk
  exact hcore.trans (livesOn_fillQuad hk' hexited taken)

theorem livesOn_drainInto (core : Nat) (x : Nat × Dword × Word) (fuel : Nat) (s : State) (done : List Nat) :
    LivesOn x.1 s (s.drainInto core x fuel done).1 := by
  induction fuel generalizing s done with
  | zero => exact LivesOn.refl x.1 s
  | succ fuel ih =>
    rcases hk : s.block? x.1 with _ | k
    · simpa [State.drainInto, hk] using LivesOn.refl x.1 s
    · rcases hq : s.freeQuads x.1 k with _ | ⟨q, qs⟩
      · simpa [State.drainInto, hk, hq] using LivesOn.refl x.1 s
      · rcases hr : (s.core core).boltsOf x with _ | ⟨r, rs⟩
        · simpa [State.drainInto, hk, hq, hr] using LivesOn.refl x.1 s
        · rw [drainInto_succ fuel done hk hq (by simp [hr])]
          exact (livesOn_drainOne core hk hq _).trans (ih _ _)

/-- The first quad of a drain holds its records when the drain is over, since no later record goes to a thread that lives. -/
theorem drainBolt_spec {s : State} {core : Nat} {x : Nat × Dword × Word} {k : Block} {q : Nat} {qs : List Nat} (hk : s.block? x.1 = some k)
    (hq : s.freeQuads x.1 k = q :: qs) (hrs : (s.core core).boltsOf x ≠ []) :
    LivesOn x.1 s (s.drainBolt core x) ∧ ∃ k', (s.drainBolt core x).block? x.1 = some k'
      ∧ ∀ p ∈ (k.quadThreads q).zip ((s.core core).boltsOf x), k'.thread p.1 = (k.thread p.1).relaunched p.2 := by
  have hfiled : ∀ u : State, LivesOn x.1 u (if ((u.core core).boltsOf x).isEmpty then
      u.updCore core fun c => { c with bins := c.bins.filter fun n => n.key != .bolt x.1 x.2.1 x.2.2 } else u) := fun u => by
    split
    · exact livesOn_updCore x.1 u core _
    · exact LivesOn.refl x.1 u
  have hrest : ∀ r : State × List Nat, LivesOn x.1 r.1 (if (((r.1.fileQuads x.1 r.2).core core).boltsOf x).isEmpty then
      (r.1.fileQuads x.1 r.2).updCore core fun c => { c with bins := c.bins.filter fun n => n.key != .bolt x.1 x.2.1 x.2.2 }
      else r.1.fileQuads x.1 r.2) := fun r => (livesOn_fileQuads x.1 r.2 r.1).trans (hfiled _)
  set taken := ((s.core core).boltsOf x).take (k.quadThreads q).length with htaken
  have hlater : LivesOn x.1 (s.drainOne core x.1 q taken) (s.drainBolt core x) := by
    have h := livesOn_drainInto core x 511 (s.drainOne core x.1 q taken) ([] ++ [q])
    rw [← drainInto_succ 511 [] hk hq hrs] at h
    exact h.trans (hrest _)
  refine ⟨(livesOn_drainOne core hk hq taken).trans hlater, ?_⟩
  obtain ⟨k₁, hk₁, hth⟩ := block?_fillQuad (s := s.updCore core fun c => { c with bolts := taken.foldl (fun l r => l.erase r) c.bolts }) hk q taken
  obtain ⟨k', hk', -, hlive⟩ := hlater.block k₁ hk₁
  refine ⟨k', hk', fun p hp => ?_⟩
  have hp : p ∈ (k.quadThreads q).zip taken := (zip_take_length _ ((s.core core).boltsOf x)) ▸ hp
  have hget : k₁.thread p.1 = (k.thread p.1).relaunched p.2 := by
    rw [hth]
    exact Block.thread_relaunched _ k (nodup_map_fst_zip (Block.nodup_quadThreads k q) _)
      (fun e he => Block.lt_of_mem_quadThreads (List.of_mem_zip he).1) hp
  rw [hlive p.1 (by rw [hget, Thread.exited, Thread.status_relaunched]; rfl), hget]

theorem execBoltDrain_eq {s : State} {core bin : Nat} {x : Nat × Dword × Word} (hkey : (s.core core).boltKey bin = some x)
    (hdue : s.boltDue core x = true) (hdl : s.dl0 x.1 = true) (hi : s.issue = none) :
    Becomes s (.boltDrain core bin) (s.drainBolt core x) := by
  simp [Becomes, exec, execBoltDrain, hkey, hdue, hdl, hi]

/-- When a bin is due: it holds 32 records, or its oldest one is of age. -/
theorem boltDue_spec {s : State} {core : Nat} {x : Nat × Dword × Word} (h : s.boltDue core x = true) :
    (s.core core).boltsOf x ≠ [] ∧ (32 ≤ ((s.core core).boltsOf x).length ∨ ∃ r ∈ ((s.core core).boltsOf x).head?, ∃ g, s.gridOf x.1 = some g
      ∧ (if g.dl = 0 then 64 else 2) ≤ s.binTime g.dl core - r.since) := by
  unfold State.boltDue at h
  split at h
  · next k g hk hg =>
    simp only [Bool.and_eq_true, Bool.or_eq_true, decide_eq_true_eq, beq_iff_eq] at h
    obtain ⟨⟨⟨_, hne⟩, _⟩, hdue⟩ := h
    rcases hrs : (s.core core).boltsOf x with _ | ⟨r, rs⟩
    · simp [hrs] at hne
    · refine ⟨List.cons_ne_nil r rs, hdue.imp (fun h => hrs ▸ h) fun hage => ⟨r, rfl, g, hg, ?_⟩⟩
      simpa [hrs] using hage
  · simp at h

/-- The drain of a BOLT bin (R148). -/
theorem boltDrain_spec {s : State} {core bin : Nat} {x : Nat × Dword × Word} {k : Block} {q : Nat} {qs : List Nat}
    (hkey : (s.core core).boltKey bin = some x) (hdue : s.boltDue core x = true) (hdl : s.dl0 x.1 = true) (hi : s.issue = none)
    (hk : s.block? x.1 = some k) (hq : s.freeQuads x.1 k = q :: qs) :
    Reaches s (.boltDrain core bin) fun t => ∃ k', t.block? x.1 = some k'
      ∧ (∀ p ∈ (k.quadThreads q).zip ((s.core core).boltsOf x), k'.thread p.1
          = ({ Thread.start with pc := p.2.entry, retired := p.2.count, relaunch := (k.thread p.1).relaunch + 1 }).setGroup 0 p.2.payload
          ∧ (k'.thread p.1).status = .running)
      ∧ (∀ tid, (k.thread tid).exited = false → k'.thread tid = k.thread tid)
      ∧ t.mem = s.mem ∧ ∀ b, b ≠ x.1 → t.block? b = s.block? b := by
  obtain ⟨hlives, k', hk', hfilled⟩ := drainBolt_spec hk hq (boltDue_spec hdue).1
  obtain ⟨k₁, hk₁, -, hlive⟩ := hlives.block k hk
  obtain rfl : k' = k₁ := Option.some.inj (hk'.symm.trans hk₁)
  refine ⟨_, execBoltDrain_eq hkey hdue hdl hi, k', hk', fun p hp => ⟨hfilled p hp, ?_⟩, hlive, hlives.mem, hlives.others⟩
  rw [hfilled p hp]
  exact Thread.status_relaunched _ p.2

end Sys2Proof.Machine
end
section
/-! SUPPORT. The completion of a block (R152, R257): what it gives back, and what of the device stands. -/

namespace Sys2Proof.Machine

/-! ## What a block gives back -/

/-- Nothing has changed but blocks, cores and clusters. -/
structure GivesBack (s u : State) : Prop where
  frame : { u with blocks := s.blocks, cores := s.cores, clusters := s.clusters } = s

section
variable {s t u : State}

theorem GivesBack.refl (s : State) : GivesBack s s := ⟨rfl⟩

theorem GivesBack.trans (h : GivesBack s t) (h' : GivesBack t u) : GivesBack s u :=
  ⟨(congrArg (fun x : State => { x with blocks := s.blocks, cores := s.cores, clusters := s.clusters }) h'.frame :).trans h.frame⟩

theorem GivesBack.grids (h : GivesBack s u) : u.grids = s.grids := (congrArg State.grids h.frame :)

theorem GivesBack.mem (h : GivesBack s u) : u.mem = s.mem := (congrArg State.mem h.frame :)

end

theorem givesBack_foldl {α : Type} (l : List α) (f : State → α → State) (h : ∀ s a, GivesBack s (f s a)) (s : State) :
    GivesBack s (l.foldl f s) := by
  induction l generalizing s with
  | nil => exact GivesBack.refl s
  | cons a l ih => exact (h s a).trans (ih _)

theorem givesBack_unfileBlock (s : State) (b : Nat) : GivesBack s (s.unfileBlock b) := by
  unfold State.unfileBlock
  split
  · exact GivesBack.refl s
  · exact ⟨rfl⟩

theorem givesBack_removeBlocks (s : State) (p : Nat → Block → Bool) : GivesBack s (s.removeBlocks p) := by
  unfold State.removeBlocks
  refine (givesBack_foldl _ _ givesBack_unfileBlock s).trans ⟨rfl⟩

/-- A block that goes is there no more. -/
theorem block?_removeBlocks {s : State} {p : Nat → Block → Bool} {b : Nat} {k : Block} (hk : s.block? b = some k) (hp : p b k = true) :
    (s.removeBlocks p).block? b = none := by
  have hgone : b ∈ (s.blocks.filter fun e => p e.1 e.2).map (·.1) :=
    List.mem_map.mpr ⟨(b, k), List.mem_filter.mpr ⟨Sparse.mem_of_find hk, hp⟩, rfl⟩
  rcases h : (s.removeBlocks p).block? b with _ | k'
  · rfl
  · have hkept := (List.mem_filter.mp (Sparse.mem_of_find h)).2
    simp only [Bool.not_eq_true', List.contains_eq_mem, decide_eq_false_iff_not] at hkept
    exact absurd hgone hkept

/-- Nothing has changed but tiles and tenants. -/
structure Settles (s u : State) : Prop where
  frame : { u with tiles := s.tiles, tenants := s.tenants } = s

section
variable {s t u : State}

theorem Settles.refl (s : State) : Settles s s := ⟨rfl⟩

theorem Settles.trans (h : Settles s t) (h' : Settles t u) : Settles s u :=
  ⟨(congrArg (fun x : State => { x with tiles := s.tiles, tenants := s.tenants }) h'.frame :).trans h.frame⟩

theorem Settles.grids (h : Settles s u) : u.grids = s.grids := (congrArg State.grids h.frame :)

theorem Settles.mem (h : Settles s u) : u.mem = s.mem := (congrArg State.mem h.frame :)

theorem Settles.blocks (h : Settles s u) : u.blocks = s.blocks := (congrArg State.blocks h.frame :)

end

theorem settles_foldl {α : Type} (l : List α) (f : State → α → State) (h : ∀ s a, Settles s (f s a)) (s : State) : Settles s (l.foldl f s) := by
  induction l generalizing s with
  | nil => exact Settles.refl s
  | cons a l ih => exact (h s a).trans (ih _)

theorem settles_freeTiles (s : State) (c t : Nat) : Settles s (s.freeTiles c t) := by
  unfold State.freeTiles
  split
  · exact Settles.refl s
  · refine settles_foldl _ _ (fun u m => ?_) s
    exact ⟨rfl⟩

/-- QSAVED is a matter of the tenant's own registers. -/
theorem settles_settleQsaved (s : State) (t : Nat) : Settles s (s.settleQsaved t) := by
  refine settles_foldl _ _ (fun u q => ?_) s
  split
  · exact ⟨rfl⟩
  · exact Settles.refl u

theorem retireBlocks_settles (s : State) (bs : List Nat) : Settles (s.removeBlocks fun i _ => bs.contains i) (s.retireBlocks bs) := by
  refine settles_foldl (bs.filterMap fun b => (s.block? b).map fun k => (k.core, k.tenant)) _ (fun u e => ?_) _
  exact settles_freeTiles u e.1 e.2

/-! ## A block that is done -/

section
variable {s : State} {b : Nat} {k : Block}

theorem blockDone_spec (hk : s.block? b = some k) (h : s.blockDone b = true) :
    k.parent = none ∧ (∀ tid, (k.thread tid).exited = true) ∧ s.engines.all (fun e => e.block != b) = true := by
  simp only [State.blockDone, State.threadsDone, State.busy, hk, Bool.and_eq_true, Bool.not_eq_true', Bool.or_eq_false_iff] at h
  obtain ⟨⟨⟨⟨⟨hparent, -⟩, -⟩, hthreads, -⟩, hengines, -⟩, -⟩ := h
  refine ⟨by simpa using hparent, fun tid => ?_, ?_⟩
  · rw [Block.thread, List.getD_eq_getElem?_getD]
    rcases hth : k.threads[tid]? with _ | th
    · rfl
    · exact List.all_eq_true.mp hthreads th (List.mem_of_getElem? hth)
  · refine List.all_eq_true.mpr fun e he => ?_
    have := List.any_eq_false.mp hengines e he
    simpa using this

/-- Whether a block is done does not turn on what its core has buffered. -/
theorem blockDone_updCore (c : Nat) (f : Core → Core) (hw : Sparse.wf Core.reset s.cores = true) (hf : ∀ x, (f x).bolts = x.bolts) :
    (s.updCore c f).blockDone b = s.blockDone b := by
  have hbolts : ∀ x, ((s.updCore c f).core x).bolts = (s.core x).bolts := by
    intro x
    by_cases hx : x = c
    · rw [hx, State.core_updCore s c f hw, hf]
    · rw [State.core_updCore_ne s c x f hx]
  simp only [State.blockDone, State.threadsDone, hbolts]
  rfl

/-- A core that holds no reduction of a grid has none of it to fold. -/
theorem flushGrid_none {n c : Nat} (h : ∀ r ∈ (s.core c).reds, r.grid ≠ n) :
    s.flushGrid n c = s ∨ s.flushGrid n c = s.updCore c fun k => { k with reds := k.reds.filter fun r => !(r.grid == n) } := by
  have hnone : (s.core c).reds.filter (fun r => r.grid == n) = [] := List.filter_eq_nil_iff.mpr fun r hr => by simpa using h r hr
  unfold State.flushGrid
  split
  · exact .inr (by simp [State.flushReds, hnone])
  · exact .inl rfl

/-- The completion of a block (R152, R257). -/
theorem blockComplete_spec {g : Grid} (hk : s.block? b = some k) (hg : s.grid? k.grid = some g) (hend : g.ended = false)
    (hdone : s.blockDone b = true) (hms : s.membersOf k b = [b]) (hw : Sparse.wf Core.reset s.cores = true)
    (hreds : ∀ r ∈ (s.core k.core).reds, r.grid ≠ k.grid) :
    Reaches s (.blockComplete b) fun t => t.block? b = none ∧ t.mem = s.mem
      ∧ ∃ g', t.grid? k.grid = some g' ∧ g'.finished = g.finished + 1 := by
  have hflush : ∃ u, (if s.coreDone k.grid k.core then s.flushGrid k.grid k.core else s) = u ∧ { u with cores := s.cores } = s
      ∧ u.blockDone b = true := by
    refine ⟨_, rfl, ?_⟩
    split
    · rcases flushGrid_none hreds with h | h <;> rw [h]
      · exact ⟨rfl, hdone⟩
      · exact ⟨rfl, (blockDone_updCore k.core (fun x => { x with reds := x.reds.filter fun r => !(r.grid == k.grid) }) hw fun _ => rfl).trans hdone⟩
    · exact ⟨rfl, hdone⟩
  obtain ⟨u, hu, hframe, hudone⟩ := hflush
  have hub : u.block? b = some k := (congrArg (fun x : State => x.block? b) hframe).trans hk
  have hug : u.grid? k.grid = some g := (congrArg (fun x : State => x.grid? k.grid) hframe).trans hg
  have hums : u.membersOf k b = [b] := (congrArg (fun x : State => x.membersOf k b) hframe).trans hms
  have hexec : exec (.blockComplete b) s
      = .next (((u.updGrid k.grid fun g => { g with finished := g.finished + 1 }).retireBlocks [b]).settleQsaved k.tenant) := by
    simp [exec, execBlockComplete, hk, hg, hend, State.completeBlock, hdone, hu, hums, hudone]
  have hcount : u.updGrid k.grid (fun g => { g with finished := g.finished + 1 }) = u.setGrid k.grid { g with finished := g.finished + 1 } := by
    simp [State.updGrid, hug]
  rw [hcount] at hexec
  have hsettle := (retireBlocks_settles (u.setGrid k.grid { g with finished := g.finished + 1 }) [b]).trans (settles_settleQsaved _ k.tenant)
  have hback := givesBack_removeBlocks (u.setGrid k.grid { g with finished := g.finished + 1 }) fun i _ => [b].contains i
  refine ⟨_, hexec, ?_, ?_, { g with finished := g.finished + 1 }, ?_, rfl⟩
  · rw [State.block?, hsettle.blocks]
    exact block?_removeBlocks (s := u.setGrid k.grid { g with finished := g.finished + 1 }) hub (by simp)
  · exact (hsettle.mem.trans hback.mem).trans (congrArg State.mem hframe :)
  · rw [State.grid?, hsettle.grids.trans hback.grids]
    exact State.grid?_setGrid u k.grid _

end

end Sys2Proof.Machine
end
section
/-! SUPPORT. What a release, a message and a record leave of a device's handles: every entry of every Sluice, the grids, and the requests
that wait for a boundary (R39, R120, R173). -/

namespace Sys2Proof.Machine

/-! ## The relation -/

/-- The grids, the Sluice entries, the device's number and the requests that have arrived stand, and a canonical table of tenants stays so. -/
structure KeepsHandles (s u : State) : Prop where
  grids : u.grids = s.grids
  devid : u.fabric.devid = s.fabric.devid
  arrived : u.fabric.arrived = s.fabric.arrived
  tenants : Sparse.wf Tenant.reset s.tenants = true →
    Sparse.wf Tenant.reset u.tenants = true ∧ ∀ t, (u.tenant t).sluice = (s.tenant t).sluice

/-- A change outside the grids and the tenants, and of the fabric neither in its number nor in what has arrived. -/
theorem keepsHandles_of {s u : State} (hg : u.grids = s.grids) (ht : u.tenants = s.tenants) (hd : u.fabric.devid = s.fabric.devid)
    (ha : u.fabric.arrived = s.fabric.arrived) : KeepsHandles s u := by
  refine ⟨hg, hd, ha, fun hw => ⟨ht ▸ hw, fun t => ?_⟩⟩
  rw [State.tenant, State.tenant, ht]

/-- A change outside the fabric, the grids and the tenants. -/
theorem keepsHandles_of_fabric {s u : State} (hf : u.fabric = s.fabric) (hg : u.grids = s.grids) (ht : u.tenants = s.tenants) : KeepsHandles s u :=
  keepsHandles_of hg ht (congrArg Fabric.devid hf) (congrArg Fabric.arrived hf)

theorem KeepsHandles.refl (s : State) : KeepsHandles s s := keepsHandles_of_fabric rfl rfl rfl

theorem KeepsHandles.trans {s t u : State} (h : KeepsHandles s t) (h' : KeepsHandles t u) : KeepsHandles s u := by
  refine ⟨h'.grids.trans h.grids, h'.devid.trans h.devid, h'.arrived.trans h.arrived, fun hw => ?_⟩
  obtain ⟨hwt, ht⟩ := h.tenants hw
  obtain ⟨hwu, hu⟩ := h'.tenants hwt
  exact ⟨hwu, fun n => (hu n).trans (ht n)⟩

theorem keepsHandles_foldl {α : Type} (l : List α) (f : State → α → State) (h : ∀ s a, KeepsHandles s (f s a)) (s : State) :
    KeepsHandles s (l.foldl f s) := by
  induction l generalizing s with
  | nil => exact KeepsHandles.refl s
  | cons a l ih => exact (h s a).trans (ih _)

theorem keepsHandles_updTenant (s : State) (t : Nat) (f : Tenant → Tenant) (hf : ∀ x, (f x).sluice = x.sluice) :
    KeepsHandles s (s.updTenant t f) := by
  refine ⟨rfl, rfl, rfl, fun hw => ⟨Sparse.wf_set _ _ _ _ hw, fun x => ?_⟩⟩
  by_cases hx : x = t
  · rw [hx, State.tenant_updTenant s t f hw, hf]
  · rw [State.tenant_updTenant_ne s t x f hx]

theorem keepsHandles_updFq (s : State) (t : Nat) (f : Tenant → FaultQueue) : KeepsHandles s (s.updTenant t fun x => { x with fq := f x }) :=
  keepsHandles_updTenant s t _ fun _ => rfl

theorem keepsHandles_updCore (s : State) (c : Nat) (f : Core → Core) : KeepsHandles s (s.updCore c f) := keepsHandles_of_fabric rfl rfl rfl

theorem keepsHandles_updBlock (s : State) (b : Nat) (f : Block → Block) : KeepsHandles s (s.updBlock b f) :=
  keepsHandles_of_fabric (by simp) (by simp) (by simp)

theorem Files.keepsHandles {s u : State} (h : Files s u) : KeepsHandles s u :=
  keepsHandles_of_fabric (congrArg State.fabric h.frame :) (congrArg State.grids h.frame :) (congrArg State.tenants h.frame :)

/-! ## Memory, signatures and messages -/

theorem keepsHandles_giveSig (s : State) (sg : BitVec 512) (c : Nat) : KeepsHandles s (s.giveSig sg c) := keepsHandles_updCore s c _

theorem keepsHandles_writeHome (s : State) (h : HomeAt) (bs : List Byte) : KeepsHandles s (s.writeHome h bs) := by
  cases h <;> exact keepsHandles_of_fabric rfl rfl rfl

theorem keepsHandles_raiseVector (s : State) (t v : Nat) : KeepsHandles s (s.raiseVector t v) := by
  unfold State.raiseVector
  dsimp only
  split
  · exact keepsHandles_updTenant s t _ fun _ => rfl
  · exact keepsHandles_of_fabric rfl rfl rfl

theorem keepsHandles_send {s u : State} {m : Msg} (h : s.send m = some u) : KeepsHandles s u := by
  unfold State.send State.toPort at h
  dsimp only at h
  split at h
  · rw [← Option.some.inj h]
    split <;> exact keepsHandles_of rfl rfl rfl rfl
  · cases h

theorem keepsHandles_newTag (s : State) : KeepsHandles s s.newTag.2 := keepsHandles_of rfl rfl rfl rfl

theorem keepsHandles_sendSig (s : State) (t : Nat) (sg : BitVec 512) (d : Nat) : KeepsHandles s (s.sendSig t sg d) := by
  unfold State.sendSig
  dsimp only
  split
  · exact keepsHandles_newTag s
  · next h => exact ((keepsHandles_newTag s).trans (keepsHandles_send h)).trans (keepsHandles_of rfl rfl rfl rfl)

theorem keepsHandles_ownRequest {s u : State} {t ty d addr : Nat} {opw : Dword} {data : List Flit} {what : RemoteFor}
    (h : s.ownRequest t ty d addr opw data what = some u) : KeepsHandles s u := by
  obtain ⟨v, hv, rfl⟩ := Option.map_eq_some_iff.mp h
  exact ((keepsHandles_newTag s).trans (keepsHandles_send hv)).trans (keepsHandles_of rfl rfl rfl rfl)

theorem keepsHandles_signLines (s : State) (t va n : Nat) : KeepsHandles s (s.signLines t va n) :=
  (keepsHandles_foldl _ _ (fun s c => keepsHandles_giveSig s _ c) s).trans (keepsHandles_foldl _ _ (fun s d => keepsHandles_sendSig s t _ d) _)

theorem keepsHandles_writeRoot {s u : State} {t va : Nat} {bs : List Byte} {what : RemoteFor} {far : Bool}
    (h : s.writeRoot t va bs what = .ok (u, far)) : KeepsHandles s u := by
  unfold State.writeRoot at h
  split at h
  · cases h
  · split at h
    · cases h
    · simp only [Except.ok.injEq, Prod.mk.injEq] at h
      rw [← h.1]
      refine keepsHandles_foldl _ _ (fun s e => ?_) s
      split
      · cases hr : s.ownRequest t 0x03 _ _ _ _ what with
        | none => exact KeepsHandles.refl s
        | some u => exact keepsHandles_ownRequest hr
      · exact keepsHandles_writeHome s _ _

/-! ## Fault records -/

theorem keepsHandles_raiseRecord (s : State) (t : Nat) (r : FaultRec) : KeepsHandles s (s.raiseRecord t r) := by
  unfold State.raiseRecord
  split
  · exact keepsHandles_of_fabric rfl rfl rfl
  · exact keepsHandles_raiseVector s t 1

theorem keepsHandles_recordWritten (s : State) (t : Nat) (r : FaultRec) : KeepsHandles s (s.recordWritten t r) := by
  unfold State.recordWritten
  exact ((keepsHandles_signLines s t _ 64).trans (keepsHandles_updFq _ t _)).trans (keepsHandles_raiseRecord _ t r)

theorem keepsHandles_writeRecord {s u : State} {t : Nat} {r : FaultRec} (h : s.writeRecord t r = .written u ∨ s.writeRecord t r = .sent u) :
    KeepsHandles s u := by
  unfold State.writeRecord at h
  dsimp only at h
  split at h
  · simp at h
  · split at h
    · simp at h
    · next hw =>
      simp only [reduceCtorEq, false_or, Posting.sent.injEq] at h
      exact h ▸ keepsHandles_writeRoot hw
    · next hw =>
      simp only [reduceCtorEq, or_false, Posting.written.injEq] at h
      exact h ▸ (keepsHandles_writeRoot hw).trans (keepsHandles_recordWritten _ t r)

theorem keepsHandles_postRecord (s : State) (t : Nat) (b : Bool) (r : FaultRec) : KeepsHandles s (s.postRecord t b r) := by
  have attempt : ∀ u, ((if (s.tenant t).fq.held.isEmpty then s.writeRecord t r else .kept) = .written u
      ∨ (if (s.tenant t).fq.held.isEmpty then s.writeRecord t r else .kept) = .sent u) → KeepsHandles s u := by
    intro u hu
    split at hu
    · exact keepsHandles_writeRecord hu
    · simp at hu
  unfold State.postRecord
  dsimp only
  split
  · next hw => exact attempt _ (.inl hw)
  · next hw => exact (attempt _ (.inr hw)).trans (keepsHandles_updFq _ t _)
  · split
    · exact keepsHandles_updFq s t _
    · split <;> exact keepsHandles_updFq s t _

theorem keepsHandles_postEvent (s : State) (t : Nat) (r : FaultRec) : KeepsHandles s (s.postEvent t r) := by
  have hseq : KeepsHandles s (s.takeSeq t).2 := by
    unfold State.takeSeq
    dsimp only
    exact keepsHandles_updFq s t _
  exact hseq.trans (keepsHandles_postRecord _ t false _)

/-! ## Requests, and writes and folds at the home -/

theorem keepsHandles_request (s : State) (t ty d scope addr : Nat) (opw : Dword) (inl : BitVec 256) (data : List Flit) (what : RemoteFor) :
    KeepsHandles s (s.request t ty d scope addr opw inl data what).1 := by
  unfold State.request
  dsimp only
  split
  · next h => exact ((keepsHandles_newTag s).trans (keepsHandles_send h)).trans (keepsHandles_of rfl rfl rfl rfl)
  · exact (keepsHandles_newTag s).trans (keepsHandles_postEvent _ t _)

theorem keepsHandles_dropProxy (s : State) (t va n : Nat) : KeepsHandles s (s.dropProxy t va n) := keepsHandles_of rfl rfl rfl rfl

theorem keepsHandles_storeHome (s : State) (who : Option Site) (t va : Nat) (h : HomeAt) (bs : List Byte) :
    KeepsHandles s (s.storeHome who t va h bs) := by
  unfold State.storeHome
  split
  · exact keepsHandles_postEvent s t _
  · exact keepsHandles_postEvent s t _
  · refine KeepsHandles.trans ?_ (keepsHandles_writeHome _ h bs)
    split
    · exact keepsHandles_of rfl rfl rfl rfl
    · exact KeepsHandles.refl s

theorem keepsHandles_writeBack (s : State) (x : CacheSector) : KeepsHandles s (s.writeBack x) := by
  unfold State.writeBack
  split
  · exact KeepsHandles.refl s
  · split
    · exact keepsHandles_foldl _ _ (fun s r => (keepsHandles_dropProxy s _ _ _).trans (keepsHandles_request _ _ _ _ _ _ _ _ _ _)) s
    · exact keepsHandles_storeHome s _ _ _ _ _

theorem keepsHandles_flushCore (s : State) (c : Nat) : KeepsHandles s (s.flushCore c) := by
  unfold State.flushCore
  exact (keepsHandles_foldl _ _ keepsHandles_writeBack s).trans (keepsHandles_updCore _ c _)

theorem keepsHandles_raiseLive (s : State) (ths : List (Nat × Nat)) (fl : Flags) : KeepsHandles s (s.raiseLive ths fl) :=
  keepsHandles_foldl ths _ (fun s e => keepsHandles_updBlock s e.1 _) s

theorem keepsHandles_foldRed (s : State) (c : Nat) (r : RedEntry) : KeepsHandles s (s.foldRed c r) := by
  have hnote : KeepsHandles s (s.noteWritten c r.tenant r.va) := keepsHandles_updCore s c _
  refine (hnote.trans (keepsHandles_dropProxy _ r.tenant r.va (atomBytes r.fmt))).trans ?_
  unfold State.foldRed
  dsimp only
  split
  · exact keepsHandles_request _ _ _ _ _ _ _ _ _ _
  · split
    · exact keepsHandles_postEvent _ _ _
    · exact (keepsHandles_storeHome _ _ _ _ _ _).trans (keepsHandles_raiseLive _ _ _)

theorem keepsHandles_flushReds (s : State) (c : Nat) (p : RedEntry → Bool) : KeepsHandles s (s.flushReds c p) :=
  (keepsHandles_updCore s c fun k => { k with reds := k.reds.filter fun r => !p r }).trans
    (keepsHandles_foldl _ _ (fun s r => keepsHandles_foldRed s c r) _)

/-! ## Releases -/

theorem keepsHandles_signNear (s : State) (c cl scope : Nat) : KeepsHandles s (s.signNear c cl scope) := by
  unfold State.signNear
  dsimp only
  have hgiven := fun (l : List Nat) (sg : BitVec 512) =>
    (keepsHandles_flushCore s c).trans (keepsHandles_foldl l (fun s d => s.giveSig sg d) (fun s d => keepsHandles_giveSig s sg d) _)
  split
  · exact (hgiven _ _).trans (keepsHandles_updCore _ c _)
  · exact hgiven _ _

theorem keepsHandles_signCores (s : State) (cs : List Nat) (t : Nat) : KeepsHandles s (s.signCores cs t) := by
  unfold State.signCores
  refine KeepsHandles.trans ?_ (keepsHandles_foldl _ _ (fun s d => keepsHandles_request s _ _ _ _ _ _ _ _ _) _)
  refine KeepsHandles.trans ?_ (keepsHandles_foldl _ _ (fun s c => keepsHandles_giveSig s _ c) _)
  refine (keepsHandles_foldl cs _ keepsHandles_flushCore s).trans (keepsHandles_foldl cs _ (fun s c => ?_) _)
  exact keepsHandles_updCore s c _

/-- The signatures with which a grid ends, as `State.endRelease` gives them. -/
def State.signEnd (s : State) (n scope : Nat) (g : Grid) : State × Bool :=
  if scope < 4 then (s.activeCores.foldl (fun (s : State) c => s.signNear c 0 scope) s, true)
  else
    let s := s.signCores s.activeCores g.tenant
    let tags := s.signTags g.tenant
    if !tags.isEmpty || (decide (5 ≤ scope) && s.hostOpen g.tenant) then
      (s.updGrid n fun g => { g with state := .releasing tags true }, false)
    else (s, true)

/-- A step that either is not complete or leaves q. -/
theorem of_complete {P : State → Prop} {p q : State} {c : Bool} (h : (if c then (p, false) else (q, true)).2 = true) (hq : P q) :
    P (if c then (p, false) else (q, true)).1 := by
  cases c
  · exact hq
  · cases h

theorem keepsHandles_signEnd {s : State} {n scope : Nat} {g : Grid} (h : (s.signEnd n scope g).2 = true) :
    KeepsHandles s (s.signEnd n scope g).1 := by
  unfold State.signEnd at h ⊢
  by_cases hscope : scope < 4
  · rw [if_pos hscope]
    exact keepsHandles_foldl _ _ (fun s c => keepsHandles_signNear s c 0 scope) s
  · rw [if_neg hscope] at h ⊢
    exact of_complete h (keepsHandles_signCores s _ _)

/-- A release with which a grid ends, once it is complete, has left the handles and the grids alone. -/
theorem keepsHandles_endRelease {s : State} {n scope : Nat} {g : Grid} (h : (s.endRelease n scope g).2 = true) :
    KeepsHandles s (s.endRelease n scope g).1 := by
  rcases hst : g.state with _ | ⟨tags, _ | _⟩
  · set u := s.activeCores.foldl (fun (s : State) c => (s.flushCore c).flushReds c fun r => r.grid == n) s with hu
    have hsent : KeepsHandles s u := keepsHandles_foldl _ _ (fun s c => (keepsHandles_flushCore s c).trans (keepsHandles_flushReds _ c _)) s
    have heq : s.endRelease n scope g = if (u.ackTags g.tenant).isEmpty then u.signEnd n scope g
        else (u.updGrid n fun x => { x with state := .releasing (u.ackTags g.tenant) false }, false) := by
      simp only [State.endRelease, hst]
      rfl
    rw [heq] at h ⊢
    split at h
    · next htags =>
      rw [if_pos htags]
      exact hsent.trans (keepsHandles_signEnd h)
    · cases h
  · have heq : s.endRelease n scope g = if s.tagsOpen tags then (s, false) else s.signEnd n scope g := by
      simp only [State.endRelease, hst]
      rfl
    rw [heq] at h ⊢
    split at h
    · cases h
    · next htags =>
      rw [if_neg htags]
      exact keepsHandles_signEnd h
  · have heq : (s.endRelease n scope g).1 = s := by simp only [State.endRelease, hst]
    rw [heq]
    exact KeepsHandles.refl s

/-! ## Handles -/

theorem keepsHandles_tell (s : State) (m : Msg) : KeepsHandles s (s.tell m) := by
  unfold State.tell
  split
  · next h => exact keepsHandles_send h
  · exact keepsHandles_postEvent s _ _

theorem keepsHandles_tlComplete (s : State) (b k num : Nat) : KeepsHandles s (s.tlComplete b k num) := keepsHandles_updBlock s b _

/-! ## What goes on once slots are free -/

theorem files_wakeQuad (s : State) (b tid : Nat) : Files s (s.wakeQuad b tid) := by
  unfold State.wakeQuad
  split
  · exact Files.refl s
  · split
    · exact files_fileQuad s b _
    · exact Files.refl s
    · split
      · exact Files.refl s
      · exact files_settleBundle s _ _ none

theorem keepsHandles_wake (s : State) (b tid : Nat) : KeepsHandles s (s.wake b tid) :=
  (keepsHandles_updBlock s b _).trans (files_wakeQuad _ b tid).keepsHandles

theorem keepsHandles_resolvePool (s : State) (t : Nat) : KeepsHandles s (s.resolvePool t) := keepsHandles_updTenant s t _ fun _ => rfl

theorem keepsHandles_resumeBlock (s : State) (b : Nat) : KeepsHandles s (s.resumeBlock b) := by
  unfold State.resumeBlock
  split
  · exact KeepsHandles.refl s
  · refine ((keepsHandles_updBlock s b _).trans (keepsHandles_resolvePool _ _)).trans (keepsHandles_foldl _ _ (fun s tid => ?_) _)
    split
    · exact keepsHandles_wake s b tid
    · exact KeepsHandles.refl s

theorem keepsHandles_resumeChild (s : State) (b : Nat) (own : Option Nat) : KeepsHandles s (s.resumeChild b own) := by
  unfold State.resumeChild
  split
  · exact KeepsHandles.refl s
  · split
    · exact keepsHandles_resumeBlock s b
    · split
      · exact KeepsHandles.refl s
      · exact (keepsHandles_updBlock s b _).trans (keepsHandles_resolvePool _ _)

theorem keepsHandles_resumeChildren (s : State) (t : Nat) (own : Option Nat) : KeepsHandles s (s.resumeChildren t own) := by
  refine keepsHandles_foldl _ _ (fun s e => ?_) s
  split
  · exact keepsHandles_resumeChild s _ own
  · exact KeepsHandles.refl s

/-- With no request of another device waiting there is none to perform. -/
theorem keepsHandles_freeArrived {s : State} (t : Nat) (h : s.fabric.arrived = []) : KeepsHandles s (s.freeArrived t) := by
  unfold State.freeArrived
  split
  · exact KeepsHandles.refl s
  · unfold State.applyArrived
    rw [h]
    exact keepsHandles_of rfl rfl rfl h.symm

theorem keepsHandles_settleQsaved (s : State) (t : Nat) : KeepsHandles s (s.settleQsaved t) := by
  refine keepsHandles_foldl _ _ (fun u q => ?_) s
  split
  · exact keepsHandles_updTenant u t _ fun _ => rfl
  · exact KeepsHandles.refl u

end Sys2Proof.Machine
end
section
/-! SUPPORT. The completion of a task (R123, R124, R179): its release, and its result at the handle's home. -/

namespace Sys2Proof.Machine

/-! ## An entry that has its result -/

/-- The entry is READY with a result, no IVO waits on it, and it is still wanted. -/
structure Sluice.Answered (e : Sluice) (r : List Word) : Prop where
  st : e.st = .ready
  result : e.result = r
  ivos : e.ivos = []
  dropped : e.dropped = false

/-- The entry of a tenant's slot has its result, in canonical tables. -/
structure Answers (s : State) (t slot : Nat) (r : List Word) : Prop where
  tenants : Sparse.wf Tenant.reset s.tenants = true
  table : Sparse.wf Sluice.reset (s.tenant t).sluice = true
  entry : (s.sluice t slot).Answered r

section
variable {s u : State} {t slot : Nat} {r : List Word}

/-- A change of an entry reads back, in canonical tables. -/
theorem sluice_updSluice (f : Sluice → Sluice) (hw : Sparse.wf Tenant.reset s.tenants = true)
    (hs : Sparse.wf Sluice.reset (s.tenant t).sluice = true) : (s.updSluice t slot f).sluice t slot = f (s.sluice t slot) := by
  rw [State.sluice, State.updSluice, State.tenant_updTenant s t _ hw]
  exact Sparse.get_set_self _ _ _ _ hs

theorem answers_updSluice (f : Sluice → Sluice) (hw : Sparse.wf Tenant.reset s.tenants = true)
    (hs : Sparse.wf Sluice.reset (s.tenant t).sluice = true) (hf : (f (s.sluice t slot)).Answered r) : Answers (s.updSluice t slot f) t slot r := by
  refine ⟨Sparse.wf_set _ _ _ _ hw, ?_, ?_⟩
  · rw [State.updSluice, State.tenant_updTenant s t _ hw]
    exact Sparse.wf_set _ _ _ _ hs
  · rwa [sluice_updSluice f hw hs]

theorem KeepsHandles.answers (h : KeepsHandles s u) (ha : Answers s t slot r) : Answers u t slot r := by
  obtain ⟨hw, hs⟩ := h.tenants ha.tenants
  refine ⟨hw, (hs t).symm ▸ ha.table, ?_⟩
  rw [State.sluice, Tenant.entry, hs t]
  exact ha.entry

/-- The entry of a handle that is still wanted is not freed. -/
theorem answers_reclaim (h : Answers s t slot r) : Answers (s.reclaim t slot) t slot r := by
  have hkept : ∀ (p q r' : Bool) (e' : Sluice), (if p && q && (s.sluice t slot).dropped && r' && (s.sluice t slot).ivos.isEmpty then e'
      else s.sluice t slot) = s.sluice t slot := fun p q r' e' => by simp [h.entry.dropped]
  exact answers_updSluice _ h.tenants h.table ((hkept _ _ _ _).symm ▸ h.entry)

/-- With no IVO on its entry a handle at home sets nothing going. -/
theorem answers_releaseIvos {h : Dword} (hhome : hHome h = s.fabric.devid) (ha : Answers s (hTenant h) (hSlot h) r) :
    Answers (s.releaseIvos h) (hTenant h) (hSlot h) r ∧ (s.releaseIvos h).grids = s.grids ∧ (s.releaseIvos h).fabric = s.fabric := by
  unfold State.releaseIvos State.liveEntry
  simp only [hhome, beq_self_eq_true, if_true]
  split
  · exact ⟨ha, rfl, rfl⟩
  · next e he =>
    have hgone : s.gone h = false := by
      by_contra hg
      simp [hg] at he
    have hivos : e.ivos = [] := by
      rw [hgone, if_neg Bool.false_ne_true, Option.some.injEq] at he
      exact he ▸ ha.entry.ivos
    split
    · exact ⟨ha, rfl, rfl⟩
    · simp only [hivos, List.foldl_nil, beq_self_eq_true, if_true]
      exact ⟨answers_reclaim (answers_updSluice _ ha.tenants ha.table ⟨ha.entry.st, ha.entry.result, rfl, ha.entry.dropped⟩), rfl, rfl⟩

/-- A result at the handle's home (R122): the entry is READY with it. -/
theorem answers_noteReady {h : Dword} (result : List Word) (hhome : hHome h = s.fabric.devid) (hgone : s.gone h = false)
    (hready : (s.sluice (hTenant h) (hSlot h)).st ≠ .ready) (hbroken : (s.sluice (hTenant h) (hSlot h)).st ≠ .broken)
    (hivos : (s.sluice (hTenant h) (hSlot h)).ivos = []) (hdropped : (s.sluice (hTenant h) (hSlot h)).dropped = false)
    (hw : Sparse.wf Tenant.reset s.tenants = true) (hs : Sparse.wf Sluice.reset (s.tenant (hTenant h)).sluice = true) :
    Answers (s.noteReady h result) (hTenant h) (hSlot h) result ∧ (s.noteReady h result).grids = s.grids
      ∧ (s.noteReady h result).fabric.arrived = s.fabric.arrived := by
  set e := s.sluice (hTenant h) (hSlot h) with he
  set s₁ := s.updSluice (hTenant h) (hSlot h) fun e => { e with st := .ready, done := true, result := result } with hs₁
  have h₁ : Answers s₁ (hTenant h) (hSlot h) result := answers_updSluice _ hw hs ⟨rfl, rfl, hivos, hdropped⟩
  set s₂ := e.waiters.foldl (fun s d => s.tell (hrsMsg s.fabric.devid d h result)) s₁ with hs₂
  have h₂ : KeepsHandles s₁ s₂ := keepsHandles_foldl _ _ (fun s d => keepsHandles_tell s _) s₁
  set s₃ := if e.tlNum == 0 then s₂ else s₂.tlComplete e.block 3 e.tlNum with hs₃
  have h₃ : KeepsHandles s₂ s₃ := by
    rw [hs₃]
    split
    · exact KeepsHandles.refl s₂
    · exact keepsHandles_tlComplete s₂ _ _ _
  have hopen : (s.gone h || e.st == .broken || e.st == .ready) = false := by simp [hgone, hready, hbroken]
  have heq : s.noteReady h result = (s₃.releaseIvos h).reclaim (hTenant h) (hSlot h) :=
    (if_pos (beq_iff_eq.mpr hhome)).trans (if_neg (hopen ▸ Bool.false_ne_true))
  have hkept := h₂.trans h₃
  obtain ⟨hans, hgrids, hfabric⟩ := answers_releaseIvos (hhome.trans hkept.devid.symm) (hkept.answers h₁)
  rw [heq]
  exact ⟨answers_reclaim hans, hgrids.trans hkept.grids, (congrArg Fabric.arrived hfabric).trans hkept.arrived⟩

end

/-! ## The step -/

/-- What a task's completion does once its release is made. -/
def State.closeTask (s : State) (n : Nat) (g : Grid) : State :=
  ((({ s with fantail := s.fantail.filter fun f => !(f.key.tenant == g.tenant && f.key.grid == g.gid) }.endTask n).resumeChildren
    g.tenant none).freeArrived g.tenant).settleQsaved g.tenant

section
variable {s : State} {n : Nat} {g : Grid} (hg : s.grid? n = some g) (hdone : s.taskDone n g = true)
include hg hdone

theorem taskComplete_waits (hend : g.ended = false) (hrel : (s.endRelease n (s.taskScope g.tenant) g).2 = false) :
    Becomes s (.taskComplete n) (s.endRelease n (s.taskScope g.tenant) g).1 := by
  simp [Becomes, exec, execTaskComplete, hg, hdone, hend, hrel]

theorem taskComplete_closes (hend : g.ended = false) (hrel : (s.endRelease n (s.taskScope g.tenant) g).2 = true) :
    Becomes s (.taskComplete n) ((s.endRelease n (s.taskScope g.tenant) g).1.closeTask n g) := by
  simp [Becomes, exec, execTaskComplete, hg, hdone, hend, hrel, State.closeTask]

theorem taskComplete_ended (hend : g.ended = true) : Becomes s (.taskComplete n) (s.closeTask n g) := by
  simp [Becomes, exec, execTaskComplete, hg, hdone, hend, State.closeTask]

end

/-- What follows the end of a task leaves the handles and the grids as they then are. -/
theorem closeTask_spec {s u : State} {n : Nat} {g : Grid}
    (hu : { s with fantail := s.fantail.filter fun f => !(f.key.tenant == g.tenant && f.key.grid == g.gid) }.endTask n = u)
    (ha : u.fabric.arrived = []) : KeepsHandles u (s.closeTask n g) := by
  have hresumed := keepsHandles_resumeChildren u g.tenant none
  have hfreed := keepsHandles_freeArrived g.tenant (hresumed.arrived.trans ha)
  rw [State.closeTask, hu]
  exact (hresumed.trans hfreed).trans (keepsHandles_settleQsaved _ _)

/-- The grids without one of them. -/
theorem grid?_none {s : State} {grids : Sparse Grid} {n : Nat} (h : s.grids = grids.filter fun e => e.1 != n) : s.grid? n = none := by
  rcases hn : s.grid? n with _ | g
  · rfl
  · have hmem : (n, g) ∈ grids.filter fun e => e.1 != n := h ▸ Sparse.mem_of_find hn
    simpa using (List.mem_filter.mp hmem).2

/-- A task that has failed leaves its grid, and its handle is as it is (R124). -/
theorem taskComplete_failed {s : State} {n : Nat} {g : Grid} (hg : s.grid? n = some g) (hdone : s.taskDone n g = true) (hend : g.ended = true)
    (ha : s.fabric.arrived = []) (hfail : g.task.map (·.failed) = some true) : Reaches s (.taskComplete n) fun t => t.grid? n = none := by
  obtain ⟨x, hx, hxf⟩ := Option.map_eq_some_iff.mp hfail
  have hu : { s with fantail := s.fantail.filter fun f => !(f.key.tenant == g.tenant && f.key.grid == g.gid) }.endTask n
      = { s with fantail := s.fantail.filter fun f => !(f.key.tenant == g.tenant && f.key.grid == g.gid), grids := s.grids.filter fun e => e.1 != n } := by
    have hg' : { s with fantail := s.fantail.filter fun f => !(f.key.tenant == g.tenant && f.key.grid == g.gid) }.grid? n = some g := hg
    simp only [State.endTask, hg', hx, hxf, if_true]
  exact ⟨_, taskComplete_ended hg hdone hend, grid?_none (closeTask_spec hu ha).grids⟩

/-- The completion of a task whose release is made: its grid is gone and its handle READY with the result (R123, R179). -/
theorem taskComplete_ready {s : State} {n : Nat} {g : Grid} {x : TaskInfo} (hg : s.grid? n = some g) (hdone : s.taskDone n g = true)
    (htask : g.task = some x) (hend : g.ended = false) (hfail : x.failed = false)
    (hrel : (s.endRelease n (s.taskScope g.tenant) g).2 = true) (hhome : hHome x.handle = s.fabric.devid) (hgone : s.gone x.handle = false)
    (hready : (s.sluice (hTenant x.handle) (hSlot x.handle)).st ≠ .ready) (hbroken : (s.sluice (hTenant x.handle) (hSlot x.handle)).st ≠ .broken)
    (hivos : (s.sluice (hTenant x.handle) (hSlot x.handle)).ivos = []) (hdropped : (s.sluice (hTenant x.handle) (hSlot x.handle)).dropped = false)
    (ha : s.fabric.arrived = []) (hw : Sparse.wf Tenant.reset s.tenants = true)
    (hs : Sparse.wf Sluice.reset (s.tenant (hTenant x.handle)).sluice = true) :
    Reaches s (.taskComplete n) fun t => t.grid? n = none ∧ (t.sluice (hTenant x.handle) (hSlot x.handle)).st = .ready
      ∧ (t.sluice (hTenant x.handle) (hSlot x.handle)).result = x.result.getD (List.replicate 8 0) := by
  have hkept := keepsHandles_endRelease hrel
  set v := (s.endRelease n (s.taskScope g.tenant) g).1 with hv
  obtain ⟨hwv, htables⟩ := hkept.tenants hw
  have hentry : ∀ t slot, v.sluice t slot = s.sluice t slot := fun t slot => by
    rw [State.sluice, State.sluice, Tenant.entry, Tenant.entry, htables]
  -- the machine once the grid is gone
  set w : State := { v with
    fantail := v.fantail.filter fun f => !(f.key.tenant == g.tenant && f.key.grid == g.gid)
    grids := v.grids.filter fun e => e.1 != n } with hwdef
  have hentryw : w.sluice (hTenant x.handle) (hSlot x.handle) = s.sluice (hTenant x.handle) (hSlot x.handle) := hentry _ _
  have hgonew : w.gone x.handle = false := by
    rw [State.gone, hentryw]
    exact hgone
  obtain ⟨hans, hgrids, harrived⟩ := answers_noteReady (s := w) (h := x.handle) (x.result.getD (List.replicate 8 0)) (hhome.trans hkept.devid.symm)
    hgonew (hentryw ▸ hready) (hentryw ▸ hbroken) (hentryw ▸ hivos) (hentryw ▸ hdropped) hwv ((htables _).symm ▸ hs)
  have hu : { v with fantail := v.fantail.filter fun f => !(f.key.tenant == g.tenant && f.key.grid == g.gid) }.endTask n
      = w.noteReady x.handle (x.result.getD (List.replicate 8 0)) := by
    have hg' : { v with fantail := v.fantail.filter fun f => !(f.key.tenant == g.tenant && f.key.grid == g.gid) }.grid? n = some g :=
      (congrArg (Sparse.find · n) hkept.grids).trans hg
    simp only [State.endTask, hg', htask, hfail, Bool.false_eq_true, if_false]
    rfl
  have hclosed := closeTask_spec hu (harrived.trans (hkept.arrived.trans ha))
  have hend := hclosed.answers hans
  exact ⟨_, taskComplete_closes hg hdone ‹_› hrel, grid?_none (hclosed.grids.trans hgrids), hend.entry.st, hend.entry.result⟩

end Sys2Proof.Machine
end
section
/-! SUPPORT. The eviction of a cache line (R172): what it writes at a home on this device, and what it sends to another. -/

namespace Sys2Proof.Machine

/-! ## Requests that go out -/

theorem send_frame {s u : State} {m : Msg} (h : s.send m = some u) : { u with fabric := s.fabric } = s := by
  unfold State.send State.toPort at h
  dsimp only at h
  split at h
  · rw [← Option.some.inj h]
    split <;> rfl
  · cases h

/-- A request that goes out changes the fabric alone. -/
theorem request_frame {s : State} {t ty d scope addr : Nat} {opw : Dword} {inl : BitVec 256} {data : List Flit} {what : RemoteFor}
    (h : (s.request t ty d scope addr opw inl data what).2 = true) :
    { (s.request t ty d scope addr opw inl data what).1 with fabric := s.fabric } = s := by
  unfold State.request at h ⊢
  dsimp only at h ⊢
  split
  · next u hu => exact (congrArg (fun x : State => { x with fabric := s.fabric }) (send_frame hu) :)
  · next hu => rw [hu] at h; cases h

/-! ## A home on this device -/

/-- A range no byte of which is lost has no part that is. -/
theorem lostIn_of_le {s : State} {pa n m : Nat} (hnm : n ≤ m) (h : s.lostIn pa m = none) : s.lostIn pa n = none := by
  unfold State.lostIn at h ⊢
  split
  · rfl
  · next hl =>
    rw [if_neg hl, List.findSome?_eq_none_iff] at h
    exact List.findSome?_eq_none_iff.mpr fun i hi => h i (List.mem_range.mpr ((List.mem_range.mp hi).trans_le hnm))

theorem storeHome_dev {s : State} {who : Option Site} {t va pa : Nat} {bs : List Byte} (hlost : s.lostHome (.dev pa) bs.length = none) :
    s.storeHome who t va (.dev pa) bs = s.writePhys pa bs := by
  unfold State.storeHome
  rw [hlost]
  rfl

/-- The bytes that an eviction writes: the sector's where they are dirty, and what was there where not. -/
def CacheSector.over (x : CacheSector) (old : List Byte) : List Byte :=
  (x.bytes.zip old).zipIdx.map fun e => if onBit x.dirty e.2 then e.1.1 else e.1.2

theorem CacheSector.length_over (x : CacheSector) (old : List Byte) : (x.over old).length = min x.bytes.length old.length := by
  simp [CacheSector.over]

theorem CacheSector.getD_over {x : CacheSector} {old : List Byte} {i : Nat} (hx : i < x.bytes.length) (ho : i < old.length) :
    (x.over old).getD i 0 = if onBit x.dirty i then x.bytes.getD i 0 else old.getD i 0 := by
  simp [CacheSector.over, List.getD_eq_getElem?_getD, hx, ho]

theorem Memory.getD_read (m : Memory) (a n i : Nat) (h : i < n) : (Memory.read m a n).getD i 0 = Memory.byte m (a + i) := by
  induction n generalizing a i with
  | zero => omega
  | succ n ih =>
    cases i with
    | zero => rfl
    | succ i => simpa [Memory.read, Nat.add_assoc, Nat.add_comm 1 i] using ih (a + 1) i (by omega)

section
variable {s : State} {x : CacheSector} {pa : Nat}

theorem writeBack_clean (h : x.dirty = 0) : s.writeBack x = s := by simp [State.writeBack, h]

theorem writeBack_dev (hd : x.dirty ≠ 0) (hh : x.home = .dev pa) (hlost : s.lostHome (.dev pa) 64 = none) :
    s.writeBack x = s.writePhys pa (x.over (s.readPhys pa 64)) := by
  have hlen : (x.over (s.readPhys pa 64)).length ≤ 64 := by
    rw [CacheSector.length_over, State.readPhys, Memory.read_length]
    exact Nat.min_le_right _ 64
  have hpart : s.lostHome (.dev pa) (x.over (s.readPhys pa 64)).length = none := lostIn_of_le hlen hlost
  rw [State.writeBack, if_neg (by simpa using hd), hh]
  exact storeHome_dev hpart

/-- A line written back at its home on this device changes the memory alone. -/
theorem writeBack_dev_frame (hh : x.home = .dev pa) (hlost : s.lostHome (.dev pa) 64 = none) : { s.writeBack x with mem := s.mem } = s := by
  by_cases hd : x.dirty = 0
  · rw [writeBack_clean hd]
  · rw [writeBack_dev hd hh hlost]
    rfl

/-- The memory that a line leaves behind: its dirty bytes in their places, and every other byte as it was. -/
theorem byte_writeBack_dev (hh : x.home = .dev pa) (hlen : x.bytes.length = 64) (hlost : s.lostHome (.dev pa) 64 = none)
    (hw : Memory.wf s.mem = true) (a : Nat) : Memory.byte (s.writeBack x).mem a =
      if pa ≤ a ∧ a < pa + 64 ∧ onBit x.dirty (a - pa) = true then x.bytes.getD (a - pa) 0 else Memory.byte s.mem a := by
  by_cases hd : x.dirty = 0
  · rw [writeBack_clean hd]
    simp [hd, onBit]
  · have hover : (x.over (s.readPhys pa 64)).length = 64 := by
      rw [CacheSector.length_over, State.readPhys, Memory.read_length, hlen]
      rfl
    rw [writeBack_dev hd hh hlost]
    change Memory.byte (Memory.write s.mem pa (x.over (s.readPhys pa 64))) a = _
    by_cases hin : pa ≤ a ∧ a < pa + 64
    · obtain ⟨i, rfl⟩ := Nat.exists_eq_add_of_le hin.1
      have hi : i < 64 := by omega
      have hread : (s.readPhys pa 64).length = 64 := Memory.read_length _ _ _
      rw [Memory.byte_write_inside _ _ _ _ hw (by omega), CacheSector.getD_over (by omega) (by omega), State.readPhys,
        Memory.getD_read _ _ _ _ hi]
      simp [hi]
    · rw [Memory.byte_write_outside _ _ _ _ (by omega), if_neg fun h => hin ⟨h.1, h.2.1⟩]

end

/-! ## A home on another device -/

section
variable {s : State} {x : CacheSector} {d a o : Nat} {bs : List Byte}

/-- A line of one run is sent home as one store. -/
def State.storeRun (s : State) (x : CacheSector) (d a o : Nat) (bs : List Byte) : State × Bool :=
  let w := x.writer.getD ⟨0, 0, 0⟩
  (s.dropProxy x.tenant (x.sector * 64 + o) bs.length).request x.tenant 0x03 d 0 (a + o)
    (BitVec.ofNat 64 (bs.length * 2 ^ 16)) 0 (flitsOf bs) (.store w.block w.tid w.pc)

theorem writeBack_remote (hh : x.home = .remote d a) (hd : x.dirty ≠ 0) (hr : x.runs = [(o, bs)]) :
    s.writeBack x = (s.storeRun x d a o bs).1 := by
  rw [State.writeBack, if_neg (by simpa using hd), hh]
  simp only [hr]
  rfl

theorem storeRun_frame (h : (s.storeRun x d a o bs).2 = true) :
    { (s.storeRun x d a o bs).1 with fabric := s.fabric, proxy := s.proxy } = s :=
  (congrArg (fun u : State => { u with fabric := s.fabric, proxy := s.proxy }) (request_frame h) :)

end

/-! ## The step -/

theorem execLineEviction_eq {s : State} {core j : Nat} {x : CacheSector} (h : (s.core core).cache[j]? = some x) :
    Becomes s (.lineEviction core j) ((s.writeBack x).updCore core fun c => { c with cache := c.cache.eraseIdx j }) := by
  simp [Becomes, exec, execLineEviction, h]

/-- The cores after an eviction by a machine whose cores stand. -/
theorem core_evict {s u : State} {core : Nat} (j : Nat) (hc : u.cores = s.cores) (hw : Sparse.wf Core.reset s.cores = true) :
    ((u.updCore core fun c => { c with cache := c.cache.eraseIdx j }).core core).cache = (s.core core).cache.eraseIdx j
    ∧ ∀ c, c ≠ core → (u.updCore core fun c => { c with cache := c.cache.eraseIdx j }).core c = s.core c := by
  have hcore : ∀ c, u.core c = s.core c := fun c => by rw [State.core, State.core, hc]
  refine ⟨?_, fun c hne => (State.core_updCore_ne u core c _ hne).trans (hcore c)⟩
  rw [State.core_updCore u core _ (hc ▸ hw), hcore]

/-- The eviction of a cache line (R172). -/
theorem lineEviction_spec {s : State} {core j : Nat} {x : CacheSector} (hx : (s.core core).cache[j]? = some x)
    (hc : Sparse.wf Core.reset s.cores = true) (hm : Memory.wf s.mem = true) :
    Reaches s (.lineEviction core j) fun t =>
      (x.dirty = 0 ∨ (∃ pa, x.home = .dev pa ∧ s.lostHome (.dev pa) 64 = none) → t.blocks = s.blocks
        ∧ (t.core core).cache = (s.core core).cache.eraseIdx j ∧ ∀ c, c ≠ core → t.core c = s.core c)
      ∧ (x.dirty = 0 → t.mem = s.mem ∧ t.hostMem = s.hostMem)
      ∧ (∀ d a o bs, x.home = .remote d a → x.dirty ≠ 0 → x.runs = [(o, bs)] → (s.storeRun x d a o bs).2 = true →
          t.fabric = (s.storeRun x d a o bs).1.fabric ∧ t.mem = s.mem ∧ t.hostMem = s.hostMem ∧ t.blocks = s.blocks
            ∧ (t.core core).cache = (s.core core).cache.eraseIdx j)
      ∧ (∀ pa, x.home = .dev pa → x.bytes.length = 64 → s.lostHome (.dev pa) 64 = none → t.hostMem = s.hostMem ∧ ∀ a, Memory.byte t.mem a =
          if pa ≤ a ∧ a < pa + 64 ∧ onBit x.dirty (a - pa) = true then x.bytes.getD (a - pa) 0 else Memory.byte s.mem a) := by
  refine ⟨_, execLineEviction_eq hx, fun h => ?_, fun h => ?_, fun d a o bs hh hd hr hsent => ?_, fun pa hh hlen hlost => ?_⟩
  · have hframe : { s.writeBack x with mem := s.mem } = s := by
      rcases h with h | ⟨pa, hh, hlost⟩
      · rw [writeBack_clean h]
      · exact writeBack_dev_frame hh hlost
    exact ⟨(congrArg State.blocks hframe :), core_evict j (congrArg State.cores hframe :) hc⟩
  · rw [writeBack_clean h]
    exact ⟨rfl, rfl⟩
  · have hframe := storeRun_frame hsent
    rw [writeBack_remote hh hd hr]
    exact ⟨rfl, (congrArg State.mem hframe :), (congrArg State.hostMem hframe :), (congrArg State.blocks hframe :),
      (core_evict j (congrArg State.cores hframe :) hc).1⟩
  · exact ⟨(congrArg State.hostMem (writeBack_dev_frame hh hlost) :), byte_writeBack_dev hh hlen hlost hm⟩

end Sys2Proof.Machine
end
section
/-! The obligation on drains, completions and evictions. -/

namespace Sys2Proof.Machine

/-- Settles O48, clause by clause: a drain puts records only into quads of exited threads, a block that is done leaves with nothing of its
grid to fold, a release and the messages of a handle leave the Sluice entries alone but for the one that becomes READY, and a line is
written over what stood at its home. -/
theorem drainsCompletionsAndEviction : Obligations.DrainsCompletionsAndEviction := by
  unfold Obligations.DrainsCompletionsAndEviction
  refine ⟨?drain, ?block, ?task, ?wait, ?failed, ?line⟩
  case drain =>
    intro s core bin x k q qs hkey hdue hdl hi hk hq
    refine ⟨(boltDue_spec hdue).2, fun j tid => ⟨Block.length_quadThreads k j, fun hj ht => ?_⟩, boltDrain_spec hkey hdue hdl hi hk hq⟩
    exact State.exited_of_mem_freeQuads (hq.symm ▸ hj) ht
  case block =>
    intro s b k g hk hg hend hdone hms hw hreds
    obtain ⟨hparent, hthreads, hengines⟩ := blockDone_spec hk hdone
    exact ⟨hparent, hthreads, hengines, blockComplete_spec hk hg hend hdone hms hw hreds⟩
  case task =>
    intro s n g x e hg hdone htask hend hfail hrel hhome hgone he hready hbroken hivos hdropped ha hw hs
    subst he
    exact taskComplete_ready hg hdone htask hend hfail hrel hhome hgone hready hbroken hivos hdropped ha hw hs
  case wait =>
    intro s n g hg hdone hend hrel
    exact taskComplete_waits hg hdone hend hrel
  case failed =>
    intro s n g hg hdone hend ha hfail
    exact taskComplete_failed hg hdone hend ha hfail
  case line =>
    intro s core j x hx hc hm
    exact lineEviction_spec hx hc hm

end Sys2Proof.Machine
end
